-- ==== Sys2Proof/Word.lean ====
section
/-! DEFINITION. The byte: what the links shift and the page array stores. -/

namespace Sys2Proof

/-- One byte of a frame, of a page, or of an 8-bit counter advanced modulo 256 (00 Conventions). -/
abbrev Byte := BitVec 8

end Sys2Proof
end

