-- ==== Sys2Proof/Syntax.lean ====
section
/-! DEFINITION. The commands of the PQ316: one constructor for each row of spec/opcode_table.json. -/

namespace Sys2Proof

/-- The three host ports; A is 0, B is 1, C is 2 (00 Conventions). -/
inductive Port where
  | A | B | C
deriving DecidableEq, Repr

/-- Which edge of chip select a link command is: driven low, or driven high with what was shifted in (R160; log 6). -/
inductive Edge (α : Type) where
  | begins
  | ends (shifted : α)
deriving DecidableEq, Repr

/-- A command: a link transaction's beginning or end, a change of a pin or of the supply, the arrival of a request at a
port, a timer's expiry, or a report of the page array. The operand of a link transaction beside its port is the edge of
chip select, at its end with the bytes the host shifted in AFTER the transaction code (`rest`) or their number
(`shifted`): a transaction with none of them ended before both link status bytes were out (R160). -/
inductive Instr where
  | send (p : Port) (rest : Edge (List Byte))
  | fetch (p : Port) (shifted : Edge Nat)
  | linkReset (p : Port) (shifted : Edge Nat)
  | otherTransactionCode (p : Port) (code : Byte) (shifted : Edge Nat)
  | resetnAsserted
  | resetnReleased
  | endOfPowerUp
  | supplyLoss
  | pfailAsserted
  | pfailReleased
  | attach (p : Port) (tag : Byte) (body : List Byte)
  | detach (p : Port) (tag : Byte) (body : List Byte)
  | create (p : Port) (tag : Byte) (body : List Byte)
  | configure (p : Port) (tag : Byte) (body : List Byte)
  | delete (p : Port) (tag : Byte) (body : List Byte)
  | append (p : Port) (tag : Byte) (body : List Byte)
  | read (p : Port) (tag : Byte) (body : List Byte)
  | ack (p : Port) (tag : Byte) (body : List Byte)
  | rewind (p : Port) (tag : Byte) (body : List Byte)
  | setlevel (p : Port) (tag : Byte) (body : List Byte)
  | query (p : Port) (tag : Byte) (body : List Byte)
  | status (p : Port) (tag : Byte) (body : List Byte)
  | sync (p : Port) (tag : Byte) (body : List Byte)
  | events (p : Port) (tag : Byte) (body : List Byte)
  | mask (p : Port) (tag : Byte) (body : List Byte)
  | propose (p : Port) (tag : Byte) (body : List Byte)
  | agree (p : Port) (tag : Byte) (body : List Byte)
  | refuse (p : Port) (tag : Byte) (body : List Byte)
  | frameEntry (p : Port)
  | unknownEntry (p : Port) (tag : Byte) (kind : Byte)
  | spaceTimerExpiry (p : Port)
  | flushTimerExpiry
  | starvationTimerExpiry
  | runTimerExpiry
  | windowTimerExpiry
  | readPageDone
  | mountReadDone
  | appendStep1Done
  | appendStep2Done
  | appendStepFail
  | appendVoidStepEnd (verified : Bool)
  | metaStep1Done
  | metaStep2Done
  | metaStepFail
  | metaVoidStepEnd (verified : Bool)
  | checkpointPageCommit
  | erasePulseEnd (verified : Bool)
  | suspended
  | abandoned
deriving DecidableEq, Repr

end Sys2Proof
end

