-- ==== Sys2Proof/Decode.lean ====
section
/-! DEFINITION. Reading a command from a word by the table's bits. spec/opcode_table.json gives bits to no row
("fields" is empty in every one), so no word spells a command: the answer is none for every word. -/

namespace Sys2Proof

/-- The command that a word of `nbits` bits spells by the bits of spec/opcode_table.json. -/
def decodeTableWord (nbits w : Nat) : Option Instr :=
  match nbits, w with
  | _, _ => none

end Sys2Proof
end

