-- ==== Sys2Proof/Machine/Bytes.lean ====
section
/-! DEFINITION. Byte order and the CRC: multi-byte fields most significant byte first (00 Conventions), and the one
16-bit CRC of R70. -/

namespace Sys2Proof.Machine

open Sys2Proof

/-- `w` bytes of a number, most significant first; what does not fit is dropped. -/
def bigEndian : Nat → Nat → List Byte
  | 0, _ => []
  | w + 1, n => BitVec.ofNat 8 (n / 256 ^ w) :: bigEndian w n

/-- The number a list of bytes spells, most significant first. -/
def fromBytes (l : List Byte) : Nat := l.foldl (fun acc b => acc * 256 + b.toNat) 0

/-- The `n` bytes at offset `i`. -/
def bytesAt (l : List Byte) (i n : Nat) : List Byte := (l.drop i).take n

/-- The big-endian field of `n` bytes at offset `i`. -/
def fieldAt (l : List Byte) (i n : Nat) : Nat := fromBytes (bytesAt l i n)

/-- The byte at offset `i`, 00h beyond the end. -/
def byteAt (l : List Byte) (i : Nat) : Byte := l.getD i 0

/-- One shift of the CRC register (R70, step 3). -/
def crcShift (r : BitVec 16) : BitVec 16 :=
  if r.msb then (r <<< 1) ^^^ 0x1021#16 else r <<< 1

/-- One byte into the CRC register (R70, steps 2 and 3). -/
def crcByte (r : BitVec 16) (b : Byte) : BitVec 16 :=
  let x := r ^^^ (b.setWidth 16 <<< 8)
  crcShift (crcShift (crcShift (crcShift (crcShift (crcShift (crcShift (crcShift x)))))))

/-- The CRC of R70 over bytes in ascending order. -/
def crc16 (l : List Byte) : BitVec 16 := l.foldl crcByte 0xFFFF#16

/-- A CRC as stored and sent, most significant byte first (R70). -/
def crcBytes (l : List Byte) : List Byte := bigEndian 2 (crc16 l).toNat

end Sys2Proof.Machine
end

