-- ==== Sys2Proof/Config.lean ====
section
/-! DEFINITION. What the PQ316 fixes ("The part in numbers", 00) and the free values the manual leaves open. -/

namespace Sys2Proof.Config

/-- FREE VALUE (log 1, R69): for the n-th draw and a byte address, which of the byte's bits a pulse that was cut
short or did not take has moved. Nothing constrains it. -/
opaque pulseBits : Nat → Nat → Byte

/-- FREE VALUE (log 1, R77): for the n-th draw, the pulses a program step took to verify. The model uses it only brought
into the range 1 to 8. -/
opaque stepPulses : Nat → Nat

/-- FREE VALUE (log 1, R139): for the n-th draw, the time a ballot's window has left. The model uses it only
reduced to at most 250 ms. -/
opaque windowLeft : Nat → Nat

/-- The staging buffer holds 15 entries (R105), and a metadata page carries 15. -/
def stagingPlaces : Nat := 15
/-- Pages of a half (R68). -/
def halfPages : Nat := 32
/-- Pages of a sector (R68). -/
def sectorPages : Nat := 16
/-- Write position at which a compaction begins (R114). -/
def compactionTrigger : Nat := 24
/-- The bad list holds at most 32 sectors (R16). -/
def badLimit : Nat := 32
/-- Request and response queues hold 4 each (R166). -/
def queueSlots : Nat := 4
/-- An event queue holds 16 entries (R154). -/
def eventSlots : Nat := 16
/-- EVENTS returns at most eight entries (R156). -/
def eventsPerResponse : Nat := 8
/-- Level of a created or mounted cursor (R48). -/
def defaultLevel : Nat := 1024
/-- Lost counts and repair counts saturate here (R50, R123). -/
def saturation16 : Nat := 65535
/-- Erase counts saturate here (R8). -/
def eraseCountMax : Nat := 0xFFFFFF
/-- The erased value of a sequence or serial field; never assigned (R28, R104). -/
def erasedSerial : Nat := 0xFFFFFFFF
/-- Suspensions per erase (R89). -/
def suspensionBudget : Nat := 16
/-- Pulses of a program step at most (R77). -/
def programPulses : Nat := 8
/-- Pulses of an erase (R79). -/
def erasePulses : Nat := 6
/-- Append attempts (R42). -/
def appendAttempts : Nat := 3
/-- Entries of a checkpoint at most (R117, R126). -/
def checkpointMax : Nat := 132
/-- Ballot window in ms (R141). -/
def ballotWindow : Nat := 250
/-- The default event mask, PEER alone (R154, R163). -/
def defaultMask : BitVec 16 := 0x0200#16
/-- Bound on the consequences taken in one event (log 7). -/
def settleFuel : Nat := 256

end Sys2Proof.Config
end

