-- ==== Sys2Proof/Machine/State.lean ====
section
/-! DEFINITION. The state of the PQ316: every table, queue, register, pin and array byte the spec gives the part,
as plain data, and the state right after reset. -/

namespace Sys2Proof.Machine

open Sys2Proof

/-! ### One value a port -/

/-- One value for each of the ports A, B and C. -/
structure PerPort (α : Type) where
  a : α
  b : α
  c : α
deriving DecidableEq, Repr

namespace PerPort

/-- The value held for a port. -/
def get {α : Type} (t : PerPort α) : Port → α
  | .A => t.a
  | .B => t.b
  | .C => t.c

/-- The table with one port's value replaced. -/
def set {α : Type} (t : PerPort α) (p : Port) (x : α) : PerPort α :=
  match p with
  | .A => { t with a := x }
  | .B => { t with b := x }
  | .C => { t with c := x }

/-- The same value for every port. -/
def all {α : Type} (x : α) : PerPort α := ⟨x, x, x⟩

end PerPort

/-- A subset of the ports, such as a reader set (R1). -/
abbrev PortSet := PerPort Bool

/-- The ports in the order A, B, C. -/
def portList : List Port := [.A, .B, .C]

/-! ### State controller (R175) -/

/-- The device states of R161 and R175. -/
inductive DeviceState where
  | mounting | blank | ready | readOnly | formatting | stopping | stopped
deriving DecidableEq, Repr

/-- The reason codes of R172 and R175. -/
inductive Reason where
  | none | mediaWorn | metaMedia
deriving DecidableEq, Repr

/-! ### Frames, requests and responses (R162 to R166, R174) -/

/-- The request kinds of R163. -/
inductive Kind where
  | attach | detach | create | configure | delete | append | read | ack | rewind | setlevel | query | status | sync
  | events | mask | propose | agree | refuse
deriving DecidableEq, Repr

/-- An entry of a request queue, as R164 marks it. -/
inductive Request where
  /-- the frame's length or CRC was bad -/
  | frame
  /-- the kind code lies outside 01h to 12h -/
  | unknown (tag kind : Byte)
  /-- a request of its kind -/
  | known (tag : Byte) (kind : Kind) (body : List Byte)
deriving DecidableEq, Repr

/-- The status codes of R174. -/
inductive Status where
  | ok | empty | corrupt | full | nospace | seqExhausted | held | media | notAttached | notReady | readOnly | noStream
  | notWriter | notReader | notParty | badArg | limit | backlog | seq | ballotBusy | stale | voted | aborted | frame
  | unknown
deriving DecidableEq, Repr

/-- A response waiting to be fetched (R162). -/
structure Response where
  tag : Byte
  kind : Byte
  status : Status
  body : List Byte
deriving DecidableEq, Repr

/-- What a transaction takes from the port when it begins: the link status it shifts out (R160) and the response a FETCH
shifts out (R165). -/
structure Sample where
  status : List Byte
  oldest : Option Response
deriving DecidableEq, Repr

/-- A host port's session and queues (R161, R164 to R168). `sdo` is what data out carried in the port's last
transaction, `begun` what the transaction under way took at its beginning (R160, R165; log 6). -/
structure HostPort where
  attached : Bool
  requests : List Request
  responses : List Response
  rejected : Bool
  sdo : List Byte
  begun : Option Sample
deriving DecidableEq, Repr

/-! ### Event unit (R152, R154) -/

/-- The event kinds of R152, in code order. -/
inductive EventKind where
  | highWater | backlog | lost | streamGone | ballotOpen | ballotDone | retired | state | peer
deriving DecidableEq, Repr

/-- An event: a kind, with a subject and a value where the kind has one (R152). -/
structure Event where
  kind : EventKind
  subject : Option Nat
  value : Option Nat
deriving DecidableEq, Repr

/-- One port's event queue, overflow flag and mask (R154). -/
structure EventUnit where
  queue : List Event
  overflow : Bool
  mask : BitVec 16
deriving DecidableEq, Repr

/-! ### Stream, cursor and sector tables (R1, R8, R10, R48) -/

/-- A stream's policy at its quota (R1). -/
inductive Policy where
  | refuse | dropOldest
deriving DecidableEq, Repr

/-- The fields an OPEN or HELD descriptor holds besides its incarnation (R1). -/
structure StreamBody where
  held : Bool
  nameTag : BitVec 32
  writer : Port
  readers : PortSet
  policy : Policy
  quota : Nat
  margin : Nat
  next : Nat
  oldest : Nat
  chain : List Nat
  used : Nat
  high : Bool
  ballotHeld : Bool
deriving DecidableEq, Repr

/-- A stream descriptor: `body` is absent in state FREE (R1). -/
structure Stream where
  incarnation : Byte
  body : Option StreamBody
deriving DecidableEq, Repr

/-- A cursor (R48). `recCommitted` and `recLost` are the metadata writer's record of it (R108, R117). -/
structure Cursor where
  committed : Nat
  delivered : Nat
  level : Nat
  flag : Bool
  lost : Nat
  recCommitted : Nat
  recLost : Nat
deriving DecidableEq, Repr

/-- The fate of one page of a chain sector (R10). -/
inductive PageState where
  | unused | writing | live (seq : Nat) | void
deriving DecidableEq, Repr

/-- The states of a data sector (R8); `unclassified` before mount has classified it. -/
inductive SectorState where
  | unclassified | free | tail | filled | queued | erasing | suspended | bad
deriving DecidableEq, Repr

/-- A data-sector descriptor (R8). Fields absent in the sector's state hold their blank value: no owner, suspect
clear, mark 0, every page UNUSED. -/
structure Sector where
  state : SectorState
  owner : Option (Fin 16 × Byte)
  eraseCount : Nat
  suspect : Bool
  mark : Nat
  pages : Vector PageState 16
deriving DecidableEq, Repr

/-! ### Metadata entries and the metadata writer (R103, R105, R108) -/

/-- The metadata entries of R103. -/
inductive MetaEntry where
  | streamDef (stream : Fin 16) (inc : Byte) (writer : Port) (readers : PortSet) (held : Bool) (policy : Policy)
      (nameTag : BitVec 32) (quota margin base : Nat)
  | streamDrop (stream : Fin 16) (inc : Byte)
  | cursor (stream : Fin 16) (inc : Byte) (port : Port) (committed lost : Nat)
  | wear (first c0 c1 c2 c3 : Nat)
  | retire (sectors : List Nat)
  | checkpointEnd (snapshot count : Nat)
deriving DecidableEq, Repr

/-- The condition of a staged entry (R105). -/
inductive Staging where
  | opened | taken | covered
deriving DecidableEq, Repr

/-- An entry of the staging buffer (R105). -/
structure Staged where
  serial : Nat
  entry : MetaEntry
  cond : Staging
deriving DecidableEq, Repr

/-- The writer states of R108. -/
inductive WriterState where
  | dormant | idle | claim1 | program1 | claim2 | program2 | halted
deriving DecidableEq, Repr

/-- The page kinds of R73. -/
inductive MetaKind where
  | checkpoint | journal
deriving DecidableEq, Repr

/-- What a page in flight still does when its step ends: carry on (`kept`), or end with the step because the writer
went HALTED (R120) or FORMATTING discarded it (R121). -/
inductive PageFate where
  | kept | halted | discarded
deriving DecidableEq, Repr

/-- The page in flight (R108): `step2` once step 2 is claimed, `voiding` while the void step runs. -/
structure PageInFlight where
  half : Nat
  page : Nat
  kind : MetaKind
  generation : Nat
  first : Nat
  entries : List MetaEntry
  step2 : Bool
  voiding : Bool
  fate : PageFate
deriving DecidableEq, Repr

/-- The compaction phases of R108. -/
inductive Compaction where
  | none | erasing | checkpoint
deriving DecidableEq, Repr

/-- The metadata writer's part of the stopping sequence (R122). -/
inductive StopFlush where
  | notStopping | finishing | flushing | done
deriving DecidableEq, Repr

/-- A producer on the place-wait list (R107). -/
inductive Waiter where
  | executor (p : Port) | engine | consent
deriving DecidableEq, Repr

/-- The metadata writer (R104 to R108, R114 to R118, R121, R122). -/
structure Writer where
  state : WriterState
  activeHalf : Option Nat
  generation : Nat
  writePos : Nat
  broken : Bool
  staging : List Staged
  nextSerial : Nat
  durableSerial : Nat
  timerRunning : Bool
  timerExpired : Bool
  inFlight : Option PageInFlight
  phase : Compaction
  target : Nat
  erased : Nat
  snapshot : Nat
  list : List MetaEntry
  written : Nat
  checkpointPos : Nat
  forFormat : Bool
  placeWait : List Waiter
  stop : StopFlush
deriving DecidableEq, Repr

/-! ### Executors (R167) -/

/-- The executor states of R167; WAIT_DURABLE carries the serial waited for (R113). -/
inductive ExecState where
  | idle | check | waitArray | onArray | waitSpace | waitStaging | waitDurable (serial : Nat) | waitSlot
deriving DecidableEq, Repr

/-- How far an APPEND has come: finding a page (CHECK, the waits before step 1), step 1 on the array, between its
steps, step 2 on the array, the void step on the array (R41), or an outcome whose RETIRE entries wait for places
(R43). -/
inductive AppendPhase where
  | seek | step1 | between | step2 | voiding | committed (seq : Nat) | failed
deriving DecidableEq, Repr

/-- An APPEND in execution: stream, phase, target page, attempt count (R42), kept RETIRE entries (R43). -/
structure AppendJob where
  stream : Fin 16
  phase : AppendPhase
  sector : Nat
  page : Nat
  attempts : Nat
  kept : List MetaEntry
deriving DecidableEq, Repr

/-- What an executor remembers of the request in hand besides the request. -/
inductive Job where
  | none
  /-- a READ whose claim waits, with the incarnation noted at admission (R52) -/
  | read (stream : Fin 16) (inc : Byte)
  /-- a READ on the array, with the sequence d and page chosen at the grant (R53) -/
  | reading (stream : Fin 16) (inc : Byte) (seq sector page : Nat)
  | append (job : AppendJob)
  /-- a CREATE that waits for durability, with the number and incarnation it answers (R19) -/
  | created (stream : Fin 16) (inc : Byte)
  /-- an ACK that waits for durability, with the committed it answers (R57, R59) -/
  | acked (committed : Nat)
deriving DecidableEq, Repr

/-- A port's request executor (R166, R167). A request ended while its operation is on the array leaves `inHand`
absent and the job in place until the operation ends (R44, R45, R56). -/
structure Executor where
  state : ExecState
  inHand : Option Request
  job : Job
deriving DecidableEq, Repr

/-! ### Page array, arbiter and erase engine (R75, R85, R93) -/

/-- The operation in progress (R75), with what it acts on (R76, R77). -/
inductive ArrayOp where
  | none
  | read (sector page : Nat)
  | program (sector page first : Nat) (target : List Byte)
  | erase
  | suspending
deriving DecidableEq, Repr

/-- The phases of an erase context (R75). -/
inductive ErasePhase where
  | running | suspending | suspended
deriving DecidableEq, Repr

/-- The erase context (R75); `abandon` while an ABANDON's stop is under way (R82). -/
structure EraseContext where
  sector : Nat
  pulses : Nat
  phase : ErasePhase
  abandon : Bool
deriving DecidableEq, Repr

/-- The five claimants (R85). -/
inductive Claimant where
  | executor (p : Port) | writer | engine
deriving DecidableEq, Repr

/-- The array arbiter (R85, R91). Waiting claims are read off the claimants' own states (R93, R108, R167). -/
structure Arbiter where
  holder : Option Claimant
  pointer : Port
  starved : Bool
  starveTimer : Bool
deriving DecidableEq, Repr

/-- The engine states of R93. -/
inductive EngineState where
  | idle | gated | claiming | running | suspending | suspended | waitStaging
deriving DecidableEq, Repr

/-- Where the current erase's sector came from (R93). -/
inductive EraseSource where
  | slot | queue
deriving DecidableEq, Repr

/-- The run timer (R89): stopped, under 2 ms, or at 2 ms or more. -/
inductive RunTimer where
  | stopped | running | reached
deriving DecidableEq, Repr

/-- The current erase (R93). -/
structure CurrentErase where
  sector : Nat
  source : EraseSource
  suspensions : Nat
  timer : RunTimer
deriving DecidableEq, Repr

/-- The outcome in hand (R93): the WEAR entry of a group or the RETIRE entry of a sector, not yet staged. -/
inductive EraseOutcome where
  | wear (first : Nat) | retire (sector : Nat)
deriving DecidableEq, Repr

/-- The erase engine (R93). -/
structure Engine where
  state : EngineState
  slot : List Nat
  current : Option CurrentErase
  outcome : Option EraseOutcome
deriving DecidableEq, Repr

/-! ### Mount unit and consent unit (R123, R139) -/

/-- The phases of R123, and the model's own `idle` in STOPPING, STOPPED, in reset and without supply (log 56). -/
inductive MountPhase where
  | idle | metaScan | replay | dataScan | chains | cursors | reclaim | done
deriving DecidableEq, Repr

/-- A retained cursor position (R130). -/
structure Retained where
  inc : Byte
  committed : Nat
  lost : Nat
deriving DecidableEq, Repr

/-- An owned sector found by DATA_SCAN (R131, R132); `forced` when a sequence break made it FILLED. -/
structure OwnedSector where
  sector : Nat
  stream : Fin 16
  pages : Vector PageState 16
  forced : Bool
deriving DecidableEq, Repr

/-- The mount unit (R123) with its working tables (R129 to R132). -/
structure Mount where
  phase : MountPhase
  repair : Nat
  half : Nat
  generation : Nat
  writePos : Nat
  broken : Bool
  lastSerial : Nat
  streams : Vector Stream 16
  retained : Vector (PerPort (Option Retained)) 16
  counts : Vector Nat 256
  bad : List Nat
  freeFound : List Nat
  released : List Nat
  owned : List OwnedSector
deriving DecidableEq, Repr

/-- The consent unit's states (R139). -/
inductive ConsentState where
  | idle | opened | purgePending | purgeStaging | formatDrain | formatErase | formatCheckpoint
deriving DecidableEq, Repr

/-- What a ballot proposes (R139). -/
inductive BallotOp where
  | purge (stream : Fin 16) (inc : Byte) | format
deriving DecidableEq, Repr

/-- A ballot's outcome (R145, R152). -/
inductive BallotOutcome where
  | passed | refused | expired | aborted
deriving DecidableEq, Repr

/-- The open ballot (R139). Its window timer runs exactly while it exists (R141, R145). -/
structure Ballot where
  id : Byte
  op : BallotOp
  proposer : Port
  parties : PortSet
  agreed : PortSet
deriving DecidableEq, Repr

/-- The consent unit (R139); `formatHalf`, `formatErased` are FORMAT's progress (R149): the half erased first, and how
many metadata sectors have been reported erased. -/
structure Consent where
  state : ConsentState
  counter : Byte
  ballot : Option Ballot
  pending : Option (Fin 16 × Byte)
  formatHalf : Nat
  formatErased : Nat
deriving DecidableEq, Repr

/-! ### The part -/

/-- The page array's contents (R68): (address, byte) pairs, addresses strictly rising, no byte FFh. -/
abbrev Flash := List Host.Cell

/-- Everything the part holds but the array's bytes: pins, RAM tables, and the blocks' states. -/
structure Device where
  powered : Bool
  resetLow : Bool
  pfail : Bool
  mode : DeviceState
  reason : Reason
  ports : PerPort HostPort
  events : PerPort EventUnit
  execs : PerPort Executor
  streams : Vector Stream 16
  cursors : Vector (PerPort (Option Cursor)) 16
  sectors : Vector Sector 256
  freePool : List Nat
  eraseQueue : List Nat
  badList : List Nat
  spaceWait : List Port
  arrayOp : ArrayOp
  /-- the number of pulses PROGRAM_DONE last reported (R77), 0 before the first -/
  pulses : Nat
  /-- the completed pulses ERASE_DONE last ended with (R79), 0 before the first -/
  eraseDonePulses : Nat
  eraseCtx : Option EraseContext
  arbiter : Arbiter
  engine : Engine
  writer : Writer
  mount : Mount
  consent : Consent
  /-- how many free values have been drawn (log 1): the model's own -/
  draws : Nat
deriving DecidableEq, Repr

/-- The machine: the part, its page array, and the commands that wait, first in first out. -/
structure State where
  dev : Device
  flash : Flash
  pending : List Instr
deriving DecidableEq, Repr

/-- The PQ316 has no machine fault: what cannot be carried out is answered with a status (R174) or reported by the
array (R77, R79). The type is empty: nobody raises a fault. -/
inductive Fault where
deriving DecidableEq, Repr

/-- Why the model would not run a command. -/
inductive Refusal where
  /-- Raised by `exec`'s arm of a command that has no meaning yet; safe (the model stops). No arm raises it now. -/
  | notModelled (mnemonic : String)
deriving DecidableEq, Repr

/-! ### Power-up values -/

/-- A FREE descriptor (R1). -/
def Stream.blank : Stream := ⟨0, none⟩

/-- A descriptor of the empty sector map (R8). -/
def Sector.blank : Sector := ⟨.unclassified, none, 0, false, 0, Vector.replicate 16 .unused⟩

/-- An executor with no request in hand (R166). -/
def Executor.rest : Executor := ⟨.idle, none, .none⟩

/-- A detached port with empty queues (R161, R166, R168). -/
def HostPort.powerUp : HostPort := ⟨false, [], [], false, [], none⟩

/-- An empty event queue with the default mask (R154). -/
def EventUnit.powerUp : EventUnit := ⟨[], false, Config.defaultMask⟩

/-- The arbiter's values of R85. -/
def Arbiter.powerUp : Arbiter := ⟨none, .C, false, false⟩

/-- The engine's values of R93. -/
def Engine.powerUp : Engine := ⟨.idle, [], none, none⟩

/-- The writer before mount hands over (R104, R105, R108; log 20). -/
def Writer.powerUp : Writer :=
  ⟨.dormant, none, 0, 0, false, [], 0, 0, false, false, none, .none, 0, 0, 0, [], 0, 0, false, [], .notStopping⟩

/-- No mount under way and nothing found. -/
def Mount.powerUp : Mount :=
  ⟨.idle, 0, 0, 0, 0, false, 0, Vector.replicate 16 Stream.blank, Vector.replicate 16 (PerPort.all none),
    Vector.replicate 256 0, [], [], [], []⟩

/-- The consent unit's values of R139. -/
def Consent.powerUp : Consent := ⟨.idle, 0, none, none, 0, 0⟩

/-- The RAM at its power-up values (R1, R8, R48, R75, R85, R93, R104, R139, R154, R166, R175), on the pins and draw
counter given. -/
def Device.powerUp (powered resetLow pfail : Bool) (draws : Nat) : Device where
  powered := powered
  resetLow := resetLow
  pfail := pfail
  mode := .mounting
  reason := .none
  ports := PerPort.all HostPort.powerUp
  events := PerPort.all EventUnit.powerUp
  execs := PerPort.all Executor.rest
  streams := Vector.replicate 16 Stream.blank
  cursors := Vector.replicate 16 (PerPort.all none)
  sectors := Vector.replicate 256 Sector.blank
  freePool := []
  eraseQueue := []
  badList := []
  spaceWait := []
  arrayOp := .none
  pulses := 0
  eraseDonePulses := 0
  eraseCtx := none
  arbiter := Arbiter.powerUp
  engine := Engine.powerUp
  writer := Writer.powerUp
  mount := Mount.powerUp
  consent := Consent.powerUp
  draws := draws

/-- Right after the release of RESETn or the end of power-up (R123, R175, R177): MOUNTING, META_SCAN, the read of page
0 of half 0 under way; the array as a part never programmed (log 2), PFAIL released (log 3). -/
def State.reset : State where
  dev :=
    { Device.powerUp true false false 0 with
      mount := { Mount.powerUp with phase := .metaScan }
      arrayOp := .read 0 0 }
  flash := []
  pending := []

end Sys2Proof.Machine
end

