-- ==== Sys2Proof/Machine/Frames.lean ====
section
/-! DEFINITION. Frames and codes of the link (R161 to R164, R174). -/

namespace Sys2Proof.Machine

open Sys2Proof

/-- Port numbers of frames and headers: A 0, B 1, C 2. -/
def portCode : Port → Nat
  | .A => 0
  | .B => 1
  | .C => 2

/-- The port of a port number. -/
def portOfCode : Nat → Option Port
  | 0 => some .A
  | 1 => some .B
  | 2 => some .C
  | _ => none

/-- A reader set as one number: A 1, B 2, C 4 (R103, R163). -/
def portSetCode (s : PortSet) : Nat :=
  (if s.a then 1 else 0) + (if s.b then 2 else 0) + (if s.c then 4 else 0)

/-- The reader set of a byte; any bit above bit 2 names no port (R163). -/
def portSetOfCode (n : Nat) : Option PortSet :=
  if n < 8 then some ⟨n % 2 == 1, n / 2 % 2 == 1, n / 4 % 2 == 1⟩ else none

/-- Device state codes (R161). -/
def deviceCode : DeviceState → Nat
  | .mounting => 1
  | .blank => 2
  | .ready => 3
  | .readOnly => 4
  | .formatting => 5
  | .stopping => 6
  | .stopped => 7

/-- Reason codes (R172). -/
def reasonCode : Reason → Nat
  | .none => 0
  | .mediaWorn => 1
  | .metaMedia => 2

/-- Request kind codes (R163). -/
def Kind.code : Kind → Nat
  | .attach => 0x01
  | .detach => 0x02
  | .create => 0x03
  | .configure => 0x04
  | .delete => 0x05
  | .append => 0x06
  | .read => 0x07
  | .ack => 0x08
  | .rewind => 0x09
  | .setlevel => 0x0A
  | .query => 0x0B
  | .status => 0x0C
  | .sync => 0x0D
  | .events => 0x0E
  | .mask => 0x0F
  | .propose => 0x10
  | .agree => 0x11
  | .refuse => 0x12

/-- The kind a code names; a code outside 01h to 12h names none (R163, R164). -/
def kindOfCode : Nat → Option Kind
  | 0x01 => some .attach
  | 0x02 => some .detach
  | 0x03 => some .create
  | 0x04 => some .configure
  | 0x05 => some .delete
  | 0x06 => some .append
  | 0x07 => some .read
  | 0x08 => some .ack
  | 0x09 => some .rewind
  | 0x0A => some .setlevel
  | 0x0B => some .query
  | 0x0C => some .status
  | 0x0D => some .sync
  | 0x0E => some .events
  | 0x0F => some .mask
  | 0x10 => some .propose
  | 0x11 => some .agree
  | 0x12 => some .refuse
  | _ => none

/-- Status codes (R174). -/
def Status.code : Status → Nat
  | .ok => 0x00
  | .empty => 0x01
  | .corrupt => 0x02
  | .full => 0x03
  | .nospace => 0x04
  | .seqExhausted => 0x05
  | .held => 0x06
  | .media => 0x07
  | .notAttached => 0x08
  | .notReady => 0x09
  | .readOnly => 0x0A
  | .noStream => 0x0B
  | .notWriter => 0x0C
  | .notReader => 0x0D
  | .notParty => 0x0E
  | .badArg => 0x0F
  | .limit => 0x10
  | .backlog => 0x11
  | .seq => 0x12
  | .ballotBusy => 0x13
  | .stale => 0x14
  | .voted => 0x15
  | .aborted => 0x16
  | .frame => 0x17
  | .unknown => 0x18

/-- Event kind codes (R152). -/
def EventKind.code : EventKind → Nat
  | .highWater => 1
  | .backlog => 2
  | .lost => 3
  | .streamGone => 4
  | .ballotOpen => 5
  | .ballotDone => 6
  | .retired => 7
  | .state => 8
  | .peer => 9

/-- The transactions of R160, as the first byte shifted in tells them apart. -/
inductive Transaction where
  | send | fetch | linkReset | other
deriving DecidableEq, Repr

/-- The transaction a code names: 01h SEND, 02h FETCH, 03h LINK_RESET, any other none of them (R160). -/
def transactionOfCode : Byte → Transaction
  | 0x01#8 => .send
  | 0x02#8 => .fetch
  | 0x03#8 => .linkReset
  | _ => .other

/-- A request frame (R162). -/
def requestFrame (tag kind : Byte) (body : List Byte) : List Byte :=
  let covered := tag :: kind :: BitVec.ofNat 8 body.length :: body
  covered ++ crcBytes covered

/-- How R164 marks the bytes of a SEND: FRAME for a bad length or CRC, UNKNOWN for an unknown kind code, otherwise a
request of its kind. -/
def classifyFrame (bytes : List Byte) : Request :=
  let len := (byteAt bytes 2).toNat
  if 250 < len || bytes.length != 5 + len || crcBytes (bytes.take (3 + len)) != bytesAt bytes (3 + len) 2 then .frame
  else
    match kindOfCode (byteAt bytes 1).toNat with
    | none => .unknown (byteAt bytes 0) (byteAt bytes 1)
    | some k => .known (byteAt bytes 0) k (bytesAt bytes 3 len)

/-- A response frame (R162). -/
def responseFrame (r : Response) : List Byte :=
  let covered := r.tag :: r.kind :: BitVec.ofNat 8 r.status.code :: BitVec.ofNat 8 r.body.length :: r.body
  covered ++ crcBytes covered

/-- The empty frame of R165: tag, kind, status and body length 00h, then the CRC. -/
def emptyFrame : List Byte := [0, 0, 0, 0] ++ crcBytes [0, 0, 0, 0]

/-- The tag and kind a response repeats; 00h and 00h for a FRAME entry (R162, R164). -/
def Request.label : Request → Byte × Byte
  | .frame => (0, 0)
  | .unknown tag kind => (tag, kind)
  | .known tag kind _ => (tag, BitVec.ofNat 8 kind.code)

end Sys2Proof.Machine
end

