-- ==== Sys2Proof/Machine/Ops.lean ====
section
/-! DEFINITION. Named operations on the part's tables and executors, used by every command. -/

namespace Sys2Proof.Machine

open Sys2Proof

/-! ### Access -/

/-- The part takes commands: supply present and RESETn high (R177). -/
def Device.active (d : Device) : Bool := d.powered && !d.resetLow

/-- A stream's fields; none when the number is FREE (R1). -/
def Device.stream (d : Device) (st : Fin 16) : Option StreamBody := d.streams[st.val].body

/-- A stream number's incarnation (R3). -/
def Device.incarnation (d : Device) (st : Fin 16) : Byte := d.streams[st.val].incarnation

/-- Replace a stream's fields, keeping its incarnation. -/
def Device.setBody (d : Device) (st : Fin 16) (b : Option StreamBody) : Device :=
  { d with streams := d.streams.set st.val ⟨d.incarnation st, b⟩ }

/-- A stream number takes an incarnation and fields together (CREATE, R18). -/
def Device.setStream (d : Device) (st : Fin 16) (x : Stream) : Device := { d with streams := d.streams.set st.val x }

/-- A cursor (R48). -/
def Device.cursor (d : Device) (st : Fin 16) (p : Port) : Option Cursor := d.cursors[st.val].get p

/-- Create, replace or discard a cursor. -/
def Device.setCursor (d : Device) (st : Fin 16) (p : Port) (c : Option Cursor) : Device :=
  { d with cursors := d.cursors.set st.val (d.cursors[st.val].set p c) }

/-- Discard every cursor of a stream (R23). -/
def Device.dropCursors (d : Device) (st : Fin 16) : Device :=
  { d with cursors := d.cursors.set st.val (PerPort.all none) }

/-- A data sector's descriptor (R8). -/
def Device.sector (d : Device) (n : Nat) : Sector := if h : n < 256 then d.sectors[n] else Sector.blank

/-- Replace a data sector's descriptor. -/
def Device.setSector (d : Device) (n : Nat) (x : Sector) : Device :=
  if h : n < 256 then { d with sectors := d.sectors.set n x } else d

/-- A port's session and queues. -/
def Device.port (d : Device) (p : Port) : HostPort := d.ports.get p

/-- Replace a port's session and queues. -/
def Device.setPort (d : Device) (p : Port) (x : HostPort) : Device := { d with ports := d.ports.set p x }

/-- A port's executor. -/
def Device.exec (d : Device) (p : Port) : Executor := d.execs.get p

/-- Replace a port's executor. -/
def Device.setExec (d : Device) (p : Port) (x : Executor) : Device := { d with execs := d.execs.set p x }

/-- The executor in a state and job, the request in hand kept. -/
def Device.toExec (d : Device) (p : Port) (state : ExecState) (job : Job) : Device :=
  d.setExec p { d.exec p with state := state, job := job }

/-- The executor in another state, request and job kept. -/
def Device.toExecState (d : Device) (p : Port) (state : ExecState) : Device :=
  d.setExec p { d.exec p with state := state }

/-- Ports whose session is ATTACHED, as a set (R172). -/
def Device.attachedPorts (d : Device) : PortSet := ⟨d.ports.a.attached, d.ports.b.attached, d.ports.c.attached⟩

/-- Room: quota × 16 less used pages (R5). -/
def StreamBody.room (b : StreamBody) : Nat := b.quota * 16 - b.used

/-- Advance the draw counter: the next free value is a new one (log 1). -/
def Device.drawn (d : Device) : Device := { d with draws := d.draws + 1 }

/-! ### Responses (R166) -/

/-- Place a response to a request at the tail end of the port's response queue. -/
def Device.respond (d : Device) (p : Port) (r : Request) (status : Status) (body : List Byte) : Device :=
  d.setPort p { d.port p with
    responses := (d.port p).responses ++ [⟨r.label.1, r.label.2, status, body⟩] }

/-- Answer the request in hand and become IDLE; a request already ended has no response (R166). -/
def Device.answer (d : Device) (p : Port) (status : Status) (body : List Byte) : Device :=
  match (d.exec p).inHand with
  | none => d.setExec p Executor.rest
  | some r => (d.respond p r status body).setExec p Executor.rest

/-! ### The array (R75, R85) -/

/-- Release the array: no holder, no operation. -/
def Device.release (d : Device) : Device :=
  { d with arrayOp := .none, arbiter := { d.arbiter with holder := none } }

/-- The executor that holds the array. -/
def Device.holdingPort (d : Device) : Option Port :=
  match d.arbiter.holder with
  | some (.executor p) => some p
  | some .writer => none
  | some .engine => none
  | none => none

/-- An executor's claim waits exactly while it is in WAIT_ARRAY (R167). -/
def Device.execClaims (d : Device) (p : Port) : Bool := (d.exec p).state == .waitArray

/-- The metadata writer's claim waits in CLAIM_1 and CLAIM_2 (R108). -/
def Device.writerClaims (d : Device) : Bool := d.writer.state == .claim1 || d.writer.state == .claim2

/-- The erase engine's claim waits in CLAIMING and SUSPENDED (R93). -/
def Device.engineClaims (d : Device) : Bool := d.engine.state == .claiming || d.engine.state == .suspended

/-- A claim of an executor waits. -/
def Device.someExecClaims (d : Device) : Bool := d.execClaims .A || d.execClaims .B || d.execClaims .C

/-! ### Page maps (R8, R10) -/

/-- The page map as a list, page 0 first. -/
def Sector.pageList (x : Sector) : List PageState := x.pages.toList

/-- The sequence of a LIVE page. -/
def PageState.seq? : PageState → Option Nat
  | .live n => some n
  | .unused => none
  | .writing => none
  | .void => none

/-- The LIVE sequences in page order. -/
def Sector.liveSeqs (x : Sector) : List Nat := x.pageList.filterMap PageState.seq?

/-- First sequence: that of the lowest LIVE page (R8). -/
def Sector.first? (x : Sector) : Option Nat := x.liveSeqs.head?

/-- Last sequence: that of the highest LIVE page (R8). -/
def Sector.last? (x : Sector) : Option Nat := x.liveSeqs.getLast?

/-- The lowest UNUSED page (R36). -/
def Sector.firstUnused (x : Sector) : Option Nat := x.pageList.findIdx? (· == .unused)

/-- One page of a sector's map replaced. -/
def Sector.setPage (x : Sector) (page : Nat) (v : PageState) : Sector :=
  if h : page < 16 then { x with pages := x.pages.set page v } else x

/-- A sector's page of the device's map replaced. -/
def Device.setPageState (d : Device) (sector page : Nat) (v : PageState) : Device :=
  d.setSector sector ((d.sector sector).setPage page v)

/-- Pages of a sector that can no longer take a record (R5). -/
def Sector.usedPages (x : Sector) : Nat :=
  match x.state with
  | .tail => 16 - x.pageList.count .unused
  | .unclassified => 16
  | .free => 16
  | .filled => 16
  | .queued => 16
  | .erasing => 16
  | .suspended => 16
  | .bad => 16

/-- Used pages of a chain (R5). -/
def Device.chainUsed (d : Device) (chain : List Nat) : Nat := (chain.map fun n => (d.sector n).usedPages).sum

/-- First sequence of the first chain sector that holds a LIVE page, or the next sequence (R4, R32). -/
def Device.chainOldest (d : Device) (chain : List Nat) (next : Nat) : Nat :=
  ((chain.filterMap fun n => (d.sector n).first?).head?).getD next

/-- Recompute used pages and oldest sequence from the chain (R4, R5). -/
def Device.recount (d : Device) (st : Fin 16) : Device :=
  match d.stream st with
  | none => d
  | some b => d.setBody st (some { b with used := d.chainUsed b.chain, oldest := d.chainOldest b.chain b.next })

/-! ### Lists in order -/

/-- Insert into an ascending list of numbers. -/
def insertAscending (n : Nat) : List Nat → List Nat
  | [] => [n]
  | x :: xs => if n < x then n :: x :: xs else x :: insertAscending n xs

/-- A list of numbers in ascending order. -/
def ascending (l : List Nat) : List Nat := l.foldr insertAscending []

/-- Groups of up to eight, in order; `fuel` bounds their number. -/
def groupsOfEight : Nat → List Nat → List (List Nat)
  | 0, _ => []
  | _ + 1, [] => []
  | fuel + 1, x :: xs => (x :: xs).take 8 :: groupsOfEight fuel ((x :: xs).drop 8)

end Sys2Proof.Machine
end

