-- ==== Sys2Proof/Machine/Flash.lean ====
section
/-! DEFINITION. The page array's bytes (R68, R69): reading, programming and erasing, on the canonical list of cells. -/

namespace Sys2Proof.Machine

open Sys2Proof

/-- An erased byte reads FFh (R69); this is what an unlisted address reads as (log 2). -/
def erasedByte : Byte := 0xFF#8

/-- The byte at an address. -/
def Flash.read : Flash → Nat → Byte
  | [], _ => erasedByte
  | (k, v) :: t, a => if k = a then v else Flash.read t a

/-- The array with one byte replaced, in canonical form. -/
def Flash.write : Flash → Nat → Byte → Flash
  | [], a, v => if v = erasedByte then [] else [(a, v)]
  | (k, b) :: t, a, v =>
    if k < a then (k, b) :: Flash.write t a v
    else if k = a then (if v = erasedByte then t else (a, v) :: t)
    else if v = erasedByte then (k, b) :: t
    else (a, v) :: (k, b) :: t

/-- Every address is at least `low` and above those before it, and no listed byte is erased. -/
def Flash.risingFrom : Nat → Flash → Bool
  | _, [] => true
  | low, (k, v) :: t => decide (low ≤ k) && v != erasedByte && Flash.risingFrom (k + 1) t

/-- Canonical form: addresses strictly rising, no listed byte erased. -/
def Flash.wf (m : Flash) : Bool := m.risingFrom 0

/-- The address of byte 0 of a page (R68). -/
def pageBase (sector page : Nat) : Nat := sector * 4096 + page * 256

/-- `len` bytes from an address, looking only at the cells in the range. -/
def Flash.readRange (m : Flash) (base len : Nat) : List Byte :=
  let near := m.filter fun x => base ≤ x.1 && x.1 < base + len
  (List.range len).map fun i => Flash.read near (base + i)

/-- The 256 bytes READ PAGE hands over (R76). -/
def Flash.readPage (m : Flash) (sector page : Nat) : List Byte := m.readRange (pageBase sector page) 256

/-- Bytes written at consecutive addresses. -/
def Flash.writeList : Flash → Nat → List Byte → Flash
  | m, _, [] => m
  | m, a, v :: vs => Flash.writeList (m.write a v) (a + 1) vs

/-- A program step's verify passes: every byte of the range, its target's 0 bits cleared, reads exactly its target,
so that no target bit is 1 where the page holds 0 (R77). -/
def Flash.verifies (m : Flash) (base : Nat) (target : List Byte) : Bool :=
  (List.zipWith (fun old t => old &&& t == t) (m.readRange base target.length) target).all id

/-- The range reads its target already, so that a step's first verify passes (R77). -/
def Flash.holds (m : Flash) (base : Nat) (target : List Byte) : Bool := m.readRange base target.length == target

/-- The range after a step that verified: it reads its target (R77). -/
def Flash.programmed (m : Flash) (base : Nat) (target : List Byte) : Flash := m.writeList base target

/-- The bytes a step leaves that was cut short or failed: each holds its former 1 bits, less some of the bits the
target clears (R69, R77); which ones is the free value of draw `n`. -/
def partialProgram (n base : Nat) (old target : List Byte) : List Byte :=
  List.zipWith (fun x t => x.1 &&& (t ||| ~~~ Config.pulseBits n (base + x.2))) (old.zip (List.range old.length)) target

/-- The range after a step cut short by RESETn or loss of supply (R83). -/
def Flash.programCut (m : Flash) (n base : Nat) (target : List Byte) : Flash :=
  m.writeList base (partialProgram n base (m.readRange base target.length) target)

/-- The range after PROGRAM_FAIL: as for a step cut short, but not exactly the target, since the verify failed
(R77). -/
def Flash.programFailed (m : Flash) (n base : Nat) (target : List Byte) : Flash :=
  let left := partialProgram n base (m.readRange base target.length) target
  if left = target then m else m.writeList base left

/-- An address of a sector (R68). -/
def inSector (sector a : Nat) : Bool := sector * 4096 ≤ a && a < sector * 4096 + 4096

/-- Every byte of the sector reads FFh: the verify of R79. -/
def Flash.sectorErased (m : Flash) (sector : Nat) : Bool := m.all fun x => !inSector sector x.1

/-- The sector erased throughout (R79). -/
def Flash.eraseSector (m : Flash) (sector : Nat) : Flash := m.filter fun x => !inSector sector x.1

/-- The sector after a pulse that was stopped or did not fully take: each byte its former value with some of its 0 bits
set to 1 (R69); which ones is the free value of draw `n`. -/
def Flash.partialErase (m : Flash) (n sector : Nat) : Flash :=
  m.filterMap fun x =>
    if inSector sector x.1 then
      let v := x.2 ||| Config.pulseBits n x.1
      if v = erasedByte then none else some (x.1, v)
    else some x

/-- The sector after a pulse whose verify failed: as above, but not erased throughout (R79). -/
def Flash.eraseFailed (m : Flash) (n sector : Nat) : Flash :=
  let left := m.partialErase n sector
  if left.sectorErased sector then m else left

end Sys2Proof.Machine
end

