-- ==== Sys2Proof/Machine/Pages.lean ====
section
/-! DEFINITION. What the bytes of a page mean: data pages (R71, R72, R54), metadata pages (R73, R74, R125) and metadata
entries (R103). -/

namespace Sys2Proof.Machine

open Sys2Proof

/-! ### Data pages -/

/-- Header bytes 0 to 9 of a data page (R71). -/
def dataHeader (stream : Fin 16) (inc : Byte) (len : Nat) (origin : Port) (seq : Nat) (tag : List Byte) : List Byte :=
  [BitVec.ofNat 8 stream.val, inc, BitVec.ofNat 8 len, BitVec.ofNat 8 (portCode origin)] ++ bigEndian 4 seq ++ tag

/-- The targets of data step 1: header with both marks at FFh, then the payload (R37, R71). -/
def dataStep1 (stream : Fin 16) (inc : Byte) (origin : Port) (seq : Nat) (tag payload : List Byte) : List Byte :=
  let header := dataHeader stream inc payload.length origin seq tag
  header ++ crcBytes header ++ crcBytes payload ++ [erasedByte, erasedByte] ++ payload

/-- A page erased throughout (R69). -/
def pageErased (bytes : List Byte) : Bool := bytes.all fun b => b == erasedByte

/-- The header CRC over bytes 0 to 9 matches (R71, R73). -/
def headerGood (bytes : List Byte) : Bool := crcBytes (bytes.take 10) == bytesAt bytes 10 2

/-- The payload of a data page, as long as its length field says (R71), no further than the page's end (log 33). -/
def pagePayload (bytes : List Byte) : List Byte := bytesAt bytes 16 (byteAt bytes 2).toNat

/-- The eight checks of R54. -/
def recordGood (bytes : List Byte) (stream : Fin 16) (inc : Byte) (seq : Nat) : Bool :=
  headerGood bytes && (byteAt bytes 0).toNat == stream.val && byteAt bytes 1 == inc && fieldAt bytes 4 4 == seq
    && (1 ≤ (byteAt bytes 2).toNat && (byteAt bytes 2).toNat ≤ 240)
    && byteAt bytes 14 == 0x00#8 && byteAt bytes 15 == erasedByte
    && crcBytes (pagePayload bytes) == bytesAt bytes 12 2

/-- The body of a READ answered OK: sequence, tag, payload (R54, R163). -/
def recordBody (bytes : List Byte) (seq : Nat) : List Byte := bigEndian 4 seq ++ bytesAt bytes 8 2 ++ pagePayload bytes

/-- Ownership of a sector by its page 0 (R131, class 2), for a stream number, incarnation and writer. The marks do not
enter. -/
def ownsPage0 (bytes : List Byte) (stream : Fin 16) (inc : Byte) (writer : Port) : Bool :=
  headerGood bytes && (byteAt bytes 0).toNat == stream.val && byteAt bytes 1 == inc
    && (1 ≤ (byteAt bytes 2).toNat && (byteAt bytes 2).toNat ≤ 240)
    && (byteAt bytes 3).toNat == portCode writer && fieldAt bytes 4 4 != Config.erasedSerial

/-- A page mount takes as LIVE, with its sequence (R132). -/
def mountLive (bytes : List Byte) (stream : Fin 16) (inc : Byte) (writer : Port) : Option Nat :=
  let seq := fieldAt bytes 4 4
  if recordGood bytes stream inc seq && seq != Config.erasedSerial && (byteAt bytes 3).toNat == portCode writer then
    some seq
  else none

/-! ### Metadata entries -/

/-- Pad bytes are not driven and read FFh (R103). -/
def pad (n : Nat) : List Byte := List.replicate n erasedByte

/-- The attributes byte (R103). -/
def attributesCode (held : Bool) (policy : Policy) : Nat :=
  (if held then 2 else 0) + (match policy with | .refuse => 0 | .dropOldest => 1)

/-- The 16 bytes of an entry (R103). -/
def MetaEntry.encode : MetaEntry → List Byte
  | .streamDef st inc writer readers held policy tag quota margin base =>
    [0x01#8, BitVec.ofNat 8 st.val, inc, BitVec.ofNat 8 (portCode writer * 16 + portSetCode readers),
      BitVec.ofNat 8 (attributesCode held policy)] ++ bigEndian 4 tag.toNat ++ [BitVec.ofNat 8 quota]
      ++ bigEndian 2 margin ++ bigEndian 4 base
  | .streamDrop st inc => [0x02#8, BitVec.ofNat 8 st.val, inc] ++ pad 13
  | .cursor st inc port committed lost =>
    [0x03#8, BitVec.ofNat 8 st.val, inc, BitVec.ofNat 8 (portCode port)] ++ bigEndian 4 committed ++ bigEndian 2 lost
      ++ pad 6
  | .wear first c0 c1 c2 c3 =>
    [0x04#8, BitVec.ofNat 8 first] ++ bigEndian 3 c0 ++ bigEndian 3 c1 ++ bigEndian 3 c2 ++ bigEndian 3 c3 ++ pad 2
  | .retire sectors =>
    [0x05#8, BitVec.ofNat 8 sectors.length] ++ sectors.map (BitVec.ofNat 8) ++ pad (14 - sectors.length)
  | .checkpointEnd snapshot count => [0x06#8] ++ pad 1 ++ bigEndian 4 snapshot ++ bigEndian 2 count ++ pad 8

/-- A stream number of one byte. -/
def streamOfByte (b : Byte) : Option (Fin 16) := if h : b.toNat < 16 then some ⟨b.toNat, h⟩ else none

/-- A margin and quota as R125 admits them. -/
def definitionValid (policy : Policy) (quota margin : Nat) : Bool :=
  1 ≤ quota && quota ≤ 252 && margin ≤ quota * 16 && !(policy == .dropOldest && quota == 1)

/-- The STREAM_DEF of 16 bytes, its fields in the ranges of R103 and R125. -/
def decodeStreamDef (e : List Byte) : Option MetaEntry :=
  match streamOfByte (byteAt e 1), portOfCode ((byteAt e 3).toNat / 16), portSetOfCode ((byteAt e 3).toNat % 16) with
  | some st, some writer, some readers =>
    let attributes := (byteAt e 4).toNat
    let policy : Policy := if attributes % 2 = 1 then .dropOldest else .refuse
    let quota := (byteAt e 9).toNat
    let margin := fieldAt e 10 2
    if attributes < 4 && definitionValid policy quota margin then
      some (.streamDef st (byteAt e 2) writer readers (attributes / 2 == 1) policy (BitVec.ofNat 32 (fieldAt e 5 4))
        quota margin (fieldAt e 12 4))
    else none
  | _, _, _ => none

/-- The entry of 16 bytes; none where the kind code or a field is outside its range (R103, R125). -/
def decodeEntry (e : List Byte) : Option MetaEntry :=
  match (byteAt e 0).toNat with
  | 1 => decodeStreamDef e
  | 2 => (streamOfByte (byteAt e 1)).map fun st => .streamDrop st (byteAt e 2)
  | 3 =>
    match streamOfByte (byteAt e 1), portOfCode (byteAt e 3).toNat with
    | some st, some port => some (.cursor st (byteAt e 2) port (fieldAt e 4 4) (fieldAt e 8 2))
    | _, _ => none
  | 4 =>
    let first := (byteAt e 1).toNat
    if 4 ≤ first && first % 4 == 0 then
      some (.wear first (fieldAt e 2 3) (fieldAt e 5 3) (fieldAt e 8 3) (fieldAt e 11 3))
    else none
  | 5 =>
    let count := (byteAt e 1).toNat
    let sectors := (bytesAt e 2 count).map BitVec.toNat
    if 1 ≤ count && count ≤ 8 && sectors.all (fun n => 4 ≤ n) then some (.retire sectors) else none
  | 6 => some (.checkpointEnd (fieldAt e 2 4) (fieldAt e 6 2))
  | _ => none

/-! ### Metadata pages -/

/-- Page kind codes (R73). -/
def MetaKind.code : MetaKind → Nat
  | .checkpoint => 1
  | .journal => 2

/-- Header bytes 0 to 9 of a metadata page (R73). -/
def metaHeader (generation first count : Nat) (kind : MetaKind) : List Byte :=
  bigEndian 4 generation ++ bigEndian 4 first ++ [BitVec.ofNat 8 count, BitVec.ofNat 8 kind.code]

/-- The targets of metadata step 1 (R74). -/
def metaStep1 (generation first : Nat) (kind : MetaKind) (entries : List MetaEntry) : List Byte :=
  let header := metaHeader generation first entries.length kind
  let body := entries.flatMap MetaEntry.encode
  header ++ crcBytes header ++ crcBytes body ++ [erasedByte, erasedByte] ++ body

/-- The conditions of R72 and R74. -/
inductive PageCondition where
  | erased | uncommitted | committed | voided | damaged
deriving DecidableEq, Repr

/-- The condition of a page whose body CRC covers `body` (R72). -/
def pageCondition (bytes body : List Byte) : PageCondition :=
  if pageErased bytes then .erased
  else if byteAt bytes 15 = 0x00#8 then .voided
  else if !headerGood bytes || byteAt bytes 15 != erasedByte then .damaged
  else if byteAt bytes 14 = erasedByte then .uncommitted
  else if byteAt bytes 14 = 0x00#8 && crcBytes body == bytesAt bytes 12 2 then .committed
  else .damaged

/-- The condition of a data page (R72). -/
def dataCondition (bytes : List Byte) : PageCondition := pageCondition bytes (pagePayload bytes)

/-- The condition of a metadata page: the body CRC in place of the payload CRC (R74), over no more than the page holds
(log 33). -/
def metaCondition (bytes : List Byte) : PageCondition :=
  pageCondition bytes (bytesAt bytes 16 (16 * (byteAt bytes 8).toNat))

/-- A committed metadata page that is not invalid, read (R125). -/
structure MetaPage where
  generation : Nat
  first : Nat
  kind : MetaKind
  entries : List MetaEntry
deriving DecidableEq, Repr

/-- A CHECKPOINT_END entry's snapshot serial and count. -/
def MetaEntry.asEnd : MetaEntry → Option (Nat × Nat)
  | .checkpointEnd s c => some (s, c)
  | .streamDef .. => none
  | .streamDrop .. => none
  | .cursor .. => none
  | .wear .. => none
  | .retire .. => none

/-- The entries of a page's body, none if one of them is invalid. -/
def decodeEntries (bytes : List Byte) : Nat → Option (List MetaEntry)
  | 0 => some []
  | n + 1 =>
    match decodeEntry (bytes.take 16), decodeEntries (bytes.drop 16) n with
    | some e, some es => some (e :: es)
    | _, _ => none

/-- The page of 256 bytes when it is committed and not invalid (R125); an invalid page counts as damaged. -/
def readMetaPage (bytes : List Byte) : Option MetaPage :=
  if metaCondition bytes = .committed then
    let count := (byteAt bytes 8).toNat
    if 1 ≤ count && count ≤ Config.stagingPlaces then
      match decodeEntries (bytes.drop 16) count with
      | some es =>
        match (byteAt bytes 9).toNat with
        | 1 => some ⟨fieldAt bytes 0 4, fieldAt bytes 4 4, .checkpoint, es⟩
        | 2 =>
          if es.any fun e => e.asEnd.isSome then none
          else some ⟨fieldAt bytes 0 4, fieldAt bytes 4 4, .journal, es⟩
        | _ => none
      | none => none
    else none
  else none

end Sys2Proof.Machine
end

