-- ==== Sys2Proof/Machine/Operands.lean ====
section
/-! DEFINITION. The operands of requests: body layouts and codes (R163) and the checks the requests share (R2, R17, R27,
R51, R167). -/

namespace Sys2Proof.Machine

open Sys2Proof

/-- The body length R163 gives a kind; APPEND needs at least 3 bytes (R167). -/
def Kind.bodyLength : Kind → Nat
  | .attach => 0
  | .detach => 0
  | .create => 9
  | .configure => 7
  | .delete => 1
  | .append => 3
  | .read => 1
  | .ack => 6
  | .rewind => 1
  | .setlevel => 3
  | .query => 1
  | .status => 0
  | .sync => 0
  | .events => 0
  | .mask => 2
  | .propose => 2
  | .agree => 1
  | .refuse => 1

/-- The body has the length its kind requires (R163, R167). -/
def lengthGood (kind : Kind) (body : List Byte) : Bool :=
  match kind with
  | .append => Kind.bodyLength .append ≤ body.length
  | k => body.length == k.bodyLength

/-- The stream number of a body's first byte; a number outside 0 to 15, or no byte, names no stream (R2; log 12). -/
def streamArg (body : List Byte) : Option (Fin 16) :=
  match body with
  | [] => none
  | b :: _ => streamOfByte b

/-- Policy codes (R163). -/
def policyOfCode : Nat → Option Policy
  | 0 => some .refuse
  | 1 => some .dropOldest
  | _ => none

/-- Codes 00h and 01h of the held and flags bytes (R163). -/
def flagOfCode : Nat → Option Bool
  | 0 => some false
  | 1 => some true
  | _ => none

/-- CREATE's arguments (R18). -/
structure CreateArgs where
  tag : BitVec 32
  quota : Nat
  policy : Policy
  readers : PortSet
  margin : Nat
deriving DecidableEq, Repr

/-- CREATE's body, with the argument checks of R18; none is BAD_ARG. -/
def createArgs (body : List Byte) : Option CreateArgs :=
  match policyOfCode (byteAt body 5).toNat, portSetOfCode (byteAt body 6).toNat with
  | some policy, some readers =>
    let quota := (byteAt body 4).toNat
    let margin := fieldAt body 7 2
    if definitionValid policy quota margin then
      some ⟨BitVec.ofNat 32 (fieldAt body 0 4), quota, policy, readers, margin⟩
    else none
  | _, _ => none

/-- CONFIGURE's arguments (R20). -/
structure ConfigureArgs where
  readers : PortSet
  policy : Policy
  quota : Nat
  margin : Nat
  held : Bool
deriving DecidableEq, Repr

/-- CONFIGURE's body, with the argument checks of R20 for a chain of the given length; none is BAD_ARG. -/
def configureArgs (body : List Byte) (chainLength : Nat) : Option ConfigureArgs :=
  match portSetOfCode (byteAt body 1).toNat, policyOfCode (byteAt body 2).toNat, flagOfCode (byteAt body 6).toNat with
  | some readers, some policy, some held =>
    let quota := (byteAt body 3).toNat
    let margin := fieldAt body 4 2
    if definitionValid policy quota margin && chainLength ≤ quota then some ⟨readers, policy, quota, margin, held⟩
    else none
  | _, _, _ => none

/-- The device-state check of a request taken in READY alone (R17, R27). -/
def writeMode : DeviceState → Option Status
  | .ready => none
  | .readOnly => some .readOnly
  | .mounting => some .notReady
  | .blank => some .notReady
  | .formatting => some .notReady
  | .stopping => some .notReady
  | .stopped => some .notReady

/-- The device-state check of a request taken in READY and READ_ONLY (R51, R171, R173). -/
def readMode : DeviceState → Option Status
  | .ready => none
  | .readOnly => none
  | .mounting => some .notReady
  | .blank => some .notReady
  | .formatting => some .notReady
  | .stopping => some .notReady
  | .stopped => some .notReady

/-- The device-state check of a vote and of a FORMAT proposal (R140, R142). -/
def ballotMode : DeviceState → Option Status
  | .ready => none
  | .readOnly => none
  | .blank => none
  | .mounting => some .notReady
  | .formatting => some .notReady
  | .stopping => some .notReady
  | .stopped => some .notReady

/-- A device-state check and then the attachment check, common to all but ATTACH and STATUS. -/
def Device.admission (d : Device) (p : Port) (mode : Option Status) : Option Status :=
  match mode with
  | some s => some s
  | none => if (d.port p).attached then none else some .notAttached

/-- A named stream that is OPEN or HELD; otherwise NO_STREAM (R2). -/
def Device.namedStream (d : Device) (body : List Byte) : Except Status (Fin 16 × StreamBody) :=
  match streamArg body with
  | none => .error .noStream
  | some st =>
    match d.stream st with
    | none => .error .noStream
    | some b => .ok (st, b)

/-- The checks of APPEND, in order (R27). -/
def Device.appendCheck (d : Device) (p : Port) (body : List Byte) : Except Status (Fin 16 × StreamBody) :=
  match d.admission p (writeMode d.mode) with
  | some s => .error s
  | none =>
    match d.namedStream body with
    | .error s => .error s
    | .ok (st, b) =>
      if b.held then .error .held
      else if b.writer ≠ p then .error .notWriter
      else if body.length - 3 < 1 || 240 < body.length - 3 then .error .badArg
      else if Config.erasedSerial ≤ b.next then .error .seqExhausted
      else .ok (st, b)

/-- The checks of READ, ACK, REWIND and SETLEVEL, in order (R51); ACK's flags byte stands with its length. -/
def Device.cursorCheck (d : Device) (p : Port) (kind : Kind) (body : List Byte) :
    Except Status (Fin 16 × StreamBody × Cursor) :=
  match d.admission p (readMode d.mode) with
  | some s => .error s
  | none =>
    match d.namedStream body with
    | .error s => .error s
    | .ok (st, b) =>
      match b.readers.get p, d.cursor st p with
      | true, some c =>
        if !lengthGood kind body then .error .badArg
        else if kind == .ack && (flagOfCode (byteAt body 5).toNat).isNone then .error .badArg
        else .ok (st, b, c)
      | _, _ => .error .notReader

end Sys2Proof.Machine
end

