-- ==== Sys2Proof/Machine/Flags.lean ====
section
/-! DEFINITION. Events, and the flags and lines the part computes: high flag (R6), backlog flag (R64), alert line
(R158), link status (R161). -/

namespace Sys2Proof.Machine

open Sys2Proof

/-! ### The event unit (R153, R155) -/

/-- A queued event of the same kind and subject (R155). -/
def Event.matches (x e : Event) : Bool := x.kind == e.kind && x.subject == e.subject

/-- An event offered to a queue: it brings a matching entry up to date, or is added, or is discarded with the overflow
flag set (R155). -/
def EventUnit.offer (u : EventUnit) (e : Event) : EventUnit :=
  if u.queue.any fun x => x.matches e then
    { u with queue := u.queue.map fun x => if x.matches e then { x with value := e.value } else x }
  else if u.queue.length < Config.eventSlots then { u with queue := u.queue ++ [e] }
  else { u with overflow := true }

/-- An event for one port: offered if the port is attached, otherwise discarded without trace (R153). -/
def Device.offer (d : Device) (p : Port) (e : Event) : Device :=
  if (d.port p).attached then { d with events := d.events.set p ((d.events.get p).offer e) } else d

/-- An event for a set of ports (R153). -/
def Device.offerSet (d : Device) (dest : PortSet) (e : Event) : Device :=
  let d := if dest.a then d.offer .A e else d
  let d := if dest.b then d.offer .B e else d
  if dest.c then d.offer .C e else d

/-- An event for every attached port (R153). -/
def Device.offerAll (d : Device) (e : Event) : Device := d.offerSet (PerPort.all true) e

/-! ### High flag and backlog flag -/

/-- Evaluate a stream's high flag; setting it sends HIGH_WATER with the room to the writer (R6). -/
def Device.evalHigh (d : Device) (st : Fin 16) : Device :=
  match d.stream st with
  | none => d
  | some b =>
    if b.room ≤ b.margin then
      if b.high then d
      else (d.setBody st (some { b with high := true })).offer b.writer ⟨.highWater, some st.val, some b.room⟩
    else d.setBody st (some { b with high := false })

/-- The condition of R64. -/
def Cursor.behind (c : Cursor) (next : Nat) : Bool := c.level != 0 && c.level ≤ next - c.committed

/-- Evaluate a cursor's backlog flag; setting it sends BACKLOG with the backlog to the cursor's port (R64). -/
def Device.evalBacklog (d : Device) (st : Fin 16) (p : Port) : Device :=
  match d.stream st, d.cursor st p with
  | some b, some c =>
    if c.behind b.next then
      if c.flag then d
      else (d.setCursor st p (some { c with flag := true })).offer p
        ⟨.backlog, some st.val, some (b.next - c.committed)⟩
    else d.setCursor st p (some { c with flag := false })
  | _, _ => d

/-- Evaluate the backlog flag of each of a stream's cursors. -/
def Device.evalBacklogs (d : Device) (st : Fin 16) : Device :=
  ((d.evalBacklog st .A).evalBacklog st .B).evalBacklog st .C

/-! ### Lines and status -/

/-- Event kind k is bit k of a mask (R163). -/
def EventUnit.unmasked (u : EventUnit) : Bool := u.queue.any fun e => !u.mask.getLsbD e.kind.code

/-- A port's alert line is asserted (R158); it is released while the part is held in reset (R177). -/
def Device.alert (d : Device) (p : Port) : Bool :=
  d.active && (!(d.port p).responses.isEmpty || (d.events.get p).unmasked)

/-- The two bytes of link status (R161). -/
def Device.linkStatus (d : Device) (p : Port) : List Byte :=
  let h := d.port p
  [BitVec.ofNat 8 ((Config.queueSlots - h.requests.length) * 32 + h.responses.length * 4
      + (if (d.events.get p).queue.isEmpty then 0 else 2) + (if h.rejected then 1 else 0)),
    BitVec.ofNat 8 (deviceCode d.mode)]

end Sys2Proof.Machine
end

