-- ==== Sys2Proof/Machine/Control.lean ====
section
/-! DEFINITION. The state controller's transitions (R175, R176), the closing of ballots (R145), the end of a session
(R154, R169), and the abandonment of an erase (R82, R102). -/

namespace Sys2Proof.Machine

open Sys2Proof

/-! ### Ballots -/

/-- Operation codes (R152). -/
def BallotOp.code : BallotOp → Nat
  | .purge _ _ => 1
  | .format => 2

/-- Outcome codes (R152). -/
def BallotOutcome.code : BallotOutcome → Nat
  | .passed => 1
  | .refused => 2
  | .expired => 3
  | .aborted => 4

/-- Set or clear a stream's ballot-held flag (R7). -/
def Device.setBallotHeld (d : Device) (st : Fin 16) (v : Bool) : Device :=
  match d.stream st with
  | none => d
  | some b => d.setBody st (some { b with ballotHeld := v })

/-- The flag side of a ballot's opening and closing: a PURGE holds its stream (R7, R141, R145). -/
def Device.holdBallotStream (d : Device) (op : BallotOp) (v : Bool) : Device :=
  match op with
  | .purge st _ => d.setBallotHeld st v
  | .format => d

/-- Close the open ballot: timer stopped, stream no longer held, BALLOT_DONE to the attached parties, ballot discarded,
unit IDLE (R145). A pass goes on from here. -/
def Device.closeBallot (d : Device) (outcome : BallotOutcome) : Device :=
  match d.consent.ballot with
  | none => d
  | some bl =>
    let d := d.holdBallotStream bl.op false
    let d := d.offerSet bl.parties ⟨.ballotDone, some bl.id.toNat, some outcome.code⟩
    { d with consent := { d.consent with ballot := none, state := .idle } }

/-- The open ballot is aborted by entry into a device state (R144). -/
def abortsBallot (op : BallotOp) (m : DeviceState) : Bool :=
  match op with
  | .purge _ _ => true
  | .format => m == .stopping || m == .formatting

/-! ### Device state -/

/-- The reason on entry into a state (R175). -/
def Device.reasonOnEntry (d : Device) (m : DeviceState) : Reason :=
  match m with
  | .readOnly => if d.writer.state = .halted then .metaMedia else .mediaWorn
  | .stopping => d.reason
  | .stopped => d.reason
  | .mounting => .none
  | .blank => .none
  | .ready => .none
  | .formatting => .none

/-- Entry into these states produces a STATE event (R176). -/
def announced : DeviceState → Bool
  | .blank => true
  | .ready => true
  | .readOnly => true
  | .formatting => true
  | .mounting => false
  | .stopping => false
  | .stopped => false

/-- The erase engine's claim withdrawn: its starvation timer stops and its flag clears (R88, R91). -/
def Device.withdrawEngineClaim (d : Device) : Device :=
  { d with
    engine := { d.engine with state := .idle }
    arbiter := { d.arbiter with starved := false, starveTimer := false } }

/-- The device enters a state: reason, STATE event, an open ballot aborted where R144 says so, and in READ_ONLY the
claim to start a queued sector withdrawn (R101, R175, R176; log 19). -/
def Device.enterState (d : Device) (m : DeviceState) : Device :=
  let d := { d with mode := m, reason := d.reasonOnEntry m }
  let d := if announced m then d.offerAll ⟨.state, none, some (deviceCode m)⟩ else d
  let d :=
    match d.consent.ballot with
    | some bl => if abortsBallot bl.op m then d.closeBallot .aborted else d
    | none => d
  if m = .readOnly && d.engine.state == .claiming && d.engine.slot.isEmpty then d.withdrawEngineClaim else d

/-! ### Sessions -/

/-- Is the port a required party of the open ballot? -/
def Device.isParty (d : Device) (p : Port) : Bool :=
  match d.consent.ballot with
  | some bl => bl.parties.get p
  | none => false

/-- Abort an open ballot of which the port is a required party (R144). -/
def Device.abortBallotOf (d : Device) (p : Port) : Device :=
  if d.isParty p then d.closeBallot .aborted else d

/-- PEER goes to every attached port but the one whose session it is (R152). -/
def Device.sendPeer (d : Device) (p : Port) (attached : Bool) : Device :=
  d.offerSet ((PerPort.all true).set p false) ⟨.peer, some (portCode p), some (if attached then 1 else 0)⟩

/-- Steps 2 to 4 of R169: the session becomes DETACHED, its event unit returns to reset values, its ballot is aborted,
PEER goes to the others. -/
def Device.endSession (d : Device) (p : Port) : Device :=
  let d := d.setPort p { d.port p with attached := false }
  let d := { d with events := d.events.set p EventUnit.powerUp }
  (d.abortBallotOf p).sendPeer p false

/-! ### Abandoning an erase -/

/-- The array reports ABANDONED: a QUEUE sector is QUEUED again at the head of the queue with its mark, the current
erase and context are discarded, and the engine's grant ends if it held one (R82, R102). -/
def Device.eraseAbandoned (d : Device) : Device :=
  let d :=
    match d.engine.current with
    | some c =>
      match c.source with
      | .queue => d.setSector c.sector { d.sector c.sector with state := .queued }
      | .slot => d
    | none => d
  let d := { d with eraseCtx := none, engine := { d.engine with current := none, state := .idle } }
  if d.arbiter.holder = some .engine then d.release else d

/-- ABANDON issued: at once on a suspended erase, whose claim to resume is withdrawn (R88, R91); otherwise the pulse is
stopped and the array reports later, the operation and the phase standing until it does (log 47); without a context
nothing changes (R82). -/
def Device.abandonErase (d : Device) : Device :=
  match d.eraseCtx with
  | none => d
  | some x =>
    match x.phase with
    | .suspended => d.withdrawEngineClaim.eraseAbandoned
    | .running => { d with eraseCtx := some { x with abandon := true } }
    | .suspending => { d with eraseCtx := some { x with abandon := true } }

/-- The erase engine's outcome entry discarded; it leaves WAIT_STAGING (R102, R120). -/
def Device.discardOutcome (d : Device) : Device :=
  { d with engine := { d.engine with
      outcome := none
      state := if d.engine.state = .waitStaging then .idle else d.engine.state } }

/-- The engine on entry into FORMATTING or STOPPING: current erase abandoned, claim withdrawn, slot emptied, starvation
flag cleared, outcome discarded (R102). -/
def Device.stopEngine (d : Device) : Device :=
  let d := { d with
    engine := { d.engine with slot := [] }
    arbiter := { d.arbiter with starved := false, starveTimer := false } }
  let d := d.abandonErase.discardOutcome
  if d.engine.state == .claiming || d.engine.state == .gated then
    { d with engine := { d.engine with state := .idle } }
  else d

end Sys2Proof.Machine
end

