-- ==== Sys2Proof/Machine/Journal.lean ====
section
/-! DEFINITION. The staging buffer (R104 to R107), halting (R120), and waits for places and for durability (R107,
R113). -/

namespace Sys2Proof.Machine

open Sys2Proof

/-! ### Halting -/

/-- The request of an append on the array answered while its step runs on: the executor has no request in hand and keeps
no entries (R43, R120). -/
def Device.answerOnArray (d : Device) (p : Port) (j : AppendJob) (status : Status) : Device :=
  let d :=
    match (d.exec p).inHand with
    | some r => d.respond p r status []
    | none => d
  d.setExec p ⟨.onArray, none, .append { j with kept := [] }⟩

/-- The READ_ONLY answer of R120 to an executor that waits for places or durability. One on the place-wait list with its
void step on the array is answered too: the step runs to its end with no request in hand (log 15). -/
def Device.haltWaiter (d : Device) (p : Port) : Device :=
  match (d.exec p).state with
  | .waitDurable _ => d.answer p .readOnly []
  | .waitStaging => d.answer p .readOnly []
  | .onArray =>
    match (d.exec p).job with
    | .append j => if j.kept.isEmpty then d else d.answerOnArray p j .readOnly
    | .none => d
    | .read _ _ => d
    | .reading _ _ _ _ _ => d
    | .created _ _ => d
    | .acked _ => d
  | .idle => d
  | .check => d
  | .waitArray => d
  | .waitSpace => d
  | .waitSlot => d

/-- The device's side of META_MEDIA: from READY and FORMATTING to READ_ONLY, in READ_ONLY the reason alone (R101, R118,
R151, R175). R104's serial limit met in STOPPING halts the writer and leaves the device STOPPING, which the table of
R175 gives no way out of to READ_ONLY (log 34). -/
def Device.enterMetaMedia (d : Device) : Device :=
  match d.mode with
  | .ready => d.enterState .readOnly
  | .formatting =>
    let d := d.enterState .readOnly
    { d with consent := { d.consent with state := .idle } }
  | .readOnly => { d with reason := .metaMedia }
  | .mounting => d
  | .blank => d
  | .stopping => d
  | .stopped => d

/-- The metadata writer goes HALTED (R120): a step on the array runs to its end, every other claim is withdrawn, the
compaction is abandoned, the slot emptied, and the waiters answered. Entries taken or covered keep their condition (log
55), the abandoned compaction's registers their values (log 57). A consent unit that waits for places executes its
purge in the same event (R147, `Device.settle`). -/
def Device.haltWriter (d : Device) : Device :=
  let w := d.writer
  let flying := if d.arbiter.holder = some .writer then w.inFlight.map fun g => { g with fate := .halted } else none
  let d := { d with writer := { w with
      state := .halted
      inFlight := flying
      phase := .none
      forFormat := false
      timerRunning := false
      timerExpired := false
      placeWait := [] } }
  let d := d.enterMetaMedia
  let d := { d with engine := { d.engine with slot := [] } }
  let d :=
    match d.engine.current with
    | some c => if c.source = EraseSource.slot then d.abandonErase else d
    | none => d
  let d := ((d.haltWaiter .A).haltWaiter .B).haltWaiter .C
  d.discardOutcome

/-! ### Staging -/

/-- The writer takes entries: not HALTED or DORMANT, and not between a FORMAT's pass and its commit (R108, R120, R121).
-/
def Writer.takesEntries (w : Writer) : Bool :=
  !(w.state == .halted) && !(w.state == .dormant) && w.activeHalf.isSome

/-- The buffer holds an open entry. -/
def Writer.hasOpen (w : Writer) : Bool := w.staging.any fun e => e.cond == .opened

/-- A CURSOR entry of the given stream and port. -/
def MetaEntry.isCursorOf (st : Fin 16) (p : Port) : MetaEntry → Bool
  | .cursor st' _ p' _ _ => st' == st && p' == p
  | .streamDef .. => false
  | .streamDrop .. => false
  | .wear .. => false
  | .retire .. => false
  | .checkpointEnd .. => false

/-- A STREAM_DEF or STREAM_DROP of the given stream. -/
def MetaEntry.definesStream (st : Fin 16) : MetaEntry → Bool
  | .streamDef st' _ _ _ _ _ _ _ _ _ => st' == st
  | .streamDrop st' _ => st' == st
  | .cursor .. => false
  | .wear .. => false
  | .retire .. => false
  | .checkpointEnd .. => false

/-- The same stream, incarnation and port as a CURSOR entry (R106). -/
def MetaEntry.sameCursor : MetaEntry → MetaEntry → Bool
  | .cursor st inc p _ _, .cursor st' inc' p' _ _ => st == st' && inc == inc' && p == p'
  | _, _ => false

/-- An entry's stream was defined again further on in the buffer (R106, second condition). -/
def overtaken (e : MetaEntry) (later : List Staged) : Bool :=
  match e with
  | .cursor st _ _ _ _ => later.any fun x => x.entry.definesStream st
  | .streamDef .. => false
  | .streamDrop .. => false
  | .wear .. => false
  | .retire .. => false
  | .checkpointEnd .. => false

/-- The buffer with an open CURSOR entry replaced in place, if R106 lets the new entry replace one. Of two that a failed
page has left open (R112) it is the one of higher serial (log 42). -/
def replaceEntry (e : MetaEntry) : List Staged → Option (List Staged)
  | [] => none
  | x :: xs =>
    match replaceEntry e xs with
    | some l => some (x :: l)
    | none =>
      if x.cond == .opened && x.entry.sameCursor e && !overtaken x.entry xs then some ({ x with entry := e } :: xs)
      else none

/-- The writer's cursor record follows every CURSOR entry staged (R117). -/
def Device.recordEntry (d : Device) (e : MetaEntry) : Device :=
  match e with
  | .cursor st _ p committed lost =>
    match d.cursor st p with
    | some c => d.setCursor st p (some { c with recCommitted := committed, recLost := lost })
    | none => d
  | .streamDef .. => d
  | .streamDrop .. => d
  | .wear .. => d
  | .retire .. => d
  | .checkpointEnd .. => d

/-- The writer with an entry added at the end of the buffer, with the next serial; the flush timer starts when no entry
was open (R104, R106). -/
def Writer.addEntry (w : Writer) (e : MetaEntry) : Writer :=
  { w with
    staging := w.staging ++ [⟨w.nextSerial, e, .opened⟩]
    nextSerial := w.nextSerial + 1
    timerRunning := if w.hasOpen then w.timerRunning else true }

/-- Stage an entry (R104, R106, R120): discarded where the writer takes none, replaced in place, or added; at the serial
limit the writer goes HALTED and the entry is discarded. -/
def Device.stage (d : Device) (e : MetaEntry) : Device :=
  if !d.writer.takesEntries then d
  else
    match replaceEntry e d.writer.staging with
    | some l => { d with writer := { d.writer with staging := l } }.recordEntry e
    | none =>
      if Config.erasedSerial ≤ d.writer.nextSerial then d.haltWriter
      else { d with writer := d.writer.addEntry e }.recordEntry e

/-- Stage entries in order. -/
def Device.stageAll (d : Device) (es : List MetaEntry) : Device := es.foldl Device.stage d

/-- The RETIRE entries of the sectors one operation retired: one for each group of up to eight (R16; log 10). -/
def retireEntries (sectors : List Nat) : List MetaEntry :=
  (groupsOfEight sectors.length (ascending sectors)).map .retire

/-- The newest serial assigned: the mark of a sector queued now (R14). -/
def Device.newestSerial (d : Device) : Nat := d.writer.nextSerial - 1

/-- The serial of the newest CURSOR entry the buffer holds for a stream and port (R59). -/
def Writer.cursorSerial (w : Writer) (st : Fin 16) (p : Port) : Option Nat :=
  ((w.staging.filter fun x => x.entry.isCursorOf st p).getLast?).map Staged.serial

/-! ### Waiting for places (R107) -/

/-- Free places: 15 less the entries, one fewer in ERASING for every producer but the erase engine (R107). -/
def Writer.freePlaces (w : Writer) (who : Waiter) : Nat :=
  Config.stagingPlaces - w.staging.length - (if w.phase = .erasing && who != .engine then 1 else 0)

/-- The places an operation needed: what it added to the buffer. -/
def placesUsed (before after : Device) : Nat := after.writer.staging.length - before.writer.staging.length

/-- The part as if serials had not run out, for counting alone (R104, R107). -/
def Device.withSerials (d : Device) : Device := { d with writer := { d.writer with nextSerial := 0 } }

/-- The places an operation needs, from the tables as they stand (R107): what it adds to the buffer, a replacement in
place counting none (R106). An operation that meets R104's limit adds no more from there on, so it is counted as if
serials had not run out. -/
def Device.placesNeeded (d : Device) (op : Device → Device) : Nat :=
  max (placesUsed d (op d)) (placesUsed d.withSerials (op d.withSerials))

/-- The places suffice: always while the writer takes no entries (R107, R120). -/
def Device.placesSuffice (d : Device) (who : Waiter) (n : Nat) : Bool :=
  !d.writer.takesEntries || n ≤ d.writer.freePlaces who

/-- A producer joins the place-wait list at its tail end, or keeps its position (R107). -/
def Device.joinPlaceWait (d : Device) (who : Waiter) : Device :=
  if who ∈ d.writer.placeWait then d
  else { d with writer := { d.writer with placeWait := d.writer.placeWait ++ [who] } }

/-- A producer leaves the place-wait list. -/
def Device.leavePlaceWait (d : Device) (who : Waiter) : Device :=
  { d with writer := { d.writer with placeWait := d.writer.placeWait.filter (· != who) } }

/-- An executor's operation that stages entries: made whole if the places it needs are free, otherwise the executor
enters WAIT_STAGING and changes nothing (R17, R33, R58). -/
def Device.withPlaces (d : Device) (p : Port) (op : Device → Device) (next : Device → Device) : Device :=
  let ready := (d.leavePlaceWait (.executor p)).toExecState p .check
  if d.placesSuffice (.executor p) (ready.placesNeeded op) then next (op ready)
  else (d.joinPlaceWait (.executor p)).toExecState p .waitStaging

/-! ### Waiting for durability (R113) -/

/-- The answer of an executor whose wait for durability ends (R19, R21, R23, R59, R173). -/
def Device.durableAnswer (d : Device) (p : Port) : Device :=
  match (d.exec p).job with
  | .created st inc => d.answer p .ok [BitVec.ofNat 8 st.val, inc]
  | .acked committed => d.answer p .ok (bigEndian 4 committed)
  | .none =>
    match (d.exec p).inHand with
    | some (.known _ .sync _) => d.answer p .ok (bigEndian 4 d.writer.durableSerial)
    | _ => d.answer p .ok []
  | .read _ _ => d.answer p .ok []
  | .reading _ _ _ _ _ => d.answer p .ok []
  | .append _ => d.answer p .ok []

/-- Begin a wait for a serial: READ_ONLY from a halted writer, at once if it is durable already, otherwise WAIT_DURABLE
(R113, R120). -/
def Device.awaitDurable (d : Device) (p : Port) (job : Job) (serial : Nat) : Device :=
  if d.writer.state = .halted then d.answer p .readOnly []
  else if serial ≤ d.writer.durableSerial then (d.toExec p .check job).durableAnswer p
  else d.toExec p (.waitDurable serial) job

/-- Release one durable waiter whose serial is durable (R111, R119). -/
def Device.releaseWaiter (d : Device) (p : Port) : Device :=
  match (d.exec p).state with
  | .waitDurable serial => if serial ≤ d.writer.durableSerial then d.durableAnswer p else d
  | .idle => d
  | .check => d
  | .waitArray => d
  | .onArray => d
  | .waitSpace => d
  | .waitStaging => d
  | .waitSlot => d

/-- Release every durable waiter whose serial is durable, in port order (R111, R119; log 9). -/
def Device.releaseWaiters (d : Device) : Device :=
  ((d.releaseWaiter .A).releaseWaiter .B).releaseWaiter .C

end Sys2Proof.Machine
end

