-- ==== Sys2Proof/Machine/SectorMap.lean ====
section
/-! DEFINITION. The sector map's transfers: free pool (R13, R30), erase queue (R14), bad list (R16), sectors leaving a
chain, and the reclaim rule (R24, R25). -/

namespace Sys2Proof.Machine

open Sys2Proof

/-- A descriptor in a state that holds no owner, page map or suspect flag: erase count kept (R14, R16). -/
def Sector.cleared (x : Sector) (state : SectorState) (mark : Nat) : Sector :=
  { Sector.blank with state := state, eraseCount := x.eraseCount, mark := mark }

/-- A sector joins the tail end of the erase queue, with the newest serial assigned as its mark (R14). -/
def Device.joinQueue (d : Device) (n : Nat) : Device :=
  { d.setSector n ((d.sector n).cleared .queued d.newestSerial) with eraseQueue := d.eraseQueue ++ [n] }

/-- The place of a sector in the free pool: ascending erase count, then ascending number (R13). -/
def Device.insertPool (d : Device) (n : Nat) : List Nat → List Nat
  | [] => [n]
  | x :: xs =>
    let cn := (d.sector n).eraseCount
    let cx := (d.sector x).eraseCount
    if cn < cx || (cn == cx && n < x) then n :: x :: xs else x :: d.insertPool n xs

/-- A sector becomes FREE with an erase count and joins the free pool at its place (R13). -/
def Device.joinPool (d : Device) (n count : Nat) : Device :=
  let d := d.setSector n { Sector.blank with state := .free, eraseCount := count }
  { d with freePool := d.insertPool n d.freePool }

/-- A retirement: the sector is BAD with its erase count kept, RETIRED goes to every attached port, and the 32nd takes a
READY device to READ_ONLY (R16, R99, R175). RETIRED goes before the STATE event for a sector leaving a chain too, as R99
orders them for a failed erase (log 51). Its RETIRE entry is staged by the caller. -/
def Device.retire (d : Device) (n : Nat) : Device :=
  let d := d.setSector n ((d.sector n).cleared .bad 0)
  let d := { d with badList := insertAscending n d.badList }
  let d := d.offerAll ⟨.retired, some n, none⟩
  if d.badList.length = Config.badLimit && d.mode == .ready then d.enterState .readOnly else d

/-- A sector that has left its chain: retired when suspect and the bad list has room, queued otherwise (R9, R16). The
list is of the sectors retired so far. -/
def releaseSector (x : Device × List Nat) (n : Nat) : Device × List Nat :=
  if (x.1.sector n).suspect && x.1.badList.length < Config.badLimit then (x.1.retire n, x.2 ++ [n])
  else (x.1.joinQueue n, x.2)

/-- The chain of a stream replaced. -/
def Device.setChain (d : Device) (st : Fin 16) (chain : List Nat) : Device :=
  match d.stream st with
  | none => d
  | some b => d.setBody st (some { b with chain := chain })

/-- The least committed over a stream's readers, or the next sequence without readers (R24). -/
def Device.leastCommitted (d : Device) (st : Fin 16) (b : StreamBody) : Nat :=
  let at' := fun (p : Port) => if b.readers.get p then (d.cursor st p).map Cursor.committed else none
  match [at' .A, at' .B, at' .C].filterMap id with
  | [] => b.next
  | x :: xs => xs.foldl min x

/-- The head qualifies for reclaim: FILLED, no WRITING page, no LIVE page or a last sequence below M (R24). -/
def Sector.reclaimable (x : Sector) (least : Nat) : Bool :=
  x.state == .filled && x.pageList.all (· != .writing) &&
    match x.last? with
    | none => true
    | some last => decide (last < least)

/-- Take qualifying heads off a chain, head first: the chain left, and the device and sectors retired. -/
def takeHeads (least : Nat) : List Nat → Device × List Nat → List Nat × (Device × List Nat)
  | [], x => ([], x)
  | n :: rest, x =>
    if (x.1.sector n).reclaimable least then takeHeads least rest (releaseSector x n) else (n :: rest, x)

/-- The reclaim rule for a stream, with the sectors it retired; not evaluated in READ_ONLY (R24, R25; log 11). -/
def Device.reclaim (d : Device) (st : Fin 16) : Device × List Nat :=
  match d.stream st with
  | none => (d, [])
  | some b =>
    if d.mode = .readOnly then (d, [])
    else
      let r := takeHeads (d.leastCommitted st b) b.chain (d, [])
      if r.1.length = b.chain.length then (d, [])
      else (((r.2.1.setChain st r.1).recount st).evalHigh st, r.2.2)

/-- Every sector of a chain leaves it, head to tail (R23, R148). -/
def Device.emptyChain (d : Device) (st : Fin 16) : Device × List Nat :=
  match d.stream st with
  | none => (d, [])
  | some b =>
    let r := b.chain.foldl releaseSector (d, [])
    (r.1.setChain st [], r.2)

/-- Reclaim, then stage the RETIRE entries of what it retired (R16, R24). -/
def Device.reclaimStaged (d : Device) (st : Fin 16) : Device :=
  let r := d.reclaim st
  r.1.stageAll (retireEntries r.2)

/-- Allocation: the first sector of the pool becomes the stream's TAIL, every page UNUSED (R30). -/
def Device.allocate (d : Device) (st : Fin 16) : Device :=
  match d.freePool, d.stream st with
  | n :: rest, some b =>
    let d := d.setSector n
      { Sector.blank with
        state := .tail, owner := some (st, d.incarnation st), eraseCount := (d.sector n).eraseCount }
    { d.setBody st (some { b with chain := b.chain ++ [n] }) with freePool := rest }
  | _, _ => d

end Sys2Proof.Machine
end

