-- ==== Sys2Proof/Machine/Append.lean ====
section
/-! DEFINITION. Appending (R26 to R47) but for the array's reports: admission, place finding, the drop, waits for space,
and the step grants. -/

namespace Sys2Proof.Machine

open Sys2Proof

/-- The body of the APPEND a port has in hand. -/
def Device.appendBody (d : Device) (p : Port) : List Byte :=
  match (d.exec p).inHand with
  | some (.known _ .append body) => body
  | some (.known _ _ _) => []
  | some .frame => []
  | some (.unknown _ _) => []
  | none => []

/-- An APPEND in flight on a stream: between its step-1 grant and the end of the attempt (R36). -/
def Executor.inFlightOn (x : Executor) (st : Fin 16) : Bool :=
  match x.job with
  | .append j => j.stream == st && (j.phase == .step1 || j.phase == .between || j.phase == .step2)
  | .none => false
  | .read _ _ => false
  | .reading _ _ _ _ _ => false
  | .created _ _ => false
  | .acked _ => false

/-! ### The drop (R32, R33) -/

/-- Raise one reader's cursor to X, with its CURSOR entry, LOST event and backlog flag (R32). -/
def Device.raiseCursor (d : Device) (st : Fin 16) (x : Nat) (p : Port) : Device :=
  match d.stream st, d.cursor st p with
  | some b, some c =>
    if b.readers.get p && c.committed < x then
      let lost := min Config.saturation16 (c.lost + (x - c.committed))
      let d := d.setCursor st p (some { c with committed := x, delivered := max c.delivered x, lost := lost })
      let d := d.stage (.cursor st (d.incarnation st) p x lost)
      let d := d.offer p ⟨.lost, some st.val, some lost⟩
      d.evalBacklog st p
    else d
  | _, _ => d

/-- A DROP_OLDEST drop of the head sector: cursor changes, the head leaves the chain, the reclaim rule runs, and the
RETIRE entries are staged (R33). -/
def Device.dropHead (d : Device) (st : Fin 16) : Device :=
  match d.stream st with
  | none => d
  | some b =>
    match b.chain with
    | [] => d
    | head :: rest =>
      let x := d.chainOldest rest b.next
      let d := ((d.raiseCursor st x .A).raiseCursor st x .B).raiseCursor st x .C
      let r := releaseSector (d, []) head
      let d := ((r.1.setChain st rest).recount st).evalHigh st
      let r2 := d.reclaim st
      r2.1.stageAll (retireEntries (r.2 ++ r2.2))

/-! ### Place finding (R29) -/

/-- Claim the array for step 1 (R29). -/
def Device.claimStep1 (d : Device) (p : Port) (j : AppendJob) : Device :=
  d.toExec p .waitArray (.append { j with phase := .seek })

/-- A new tail is needed: allocate and claim, or NOSPACE with nothing queued for erase, or wait for space (R29, R34). -/
def Device.allocateOrWait (d : Device) (p : Port) (j : AppendJob) : Device :=
  if !d.freePool.isEmpty then (d.allocate j.stream).claimStep1 p j
  else if d.eraseQueue.isEmpty then d.answer p .nospace []
  else { d.toExec p .waitSpace (.append { j with phase := .seek }) with spaceWait := d.spaceWait ++ [p] }

/-- The chain's last sector is TAIL. -/
def Device.tailOf (d : Device) (b : StreamBody) : Option Nat :=
  match b.chain.getLast? with
  | some n => if (d.sector n).state = .tail then some n else none
  | none => none

/-- Place finding, its four cases in order (R29). -/
def Device.findPlace (d : Device) (p : Port) (j : AppendJob) : Device :=
  match d.stream j.stream with
  | none => d.answer p .noStream []
  | some b =>
    if (d.tailOf b).isSome then d.claimStep1 p j
    else if b.chain.length < b.quota then d.allocateOrWait p j
    else
      match b.policy with
      | .refuse => d.answer p .full []
      | .dropOldest =>
        (d.toExec p .check (.append { j with phase := .seek })).withPlaces p
          (fun d => d.dropHead j.stream) (fun d => d.allocateOrWait p j)

/-- The checks of R27, then place finding: at admission, after a wait for places, and for a retry (R27, R33, R42). -/
def Device.seekPlace (d : Device) (p : Port) (j : AppendJob) : Device :=
  let d := d.leavePlaceWait (.executor p)
  match d.appendCheck p (d.appendBody p) with
  | .error s => d.answer p s []
  | .ok _ => d.findPlace p j

/-- A seek that waits for places makes its checks and place finding again; if it still lacks places it keeps its
position on the list (R33, R107). -/
def Device.seekAgain (d : Device) (p : Port) (j : AppendJob) : Device :=
  match d.appendCheck p (d.appendBody p) with
  | .error s => (d.leavePlaceWait (.executor p)).answer p s []
  | .ok _ =>
    let d' := d.findPlace p j
    if (d'.exec p).state = .waitStaging then d' else d'.leavePlaceWait (.executor p)

/-! ### Waiting for space (R35, R98) -/

/-- A sector has joined the pool: wake the list's head; it allocates, or is answered and the next is woken (R98). -/
def wakeSpace : List Port → Device → Device
  | [], d => d
  | p :: rest, d =>
    let d := { d with spaceWait := rest }
    match d.appendCheck p (d.appendBody p), (d.exec p).job with
    | .ok _, .append j => (d.allocate j.stream).claimStep1 p j
    | .ok _, _ => wakeSpace rest (d.answer p .nospace [])
    | .error s, _ => wakeSpace rest (d.answer p s [])

/-- Serve the space-wait list (R98). -/
def Device.serveSpace (d : Device) : Device := wakeSpace d.spaceWait d

/-! ### Step grants -/

/-- The bytes of step 1 of the request in hand (R37). -/
def Device.step1Bytes (d : Device) (p : Port) (st : Fin 16) (b : StreamBody) : List Byte :=
  let body := d.appendBody p
  dataStep1 st (d.incarnation st) b.writer b.next (bytesAt body 1 2) (body.drop 3)

/-- Take the target page: WRITING, the sector FILLED after its page 15, used pages and the high flag brought up to date
(R36). -/
def Device.takePage (d : Device) (st : Fin 16) (sector page : Nat) : Device :=
  let x := (d.sector sector).setPage page .writing
  let d := d.setSector sector (if page = 15 then { x with state := .filled } else x)
  (d.recount st).evalHigh st

/-- The grant of step 1: the device state, the target, and the step (R36, R46). -/
def Device.grantStep1 (d : Device) (p : Port) (j : AppendJob) : Device :=
  if d.mode ≠ .ready then
    d.release.answer p (if d.mode = .readOnly then .readOnly else .aborted) []
  else
    match d.stream j.stream with
    | none => d.release.answer p .noStream []
    | some b =>
      match d.tailOf b with
      | none => d.release.findPlace p j
      | some n =>
        match (d.sector n).firstUnused with
        | none => d.release.findPlace p j
        | some page =>
          let bytes := d.step1Bytes p j.stream b
          let d := d.takePage j.stream n page
          { d.toExec p .onArray (.append { j with phase := .step1, sector := n, page := page }) with
            arrayOp := .program n page 0 bytes }

/-- RETIRE entries an ended request leaves behind: staged if places are free, otherwise discarded (R43, R44). -/
def Device.stageOrDiscard (d : Device) (p : Port) (es : List MetaEntry) : Device :=
  if d.placesSuffice (.executor p) es.length then d.stageAll es else d

/-- An append abandoned between its steps, or after a step 1 that will have no step 2: its page becomes VOID, the sector
is not suspect, and the reclaim rule runs for the changed page map (R24, R44). -/
def Device.abandonPage (d : Device) (p : Port) (j : AppendJob) : Device :=
  let r := (d.setPageState j.sector j.page .void).reclaim j.stream
  r.1.stageOrDiscard p (retireEntries r.2)

/-- The grant of step 2: the commit mark (R38), or in FORMATTING the end of the append (R46). -/
def Device.grantStep2 (d : Device) (p : Port) (j : AppendJob) : Device :=
  if d.mode = .formatting then (d.release.abandonPage p j).answer p .aborted []
  else
    { d.toExec p .onArray (.append { j with phase := .step2 }) with
      arrayOp := .program j.sector j.page 14 [0x00#8] }

/-! ### Outcomes (R40 to R43) -/

/-- RETIRE entries of a step's outcome: staged in the same event if the places are free; otherwise kept by the executor,
which joins the place-wait list; discarded if the request has ended (R43; log 15). -/
def Device.stageOutcome (d : Device) (p : Port) (j : AppendJob) (es : List MetaEntry) : Device × AppendJob :=
  if es.isEmpty || d.placesSuffice (.executor p) es.length then (d.stageAll es, { j with kept := [] })
  else if (d.exec p).inHand.isSome && d.mode ≠ .formatting then
    (d.joinPlaceWait (.executor p), { j with kept := es })
  else (d, { j with kept := [] })

/-- After the void step, and any wait for places: MEDIA after the third failure, otherwise a retry (R42). The third
failure is answered MEDIA in READ_ONLY too, where R47 could be read to say READ_ONLY (log 32). -/
def Device.afterFailure (d : Device) (p : Port) (j : AppendJob) : Device :=
  if Config.appendAttempts ≤ j.attempts then (d.leavePlaceWait (.executor p)).answer p .media []
  else (d.toExec p .check (.append { j with phase := .seek, kept := [] })).seekPlace p { j with kept := [] }

/-- Kept RETIRE entries offered places: staged if they suffice, and then the append's next action (R43, R107). Its
executor has left the list when they are staged, so that one which meets R104's limit does not have it answered
READ_ONLY: it goes on as if the entry had been staged (R120; log 41). -/
def Device.stageKept (d : Device) (p : Port) (j : AppendJob) : Device :=
  if d.placesSuffice (.executor p) j.kept.length then
    let es := j.kept
    let j := { j with kept := [] }
    let d := d.leavePlaceWait (.executor p)
    let d := d.toExec p (if (d.exec p).state = .waitStaging then .check else (d.exec p).state) (.append j)
    let d := d.stageAll es
    match j.phase with
    | .committed seq => d.answer p .ok (bigEndian 4 seq)
    | .failed => d.afterFailure p j
    | .voiding => d.toExec p .onArray (.append j)
    | .seek => d
    | .step1 => d
    | .between => d
    | .step2 => d
  else d

end Sys2Proof.Machine
end

