-- ==== Sys2Proof/Machine/Consent.lean ====
section
/-! DEFINITION. Consent ballots: PROPOSE, AGREE, REFUSE, and the execution of a PURGE and the beginning of a FORMAT
(R139 to R149). -/

namespace Sys2Proof.Machine

open Sys2Proof

/-- Every port of `s` is in `t`. -/
def PerPort.subset (s t : PortSet) : Bool := portList.all fun p => !s.get p || t.get p

/-! ### Entry into FORMATTING (R149) -/

/-- An executor on entry into FORMATTING: a wait for space, places or durability is answered ABORTED; kept entries of an
append on the array are lost (R46, R61, R121, R149). -/
def Device.formatExecutor (d : Device) (p : Port) : Device :=
  match (d.exec p).state with
  | .waitSpace => d.answer p .aborted []
  | .waitStaging => d.answer p .aborted []
  | .waitDurable _ => d.answer p .aborted []
  | .onArray =>
    match (d.exec p).job with
    | .append j => d.toExec p .onArray (.append { j with kept := [] })
    | .none => d
    | .read _ _ => d
    | .reading _ _ _ _ _ => d
    | .created _ _ => d
    | .acked _ => d
  | .idle => d
  | .check => d
  | .waitArray => d
  | .waitSlot => d

/-- The metadata writer on entry into FORMATTING: claim withdrawn, compaction abandoned, buffer emptied, no active half;
a step on the array runs to its end and is then forgotten (R121). The other registers of half and compaction stand (log
57). -/
def Device.formatWriter (d : Device) : Device :=
  let w := d.writer
  let onArray := d.arbiter.holder == some .writer
  { d with writer := { w with
      state := if onArray then w.state else .idle
      activeHalf := none
      staging := []
      timerRunning := false
      timerExpired := false
      inFlight := if onArray then w.inFlight.map fun g => { g with fate := .discarded } else none
      phase := .none
      forFormat := false
      placeWait := [] } }

/-- A passed FORMAT puts the device in FORMATTING, and every block acts on it (R149). Half 0 is erased first where no
half is active: from BLANK as R149 says, and likewise after a FORMAT that ended in META_MEDIA (log 36). -/
def Device.enterFormatting (d : Device) : Device :=
  let first := match d.writer.activeHalf with | some h => 1 - h | none => 0
  let d := d.enterState .formatting
  let d := { ((d.formatExecutor .A).formatExecutor .B).formatExecutor .C with spaceWait := [] }
  let d := d.stopEngine.formatWriter
  { d with consent := { d.consent with state := .formatDrain, formatHalf := first, formatErased := 0 } }

/-! ### Executing a PURGE (R146 to R148) -/

/-- One cursor of a purged stream: committed and delivered at the next sequence, with its CURSOR entry (R148, step 1).
-/
def Device.purgeCursor (d : Device) (st : Fin 16) (next : Nat) (p : Port) : Device :=
  match d.cursor st p with
  | none => d
  | some c =>
    let d := d.setCursor st p (some { c with committed := next, delivered := next })
    d.stage (.cursor st (d.incarnation st) p next c.lost)

/-- A PURGE's changes, in one event and in the order of R148; the RETIRE entries of its suspect sectors follow when the
whole chain has left (log 38). -/
def Device.purgeStream (d : Device) (st : Fin 16) : Device :=
  match d.stream st with
  | none => d
  | some b =>
    let d := ((d.purgeCursor st b.next .A).purgeCursor st b.next .B).purgeCursor st b.next .C
    let r := d.emptyChain st
    let d := r.1.stageAll (retireEntries r.2)
    ((d.recount st).evalHigh st).evalBacklogs st

/-- The consent unit returns to IDLE with no pending purge, and leaves the place-wait list. -/
def Device.purgeOver (d : Device) : Device :=
  let d := d.leavePlaceWait .consent
  { d with consent := { d.consent with state := .idle, pending := none } }

/-- The stream a pending purge still names: not FREE, and of the recorded incarnation (R147). -/
def Device.purgeTarget (d : Device) : Option (Fin 16 × StreamBody) :=
  match d.consent.pending with
  | none => none
  | some (st, inc) =>
    match d.stream st with
    | none => none
    | some b => if d.incarnation st = inc then some (st, b) else none

/-- The stream's writer has an append in flight on it (R36, R146). -/
def Device.appendInFlight (d : Device) (st : Fin 16) (b : StreamBody) : Bool := (d.exec b.writer).inFlightOn st

/-- The place check of R147: the purge discarded, put off for an append in flight, executed, or waiting for places.
An append in flight puts it off even where the writer has gone HALTED, which R147's last words do not say (log 37), and
a unit so put off leaves the place-wait list (log 48). -/
def Device.tryPurge (d : Device) : Device :=
  match d.purgeTarget with
  | none => d.purgeOver
  | some (st, b) =>
    if d.appendInFlight st b then
      let d := d.leavePlaceWait .consent
      { d with consent := { d.consent with state := .purgePending } }
    else
      if d.placesSuffice .consent (d.placesNeeded fun d => d.purgeStream st) then (d.purgeStream st).purgeOver
      else
        let d := d.joinPlaceWait .consent
        { d with consent := { d.consent with state := .purgeStaging } }

/-! ### Ballots (R140 to R145) -/

/-- A ballot PASSES: it closes, and its operation begins (R145, R146, R149). A PURGE with no append in flight is
executed in the same event (`Device.settle`). -/
def Device.passBallot (d : Device) (bl : Ballot) : Device :=
  let d := d.closeBallot .passed
  match bl.op with
  | .purge st inc => { d with consent := { d.consent with state := .purgePending, pending := some (st, inc) } }
  | .format => d.enterFormatting

/-- The open ballot passes if every required party has agreed (R141, R142). -/
def Device.passIfComplete (d : Device) : Device :=
  match d.consent.ballot with
  | some bl => if bl.parties.subset bl.agreed then d.passBallot bl else d
  | none => d

/-- A PROPOSE that passes its checks opens a ballot (R141). -/
def Device.openBallot (d : Device) (p : Port) (op : BallotOp) (parties : PortSet) : Device :=
  let id := d.consent.counter + 1
  let bl : Ballot := ⟨id, op, p, parties, (PerPort.all false).set p true⟩
  let d := { d with consent := { d.consent with state := .opened, counter := id, ballot := some bl } }
  let d := d.holdBallotStream op true
  let d := d.offerSet (parties.set p false) ⟨.ballotOpen, some id.toNat, some op.code⟩
  (d.answer p .ok [id]).passIfComplete

/-- The last two checks of R140, and the opening. -/
def Device.proposeTo (d : Device) (p : Port) (op : BallotOp) (parties : PortSet) : Device :=
  if !parties.get p then d.answer p .notParty []
  else if d.consent.state ≠ .idle then d.answer p .ballotBusy []
  else d.openBallot p op parties

/-- PROPOSE (R140): operation 01h PURGE of the stream named, 02h FORMAT. -/
def Device.takePropose (d : Device) (p : Port) (body : List Byte) : Device :=
  let code := (byteAt body 0).toNat
  match d.admission p (if code = 1 then writeMode d.mode else ballotMode d.mode) with
  | some s => d.answer p s []
  | none =>
    if code = 1 then
      match d.namedStream (body.drop 1) with
      | .error s => d.answer p s []
      | .ok (st, b) => d.proposeTo p (.purge st (d.incarnation st)) (b.readers.set b.writer true)
    else if code = 2 then d.proposeTo p .format d.attachedPorts
    else d.answer p .badArg []

/-- The checks of AGREE and REFUSE, in order (R142). -/
def Device.voteCheck (d : Device) (p : Port) (body : List Byte) : Except Status Ballot :=
  match d.admission p (ballotMode d.mode) with
  | some s => .error s
  | none =>
    match d.consent.ballot with
    | none => .error .stale
    | some bl =>
      if d.consent.state ≠ .opened || bl.id ≠ byteAt body 0 then .error .stale
      else if !bl.parties.get p then .error .notParty
      else if bl.agreed.get p then .error .voted
      else .ok bl

/-- AGREE (R142). -/
def Device.takeAgree (d : Device) (p : Port) (body : List Byte) : Device :=
  match d.voteCheck p body with
  | .error s => d.answer p s []
  | .ok bl =>
    let d := { d with consent := { d.consent with ballot := some { bl with agreed := bl.agreed.set p true } } }
    (d.answer p .ok []).passIfComplete

/-- REFUSE (R142). -/
def Device.takeRefuse (d : Device) (p : Port) (body : List Byte) : Device :=
  match d.voteCheck p body with
  | .error s => d.answer p s []
  | .ok _ => (d.answer p .ok []).closeBallot .refused

end Sys2Proof.Machine
end

