-- ==== Sys2Proof/Machine/Cursors.lean ====
section
/-! DEFINITION. READ, ACK, REWIND and SETLEVEL (R51 to R63). -/

namespace Sys2Proof.Machine

open Sys2Proof

/-! ### READ -/

/-- READ at admission: EMPTY, or a claim with the incarnation noted (R52). -/
def Device.takeRead (d : Device) (p : Port) (body : List Byte) : Device :=
  match d.cursorCheck p .read body with
  | .error s => d.answer p s []
  | .ok (st, b, c) =>
    if c.delivered = b.next then d.answer p .empty []
    else d.toExec p .waitArray (.read st (d.incarnation st))

/-- The page of a chain that is LIVE with a sequence (R53). -/
def Device.locate (d : Device) (chain : List Nat) (seq : Nat) : Option (Nat × Nat) :=
  chain.findSome? fun n => ((d.sector n).pageList.findIdx? (· == .live seq)).map fun page => (n, page)

/-- The grant of a page read: re-examination, the record chosen, the read issued (R53). In every reachable state the
page exists; where a state holds none the array is released and the READ answered CORRUPT (log 25). -/
def Device.grantRead (d : Device) (p : Port) (st : Fin 16) (inc : Byte) : Device :=
  if d.mode = .formatting then d.release.answer p .aborted []
  else
    match d.stream st with
    | none => d.release.answer p .noStream []
    | some b =>
      if d.incarnation st ≠ inc then d.release.answer p .noStream []
      else
        match d.cursor st p with
        | none => d.release.answer p .notReader []
        | some c =>
          if c.delivered = b.next then d.release.answer p .empty []
          else
            match d.locate b.chain c.delivered with
            | none => d.release.answer p .corrupt (bigEndian 4 c.delivered)
            | some (n, page) =>
              { d.toExec p .onArray (.reading st inc c.delivered n page) with arrayOp := .read n page }

/-- The end of a page read whose request still stands: ABORTED in FORMATTING, ahead of R55's re-examination (R56;
log 46); that re-examination; then the checks of R54 on the bytes;
delivered moves past d whether the record was good or not, and in the order of R49 no further than the next sequence,
which it could pass only where the number has come round to its incarnation while the read ran (log 45). -/
def Device.readOutcome (d : Device) (p : Port) (st : Fin 16) (inc : Byte) (seq : Nat) (bytes : List Byte) : Device :=
  if d.mode = .formatting then d.answer p .aborted []
  else
    match d.stream st with
    | none => d.answer p .noStream []
    | some b =>
      if d.incarnation st ≠ inc then d.answer p .noStream []
      else
        match d.cursor st p with
        | none => d.answer p .notReader []
        | some c =>
          let d := d.setCursor st p (some { c with delivered := max c.delivered (min (seq + 1) b.next) })
          if recordGood bytes st inc seq then d.answer p .ok (recordBody bytes seq)
          else d.answer p .corrupt (bigEndian 4 seq)

/-! ### ACK -/

/-- The changes of an ACK that advances committed to n, in one event and in the order of R58. -/
def Device.advanceCursor (d : Device) (st : Fin 16) (p : Port) (n : Nat) : Device :=
  match d.cursor st p with
  | none => d
  | some c =>
    let d := d.setCursor st p (some { c with committed := n })
    let d := d.stage (.cursor st (d.incarnation st) p n c.lost)
    (d.evalBacklog st p).reclaimStaged st

/-- After an advance: OK at once, or with DURABLE a wait for the cursor's entry (R58, R59). -/
def Device.ackAdvanced (d : Device) (p : Port) (st : Fin 16) (n : Nat) (durable : Bool) : Device :=
  if durable then
    d.awaitDurable p (.acked n) ((d.writer.cursorSerial st p).getD d.newestSerial)
  else d.answer p .ok (bigEndian 4 n)

/-- An ACK that changes nothing: OK, with DURABLE once the newest CURSOR entry of the stream and port in the buffer is
durable (R57, R59). -/
def Device.ackUnchanged (d : Device) (p : Port) (st : Fin 16) (committed : Nat) (durable : Bool) : Device :=
  match durable, d.writer.cursorSerial st p with
  | true, some serial => d.awaitDurable p (.acked committed) serial
  | _, _ => d.answer p .ok (bigEndian 4 committed)

/-- ACK (R57 to R60). -/
def Device.takeAck (d : Device) (p : Port) (body : List Byte) : Device :=
  match d.cursorCheck p .ack body with
  | .error s => d.answer p s []
  | .ok (st, _, c) =>
    let durable := byteAt body 5 == 0x01#8
    let n := fieldAt body 1 4 + 1
    if d.mode = .readOnly && durable then d.answer p .readOnly []
    else if n ≤ c.committed then d.ackUnchanged p st c.committed durable
    else if c.delivered < n then d.answer p .seq []
    else if d.mode = .readOnly then
      ((d.setCursor st p (some { c with committed := n })).evalBacklog st p).answer p .ok (bigEndian 4 n)
    else
      d.withPlaces p (fun d => d.advanceCursor st p n) fun d => d.ackAdvanced p st n durable

/-! ### REWIND and SETLEVEL -/

/-- REWIND (R62). -/
def Device.takeRewind (d : Device) (p : Port) (body : List Byte) : Device :=
  match d.cursorCheck p .rewind body with
  | .error s => d.answer p s []
  | .ok (st, _, c) =>
    (d.setCursor st p (some { c with delivered := c.committed })).answer p .ok (bigEndian 4 c.committed)

/-- SETLEVEL (R63). -/
def Device.takeSetlevel (d : Device) (p : Port) (body : List Byte) : Device :=
  match d.cursorCheck p .setlevel body with
  | .error s => d.answer p s []
  | .ok (st, _, c) =>
    ((d.setCursor st p (some { c with level := fieldAt body 1 2 })).evalBacklog st p).answer p .ok []

end Sys2Proof.Machine
end

