-- ==== Sys2Proof/Machine/Sessions.lean ====
section
/-! DEFINITION. ATTACH, DETACH, EVENTS and MASK (R156, R157, R168, R169), and QUERY, STATUS (R171, R172). -/

namespace Sys2Proof.Machine

open Sys2Proof

/-- ATTACH (R168). -/
def Device.takeAttach (d : Device) (p : Port) : Device :=
  let reply := [BitVec.ofNat 8 (portCode p)]
  if (d.port p).attached then d.answer p .ok reply
  else
    let d := d.setPort p { d.port p with attached := true }
    let d := { d with events := d.events.set p EventUnit.powerUp }
    (d.sendPeer p true).answer p .ok reply

/-- DETACH: attachment, then the empty body (log 13); answered first, then the session ends, the responses not yet
fetched staying in their queue (R169; log 49). -/
def Device.takeDetach (d : Device) (p : Port) (body : List Byte) : Device :=
  if !(d.port p).attached then d.answer p .notAttached []
  else if !lengthGood .detach body then d.answer p .badArg []
  else (d.answer p .ok []).endSession p

/-- The six bytes of an event in a response (R163). -/
def Event.encode (e : Event) : List Byte :=
  [BitVec.ofNat 8 e.kind.code, BitVec.ofNat 8 (e.subject.getD 0xFF)] ++ bigEndian 4 (e.value.getD 0)

/-- The body of an EVENTS response (R156, R163); the overflow byte is 01h for set and 00h for clear (log 39). -/
def EventUnit.report (u : EventUnit) : List Byte :=
  let out := u.queue.take Config.eventsPerResponse
  [if u.overflow then 1 else 0, BitVec.ofNat 8 out.length, BitVec.ofNat 8 (u.queue.length - out.length)]
    ++ out.flatMap Event.encode

/-- EVENTS (R156). -/
def Device.takeEvents (d : Device) (p : Port) (body : List Byte) : Device :=
  if !(d.port p).attached then d.answer p .notAttached []
  else if !lengthGood .events body then d.answer p .badArg []
  else
    let u := d.events.get p
    let rest := { u with queue := u.queue.drop Config.eventsPerResponse, overflow := false }
    let d := { d with events := d.events.set p rest }
    d.answer p .ok u.report

/-- A mask's bits 0 and 10 to 15 must be 0 (R163). -/
def maskValid (n : Nat) : Bool := n % 2 == 0 && n < 1024

/-- MASK (R157). -/
def Device.takeMask (d : Device) (p : Port) (body : List Byte) : Device :=
  if !(d.port p).attached then d.answer p .notAttached []
  else if !lengthGood .mask body || !maskValid (fieldAt body 0 2) then d.answer p .badArg []
  else
    let u := d.events.get p
    let d := { d with events := d.events.set p { u with mask := BitVec.ofNat 16 (fieldAt body 0 2) } }
    d.answer p .ok (bigEndian 2 u.mask.toNat)

/-- Policy codes (R163). -/
def policyCode : Policy → Nat
  | .refuse => 0
  | .dropOldest => 1

/-- QUERY's cursor fields (R67, R171). -/
def Cursor.report (c : Cursor) (next : Nat) : List Byte :=
  bigEndian 4 c.committed ++ bigEndian 4 c.delivered ++ bigEndian 2 c.level ++ [if c.flag then 1 else 0]
    ++ bigEndian 2 c.lost ++ bigEndian 4 (next - c.committed)

/-- QUERY's descriptor fields (R171); bits 2 to 7 of the flags byte, which R171 does not name, are 0 (log 59). -/
def StreamBody.report (b : StreamBody) (st : Fin 16) (inc : Byte) : List Byte :=
  [BitVec.ofNat 8 st.val, inc, if b.held then 2 else 1] ++ bigEndian 4 b.nameTag.toNat
    ++ [BitVec.ofNat 8 (portCode b.writer), BitVec.ofNat 8 (portSetCode b.readers), BitVec.ofNat 8 (policyCode b.policy),
      BitVec.ofNat 8 b.quota] ++ bigEndian 2 b.margin ++ bigEndian 4 b.next ++ bigEndian 4 b.oldest
    ++ [BitVec.ofNat 8 b.chain.length] ++ bigEndian 2 b.used ++ bigEndian 2 b.room
    ++ [BitVec.ofNat 8 ((if b.high then 1 else 0) + (if b.ballotHeld then 2 else 0))]

/-- QUERY (R67, R171). -/
def Device.takeQuery (d : Device) (p : Port) (body : List Byte) : Device :=
  match d.admission p (readMode d.mode) with
  | some s => d.answer p s []
  | none =>
    match d.namedStream body with
    | .error s => d.answer p s []
    | .ok (st, b) =>
      let own :=
        match b.readers.get p, d.cursor st p with
        | true, some c => c.report b.next
        | _, _ => []
      d.answer p .ok (b.report st (d.incarnation st) ++ own)

/-- Streams OPEN or HELD (R172). -/
def Device.streamCount (d : Device) : Nat := ((List.finRange 16).filter fun st => (d.stream st).isSome).length

/-- STATUS's ballot fields: the open ballot, its agreed set coded as a reader-set byte (log 54), its window's time left
a free value of at most 250 ms (R139, R172; log 1). -/
def Device.ballotReport (d : Device) : List Byte :=
  match d.consent.ballot with
  | some bl =>
    [bl.id, BitVec.ofNat 8 bl.op.code, BitVec.ofNat 8 (portSetCode bl.agreed)]
      ++ bigEndian 2 (Config.windowLeft d.draws % (Config.ballotWindow + 1))
  | none => [0, 0, 0] ++ bigEndian 2 0

/-- The reason STATUS reports: 00h except in READ_ONLY (R172). -/
def Device.reasonReported (d : Device) : Nat := if d.mode = .readOnly then reasonCode d.reason else 0

/-- The body of a STATUS response (R172). -/
def Device.statusReport (d : Device) : List Byte :=
  [BitVec.ofNat 8 (deviceCode d.mode), BitVec.ofNat 8 d.reasonReported, BitVec.ofNat 8 d.freePool.length,
    BitVec.ofNat 8 d.eraseQueue.length, BitVec.ofNat 8 d.badList.length, BitVec.ofNat 8 d.streamCount]
    ++ bigEndian 4 d.writer.generation ++ bigEndian 4 d.writer.durableSerial ++ bigEndian 4 d.writer.nextSerial
    ++ bigEndian 2 d.mount.repair ++ [BitVec.ofNat 8 (portSetCode d.attachedPorts)] ++ d.ballotReport

/-- STATUS: attached or not, in every state but STOPPING and STOPPED (R172). -/
def Device.takeStatus (d : Device) (p : Port) : Device := (d.answer p .ok d.statusReport).drawn

end Sys2Proof.Machine
end

