-- ==== Sys2Proof/Machine/Streams.lean ====
section
/-! DEFINITION. CREATE, CONFIGURE and DELETE (R17 to R23). -/

namespace Sys2Proof.Machine

open Sys2Proof

/-- A created cursor (R48), with the writer's record at its created values (R117). -/
def Cursor.fresh (n : Nat) : Cursor := ⟨n, n, Config.defaultLevel, false, 0, n, 0⟩

/-- The STREAM_DEF of a stream as it stands, base sequence its next sequence (R1, R103). -/
def StreamBody.definition (b : StreamBody) (st : Fin 16) (inc : Byte) : MetaEntry :=
  .streamDef st inc b.writer b.readers b.held b.policy b.nameTag b.quota b.margin b.next

/-- Stage a stream's STREAM_DEF. -/
def Device.stageDefinition (d : Device) (st : Fin 16) : Device :=
  match d.stream st with
  | none => d
  | some b => d.stage (b.definition st (d.incarnation st))

/-- The fields of a new stream (R18). -/
def CreateArgs.newStream (a : CreateArgs) (p : Port) : StreamBody where
  held := false
  nameTag := a.tag
  writer := p
  readers := a.readers
  policy := a.policy
  quota := a.quota
  margin := a.margin
  next := 0
  oldest := 0
  chain := []
  used := 0
  high := false
  ballotHeld := false

/-- CREATE's changes, in one event (R18). -/
def Device.createStream (d : Device) (p : Port) (st : Fin 16) (a : CreateArgs) : Device :=
  let d := d.setStream st ⟨d.incarnation st + 1, some (a.newStream p)⟩
  let fresh := fun (q : Port) => if a.readers.get q then some (Cursor.fresh 0) else none
  let d := ((d.setCursor st .A (fresh .A)).setCursor st .B (fresh .B)).setCursor st .C (fresh .C)
  (d.evalHigh st).stageDefinition st

/-- The lowest FREE stream number (R18). -/
def Device.lowestFree (d : Device) : Option (Fin 16) := (List.finRange 16).find? fun st => (d.stream st).isNone

/-- CREATE: the checks of R17 and R18, then its changes and the wait for durability. -/
def Device.takeCreate (d : Device) (p : Port) (body : List Byte) : Device :=
  match d.admission p (writeMode d.mode) with
  | some s => d.answer p s []
  | none =>
    match createArgs body with
    | none => d.answer p .badArg []
    | some a =>
      match d.lowestFree with
      | none => d.answer p .limit []
      | some st =>
        d.withPlaces p (fun d => d.createStream p st a) fun d =>
          d.awaitDurable p (.created st (d.incarnation st)) d.newestSerial

/-- A reader-set change for one port: a cursor created at the next sequence, kept, or discarded (R21, steps 2, 3). -/
def Device.changeReader (d : Device) (st : Fin 16) (old new : PortSet) (next : Nat) (q : Port) : Device :=
  match old.get q, new.get q with
  | false, true => d.setCursor st q (some (Cursor.fresh next))
  | true, false => d.setCursor st q none
  | true, true => d
  | false, false => d

/-- The CURSOR entry of an added reader (R21, step 4). -/
def Device.stageAdded (d : Device) (st : Fin 16) (old new : PortSet) (next : Nat) (q : Port) : Device :=
  if new.get q && !old.get q then d.stage (.cursor st (d.incarnation st) q next 0) else d

/-- CONFIGURE's changes, in one event and in the order of R21. -/
def Device.configureStream (d : Device) (st : Fin 16) (a : ConfigureArgs) : Device :=
  match d.stream st with
  | none => d
  | some b =>
    let d := d.setBody st (some { b with
      policy := a.policy, quota := a.quota, margin := a.margin, readers := a.readers, held := a.held })
    let d := ((d.changeReader st b.readers a.readers b.next .A).changeReader st b.readers a.readers b.next .B)
      |>.changeReader st b.readers a.readers b.next .C
    let d := d.stageDefinition st
    let d := ((d.stageAdded st b.readers a.readers b.next .A).stageAdded st b.readers a.readers b.next .B)
      |>.stageAdded st b.readers a.readers b.next .C
    (d.evalHigh st).reclaimStaged st

/-- The checks CONFIGURE and DELETE share: R17, then the stream, its writer and the ballot-held flag (R20, R22). -/
def Device.ownerCheck (d : Device) (p : Port) (body : List Byte) : Except Status (Fin 16 × StreamBody) :=
  match d.admission p (writeMode d.mode) with
  | some s => .error s
  | none =>
    match d.namedStream body with
    | .error s => .error s
    | .ok (st, b) =>
      if b.writer ≠ p then .error .notWriter
      else if b.ballotHeld then .error .ballotBusy
      else .ok (st, b)

/-- CONFIGURE (R20, R21). -/
def Device.takeConfigure (d : Device) (p : Port) (body : List Byte) : Device :=
  match d.ownerCheck p body with
  | .error s => d.answer p s []
  | .ok (st, b) =>
    match configureArgs body b.chain.length with
    | none => d.answer p .badArg []
    | some a =>
      d.withPlaces p (fun d => d.configureStream st a) fun d => d.awaitDurable p .none d.newestSerial

/-- Every cursor of the stream has committed equal to the next sequence (R22). -/
def Device.allAcknowledged (d : Device) (st : Fin 16) (next : Nat) : Bool :=
  portList.all fun q =>
    match d.cursor st q with
    | none => true
    | some c => c.committed == next

/-- DELETE's changes, in one event and in the order of R23. -/
def Device.deleteStream (d : Device) (st : Fin 16) : Device :=
  match d.stream st with
  | none => d
  | some b =>
    let d := d.stage (.streamDrop st (d.incarnation st))
    let r := d.emptyChain st
    let d := r.1.stageAll (retireEntries r.2)
    let d := d.dropCursors st
    let d := d.offerSet (b.readers.set b.writer false) ⟨.streamGone, some st.val, none⟩
    d.setBody st none

/-- DELETE (R22, R23). -/
def Device.takeDelete (d : Device) (p : Port) (body : List Byte) : Device :=
  match d.ownerCheck p body with
  | .error s => d.answer p s []
  | .ok (st, b) =>
    if !d.allAcknowledged st b.next then d.answer p .backlog []
    else d.withPlaces p (fun d => d.deleteStream st) fun d => d.awaitDurable p .none d.newestSerial

end Sys2Proof.Machine
end

