-- ==== Sys2Proof/Machine/Execute.lean ====
section
/-! DEFINITION. The executors at work: the arrival of an entry (R164), taking it (R166, R167, R179), and the offering of
staging places to those that wait (R107). -/

namespace Sys2Proof.Machine

open Sys2Proof

/-! ### SYNC and APPEND -/

/-- SYNC (R173). -/
def Device.takeSync (d : Device) (p : Port) : Device :=
  match d.admission p (readMode d.mode) with
  | some s => d.answer p s []
  | none =>
    if d.newestSerial ≤ d.writer.durableSerial then d.answer p .ok (bigEndian 4 d.writer.durableSerial)
    else d.awaitDurable p .none d.newestSerial

/-- APPEND at admission: the checks of R27, then place finding with an attempt count of 0 (R29, R42). -/
def Device.takeAppend (d : Device) (p : Port) (body : List Byte) : Device :=
  match d.appendCheck p body with
  | .error s => d.answer p s []
  | .ok (st, _) => d.findPlace p ⟨st, .seek, 0, 0, 0, []⟩

/-! ### The request in hand (R164, R167, R179) -/

/-- The kinds whose length check stands among the checks of their own rule (R167), and DETACH, by R169 (log 13). -/
def Kind.ownLength : Kind → Bool
  | .read => true
  | .ack => true
  | .rewind => true
  | .setlevel => true
  | .events => true
  | .mask => true
  | .attach => false
  | .detach => true
  | .create => false
  | .configure => false
  | .delete => false
  | .append => false
  | .query => false
  | .status => false
  | .sync => false
  | .propose => false
  | .agree => false
  | .refuse => false

/-- The rule of a request's kind. -/
def Device.carryOut (d : Device) (p : Port) (kind : Kind) (body : List Byte) : Device :=
  match kind with
  | .attach => d.takeAttach p
  | .detach => d.takeDetach p body
  | .create => d.takeCreate p body
  | .configure => d.takeConfigure p body
  | .delete => d.takeDelete p body
  | .append => d.takeAppend p body
  | .read => d.takeRead p body
  | .ack => d.takeAck p body
  | .rewind => d.takeRewind p body
  | .setlevel => d.takeSetlevel p body
  | .query => d.takeQuery p body
  | .status => d.takeStatus p
  | .sync => d.takeSync p
  | .events => d.takeEvents p body
  | .mask => d.takeMask p body
  | .propose => d.takePropose p body
  | .agree => d.takeAgree p body
  | .refuse => d.takeRefuse p body

/-- The device is STOPPING or STOPPED (R179). -/
def Device.halting (d : Device) : Bool := d.mode == .stopping || d.mode == .stopped

/-- The request in hand: ABORTED in STOPPING and STOPPED without any check (R179); a marked entry's own answer (R164);
otherwise the body length check where R167 puts it first (log 13), and the rule of its kind. -/
def Device.process (d : Device) (p : Port) (r : Request) : Device :=
  if d.halting then d.answer p .aborted []
  else
    match r with
    | .frame => d.answer p .frame []
    | .unknown _ _ => d.answer p .unknown []
    | .known _ kind body =>
      if !kind.ownLength && !lengthGood kind body then d.answer p .badArg [] else d.carryOut p kind body

/-- The three conditions of R166. -/
def Device.canTake (d : Device) (p : Port) : Bool :=
  ((d.exec p).state == .idle || (d.exec p).state == .waitSlot) && !(d.port p).requests.isEmpty
    && (d.port p).responses.length < Config.queueSlots

/-- The executor takes the oldest request and enters CHECK (R166). -/
def Device.takeRequest (d : Device) (p : Port) : Device :=
  match (d.port p).requests with
  | [] => d
  | r :: rest =>
    let d := d.setPort p { d.port p with requests := rest }
    (d.setExec p ⟨.check, some r, .none⟩).process p r

/-- An entry offered to a request queue at the end of its SEND: dropped with the rejected bit set when the queue holds
four, otherwise accepted with the bit clear (R164). The transaction under way at the port ends with it (R160; log 43).
-/
def Device.arrive (d : Device) (p : Port) (r : Request) : Device :=
  let h := { d.port p with begun := none }
  if Config.queueSlots ≤ h.requests.length then d.setPort p { h with rejected := true }
  else d.setPort p { h with requests := h.requests ++ [r], rejected := false }

/-! ### Offering places (R107) -/

/-- The entry of an outcome in hand; a WEAR entry's counts as they stand when it is staged (R97, R99). -/
def Device.outcomeEntry (d : Device) (o : EraseOutcome) : MetaEntry :=
  match o with
  | .wear g =>
    .wear g (d.sector g).eraseCount (d.sector (g + 1)).eraseCount (d.sector (g + 2)).eraseCount
      (d.sector (g + 3)).eraseCount
  | .retire n => .retire [n]

/-- The engine's outcome in hand: staged if a place is free, otherwise WAIT_STAGING (R97, R99). -/
def Device.stageEngine (d : Device) : Device :=
  match d.engine.outcome with
  | none => d
  | some o =>
    if d.placesSuffice .engine 1 then
      let d := d.leavePlaceWait .engine
      let d := { d with engine := { d.engine with outcome := none, state := .idle } }
      d.stage (d.outcomeEntry o)
    else
      let d := d.joinPlaceWait .engine
      { d with engine := { d.engine with state := .waitStaging } }

/-- A request re-examined from its checks on: answered, carried out, or still waiting in its position (R17, R33, R58).
-/
def Device.processAgain (d : Device) (p : Port) (r : Request) : Device :=
  let d' := d.process p r
  if (d'.exec p).state = .waitStaging then d' else d'.leavePlaceWait (.executor p)

/-- A waiting executor offered places (R17, R33, R43, R58, R107). -/
def Device.executorAgain (d : Device) (p : Port) : Device :=
  match (d.exec p).job, (d.exec p).inHand with
  | .append j, _ =>
    match j.phase with
    | .seek => d.seekAgain p j
    | .voiding => d.stageKept p j
    | .committed _ => d.stageKept p j
    | .failed => d.stageKept p j
    | .step1 => d.leavePlaceWait (.executor p)
    | .between => d.leavePlaceWait (.executor p)
    | .step2 => d.leavePlaceWait (.executor p)
  | _, some r => d.processAgain p r
  | _, none => d.leavePlaceWait (.executor p)

/-- One waiter offered places re-examines its request (R107). -/
def Device.offerTo (d : Device) (w : Waiter) : Device :=
  match w with
  | .executor p => d.executorAgain p
  | .engine => d.stageEngine
  | .consent => d.tryPurge

/-- Places offered down the list: on past each waiter that leaves its head, stopping at one that keeps it (R107). -/
def offerDown : Nat → Device → Device
  | 0, d => d
  | fuel + 1, d =>
    match d.writer.placeWait with
    | [] => d
    | w :: _ =>
      let d' := d.offerTo w
      if d'.writer.placeWait.head? = some w then d' else offerDown fuel d'

/-- The freed places offered: in ERASING the held place to the engine first, then down the list (R107). -/
def Device.offerPlaces (d : Device) : Device :=
  let d := if d.writer.phase = .erasing && d.engine.state == .waitStaging then d.stageEngine else d
  offerDown (2 * d.writer.placeWait.length) d

end Sys2Proof.Machine
end

