-- ==== Sys2Proof/Machine/Erase.lean ====
section
/-! DEFINITION. The erase engine's choice, grants and outcomes (R89, R90, R94 to R101). -/

namespace Sys2Proof.Machine

open Sys2Proof

/-! ### Choice (R94) -/

/-- The device states in which a slot sector may be started (R94). -/
def slotMode : DeviceState → Bool
  | .ready => true
  | .readOnly => true
  | .blank => true
  | .formatting => true
  | .mounting => false
  | .stopping => false
  | .stopped => false

/-- The erase-queue head, when it is QUEUED and the device READY (R94). -/
def Device.startableHead (d : Device) : Option Nat :=
  match d.eraseQueue with
  | [] => none
  | n :: _ => if d.mode = .ready && (d.sector n).state == .queued then some n else none

/-- The state R94 chooses with no current erase and no outcome in hand. -/
def Device.chosenState (d : Device) : EngineState :=
  if !d.engine.slot.isEmpty && slotMode d.mode then .claiming
  else
    match d.startableHead with
    | some n => if (d.sector n).mark ≤ d.writer.durableSerial then .claiming else .gated
    | none => .idle

/-- The engine is between erases: no current erase, no outcome in hand (R94). -/
def Engine.choosing (x : Engine) : Bool := x.current.isNone && x.outcome.isNone

/-- The engine enters the state chosen: a claim placed starts the starvation timer, a claim given up is withdrawn
(R88, R91, R94). -/
def Device.enterChoice (d : Device) (c : EngineState) : Device :=
  let arb :=
    if c = .claiming then { d.arbiter with starveTimer := true }
    else { d.arbiter with starved := false, starveTimer := false }
  { d with engine := { d.engine with state := c }, arbiter := arb }

/-! ### Grants (R95) and suspension (R89, R90) -/

/-- A sector's state in the map, for a QUEUE erase; SLOT sectors have no descriptor (R8, R15, R96). -/
def Device.setEraseState (d : Device) (c : CurrentErase) (v : SectorState) : Device :=
  match c.source with
  | .queue => d.setSector c.sector { d.sector c.sector with state := v }
  | .slot => d

/-- ERASE SECTOR issued: current erase, context, timers, starvation flag (R79, R91, R95). -/
def Device.startErase (d : Device) (n : Nat) (source : EraseSource) : Device :=
  let c : CurrentErase := ⟨n, source, 0, .running⟩
  { d.setEraseState c .erasing with
    engine := { d.engine with state := .running, current := some c }
    arbiter := { d.arbiter with starved := false, starveTimer := false }
    arrayOp := .erase
    eraseCtx := some ⟨n, 0, .running, false⟩ }

/-- Nothing to start: the engine releases the array at once (R95). -/
def Device.engineGivesUp (d : Device) : Device :=
  { d.release with
    engine := { d.engine with state := .idle }
    arbiter := { d.arbiter with holder := none, starved := false, starveTimer := false } }

/-- The engine in CLAIMING, granted: it chooses again and starts its sector (R95). -/
def Device.grantStart (d : Device) : Device :=
  match d.engine.slot with
  | n :: rest =>
    if slotMode d.mode then { d with engine := { d.engine with slot := rest } }.startErase n .slot
    else d.engineGivesUp
  | [] =>
    match d.startableHead with
    | some n => if (d.sector n).mark ≤ d.writer.durableSerial then d.startErase n .queue else d.engineGivesUp
    | none => d.engineGivesUp

/-- The engine in SUSPENDED, granted: RESUME (R81, R95). -/
def Device.grantResume (d : Device) : Device :=
  match d.engine.current, d.eraseCtx with
  | some c, some x =>
    { d.setEraseState c .erasing with
      engine := { d.engine with state := .running, current := some { c with timer := .running } }
      arbiter := { d.arbiter with starved := false, starveTimer := false }
      arrayOp := .erase
      eraseCtx := some { x with phase := .running } }
  | _, _ => d.engineGivesUp

/-- The erase engine granted the array (R95). -/
def Device.engineGrant (d : Device) : Device :=
  if d.engine.state = .suspended then d.grantResume else d.grantStart

/-- The arbiter's condition for SUSPEND: the erase RUNNING for 2 ms, budget left, and a claim of an executor or the
writer waiting (R89); none is issued once ABANDON is stopping the pulse (R82; log 47). -/
def Device.mustSuspend (d : Device) : Bool :=
  match d.engine.current, d.eraseCtx with
  | some c, some x =>
    d.engine.state == .running && x.phase == .running && !x.abandon && c.timer == .reached
      && c.suspensions < Config.suspensionBudget && (d.someExecClaims || d.writerClaims)
  | _, _ => false

/-- SUSPEND issued (R80, R95). -/
def Device.suspend (d : Device) : Device :=
  match d.eraseCtx with
  | none => d
  | some x =>
    { d with
      arrayOp := .suspending
      eraseCtx := some { x with phase := .suspending }
      engine := { d.engine with state := .suspending } }

/-- The array reports SUSPENDED (R80, R90). -/
def Device.eraseSuspended (d : Device) (x : EraseContext) (c : CurrentErase) : Device :=
  { (d.setEraseState c .suspended).release with
    eraseCtx := some { x with phase := .suspended }
    engine := { d.engine with
      state := .suspended, current := some { c with suspensions := c.suspensions + 1, timer := .stopped } }
    arbiter := { d.arbiter with holder := none, starveTimer := true } }

/-! ### Outcomes (R79, R96 to R101) -/

/-- The current erase and the context discarded, the grant ended (R97, R99, R101). -/
def Device.endErase (d : Device) : Device :=
  { d.release with eraseCtx := none, engine := { d.engine with current := none, state := .idle } }

/-- ERASE_DONE of a data sector, in the order of R97. -/
def Device.queueErased (d : Device) (n : Nat) : Device :=
  let d := { d with eraseQueue := d.eraseQueue.filter (· != n) }
  let d := (d.joinPool n (min Config.eraseCountMax ((d.sector n).eraseCount + 1))).serveSpace
  let d := d.endErase
  { d with engine := { d.engine with outcome := some (.wear (n - n % 4)) } }.stageEngine

/-- ERASE_FAIL of a data sector (R99). -/
def Device.queueFailed (d : Device) (n : Nat) : Device :=
  if d.badList.length < Config.badLimit then
    let d := { d with eraseQueue := d.eraseQueue.filter (· != n) }
    let d := (d.retire n).endErase
    { d with engine := { d.engine with outcome := some (.retire n) } }.stageEngine
  else (d.setSector n { d.sector n with state := .queued }).endErase

/-- The checkpoint entry list formed from the tables (R117); for FORMAT every number counts as FREE and no cursor exists
(R150). -/
def Device.checkpointList (d : Device) (snapshot : Nat) (format : Bool) : List MetaEntry :=
  let streams := (List.finRange 16).filterMap fun st =>
    match (if format then none else d.stream st) with
    | some b => some (b.definition st (d.incarnation st))
    | none => if d.incarnation st = 0#8 then none else some (.streamDrop st (d.incarnation st))
  let cursors := if format then [] else
    (List.finRange 16).flatMap fun st => portList.filterMap fun p =>
      (d.cursor st p).map fun c => .cursor st (d.incarnation st) p c.recCommitted c.recLost
  let wear := (List.range 63).map fun k => d.outcomeEntry (.wear (4 + 4 * k))
  let body := streams ++ cursors ++ wear ++ (groupsOfEight d.badList.length d.badList).map .retire
  body ++ [.checkpointEnd snapshot (body.length + 1)]

/-- The two sectors of a half, lower-numbered first (R68, R96). -/
def halfSectors (half : Nat) : List Nat := [2 * half, 2 * half + 1]

/-- Both halves erased: the consent unit hands FORMAT's list to the writer (R121, R149, R150). -/
def Device.beginFormatCheckpoint (d : Device) : Device :=
  { d with
    consent := { d.consent with state := .formatCheckpoint }
    writer := { d.writer with
      phase := .checkpoint, forFormat := true, target := 0, snapshot := 1, list := d.checkpointList 1 true
      written := 0, checkpointPos := 0 } }

/-- A slot sector reported erased to FORMAT: the other half follows the first, the checkpoint follows both (R149). -/
def Device.formatErasedOne (d : Device) : Device :=
  let n := d.consent.formatErased + 1
  let d := { d with consent := { d.consent with formatErased := n } }
  if n = 2 then { d with engine := { d.engine with slot := halfSectors (1 - d.consent.formatHalf) } }
  else if n = 4 then d.beginFormatCheckpoint
  else d

/-- ERASE_DONE of a slot sector: reported to FORMAT or to the compaction (R96, R115, R149). -/
def Device.slotErased (d : Device) : Device :=
  let d := d.endErase
  if d.consent.state = .formatErase then d.formatErasedOne
  else if d.writer.phase = .erasing then { d with writer := { d.writer with erased := d.writer.erased + 1 } }
  else d

/-- ERASE_DONE (R79, R96, R97). -/
def Device.eraseDone (d : Device) (c : CurrentErase) : Device :=
  match c.source with
  | .queue => d.queueErased c.sector
  | .slot => d.slotErased

/-- ERASE_FAIL (R79, R99, R101). -/
def Device.eraseFail (d : Device) (c : CurrentErase) : Device :=
  match c.source with
  | .queue => d.queueFailed c.sector
  | .slot => d.endErase.haltWriter

/-- A pulse ends and the sector verifies: ERASE_DONE with the number of completed pulses (R79). -/
def Device.pulsePassed (d : Device) (x : EraseContext) (c : CurrentErase) : Device :=
  { d with eraseDonePulses := x.pulses + 1 }.eraseDone c

/-- A pulse ends and the erase goes on, or ends after its sixth (R79). -/
def Device.pulseFailed (d : Device) (x : EraseContext) (c : CurrentErase) : Device :=
  if x.pulses + 1 < Config.erasePulses then { d with eraseCtx := some { x with pulses := x.pulses + 1 } }
  else d.eraseFail c

end Sys2Proof.Machine
end

