-- ==== Sys2Proof/Machine/Writer.lean ====
section
/-! DEFINITION. The metadata writer at work: triggers and grants (R109, R110, R118), commits (R111, R119, R150),
failures (R112), compaction (R114 to R116), and the stopping flush (R122). -/

namespace Sys2Proof.Machine

open Sys2Proof

/-! ### Triggers (R109) -/

/-- A durable waiter waits for a serial held by an open entry (R109, R113). -/
def Device.waiterTrigger (d : Device) : Bool :=
  portList.any fun p =>
    match (d.exec p).state with
    | .waitDurable serial => d.writer.staging.any fun e => e.serial == serial && e.cond == .opened
    | .idle => false
    | .check => false
    | .waitArray => false
    | .onArray => false
    | .waitSpace => false
    | .waitStaging => false
    | .waitSlot => false

/-- A trigger is present (R109). -/
def Device.flushTrigger (d : Device) : Bool :=
  Config.stagingPlaces ≤ d.writer.staging.length || d.waiterTrigger || !d.writer.placeWait.isEmpty
    || d.writer.timerExpired

/-- The conditions of R109 for a journal page, the trigger apart. -/
def Writer.canFlush (w : Writer) : Bool :=
  w.activeHalf.isSome && w.hasOpen && !(w.phase == .checkpoint) && w.writePos < Config.halfPages

/-- A page of the checkpoint waits to be written (R118). -/
def Writer.checkpointWaits (w : Writer) : Bool := w.phase == .checkpoint && w.written < w.list.length

/-! ### Grants (R110, R118) -/

/-- The sector and page of page number `page` of a half (R68). -/
def metaSector (half page : Nat) : Nat := 2 * half + page / 16
/-- The page within its sector. -/
def metaPage (page : Nat) : Nat := page % 16

/-- The first `n` open entries, in serial order. -/
def openEntries (n : Nat) (l : List Staged) : List Staged := (l.filter fun e => e.cond == .opened).take n

/-- The first `n` open entries become taken (R105, R110). -/
def takeOpen : Nat → List Staged → List Staged
  | _, [] => []
  | 0, l => l
  | n + 1, e :: es => if e.cond == .opened then { e with cond := .taken } :: takeOpen n es else e :: takeOpen (n + 1) es

/-- The step-1 program of a page in flight (R74). -/
def PageInFlight.step1Op (g : PageInFlight) : ArrayOp :=
  .program (metaSector g.half g.page) (metaPage g.page) 0 (metaStep1 g.generation g.first g.kind g.entries)

/-- The commit or void mark of a page in flight (R74). -/
def PageInFlight.markOp (g : PageInFlight) (byte : Nat) : ArrayOp :=
  .program (metaSector g.half g.page) (metaPage g.page) byte [0x00#8]

/-- Step 1 of a journal page granted (R110); the compaction trigger is evaluated by `Device.settle` (R114). -/
def Device.grantJournal (d : Device) (half : Nat) : Device :=
  let w := d.writer
  let out := openEntries Config.stagingPlaces w.staging
  let g : PageInFlight :=
    ⟨half, w.writePos, .journal, w.generation, (out.head?.map Staged.serial).getD 0, out.map Staged.entry, false, false,
      .kept⟩
  let w := { w with
    state := .program1, inFlight := some g, staging := takeOpen Config.stagingPlaces w.staging
    writePos := w.writePos + 1, timerExpired := false }
  { d with writer := { w with timerRunning := w.hasOpen }, arrayOp := g.step1Op }

/-- Step 1 of a checkpoint page granted (R118, R121). -/
def Device.grantCheckpoint (d : Device) : Device :=
  let w := d.writer
  let g : PageInFlight :=
    ⟨w.target, w.checkpointPos, .checkpoint, w.generation + 1, w.written,
      (w.list.drop w.written).take Config.stagingPlaces, false, false, .kept⟩
  { d with
    writer := { w with state := .program1, inFlight := some g, checkpointPos := w.checkpointPos + 1 }
    arrayOp := g.step1Op }

/-- Step 2 granted (R74, R111). -/
def Device.grantMark (d : Device) (g : PageInFlight) : Device :=
  { d with
    writer := { d.writer with state := .program2, inFlight := some { g with step2 := true } }
    arrayOp := g.markOp 14 }

/-- The metadata writer granted the array. -/
def Device.writerGrant (d : Device) : Device :=
  match d.writer.state, d.writer.inFlight with
  | .claim2, some g => d.grantMark g
  | _, _ =>
    if d.writer.phase = .checkpoint then d.grantCheckpoint
    else
      match d.writer.activeHalf with
      | some h => d.grantJournal h
      | none => { d.release with writer := { d.writer with state := .idle } }

/-! ### Ends of steps (R111, R112, R118 to R121) -/

/-- The page in flight forgotten and the array released, the writer in a state. -/
def Device.endPage (d : Device) (state : WriterState) : Device :=
  { d.release with writer := { d.writer with state := state, inFlight := none } }

/-- Step 1 completes: the claim for step 2, unless the writer was halted, its entries staying taken (log 55), or
FORMATTING forgot the page (R111, R118, R120, R121). -/
def Device.metaStep1Ends (d : Device) (g : PageInFlight) : Device :=
  match g.fate with
  | .kept => { d.release with writer := { d.writer with state := .claim2 } }
  | .halted => d.endPage .halted
  | .discarded => d.endPage .idle

/-- The entries of a committed journal page leave the buffer, and the durable serial rises unless the half is broken
(R111, steps 1 and 2). -/
def Writer.commitJournal (w : Writer) (g : PageInFlight) : Writer :=
  { w with
    staging := w.staging.filter fun e => !(e.cond == .taken)
    durableSerial := if w.broken then w.durableSerial else g.first + g.entries.length - 1 }

/-- Step 2 of a journal page completes (R111, R120, R121, R122). -/
def Device.journalCommitted (d : Device) (g : PageInFlight) : Device :=
  match g.fate with
  | .kept =>
    let d := ({ d with writer := d.writer.commitJournal g } : Device).releaseWaiters
    (d.endPage .idle).offerPlaces
  | .halted => { d with writer := d.writer.commitJournal g }.endPage .halted
  | .discarded => d.endPage .idle

/-- Taken entries become open again, with their serials (R112). -/
def Writer.reopen (w : Writer) : Writer :=
  { w with staging := w.staging.map fun e => if e.cond == .taken then { e with cond := .opened } else e }

/-- The void step of a page ends (R112, R118, R120, R121). For a journal page the half is broken, and the trigger the
entries were placed for stands again (log 14), but for a writer gone HALTED, which claims no more. -/
def Device.metaVoided (d : Device) (g : PageInFlight) : Device :=
  match g.fate, g.kind with
  | .kept, .journal =>
    let w := d.writer.reopen
    { d with writer := { w with broken := true, timerRunning := w.hasOpen, timerExpired := w.hasOpen } }.endPage .idle
  | .kept, .checkpoint => d.endPage .idle
  | .halted, .journal => { d with writer := { d.writer.reopen with broken := true } }.endPage .halted
  | .halted, .checkpoint => d.endPage .halted
  | .discarded, _ => d.endPage .idle

/-! ### Checkpoint commits (R119, R121, R150) -/

/-- The writer's values when a compaction's CHECKPOINT_END commits (R119, steps 1 to 4 and 6). The entry list is emptied
with its count written, and the compaction's other registers stand (log 58). -/
def Writer.commitCheckpoint (w : Writer) : Writer :=
  { w with
    activeHalf := some w.target, generation := w.generation + 1, writePos := w.checkpointPos, broken := false
    durableSerial := max w.durableSerial (w.snapshot - 1)
    staging := w.staging.filter fun e => !(e.cond == .covered)
    phase := .none, list := [], written := 0 }

/-- The writer's values when FORMAT's CHECKPOINT_END commits (R121); the entry list and the other registers of the
checkpoint as after a compaction's (log 58). -/
def Writer.commitFormat (w : Writer) : Writer :=
  { w with
    state := .idle, activeHalf := some 0, generation := w.generation + 1, writePos := w.checkpointPos, broken := false
    nextSerial := 1, durableSerial := 0, staging := [], timerRunning := false, timerExpired := false
    phase := .none, list := [], written := 0, forFormat := false }

/-- In STOPPING no flush follows a compaction that was in CHECKPOINT at entry (R122). -/
def Device.noFlushAfter (d : Device) : Device :=
  if d.mode = .stopping then { d with writer := { d.writer with stop := .done } } else d

/-- CHECKPOINT_END of a compaction commits (R119). -/
def Device.compactionCommitted (d : Device) : Device :=
  let d := ({ d with writer := d.writer.commitCheckpoint } : Device).releaseWaiters
  d.noFlushAfter.offerPlaces

/-- One sector joins the erase queue with mark 0 (R150, step 2). -/
def Device.requeue (d : Device) (n : Nat) : Device :=
  { d.setSector n ((d.sector n).cleared .queued 0) with eraseQueue := d.eraseQueue ++ [n] }

/-- The sector map at FORMAT's commit: present entries, then chains stream by stream, then the pool, every mark 0
(R150, step 2). -/
def Device.formatSectors (d : Device) : Device :=
  let chains := (List.finRange 16).flatMap fun st => match d.stream st with | some b => b.chain | none => []
  let joined := chains ++ d.freePool
  let d := d.eraseQueue.foldl (fun d n => d.setSector n ((d.sector n).cleared .queued 0)) d
  joined.foldl Device.requeue { d with freePool := [] }

/-- A descriptor that becomes FREE and keeps its incarnation (R150, step 1). -/
def Stream.freed (x : Stream) : Stream := ⟨x.incarnation, none⟩

/-- FORMAT's CHECKPOINT_END commits, in the order of R150. Out of FORMATTING, in STOPPING, the FORMAT has been ended and
only the writer takes its values (R151; log 22). -/
def Device.formatCommitted (d : Device) : Device :=
  if d.mode ≠ .formatting then { d with writer := d.writer.commitFormat }.noFlushAfter
  else
    let d := d.formatSectors
    let d := { d with
      streams := d.streams.map Stream.freed
      cursors := Vector.replicate 16 (PerPort.all none)
      writer := d.writer.commitFormat }
    let d := d.enterState (if d.badList.length = Config.badLimit then .readOnly else .ready)
    { d with consent := { d.consent with state := .idle } }

/-- Step 2 of a checkpoint page completes (R118 to R121, R150). -/
def Device.checkpointCommitted (d : Device) (g : PageInFlight) : Device :=
  match g.fate with
  | .halted => d.endPage .halted
  | .discarded => d.endPage .idle
  | .kept =>
    let d := d.endPage .idle
    let d := { d with writer := { d.writer with written := d.writer.written + g.entries.length } }
    if d.writer.list.length ≤ d.writer.written then
      if d.writer.forFormat then d.formatCommitted else d.compactionCommitted
    else d

/-! ### Compaction (R114, R116) -/

/-- A compaction begins at once (R114); the trigger is evaluated on the entry into READY or READ_ONLY that FORMAT's
commit makes too (log 52). -/
def Device.compactionDue (d : Device) : Bool :=
  (d.mode == .ready || d.mode == .readOnly) && d.writer.takesEntries && d.writer.phase == .none
    && (Config.compactionTrigger ≤ d.writer.writePos || d.writer.broken)

/-- A compaction begins: the other half's sectors go to the priority slot (R96, R114). -/
def Device.beginCompaction (d : Device) : Device :=
  match d.writer.activeHalf with
  | none => d
  | some h =>
    { d with
      writer := { d.writer with phase := .erasing, target := 1 - h, erased := 0 }
      engine := { d.engine with slot := halfSectors (1 - h) } }

/-- The snapshot event has come (R116). -/
def Device.snapshotDue (d : Device) : Bool :=
  d.writer.phase == .erasing && 2 ≤ d.writer.erased && d.writer.state == .idle && !(d.mode == .stopping)

/-- An entry included in a snapshot (R105). -/
def Staged.cover (e : Staged) : Staged := { e with cond := .covered }

/-- The snapshot (R116): every entry covered, the list formed, phase CHECKPOINT, the held place released. The list is a
compaction's, not FORMAT's (R119). -/
def Device.takeSnapshot (d : Device) : Device :=
  let w := d.writer
  { d with writer := { w with
      snapshot := w.nextSerial
      forFormat := false
      staging := w.staging.map Staged.cover
      timerRunning := false
      list := d.checkpointList w.nextSerial false
      phase := .checkpoint, written := 0, checkpointPos := 0 } }.offerPlaces

/-! ### The stopping flush (R122) -/

/-- The writer's part on entry into STOPPING: a page in flight is finished first, a compaction in ERASING is abandoned;
a journal page only claimed is no page in flight, and is the one stopping flush (R122). A checkpoint page claimed is
still granted in turn (log 22). Covered entries stay so, and the abandoned compaction's registers stand (log 55, log
57). -/
def Writer.enterStopping (w : Writer) : Writer :=
  { w with
    phase := if w.phase = .erasing then .none else w.phase
    stop := if w.state = .claim1 && w.phase ≠ .checkpoint then .flushing else .finishing }

/-- The next move of the stopping flush, `onArray` while a step of the writer's own is on the array: a halted writer's
work is done once none is; a writer with no page in flight makes its one flush, or none, and reports (R122). -/
def Writer.stopMove (w : Writer) (onArray : Bool) : Option Writer :=
  match w.stop, w.state with
  | .finishing, .idle =>
    some (if w.canFlush then { w with stop := .flushing, state := .claim1 } else { w with stop := .done, phase := .none })
  | .finishing, .dormant => some { w with stop := .done, phase := .none }
  | .finishing, .halted => if onArray then none else some { w with stop := .done, phase := .none }
  | .flushing, .idle => some { w with stop := .done, phase := .none }
  | .flushing, .dormant => some { w with stop := .done, phase := .none }
  | .flushing, .halted => if onArray then none else some { w with stop := .done, phase := .none }
  | _, _ => none

/-- The writer's part of the stopping sequence goes on (R122). -/
def Device.stopMove (d : Device) : Option Device :=
  if d.mode = .stopping then
    (d.writer.stopMove (d.arbiter.holder == some .writer)).map fun w => { d with writer := w }
  else none

end Sys2Proof.Machine
end

