-- ==== Sys2Proof/Machine/Replay.lean ====
section
/-! DEFINITION. Mount's reading of the array: the halves and their choice (R125 to R127), replay (R129, R130), and the
classification of a data sector (R131, R132). -/

namespace Sys2Proof.Machine

open Sys2Proof

/-! ### Halves (R125, R126, R127) -/

/-- The 256 bytes of page number `page` of a half (R68). -/
def Flash.halfPage (m : Flash) (half page : Nat) : List Byte := m.readPage (metaSector half page) (metaPage page)

/-- The pages of a half, each committed and not invalid, or none (R125). -/
def Flash.halfPages (m : Flash) (half : Nat) : List (Option MetaPage) :=
  (List.range Config.halfPages).map fun page => readMetaPage (m.halfPage half page)

/-- A page of kind CHECKPOINT that holds a CHECKPOINT_END entry (R126, test 1). -/
def isEndPage (g : Option MetaPage) : Bool :=
  match g with
  | none => false
  | some g => g.kind == .checkpoint && g.entries.any fun e => e.asEnd.isSome

/-- A half that qualifies (R126). -/
structure Checkpoint where
  generation : Nat
  snapshot : Nat
  endPage : Nat
  entries : List MetaEntry
deriving DecidableEq, Repr

/-- A page's entries with their numbers: first serial plus slot (R126, test 3). -/
def MetaPage.numbered (g : MetaPage) : List (Nat × MetaEntry) := (List.range' g.first g.entries.length).zip g.entries

/-- The entry that carries a number. -/
def entryAt (l : List (Nat × MetaEntry)) (k : Nat) : Option MetaEntry := (l.find? fun x => x.1 == k).map Prod.snd

/-- The numbers 0 to C − 1 are present exactly once, no other is, and the last is the CHECKPOINT_END (R126, test 3). -/
def numbersGood (l : List (Nat × MetaEntry)) (snapshot count : Nat) : Bool :=
  l.length == count && (List.range count).all (fun k => (l.filter fun x => x.1 == k).length == 1)
    && entryAt l (count - 1) == some (.checkpointEnd snapshot count)
    && 1 ≤ count && count ≤ Config.checkpointMax && 1 ≤ snapshot

/-- The three tests of a half (R126; log 26). -/
def qualify (pages : List (Option MetaPage)) : Option Checkpoint :=
  match pages.findIdx? isEndPage with
  | none => none
  | some e =>
    match pages[e]? with
    | some (some g) =>
      match g.entries.findSome? MetaEntry.asEnd with
      | none => none
      | some (snapshot, count) =>
        let range := (pages.take (e + 1)).filterMap id
        let numbered := range.flatMap MetaPage.numbered
        if (range.all fun x => x.kind == .checkpoint && x.generation == g.generation)
            && numbersGood numbered snapshot count then
          some ⟨g.generation, snapshot, e, (List.range count).filterMap (entryAt numbered)⟩
        else none
    | _ => none

/-- The half mount chooses, with its checkpoint; none is the BLANK outcome (R127, R128). -/
def chooseHalf (a b : Option Checkpoint) : Option (Nat × Checkpoint) :=
  match a, b with
  | none, none => none
  | some x, none => some (0, x)
  | none, some y => some (1, y)
  | some x, some y =>
    if x.generation < y.generation || (x.generation == y.generation && x.snapshot < y.snapshot) then some (1, y)
    else some (0, x)

/-! ### Replay (R129, R130) -/

/-- A mounted descriptor before CHAINS (R130). -/
def mountedBody (writer : Port) (readers : PortSet) (held : Bool) (policy : Policy) (nameTag : BitVec 32)
    (quota margin base : Nat) : StreamBody where
  held := held
  nameTag := nameTag
  writer := writer
  readers := readers
  policy := policy
  quota := quota
  margin := margin
  next := base
  oldest := base
  chain := []
  used := 0
  high := false
  ballotHeld := false

/-- A retained position survives a STREAM_DEF of its incarnation whose reader set holds its port (R130). -/
def keepRetained (inc : Byte) (readers : PortSet) (p : Port) (r : Option Retained) : Option Retained :=
  match r with
  | some x => if x.inc = inc && readers.get p then some x else none
  | none => none

/-- The retained positions of a number under a STREAM_DEF (R130). -/
def keepAllRetained (inc : Byte) (readers : PortSet) (t : PerPort (Option Retained)) : PerPort (Option Retained) :=
  ⟨keepRetained inc readers .A t.a, keepRetained inc readers .B t.b, keepRetained inc readers .C t.c⟩

/-- An erase count replayed. -/
def Mount.setCount (m : Mount) (n count : Nat) : Mount :=
  if h : n < 256 then { m with counts := m.counts.set n count } else m

/-- A sector named by RETIRE joins the working bad list, at most 32 (R130). -/
def Mount.addBad (m : Mount) (n : Nat) : Mount :=
  if n ∈ m.bad || Config.badLimit ≤ m.bad.length then m else { m with bad := insertAscending n m.bad }

/-- Replay applies one entry to the working tables (R130). -/
def Mount.applyEntry (m : Mount) (e : MetaEntry) : Mount :=
  match e with
  | .streamDef st inc writer readers held policy tag quota margin base =>
    { m with
      streams := m.streams.set st.val ⟨inc, some (mountedBody writer readers held policy tag quota margin base)⟩
      retained := m.retained.set st.val (keepAllRetained inc readers m.retained[st.val]) }
  | .streamDrop st inc =>
    { m with
      streams := m.streams.set st.val ⟨inc, none⟩
      retained := m.retained.set st.val (PerPort.all none) }
  | .cursor st inc p committed lost =>
    match m.streams[st.val].body with
    | none => m
    | some b =>
      if m.streams[st.val].incarnation = inc && b.readers.get p then
        { m with retained := m.retained.set st.val (m.retained[st.val].set p (some ⟨inc, committed, lost⟩)) }
      else m
  | .wear g c0 c1 c2 c3 => (((m.setCount g c0).setCount (g + 1) c1).setCount (g + 2) c2).setCount (g + 3) c3
  | .retire sectors => sectors.foldl Mount.addBad m
  | .checkpointEnd _ _ => m

/-- Journal pages applied one by one while they carry the half's generation and the expected serial: the tables, the
serial then expected, and the page at which replay stopped (R129). -/
def replayPages (generation : Nat) : List (Option MetaPage) → Nat → Nat → Mount → Mount × Nat × Nat
  | [], expected, page, m => (m, expected, page)
  | none :: _, expected, page, m => (m, expected, page)
  | some g :: rest, expected, page, m =>
    if g.kind == .journal && g.generation == generation && g.first == expected then
      replayPages generation rest (expected + g.entries.length) (page + 1) (g.entries.foldl Mount.applyEntry m)
    else (m, expected, page)

/-- One more than the highest page of the half that is not erased throughout (R129). -/
def Flash.writtenPages (m : Flash) (half : Nat) : Nat :=
  (((List.range Config.halfPages).filter fun page => !pageErased (m.halfPage half page)).getLast?.map (· + 1)).getD 0

/-- REPLAY of the chosen half, with the writer's starting values (R129, R130). -/
def Mount.replay (m : Mount) (flash : Flash) (half : Nat) (c : Checkpoint) : Mount :=
  let m := c.entries.foldl Mount.applyEntry m
  let r := replayPages c.generation ((flash.halfPages half).drop (c.endPage + 1)) c.snapshot (c.endPage + 1) m
  let written := flash.writtenPages half
  { r.1 with
    half := half, generation := c.generation, writePos := written, broken := decide (r.2.2 < written)
    lastSerial := r.2.1 - 1 }

/-! ### Classifying a data sector (R131, R132) -/

/-- A LIVE page becomes VOID; other pages keep their state (R132). -/
def PageState.unlive : PageState → PageState
  | .live _ => .void
  | .unused => .unused
  | .writing => .writing
  | .void => .void

/-- The LIVE pages kept while their sequences are consecutive, and whether a break was met (R132). -/
def cutAtBreak : Option Nat → List PageState → List PageState × Bool
  | _, [] => ([], false)
  | before, .live n :: rest =>
    if before.all fun k => k + 1 == n then
      let r := cutAtBreak (some n) rest
      (.live n :: r.1, r.2)
    else (.void :: rest.map PageState.unlive, true)
  | before, .unused :: rest => let r := cutAtBreak before rest; (.unused :: r.1, r.2)
  | before, .writing :: rest => let r := cutAtBreak before rest; (.writing :: r.1, r.2)
  | before, .void :: rest => let r := cutAtBreak before rest; (.void :: r.1, r.2)

/-- The page states of an owned sector's pages, before sequence breaks (R132). -/
def ownedPages (pages : List (List Byte)) (st : Fin 16) (inc : Byte) (writer : Port) : List PageState :=
  let used := ((pages.reverse.dropWhile pageErased)).length
  (pages.zip (List.range pages.length)).map fun x =>
    if used ≤ x.2 then .unused
    else
      match mountLive x.1 st inc writer with
      | some seq => .live seq
      | none => .void

/-- A list of page states as a page map. -/
def pageMap (l : List PageState) : Vector PageState 16 := Vector.ofFn fun i => l.getD i.val .unused

/-- The stream of a sector owned by its page 0 (R131, class 2). -/
def Mount.ownerOf (m : Mount) (page0 : List Byte) : Option (Fin 16 × StreamBody) :=
  match streamOfByte (byteAt page0 0) with
  | none => none
  | some st =>
    match m.streams[st.val].body with
    | none => none
    | some b => if ownsPage0 page0 st m.streams[st.val].incarnation b.writer then some (st, b) else none

/-- One repair counted, saturating (R123). -/
def Mount.addRepair (m : Mount) : Mount := { m with repair := min Config.saturation16 (m.repair + 1) }

/-- An owned sector's page map, or its release when no page is LIVE (R132). -/
def Mount.takeOwned (m : Mount) (n : Nat) (st : Fin 16) (states : List PageState) : Mount :=
  let r := cutAtBreak none states
  let m := if r.2 then m.addRepair else m
  if r.1.all fun x => x.seq?.isNone then { m with released := m.released ++ [n] }
  else { m with owned := m.owned ++ [⟨n, st, pageMap r.1, r.2⟩] }

/-- A data sector classified in the event its sixteenth page has been read (R131). -/
def Mount.classify (m : Mount) (n : Nat) (pages : List (List Byte)) : Mount :=
  if pages.all pageErased then { m with freeFound := m.freeFound ++ [n] }
  else
    match m.ownerOf (pages.getD 0 []) with
    | some (st, b) => m.takeOwned n st (ownedPages pages st m.streams[st.val].incarnation b.writer)
    | none => { m with released := m.released ++ [n] }

/-- The sixteen pages of a sector. -/
def Flash.sectorPages (m : Flash) (n : Nat) : List (List Byte) :=
  (List.range Config.sectorPages).map fun page => m.readPage n page

/-- The next data sector from `n` on that is not in the working bad list (R131). -/
def Mount.nextSector (m : Mount) (n : Nat) : Option Nat := (List.range' n (256 - n)).find? fun k => !(k ∈ m.bad)

end Sys2Proof.Machine
end

