-- ==== Sys2Proof/Machine/Mount.lean ====
section
/-! DEFINITION. The mount unit: the course of a mount (R123), CHAINS, CURSORS, RECLAIM (R133 to R137), BLANK (R128) and
the hand-over (R138). -/

namespace Sys2Proof.Machine

open Sys2Proof

/-! ### CHAINS (R133, R134) -/

/-- First and last sequence of an owned sector. -/
def OwnedSector.first (o : OwnedSector) : Nat := ((o.pages.toList.filterMap PageState.seq?).head?).getD 0
/-- The sequence of its highest LIVE page. -/
def OwnedSector.last (o : OwnedSector) : Nat := ((o.pages.toList.filterMap PageState.seq?).getLast?).getD 0

/-- The retained positions of the readers of a set, port by port. -/
def readerPositions (readers : PortSet) (t : PerPort (Option Retained)) : List (Option Retained) :=
  portList.filterMap fun p => if readers.get p then some (t.get p) else none

/-- The release point P (R133). -/
def releasePoint (readers : PortSet) (t : PerPort (Option Retained)) (own : List OwnedSector) : Nat :=
  let positions := readerPositions readers t
  if positions.isEmpty then own.foldl (fun m o => max m o.first) 0
  else if positions.any Option.isNone then 0
  else
    match positions.filterMap id with
    | [] => 0
    | x :: xs => xs.foldl (fun m r => min m r.committed) x.committed

/-- A stream's owned sectors, in ascending sector number. -/
def Mount.ownedBy (m : Mount) (st : Fin 16) : List OwnedSector := m.owned.filter fun o => o.stream == st

/-- The sectors of a stream that the release test keeps, and those it releases (R133). -/
def Mount.releaseTest (m : Mount) (st : Fin 16) (b : StreamBody) : List OwnedSector × List OwnedSector :=
  let own := m.ownedBy st
  let point := releasePoint b.readers m.retained[st.val] own
  own.partition fun o => point ≤ o.last

/-- Insert by first sequence, then sector number (R134). -/
def insertOwned (o : OwnedSector) : List OwnedSector → List OwnedSector
  | [] => [o]
  | x :: xs =>
    if o.first < x.first || (o.first == x.first && o.sector < x.sector) then o :: x :: xs else x :: insertOwned o xs

/-- The chain walk: the sectors kept and those dropped, after a kept sector whose last sequence is `last` (R134). -/
def walk : Option Nat → List OwnedSector → List OwnedSector × List OwnedSector
  | _, [] => ([], [])
  | last, o :: rest =>
    if last.all fun k => k + 1 == o.first then
      let r := walk (some o.last) rest
      (o :: r.1, r.2)
    else
      let r := walk last rest
      (r.1, o :: r.2)

/-- A repair counted in the device's mount unit (R123). -/
def Device.addRepair (d : Device) : Device := { d with mount := d.mount.addRepair }

/-- A chain sector takes its state, owner and page map; only the last can be TAIL (R134). -/
def Device.placeOwned (d : Device) (isLast : Bool) (o : OwnedSector) : Device :=
  let x := d.sector o.sector
  let open' := isLast && !o.forced && o.pages.toList.any (· == .unused)
  d.setSector o.sector
    { x with
      state := if open' then .tail else .filled
      owner := some (o.stream, d.incarnation o.stream)
      pages := o.pages }

/-- The high flag computed without an event (R134, R136). -/
def Device.quietHigh (d : Device) (st : Fin 16) : Device :=
  match d.stream st with
  | none => d
  | some b => d.setBody st (some { b with high := decide (b.room ≤ b.margin) })

/-- The chain walk of one stream, and the counters it sets (R134). -/
def Device.mountChain (d : Device) (st : Fin 16) (own : List OwnedSector) : Device :=
  match d.stream st with
  | none => d
  | some b =>
    let r := walk none (own.foldr insertOwned [])
    let d := r.2.foldl (fun d o => (d.joinQueue o.sector).addRepair) d
    let last := r.1.getLast?
    let d := r.1.foldl (fun d o => d.placeOwned (last.any fun x => x.sector == o.sector) o) d
    let next := match last with | some o => o.last + 1 | none => b.next
    let d := d.setBody st (some { b with chain := r.1.map OwnedSector.sector, next := next })
    (d.recount st).quietHigh st

/-! ### CURSORS (R135) -/

/-- One mounted cursor, corrected against the stream's counters; the repairs counted ride along (R135). -/
def mountCursor (r : Option Retained) (next oldest : Nat) : Cursor × Bool :=
  let committed := match r with | some x => x.committed | none => oldest
  let lost := match r with | some x => x.lost | none => 0
  let raised := min Config.saturation16 (lost + (oldest - committed))
  let fixed := if next < max committed oldest then next else max committed oldest
  let lost := if committed < oldest then raised else lost
  (⟨fixed, fixed, Config.defaultLevel, decide (Config.defaultLevel ≤ next - fixed), lost, fixed, lost⟩,
    decide (committed < oldest || next < committed))

/-- The cursor of one port, if it is a reader (R135). -/
def Device.createCursor (d : Device) (st : Fin 16) (p : Port) : Device :=
  match d.stream st with
  | none => d
  | some b =>
    if b.readers.get p then
      let c := mountCursor (d.mount.retained[st.val].get p) b.next b.oldest
      let d := d.setCursor st p (some c.1)
      if c.2 then d.addRepair else d
    else d

/-! ### RECLAIM (R136) -/

/-- The reclaim rule at mount: heads leave the chain with no event (R24, R136). -/
def Device.mountReclaim (d : Device) (st : Fin 16) : Device :=
  match d.stream st with
  | none => d
  | some b =>
    let r := takeHeads (d.leastCommitted st b) b.chain (d, [])
    ((r.2.1.setChain st r.1).recount st).quietHigh st

/-- One reader raised by a trim, with no entry and no event (R136). -/
def Device.trimCursor (d : Device) (st : Fin 16) (x : Nat) (p : Port) : Device :=
  match d.cursor st p with
  | none => d
  | some c =>
    if c.committed < x then
      let lost := min Config.saturation16 (c.lost + (x - c.committed))
      (d.setCursor st p (some { c with
        committed := x, delivered := max c.delivered x, lost := lost, recCommitted := x, recLost := lost })).addRepair
    else d

/-- A chain longer than its quota loses its head, once for each sector too many (R136). -/
def Device.trim (d : Device) (st : Fin 16) : Nat → Device
  | 0 => d
  | excess + 1 =>
    match d.stream st with
    | none => d
    | some b =>
      match b.chain with
      | [] => d
      | head :: rest =>
        let d := ((d.joinQueue head).addRepair).setChain st rest
        let x := d.chainOldest rest b.next
        let d := ((d.trimCursor st x .A).trimCursor st x .B).trimCursor st x .C
        Device.trim d st excess

/-- A backlog flag computed without an event (R135, R136). -/
def Device.quietBacklog (d : Device) (st : Fin 16) (p : Port) : Device :=
  match d.stream st, d.cursor st p with
  | some b, some c => d.setCursor st p (some { c with flag := c.behind b.next })
  | _, _ => d

/-- Reclaim and trim of one stream, and its counters and flags after them (R136; log 24). -/
def Device.mountPasses (d : Device) (st : Fin 16) : Device :=
  let d := d.mountReclaim st
  match d.stream st with
  | none => d
  | some b =>
    let d := d.trim st (b.chain.length - b.quota)
    let d := (d.recount st).quietHigh st
    ((d.quietBacklog st .A).quietBacklog st .B).quietBacklog st .C

/-! ### The free lists (R137) and the hand-over (R138) -/

/-- A sector's descriptor with its replayed erase count, before classification. -/
def Device.seedSector (d : Device) (counts : Vector Nat 256) (n : Nat) : Device :=
  if h : n < 256 then d.setSector n { Sector.blank with eraseCount := counts[n] } else d

/-- The data sectors, 4 to 255 (R68). -/
def dataSectors : List Nat := List.range' 4 252

/-- The mounted tables before CHAINS: definitions, erase counts, bad list, free pool, and DATA_SCAN's release sectors in
the erase queue with mark 0 (R137). -/
def Device.seedTables (d : Device) : Device :=
  let m := d.mount
  let d := { d with streams := m.streams, badList := m.bad }
  let d := dataSectors.foldl (fun d n => d.seedSector m.counts n) d
  let d := m.bad.foldl (fun d n => d.setSector n ((d.sector n).cleared .bad 0)) d
  let d := m.freeFound.foldl (fun d n => d.joinPool n (d.sector n).eraseCount) d
  m.released.foldl Device.joinQueue d

/-- Every release test, then every chain walk, stream by stream (R133, R134; log 24); the sectors of one stream
that the release test sends to the queue go in ascending number (log 35). -/
def Device.mountChains (d : Device) : Device :=
  let m := d.mount
  let tested := (List.finRange 16).filterMap fun st =>
    match m.streams[st.val].body with
    | some b => some (st, m.releaseTest st b)
    | none => none
  let d := tested.foldl (fun d t => t.2.2.foldl (fun d o => d.joinQueue o.sector) d) d
  tested.foldl (fun d t => d.mountChain t.1 t.2.1) d

/-- Every cursor (R135). -/
def Device.mountCursors (d : Device) : Device :=
  (List.finRange 16).foldl (fun d st => ((d.createCursor st .A).createCursor st .B).createCursor st .C) d

/-- The working tables forgotten, the repair count kept (R123). -/
def Mount.over (m : Mount) (phase : MountPhase) : Mount := { Mount.powerUp with phase := phase, repair := m.repair }

/-- The writer's values at hand-over (R129, R138). -/
def Mount.writer (m : Mount) : Writer :=
  { Writer.powerUp with
    state := .idle, activeHalf := some m.half, generation := m.generation, writePos := m.writePos, broken := m.broken
    nextSerial := m.lastSerial + 1, durableSerial := m.lastSerial }

/-- DONE: the hand-over and the outcome state (R138). -/
def Device.mountDone (d : Device) : Device :=
  let d := { d with writer := d.mount.writer, mount := d.mount.over .done }
  d.enterState (if d.badList.length = Config.badLimit then .readOnly else .ready)

/-- The phases after DATA_SCAN, in the event its last sector is classified (R123). -/
def Device.finishMount (d : Device) : Device :=
  ((List.finRange 16).foldl Device.mountPasses d.seedTables.mountChains.mountCursors).mountDone

/-- The BLANK outcome (R128); the mount unit's phase after it is DONE (log 53). -/
def Device.mountBlank (d : Device) : Device :=
  let d := dataSectors.foldl (fun d n => d.setSector n { Sector.blank with state := .queued }) d
  let d := { d with
    eraseQueue := dataSectors, writer := { Writer.powerUp with nextSerial := 1 }, mount := d.mount.over .done }
  d.enterState .blank

/-- The mount unit issues its next read (R123). -/
def Device.mountRead (d : Device) (sector page : Nat) : Device := { d with arrayOp := .read sector page }

/-- The array left by the mount unit. -/
def Device.mountReadEnds (d : Device) : Device := { d with arrayOp := .none }

/-- DATA_SCAN goes on from a sector number: the next sector's first page, or the end of the scan (R131). -/
def Device.scanFrom (d : Device) (n : Nat) : Device :=
  match d.mount.nextSector n with
  | some k => d.mountRead k 0
  | none => d.mountReadEnds.finishMount

/-- META_SCAN's last page has been read: a half is chosen and replayed, or the mount ends BLANK (R127 to R130). -/
def Device.metaScanEnds (d : Device) (flash : Flash) : Device :=
  match chooseHalf (qualify (flash.halfPages 0)) (qualify (flash.halfPages 1)) with
  | none => d.mountReadEnds.mountBlank
  | some (half, c) =>
    let m := d.mount.replay flash half c
    { d with mount := { m with phase := .dataScan } }.scanFrom 4

/-- A page read of the mount unit completes (R123): the next page of the sector, or what follows its last page. -/
def Device.mountReadDone (d : Device) (flash : Flash) (sector page : Nat) : Device :=
  if page < 15 then d.mountRead sector (page + 1)
  else if sector < 3 then d.mountRead (sector + 1) 0
  else if sector = 3 then d.metaScanEnds flash
  else { d with mount := d.mount.classify sector (flash.sectorPages sector) }.scanFrom (sector + 1)

end Sys2Proof.Machine
end

