-- ==== Sys2Proof/Machine/Pins.lean ====
section
/-! DEFINITION. Entry into STOPPING (R178), the beginning of a mount (R123, R181), and the end of a request at its port
(R44, R56, R61, R170). -/

namespace Sys2Proof.Machine

open Sys2Proof

/-! ### Ending a request -/

/-- A claim of an executor withdrawn: a page WRITING between the steps of an append becomes VOID (R44, R88). -/
def Device.withdrawClaim (d : Device) (p : Port) : Device :=
  match (d.exec p).job with
  | .append j =>
    match j.phase with
    | .between => d.abandonPage p j
    | .seek => d
    | .step1 => d
    | .step2 => d
    | .voiding => d
    | .committed _ => d
    | .failed => d
  | .none => d
  | .read _ _ => d
  | .reading _ _ _ _ _ => d
  | .created _ _ => d
  | .acked _ => d

/-- A request on the array ended: its operation runs on with no request in hand, and kept entries are discarded
(R43, R44, R45, R56). -/
def Device.detachJob (d : Device) (p : Port) : Device :=
  let d := d.leavePlaceWait (.executor p)
  match (d.exec p).job with
  | .append j => d.setExec p ⟨.onArray, none, .append { j with kept := [] }⟩
  | .none => d.setExec p ⟨.onArray, none, .none⟩
  | .read st inc => d.setExec p ⟨.onArray, none, .read st inc⟩
  | .reading st inc seq sector page => d.setExec p ⟨.onArray, none, .reading st inc seq sector page⟩
  | .created st inc => d.setExec p ⟨.onArray, none, .created st inc⟩
  | .acked n => d.setExec p ⟨.onArray, none, .acked n⟩

/-- A port's executor leaves the space-wait list; its timer runs only in WAIT_SPACE (R35, R98). -/
def Device.leaveSpace (d : Device) (p : Port) : Device := { d with spaceWait := d.spaceWait.filter (· != p) }

/-- The executor rests, its request gone without a response. -/
def Device.rest (d : Device) (p : Port) : Device := d.setExec p Executor.rest

/-- The request in hand abandoned by LINK_RESET, by executor state (R170, step 2). -/
def Device.abandonRequest (d : Device) (p : Port) : Device :=
  match (d.exec p).state with
  | .idle => d.rest p
  | .check => d.rest p
  | .waitSlot => d.rest p
  | .waitStaging => (d.leavePlaceWait (.executor p)).rest p
  | .waitSpace => (d.leaveSpace p).rest p
  | .waitDurable _ => d.rest p
  | .waitArray => (d.withdrawClaim p).rest p
  | .onArray => d.detachJob p

/-- An executor that waits for places: in WAIT_STAGING, or with its void step on the array while its kept entries wait
on the list (R43, R107; log 15). -/
def Device.waitsForPlaces (d : Device) (p : Port) : Bool :=
  (d.exec p).state == .waitStaging || ((d.exec p).state == .onArray && d.writer.placeWait.contains (.executor p))

/-- LINK_RESET's effects, in the order of R170; places a waiter gave up are offered on, wherever it waited for them
(R107; log 28). -/
def Device.linkReset (d : Device) (p : Port) : Device :=
  let waited := d.waitsForPlaces p
  let d := d.setPort p { d.port p with requests := [], responses := [], rejected := false }
  let d := d.abandonRequest p
  let d := if (d.port p).attached then d.endSession p else d.abortBallotOf p
  if waited then d.offerPlaces else d

/-! ### Entry into STOPPING (R178) -/

/-- An executor on entry into STOPPING: its request is answered ABORTED in every state, its waits are left, its claim is
withdrawn, an operation on the array runs on (R45, R56, R178 step 1). -/
def Device.stopExecutor (d : Device) (p : Port) : Device :=
  match (d.exec p).state with
  | .idle => d
  | .waitSlot => d
  | .check => d.answer p .aborted []
  | .waitArray => (d.withdrawClaim p).answer p .aborted []
  | .waitSpace => d.answer p .aborted []
  | .waitStaging => d.answer p .aborted []
  | .waitDurable _ => d.answer p .aborted []
  | .onArray =>
    match (d.exec p).inHand with
    | some r => (d.respond p r .aborted []).detachJob p
    | none => d

/-- The consent unit on entry into STOPPING: an open ballot is aborted, a pending purge and a FORMAT under way are ended
(R144, R146, R147, R151). -/
def Device.stopConsent (d : Device) : Device :=
  let d := d.closeBallot .aborted
  { d with consent := { d.consent with state := .idle, pending := none } }

/-- The device enters STOPPING: every block acts, in the order of R178. The mount unit's phase is the model's idle from
here on, whether or not a mount was under way (R124; log 56). -/
def Device.enterStopping (d : Device) : Device :=
  let d := { d with mode := .stopping, reason := d.reasonOnEntry .stopping }
  let d := ((d.stopExecutor .A).stopExecutor .B).stopExecutor .C
  let d := { d with spaceWait := [], writer := { d.writer with placeWait := [] } }
  let d := d.stopEngine.stopConsent
  { d with writer := d.writer.enterStopping, mount := d.mount.over .idle }

/-! ### Mount begins -/

/-- A mount begins: every RAM table at its power-up value, the ports' sessions, queues and event units as they stand,
the first page read under way (R123, R181). With PFAIL asserted the device enters STOPPING in the same event (R177). -/
def Device.beginMount (d : Device) : Device :=
  let d' := { Device.powerUp d.powered d.resetLow d.pfail d.draws with ports := d.ports, events := d.events }
  if d.pfail then d'.enterStopping
  else { d' with mount := { d'.mount with phase := .metaScan } }.mountRead 0 0

/-- The stopping sequence is complete (R180). -/
def Device.stopComplete (d : Device) : Bool :=
  d.mode == .stopping && d.arbiter.holder.isNone && d.engine.current.isNone && d.writer.stop == .done
    && d.arrayOp == .none

/-- The device enters STOPPED; with PFAIL released a mount begins in the same event (R180, R181). The pin's level in
that event decides: released and asserted again while STOPPING, no mount begins until the next release (log 40). The
DORMANT writer keeps its active half, as all RAM its contents (R180; log 50). -/
def Device.enterStopped (d : Device) : Device :=
  let d := { d with
    mode := .stopped, reason := d.reasonOnEntry .stopped, writer := { d.writer with state := .dormant, stop := .notStopping } }
  if d.pfail then d else d.beginMount

end Sys2Proof.Machine
end

