-- ==== Sys2Proof/Machine/Settle.lean ====
section
/-! DEFINITION. What comes about "in the same event" after an event's own changes, until nothing more does (95; log 7):
a passed purge, requests taken, the erase engine's choice, compaction and snapshot, the writer's claims, suspension,
grants, FORMAT's progress, the stopping sequence. -/

namespace Sys2Proof.Machine

open Sys2Proof

/-- A passed PURGE is executed in the event that lets it (R146, R147). -/
def Device.stepPurge (d : Device) : Option Device :=
  match d.consent.state with
  | .purgePending =>
    match d.purgeTarget with
    | none => some d.tryPurge
    | some (st, b) => if d.appendInFlight st b then none else some d.tryPurge
  | .purgeStaging => if d.writer.takesEntries then none else some d.tryPurge
  | .idle => none
  | .opened => none
  | .formatDrain => none
  | .formatErase => none
  | .formatCheckpoint => none

/-- An executor takes its next request (R166), or waits for a slot. -/
def Device.stepTake (d : Device) (p : Port) : Option Device :=
  if d.canTake p then some (d.takeRequest p)
  else if (d.exec p).state == .idle && !(d.port p).requests.isEmpty then some (d.toExecState p .waitSlot)
  else none

/-- The erase engine's choice (R94). -/
def Device.stepChoice (d : Device) : Option Device :=
  if d.engine.choosing && d.engine.state ≠ d.chosenState then some (d.enterChoice d.chosenState) else none

/-- A compaction begins (R114). -/
def Device.stepCompaction (d : Device) : Option Device := if d.compactionDue then some d.beginCompaction else none

/-- The snapshot (R116). -/
def Device.stepSnapshot (d : Device) : Option Device := if d.snapshotDue then some d.takeSnapshot else none

/-- The device states in which the writer claims of itself; STOPPING has the stopping flush (R109, R122). -/
def writerMode : DeviceState → Bool
  | .ready => true
  | .readOnly => true
  | .formatting => true
  | .mounting => false
  | .blank => false
  | .stopping => false
  | .stopped => false

/-- The idle writer claims a checkpoint page or a journal page; without a page left for the checkpoint it halts
(R109, R118). -/
def Device.stepClaim (d : Device) : Option Device :=
  if writerMode d.mode && d.writer.state == .idle then
    if d.writer.checkpointWaits then
      if d.writer.checkpointPos < Config.halfPages then some { d with writer := { d.writer with state := .claim1 } }
      else some d.haltWriter
    else if d.writer.canFlush && d.flushTrigger then some { d with writer := { d.writer with state := .claim1 } }
    else none
  else none

/-- SUSPEND (R89). -/
def Device.stepSuspend (d : Device) : Option Device := if d.mustSuspend then some d.suspend else none

/-- The ports in the round-robin order that follows the pointer (R87). -/
def roundRobin : Port → List Port
  | .A => [.B, .C, .A]
  | .B => [.C, .A, .B]
  | .C => [.A, .B, .C]

/-- The claimant granted on an idle array, the four rules in order (R87). -/
def Device.nextClaimant (d : Device) : Option Claimant :=
  if d.writerClaims then some .writer
  else if d.engineClaims && d.arbiter.starved then some .engine
  else
    match (roundRobin d.arbiter.pointer).find? fun p => d.execClaims p with
    | some p => some (.executor p)
    | none => if d.engineClaims then some .engine else none

/-- An executor granted the array, by the claim it had (R36, R38, R53). -/
def Device.executorGrant (d : Device) (p : Port) : Device :=
  match (d.exec p).job with
  | .read st inc => d.grantRead p st inc
  | .append j =>
    match j.phase with
    | .seek => d.grantStep1 p j
    | .between => d.grantStep2 p j
    | .step1 => d.release.rest p
    | .step2 => d.release.rest p
    | .voiding => d.release.rest p
    | .committed _ => d.release.rest p
    | .failed => d.release.rest p
  | .none => d.release.rest p
  | .reading _ _ _ _ _ => d.release.rest p
  | .created _ _ => d.release.rest p
  | .acked _ => d.release.rest p

/-- A claimant granted the array (R86, R87). -/
def Device.grant (d : Device) (c : Claimant) : Device :=
  let d := { d with arbiter := { d.arbiter with holder := some c } }
  match c with
  | .writer => d.writerGrant
  | .engine => d.engineGrant
  | .executor p => { d with arbiter := { d.arbiter with pointer := p } }.executorGrant p

/-- The arbiter grants the idle array (R86, R87, R92). -/
def Device.stepGrant (d : Device) : Option Device :=
  if d.arbiter.holder.isNone && d.arrayOp == .none && d.mode ≠ .mounting && d.mode ≠ .stopped then
    d.nextClaimant.map d.grant
  else none

/-- FORMAT leaves FORMAT_DRAIN: array idle, no claim, no erase context (R149). -/
def Device.stepDrain (d : Device) : Option Device :=
  if d.consent.state == .formatDrain && d.arbiter.holder.isNone && d.arrayOp == .none && d.eraseCtx.isNone
      && d.nextClaimant.isNone then
    some { d with
      consent := { d.consent with state := .formatErase }
      engine := { d.engine with slot := halfSectors d.consent.formatHalf } }
  else none

/-- The stopping sequence completes (R180). -/
def Device.stepStopped (d : Device) : Option Device := if d.stopComplete then some d.enterStopped else none

/-- The first consequence that is due, in the model's order (log 7). -/
def Device.consequence (d : Device) : Option Device :=
  d.stepPurge <|> d.stepTake .A <|> d.stepTake .B <|> d.stepTake .C <|> d.stepChoice <|> d.stepCompaction
    <|> d.stepSnapshot <|> d.stepClaim <|> d.stepSuspend <|> d.stopMove <|> d.stepGrant <|> d.stepDrain
    <|> d.stepStopped

/-- Consequences taken until none is due, at most `fuel` of them. -/
def settleFor : Nat → Device → Device
  | 0, d => d
  | fuel + 1, d =>
    match d.consequence with
    | none => d
    | some d' => settleFor fuel d'

/-- The rest of an event: every consequence of its changes (log 7). -/
def Device.settle (d : Device) : Device := settleFor Config.settleFuel d

end Sys2Proof.Machine
end

