-- ==== Sys2Proof/Machine/Link.lean ====
section
/-! DEFINITION. The meanings of the link transactions: SEND, FETCH, LINK_RESET, and any other code (R160, R161, R164,
R165, R170). -/

namespace Sys2Proof.Machine

open Sys2Proof

/-- An event of the part: its own changes, then their consequences. Held in reset or without supply nothing happens
(R177), and an event that cannot occur as the part stands (`none`) changes nothing (log 18). -/
def State.event (s : State) (f : Device → Option Device) : State :=
  if s.dev.active then
    match f s.dev with
    | some d => { s with dev := d.settle }
    | none => s
  else s

/-! ### Beginning and end of a transaction (R160, R165) -/

/-- What a transaction that begins now takes: the link status and the oldest response (R160, R165). -/
def Device.sample (d : Device) (p : Port) : Sample := ⟨d.linkStatus p, (d.port p).responses.head?⟩

/-- What the transaction that now ends took at its beginning; one whose beginning no command gave begins and ends with
nothing between (log 6), and so does one begun before or while RESETn is low, whose beginning is forgotten and whose end
acts in full (R177; log 44). -/
def Device.opening (d : Device) (p : Port) : Sample := (d.port p).begun.getD (d.sample p)

/-- Chip select driven low: link status and oldest response are taken, and nothing else changes. With a transaction
under way it cannot be driven low again (R160; log 18). -/
def Device.transactionBegins (d : Device) (p : Port) : Option Device :=
  match (d.port p).begun with
  | some _ => none
  | none => some (d.setPort p { d.port p with begun := some (d.sample p) })

/-- The transaction is over, and what data out carried is recorded (R160; log 6). -/
def Device.transactionOver (d : Device) (p : Port) (out : List Byte) : Device :=
  d.setPort p { d.port p with sdo := out, begun := none }

/-- What a transaction other than FETCH shifts out as `shifted` bytes follow the code byte: link status, then FFh
(R160). -/
def Sample.statusOut (x : Sample) (shifted : Nat) : List Byte :=
  (x.status ++ List.replicate (shifted - 1) erasedByte).take (shifted + 1)

/-- The frame a FETCH shifts out: the oldest response, or the empty frame (R165). -/
def Sample.frame (x : Sample) : List Byte :=
  match x.oldest with
  | none => emptyFrame
  | some r => responseFrame r

/-- What a FETCH shifts out: link status, the frame, then FFh (R160, R165). -/
def Sample.fetchOut (x : Sample) (shifted : Nat) : List Byte :=
  (x.status ++ x.frame ++ List.replicate (shifted - 1 - x.frame.length) erasedByte).take (shifted + 1)

/-- A SEND ends; `rest` are the bytes shifted in after the code byte, the first of them not examined (R160, R164). -/
def Device.sendEnds (d : Device) (p : Port) (rest : List Byte) : Device :=
  let d' := d.transactionOver p ((d.opening p).statusOut rest.length)
  match rest with
  | [] => d'
  | [_] => d'
  | _ :: frame => d'.arrive p (classifyFrame frame)

/-- A FETCH ends after `shifted` bytes beyond the code byte: the response it shifted out is removed if its frame went
out whole; a FETCH begun with no response waiting removes none (R165). -/
def Device.fetchEnds (d : Device) (p : Port) (shifted : Nat) : Device :=
  let x := d.opening p
  let d' := d.transactionOver p (x.fetchOut shifted)
  if x.oldest.isSome && x.frame.length + 1 ≤ shifted then
    d'.setPort p { d'.port p with responses := (d'.port p).responses.drop 1 }
  else d'

/-- A LINK_RESET ends; one that ended before both link status bytes were out has no effect (R160, R170). -/
def Device.linkResetEnds (d : Device) (p : Port) (shifted : Nat) : Device :=
  let d' := d.transactionOver p ((d.opening p).statusOut shifted)
  if shifted = 0 then d' else d'.linkReset p

/-- A transaction ends, `rest` the bytes shifted in after its code byte: the effect of the transaction the code names
(R160). -/
def Device.transactionEnds (d : Device) (p : Port) (code : Byte) (rest : List Byte) : Device :=
  match transactionOfCode code with
  | .send => d.sendEnds p rest
  | .fetch => d.fetchEnds p rest.length
  | .linkReset => d.linkResetEnds p rest.length
  | .other => d.transactionOver p ((d.opening p).statusOut rest.length)

/-- One edge of chip select; at the end of a transaction its code and the bytes after it are known (R160). -/
def State.transaction (s : State) (p : Port) (code : Byte) (rest : Edge (List Byte)) : State :=
  s.event fun d =>
    match rest with
    | .begins => d.transactionBegins p
    | .ends bytes => some (d.transactionEnds p code bytes)

/-- An edge with as many bytes as were shifted in, where the part does not examine them (R160). -/
def unexamined : Edge Nat → Edge (List Byte)
  | .begins => .begins
  | .ends shifted => .ends (List.replicate shifted 0x00#8)

/-! ### The rows -/

/-- SEND (R160, R161, R164). -/
def execSend (p : Port) (rest : Edge (List Byte)) (s : State) : Host.Outcome State Fault Refusal :=
  .next (s.transaction p 0x01#8 rest)

/-- FETCH (R160, R165). -/
def execFetch (p : Port) (shifted : Edge Nat) (s : State) : Host.Outcome State Fault Refusal :=
  .next (s.transaction p 0x02#8 (unexamined shifted))

/-- LINK_RESET (R160, R170). -/
def execLinkReset (p : Port) (shifted : Edge Nat) (s : State) : Host.Outcome State Fault Refusal :=
  .next (s.transaction p 0x03#8 (unexamined shifted))

/-- A transaction of any other code: link status, then FFh, and no effect (R160). -/
def execOtherTransactionCode (p : Port) (code : Byte) (shifted : Edge Nat) (s : State) :
    Host.Outcome State Fault Refusal :=
  .next (s.transaction p code (unexamined shifted))

end Sys2Proof.Machine
end

