-- ==== Sys2Proof/Machine/Power.lean ====
section
/-! DEFINITION. The meanings of the pins and the supply (R83, R177, R178, R181). -/

namespace Sys2Proof.Machine

open Sys2Proof

/-! ### RESETn and the supply (R83, R177) -/

/-- The array's bytes when RESETn or loss of supply stops it: a program step in progress and a running erase leave their
bytes part-way; a suspended erase is part-way already (R69, R83; log 1). -/
def Device.cutArray (d : Device) (flash : Flash) : Flash :=
  match d.arrayOp with
  | .program sector page first target => flash.programCut d.draws (pageBase sector page + first) target
  | .erase => match d.eraseCtx with | some x => flash.partialErase d.draws x.sector | none => flash
  | .suspending => match d.eraseCtx with | some x => flash.partialErase d.draws x.sector | none => flash
  | .read _ _ => flash
  | .none => flash

/-- RAM discarded, on the pins given (R177). -/
def Device.wiped (d : Device) (powered resetLow : Bool) : Device := Device.powerUp powered resetLow d.pfail (d.draws + 1)

/-- RESETN_ASSERTED: the array stops at once and all RAM state is discarded, without response or event (R83, R177). -/
def execResetnAsserted (s : State) : Host.Outcome State Fault Refusal :=
  .next
    (if s.dev.resetLow then s
    else { s with dev := s.dev.wiped s.dev.powered true, flash := s.dev.cutArray s.flash })

/-- The release of RESETn or the end of power-up: every block at its power-up value, and a mount begins (R123, R177). -/
def Device.restart (d : Device) : Device := (Device.powerUp d.powered d.resetLow d.pfail d.draws).beginMount.settle

/-- RESETN_RELEASED (R123, R177). Without supply the mount waits for the end of power-up (log 18). -/
def execResetnReleased (s : State) : Host.Outcome State Fault Refusal :=
  .next
    (if s.dev.resetLow then
      let d := { s.dev with resetLow := false }
      { s with dev := if d.powered then d.restart else d }
    else s)

/-- END_OF_POWER_UP: as a release of RESETn (R177). With RESETn low the mount waits for its release (log 18). -/
def execEndOfPowerUp (s : State) : Host.Outcome State Fault Refusal :=
  .next
    (if s.dev.powered then s
    else
      let d := { s.dev with powered := true }
      { s with dev := if d.resetLow then d else d.restart })

/-- SUPPLY_LOSS: the array stops at once, RAM is lost, no outcome is reported (R83). -/
def execSupplyLoss (s : State) : Host.Outcome State Fault Refusal :=
  .next
    (if s.dev.powered then { s with dev := s.dev.wiped false s.dev.resetLow, flash := s.dev.cutArray s.flash } else s)

/-! ### PFAIL (R178, R181) -/

/-- The states PFAIL acts on (R178, R181). -/
def stoppable : DeviceState → Bool
  | .mounting => true
  | .blank => true
  | .ready => true
  | .readOnly => true
  | .formatting => true
  | .stopping => false
  | .stopped => false

/-- PFAIL asserted: the device enters STOPPING from the states of R178, and nothing changes in STOPPING and STOPPED
(R181). -/
def Device.pfailRises (d : Device) : Device :=
  let d := { d with pfail := true }
  if stoppable d.mode then d.enterStopping else d

/-- PFAIL_ASSERTED (R178); held in reset or without supply the pin's level alone is recorded (R177). -/
def execPfailAsserted (s : State) : Host.Outcome State Fault Refusal :=
  .next
    (if s.dev.active then s.event fun d => some d.pfailRises else { s with dev := { s.dev with pfail := true } })

/-- PFAIL released: a mount begins from STOPPED; in STOPPING the sequence goes on (R181). -/
def Device.pfailFalls (d : Device) : Device :=
  let d := { d with pfail := false }
  if d.mode = .stopped then d.beginMount else d

/-- PFAIL_RELEASED (R181); held in reset or without supply the pin's level alone is recorded (R177). -/
def execPfailReleased (s : State) : Host.Outcome State Fault Refusal :=
  .next
    (if s.dev.active then s.event fun d => some d.pfailFalls else { s with dev := { s.dev with pfail := false } })

end Sys2Proof.Machine
end

