-- ==== Sys2Proof/Machine/Reports.lean ====
section
/-! DEFINITION. The meanings of the page array's reports (R54, R55, R37 to R43, R76 to R82, R90, R97, R99, R111, R112,
R118). A report that the operation in progress cannot give changes nothing (log 18). -/

namespace Sys2Proof.Machine

open Sys2Proof

/-- The part and the array's bytes, between a report and its consequences. -/
abbrev Rig := Device × Flash

/-- A report of the array: what the array and its owner do, then the consequences. -/
def State.report (s : State) (f : Device → Flash → Option Rig) : State :=
  if s.dev.active then
    match f s.dev s.flash with
    | some (d, flash) => { s with dev := d.settle, flash := flash }
    | none => s
  else s

/-! ### How a step leaves the page (R77) -/

/-- The range already reads the target of the step in progress (R77). -/
def Device.targetHeld (d : Device) (flash : Flash) : Bool :=
  match d.arrayOp with
  | .program sector page first target => flash.holds (pageBase sector page + first) target
  | .none => false
  | .read _ _ => false
  | .erase => false
  | .suspending => false

/-- PROGRAM_DONE reports the pulses taken: one where the range read its target before, otherwise a free value of 1 to 8
(R77; log 1). -/
def Device.programDone (d : Device) (held : Bool) : Device :=
  { d with
    pulses := if held then 1 else Config.stepPulses d.draws % Config.programPulses + 1
    draws := d.draws + 1 }

/-- PROGRAM_DONE of the step in progress; none when no step is, or its target cannot verify (R77). -/
def Device.stepPasses (d : Device) (flash : Flash) : Option Rig :=
  match d.arrayOp with
  | .program sector page first target =>
    let base := pageBase sector page + first
    if flash.verifies base target then some (d.programDone (flash.holds base target), flash.programmed base target)
    else none
  | .none => none
  | .read _ _ => none
  | .erase => none
  | .suspending => none

/-- PROGRAM_FAIL of the step in progress, with what the pulses left (R69, R77; log 1); none when no step is, or the
range reads its target already, so that its first verify passes (R77). -/
def Device.stepFails (d : Device) (flash : Flash) : Option Rig :=
  match d.arrayOp with
  | .program sector page first target =>
    let base := pageBase sector page + first
    if flash.holds base target then none else some (d.drawn, flash.programFailed d.draws base target)
  | .none => none
  | .read _ _ => none
  | .erase => none
  | .suspending => none

/-- The end of a void step that verified, or did not (R41, R112); one whose byte reads 00h already verifies (R77;
log 27). -/
def Device.stepEnds (d : Device) (flash : Flash) (verified : Bool) : Option Rig :=
  if verified || d.targetHeld flash then d.stepPasses flash else d.stepFails flash

/-! ### Reads -/

/-- The page read an executor has on the array, with the record it reads. -/
def Device.readOnArray (d : Device) : Option (Port × Fin 16 × Byte × Nat × Nat × Nat) :=
  match d.holdingPort, d.arrayOp with
  | some p, .read sector page =>
    match (d.exec p).job with
    | .reading st inc seq _ _ => some (p, st, inc, seq, sector, page)
    | .none => none
    | .read _ _ => none
    | .append _ => none
    | .created _ _ => none
    | .acked _ => none
  | _, _ => none

/-- An executor's page read completes: released, then answered unless its request has ended (R54 to R56, R76). -/
def Device.readPageDone (d : Device) (flash : Flash) : Option Rig :=
  match d.readOnArray with
  | none => none
  | some (p, st, inc, seq, sector, page) =>
    let r := d.release
    match (d.exec p).inHand with
    | none => some (r.rest p, flash)
    | some _ => some (r.readOutcome p st inc seq (flash.readPage sector page), flash)

/-- READ_PAGE_DONE (R54, R55, R56). -/
def execReadPageDone (s : State) : Host.Outcome State Fault Refusal := .next (s.report Device.readPageDone)

/-- A mount unit's page read completes; outside MOUNTING its bytes are discarded (R123, R124). -/
def Device.mountPageDone (d : Device) (flash : Flash) : Option Rig :=
  match d.arbiter.holder, d.arrayOp with
  | none, .read sector page =>
    if d.mode = .mounting then some (d.mountReadDone flash sector page, flash) else some (d.mountReadEnds, flash)
  | _, _ => none

/-- MOUNT_READ_DONE (R123 to R138). -/
def execMountReadDone (s : State) : Host.Outcome State Fault Refusal := .next (s.report Device.mountPageDone)

/-! ### Appends -/

/-- The append that holds the array. -/
def Device.appendOnArray (d : Device) : Option (Port × AppendJob) :=
  match d.holdingPort with
  | none => none
  | some p =>
    match (d.exec p).job with
    | .append j => some (p, j)
    | .none => none
    | .read _ _ => none
    | .reading _ _ _ _ _ => none
    | .created _ _ => none
    | .acked _ => none

/-- The append's request has ended, or the device is FORMATTING: no further step is claimed (R44 to R46). -/
def Device.appendOver (d : Device) (p : Port) : Bool := (d.exec p).inHand.isNone || d.mode == .formatting

/-- The end of an append that goes no further: ABORTED to a request still in hand (R46). -/
def Device.endAppend (d : Device) (p : Port) : Device := (d.leavePlaceWait (.executor p)).answer p .aborted []

/-- Step 1 completes: the claim for step 2, or the page VOID (R37, R44, R45, R46). -/
def Device.appendStep1Done (d : Device) (flash : Flash) : Option Rig :=
  match d.appendOnArray, d.stepPasses flash with
  | some (p, j), some (d, flash) =>
    if j.phase = .step1 then
      let r := d.release
      if d.appendOver p then some ((r.abandonPage p j).endAppend p, flash)
      else some (r.toExec p .waitArray (.append { j with phase := .between }), flash)
    else none
  | _, _ => none

/-- APPEND_STEP1_DONE (R37). -/
def execAppendStep1Done (s : State) : Host.Outcome State Fault Refusal := .next (s.report Device.appendStep1Done)

/-- The record committed: the page LIVE, the next sequence one more, backlog flags, reclaim (R38, steps 1 to 4). -/
def Device.commitRecord (d : Device) (j : AppendJob) (b : StreamBody) : Device × List Nat :=
  let d := d.setPageState j.sector j.page (.live b.next)
  let d := d.setBody j.stream (some { b with next := b.next + 1 })
  (d.evalBacklogs j.stream).reclaim j.stream

/-- Step 2 completes (R38, R43 to R46). -/
def Device.appendStep2Done (d : Device) (flash : Flash) : Option Rig :=
  match d.appendOnArray, d.stepPasses flash with
  | some (p, j), some (d, flash) =>
    match d.stream j.stream with
    | none => none
    | some b =>
      if j.phase = .step2 then
        let r := d.release.commitRecord j b
        let o := r.1.stageOutcome p j (retireEntries r.2)
        if d.appendOver p then some (o.1.endAppend p, flash)
        else if o.2.kept.isEmpty then some (o.1.answer p .ok (bigEndian 4 b.next), flash)
        else some (o.1.toExec p .waitStaging (.append { o.2 with phase := .committed b.next }), flash)
      else none
  | _, _ => none

/-- APPEND_STEP2_DONE (R38). -/
def execAppendStep2Done (s : State) : Host.Outcome State Fault Refusal := .next (s.report Device.appendStep2Done)

/-- The tables after PROGRAM_FAIL: page VOID, sector suspect and FILLED, high flag, reclaim (R40). -/
def Device.failPage (d : Device) (j : AppendJob) : Device × List Nat :=
  let x := (d.sector j.sector).setPage j.page .void
  let d := d.setSector j.sector { x with suspect := true, state := if x.state = .tail then .filled else x.state }
  ((d.recount j.stream).evalHigh j.stream).reclaim j.stream

/-- A step of an append fails: the tables change, the attempt counts, and the void step follows unless the request has
ended (R40 to R46); an append in FORMATTING has its void step and is ABORTED after it (log 16). -/
def Device.appendStepFail (d : Device) (flash : Flash) : Option Rig :=
  match d.appendOnArray, d.stepFails flash with
  | some (p, j), some (d, flash) =>
    if j.phase = .step1 || j.phase == .step2 then
      let r := d.failPage j
      let o := r.1.stageOutcome p { j with attempts := j.attempts + 1 } (retireEntries r.2)
      if (d.exec p).inHand.isNone then some (o.1.release.endAppend p, flash)
      else
        some ({ o.1.toExec p .onArray (.append { o.2 with phase := .voiding }) with
          arrayOp := .program j.sector j.page 15 [0x00#8] }, flash)
    else none
  | _, _ => none

/-- APPEND_STEP_FAIL (R40). -/
def execAppendStepFail (s : State) : Host.Outcome State Fault Refusal := .next (s.report Device.appendStepFail)

/-- The void step ends, whatever its outcome: ABORTED in FORMATTING, nothing for an ended request, the wait for places
of R43, or MEDIA or a retry (R41 to R46). -/
def Device.appendVoidEnd (verified : Bool) (d : Device) (flash : Flash) : Option Rig :=
  match d.appendOnArray, d.stepEnds flash verified with
  | some (p, j), some (d, flash) =>
    if j.phase = .voiding then
      let r := d.release
      if d.appendOver p then some (r.endAppend p, flash)
      else if j.kept.isEmpty then some (r.afterFailure p j, flash)
      else some (r.toExec p .waitStaging (.append { j with phase := .failed }), flash)
    else none
  | _, _ => none

/-- APPEND_VOID_STEP_END (R41, R42); the operand says whether the step verified. -/
def execAppendVoidStepEnd (verified : Bool) (s : State) : Host.Outcome State Fault Refusal :=
  .next (s.report (Device.appendVoidEnd verified))

/-! ### Metadata pages -/

/-- The metadata page whose step is on the array. -/
def Device.metaOnArray (d : Device) : Option PageInFlight :=
  if d.arbiter.holder = some .writer then d.writer.inFlight else none

/-- Step 1 of a metadata page completes (R111, R118). -/
def Device.metaStep1Done (d : Device) (flash : Flash) : Option Rig :=
  match d.metaOnArray, d.stepPasses flash with
  | some g, some (d, flash) => if !g.step2 && !g.voiding then some (d.metaStep1Ends g, flash) else none
  | _, _ => none

/-- META_STEP1_DONE (R111). -/
def execMetaStep1Done (s : State) : Host.Outcome State Fault Refusal := .next (s.report Device.metaStep1Done)

/-- Step 2 of a journal page completes (R111). -/
def Device.metaStep2Done (d : Device) (flash : Flash) : Option Rig :=
  match d.metaOnArray, d.stepPasses flash with
  | some g, some (d, flash) =>
    if g.step2 && !g.voiding && g.kind == .journal then some (d.journalCommitted g, flash) else none
  | _, _ => none

/-- META_STEP2_DONE (R111). -/
def execMetaStep2Done (s : State) : Host.Outcome State Fault Refusal := .next (s.report Device.metaStep2Done)

/-- Step 2 of a checkpoint page completes (R118, R119, R150). -/
def Device.checkpointStep2Done (d : Device) (flash : Flash) : Option Rig :=
  match d.metaOnArray, d.stepPasses flash with
  | some g, some (d, flash) =>
    if g.step2 && !g.voiding && g.kind == .checkpoint then some (d.checkpointCommitted g, flash) else none
  | _, _ => none

/-- CHECKPOINT_PAGE_COMMIT (R118, R119, R150). -/
def execCheckpointPageCommit (s : State) : Host.Outcome State Fault Refusal := .next (s.report Device.checkpointStep2Done)

/-- A step of a metadata page fails: the void step follows under the same grant (R112, R118, R120, R121). -/
def Device.metaStepFail (d : Device) (flash : Flash) : Option Rig :=
  match d.metaOnArray, d.stepFails flash with
  | some g, some (d, flash) =>
    if g.voiding then none
    else
      some ({ d with
        writer := { d.writer with inFlight := some { g with voiding := true } }
        arrayOp := g.markOp 15 }, flash)
  | _, _ => none

/-- META_STEP_FAIL (R112). -/
def execMetaStepFail (s : State) : Host.Outcome State Fault Refusal := .next (s.report Device.metaStepFail)

/-- The void step of a metadata page ends (R112, R118). -/
def Device.metaVoidEnd (verified : Bool) (d : Device) (flash : Flash) : Option Rig :=
  match d.metaOnArray, d.stepEnds flash verified with
  | some g, some (d, flash) => if g.voiding then some (d.metaVoided g, flash) else none
  | _, _ => none

/-- META_VOID_STEP_END (R112); the operand says whether the step verified. -/
def execMetaVoidStepEnd (verified : Bool) (s : State) : Host.Outcome State Fault Refusal :=
  .next (s.report (Device.metaVoidEnd verified))

/-! ### Erases -/

/-- A pulse of the running erase ends: its count, its verify, and the erase's outcome (R79). A sector that already reads
erased verifies (R79; log 27). -/
def Device.erasePulseEnd (verified : Bool) (d : Device) (flash : Flash) : Option Rig :=
  match d.eraseCtx, d.engine.current with
  | some x, some c =>
    if d.arrayOp = .erase && x.phase == .running && !x.abandon then
      if verified || flash.sectorErased x.sector then some (d.pulsePassed x c, flash.eraseSector x.sector)
      else some (d.drawn.pulseFailed x c, flash.eraseFailed d.draws x.sector)
    else none
  | _, _ => none

/-- ERASE_PULSE_END (R79); the operand says whether the verify passed. -/
def execErasePulseEnd (verified : Bool) (s : State) : Host.Outcome State Fault Refusal :=
  .next (s.report (Device.erasePulseEnd verified))

/-- The stopped pulse leaves its sector partly erased, and the erase is SUSPENDED (R80, R90). -/
def Device.suspendedReport (d : Device) (flash : Flash) : Option Rig :=
  match d.eraseCtx, d.engine.current with
  | some x, some c =>
    if d.arrayOp = .suspending && x.phase == .suspending && !x.abandon then
      some (d.drawn.eraseSuspended x c, flash.partialErase d.draws x.sector)
    else none
  | _, _ => none

/-- SUSPENDED (R80, R90). -/
def execSuspended (s : State) : Host.Outcome State Fault Refusal := .next (s.report Device.suspendedReport)

/-- The pulse stopped for an ABANDON leaves its sector partly erased, and the erase is gone (R82, R102). -/
def Device.abandonedReport (d : Device) (flash : Flash) : Option Rig :=
  match d.eraseCtx with
  | some x => if x.abandon then some (d.drawn.eraseAbandoned, flash.partialErase d.draws x.sector) else none
  | none => none

/-- ABANDONED (R82, R102). -/
def execAbandoned (s : State) : Host.Outcome State Fault Refusal := .next (s.report Device.abandonedReport)

end Sys2Proof.Machine
end

