-- ==== Sys2Proof/WellFormed.lean ====
section
/-! DEFINITION. Which commands are instances of their rows: the operands the frame layouts of R160, R162 and R164
can carry. -/

namespace Sys2Proof

/-- A request body is at most 250 bytes (R162). -/
def bodyFits (body : List Byte) : Bool := body.length ≤ 250

/-- The transaction codes of R160. -/
def knownTransaction (code : Byte) : Bool := code == 0x01#8 || code == 0x02#8 || code == 0x03#8

/-- The request kind codes of R163, 01h to 12h. -/
def knownKind (kind : Byte) : Bool := 0x01 ≤ kind.toNat && kind.toNat ≤ 0x12

/-- A command carries operands its row admits: bodies of at most 250 bytes, an unknown code where the row says so. -/
def Instr.wellFormed : Instr → Bool
  | .send _ _ => true
  | .fetch _ _ => true
  | .linkReset _ _ => true
  | .otherTransactionCode _ code _ => !knownTransaction code
  | .resetnAsserted => true
  | .resetnReleased => true
  | .endOfPowerUp => true
  | .supplyLoss => true
  | .pfailAsserted => true
  | .pfailReleased => true
  | .attach _ _ body => bodyFits body
  | .detach _ _ body => bodyFits body
  | .create _ _ body => bodyFits body
  | .configure _ _ body => bodyFits body
  | .delete _ _ body => bodyFits body
  | .append _ _ body => bodyFits body
  | .read _ _ body => bodyFits body
  | .ack _ _ body => bodyFits body
  | .rewind _ _ body => bodyFits body
  | .setlevel _ _ body => bodyFits body
  | .query _ _ body => bodyFits body
  | .status _ _ body => bodyFits body
  | .sync _ _ body => bodyFits body
  | .events _ _ body => bodyFits body
  | .mask _ _ body => bodyFits body
  | .propose _ _ body => bodyFits body
  | .agree _ _ body => bodyFits body
  | .refuse _ _ body => bodyFits body
  | .frameEntry _ => true
  | .unknownEntry _ _ kind => !knownKind kind
  | .spaceTimerExpiry _ => true
  | .flushTimerExpiry => true
  | .starvationTimerExpiry => true
  | .runTimerExpiry => true
  | .windowTimerExpiry => true
  | .readPageDone => true
  | .mountReadDone => true
  | .appendStep1Done => true
  | .appendStep2Done => true
  | .appendStepFail => true
  | .appendVoidStepEnd _ => true
  | .metaStep1Done => true
  | .metaStep2Done => true
  | .metaStepFail => true
  | .metaVoidStepEnd _ => true
  | .checkpointPageCommit => true
  | .erasePulseEnd _ => true
  | .suspended => true
  | .abandoned => true

end Sys2Proof
end

