-- ==== Sys2Proof/Machine/Requests.lean ====
section
/-! DEFINITION. The meanings of the request rows: each is the arrival of that frame at the port, whole and good, and
what follows in its event (R164, R166, R167; log 4). -/

namespace Sys2Proof.Machine

open Sys2Proof

/-- The entry of a request frame; a body no frame can carry makes a bad frame (R162, R164). -/
def requestEntry (tag : Byte) (kind : Kind) (body : List Byte) : Request :=
  if bodyFits body then .known tag kind body else .frame

/-- The arrival of an entry at a port, and its consequences (R164, R166). -/
def State.arrival (s : State) (p : Port) (r : Request) : State := s.event fun d => some (d.arrive p r)

/-- ATTACH (R168). -/
def execAttach (p : Port) (tag : Byte) (body : List Byte) (s : State) : Host.Outcome State Fault Refusal :=
  .next (s.arrival p (requestEntry tag .attach body))

/-- DETACH (R169). -/
def execDetach (p : Port) (tag : Byte) (body : List Byte) (s : State) : Host.Outcome State Fault Refusal :=
  .next (s.arrival p (requestEntry tag .detach body))

/-- CREATE (R17 to R19). -/
def execCreate (p : Port) (tag : Byte) (body : List Byte) (s : State) : Host.Outcome State Fault Refusal :=
  .next (s.arrival p (requestEntry tag .create body))

/-- CONFIGURE (R20, R21). -/
def execConfigure (p : Port) (tag : Byte) (body : List Byte) (s : State) : Host.Outcome State Fault Refusal :=
  .next (s.arrival p (requestEntry tag .configure body))

/-- DELETE (R22, R23). -/
def execDelete (p : Port) (tag : Byte) (body : List Byte) (s : State) : Host.Outcome State Fault Refusal :=
  .next (s.arrival p (requestEntry tag .delete body))

/-- APPEND (R26 to R47). -/
def execAppend (p : Port) (tag : Byte) (body : List Byte) (s : State) : Host.Outcome State Fault Refusal :=
  .next (s.arrival p (requestEntry tag .append body))

/-- READ (R51 to R56). -/
def execRead (p : Port) (tag : Byte) (body : List Byte) (s : State) : Host.Outcome State Fault Refusal :=
  .next (s.arrival p (requestEntry tag .read body))

/-- ACK (R57 to R61). -/
def execAck (p : Port) (tag : Byte) (body : List Byte) (s : State) : Host.Outcome State Fault Refusal :=
  .next (s.arrival p (requestEntry tag .ack body))

/-- REWIND (R62). -/
def execRewind (p : Port) (tag : Byte) (body : List Byte) (s : State) : Host.Outcome State Fault Refusal :=
  .next (s.arrival p (requestEntry tag .rewind body))

/-- SETLEVEL (R63). -/
def execSetlevel (p : Port) (tag : Byte) (body : List Byte) (s : State) : Host.Outcome State Fault Refusal :=
  .next (s.arrival p (requestEntry tag .setlevel body))

/-- QUERY (R67, R171). -/
def execQuery (p : Port) (tag : Byte) (body : List Byte) (s : State) : Host.Outcome State Fault Refusal :=
  .next (s.arrival p (requestEntry tag .query body))

/-- STATUS (R172). -/
def execStatus (p : Port) (tag : Byte) (body : List Byte) (s : State) : Host.Outcome State Fault Refusal :=
  .next (s.arrival p (requestEntry tag .status body))

/-- SYNC (R173). -/
def execSync (p : Port) (tag : Byte) (body : List Byte) (s : State) : Host.Outcome State Fault Refusal :=
  .next (s.arrival p (requestEntry tag .sync body))

/-- EVENTS (R156). -/
def execEvents (p : Port) (tag : Byte) (body : List Byte) (s : State) : Host.Outcome State Fault Refusal :=
  .next (s.arrival p (requestEntry tag .events body))

/-- MASK (R157). -/
def execMask (p : Port) (tag : Byte) (body : List Byte) (s : State) : Host.Outcome State Fault Refusal :=
  .next (s.arrival p (requestEntry tag .mask body))

/-- PROPOSE (R140, R141). -/
def execPropose (p : Port) (tag : Byte) (body : List Byte) (s : State) : Host.Outcome State Fault Refusal :=
  .next (s.arrival p (requestEntry tag .propose body))

/-- AGREE (R142). -/
def execAgree (p : Port) (tag : Byte) (body : List Byte) (s : State) : Host.Outcome State Fault Refusal :=
  .next (s.arrival p (requestEntry tag .agree body))

/-- REFUSE (R142). -/
def execRefuse (p : Port) (tag : Byte) (body : List Byte) (s : State) : Host.Outcome State Fault Refusal :=
  .next (s.arrival p (requestEntry tag .refuse body))

/-- FRAME_ENTRY: an entry marked FRAME, answered FRAME in its turn (R164). -/
def execFrameEntry (p : Port) (s : State) : Host.Outcome State Fault Refusal := .next (s.arrival p .frame)

/-- UNKNOWN_ENTRY: an entry marked UNKNOWN, answered UNKNOWN in its turn with the frame's tag and kind (R164). -/
def execUnknownEntry (p : Port) (tag kind : Byte) (s : State) : Host.Outcome State Fault Refusal :=
  .next (s.arrival p (.unknown tag kind))

end Sys2Proof.Machine
end

