-- ==== Sys2Proof/Machine/Timers.lean ====
section
/-! DEFINITION. The meanings of the timers' expiries (R35, R89, R91, R109, R143). An expiry of a timer that does not run
cannot occur and changes nothing (log 18). -/

namespace Sys2Proof.Machine

open Sys2Proof

/-- An executor's 40 ms space timer expires: it leaves the list and is answered by its checks, or NOSPACE (R35). -/
def Device.spaceTimeout (d : Device) (p : Port) : Option Device :=
  if (d.exec p).state = .waitSpace then
    let d := d.leaveSpace p
    match d.appendCheck p (d.appendBody p) with
    | .error s => some (d.answer p s [])
    | .ok _ => some (d.answer p .nospace [])
  else none

/-- SPACE_TIMER_EXPIRY (R35). -/
def execSpaceTimerExpiry (p : Port) (s : State) : Host.Outcome State Fault Refusal :=
  .next (s.event fun d => d.spaceTimeout p)

/-- The flush timer expires and becomes a trigger (R109). -/
def Device.flushTimeout (d : Device) : Option Device :=
  if d.writer.timerRunning then
    some { d with writer := { d.writer with timerRunning := false, timerExpired := true } }
  else none

/-- FLUSH_TIMER_EXPIRY (R109). -/
def execFlushTimerExpiry (s : State) : Host.Outcome State Fault Refusal := .next (s.event Device.flushTimeout)

/-- The starvation timer expires and sets the flag (R91). -/
def Device.starvationTimeout (d : Device) : Option Device :=
  if d.arbiter.starveTimer then
    some { d with arbiter := { d.arbiter with starved := true, starveTimer := false } }
  else none

/-- STARVATION_TIMER_EXPIRY (R91). -/
def execStarvationTimerExpiry (s : State) : Host.Outcome State Fault Refusal := .next (s.event Device.starvationTimeout)

/-- The run timer reaches 2 ms; SUSPEND follows in the event if a claim waits and budget remains (R89). -/
def Device.runTimeout (d : Device) : Option Device :=
  match d.engine.current with
  | none => none
  | some c =>
    if d.engine.state = .running && c.timer == .running then
      some { d with engine := { d.engine with current := some { c with timer := .reached } } }
    else none

/-- RUN_TIMER_EXPIRY (R89). -/
def execRunTimerExpiry (s : State) : Host.Outcome State Fault Refusal := .next (s.event Device.runTimeout)

/-- The ballot's window runs out: it closes EXPIRED (R143, R145). -/
def Device.windowTimeout (d : Device) : Option Device :=
  match d.consent.ballot with
  | none => none
  | some _ => some (d.closeBallot .expired)

/-- WINDOW_TIMER_EXPIRY (R143). -/
def execWindowTimerExpiry (s : State) : Host.Outcome State Fault Refusal := .next (s.event Device.windowTimeout)

end Sys2Proof.Machine
end

