-- ==== Sys2Proof/Machine/Dispatch.lean ====
section
/-! DEFINITION. The dispatch of commands to their meanings, one arm a row of spec/opcode_table.json. -/

namespace Sys2Proof.Machine

open Sys2Proof

def exec (i : Instr) (s : State) : Host.Outcome State Fault Refusal :=
  match i with
  | .send p rest => Sys2Proof.Machine.execSend p rest s
  | .fetch p shifted => Sys2Proof.Machine.execFetch p shifted s
  | .linkReset p shifted => Sys2Proof.Machine.execLinkReset p shifted s
  | .otherTransactionCode p code shifted => Sys2Proof.Machine.execOtherTransactionCode p code shifted s
  | .resetnAsserted => Sys2Proof.Machine.execResetnAsserted s
  | .resetnReleased => Sys2Proof.Machine.execResetnReleased s
  | .endOfPowerUp => Sys2Proof.Machine.execEndOfPowerUp s
  | .supplyLoss => Sys2Proof.Machine.execSupplyLoss s
  | .pfailAsserted => Sys2Proof.Machine.execPfailAsserted s
  | .pfailReleased => Sys2Proof.Machine.execPfailReleased s
  | .attach p tag body => Sys2Proof.Machine.execAttach p tag body s
  | .detach p tag body => Sys2Proof.Machine.execDetach p tag body s
  | .create p tag body => Sys2Proof.Machine.execCreate p tag body s
  | .configure p tag body => Sys2Proof.Machine.execConfigure p tag body s
  | .delete p tag body => Sys2Proof.Machine.execDelete p tag body s
  | .append p tag body => Sys2Proof.Machine.execAppend p tag body s
  | .read p tag body => Sys2Proof.Machine.execRead p tag body s
  | .ack p tag body => Sys2Proof.Machine.execAck p tag body s
  | .rewind p tag body => Sys2Proof.Machine.execRewind p tag body s
  | .setlevel p tag body => Sys2Proof.Machine.execSetlevel p tag body s
  | .query p tag body => Sys2Proof.Machine.execQuery p tag body s
  | .status p tag body => Sys2Proof.Machine.execStatus p tag body s
  | .sync p tag body => Sys2Proof.Machine.execSync p tag body s
  | .events p tag body => Sys2Proof.Machine.execEvents p tag body s
  | .mask p tag body => Sys2Proof.Machine.execMask p tag body s
  | .propose p tag body => Sys2Proof.Machine.execPropose p tag body s
  | .agree p tag body => Sys2Proof.Machine.execAgree p tag body s
  | .refuse p tag body => Sys2Proof.Machine.execRefuse p tag body s
  | .frameEntry p => Sys2Proof.Machine.execFrameEntry p s
  | .unknownEntry p tag kind => Sys2Proof.Machine.execUnknownEntry p tag kind s
  | .spaceTimerExpiry p => Sys2Proof.Machine.execSpaceTimerExpiry p s
  | .flushTimerExpiry => Sys2Proof.Machine.execFlushTimerExpiry s
  | .starvationTimerExpiry => Sys2Proof.Machine.execStarvationTimerExpiry s
  | .runTimerExpiry => Sys2Proof.Machine.execRunTimerExpiry s
  | .windowTimerExpiry => Sys2Proof.Machine.execWindowTimerExpiry s
  | .readPageDone => Sys2Proof.Machine.execReadPageDone s
  | .mountReadDone => Sys2Proof.Machine.execMountReadDone s
  | .appendStep1Done => Sys2Proof.Machine.execAppendStep1Done s
  | .appendStep2Done => Sys2Proof.Machine.execAppendStep2Done s
  | .appendStepFail => Sys2Proof.Machine.execAppendStepFail s
  | .appendVoidStepEnd verified => Sys2Proof.Machine.execAppendVoidStepEnd verified s
  | .metaStep1Done => Sys2Proof.Machine.execMetaStep1Done s
  | .metaStep2Done => Sys2Proof.Machine.execMetaStep2Done s
  | .metaStepFail => Sys2Proof.Machine.execMetaStepFail s
  | .metaVoidStepEnd verified => Sys2Proof.Machine.execMetaVoidStepEnd verified s
  | .checkpointPageCommit => Sys2Proof.Machine.execCheckpointPageCommit s
  | .erasePulseEnd verified => Sys2Proof.Machine.execErasePulseEnd verified s
  | .suspended => Sys2Proof.Machine.execSuspended s
  | .abandoned => Sys2Proof.Machine.execAbandoned s

end Sys2Proof.Machine
end

