-- ==== Sys2Proof/Safety.lean ====
section
/-! DEFINITION. The terms statements are made in: a part at rest between events, a port ready for a request, a port
answered, and what the spec keeps true of the queues, the sector map, the cursors and the journal. -/

namespace Sys2Proof.Machine

open Sys2Proof

/-- Nothing more comes about: every consequence of the events so far has been taken (log 7). -/
def Device.quiet (d : Device) : Prop := d.consequence = none

/-- A port whose executor is IDLE with no request waiting and a response slot free (R166). -/
def Device.ready (d : Device) (p : Port) : Prop :=
  d.exec p = Executor.rest ∧ (d.port p).requests = [] ∧ (d.port p).responses.length < Config.queueSlots

/-- The part takes commands, is at rest, and would take a request of the port at once. -/
def Device.awaits (d : Device) (p : Port) : Prop := d.active = true ∧ d.quiet ∧ d.ready p

/-- As `awaits`, in a state other than STOPPING and STOPPED, so that the request's own rule is followed (R167). -/
def Device.serves (d : Device) (p : Port) : Prop := d.awaits p ∧ d.halting = false

/-- The part with a response placed at a port whose SEND was accepted: the response joins the tail of the response
queue, the rejected bit is clear, the transaction is over, nothing else changes (R164, R166; log 43). -/
def Device.replied (d : Device) (p : Port) (r : Response) : Device :=
  d.setPort p { d.port p with rejected := false, begun := none, responses := (d.port p).responses ++ [r] }

/-- The part with a request accepted and taken, its transaction over: the executor in CHECK with the request in hand
(R164, R166; log 43). -/
def Device.received (d : Device) (p : Port) (r : Request) : Device :=
  (d.setPort p { d.port p with rejected := false, begun := none, requests := [] }).setExec p ⟨.check, some r, .none⟩

/-- What is left of an event after its first consequence (log 7). -/
def Device.settled (d : Device) : Device := settleFor (Config.settleFuel - 1) d

/-- The bounds of R154 and R166: at most sixteen events and four requests a port. -/
def HostPort.bounded (h : HostPort) : Bool := h.requests.length ≤ Config.queueSlots
/-- An event queue holds at most sixteen entries (R154). -/
def EventUnit.bounded (u : EventUnit) : Bool := u.queue.length ≤ Config.eventSlots

/-- Every event queue holds at most sixteen entries, none of them twice for one kind and subject (R154, R155). -/
def Device.eventsGood (d : Device) : Prop :=
  ∀ p : Port, (d.events.get p).bounded = true ∧
    (d.events.get p).queue.Pairwise fun x y => x.matches y = false

/-- Every request queue holds at most four entries (R166). -/
def Device.requestsGood (d : Device) : Prop := ∀ p : Port, (d.port p).bounded = true

/-- Every port's waiting responses, with the one its request in hand will have, fit the response queue (R166). -/
def Device.slotsGood (d : Device) : Prop :=
  ∀ p : Port, (d.port p).responses.length + (if (d.exec p).inHand.isSome then 1 else 0) ≤ Config.queueSlots

/-- The erase in progress has not used more than sixteen suspensions, one under way included (R89). -/
def Device.budgetGood (d : Device) : Prop :=
  ∀ c x, d.engine.current = some c → d.eraseCtx = some x →
    c.suspensions + (if x.phase = .suspending then 1 else 0) ≤ Config.suspensionBudget

/-! ### What every step keeps -/

/-- Every sector number a place of R12 holds: the chains, the free pool, the erase queue, the bad list. -/
def Device.places (d : Device) : List Nat :=
  ((List.finRange 16).flatMap fun st => match d.stream st with | some b => b.chain | none => [])
    ++ d.freePool ++ d.eraseQueue ++ d.badList

/-- The device states between the end of a mount and the next stopping sequence. -/
def mountedMode : DeviceState → Bool
  | .blank => true
  | .ready => true
  | .readOnly => true
  | .formatting => true
  | .mounting => false
  | .stopping => false
  | .stopped => false

/-- No sector is in two places or twice in one, and after a mount every data sector is in one (R12 to R14); the bad list
holds at most 32 (R16); the data sector being erased is in the erase queue (R15). -/
def Device.sectorsGood (d : Device) : Prop :=
  d.places.Nodup ∧ d.badList.length ≤ Config.badLimit ∧
    (∀ c, d.engine.current = some c → c.source = .queue → c.sector ∈ d.eraseQueue) ∧
    (mountedMode d.mode = true → d.places.Perm dataSectors)

/-- After an UNUSED page of a sector every page is UNUSED (R36). -/
def pagesInOrder (pages : List PageState) : Prop := pages.Pairwise fun x y => x = .unused → y = .unused

/-- The LIVE records of an open stream are one run of sequences from the oldest to below the next, head to tail (R4,
R11), and every cursor is a reader's, in the order oldest ≤ committed ≤ delivered ≤ next sequence (R49) with a lost
count of at most 65535 (R50). -/
def Device.cursorsGood (d : Device) : Prop :=
  ∀ st b, d.stream st = some b →
    b.oldest ≤ b.next ∧
    (b.chain.flatMap fun n => (d.sector n).liveSeqs) = List.range' b.oldest (b.next - b.oldest) ∧
    (∀ n ∈ b.chain, pagesInOrder (d.sector n).pageList) ∧
    ∀ p c, d.cursor st p = some c →
      b.readers.get p = true ∧ b.oldest ≤ c.committed ∧ c.committed ≤ c.delivered ∧ c.delivered ≤ b.next ∧
        c.lost ≤ Config.saturation16

/-- An append with a page of its own: from its step-1 grant to the end of step 2 (R36). -/
def AppendJob.paged (j : AppendJob) : Bool := j.phase == .step1 || j.phase == .between || j.phase == .step2

/-- What an append in execution rests on: its job is of its request's stream (R26); one that claims the array, or has a
page, is of a stream its port is the writer of (R27); its page is WRITING in the last sector of that stream's chain,
with nothing used after it (R36); between its steps its claim waits (R37), and during a step it holds the array (R87).
-/
def Device.appendGood (d : Device) (p : Port) (j : AppendJob) : Prop :=
  (∀ r, (d.exec p).inHand = some r → ∃ tag body, r = .known tag .append body ∧ streamArg body = some j.stream) ∧
  ((d.exec p).state = .waitArray ∨ j.paged = true → ∃ b, d.stream j.stream = some b ∧ b.writer = p) ∧
  (j.paged = true →
    (∀ b, d.stream j.stream = some b → b.chain.getLast? = some j.sector) ∧
    (d.sector j.sector).pageList[j.page]? = some .writing ∧
    ∀ k, j.page < k → k < 16 → (d.sector j.sector).pageList[k]? = some .unused) ∧
  (j.phase = .between → (d.exec p).state = .waitArray) ∧
  (j.phase = .step1 ∨ j.phase = .step2 → d.arbiter.holder = some (.executor p) ∧
    ∃ sector page first target, d.arrayOp = .program sector page first target)

/-- Every append in execution is in order; a running erase holds the array (R87, R95); and once FORMAT has found the
array drained no append claims it or has a page (R149). -/
def Device.appendsGood (d : Device) : Prop :=
  (∀ p j, (d.exec p).job = .append j → d.appendGood p j) ∧
  (d.engine.state = .running → d.arbiter.holder = some .engine) ∧
  (d.mode = .formatting →
    (d.consent.state = .formatErase ∨ d.consent.state = .formatCheckpoint ∨ d.writer.forFormat = true) →
    ∀ p j, (d.exec p).job = .append j → (d.exec p).state ≠ .waitArray ∧ j.paged = false)

/-- The mount unit's tables with the data sectors below `n` scanned (R123, R129 to R132): at most 32 bad data sectors,
and each scanned sector that is not bad in one class; an owned one is a defined stream's, with one run of records in
page order. While the metadata region is read nothing has been found. -/
def Mount.scanned (m : Mount) (n : Nat) : Prop :=
  (∀ (st : Fin 16) (b : StreamBody), m.streams[st.val].body = some b → b.chain = []) ∧
  (∀ (st : Fin 16) p r, m.retained[st.val].get p = some r → r.lost ≤ Config.saturation16) ∧
  (n < 4 → m.bad = [] ∧ m.freeFound = [] ∧ m.released = [] ∧ m.owned = []) ∧
  (4 ≤ n → n < 256 ∧ n ∉ m.bad ∧ m.bad.Nodup ∧ m.bad.length ≤ Config.badLimit ∧
    (∀ k ∈ m.bad, 4 ≤ k ∧ k < 256) ∧
    (m.freeFound ++ m.released ++ m.owned.map OwnedSector.sector).Perm
      ((List.range' 4 (n - 4)).filter fun k => k ∉ m.bad) ∧
    ∀ o ∈ m.owned, m.streams[o.stream.val].body.isSome = true ∧ pagesInOrder o.pages.toList ∧
      ∃ first count, 0 < count ∧ o.pages.toList.filterMap PageState.seq? = List.range' first count)

/-- While the device is MOUNTING (R123, R138): no holder of the array, no stream, cursor or sector in any place, no
erase, no executor with an operation, and the mount unit's tables in step with the page it reads. -/
def Device.scanGood (d : Device) : Prop :=
  d.mode = .mounting →
    d.arbiter.holder = none ∧ d.engine.current = none ∧ (∀ p, (d.exec p).job = .none) ∧
    (∀ st, d.stream st = none ∧ ∀ p, d.cursor st p = none) ∧
    d.freePool = [] ∧ d.eraseQueue = [] ∧ d.badList = [] ∧
    ∀ n page, d.arrayOp = .read n page → d.mount.scanned n

/-- The staging buffer holds at most 15 entries in ascending serial order, below the next serial (R104, R105); the
durable serial, the serials of a journal page in flight and those a snapshot covers do not pass the newest one assigned
(R104, R111, R119); FORMAT's checkpoint covers none (R121, R150). -/
def Writer.good (w : Writer) : Prop :=
  w.staging.length ≤ Config.stagingPlaces ∧
    w.staging.Pairwise (fun x y => x.serial < y.serial) ∧ (∀ x ∈ w.staging, x.serial < w.nextSerial) ∧
    w.durableSerial ≤ w.nextSerial - 1 ∧
    (∀ g, w.inFlight = some g → g.kind = .journal → g.first + g.entries.length ≤ w.nextSerial) ∧
    if w.forFormat then w.snapshot ≤ 1 else w.snapshot - 1 ≤ w.nextSerial - 1

/-- The metadata writer's buffer and serials are in order (R104, R105). -/
def Device.journalGood (d : Device) : Prop := d.writer.good

/-- The state with the part as `d`, the array's bytes and the waiting commands as they were. -/
def State.onDev (s : State) (d : Device) : State := { s with dev := d }

/-- The state with the part as `d` and the array's bytes as `f`, the waiting commands as they were. -/
def State.onRig (s : State) (d : Device) (f : Flash) : State := { s with dev := d, flash := f }

/-- An executor's append holds the array, the step `op` in progress (R36, R38, R41). -/
def Device.appending (d : Device) (p : Port) (j : AppendJob) (sector page first : Nat) (target : List Byte) : Prop :=
  d.arbiter.holder = some (.executor p) ∧ (d.exec p).job = .append j ∧ d.arrayOp = .program sector page first target

/-- The metadata writer's page holds the array, a step in progress (R111, R118). -/
def Device.journaling (d : Device) (g : PageInFlight) (sector page first : Nat) (target : List Byte) : Prop :=
  d.arbiter.holder = some .writer ∧ d.writer.inFlight = some g ∧ d.arrayOp = .program sector page first target

/-- The array's bytes after the end of a step, verified or not; a range that reads its target verifies (R77). -/
def Flash.stepEnded (f : Flash) (verified : Bool) (n base : Nat) (target : List Byte) : Flash :=
  if verified || f.holds base target then f.programmed base target else f.programFailed n base target

/-- The part after the report of that end: the pulses of a verified step are reported (R77). -/
def Device.stepReported (d : Device) (f : Flash) (verified : Bool) (base : Nat) (target : List Byte) : Device :=
  if verified || f.holds base target then d.programDone (f.holds base target) else d.drawn

/-- RETIRE entries find their places, or there are none to stage (R43). -/
def Device.retirable (d : Device) (p : Port) (retired : List Nat) : Prop :=
  retired = [] ∨ d.placesSuffice (.executor p) (retireEntries retired).length = true

/-! ### Requests and responses -/

/-- The kind byte of a request or response (R163). -/
def Kind.byte (k : Kind) : Byte := BitVec.ofNat 8 k.code

/-- A response to a request of a kind (R162). -/
def reply (tag : Byte) (k : Kind) (status : Status) (body : List Byte) : Response := ⟨tag, k.byte, status, body⟩

/-- The command that is the arrival of a request of a kind (R163). -/
def Kind.command (k : Kind) (p : Port) (tag : Byte) (body : List Byte) : Instr :=
  match k with
  | .attach => .attach p tag body
  | .detach => .detach p tag body
  | .create => .create p tag body
  | .configure => .configure p tag body
  | .delete => .delete p tag body
  | .append => .append p tag body
  | .read => .read p tag body
  | .ack => .ack p tag body
  | .rewind => .rewind p tag body
  | .setlevel => .setlevel p tag body
  | .query => .query p tag body
  | .status => .status p tag body
  | .sync => .sync p tag body
  | .events => .events p tag body
  | .mask => .mask p tag body
  | .propose => .propose p tag body
  | .agree => .agree p tag body
  | .refuse => .refuse p tag body

/-- The part of a request's body that begins with the stream it names; none for a kind that names no stream (R163). -/
def Kind.named (k : Kind) (body : List Byte) : Option (List Byte) :=
  match k with
  | .configure => some body
  | .delete => some body
  | .append => some body
  | .read => some body
  | .ack => some body
  | .rewind => some body
  | .setlevel => some body
  | .query => some body
  | .propose => if body.head? = some 0x01#8 then some (body.drop 1) else none
  | .attach => none
  | .detach => none
  | .create => none
  | .status => none
  | .sync => none
  | .events => none
  | .mask => none
  | .agree => none
  | .refuse => none

/-- The one-byte stream number of a body (R163). -/
def streamByte (st : Fin 16) : Byte := BitVec.ofNat 8 st.val

/-- The body of an ACK (R163). -/
def ackBody (st : Fin 16) (seq : Nat) (durable : Bool) : List Byte :=
  streamByte st :: (bigEndian 4 seq ++ [if durable then 0x01#8 else 0x00#8])

/-- The port passes the checks of R51 on a stream: device READY or READ_ONLY, port attached, stream OPEN or HELD, port a
reader, with its cursor. -/
def Device.readerOf (d : Device) (p : Port) (st : Fin 16) (b : StreamBody) (c : Cursor) : Prop :=
  (d.mode = .ready ∨ d.mode = .readOnly) ∧ (d.port p).attached = true ∧ d.stream st = some b ∧
    b.readers.get p = true ∧ d.cursor st p = some c

/-- The device is READY and the port attached (R17, R27). -/
def Device.writable (d : Device) (p : Port) : Prop := d.mode = .ready ∧ (d.port p).attached = true

/-- The port is the writer of a stream that is OPEN or HELD, in READY (R20, R22, R27). -/
def Device.writerOf (d : Device) (p : Port) (st : Fin 16) (b : StreamBody) : Prop :=
  d.writable p ∧ d.stream st = some b ∧ b.writer = p

/-- The array is idle: no holder, no operation, no erase running (R75, R85). -/
def Device.arrayIdle (d : Device) : Prop :=
  d.arbiter.holder = none ∧ d.arrayOp = .none ∧ d.engine.state ≠ .running

/-- The array granted to an executor, the pointer with it (R87). -/
def Device.grantedTo (d : Device) (p : Port) (op : ArrayOp) : Device :=
  { d with arrayOp := op, arbiter := { d.arbiter with holder := some (.executor p), pointer := p } }

/-- The executor is not on the place-wait list (R107). -/
def Device.offPlaceWait (d : Device) (p : Port) : Prop := Waiter.executor p ∉ d.writer.placeWait

/-- An executor's operation has the staging places it needs (R17, R33, R58, R107). -/
def Device.placesFor (d : Device) (op : Device → Device) (p : Port) : Prop :=
  d.placesSuffice (.executor p) (d.placesNeeded op) = true

/-- The status a request is refused with by the device-state table of R167; none where it is taken. STOPPING and STOPPED
have R179. -/
def refusedIn (k : Kind) (body : List Byte) (m : DeviceState) : Option Status :=
  match m with
  | .ready => none
  | .stopping => some .aborted
  | .stopped => some .aborted
  | .readOnly =>
    match k with
    | .attach => none
    | .detach => none
    | .status => none
    | .events => none
    | .mask => none
    | .create => some .readOnly
    | .configure => some .readOnly
    | .delete => some .readOnly
    | .append => some .readOnly
    | .read => none
    | .ack => none
    | .rewind => none
    | .setlevel => none
    | .query => none
    | .sync => none
    | .propose => if body.head? = some 0x01#8 then some .readOnly else none
    | .agree => none
    | .refuse => none
  | .blank =>
    match k with
    | .attach => none
    | .detach => none
    | .status => none
    | .events => none
    | .mask => none
    | .create => some .notReady
    | .configure => some .notReady
    | .delete => some .notReady
    | .append => some .notReady
    | .read => some .notReady
    | .ack => some .notReady
    | .rewind => some .notReady
    | .setlevel => some .notReady
    | .query => some .notReady
    | .sync => some .notReady
    | .propose => if body.head? = some 0x01#8 then some .notReady else none
    | .agree => none
    | .refuse => none
  | .mounting | .formatting =>
    match k with
    | .attach => none
    | .detach => none
    | .status => none
    | .events => none
    | .mask => none
    | .create => some .notReady
    | .configure => some .notReady
    | .delete => some .notReady
    | .append => some .notReady
    | .read => some .notReady
    | .ack => some .notReady
    | .rewind => some .notReady
    | .setlevel => some .notReady
    | .query => some .notReady
    | .sync => some .notReady
    | .propose => some .notReady
    | .agree => some .notReady
    | .refuse => some .notReady

/-! ### Metadata entries -/

/-- An entry's fields lie in the ranges of R103 and R125. -/
def MetaEntry.valid : MetaEntry → Bool
  | .streamDef _ _ _ _ _ policy _ quota margin base => definitionValid policy quota margin && decide (base < 4294967296)
  | .streamDrop _ _ => true
  | .cursor _ _ _ committed lost => decide (committed < 4294967296) && decide (lost < 65536)
  | .wear first c0 c1 c2 c3 =>
    decide (4 ≤ first) && decide (first < 256) && first % 4 == 0 && decide (c0 < 16777216) && decide (c1 < 16777216)
      && decide (c2 < 16777216) && decide (c3 < 16777216)
  | .retire sectors => decide (1 ≤ sectors.length) && decide (sectors.length ≤ 8)
      && sectors.all fun n => decide (4 ≤ n) && decide (n < 256)
  | .checkpointEnd snapshot count => decide (snapshot < 4294967296) && decide (count < 65536)

/-! ### Kinds of command -/

/-- The pins and the supply. -/
def onPins : Instr → Bool
  | .resetnAsserted => true
  | .resetnReleased => true
  | .endOfPowerUp => true
  | .supplyLoss => true
  | .pfailAsserted => true
  | .pfailReleased => true
  | .send .. => false
  | .fetch .. => false
  | .linkReset .. => false
  | .otherTransactionCode .. => false
  | .attach .. => false
  | .detach .. => false
  | .create .. => false
  | .configure .. => false
  | .delete .. => false
  | .append .. => false
  | .read .. => false
  | .ack .. => false
  | .rewind .. => false
  | .setlevel .. => false
  | .query .. => false
  | .status .. => false
  | .sync .. => false
  | .events .. => false
  | .mask .. => false
  | .propose .. => false
  | .agree .. => false
  | .refuse .. => false
  | .frameEntry .. => false
  | .unknownEntry .. => false
  | .spaceTimerExpiry .. => false
  | .flushTimerExpiry => false
  | .starvationTimerExpiry => false
  | .runTimerExpiry => false
  | .windowTimerExpiry => false
  | .readPageDone => false
  | .mountReadDone => false
  | .appendStep1Done => false
  | .appendStep2Done => false
  | .appendStepFail => false
  | .appendVoidStepEnd _ => false
  | .metaStep1Done => false
  | .metaStep2Done => false
  | .metaStepFail => false
  | .metaVoidStepEnd _ => false
  | .checkpointPageCommit => false
  | .erasePulseEnd _ => false
  | .suspended => false
  | .abandoned => false

/-- The commands that end or cut an operation of the array that writes or erases (R69, R83). -/
def endsPulses : Instr → Bool
  | .resetnAsserted => true
  | .supplyLoss => true
  | .appendStep1Done => true
  | .appendStep2Done => true
  | .appendStepFail => true
  | .appendVoidStepEnd _ => true
  | .metaStep1Done => true
  | .metaStep2Done => true
  | .metaStepFail => true
  | .metaVoidStepEnd _ => true
  | .checkpointPageCommit => true
  | .erasePulseEnd _ => true
  | .suspended => true
  | .abandoned => true
  | .resetnReleased => false
  | .endOfPowerUp => false
  | .pfailAsserted => false
  | .pfailReleased => false
  | .send .. => false
  | .fetch .. => false
  | .linkReset .. => false
  | .otherTransactionCode .. => false
  | .attach .. => false
  | .detach .. => false
  | .create .. => false
  | .configure .. => false
  | .delete .. => false
  | .append .. => false
  | .read .. => false
  | .ack .. => false
  | .rewind .. => false
  | .setlevel .. => false
  | .query .. => false
  | .status .. => false
  | .sync .. => false
  | .events .. => false
  | .mask .. => false
  | .propose .. => false
  | .agree .. => false
  | .refuse .. => false
  | .frameEntry .. => false
  | .unknownEntry .. => false
  | .spaceTimerExpiry .. => false
  | .flushTimerExpiry => false
  | .starvationTimerExpiry => false
  | .runTimerExpiry => false
  | .windowTimerExpiry => false
  | .readPageDone => false
  | .mountReadDone => false

end Sys2Proof.Machine
end

