-- ==== Sys2Proof/Certificates/Slice0/Obligations.lean ====
section
/-! DEFINITION. What the provers are to settle about the PQ316: what each command does, in one event, to the state the
spec names, and what every step keeps. -/

open Sys2Proof Sys2Proof.Machine

/-! ### The machine -/

/-- One step takes the command at the front of the queue and carries it out with the queue's rest; on an empty queue the
part idles (the model's choice, log 8). -/
def Obligations.StepRunsFrontCommand : Prop :=
  (∀ s : State, s.pending = [] → step s = .next s) ∧
    ∀ (c : Instr) (rest : List Instr) (s : State),
      s.pending = c :: rest → step s = exec c { s with pending := rest }

/-- No command stops the part, and none touches the queue of commands that wait; only a command that ends or cuts a
program step or an erase changes a byte of the array (R68, R69). -/
def Obligations.EveryCommandCompletes : Prop :=
  ∀ (c : Instr) (s : State), ∃ t, exec c s = .next t ∧ t.pending = s.pending ∧
    (endsPulses c = false → t.flash = s.flash)

/-! ### Link -/

/-- The fields of the link status and the device state codes (R161); the overflow flag, the session and the request
being executed have no part in it, and after RESETn every port reads four slots free and nothing else. -/
def Obligations.LinkStatusReadsTheQueues : Prop :=
  [DeviceState.mounting, .blank, .ready, .readOnly, .formatting, .stopping, .stopped].map deviceCode =
    [1, 2, 3, 4, 5, 6, 7] ∧
  (∀ (pfail : Bool) (draws : Nat) (p : Port),
    (Device.powerUp true false pfail draws).linkStatus p = [0x80#8, 0x01#8]) ∧
  ∀ (d : Device) (p : Port), (d.port p).requests.length ≤ 4 → (d.port p).responses.length ≤ 4 →
    ∃ x y : Byte, d.linkStatus p = [x, y] ∧
      x.toNat / 32 = 4 - (d.port p).requests.length ∧
      x.toNat / 4 % 8 = (d.port p).responses.length ∧
      (x.toNat / 2 % 2 = 1 ↔ (d.events.get p).queue ≠ []) ∧
      (x.toNat % 2 = 1 ↔ (d.port p).rejected = true) ∧
      y.toNat = deviceCode d.mode ∧
      (∀ (o : Bool) (E : EventUnit), E = d.events.get p →
        ({ d with events := d.events.set p { E with overflow := o } } : Device).linkStatus p = d.linkStatus p) ∧
      (∀ x : Executor, (d.setExec p x).linkStatus p = d.linkStatus p) ∧
      ∀ a : Bool, (d.setPort p { d.port p with attached := a }).linkStatus p = d.linkStatus p

/-- The alert line is asserted exactly while a response waits or an unmasked event is queued, out of reset; it is
released after power-up and after RESETn (R158, R177). That it is released without supply too is read from R177
(log 31). -/
def Obligations.AlertFollowsTheQueues : Prop :=
  (∀ (d : Device) (p : Port),
    d.alert p = true ↔ d.powered = true ∧ d.resetLow = false ∧
      ((d.port p).responses ≠ [] ∨
        ∃ e ∈ (d.events.get p).queue, (d.events.get p).mask.getLsbD e.kind.code = false)) ∧
  ∀ (powered resetLow pfail : Bool) (draws : Nat) (p : Port),
    (Device.powerUp powered resetLow pfail draws).alert p = false

/-- The frame of a request (R162) is classified as that request, one of an unknown kind as UNKNOWN, and as FRAME: a
frame cut short or run on by at least one byte, one of its own length with another CRC, and bytes whose body length
field exceeds 250 (R164). -/
def Obligations.RequestFrameIsItsRequest : Prop :=
  ∀ (tag : Byte) (body : List Byte), bodyFits body = true →
    (∀ k : Kind, classifyFrame (requestFrame tag k.byte body) = .known tag k body) ∧
    (∀ kind : Byte, knownKind kind = false → classifyFrame (requestFrame tag kind body) = .unknown tag kind) ∧
    (∀ kind : Byte, ∀ n, n < 5 + body.length → classifyFrame ((requestFrame tag kind body).take n) = .frame) ∧
    (∀ (kind : Byte) (x : Byte) (more : List Byte),
      classifyFrame (requestFrame tag kind body ++ x :: more) = .frame) ∧
    (∀ (kind : Byte) (crc : List Byte), crc.length = 2 →
      crc ≠ crcBytes (tag :: kind :: BitVec.ofNat 8 body.length :: body) →
      classifyFrame (tag :: kind :: BitVec.ofNat 8 body.length :: body ++ crc) = .frame) ∧
    ∀ (kind len : Byte) (rest : List Byte), 250 < len.toNat → classifyFrame (tag :: kind :: len :: rest) = .frame

/-- A SEND that shifts in a whole good frame is the arrival of that request, with what stood at the transaction's
beginning as link status (R160, R164). That the request's own row is its arrival is the model's choice (log 4), and so
is the record of what data out carried (log 6). -/
def Obligations.SendOfAFrameIsItsArrival : Prop :=
  ∀ (s : State) (p : Port) (second tag : Byte) (body : List Byte) (k : Kind),
    s.dev.active = true → bodyFits body = true →
      let x := s.dev.opening p
      exec (.send p (.ends (second :: requestFrame tag k.byte body))) s =
        exec (k.command p tag body)
          (s.onDev (s.dev.setPort p { s.dev.port p with
            begun := none
            sdo := (x.status ++ List.replicate (5 + body.length) 0xFF#8).take (7 + body.length) }))

/-- What a SEND changes when no executor takes the entry at once: a poll nothing but data out, a SEND to a full queue
the rejected bit, any other the request queue and that bit; a transaction of a code that is not known shifts out link
status, then FFh, and has no effect. The beginning of any transaction samples the link status and the oldest response,
and nothing else changes (R160, R164, R165). That the two edges of chip select are operands of one row, that a
transaction whose beginning no command gave samples at its end, and the record of what data out carried are the model's
choices (log 6), and so is that a beginning at a port whose transaction is under way changes nothing (log 18). -/
def Obligations.SendPollsOrQueues : Prop :=
  (∀ (s : State) (p : Port) (code : Byte) (c : Instr), s.dev.active = true →
      (c = .send p .begins ∨ c = .fetch p .begins ∨ c = .linkReset p .begins ∨
        c = .otherTransactionCode p code .begins) →
      (s.dev.quiet → (s.dev.port p).begun = none → exec c s = .next (s.onDev (s.dev.setPort p { s.dev.port p with
        begun := some ⟨s.dev.linkStatus p, (s.dev.port p).responses.head?⟩ }))) ∧
      ((s.dev.port p).begun ≠ none → exec c s = .next s)) ∧
  (∀ (d : Device) (p : Port),
      (∀ x, (d.port p).begun = some x → d.opening p = x) ∧
      ((d.port p).begun = none → d.opening p = ⟨d.linkStatus p, (d.port p).responses.head?⟩)) ∧
  (∀ (s : State) (p : Port) (code : Byte) (shifted : Nat), s.dev.active = true → s.dev.quiet →
      knownTransaction code = false →
      exec (.otherTransactionCode p code (.ends shifted)) s = .next (s.onDev (s.dev.setPort p
        { s.dev.port p with
          begun := none
          sdo := ((s.dev.opening p).status ++ List.replicate (shifted - 1) 0xFF#8).take (shifted + 1) }))) ∧
  ∀ (s : State) (p : Port) (rest : List Byte), s.dev.active = true → s.dev.quiet →
    let out := ((s.dev.opening p).status ++ List.replicate (rest.length - 1) 0xFF#8).take (rest.length + 1)
    let h : HostPort := { s.dev.port p with begun := none, sdo := out }
    (rest.length ≤ 1 → exec (.send p (.ends rest)) s = .next (s.onDev (s.dev.setPort p h))) ∧
    (2 ≤ rest.length → 4 ≤ h.requests.length →
      exec (.send p (.ends rest)) s = .next (s.onDev (s.dev.setPort p { h with rejected := true }))) ∧
    (2 ≤ rest.length → h.requests.length < 4 →
      ((s.dev.exec p).state ≠ .idle ∧ (s.dev.exec p).state ≠ .waitSlot ∨
        (s.dev.exec p).state = .waitSlot ∧ 4 ≤ h.responses.length) →
      exec (.send p (.ends rest)) s = .next (s.onDev (s.dev.setPort p
        { h with requests := h.requests ++ [classifyFrame (rest.drop 1)], rejected := false })))

/-- FETCH shifts out the response that was oldest at its beginning and removes it if all of it went out; begun with none
waiting it shifts out the empty frame and removes none, whatever has come since (R160, R165); a freed slot lets a
waiting executor take its next request in that event, and a busy one goes on (R166). The edges of chip select as
operands and the record of what data out carried are the model's choices (log 6). -/
def Obligations.FetchShiftsTheOldestResponse : Prop :=
  ∀ (s : State) (p : Port) (shifted : Nat), s.dev.active = true → s.dev.quiet →
    let x := s.dev.opening p
    let h : HostPort := { s.dev.port p with begun := none }
    (x.oldest = none → exec (.fetch p (.ends shifted)) s = .next (s.onDev (s.dev.setPort p
        { h with sdo := (x.status ++ emptyFrame ++ List.replicate (shifted - 7) 0xFF#8).take (shifted + 1) }))) ∧
    ∀ r : Response, x.oldest = some r →
      let out := (x.status ++ responseFrame r ++ List.replicate (shifted - 7 - r.body.length) 0xFF#8).take (shifted + 1)
      (shifted < 7 + r.body.length →
        exec (.fetch p (.ends shifted)) s = .next (s.onDev (s.dev.setPort p { h with sdo := out }))) ∧
      (7 + r.body.length ≤ shifted →
        (h.requests = [] ∨ (s.dev.exec p).state ≠ .idle ∧ (s.dev.exec p).state ≠ .waitSlot →
          exec (.fetch p (.ends shifted)) s = .next (s.onDev (s.dev.setPort p
            { h with responses := h.responses.drop 1, sdo := out }))) ∧
        ∀ (q : Request) (queue : List Request), h.requests = q :: queue → (h.responses.drop 1).length < 4 →
          ((s.dev.exec p).state = .idle ∨ (s.dev.exec p).state = .waitSlot) →
          let h' : HostPort := { h with requests := queue, responses := h.responses.drop 1, sdo := out }
          exec (.fetch p (.ends shifted)) s = .next (s.onDev
            (((s.dev.setPort p h').setExec p ⟨.check, some q, .none⟩).process p q).settled))

/-- LINK_RESET: both queues empty and the rejected bit clear; the request in hand gone without a response, its wait
left, its claim withdrawn (a page between the steps of its append VOID) or its operation running on with no request in
hand; an attached port's session ended, its event unit at reset values, a ballot it is a party of aborted; the other
ports' queues and sessions as they were; places a waiter gave up are offered on, as R107 is read (log 28), and so are
those an append waited for with its step on the array (log 15). A transaction
without its second status byte has no effect (R44, R56, R61, R107, R160, R164, R170). The edges of chip select as
operands and the record of what data out carried are the model's choices (log 6). -/
def Obligations.LinkResetEndsTheSession : Prop :=
  ∀ (s : State) (p : Port) (shifted : Nat), s.dev.active = true →
    let out := ((s.dev.opening p).status ++ List.replicate (shifted - 1) 0xFF#8).take (shifted + 1)
    let h : HostPort := { s.dev.port p with begun := none, sdo := out }
    (shifted = 0 → s.dev.quiet → exec (.linkReset p (.ends shifted)) s = .next (s.onDev (s.dev.setPort p h))) ∧
    (1 ≤ shifted →
      let d := s.dev.setPort p { h with requests := [], responses := [], rejected := false }
      let closed := fun (d : Device) => if (s.dev.port p).attached then d.endSession p else d.abortBallotOf p
      let ends := fun (d : Device) => exec (.linkReset p (.ends shifted)) s = .next (s.onDev d)
      let x := s.dev.exec p
      (s.dev.quiet → x = Executor.rest → ends (closed d)) ∧
      (x.state = .idle ∨ x.state = .check ∨ x.state = .waitSlot ∨ (∃ serial, x.state = .waitDurable serial) →
        ends (closed (d.setExec p Executor.rest)).settle) ∧
      (x.state = .waitSpace →
        ends (closed ({ d with spaceWait := d.spaceWait.filter (· != p) }.setExec p Executor.rest)).settle) ∧
      (x.state = .waitStaging →
        ends (closed ((d.leavePlaceWait (.executor p)).setExec p Executor.rest)).offerPlaces.settle) ∧
      (x.state = .waitArray →
        (∀ j, x.job = .append j → j.phase = .between →
          ends (closed ((d.abandonPage p j).setExec p Executor.rest)).settle) ∧
        ((∀ j, x.job = .append j → j.phase ≠ .between) →
          ends (closed (d.setExec p Executor.rest)).settle)) ∧
      (x.state = .onArray →
        let offered := fun (d : Device) => if .executor p ∈ s.dev.writer.placeWait then d.offerPlaces else d
        (∀ j, x.job = .append j → ends (offered (closed ((d.leavePlaceWait (.executor p)).setExec p
          ⟨.onArray, none, .append { j with kept := [] }⟩))).settle) ∧
        ((∀ j, x.job ≠ .append j) →
          ends (offered (closed ((d.leavePlaceWait (.executor p)).setExec p ⟨.onArray, none, x.job⟩))).settle)) ∧
      ∀ d' : Device, d'.ports = d.ports →
        ((closed d').port p).attached = false ∧ ((closed d').port p).requests = [] ∧
          ((closed d').port p).responses = [] ∧
          ((s.dev.port p).attached = true → (closed d').events.get p = EventUnit.powerUp) ∧
          (d'.isParty p = true → (closed d').consent.ballot = none) ∧
          ∀ q, q ≠ p → (closed d').port q = s.dev.port q)

/-! ### Pins and supply -/

/-- Held in reset, or without supply, the part takes part in no transaction, request, timer or report. RESETn asserted
and supply lost: every RAM value at power-up, no response and no event; a program step in progress is cut short in its
range and an erase, its suspension under way too, in its sector, and no other byte of the array changes: what the cut
leaves there is a free value, the next of the draw counter, as `CutPulsesMoveBitsOneWay` bounds it (R69, R83; log 1).
The release of RESETn and the end of power-up: every RAM value at power-up, and the mount's first page
read under way; with PFAIL asserted the part is STOPPED at once (R83, R123, R177). What R177 says of RESETn is said of a
part without supply too: that is the model's choice (log 31), and so are the values of registers the manual gives none
(log 20), that a transaction under way is forgotten with them (log 44), and that the mount unit's phase outside a mount
is idle (log 56). -/
def Obligations.ResetWipesAndReleaseMounts : Prop :=
  (∀ (c : Instr) (s : State), s.dev.active = false → onPins c = false → exec c s = .next s) ∧
  (∀ s : State,
      (s.dev.resetLow = false → exec .resetnAsserted s =
        .next { s with
          dev := Device.powerUp s.dev.powered true s.dev.pfail (s.dev.draws + 1), flash := s.dev.cutArray s.flash }) ∧
      (s.dev.powered = true → exec .supplyLoss s =
        .next { s with
          dev := Device.powerUp false s.dev.resetLow s.dev.pfail (s.dev.draws + 1), flash := s.dev.cutArray s.flash }) ∧
      (s.dev.arrayOp = .none ∨ (∃ sector page, s.dev.arrayOp = .read sector page) → s.dev.cutArray s.flash = s.flash) ∧
      (∀ sector page first target, s.dev.arrayOp = .program sector page first target →
        s.dev.cutArray s.flash = s.flash.programCut s.dev.draws (pageBase sector page + first) target) ∧
      ∀ x, (s.dev.arrayOp = .erase ∨ s.dev.arrayOp = .suspending) → s.dev.eraseCtx = some x →
        s.dev.cutArray s.flash = s.flash.partialErase s.dev.draws x.sector) ∧
  ∀ (s : State) (c : Instr),
    (c = .resetnReleased ∧ s.dev.resetLow = true ∧ s.dev.powered = true ∨
      c = .endOfPowerUp ∧ s.dev.powered = false ∧ s.dev.resetLow = false) →
    (s.dev.pfail = false → exec c s = .next (s.onDev
      ({ Device.powerUp true false false s.dev.draws with
        mount := { Mount.powerUp with phase := .metaScan }, arrayOp := .read 0 0 }))) ∧
    (s.dev.pfail = true → exec c s = .next (s.onDev
      ({ Device.powerUp true false true s.dev.draws with mode := .stopped })))

/-- PFAIL asserted on a part with nothing in hand and nothing to flush: STOPPED in that event, the tables, ports and
array as they were; asserted in STOPPING or STOPPED it changes nothing but the pin's level, which the end of the
stopping sequence goes by (log 40). PFAIL released in STOPPED begins a mount that keeps sessions, queues and event
units; in that event every port's queued requests are taken in MOUNTING, oldest first, and each is answered with its tag
and kind while a response slot is free, the ports one after another as the model orders them (logs 7 and 9). In STOPPING
the sequence goes on (R166, R178, R180, R181). What PFAIL does to a part at work is `StoppingEndsWhatIsUnderWay`. -/
def Obligations.PfailStopsAndRestarts : Prop :=
  (∀ s : State, s.dev.active = true → s.dev.quiet →
      (stoppable s.dev.mode = true →
        (∀ q, s.dev.exec q = Executor.rest ∧ (s.dev.port q).requests = []) →
        s.dev.arrayIdle → s.dev.engine.current = none → s.dev.eraseCtx = none → s.dev.consent.ballot = none →
        (s.dev.writer.state = .idle ∨ s.dev.writer.state = .dormant) → s.dev.writer.hasOpen = false →
        ∃ t, exec .pfailAsserted s = .next t ∧
          t.dev.mode = .stopped ∧ t.dev.pfail = true ∧ t.dev.reason = s.dev.reason ∧
          t.dev.writer.state = .dormant ∧ t.dev.consent.pending = none ∧ t.dev.engine.slot = [] ∧
          t.dev.ports = s.dev.ports ∧ t.dev.events = s.dev.events ∧ t.dev.streams = s.dev.streams ∧
          t.dev.cursors = s.dev.cursors ∧ t.dev.sectors = s.dev.sectors ∧ t.dev.freePool = s.dev.freePool ∧
          t.dev.eraseQueue = s.dev.eraseQueue ∧ t.dev.badList = s.dev.badList ∧ t.flash = s.flash) ∧
      (stoppable s.dev.mode = false →
        exec .pfailAsserted s = .next (s.onDev ({ s.dev with pfail := true })))) ∧
  ∀ s : State, s.dev.active = true →
    (s.dev.mode = .stopped →
      let begun : Device := { Device.powerUp true false false s.dev.draws with
        ports := s.dev.ports, events := s.dev.events
        mount := { Mount.powerUp with phase := .metaScan }, arrayOp := .read 0 0 }
      exec .pfailReleased s = .next (s.onDev begun.settle) ∧
      ((∀ q, (s.dev.port q).requests = []) → exec .pfailReleased s = .next (s.onDev begun)) ∧
      (∀ p r rest, (s.dev.port p).requests = r :: rest → (s.dev.port p).responses.length < 4 →
        (∀ q, (q, p) ∈ [(Port.A, Port.B), (Port.A, Port.C), (Port.B, Port.C)] → (s.dev.port q).requests = []) →
        begun.consequence = some (((begun.setPort p { s.dev.port p with requests := rest }).setExec p
          ⟨.check, some r, .none⟩).process p r)) ∧
      ((∀ q, (s.dev.port q).requests.length ≤ 4) → ∃ d : Device, exec .pfailReleased s = .next (s.onDev d) ∧
        d.mode = .mounting ∧ d.arrayOp = .read 0 0 ∧ ∀ q,
          let h := s.dev.port q
          let taken := min h.requests.length (4 - h.responses.length)
          (d.port q).requests = h.requests.drop taken ∧ (d.exec q).inHand = none ∧
            ∃ answers, (d.port q).responses = h.responses ++ answers ∧
              answers.map (fun r => (r.tag, r.kind)) = (h.requests.take taken).map Request.label)) ∧
    (s.dev.mode = .stopping → s.dev.quiet →
      exec .pfailReleased s = .next (s.onDev ({ s.dev with pfail := false })))

/-- PFAIL asserted on a part at work. In the event of entry every request in hand is answered ABORTED, in every executor
state: the waits are left, a claim is withdrawn with the page between the steps of its append VOID, and an operation on
the array runs on with no request in hand. The engine's claim goes, the slot is empty, a suspended erase is abandoned at
once and a running one by its stop; an open ballot is ABORTED with BALLOT_DONE to its parties, a pending purge or a
FORMAT is ended, and so is a mount. The writer finishes a page in flight, abandons a compaction in ERASING, and makes
one stopping flush of open entries with no retry, a journal page it has only claimed being that flush; a HALTED writer
makes none. With no holder, no current erase, no page read and the writer done, the part is STOPPED, or with PFAIL
released again mounts at once (R44, R101, R102, R122, R124, R144, R178, R180, R181). Said of a part with serials left
for the RETIRE entries the withdrawn claims may stage (R104). That PFAIL's level when the sequence completes decides
between the two is the model's choice (log 40), and so are the mark an abandoned erase carries until its report (log 47)
and the active half the DORMANT writer keeps (log 50), the mount unit's phase (log 56), and what the buffer's covered
entries and the registers of an abandoned compaction keep (logs 55 and 57); that a checkpoint page only claimed is
granted in turn is read from R122 (log 22). -/
def Obligations.StoppingEndsWhatIsUnderWay : Prop :=
  (∀ s : State, s.dev.active = true → stoppable s.dev.mode = true → s.dev.writer.nextSerial < 4294967280 →
    ∃ d : Device, exec .pfailAsserted s = .next (s.onDev d.settle) ∧
      d.mode = .stopping ∧ d.pfail = true ∧ d.reason = s.dev.reason ∧
      d.spaceWait = [] ∧ d.writer.placeWait = [] ∧ d.engine.slot = [] ∧ d.engine.outcome = none ∧
      d.arbiter.starved = false ∧ d.arbiter.starveTimer = false ∧
      d.consent.ballot = none ∧ d.consent.pending = none ∧ d.consent.state = .idle ∧
      d.mount = { Mount.powerUp with repair := s.dev.mount.repair } ∧
      d.cursors = s.dev.cursors ∧ d.freePool = s.dev.freePool ∧
      (∀ q, (d.port q).requests = (s.dev.port q).requests ∧ (d.port q).attached = (s.dev.port q).attached) ∧
      (∀ q, let x := s.dev.exec q
        (∀ r, x.inHand = some r → x.state ≠ .idle → x.state ≠ .waitSlot →
          (d.port q).responses = (s.dev.port q).responses ++ [⟨r.label.1, r.label.2, .aborted, []⟩]) ∧
        (x.inHand = none → (d.port q).responses = (s.dev.port q).responses) ∧
        (x.state ≠ .idle → x.state ≠ .waitSlot → x.state ≠ .onArray → d.exec q = Executor.rest) ∧
        ((x.state = .idle ∨ x.state = .waitSlot) → d.exec q = x) ∧
        (x.state = .onArray →
          (x.inHand = none → d.exec q = x) ∧
          (x.inHand ≠ none → (∀ j, x.job = .append j → d.exec q = ⟨.onArray, none, .append { j with kept := [] }⟩) ∧
            ((∀ j, x.job ≠ .append j) → d.exec q = ⟨.onArray, none, x.job⟩))) ∧
        ∀ j, x.state = .waitArray → x.job = .append j → j.phase = .between → j.sector < 256 → j.page < 16 →
          (d.sector j.sector).pageList[j.page]? = some .void ∨ j.sector ∈ d.eraseQueue ∨ j.sector ∈ d.badList) ∧
      (∀ x c, s.dev.eraseCtx = some x → s.dev.engine.current = some c →
        (x.phase = .suspended → d.eraseCtx = none ∧ d.engine.current = none ∧
          (c.source = .queue → c.sector < 256 → (d.sector c.sector).state = .queued)) ∧
        (x.phase ≠ .suspended →
          d.eraseCtx = some { x with abandon := true } ∧ d.engine.current = some c ∧
            d.arbiter.holder = s.dev.arbiter.holder)) ∧
      (∀ bl, s.dev.consent.ballot = some bl →
        (∀ q, bl.parties.get q = true → (s.dev.port q).attached = true → (d.events.get q).overflow = true ∨
          ⟨.ballotDone, some bl.id.toNat, some 4⟩ ∈ (d.events.get q).queue) ∧
        ∀ st inc b, bl.op = .purge st inc → d.stream st = some b → b.ballotHeld = false) ∧
      ((∀ q j, (s.dev.exec q).state = .waitArray → (s.dev.exec q).job = .append j → j.phase ≠ .between) →
        d.eraseQueue = s.dev.eraseQueue ∧ d.badList = s.dev.badList ∧
        (∀ st, (d.stream st).map StreamBody.chain = (s.dev.stream st).map StreamBody.chain) ∧
        d.writer = { s.dev.writer with
          placeWait := []
          phase := if s.dev.writer.phase = .erasing then .none else s.dev.writer.phase
          stop := if s.dev.writer.state = .claim1 ∧ s.dev.writer.phase ≠ .checkpoint then .flushing
            else .finishing })) ∧
  (∀ d : Device, d.mode = .stopping →
    let moves := fun (w : Writer) => d.stopMove = some { d with writer := w }
    let done := { d.writer with stop := .done, phase := .none }
    (d.writer.stop = .finishing → d.writer.state = .idle →
      let flush : Prop := d.writer.activeHalf ≠ none ∧ d.writer.hasOpen = true ∧ d.writer.phase ≠ .checkpoint ∧
        d.writer.writePos < 32
      (flush → moves { d.writer with stop := .flushing, state := .claim1 }) ∧ (¬ flush → moves done)) ∧
    (d.writer.stop = .flushing → d.writer.state = .idle → moves done) ∧
    (d.writer.stop = .finishing ∨ d.writer.stop = .flushing →
      (d.writer.state = .dormant → moves done) ∧
      (d.writer.state = .halted → d.arbiter.holder ≠ some .writer → moves done) ∧
      (d.writer.state = .halted → d.arbiter.holder = some .writer → d.stopMove = none) ∧
      ((d.writer.state = .claim1 ∨ d.writer.state = .program1 ∨ d.writer.state = .claim2 ∨
        d.writer.state = .program2) → d.stopMove = none)) ∧
    (d.writer.stop = .done ∨ d.writer.stop = .notStopping → d.stopMove = none)) ∧
  ∀ d : Device,
    let complete : Prop := d.mode = .stopping ∧ d.arbiter.holder = none ∧ d.engine.current = none ∧
      d.writer.stop = .done ∧ d.arrayOp = .none
    (¬ complete → d.stepStopped = none) ∧
    (complete → d.pfail = true → d.stepStopped = some { d with
      mode := .stopped, writer := { d.writer with state := .dormant, stop := .notStopping } }) ∧
    (complete → d.pfail = false → d.stepStopped = some { Device.powerUp d.powered d.resetLow false d.draws with
      ports := d.ports, events := d.events
      mount := { Mount.powerUp with phase := .metaScan }, arrayOp := .read 0 0 })

/-! ### Requests every port may make -/

/-- ATTACH: an attached port is answered alone; a detached port becomes attached with its event unit at reset values,
and the other attached ports are sent PEER (R168). DETACH: answered OK, the session DETACHED, the event unit at reset
values, an open ballot the port is a party of aborted, PEER to the others (R169). That the responses not yet fetched
stay in their queue is read from R169 and R170 (log 49). -/
def Obligations.SessionsOpenAndClose : Prop :=
  (∀ (s : State) (p : Port) (tag : Byte), s.dev.serves p →
      ((s.dev.port p).attached = true → exec (.attach p tag []) s =
        .next (s.onDev (s.dev.replied p (reply tag .attach .ok [BitVec.ofNat 8 (portCode p)])))) ∧
      ((s.dev.port p).attached = false → exec (.attach p tag []) s =
        .next (s.onDev
          ((({ s.dev.setPort p { s.dev.port p with attached := true } with
              events := s.dev.events.set p EventUnit.powerUp } : Device).offerSet ((PerPort.all true).set p false)
                ⟨.peer, some (portCode p), some 1⟩).replied p
            (reply tag .attach .ok [BitVec.ofNat 8 (portCode p)]))))) ∧
  ∀ (s : State) (p : Port) (tag : Byte), s.dev.serves p → (s.dev.port p).attached = true →
    let d := s.dev.replied p (reply tag .detach .ok [])
    let d := ({ d.setPort p { d.port p with attached := false } with
      events := d.events.set p EventUnit.powerUp } : Device)
    let d := if d.isParty p then d.closeBallot .aborted else d
    exec (.detach p tag []) s = .next (s.onDev
      (d.offerSet ((PerPort.all true).set p false) ⟨.peer, some (portCode p), some 0⟩))

/-- STATUS is answered from attached and detached ports alike with 26 bytes: device state, reason (00h but in
READ_ONLY), free count, erase queue length, bad count and stream count; generation, durable serial and next serial;
repair count; attached ports; and the open ballot's id, operation, agreed set and time left, at most 250 ms whatever the
free value (log 1), or zeros (R139, R172). That the agreed set is coded as a reader-set byte is read from R172 (log 54).
-/
def Obligations.StatusReportsTheTables : Prop :=
  ∀ (s : State) (p : Port) (tag : Byte), s.dev.serves p →
    ∃ (body : List Byte) (left : Nat), left ≤ 250 ∧ body.length = 26 ∧
      body =
        [BitVec.ofNat 8 (deviceCode s.dev.mode),
          BitVec.ofNat 8 (if s.dev.mode = .readOnly then reasonCode s.dev.reason else 0),
          BitVec.ofNat 8 s.dev.freePool.length, BitVec.ofNat 8 s.dev.eraseQueue.length,
          BitVec.ofNat 8 s.dev.badList.length,
          BitVec.ofNat 8 ((List.finRange 16).countP fun st => (s.dev.stream st).isSome)] ++
        bigEndian 4 s.dev.writer.generation ++ bigEndian 4 s.dev.writer.durableSerial ++
        bigEndian 4 s.dev.writer.nextSerial ++ bigEndian 2 s.dev.mount.repair ++
        [BitVec.ofNat 8 ((if (s.dev.port .A).attached then 1 else 0) + (if (s.dev.port .B).attached then 2 else 0) +
          (if (s.dev.port .C).attached then 4 else 0))] ++
        (match s.dev.consent.ballot with
          | none => [0x00#8, 0x00#8, 0x00#8, 0x00#8, 0x00#8]
          | some bl => [bl.id, BitVec.ofNat 8 bl.op.code, BitVec.ofNat 8 (portSetCode bl.agreed)] ++ bigEndian 2 left) ∧
      exec (.status p tag []) s = .next (s.onDev ({ s.dev.replied p (reply tag .status .ok body) with
        draws := s.dev.draws + 1 }))

/-- QUERY reports the descriptor in 27 bytes: stream number, incarnation, state (01h OPEN, 02h HELD), name tag, writer,
reader set, policy, quota, margin, next and oldest sequence, chain length, used pages, room, and a byte with the high
flag in bit 0 and the ballot-held flag in bit 1; and to a reader its cursor in 17 more (R67, R171). That bits 2 to 7 of
the flags byte are 0 is the model's choice (log 59). -/
def Obligations.QueryReportsStreamAndCursor : Prop :=
  ∀ (s : State) (p : Port) (tag : Byte) (st : Fin 16) (b : StreamBody), s.dev.serves p →
    (s.dev.mode = .ready ∨ s.dev.mode = .readOnly) → (s.dev.port p).attached = true → s.dev.stream st = some b →
    (b.readers.get p = false →
      exec (.query p tag [streamByte st]) s = .next (s.onDev (s.dev.replied p
        (reply tag .query .ok (b.report st (s.dev.incarnation st)))))) ∧
    (∀ c, b.readers.get p = true → s.dev.cursor st p = some c →
      exec (.query p tag [streamByte st]) s = .next (s.onDev (s.dev.replied p
        (reply tag .query .ok (b.report st (s.dev.incarnation st) ++
          (bigEndian 4 c.committed ++ bigEndian 4 c.delivered ++ bigEndian 2 c.level ++
            [if c.flag then 0x01#8 else 0x00#8] ++ bigEndian 2 c.lost ++ bigEndian 4 (b.next - c.committed))))))) ∧
    b.report st (s.dev.incarnation st) =
      [BitVec.ofNat 8 st.val, s.dev.incarnation st, if b.held then 0x02#8 else 0x01#8] ++ bigEndian 4 b.nameTag.toNat ++
        [(match b.writer with | .A => 0x00#8 | .B => 0x01#8 | .C => 0x02#8),
          BitVec.ofNat 8 ((if b.readers.get .A then 1 else 0) + (if b.readers.get .B then 2 else 0) +
            (if b.readers.get .C then 4 else 0)),
          (match b.policy with | .refuse => 0x00#8 | .dropOldest => 0x01#8), BitVec.ofNat 8 b.quota] ++
        bigEndian 2 b.margin ++ bigEndian 4 b.next ++ bigEndian 4 b.oldest ++ [BitVec.ofNat 8 b.chain.length] ++
        bigEndian 2 b.used ++ bigEndian 2 (b.quota * 16 - b.used) ++
        [BitVec.ofNat 8 ((if b.high then 1 else 0) + (if b.ballotHeld then 2 else 0))] ∧
    (b.report st (s.dev.incarnation st)).length = 27 ∧
    ∀ c : Cursor, (c.report b.next).length = 17

/-- EVENTS removes up to eight oldest entries, reports and clears the overflow flag, and returns them; MASK replaces the
mask and answers with the one before, a mask naming a kind outside 1 to 9 is BAD_ARG (R156, R157, R163). An entry is six
bytes: its kind code (R152), its subject, FFh where it has none, and its value, most significant byte first, 0 where it
has none (R163). That the overflow byte is 01h for set and 00h for clear is the model's choice (log 39). -/
def Obligations.EventsAndMaskActOnTheQueue : Prop :=
  (∀ (s : State) (p : Port) (tag : Byte), s.dev.serves p → (s.dev.port p).attached = true →
      let u := s.dev.events.get p
      exec (.events p tag []) s = .next (s.onDev
        ({ s.dev.replied p (reply tag .events .ok
            ([if u.overflow then 0x01#8 else 0x00#8, BitVec.ofNat 8 (u.queue.take 8).length,
              BitVec.ofNat 8 (u.queue.drop 8).length] ++ (u.queue.take 8).flatMap Event.encode)) with
          events := s.dev.events.set p { u with queue := u.queue.drop 8, overflow := false } }))) ∧
  (∀ e : Event, e.encode =
      [BitVec.ofNat 8 (match e.kind with
          | .highWater => 1 | .backlog => 2 | .lost => 3 | .streamGone => 4 | .ballotOpen => 5 | .ballotDone => 6
          | .retired => 7 | .state => 8 | .peer => 9),
        (match e.subject with | some n => BitVec.ofNat 8 n | none => 0xFF#8)] ++
      (match e.value with | some v => bigEndian 4 v | none => [0x00#8, 0x00#8, 0x00#8, 0x00#8])) ∧
  ∀ (s : State) (p : Port) (tag hi lo : Byte), s.dev.serves p → (s.dev.port p).attached = true →
    let u := s.dev.events.get p
    let m : BitVec 16 := hi ++ lo
    (m &&& 0xFC01#16 = 0#16 → exec (.mask p tag [hi, lo]) s = .next (s.onDev
      ({ s.dev.replied p (reply tag .mask .ok (bigEndian 2 u.mask.toNat)) with
        events := s.dev.events.set p { u with mask := m } }))) ∧
    (m &&& 0xFC01#16 ≠ 0#16 → exec (.mask p tag [hi, lo]) s =
      .next (s.onDev (s.dev.replied p (reply tag .mask .badArg []))))

/-! ### Refusals -/

/-- An entry marked FRAME is answered FRAME with tag and kind 00h, one marked UNKNOWN is answered UNKNOWN with its own
(R164). A body of another length than R163 gives the kind is answered BAD_ARG, once the checks that stand before it in
R51, R156, R157 and R169 have passed; DETACH, EVENTS and MASK from a detached port are answered NOT_ATTACHED before it
(R167). An ACK that passes those checks with a flags byte neither 00h nor 01h is BAD_ARG (R51). That DETACH's own rule
R169 goes before the length check of R167 is the model's choice (log 13). -/
def Obligations.MalformedRequestsAreAnswered : Prop :=
  (∀ (s : State) (p : Port), s.dev.serves p →
    exec (.frameEntry p) s = .next (s.onDev (s.dev.replied p ⟨0x00#8, 0x00#8, .frame, []⟩)) ∧
    ∀ tag kind : Byte,
      exec (.unknownEntry p tag kind) s = .next (s.onDev (s.dev.replied p ⟨tag, kind, .unknown, []⟩))) ∧
  (∀ (s : State) (p : Port) (tag : Byte) (k : Kind) (body : List Byte), s.dev.serves p → bodyFits body = true →
    lengthGood k body = false →
    (k.ownLength = false ∨
      ((k = .detach ∨ k = .events ∨ k = .mask) ∧ (s.dev.port p).attached = true) ∨
      ((k = .read ∨ k = .ack ∨ k = .rewind ∨ k = .setlevel) ∧
        ∃ st b c, body.head? = some (streamByte st) ∧ s.dev.readerOf p st b c) →
      exec (k.command p tag body) s = .next (s.onDev (s.dev.replied p (reply tag k .badArg [])))) ∧
    ((k = .detach ∨ k = .events ∨ k = .mask) → (s.dev.port p).attached = false →
      exec (k.command p tag body) s = .next (s.onDev (s.dev.replied p (reply tag k .notAttached []))))) ∧
  ∀ (s : State) (p : Port) (tag : Byte) (st : Fin 16) (b : StreamBody) (c : Cursor) (s0 s1 s2 s3 flags : Byte),
    s.dev.serves p → s.dev.readerOf p st b c → flags ≠ 0x00#8 → flags ≠ 0x01#8 →
    exec (.ack p tag [streamByte st, s0, s1, s2, s3, flags]) s =
      .next (s.onDev (s.dev.replied p (reply tag .ack .badArg [])))

/-- The device-state table of R167: a request not taken in the state is answered as the table says, attached or not; one
taken, from a detached port, other than ATTACH and STATUS, is answered NOT_ATTACHED. From an attached port, a request
that names a stream number which is FREE or above 15 is answered NO_STREAM (R2); READ, ACK, REWIND and SETLEVEL from a
port that is no reader NOT_READER (R51); CONFIGURE and DELETE from a port that is not the writer NOT_WRITER (R20, R22).
-/
def Obligations.StateAndAttachmentAreChecked : Prop :=
  ∀ (s : State) (p : Port) (tag : Byte) (k : Kind) (body : List Byte), s.dev.serves p → bodyFits body = true →
    lengthGood k body = true →
    let answered := fun status =>
      exec (k.command p tag body) s = .next (s.onDev (s.dev.replied p (reply tag k status [])))
    (∀ status, refusedIn k body s.dev.mode = some status → answered status) ∧
    (refusedIn k body s.dev.mode = none → (s.dev.port p).attached = false → k ≠ .attach → k ≠ .status →
      answered .notAttached) ∧
    (refusedIn k body s.dev.mode = none → (s.dev.port p).attached = true →
      ∀ number rest, k.named body = some (number :: rest) →
        ((∀ st, number = streamByte st → s.dev.stream st = none) → answered .noStream) ∧
        ∀ st b, number = streamByte st → s.dev.stream st = some b →
          ((k = .read ∨ k = .ack ∨ k = .rewind ∨ k = .setlevel) → b.readers.get p = false → answered .notReader) ∧
          ((k = .configure ∨ k = .delete) → b.writer ≠ p → answered .notWriter))

/-- In STOPPING and STOPPED every request and every marked entry is answered ABORTED, and nothing else changes
(R179). -/
def Obligations.HaltingPartAbortsEveryRequest : Prop :=
  ∀ (s : State) (p : Port), s.dev.awaits p → (s.dev.mode = .stopping ∨ s.dev.mode = .stopped) →
    (∀ (k : Kind) (tag : Byte) (body : List Byte), bodyFits body = true →
      exec (k.command p tag body) s = .next (s.onDev (s.dev.replied p (reply tag k .aborted [])))) ∧
    exec (.frameEntry p) s = .next (s.onDev (s.dev.replied p ⟨0x00#8, 0x00#8, .aborted, []⟩)) ∧
    ∀ tag kind : Byte,
      exec (.unknownEntry p tag kind) s = .next (s.onDev (s.dev.replied p ⟨tag, kind, .aborted, []⟩))

/-! ### Cursors -/

/-- REWIND: delivered becomes committed, answered with that value (R62). SETLEVEL: the level is taken and the backlog
flag evaluated against it; setting the flag sends BACKLOG (R63, R64). Nothing else changes. -/
def Obligations.RewindAndSetlevelActOnTheCursor : Prop :=
  (∀ (s : State) (p : Port) (tag : Byte) (st : Fin 16) (b : StreamBody) (c : Cursor), s.dev.serves p →
    s.dev.readerOf p st b c →
    exec (.rewind p tag [streamByte st]) s = .next (s.onDev
      ((s.dev.setCursor st p (some { c with delivered := c.committed })).replied p
        (reply tag .rewind .ok (bigEndian 4 c.committed))))) ∧
  ∀ (s : State) (p : Port) (tag hi lo : Byte) (st : Fin 16) (b : StreamBody) (c : Cursor), s.dev.serves p →
    s.dev.readerOf p st b c →
    let level := hi.toNat * 256 + lo.toNat
    let behind : Bool := level ≠ 0 ∧ level ≤ b.next - c.committed
    let d := s.dev.setCursor st p (some { c with level := level, flag := behind })
    let d := if behind && !c.flag then d.offer p ⟨.backlog, some st.val, some (b.next - c.committed)⟩ else d
    exec (.setlevel p tag [streamByte st, hi, lo]) s = .next (s.onDev (d.replied p (reply tag .setlevel .ok [])))

/-- READ: EMPTY at the next sequence; on an idle array the page of the record delivered names is read at once; on an
array held by another the claim waits, and at an erase that has run for 2 ms, with suspensions left, SUSPEND is issued
in that event (R52, R53, R87, R89). -/
def Obligations.ReadIsEmptyOrReadsItsRecord : Prop :=
  ∀ (s : State) (p : Port) (tag : Byte) (st : Fin 16) (b : StreamBody) (c : Cursor), s.dev.serves p →
    s.dev.readerOf p st b c →
    let d := s.dev.received p (.known tag .read [streamByte st])
    let inc := s.dev.incarnation st
    (c.delivered = b.next → exec (.read p tag [streamByte st]) s =
      .next (s.onDev (s.dev.replied p (reply tag .read .empty [])))) ∧
    (c.delivered ≠ b.next → s.dev.arrayIdle →
      ∀ sector page, s.dev.locate b.chain c.delivered = some (sector, page) →
        exec (.read p tag [streamByte st]) s = .next (s.onDev
          ((d.toExec p .onArray (.reading st inc c.delivered sector page)).grantedTo p (.read sector page)))) ∧
    (c.delivered ≠ b.next → s.dev.arbiter.holder ≠ none →
      (s.dev.engine.state ≠ .running ∨ (∀ e, s.dev.engine.current = some e → e.timer ≠ .reached ∨ 16 ≤ e.suspensions)) →
      exec (.read p tag [streamByte st]) s = .next (s.onDev (d.toExec p .waitArray (.read st inc)))) ∧
    ∀ e x, c.delivered ≠ b.next → s.dev.arbiter.holder = some .engine → s.dev.engine.state = .running →
      s.dev.engine.current = some e → e.timer = .reached → e.suspensions < 16 →
      s.dev.eraseCtx = some x → x.phase = .running → x.abandon = false →
      exec (.read p tag [streamByte st]) s = .next (s.onDev
        { d.toExec p .waitArray (.read st inc) with
          engine := { s.dev.engine with state := .suspending }
          arrayOp := .suspending
          eraseCtx := some { x with phase := .suspending } })

/-- ACK. One that advances nothing: OK with committed where it is already past the sequence, with DURABLE once the
newest CURSOR entry of the stream and port in the buffer is durable; SEQ past delivered; READ_ONLY with DURABLE in
READ_ONLY. One that advances committed: in READ_ONLY the cursor and its flag alone; in READY, with its places, the
cursor, its CURSOR entry, the flag, the reclaim, and the answer, at once or as a durable waiter; without places it waits
and changes nothing (R57 to R60, R107, R120). A durable waiter answers committed as of the ACK (log 21).
The reclaim rule: with M the least committed of the readers, or the next sequence without readers, heads that are
FILLED, hold no WRITING page, and no LIVE page or a last sequence below M leave the chain, up to the first that is not
so: the suspect ones for the bad list while it has room, with RETIRED, the others in chain order for the tail end of the
erase queue, QUEUED with the newest serial assigned as mark. Used pages fall by 16 for each, oldest sequence and high
flag follow, and RETIRE entries of up to eight sectors each are staged. In READ_ONLY nothing leaves (R14, R16, R24,
R25). That a reclaim goes on when a retirement in it takes the part to READ_ONLY is log 11, and that its entries follow
when all have left is log 38; that the entries are cut from the retired sectors sorted ascending, eight to each but the
last, is the model's choice (log 10). -/
def Obligations.AckAnswersOrAdvances : Prop :=
  (∀ (s : State) (p : Port) (tag : Byte) (st : Fin 16) (b : StreamBody) (c : Cursor) (seq : Nat) (durable : Bool),
    s.dev.serves p → s.dev.readerOf p st b c → seq < 4294967296 →
    let answered := fun status body => exec (.ack p tag (ackBody st seq durable)) s =
      .next (s.onDev (s.dev.replied p (reply tag .ack status body)))
    (s.dev.mode = .readOnly → durable = true → answered .readOnly []) ∧
    (¬(s.dev.mode = .readOnly ∧ durable = true) → seq + 1 ≤ c.committed →
      durable = false ∨ s.dev.writer.cursorSerial st p = none → answered .ok (bigEndian 4 c.committed)) ∧
    (s.dev.mode = .ready → durable = true → seq + 1 ≤ c.committed →
      ∀ before x later, s.dev.writer.staging = before ++ x :: later → x.entry.isCursorOf st p = true →
        (∀ y ∈ later, y.entry.isCursorOf st p = false) →
        (s.dev.writer.state = .halted → answered .readOnly []) ∧
        (s.dev.writer.state ≠ .halted →
          (x.serial ≤ s.dev.writer.durableSerial → answered .ok (bigEndian 4 c.committed)) ∧
          (s.dev.writer.durableSerial < x.serial → exec (.ack p tag (ackBody st seq durable)) s =
            .next (s.onDev (Device.settled ((s.dev.received p (.known tag .ack (ackBody st seq durable))).toExec p
              (.waitDurable x.serial) (.acked c.committed))))))) ∧
    (¬(s.dev.mode = .readOnly ∧ durable = true) → c.committed < seq + 1 → c.delivered < seq + 1 →
      answered .seq []) ∧
    (c.committed < seq + 1 → seq + 1 ≤ c.delivered → s.dev.offPlaceWait p →
      let n := seq + 1
      let d := s.dev.received p (.known tag .ack (ackBody st seq durable))
      let moved := (d.setCursor st p (some { c with committed := n })).stage
        (.cursor st (s.dev.incarnation st) p n c.lost)
      let done := (moved.evalBacklog st p).reclaimStaged st
      (s.dev.mode = .readOnly → durable = false → exec (.ack p tag (ackBody st seq durable)) s =
        .next (s.onDev (((s.dev.setCursor st p (some { c with committed := n })).evalBacklog st p).replied p
          (reply tag .ack .ok (bigEndian 4 n))))) ∧
      (s.dev.mode = .ready → d.placesFor (fun d => d.advanceCursor st p n) p →
        (durable = false → exec (.ack p tag (ackBody st seq durable)) s =
          .next (s.onDev (Device.settled (done.answer p .ok (bigEndian 4 n))))) ∧
        (durable = true → exec (.ack p tag (ackBody st seq durable)) s =
          .next (s.onDev (Device.settled
            (done.awaitDurable p (.acked n) ((done.writer.cursorSerial st p).getD done.newestSerial))))) ∧
        (done.cursor st p).map Cursor.committed = some n) ∧
      (s.dev.mode = .ready → ¬ d.placesFor (fun d => d.advanceCursor st p n) p →
        exec (.ack p tag (ackBody st seq durable)) s =
          .next (s.onDev (Device.settled ((d.joinPlaceWait (.executor p)).toExecState p .waitStaging)))))) ∧
  ∀ (d : Device) (st : Fin 16) (b : StreamBody), d.stream st = some b → b.chain.Nodup →
    let e := (d.reclaim st).1
    let retired := (d.reclaim st).2
    (d.mode = .readOnly → d.reclaim st = (d, [])) ∧
    (d.mode ≠ .readOnly → ∀ least : Nat,
      ((∀ q, b.readers.get q = false ∨ d.cursor st q = none) ∧ least = b.next ∨
        (∃ q c, b.readers.get q = true ∧ d.cursor st q = some c ∧ c.committed = least) ∧
          ∀ q c, b.readers.get q = true → d.cursor st q = some c → least ≤ c.committed) →
      let live := fun (n i seq : Nat) => (d.sector n).pageList[i]? = some (.live seq)
      let leaves := fun (n : Nat) => (d.sector n).state = .filled ∧ .writing ∉ (d.sector n).pageList ∧
        ∀ i last, live n i last → (∀ k seq, i < k → ¬ live n k seq) → last < least
      ∃ gone stay : List Nat, b.chain = gone ++ stay ∧ (∀ n ∈ gone, leaves n) ∧
        (∀ n, stay.head? = some n → ¬ leaves n) ∧ (gone = [] → d.reclaim st = (d, [])) ∧
        (gone ≠ [] →
          retired = (gone.filter fun n => (d.sector n).suspect).take (32 - d.badList.length) ∧
          e.eraseQueue = d.eraseQueue ++ gone.filter (fun n => n ∉ retired) ∧
          e.badList.Perm (d.badList ++ retired) ∧ e.freePool = d.freePool ∧ e.cursors = d.cursors ∧
          e.writer = d.writer ∧ (∀ n, n ∉ gone → e.sector n = d.sector n) ∧
          (∀ n ∈ gone, e.sector n =
            if n ∈ retired then { Sector.blank with state := .bad, eraseCount := (d.sector n).eraseCount }
            else { Sector.blank with
              state := .queued, eraseCount := (d.sector n).eraseCount, mark := d.writer.nextSerial - 1 }) ∧
          (∀ q n, n ∈ retired → (d.port q).attached = true → (e.events.get q).overflow = true ∨
            ⟨.retired, some n, none⟩ ∈ (e.events.get q).queue) ∧
          (∀ st', st' ≠ st → (e.stream st').map StreamBody.chain = (d.stream st').map StreamBody.chain) ∧
          ∃ b', e.stream st = some b' ∧ b'.chain = stay ∧ b'.next = b.next ∧ b'.readers = b.readers ∧
            b'.quota = b.quota ∧ b'.margin = b.margin ∧
            (b.used = d.chainUsed b.chain → b'.used + 16 * gone.length = b.used) ∧
            b'.high = decide (b.quota * 16 - b'.used ≤ b.margin) ∧
            ((∀ n ∈ stay, ∀ i seq, ¬ live n i seq) → b'.oldest = b.next) ∧
            ∀ before n later i seq, stay = before ++ n :: later → (∀ m ∈ before, ∀ k t, ¬ live m k t) →
              live n i seq → (∀ k t, k < i → ¬ live n k t) → b'.oldest = seq)) ∧
    ∃ groups : List (List Nat), groups.flatten.Perm retired ∧ groups.flatten.Pairwise (· ≤ ·) ∧
      (∀ g ∈ groups, 1 ≤ g.length ∧ g.length ≤ 8) ∧ (∀ g ∈ groups.dropLast, g.length = 8) ∧
      d.reclaimStaged st = groups.foldl (fun d g => d.stage (.retire g)) e

/-! ### Streams -/

/-- CREATE: arguments refused exactly where R18 says, and otherwise taken from their bytes (R163); BAD_ARG and LIMIT, or
the lowest FREE number OPEN at its next incarnation with its fields and cursors, its STREAM_DEF alone staged, OPEN and
with base sequence 0, and the executor a durable waiter for it (R17 to R19, R48). -/
def Obligations.CreateOpensAStream : Prop :=
  (∀ t0 t1 t2 t3 quota policy readers hi lo : Byte,
      createArgs [t0, t1, t2, t3, quota, policy, readers, hi, lo] = none ↔
        quota.toNat = 0 ∨ 252 < quota.toNat ∨ 1 < policy.toNat ∨ policy.toNat = 1 ∧ quota.toNat = 1 ∨
          quota.toNat * 16 < hi.toNat * 256 + lo.toNat ∨ 7 < readers.toNat) ∧
  (∀ (t0 t1 t2 t3 quota policy readers hi lo : Byte) (a : CreateArgs),
      createArgs [t0, t1, t2, t3, quota, policy, readers, hi, lo] = some a →
        a.tag = t0 ++ t1 ++ t2 ++ t3 ∧ a.quota = quota.toNat ∧ a.margin = hi.toNat * 256 + lo.toNat ∧
        (a.policy = .dropOldest ↔ policy = 0x01#8) ∧ (a.readers.get .A = true ↔ readers.getLsbD 0 = true) ∧
        (a.readers.get .B = true ↔ readers.getLsbD 1 = true) ∧
        (a.readers.get .C = true ↔ readers.getLsbD 2 = true)) ∧
  ∀ (s : State) (p : Port) (tag : Byte) (body : List Byte), s.dev.serves p → s.dev.writable p → body.length = 9 →
    (createArgs body = none → exec (.create p tag body) s =
      .next (s.onDev (s.dev.replied p (reply tag .create .badArg [])))) ∧
    (∀ a, createArgs body = some a → s.dev.lowestFree = none → exec (.create p tag body) s =
      .next (s.onDev (s.dev.replied p (reply tag .create .limit [])))) ∧
    (∀ a st, createArgs body = some a → s.dev.lowestFree = some st → s.dev.offPlaceWait p →
      let d := s.dev.received p (.known tag .create body)
      let done := d.createStream p st a
      s.dev.stream st = none ∧
      (∀ st', s.dev.stream st' = none → st ≤ st') ∧
      done.incarnation st = s.dev.incarnation st + 1 ∧
      done.stream st = some { a.newStream p with high := decide (a.quota * 16 ≤ a.margin) } ∧
      (∀ q, done.cursor st q = if a.readers.get q then some (Cursor.fresh 0) else none) ∧
      (d.writer.takesEntries = true → d.writer.nextSerial < 4294967295 →
        done.writer.staging = d.writer.staging ++ [⟨d.writer.nextSerial,
          .streamDef st (s.dev.incarnation st + 1) p a.readers false a.policy a.tag a.quota a.margin 0, .opened⟩] ∧
        done.newestSerial = d.writer.nextSerial) ∧
      (d.placesFor (fun d => d.createStream p st a) p → exec (.create p tag body) s = .next (s.onDev (Device.settled
        (done.awaitDurable p (.created st (s.dev.incarnation st + 1)) done.newestSerial)))) ∧
      (¬ d.placesFor (fun d => d.createStream p st a) p → exec (.create p tag body) s =
        .next (s.onDev (Device.settled ((d.joinPlaceWait (.executor p)).toExecState p .waitStaging)))))

/-- CONFIGURE: arguments refused exactly where R20 says, and otherwise taken from their bytes (R163); BALLOT_BUSY and
BAD_ARG, or the definition replaced, cursors kept, created and discarded as the reader set says; the STREAM_DEF with the
new fields and base the next sequence staged, then a CURSOR entry for each added reader at the next sequence, lost count
0; the high flag evaluated for the new quota and margin, HIGH_WATER on setting; then the reclaim of the stream, which
`AckAnswersOrAdvances` states; and the executor a durable waiter (R6, R20, R21). That the added readers' entries go in
the order A, B, C is the model's choice (log 9). -/
def Obligations.ConfigureReplacesTheDefinition : Prop :=
  (∀ (st readers policy quota hi lo held : Byte) (chain : Nat),
      configureArgs [st, readers, policy, quota, hi, lo, held] chain = none ↔
        quota.toNat = 0 ∨ 252 < quota.toNat ∨ 1 < policy.toNat ∨ policy.toNat = 1 ∧ quota.toNat = 1 ∨
          quota.toNat * 16 < hi.toNat * 256 + lo.toNat ∨ 7 < readers.toNat ∨ 1 < held.toNat ∨
          quota.toNat < chain) ∧
  (∀ (st readers policy quota hi lo held : Byte) (chain : Nat) (a : ConfigureArgs),
      configureArgs [st, readers, policy, quota, hi, lo, held] chain = some a →
        a.quota = quota.toNat ∧ a.margin = hi.toNat * 256 + lo.toNat ∧ (a.held = true ↔ held = 0x01#8) ∧
        (a.policy = .dropOldest ↔ policy = 0x01#8) ∧ (a.readers.get .A = true ↔ readers.getLsbD 0 = true) ∧
        (a.readers.get .B = true ↔ readers.getLsbD 1 = true) ∧
        (a.readers.get .C = true ↔ readers.getLsbD 2 = true)) ∧
  ∀ (s : State) (p : Port) (tag : Byte) (st : Fin 16) (b : StreamBody) (rest : List Byte), s.dev.serves p →
    s.dev.writerOf p st b → rest.length = 6 →
    let body := streamByte st :: rest
    (b.ballotHeld = true → exec (.configure p tag body) s =
      .next (s.onDev (s.dev.replied p (reply tag .configure .ballotBusy [])))) ∧
    (b.ballotHeld = false → configureArgs body b.chain.length = none → exec (.configure p tag body) s =
      .next (s.onDev (s.dev.replied p (reply tag .configure .badArg [])))) ∧
    (∀ a, b.ballotHeld = false → configureArgs body b.chain.length = some a → s.dev.offPlaceWait p →
      let d := s.dev.received p (.known tag .configure body)
      let done := d.configureStream st a
      done.incarnation st = s.dev.incarnation st ∧
      (∃ b', done.stream st = some b' ∧ b'.policy = a.policy ∧ b'.quota = a.quota ∧ b'.margin = a.margin ∧
        b'.readers = a.readers ∧ b'.held = a.held ∧ b'.nameTag = b.nameTag ∧ b'.writer = p ∧ b'.next = b.next) ∧
      (∀ q, b.readers.get q = true → a.readers.get q = false → done.cursor st q = none) ∧
      (∀ q, b.readers.get q = false → a.readers.get q = true → done.cursor st q = some (Cursor.fresh b.next)) ∧
      (∀ q, b.readers.get q = a.readers.get q → done.cursor st q = s.dev.cursor st q) ∧
      (let full := decide (a.quota * 16 - b.used ≤ a.margin)
       let added := portList.filter fun q => a.readers.get q && !b.readers.get q
       d.writer.nextSerial + added.length < 4294967295 →
        ∃ e : Device, done = e.reclaimStaged st ∧ e.cursors = done.cursors ∧ e.mode = .ready ∧
          e.stream st = some { b with
            policy := a.policy, quota := a.quota, margin := a.margin, readers := a.readers, held := a.held
            high := full } ∧
          e.sectors = d.sectors ∧ e.freePool = d.freePool ∧ e.eraseQueue = d.eraseQueue ∧ e.badList = d.badList ∧
          e.events = (if full && !b.high then
            d.offer p ⟨.highWater, some st.val, some (a.quota * 16 - b.used)⟩ else d).events ∧
          (d.writer.takesEntries = true → e.writer.staging = d.writer.staging ++
            (MetaEntry.streamDef st (s.dev.incarnation st) p a.readers a.held a.policy b.nameTag a.quota a.margin b.next ::
              added.map fun q => MetaEntry.cursor st (s.dev.incarnation st) q b.next 0).mapIdx fun i entry =>
                ⟨d.writer.nextSerial + i, entry, .opened⟩)) ∧
      (d.placesFor (fun d => d.configureStream st a) p → exec (.configure p tag body) s =
        .next (s.onDev (Device.settled (done.awaitDurable p .none done.newestSerial)))) ∧
      (¬ d.placesFor (fun d => d.configureStream st a) p → exec (.configure p tag body) s =
        .next (s.onDev (Device.settled ((d.joinPlaceWait (.executor p)).toExecState p .waitStaging)))))

/-- DELETE: BALLOT_BUSY and BACKLOG, or, with its places, in one event: STREAM_DROP staged, every sector of the chain in
the erase queue or the bad list (all of them in the queue, head to tail, with the STREAM_DROP's serial as their mark,
where none is suspect), the cursors gone, STREAM_GONE to each attached reader but the writer and to no other, the number
FREE with its incarnation kept, and the executor a durable waiter (R14, R22, R23). -/
def Obligations.DeleteFreesTheNumber : Prop :=
  ∀ (s : State) (p : Port) (tag : Byte) (st : Fin 16) (b : StreamBody), s.dev.serves p → s.dev.writerOf p st b →
    (b.ballotHeld = true → exec (.delete p tag [streamByte st]) s =
      .next (s.onDev (s.dev.replied p (reply tag .delete .ballotBusy [])))) ∧
    (b.ballotHeld = false → (∃ q c, s.dev.cursor st q = some c ∧ c.committed ≠ b.next) →
      exec (.delete p tag [streamByte st]) s =
        .next (s.onDev (s.dev.replied p (reply tag .delete .backlog [])))) ∧
    (b.ballotHeld = false → (∀ q c, s.dev.cursor st q = some c → c.committed = b.next) → s.dev.offPlaceWait p →
      let d := s.dev.received p (.known tag .delete [streamByte st])
      let done := d.deleteStream st
      done.stream st = none ∧ done.incarnation st = s.dev.incarnation st ∧ (∀ q, done.cursor st q = none) ∧
      (d.writer.takesEntries = true → d.writer.nextSerial < 4294967295 →
        ∃ more, done.writer.staging = d.writer.staging ++
          ⟨d.writer.nextSerial, .streamDrop st (s.dev.incarnation st), .opened⟩ :: more) ∧
      (∀ n ∈ b.chain, n ∈ done.eraseQueue ∨ n ∈ done.badList) ∧
      ((∀ n ∈ b.chain, (s.dev.sector n).suspect = false) →
        done.eraseQueue = s.dev.eraseQueue ++ b.chain ∧ done.badList = s.dev.badList ∧
        (d.writer.takesEntries = true → d.writer.nextSerial < 4294967295 → ∀ n ∈ b.chain, n < 256 →
          done.sector n = { Sector.blank with
            state := .queued, eraseCount := (s.dev.sector n).eraseCount, mark := d.writer.nextSerial })) ∧
      (∀ q, b.readers.get q = true → q ≠ p → (s.dev.port q).attached = true →
        (done.events.get q).overflow = true ∨ ⟨.streamGone, some st.val, none⟩ ∈ (done.events.get q).queue) ∧
      (∀ q, b.readers.get q = false ∨ q = p → ⟨.streamGone, some st.val, none⟩ ∈ (done.events.get q).queue →
        ⟨.streamGone, some st.val, none⟩ ∈ (s.dev.events.get q).queue) ∧
      (d.placesFor (fun d => d.deleteStream st) p → exec (.delete p tag [streamByte st]) s =
        .next (s.onDev (Device.settled (done.awaitDurable p .none done.newestSerial)))) ∧
      (¬ d.placesFor (fun d => d.deleteStream st) p → exec (.delete p tag [streamByte st]) s =
        .next (s.onDev (Device.settled ((d.joinPlaceWait (.executor p)).toExecState p .waitStaging)))))

/-! ### Appends -/

/-- APPEND with a TAIL in its stream's chain. On an idle array its lowest UNUSED page is WRITING, the counters and high
flag brought up to date, and step 1 of the record on the array; on an array held by another the claim waits and no page
is taken, and at an erase that has run for 2 ms, with suspensions left, SUSPEND is issued in that event (R29, R36, R37,
R71, R87, R89). -/
def Obligations.AppendStartsStepOne : Prop :=
  ∀ (s : State) (p : Port) (tag t0 t1 : Byte) (payload : List Byte) (st : Fin 16) (b : StreamBody) (sector : Nat),
    s.dev.serves p → s.dev.writerOf p st b → b.held = false → 1 ≤ payload.length → payload.length ≤ 240 →
    b.next < 4294967295 → s.dev.tailOf b = some sector →
    let body := streamByte st :: t0 :: t1 :: payload
    let d := s.dev.received p (.known tag .append body)
    let claimed := d.toExec p .waitArray (.append ⟨st, .seek, 0, 0, 0, []⟩)
    (∀ page, (s.dev.sector sector).firstUnused = some page → s.dev.arrayIdle →
      exec (.append p tag body) s = .next (s.onDev
        (((d.takePage st sector page).toExec p .onArray (.append ⟨st, .step1, sector, page, 0, []⟩)).grantedTo p
          (.program sector page 0 (dataStep1 st (s.dev.incarnation st) p b.next [t0, t1] payload))))) ∧
    (s.dev.arbiter.holder ≠ none →
      (s.dev.engine.state ≠ .running ∨ (∀ e, s.dev.engine.current = some e → e.timer ≠ .reached ∨ 16 ≤ e.suspensions)) →
      exec (.append p tag body) s = .next (s.onDev claimed)) ∧
    ∀ e x, s.dev.arbiter.holder = some .engine → s.dev.engine.state = .running → s.dev.engine.current = some e →
      e.timer = .reached → e.suspensions < 16 → s.dev.eraseCtx = some x → x.phase = .running → x.abandon = false →
      exec (.append p tag body) s = .next (s.onDev { claimed with
        engine := { s.dev.engine with state := .suspending }
        arrayOp := .suspending
        eraseCtx := some { x with phase := .suspending } })

/-- APPEND without a page in the stream's TAIL: the refusals of R27 in their order; FULL at the quota under REFUSE;
below the quota the pool's first sector becomes the TAIL and the claim is placed, or with an empty pool NOSPACE or the
wait for space; at the quota under DROP_OLDEST, with its places, the head leaves the chain for the erase queue or the
bad list, every reader below X is raised to X, its lost count grows, its CURSOR entry is staged with both (replacing an
open one of its cursor in place, R106), and LOST tells it; a head that is not suspect is QUEUED with the mark that
covers those entries; RETIRE entries follow for what was retired; and then place finding goes on; without places it
waits and changes nothing (R14, R16, R27, R29 to R34). That the CURSOR entries of one drop go in the order of their
ports is the model's choice (log 9), and so is that the RETIRE entries follow when all sectors have left (log 38). -/
def Obligations.AppendOutcomesWithoutAPage : Prop :=
  ∀ (s : State) (p : Port) (tag t0 t1 : Byte) (payload : List Byte) (st : Fin 16) (b : StreamBody), s.dev.serves p →
    s.dev.writable p → s.dev.stream st = some b → payload.length ≤ 247 →
    let body := streamByte st :: t0 :: t1 :: payload
    let ends := fun (d : Device) => exec (.append p tag body) s = .next (s.onDev d)
    let answered := fun status => ends (s.dev.replied p (reply tag .append status []))
    (b.held = true → answered .held) ∧
    (b.held = false → b.writer ≠ p → answered .notWriter) ∧
    (b.held = false → b.writer = p → (payload = [] ∨ 240 < payload.length) → answered .badArg) ∧
    (b.held = false → b.writer = p → payload ≠ [] → payload.length ≤ 240 →
      (4294967295 ≤ b.next → answered .seqExhausted) ∧
      (b.next < 4294967295 → s.dev.tailOf b = none →
        let job : Job := .append ⟨st, .seek, 0, 0, 0, []⟩
        let d := s.dev.received p (.known tag .append body)
        let claim := fun (d : Device) => (d.allocate st).toExec p .waitArray job
        let wait := fun (d : Device) => { d.toExec p .waitSpace job with spaceWait := d.spaceWait ++ [p] }
        (b.quota ≤ b.chain.length → b.policy = .refuse → answered .full) ∧
        (b.chain.length < b.quota →
          (s.dev.freePool = [] → s.dev.eraseQueue = [] → answered .nospace) ∧
          (s.dev.freePool = [] → s.dev.eraseQueue ≠ [] → ends (wait d)) ∧
          ∀ n pool, s.dev.freePool = n :: pool → n < 256 →
            ends (claim d).settled ∧ (d.allocate st).freePool = pool ∧
            (d.allocate st).stream st = some { b with chain := b.chain ++ [n] } ∧
            (d.allocate st).sector n = { Sector.blank with
              state := .tail, owner := some (st, s.dev.incarnation st), eraseCount := (s.dev.sector n).eraseCount }) ∧
        (∀ head rest, b.quota ≤ b.chain.length → b.policy = .dropOldest → b.chain = head :: rest →
          s.dev.offPlaceWait p →
          let waiting := d.toExec p .check job
          let dropped := waiting.dropHead st
          let x := s.dev.chainOldest rest b.next
          (waiting.placesFor (fun d => d.dropHead st) p →
            (dropped.freePool ≠ [] → ends (claim dropped).settled) ∧
            (dropped.freePool = [] → dropped.eraseQueue = [] → ends (dropped.answer p .nospace []).settled) ∧
            (dropped.freePool = [] → dropped.eraseQueue ≠ [] → ends (wait dropped).settled)) ∧
          (¬ waiting.placesFor (fun d => d.dropHead st) p →
            ends ((waiting.joinPlaceWait (.executor p)).toExecState p .waitStaging).settled) ∧
          let entries := portList.filterMap fun q => (s.dev.cursor st q).bind fun c =>
            if b.readers.get q = true ∧ c.committed < x then
              some (MetaEntry.cursor st (s.dev.incarnation st) q x (min 65535 (c.lost + (x - c.committed))))
            else none
          let staged := entries.foldl Device.stage waiting
          (∃ groups : List (List Nat), (∀ g ∈ groups, 1 ≤ g.length ∧ g.length ≤ 8 ∧
              ∀ n ∈ g, n ∈ b.chain ∧ n ∈ dropped.badList) ∧
            dropped.writer = (groups.foldl (fun d g => d.stage (.retire g)) staged).writer) ∧
          (waiting.writer.takesEntries = true → waiting.writer.nextSerial + entries.length ≤ 4294967295 →
            ∀ entry ∈ entries, ∃ y ∈ dropped.writer.staging, y.cond = .opened ∧ y.entry = entry) ∧
          (head < 256 → head ∉ rest → (s.dev.sector head).suspect = false → dropped.sector head =
            { Sector.blank with
              state := .queued, eraseCount := (s.dev.sector head).eraseCount, mark := staged.writer.nextSerial - 1 }) ∧
          (head ∈ dropped.eraseQueue ∨ head ∈ dropped.badList) ∧
          (∃ b' k, dropped.stream st = some b' ∧ b'.chain = rest.drop k ∧ b'.next = b.next) ∧
          ∀ q c, b.readers.get q = true → s.dev.cursor st q = some c →
            (x ≤ c.committed → dropped.cursor st q = some c) ∧
            (c.committed < x →
              let lost := min 65535 (c.lost + (x - c.committed))
              (∃ c', dropped.cursor st q = some c' ∧ c'.committed = x ∧ c'.delivered = max c.delivered x ∧
                c'.lost = lost ∧ c'.level = c.level) ∧
              ((s.dev.port q).attached = true → (dropped.events.get q).overflow = true ∨
                ⟨.lost, some st.val, some lost⟩ ∈ (dropped.events.get q).queue)))))

/-! ### Ballots -/

/-- PROPOSE by a party: BALLOT_BUSY unless the consent unit is IDLE; otherwise the ballot is open with the next id and
the proposer agreed, its stream held, BALLOT_OPEN with the other parties; a sole party's ballot passes at once; from a
port that is no party NOT_PARTY; an operation byte neither 01h nor 02h BAD_ARG (R140, R141). -/
def Obligations.ProposeOpensABallot : Prop :=
  (∀ (s : State) (p : Port) (tag operation x : Byte), s.dev.serves p → (s.dev.port p).attached = true →
    (s.dev.mode = .ready ∨ s.dev.mode = .readOnly ∨ s.dev.mode = .blank) → operation ≠ 0x01#8 → operation ≠ 0x02#8 →
    exec (.propose p tag [operation, x]) s = .next (s.onDev (s.dev.replied p (reply tag .propose .badArg [])))) ∧
  ∀ (s : State) (p : Port) (tag : Byte) (body : List Byte) (op : BallotOp) (parties : PortSet), s.dev.serves p →
    (s.dev.port p).attached = true →
    ((∃ x, body = [0x02#8, x]) ∧ op = .format ∧ parties = s.dev.attachedPorts ∧
        (s.dev.mode = .ready ∨ s.dev.mode = .readOnly ∨ s.dev.mode = .blank) ∨
      (∃ st b, body = [0x01#8, streamByte st] ∧ op = .purge st (s.dev.incarnation st) ∧
        s.dev.stream st = some b ∧ parties = b.readers.set b.writer true) ∧ s.dev.mode = .ready) →
    let id := s.dev.consent.counter + 1
    let bl : Ballot := ⟨id, op, p, parties, (PerPort.all false).set p true⟩
    let held := ({ s.dev with consent :=
      { s.dev.consent with state := .opened, counter := id, ballot := some bl } } : Device).holdBallotStream op true
    let d := (held.offerSet (parties.set p false) ⟨.ballotOpen, some id.toNat, some op.code⟩).replied p
      (reply tag .propose .ok [id])
    (parties.get p = false → exec (.propose p tag body) s =
      .next (s.onDev (s.dev.replied p (reply tag .propose .notParty [])))) ∧
    (parties.get p = true → s.dev.consent.state ≠ .idle → exec (.propose p tag body) s =
      .next (s.onDev (s.dev.replied p (reply tag .propose .ballotBusy [])))) ∧
    (parties.get p = true → s.dev.consent.state = .idle → (∃ q, q ≠ p ∧ parties.get q = true) →
      exec (.propose p tag body) s = .next (s.onDev d)) ∧
    (parties.get p = true → s.dev.consent.state = .idle → (∀ q, q ≠ p → parties.get q = false) →
      exec (.propose p tag body) s = .next (s.onDev (d.passBallot bl).settled))

/-- AGREE and REFUSE of the open ballot by a party that has not agreed: the vote is counted, the last one passes the
ballot, a refusal closes it REFUSED; another id is STALE, another port NOT_PARTY, a second vote VOTED (R142). -/
def Obligations.VotesCountOrClose : Prop :=
  ∀ (s : State) (p : Port) (tag id : Byte), s.dev.serves p → (s.dev.port p).attached = true →
    (s.dev.mode = .ready ∨ s.dev.mode = .readOnly ∨ s.dev.mode = .blank) →
    (s.dev.consent.state ≠ .opened ∨ s.dev.consent.ballot = none ∨
        (∃ bl, s.dev.consent.ballot = some bl ∧ bl.id ≠ id) →
      exec (.agree p tag [id]) s = .next (s.onDev (s.dev.replied p (reply tag .agree .stale []))) ∧
      exec (.refuse p tag [id]) s = .next (s.onDev (s.dev.replied p (reply tag .refuse .stale [])))) ∧
    ∀ bl, s.dev.consent.state = .opened → s.dev.consent.ballot = some bl → bl.id = id →
      (bl.parties.get p = false →
        exec (.agree p tag [id]) s = .next (s.onDev (s.dev.replied p (reply tag .agree .notParty []))) ∧
        exec (.refuse p tag [id]) s = .next (s.onDev (s.dev.replied p (reply tag .refuse .notParty [])))) ∧
      (bl.parties.get p = true → bl.agreed.get p = true →
        exec (.agree p tag [id]) s = .next (s.onDev (s.dev.replied p (reply tag .agree .voted []))) ∧
        exec (.refuse p tag [id]) s = .next (s.onDev (s.dev.replied p (reply tag .refuse .voted [])))) ∧
      (bl.parties.get p = true → bl.agreed.get p = false →
        let counted : Ballot := { bl with agreed := bl.agreed.set p true }
        let d := ({ s.dev.replied p (reply tag .agree .ok []) with
          consent := { s.dev.consent with ballot := some counted } } : Device)
        (bl.parties.subset counted.agreed = false → exec (.agree p tag [id]) s = .next (s.onDev d)) ∧
        (bl.parties.subset counted.agreed = true →
          exec (.agree p tag [id]) s = .next (s.onDev (d.passBallot counted).settled)) ∧
        exec (.refuse p tag [id]) s = .next (s.onDev
          ((s.dev.replied p (reply tag .refuse .ok [])).closeBallot .refused)))

/-- A ballot closes: stream no longer held, BALLOT_DONE with the outcome to its parties, the ballot discarded, and but
for a pass the unit IDLE (R145); the window's end closes it EXPIRED (R143). A passed PURGE waits while the writer's
append is in flight, is discarded where the stream is gone, and otherwise, with its places, empties the stream in one
event: every cursor at the next sequence with its lost count kept, its CURSOR entry with both staged (replacing an open
one of its cursor in place, R106), every chain sector in the erase queue, QUEUED with the mark that covers those entries
where it is not suspect, or in the bad list with its RETIRE entry, the counters and flags anew; without places it waits
for them (R14, R16, R146 to R148). A passed FORMAT puts the part in
FORMATTING: the waits answered ABORTED, the buffer and slot emptied, no active half, STATE to every attached port, and
once the array has drained the inactive half's sectors in the slot (R149; with no active half the choice of half 0 is
the model's outside BLANK, log 36). That the passed purge is the first consequence taken is the model's order (log 7),
that an append in flight puts it off under a halted writer too is log 37, that the CURSOR entries go in the order of
their ports log 9, and that the RETIRE entries follow when all have left log 38. -/
def Obligations.BallotClosesInOneEvent : Prop :=
  (∀ (d : Device) (bl : Ballot) (outcome : BallotOutcome), d.consent.ballot = some bl →
    let d' := d.closeBallot outcome
    d'.consent.ballot = none ∧
    (outcome ≠ .passed → d'.consent = { d.consent with ballot := none, state := .idle }) ∧
    (∀ st inc b, bl.op = .purge st inc → d.stream st = some b →
      d'.stream st = some { b with ballotHeld := false }) ∧
    (∀ q, bl.parties.get q = true → (d.port q).attached = true →
      d'.events.get q = (d.events.get q).offer ⟨.ballotDone, some bl.id.toNat, some outcome.code⟩) ∧
    (∀ q, (bl.parties.get q = false ∨ (d.port q).attached = false) → d'.events.get q = d.events.get q) ∧
    (∀ st inc, bl.op = .purge st inc → d.passBallot bl =
      { d.closeBallot .passed with
        consent := { d.consent with ballot := none, state := .purgePending, pending := some (st, inc) } }) ∧
    (bl.op = .format →
      let f := d.passBallot bl
      f.mode = .formatting ∧ f.reason = .none ∧ f.consent.state = .formatDrain ∧ f.consent.formatErased = 0 ∧
      f.consent.formatHalf = (match d.writer.activeHalf with | some h => 1 - h | none => 0) ∧
      f.writer.activeHalf = none ∧ f.writer.staging = [] ∧ f.writer.placeWait = [] ∧ f.writer.phase = .none ∧
      (d.arbiter.holder ≠ some .writer → f.writer.state = .idle) ∧ f.engine.slot = [] ∧ f.engine.outcome = none ∧
      f.arbiter.starved = false ∧ f.spaceWait = [] ∧ f.streams = d.streams ∧ f.cursors = d.cursors ∧
      f.freePool = d.freePool ∧ f.eraseQueue = d.eraseQueue ∧ f.badList = d.badList ∧
      (∀ q, (d.port q).attached = true → f.events.get q =
        (if bl.parties.get q then (d.events.get q).offer ⟨.ballotDone, some bl.id.toNat, some 1⟩
          else d.events.get q).offer ⟨.state, none, some 5⟩) ∧
      ∀ q, ((d.exec q).state = .waitSpace ∨ (d.exec q).state = .waitStaging ∨
          ∃ serial, (d.exec q).state = .waitDurable serial) →
        f.exec q = Executor.rest ∧ ∀ r, (d.exec q).inHand = some r →
          (f.port q).responses = (d.port q).responses ++ [⟨r.label.1, r.label.2, .aborted, []⟩])) ∧
  (∀ (s : State) (bl : Ballot), s.dev.active = true → s.dev.quiet → s.dev.consent.ballot = some bl →
    exec .windowTimerExpiry s = .next (s.onDev (s.dev.closeBallot .expired))) ∧
  (∀ (d : Device) (st : Fin 16) (inc : Byte), d.consent.state = .purgePending → d.consent.pending = some (st, inc) →
    let finish := fun (d : Device) =>
      { d.leavePlaceWait .consent with consent := { d.consent with state := .idle, pending := none } }
    (d.stream st = none ∨ d.incarnation st ≠ inc → d.consequence = some (finish d)) ∧
    ∀ b, d.stream st = some b → d.incarnation st = inc →
      ((d.exec b.writer).inFlightOn st = true → d.stepPurge = none) ∧
      ((d.exec b.writer).inFlightOn st = false →
        (d.placesSuffice .consent (d.placesNeeded fun d => d.purgeStream st) = true →
          d.consequence = some (finish (d.purgeStream st))) ∧
        (d.placesSuffice .consent (d.placesNeeded fun d => d.purgeStream st) = false →
          d.consequence = some { d.joinPlaceWait .consent with
            consent := { d.consent with state := .purgeStaging } }))) ∧
  (∀ (d : Device) (st : Fin 16) (b : StreamBody), d.stream st = some b →
    let e := d.purgeStream st
    (∃ b', e.stream st = some b' ∧ b'.next = b.next ∧ b'.oldest = b.next ∧ b'.chain = [] ∧ b'.used = 0 ∧
      b'.high = decide (b.quota * 16 ≤ b.margin) ∧ b'.held = b.held ∧ b'.writer = b.writer ∧
      b'.readers = b.readers ∧ b'.quota = b.quota ∧ b'.margin = b.margin ∧ b'.policy = b.policy) ∧
    let entries := portList.filterMap fun q => (d.cursor st q).map fun c =>
      MetaEntry.cursor st (d.incarnation st) q b.next c.lost
    let staged := entries.foldl Device.stage d
    (∃ groups : List (List Nat), (∀ g ∈ groups, 1 ≤ g.length ∧ g.length ≤ 8 ∧ ∀ n ∈ g, n ∈ b.chain ∧ n ∈ e.badList) ∧
      e.writer = (groups.foldl (fun d g => d.stage (.retire g)) staged).writer) ∧
    (d.writer.takesEntries = true → d.writer.nextSerial + entries.length ≤ 4294967295 →
      ∀ entry ∈ entries, ∃ y ∈ e.writer.staging, y.cond = .opened ∧ y.entry = entry) ∧
    (∀ n ∈ b.chain, n < 256 → (d.sector n).suspect = false → e.sector n =
      { Sector.blank with
        state := .queued, eraseCount := (d.sector n).eraseCount, mark := staged.writer.nextSerial - 1 }) ∧
    e.incarnation st = d.incarnation st ∧ e.freePool = d.freePool ∧
    (∀ n ∈ b.chain, n ∈ e.eraseQueue ∨ n ∈ e.badList) ∧
    (∀ q, d.cursor st q = none → e.cursor st q = none) ∧
    (∀ q c, d.cursor st q = some c → ∃ c', e.cursor st q = some c' ∧ c'.committed = b.next ∧
      c'.delivered = b.next ∧ c'.lost = c.lost ∧ c'.level = c.level ∧ c'.flag = false) ∧
    ∀ st' q, st' ≠ st → e.cursor st' q = d.cursor st' q) ∧
  ∀ d : Device, d.consent.state = .formatDrain → d.arbiter.holder = none → d.arrayOp = .none → d.eraseCtx = none →
    d.someExecClaims = false → d.writerClaims = false → d.engineClaims = false →
    d.stepDrain = some { d with
      consent := { d.consent with state := .formatErase }
      engine := { d.engine with slot := [2 * d.consent.formatHalf, 2 * d.consent.formatHalf + 1] } }

/-! ### SYNC and the timers -/

/-- SYNC: answered at once when everything staged is durable, READ_ONLY from a halted writer, otherwise a durable waiter
for the newest serial (R173). -/
def Obligations.SyncAnswersOrWaits : Prop :=
  ∀ (s : State) (p : Port) (tag : Byte), s.dev.serves p → (s.dev.mode = .ready ∨ s.dev.mode = .readOnly) →
    (s.dev.port p).attached = true →
    let target := s.dev.writer.nextSerial - 1
    (target ≤ s.dev.writer.durableSerial → exec (.sync p tag []) s = .next (s.onDev
      (s.dev.replied p (reply tag .sync .ok (bigEndian 4 s.dev.writer.durableSerial))))) ∧
    (s.dev.writer.durableSerial < target →
      (s.dev.writer.state = .halted → exec (.sync p tag []) s =
        .next (s.onDev (s.dev.replied p (reply tag .sync .readOnly [])))) ∧
      (s.dev.writer.state ≠ .halted → exec (.sync p tag []) s = .next (s.onDev (Device.settled
        ((s.dev.received p (.known tag .sync [])).toExec p (.waitDurable target) .none)))))

/-- The space timer: its executor leaves the list and is answered NOSPACE, or by the check that now fails (R35). The
flush timer's expiry is a trigger: on an array held by an executor, the idle writer's claim for a journal page waits; at
an erase that has run for 2 ms, with suspensions left, SUSPEND is issued in that event (R89, R109). The starvation timer
sets the flag, which the next grant sees (R87, R91); the run timer's end issues SUSPEND if a claim waits and budget
remains, and otherwise is only noted (R80, R89). -/
def Obligations.TimersActOnExpiry : Prop :=
  (∀ (s : State) (p : Port), s.dev.active = true → (s.dev.exec p).state = .waitSpace →
    let d : Device := { s.dev with spaceWait := s.dev.spaceWait.filter (· != p) }
    exec (.spaceTimerExpiry p) s = .next (s.onDev (Device.settle
      (match s.dev.appendCheck p (s.dev.appendBody p) with
        | .ok _ => d.answer p .nospace []
        | .error status => d.answer p status [])))) ∧
  (∀ s : State, s.dev.active = true → s.dev.writer.timerRunning = true →
      let w := { s.dev.writer with timerRunning := false, timerExpired := true }
      exec .flushTimerExpiry s = .next (s.onDev (Device.settle { s.dev with writer := w })) ∧
      (s.dev.quiet → (s.dev.mode = .ready ∨ s.dev.mode = .readOnly) → s.dev.writer.state = .idle →
        s.dev.writer.activeHalf.isSome = true → s.dev.writer.hasOpen = true → s.dev.writer.phase = .none →
        s.dev.writer.writePos < 32 → (∃ q, s.dev.arbiter.holder = some (.executor q)) →
        s.dev.engine.state ≠ .running →
        exec .flushTimerExpiry s = .next (s.onDev { s.dev with writer := { w with state := .claim1 } })) ∧
      (∀ c x, s.dev.quiet → (s.dev.mode = .ready ∨ s.dev.mode = .readOnly) → s.dev.writer.state = .idle →
        s.dev.writer.activeHalf.isSome = true → s.dev.writer.hasOpen = true → s.dev.writer.phase = .none →
        s.dev.writer.writePos < 32 → s.dev.arbiter.holder = some .engine → s.dev.engine.state = .running →
        s.dev.engine.current = some c → c.timer = .reached → c.suspensions < 16 → s.dev.eraseCtx = some x →
        x.phase = .running → x.abandon = false →
        exec .flushTimerExpiry s = .next (s.onDev { s.dev with
          writer := { w with state := .claim1 }
          engine := { s.dev.engine with state := .suspending }
          arrayOp := .suspending
          eraseCtx := some { x with phase := .suspending } }))) ∧
  ∀ s : State, s.dev.active = true → s.dev.quiet →
    (s.dev.arbiter.starveTimer = true → s.dev.arbiter.holder ≠ none → exec .starvationTimerExpiry s =
      .next (s.onDev { s.dev with arbiter := { s.dev.arbiter with starved := true, starveTimer := false } })) ∧
    ∀ c x, s.dev.engine.current = some c → s.dev.eraseCtx = some x → s.dev.engine.state = .running →
      c.timer = .running → x.phase = .running → x.abandon = false → s.dev.arbiter.holder ≠ none →
      let current := some { c with timer := RunTimer.reached }
      ((s.dev.someExecClaims = false ∧ s.dev.writerClaims = false ∨ 16 ≤ c.suspensions) →
        exec .runTimerExpiry s = .next (s.onDev { s.dev with engine := { s.dev.engine with current := current } })) ∧
      ((s.dev.someExecClaims = true ∨ s.dev.writerClaims = true) → c.suspensions < 16 →
        exec .runTimerExpiry s = .next (s.onDev
          { s.dev with
            engine := { s.dev.engine with current := current, state := .suspending }
            arrayOp := .suspending
            eraseCtx := some { x with phase := .suspending } }))

/-- The grant on an idle array: the writer, then a starved engine, then the executors after the pointer, then the engine
(R87). -/
def Obligations.GrantsFollowTheFourRules : Prop :=
  ∀ d : Device,
    (d.writerClaims = true → d.nextClaimant = some .writer) ∧
    (d.writerClaims = false → d.engineClaims = true → d.arbiter.starved = true → d.nextClaimant = some .engine) ∧
    (d.writerClaims = false → (d.engineClaims = false ∨ d.arbiter.starved = false) →
      (∀ p q r, (d.arbiter.pointer, p, q, r) ∈ [(Port.A, Port.B, Port.C, Port.A), (Port.B, Port.C, Port.A, Port.B),
          (Port.C, Port.A, Port.B, Port.C)] →
        (d.execClaims p = true → d.nextClaimant = some (.executor p)) ∧
        (d.execClaims p = false → d.execClaims q = true → d.nextClaimant = some (.executor q)) ∧
        (d.execClaims p = false → d.execClaims q = false → d.execClaims r = true →
          d.nextClaimant = some (.executor r)) ∧
        (d.execClaims p = false → d.execClaims q = false → d.execClaims r = false →
          d.nextClaimant = if d.engineClaims then some .engine else none)))

/-- What a grant starts. The metadata writer: step 1 of a journal page formed from up to 15 open entries of lowest
serial, which become taken, the write position one more, the flush timer as R110 says; step 1 of a checkpoint page from
the next 15 entries of the list (R118); or the commit mark (R74). An executor: step 1 of an append on the lowest UNUSED
page of its stream's TAIL, or the answer or new search that R36 and R46 give; step 2, the commit mark (R38), or in
FORMATTING the page VOID and ABORTED; a READ of the record delivered names, or the answer R53 gives. The erase engine:
ERASE SECTOR on the slot's first sector or the erase queue's durable head, RESUME of a suspended erase, or the array
released at once (R79, R81, R91, R95). The round-robin pointer moves to the executor granted (R87). That a journal
page's grant ends the trigger of the timer's expiry is read from R109 (log 23). -/
def Obligations.GrantsStartTheirOperations : Prop :=
  (∀ d : Device,
    (d.arbiter.holder = none → d.arrayOp = .none → d.mode ≠ .mounting → d.mode ≠ .stopped →
      d.stepGrant = d.nextClaimant.map d.grant) ∧
    ((d.arbiter.holder ≠ none ∨ d.arrayOp ≠ .none ∨ d.mode = .mounting ∨ d.mode = .stopped) → d.stepGrant = none)) ∧
  (∀ (d : Device) (half : Nat),
    let w := d.writer
    let held : Device := { d with arbiter := { d.arbiter with holder := some .writer } }
    (∀ g, w.state = .claim2 → w.inFlight = some g → d.grant .writer = { held with
      writer := { w with state := .program2, inFlight := some { g with step2 := true } }
      arrayOp := .program (2 * g.half + g.page / 16) (g.page % 16) 14 [0x00#8] }) ∧
    (w.state = .claim1 → w.phase = .checkpoint →
      let entries := (w.list.drop w.written).take 15
      d.grant .writer = { held with
        writer := { w with
          state := .program1, checkpointPos := w.checkpointPos + 1
          inFlight := some ⟨w.target, w.checkpointPos, .checkpoint, w.generation + 1, w.written, entries, false, false,
            .kept⟩ }
        arrayOp := .program (2 * w.target + w.checkpointPos / 16) (w.checkpointPos % 16) 0
          (metaStep1 (w.generation + 1) w.written .checkpoint entries) }) ∧
    (w.state = .claim1 → w.phase ≠ .checkpoint → w.activeHalf = some half →
      ∃ (page : List Staged) (staging : List Staged) (first : Nat),
        page = (w.staging.filter fun x => x.cond = .opened).take 15 ∧ (∀ x, page.head? = some x → first = x.serial) ∧
        staging.length = w.staging.length ∧
        (∀ (i : Nat) (x : Staged), w.staging[i]? = some x → staging[i]? = some
          (if x.cond = .opened ∧ ((w.staging.take i).filter fun y => y.cond = .opened).length < 15
            then { x with cond := .taken } else x)) ∧
        (w.staging.Pairwise (fun x y => x.serial < y.serial) → ∀ x ∈ page, ∀ y ∈ w.staging,
          y.cond = .opened → y ∉ page → x.serial < y.serial) ∧
        d.grant .writer = { held with
          writer := { w with
            state := .program1, staging := staging, writePos := w.writePos + 1, timerExpired := false
            timerRunning := decide (∃ x ∈ staging, x.cond = .opened)
            inFlight := some ⟨half, w.writePos, .journal, w.generation, first, page.map Staged.entry, false, false,
              .kept⟩ }
          arrayOp := .program (2 * half + w.writePos / 16) (w.writePos % 16) 0
            (metaStep1 w.generation first .journal (page.map Staged.entry)) })) ∧
  (∀ (d : Device) (p : Port) (j : AppendJob), (d.exec p).job = .append j →
    let held : Device := { d with arbiter := { d.arbiter with holder := some (.executor p), pointer := p } }
    let freed := held.release
    (j.phase = .seek →
      (d.mode = .readOnly → d.grant (.executor p) = freed.answer p .readOnly []) ∧
      (d.mode ≠ .readOnly → d.mode ≠ .ready → d.grant (.executor p) = freed.answer p .aborted []) ∧
      (d.mode = .ready →
        (d.stream j.stream = none → d.grant (.executor p) = freed.answer p .noStream []) ∧
        ∀ b, d.stream j.stream = some b →
          (d.tailOf b = none → d.grant (.executor p) = freed.findPlace p j) ∧
          ∀ n page t0 t1 payload tag, d.tailOf b = some n → (d.sector n).firstUnused = some page → n < 256 →
            (d.exec p).inHand = some (.known tag .append (streamByte j.stream :: t0 :: t1 :: payload)) →
            let taken : Sector := (d.sector n).setPage page .writing
            let e := d.grant (.executor p)
            e.arbiter = held.arbiter ∧
            e.arrayOp = .program n page 0
              (dataStep1 j.stream (d.incarnation j.stream) b.writer b.next [t0, t1] payload) ∧
            e.exec p = { d.exec p with
              state := .onArray, job := .append { j with phase := .step1, sector := n, page := page } } ∧
            e.sector n = { taken with state := if page = 15 then .filled else taken.state } ∧
            (∀ m, m ≠ n → e.sector m = d.sector m) ∧
            e.stream j.stream = some { b with
              used := e.chainUsed b.chain, oldest := e.chainOldest b.chain b.next
              high := decide (b.quota * 16 - e.chainUsed b.chain ≤ b.margin) })) ∧
    (j.phase = .between →
      (d.mode ≠ .formatting → d.grant (.executor p) = { held.toExec p .onArray (.append { j with phase := .step2 }) with
        arrayOp := .program j.sector j.page 14 [0x00#8] }) ∧
      (d.mode = .formatting → d.grant (.executor p) = (freed.abandonPage p j).answer p .aborted []))) ∧
  (∀ (d : Device) (p : Port) (st : Fin 16) (inc : Byte), (d.exec p).job = .read st inc →
    let held : Device := { d with arbiter := { d.arbiter with holder := some (.executor p), pointer := p } }
    let ends := fun status => d.grant (.executor p) = held.release.answer p status []
    (d.mode = .formatting → ends .aborted) ∧
    (d.mode ≠ .formatting →
      (d.stream st = none ∨ d.incarnation st ≠ inc → ends .noStream) ∧
      ∀ b, d.stream st = some b → d.incarnation st = inc →
        (d.cursor st p = none → ends .notReader) ∧
        ∀ c, d.cursor st p = some c →
          (c.delivered = b.next → ends .empty) ∧
          ∀ n page, c.delivered ≠ b.next → d.locate b.chain c.delivered = some (n, page) →
            (d.sector n).pageList[page]? = some (.live c.delivered) ∧ n ∈ b.chain ∧
            d.grant (.executor p) = { held.toExec p .onArray (.reading st inc c.delivered n page) with
              arrayOp := .read n page })) ∧
  ∀ d : Device,
    let held := fun (x : Engine) => ({ d with
      engine := x, arbiter := { d.arbiter with holder := some .engine, starved := false, starveTimer := false } } : Device)
    let starts := fun (d : Device) (n : Nat) (source : EraseSource) => ({ d with
      engine := { d.engine with state := .running, current := some ⟨n, source, 0, .running⟩ }
      arrayOp := .erase, eraseCtx := some ⟨n, 0, .running, false⟩ } : Device)
    let idle : Device := { held { d.engine with state := .idle } with
      arrayOp := .none, arbiter := { d.arbiter with holder := none, starved := false, starveTimer := false } }
    (d.engine.state ≠ .suspended →
      (∀ n rest, d.engine.slot = n :: rest →
        (slotMode d.mode = true → d.grant .engine = starts (held { d.engine with slot := rest }) n .slot) ∧
        (slotMode d.mode = false → d.grant .engine = idle)) ∧
      (d.engine.slot = [] →
        (∀ n rest, d.eraseQueue = n :: rest → d.mode = .ready → (d.sector n).state = .queued →
          ((d.sector n).mark ≤ d.writer.durableSerial → d.grant .engine =
            starts ((held d.engine).setSector n { d.sector n with state := .erasing }) n .queue) ∧
          (d.writer.durableSerial < (d.sector n).mark → d.grant .engine = idle)) ∧
        ((d.mode ≠ .ready ∨ d.eraseQueue = [] ∨ ∃ n rest, d.eraseQueue = n :: rest ∧ (d.sector n).state ≠ .queued) →
          d.grant .engine = idle))) ∧
    ∀ c x, d.engine.state = .suspended → d.engine.current = some c → d.eraseCtx = some x →
      let on : Device := { held { d.engine with state := .running, current := some { c with timer := .running } } with
        arrayOp := .erase, eraseCtx := some { x with phase := .running } }
      (c.source = .slot → d.grant .engine = on) ∧
      (c.source = .queue → d.grant .engine = on.setSector c.sector { d.sector c.sector with state := .erasing })

/-- What comes about between commands. The idle writer claims step 1 of the next checkpoint page while the list has
entries left, and halts where the target half has no page for them; else of a journal page, where the buffer holds an
open entry, the phase is not CHECKPOINT and the write position below 32, once a trigger is present: 15 entries, a
durable waiter on an open entry, a producer on the place-wait list, or the flush timer expired (R109, R118, R121). The
erase engine with no current erase and no outcome in hand chooses: the slot
where the device state lets it, else in READY the QUEUED head of the erase queue, CLAIMING where its mark is durable and
GATED where it is not, else IDLE; a claim placed starts the starvation timer, one given up clears it (R91, R94). A
compaction begins in READY and READ_ONLY once the half is broken or its write position 24: the other half's sectors in
the slot (R114). The snapshot, once both are erased and the writer is IDLE: every entry covered, the list formed, the
timer stopped, the places offered (R116). The checkpoint list, in R117's order: definitions and drops by number, cursors
by the writer's record, 63 WEAR entries, the bad list eight to an entry, CHECKPOINT_END with its length, at most 132;
FORMAT's counts every number FREE (R150). Its order among the consequences of an event is the model's (log 7), and so is
the cut of the bad list into eights (log 10); that a compaction may begin with FORMAT's commit is read from R114 (log
52), and that the timer's expiry stands through a snapshot is read from R109 (log 23). -/
def Obligations.ChoiceAndCompactionFollowTheTables : Prop :=
  (∀ d : Device,
    let w := d.writer
    let works : Prop := (d.mode = .ready ∨ d.mode = .readOnly ∨ d.mode = .formatting) ∧ w.state = .idle
    let listed : Prop := w.phase = .checkpoint ∧ w.written < w.list.length
    let page : Prop := w.activeHalf ≠ none ∧ (∃ x ∈ w.staging, x.cond = .opened) ∧ w.phase ≠ .checkpoint ∧
      w.writePos < 32
    let trigger : Prop := 15 ≤ w.staging.length ∨
      (∃ q serial x, (d.exec q).state = .waitDurable serial ∧ x ∈ w.staging ∧ x.serial = serial ∧ x.cond = .opened) ∨
      w.placeWait ≠ [] ∨ w.timerExpired = true
    let claims := d.stepClaim = some { d with writer := { w with state := .claim1 } }
    (¬ works → d.stepClaim = none) ∧
    (works → listed → w.checkpointPos < 32 → claims) ∧
    (works → listed → 32 ≤ w.checkpointPos → d.stepClaim = some d.haltWriter) ∧
    (works → ¬ listed → page → trigger → claims) ∧
    (works → ¬ listed → ¬ (page ∧ trigger) → d.stepClaim = none)) ∧
  (∀ d : Device,
    let slotFirst : Prop := d.engine.slot ≠ [] ∧
      (d.mode = .ready ∨ d.mode = .readOnly ∨ d.mode = .blank ∨ d.mode = .formatting)
    let enters := fun (c : EngineState) (a : Arbiter) => (d.engine.state = c → d.stepChoice = none) ∧
      (d.engine.state ≠ c → d.stepChoice = some { d with engine := { d.engine with state := c }, arbiter := a })
    let claims := enters .claiming { d.arbiter with starveTimer := true }
    let rests := fun c => enters c { d.arbiter with starved := false, starveTimer := false }
    ((d.engine.current ≠ none ∨ d.engine.outcome ≠ none) → d.stepChoice = none) ∧
    (d.engine.current = none → d.engine.outcome = none →
      (slotFirst → claims) ∧
      (¬ slotFirst →
        (∀ n rest, d.eraseQueue = n :: rest → d.mode = .ready → (d.sector n).state = .queued →
          ((d.sector n).mark ≤ d.writer.durableSerial → claims) ∧
          (d.writer.durableSerial < (d.sector n).mark → rests .gated)) ∧
        ((d.eraseQueue = [] ∨ d.mode ≠ .ready ∨ ∃ n rest, d.eraseQueue = n :: rest ∧ (d.sector n).state ≠ .queued) →
          rests .idle)))) ∧
  (∀ (d : Device) (half : Nat), d.writer.activeHalf = some half →
    let due : Prop := (d.mode = .ready ∨ d.mode = .readOnly) ∧ d.writer.state ≠ .halted ∧ d.writer.state ≠ .dormant ∧
      d.writer.phase = .none ∧ (24 ≤ d.writer.writePos ∨ d.writer.broken = true)
    (due → d.stepCompaction = some { d with
      writer := { d.writer with phase := .erasing, target := 1 - half, erased := 0 }
      engine := { d.engine with slot := [2 * (1 - half), 2 * (1 - half) + 1] } }) ∧
    (¬ due → d.stepCompaction = none)) ∧
  (∀ d : Device,
    let due : Prop := d.writer.phase = .erasing ∧ 2 ≤ d.writer.erased ∧ d.writer.state = .idle ∧ d.mode ≠ .stopping
    (due → d.stepSnapshot = some (Device.offerPlaces { d with writer := { d.writer with
      snapshot := d.writer.nextSerial, forFormat := false, timerRunning := false
      staging := d.writer.staging.map fun x => { x with cond := .covered }
      list := d.checkpointList d.writer.nextSerial false
      phase := .checkpoint, written := 0, checkpointPos := 0 } })) ∧
    (¬ due → d.stepSnapshot = none)) ∧
  ∀ (d : Device) (snapshot : Nat) (format : Bool),
    let list := d.checkpointList snapshot format
    ∃ (drops cursors wear : List MetaEntry) (groups : List (List Nat)),
      list = drops ++ cursors ++ wear ++ groups.map .retire ++ [.checkpointEnd snapshot list.length] ∧
      drops = ((List.finRange 16).flatMap fun st =>
        match d.stream st, format with
        | some b, false => [.streamDef st (d.incarnation st) b.writer b.readers b.held b.policy b.nameTag b.quota b.margin
            b.next]
        | _, _ => if d.incarnation st = 0 then [] else [.streamDrop st (d.incarnation st)]) ∧
      cursors = ((List.finRange 16).flatMap fun st => [Port.A, Port.B, Port.C].flatMap fun p =>
        match d.cursor st p, format with
        | some c, false => [.cursor st (d.incarnation st) p c.recCommitted c.recLost]
        | _, _ => []) ∧
      wear = ((List.range 63).map fun k => .wear (4 + 4 * k) (d.sector (4 + 4 * k)).eraseCount
        (d.sector (5 + 4 * k)).eraseCount (d.sector (6 + 4 * k)).eraseCount (d.sector (7 + 4 * k)).eraseCount) ∧
      groups.flatten = d.badList ∧ (∀ g ∈ groups, 1 ≤ g.length ∧ g.length ≤ 8) ∧
      (∀ g ∈ groups.dropLast, g.length = 8) ∧
      (d.badList.length ≤ 32 → list.length ≤ 132)

/-! ### Reports of the array: reads -/

/-- A page read of an executor completes: nothing for an ended request; ABORTED in FORMATTING; NO_STREAM and NOT_READER
where the stream or cursor is gone; otherwise OK with the record where the page passes the eight checks of R54, or
CORRUPT, delivered moving past it in both cases (R54 to R56). That FORMATTING goes before a stream or cursor gone is the
model's choice (log 46). That it moves no further than the next sequence, which a
record of this stream never reaches, is the model's choice (log 45). -/
def Obligations.PageReadAnswersTheReader : Prop :=
  (∀ (bytes : List Byte) (st : Fin 16) (inc : Byte) (seq : Nat),
    recordGood bytes st inc seq = true ↔
      crcBytes (bytes.take 10) = (bytes.drop 10).take 2 ∧ (byteAt bytes 0).toNat = st.val ∧ byteAt bytes 1 = inc ∧
        fieldAt bytes 4 4 = seq ∧ (1 ≤ (byteAt bytes 2).toNat ∧ (byteAt bytes 2).toNat ≤ 240) ∧
        byteAt bytes 14 = 0x00#8 ∧ byteAt bytes 15 = 0xFF#8 ∧
        crcBytes ((bytes.drop 16).take (byteAt bytes 2).toNat) = (bytes.drop 12).take 2) ∧
  ∀ (s : State) (p : Port) (st : Fin 16) (inc : Byte) (seq n k sector page : Nat), s.dev.active = true →
    s.dev.arbiter.holder = some (.executor p) → s.dev.arrayOp = .read sector page →
    (s.dev.exec p).job = .reading st inc seq n k →
    let bytes := s.flash.readPage sector page
    let d := s.dev.release
    ((s.dev.exec p).inHand = none →
      exec .readPageDone s = .next (s.onDev (d.setExec p Executor.rest).settle)) ∧
    ∀ r, (s.dev.exec p).inHand = some r →
      (s.dev.mode = .formatting → exec .readPageDone s = .next (s.onDev (d.answer p .aborted []).settle)) ∧
      (s.dev.mode ≠ .formatting →
        (s.dev.stream st = none ∨ s.dev.incarnation st ≠ inc →
          exec .readPageDone s = .next (s.onDev (d.answer p .noStream []).settle)) ∧
        ∀ b, s.dev.stream st = some b → s.dev.incarnation st = inc →
          (s.dev.cursor st p = none →
            exec .readPageDone s = .next (s.onDev (d.answer p .notReader []).settle)) ∧
          ∀ c, s.dev.cursor st p = some c →
            let d' := d.setCursor st p (some { c with delivered := max c.delivered (min (seq + 1) b.next) })
            (recordGood bytes st inc seq = true → exec .readPageDone s = .next (s.onDev
              (d'.answer p .ok (bigEndian 4 seq ++ (bytes.drop 8).take 2 ++
                (bytes.drop 16).take (byteAt bytes 2).toNat)).settle)) ∧
            (recordGood bytes st inc seq = false → exec .readPageDone s = .next (s.onDev
              (d'.answer p .corrupt (bigEndian 4 seq)).settle)))

/-- A page read of the mount unit completes: the next page of the metadata region or of a data sector; with no half that
qualifies the BLANK outcome; the chosen half replayed; a data sector classified; outside MOUNTING nothing read. Of two
halves that qualify the newer is chosen, half 0 where they tie, and nothing is read from the other (R123 to R128, R131).
That the mount unit's phase after the BLANK outcome is DONE is the model's choice (log 53). -/
def Obligations.MountReadsTheArray : Prop :=
  (∀ (s : State) (sector page : Nat), s.dev.active = true → s.dev.arbiter.holder = none →
    s.dev.arrayOp = .read sector page →
    (s.dev.mode ≠ .mounting →
      exec .mountReadDone s = .next (s.onDev (Device.settle { s.dev with arrayOp := .none }))) ∧
    (s.dev.mode = .mounting → s.dev.quiet → page < 15 →
      exec .mountReadDone s = .next (s.onDev { s.dev with arrayOp := .read sector (page + 1) })) ∧
    (s.dev.mode = .mounting → s.dev.quiet → 15 ≤ page → sector < 3 →
      exec .mountReadDone s = .next (s.onDev { s.dev with arrayOp := .read (sector + 1) 0 })) ∧
    (s.dev.mode = .mounting → 15 ≤ page → sector = 3 →
      let half := chooseHalf (qualify (s.flash.halfPages 0)) (qualify (s.flash.halfPages 1))
      (half = none → s.dev.consent.ballot = none →
        let d := ({ s.dev with arrayOp := .none } : Device).mountBlank
        exec .mountReadDone s = .next (s.onDev d.settle) ∧
          d.mode = .blank ∧ d.eraseQueue = List.range' 4 252 ∧
          (∀ n, 4 ≤ n → n < 256 → d.sector n = { Sector.blank with state := .queued }) ∧
          d.writer = { Writer.powerUp with nextSerial := 1 } ∧
          ∀ q, d.events.get q = if (s.dev.port q).attached then
            (s.dev.events.get q).offer ⟨.state, none, some 2⟩ else s.dev.events.get q) ∧
      ∀ h c, half = some (h, c) → exec .mountReadDone s = .next (s.onDev (Device.settle
        (({ s.dev with
          mount := { s.dev.mount.replay s.flash h c with phase := .dataScan } } : Device).scanFrom 4)))) ∧
    (s.dev.mode = .mounting → 15 ≤ page → 3 < sector →
      exec .mountReadDone s = .next (s.onDev (Device.settle
        (({ s.dev with
          mount := s.dev.mount.classify sector (s.flash.sectorPages sector) } : Device).scanFrom (sector + 1)))))) ∧
  (∀ (m : Mount) (f g : Flash) (half : Nat) (c : Checkpoint),
    (∀ page, page < 32 → f.halfPage half page = g.halfPage half page) → m.replay f half c = m.replay g half c) ∧
  ∀ x y : Checkpoint,
    chooseHalf none none = none ∧ chooseHalf (some x) none = some (0, x) ∧ chooseHalf none (some y) = some (1, y) ∧
    (y.generation < x.generation → chooseHalf (some x) (some y) = some (0, x)) ∧
    (x.generation < y.generation → chooseHalf (some x) (some y) = some (1, y)) ∧
    (x.generation = y.generation → y.snapshot < x.snapshot → chooseHalf (some x) (some y) = some (0, x)) ∧
    (x.generation = y.generation → x.snapshot < y.snapshot → chooseHalf (some x) (some y) = some (1, y)) ∧
    (x.generation = y.generation → x.snapshot = y.snapshot → chooseHalf (some x) (some y) = some (0, x))

/-- What a mount makes of the pages it reads. A half qualifies exactly by the three tests of R126. Replay applies the
chosen half's checkpoint entries, then its journal pages while each is committed, of the half's generation and of the
serial expected, and fixes the writer's serials, generation, write position and broken flag (R129); each entry acts on
the working tables as R130 says. A data sector is free where all its pages are erased, owned where page 0 is a valid
header of a mounted stream, and released otherwise (R131); of an owned one the pages above the last written one are
UNUSED, those that pass READ's checks LIVE, the rest VOID, and from a break in the sequences on no page is LIVE and the
repair count grows; with no page LIVE it is released (R132). Of two CHECKPOINT_END entries on a page the first counts,
which is the model's choice (log 26). -/
def Obligations.MountReplaysAndClassifies : Prop :=
  (∀ (pages : List (Option MetaPage)) (c : Checkpoint), qualify pages = some c ↔
    ∃ g, pages[c.endPage]? = some (some g) ∧ g.kind = .checkpoint ∧
      g.entries.findSome? MetaEntry.asEnd = some (c.snapshot, c.entries.length) ∧ c.generation = g.generation ∧
      (∀ k h, k < c.endPage → pages[k]? = some (some h) → ∀ e ∈ h.entries, e.asEnd = none) ∧
      (∀ k h, k ≤ c.endPage → pages[k]? = some (some h) → h.kind = .checkpoint ∧ h.generation = g.generation) ∧
      (((pages.take (c.endPage + 1)).filterMap id).flatMap fun h =>
        (List.range' h.first h.entries.length).zip h.entries).Perm ((List.range c.entries.length).zip c.entries) ∧
      c.entries.getLast? = some (.checkpointEnd c.snapshot c.entries.length) ∧ c.entries.length ≤ 132 ∧
      1 ≤ c.snapshot) ∧
  (∀ (m : Mount) (f : Flash) (half : Nat) (c : Checkpoint), ∃ (applied : List MetaPage) (written : Nat),
    let expected := fun (k : Nat) => c.snapshot + ((applied.take k).flatMap MetaPage.entries).length
    let continues := fun (k : Nat) (g : MetaPage) => c.endPage + 1 + k < 32 ∧
      readMetaPage (f.halfPage half (c.endPage + 1 + k)) = some g ∧ g.kind = .journal ∧
      g.generation = c.generation ∧ g.first = expected k
    (∀ k g, applied[k]? = some g → continues k g) ∧ (∀ g, ¬ continues applied.length g) ∧
    written ≤ 32 ∧ (∀ k, written ≤ k → k < 32 → pageErased (f.halfPage half k) = true) ∧
    (∀ k, written = k + 1 → pageErased (f.halfPage half k) = false) ∧
    m.replay f half c = { (c.entries ++ applied.flatMap MetaPage.entries).foldl Mount.applyEntry m with
      half := half, generation := c.generation, writePos := written
      broken := decide (c.endPage + 1 + applied.length < written), lastSerial := expected applied.length - 1 }) ∧
  (∀ (m : Mount) (st : Fin 16) (inc : Byte) (p : Port),
    (∀ writer readers held policy tag quota margin base,
      let e := m.applyEntry (.streamDef st inc writer readers held policy tag quota margin base)
      e = { m with streams := e.streams, retained := e.retained } ∧
      e.streams = m.streams.set st.val ⟨inc, some ⟨held, tag, writer, readers, policy, quota, margin, base, base, [], 0,
        false, false⟩⟩ ∧
      (∀ q, e.retained[st.val].get q = (m.retained[st.val].get q).bind fun x =>
        if x.inc = inc ∧ readers.get q = true then some x else none) ∧
      ∀ st' : Fin 16, st' ≠ st → e.retained[st'.val] = m.retained[st'.val]) ∧
    (
      let e := m.applyEntry (.streamDrop st inc)
      e = { m with streams := m.streams.set st.val ⟨inc, none⟩, retained := e.retained } ∧
      (∀ q, e.retained[st.val].get q = none) ∧
      ∀ st' : Fin 16, st' ≠ st → e.retained[st'.val] = m.retained[st'.val]) ∧
    ∀ committed lost,
      let e := m.applyEntry (.cursor st inc p committed lost)
      let fits : Prop := ∃ b, m.streams[st.val].body = some b ∧ m.streams[st.val].incarnation = inc ∧
        b.readers.get p = true
      (¬ fits → e = m) ∧
      (fits → e = { m with retained := e.retained } ∧
        e.retained[st.val].get p = some ⟨inc, committed, lost⟩ ∧
        (∀ q, q ≠ p → e.retained[st.val].get q = m.retained[st.val].get q) ∧
        ∀ st' : Fin 16, st' ≠ st → e.retained[st'.val] = m.retained[st'.val])) ∧
  (∀ (m : Mount) (first c0 c1 c2 c3 : Nat) (sectors : List Nat) (n : Nat),
    (
      let e := m.applyEntry (.wear first c0 c1 c2 c3)
      e = { m with counts := e.counts } ∧
      ∀ (k : Nat) (h : k < 256), e.counts[k] = if k = first then c0 else if k = first + 1 then c1
        else if k = first + 2 then c2 else if k = first + 3 then c3 else m.counts[k]) ∧
    m.applyEntry (.retire []) = m ∧
    (n ∈ m.bad ∨ 32 ≤ m.bad.length → m.applyEntry (.retire (n :: sectors)) = m.applyEntry (.retire sectors)) ∧
    (n ∉ m.bad → m.bad.length < 32 → ∃ before after, m.bad = before ++ after ∧ (∀ k ∈ before, k ≤ n) ∧
      (∀ k, after.head? = some k → n < k) ∧
      m.applyEntry (.retire (n :: sectors)) =
        ({ m with bad := before ++ n :: after } : Mount).applyEntry (.retire sectors)) ∧
    ∀ snapshot count, m.applyEntry (.checkpointEnd snapshot count) = m) ∧
  (∀ (m : Mount) (n : Nat) (pages : List (List Byte)), pages.length = 16 →
    let page0 := pages.getD 0 []
    let owner := fun (st : Fin 16) (b : StreamBody) => m.streams[st.val].body = some b ∧
      crcBytes (page0.take 10) = (page0.drop 10).take 2 ∧ (byteAt page0 0).toNat = st.val ∧
      byteAt page0 1 = m.streams[st.val].incarnation ∧ 1 ≤ (byteAt page0 2).toNat ∧ (byteAt page0 2).toNat ≤ 240 ∧
      (byteAt page0 3).toNat = portCode b.writer ∧ fieldAt page0 4 4 ≠ 4294967295
    ((∀ x ∈ pages, pageErased x = true) → m.classify n pages = { m with freeFound := m.freeFound ++ [n] }) ∧
    ((∃ x ∈ pages, pageErased x = false) →
      ((∀ st b, ¬ owner st b) → m.classify n pages = { m with released := m.released ++ [n] }) ∧
      ∀ st b, owner st b → ∃ (read : List PageState) (final : Vector PageState 16) (broken : Bool),
        read = ownedPages pages st m.streams[st.val].incarnation b.writer ∧
        cutAtBreak none read = (final.toList, broken) ∧
        let counted := if broken then min 65535 (m.repair + 1) else m.repair
        ((∀ x ∈ final.toList, x.seq? = none) →
          m.classify n pages = { m with repair := counted, released := m.released ++ [n] }) ∧
        ((∃ x ∈ final.toList, x.seq? ≠ none) →
          m.classify n pages = { m with repair := counted, owned := m.owned ++ [⟨n, st, final, broken⟩] }))) ∧
  (∀ (pages : List (List Byte)) (st : Fin 16) (inc : Byte) (writer : Port),
    (ownedPages pages st inc writer).length = pages.length ∧
    ∀ (i : Nat) (x : List Byte), pages[i]? = some x →
      let seq := fieldAt x 4 4
      let above : Prop := ∀ k y, i ≤ k → pages[k]? = some y → pageErased y = true
      let good : Prop := recordGood x st inc seq = true ∧ seq ≠ 4294967295 ∧ (byteAt x 3).toNat = portCode writer
      (above → (ownedPages pages st inc writer)[i]? = some .unused) ∧
      (¬ above → good → (ownedPages pages st inc writer)[i]? = some (.live seq)) ∧
      (¬ above → ¬ good → (ownedPages pages st inc writer)[i]? = some .void)) ∧
  ∀ read : List PageState,
    let broken := fun (k : Nat) => ∃ i j a b, i < j ∧ j ≤ k ∧ read[i]? = some (.live a) ∧ read[j]? = some (.live b) ∧
      b ≠ a + 1 ∧ ∀ l q, i < l → l < j → read[l]? ≠ some (.live q)
    (cutAtBreak none read).1.length = read.length ∧
    ((cutAtBreak none read).2 = true ↔ ∃ k, k < read.length ∧ broken k) ∧
    ∀ (k : Nat) (x : PageState), read[k]? = some x →
      (¬ broken k → (cutAtBreak none read).1[k]? = some x) ∧
      (broken k → (cutAtBreak none read).1[k]? = some (if x.seq? = none then x else .void))

/-- What mount makes of the owned sectors it found. The release point: the greatest first sequence without readers, 0
with a reader unknown, otherwise the least position; the release test keeps what reaches it (R133). The chain walk:
sectors by first sequence, each kept that goes on from the last kept, the others queued and counted as repairs; the
stream's counters, the sectors' states and page maps from those kept (R134). A cursor from its retained position,
brought between oldest and next sequence (R135). Reclaim and trim: heads leave for the queue until the quota holds, and
a trim raises the readers it passes, with no event and no entry (R136). The hand-over: writer, device state, STATE to
the attached ports (R138). And from tables in which every data sector was found in one class, every data sector in one
place, the pool in order, every queued sector at mark 0 (R137). The order within one stream's release test is the
model's choice (log 35), and the passes' order log 24. -/
def Obligations.MountRebuildsTheTables : Prop :=
  (∀ (readers : PortSet) (t : PerPort (Option Retained)) (own : List OwnedSector),
    let point := releasePoint readers t own
    ((∀ q, readers.get q = false) → (∀ o ∈ own, o.first ≤ point) ∧ (own ≠ [] → ∃ o ∈ own, o.first = point)) ∧
    ((∃ q, readers.get q = true ∧ t.get q = none) → point = 0) ∧
    ((∃ q, readers.get q = true) → (∀ q, readers.get q = true → t.get q ≠ none) →
      (∀ q r, readers.get q = true → t.get q = some r → point ≤ r.committed) ∧
        ∃ q r, readers.get q = true ∧ t.get q = some r ∧ r.committed = point)) ∧
  (∀ (m : Mount) (st : Fin 16) (b : StreamBody),
    let point := releasePoint b.readers m.retained[st.val] (m.ownedBy st)
    m.releaseTest st b =
      ((m.ownedBy st).filter (fun o => decide (point ≤ o.last)),
        (m.ownedBy st).filter (fun o => decide (o.last < point)))) ∧
  (∀ own : List OwnedSector, (own.foldr insertOwned []).Perm own ∧
    (own.foldr insertOwned []).Pairwise fun x y => x.first < y.first ∨ x.first = y.first ∧ x.sector ≤ y.sector) ∧
  (walk none [] = ([], []) ∧ ∀ (l : List OwnedSector) (o : OwnedSector),
    let r := walk none l
    (r.1 = [] ∨ (∃ k, r.1.getLast? = some k ∧ o.first = k.last + 1) → walk none (l ++ [o]) = (r.1 ++ [o], r.2)) ∧
    (∀ k, r.1.getLast? = some k → o.first ≠ k.last + 1 → walk none (l ++ [o]) = (r.1, r.2 ++ [o]))) ∧
  (∀ (d : Device) (st : Fin 16) (b : StreamBody) (own : List OwnedSector), d.stream st = some b →
    (own.map OwnedSector.sector).Nodup →
    (∀ o ∈ own, o.sector < 256 ∧ o.pages.toList.any (fun x => x.seq?.isSome) = true) →
    d.mount.repair ≤ 65535 →
    let r := walk none (own.foldr insertOwned [])
    let e := d.mountChain st own
    e.eraseQueue = d.eraseQueue ++ r.2.map OwnedSector.sector ∧
    e.mount.repair = min 65535 (d.mount.repair + r.2.length) ∧
    (∀ o ∈ r.2, e.sector o.sector = (d.sector o.sector).cleared .queued d.newestSerial) ∧
    (∀ o ∈ r.1, e.sector o.sector = { d.sector o.sector with
      state := if r.1.getLast? = some o ∧ o.forced = false ∧ PageState.unused ∈ o.pages.toList then .tail else .filled
      owner := some (o.stream, d.incarnation o.stream)
      pages := o.pages }) ∧
    ∃ b', e.stream st = some b' ∧ b'.chain = r.1.map OwnedSector.sector ∧
      b'.next = (match r.1.getLast? with | some o => o.last + 1 | none => b.next) ∧
      b'.oldest = (match r.1.head? with | some o => o.first | none => b.next) ∧
      b'.used = e.chainUsed b'.chain ∧ b'.high = decide (b.quota * 16 - b'.used ≤ b.margin) ∧
      b'.quota = b.quota ∧ b'.margin = b.margin ∧ b'.readers = b.readers ∧ b'.writer = b.writer) ∧
  (∀ (next oldest : Nat) (x : Retained), oldest ≤ next →
    let cursor := fun committed lost => (⟨committed, committed, 1024, decide (1024 ≤ next - committed), lost, committed,
      lost⟩ : Cursor)
    mountCursor none next oldest = (cursor oldest 0, false) ∧
    (x.committed < oldest →
      mountCursor (some x) next oldest = (cursor oldest (min 65535 (x.lost + (oldest - x.committed))), true)) ∧
    (next < x.committed → mountCursor (some x) next oldest = (cursor next x.lost, true)) ∧
    (oldest ≤ x.committed → x.committed ≤ next →
      mountCursor (some x) next oldest = (cursor x.committed x.lost, false))) ∧
  (∀ (d : Device) (st : Fin 16) (b : StreamBody) (head : Nat) (rest : List Nat), d.stream st = some b →
    b.chain = head :: rest → head ∉ rest → d.mount.repair ≤ 65535 →
    let e := d.trim st 1
    let x := d.chainOldest rest b.next
    let raised := portList.countP fun q => match d.cursor st q with | some c => decide (c.committed < x) | none => false
    e.stream st = some { b with chain := rest } ∧ e.eraseQueue = d.eraseQueue ++ [head] ∧
    e.mount.repair = min 65535 (d.mount.repair + 1 + raised) ∧
    (∀ q, e.cursor st q = (d.cursor st q).map fun c =>
      if c.committed < x then
        let lost := min 65535 (c.lost + (x - c.committed))
        { c with
          committed := x, delivered := max c.delivered x, lost := lost, recCommitted := x, recLost := lost }
      else c) ∧
    e.events = d.events ∧ e.writer = d.writer ∧ ∀ k, d.trim st (k + 1) = e.trim st k) ∧
  (∀ (d : Device) (st : Fin 16) (b : StreamBody), d.stream st = some b → b.chain.Nodup →
    (∀ n ∈ b.chain, (d.sector n).suspect = false) →
    let reclaimed := (b.chain.takeWhile fun n => (d.sector n).reclaimable (d.leastCommitted st b)).length
    let gone := max reclaimed (b.chain.length - b.quota)
    let e := d.mountPasses st
    e.eraseQueue = d.eraseQueue ++ b.chain.take gone ∧ e.badList = d.badList ∧ e.events = d.events ∧
    e.writer = d.writer ∧
    ∃ b', e.stream st = some b' ∧ b'.chain = b.chain.drop gone ∧ b'.chain.length ≤ b.quota ∧ b'.next = b.next ∧
      b'.oldest = e.chainOldest b'.chain b.next ∧ b'.used = e.chainUsed b'.chain ∧
      b'.high = decide (b.quota * 16 - b'.used ≤ b.margin)) ∧
  (∀ d : Device, d.consent.ballot = none →
    let e := d.mountDone
    e.writer = { Writer.powerUp with
      state := .idle, activeHalf := some d.mount.half, generation := d.mount.generation
      writePos := d.mount.writePos, broken := d.mount.broken
      nextSerial := d.mount.lastSerial + 1, durableSerial := d.mount.lastSerial } ∧
    e.mount = { Mount.powerUp with phase := .done, repair := d.mount.repair } ∧
    e.mode = (if d.badList.length = 32 then .readOnly else .ready) ∧
    e.reason = (if d.badList.length = 32 then .mediaWorn else .none) ∧
    ∀ q, e.events.get q = if (d.port q).attached then (d.events.get q).offer
      ⟨.state, none, some (if d.badList.length = 32 then 4 else 3)⟩ else d.events.get q) ∧
  (∀ d : Device,
    let m := d.mount
    d.freePool = [] → d.eraseQueue = [] → d.writer = Writer.powerUp →
    (∀ (st : Fin 16) (b : StreamBody), m.streams[st.val].body = some b → b.chain = []) →
    (∀ o ∈ m.owned, m.streams[o.stream.val].body.isSome = true) →
    (m.bad ++ m.freeFound ++ m.released ++ m.owned.map OwnedSector.sector).Perm (List.range' 4 252) →
    let e := d.finishMount
    e.places.Perm (List.range' 4 252) ∧ e.badList = m.bad ∧ e.freePool.Perm m.freeFound ∧
    (e.freePool.Pairwise fun x y => (e.sector x).eraseCount < (e.sector y).eraseCount ∨
      (e.sector x).eraseCount = (e.sector y).eraseCount ∧ x < y) ∧
    (∃ later, e.eraseQueue = m.released ++ later) ∧
    ∀ (n : Nat) (h : n < 256),
      (n ∈ e.freePool → e.sector n = { Sector.blank with state := .free, eraseCount := m.counts[n]'h }) ∧
      (n ∈ e.badList → e.sector n = { Sector.blank with state := .bad, eraseCount := m.counts[n]'h }) ∧
      (n ∈ e.eraseQueue → e.sector n = { Sector.blank with state := .queued, eraseCount := m.counts[n]'h })) ∧
  ∀ (d : Device) (n : Nat),
    (d.mount.nextSector n = none → d.scanFrom n = ({ d with arrayOp := .none } : Device).finishMount) ∧
    (∀ k, d.mount.nextSector n = some k → d.scanFrom n = { d with arrayOp := .read k 0 } ∧ n ≤ k ∧ k < 256 ∧
      k ∉ d.mount.bad)

/-! ### Reports of the array: appends -/

/-- The steps of an append complete, with the pulses reported: after step 1 the claim for step 2; after step 2 the page
LIVE, the next sequence one more, the flags and the reclaim rule, the RETIRE entries of what it retired staged, and OK
with the sequence, or the entries kept and the wait for places where there are none. An append whose request has ended,
or met FORMATTING, goes no further: its page VOID after step 1, its record kept after step 2, ABORTED to a request in
hand (R37, R38, R43 to R46, R77). The pulses reported are a free value (log 1), and how the RETIRE entries are cut is
the model's choice (log 10). -/
def Obligations.AppendStepsComplete : Prop :=
  ∀ (s : State) (p : Port) (j : AppendJob) (sector page first : Nat) (target : List Byte), s.dev.active = true →
    s.dev.appending p j sector page first target →
    s.flash.verifies (pageBase sector page + first) target = true →
    let base := pageBase sector page + first
    let f := s.flash.programmed base target
    let e := s.dev.programDone (s.flash.holds base target)
    let runs := (s.dev.exec p).inHand.isSome = true ∧ s.dev.mode ≠ .formatting
    let aborts := fun (d : Device) => (d.leavePlaceWait (.executor p)).answer p .aborted []
    (j.phase = .step1 →
      (runs → exec .appendStep1Done s = .next (s.onRig
        (e.release.toExec p .waitArray (.append { j with phase := .between })).settle f)) ∧
      (¬ runs →
        let r := (e.release.setPageState j.sector j.page .void).reclaim j.stream
        (r.1.retirable p r.2 → exec .appendStep1Done s = .next (s.onRig
          (aborts (r.1.stageAll (retireEntries r.2))).settle f)) ∧
        (¬ r.1.retirable p r.2 → exec .appendStep1Done s = .next (s.onRig (aborts r.1).settle f)))) ∧
    ∀ b, j.phase = .step2 → s.dev.stream j.stream = some b →
      let d := (e.release.setPageState j.sector j.page (.live b.next)).setBody j.stream
        (some { b with next := b.next + 1 })
      let r := (d.evalBacklogs j.stream).reclaim j.stream
      (r.1.stream j.stream).map StreamBody.next = some (b.next + 1) ∧
      (r.1.retirable p r.2 →
        (runs → exec .appendStep2Done s = .next (s.onRig
          ((r.1.stageAll (retireEntries r.2)).answer p .ok (bigEndian 4 b.next)).settle f)) ∧
        (¬ runs → exec .appendStep2Done s = .next (s.onRig
          (aborts (r.1.stageAll (retireEntries r.2))).settle f))) ∧
      (¬ r.1.retirable p r.2 →
        (runs → exec .appendStep2Done s = .next (s.onRig
          ((r.1.joinPlaceWait (.executor p)).toExec p .waitStaging
            (.append { j with phase := .committed b.next, kept := retireEntries r.2 })).settle f)) ∧
        (¬ runs → exec .appendStep2Done s = .next (s.onRig (aborts r.1).settle f)))

/-- A step of an append fails, which it cannot where the page reads its target already (R77): page VOID, sector suspect
and FILLED, counters, high flag and reclaim, one attempt more, RETIRE entries staged or kept, and the void step under
the same grant, but for an ended request. The void step's end, whatever its outcome, is followed by ABORTED in
FORMATTING and nothing for an ended request, by the wait for the kept entries' places, by MEDIA at the third attempt,
and otherwise by a new search for a page (R40 to R46). That the void step in FORMATTING comes before ABORTED is read
from R41 and R46 (log 16), what is kept while it runs is the model's choice (log 15), and what the pulses left is a free
value (log 1). A fail where the range reads its target cannot occur and changes nothing (log 18), a void step on a byte
that reads 00h verifies whatever the report (log 27), and the third failure is answered MEDIA in READ_ONLY too, between
R42 and R47 (log 32). How the RETIRE entries are cut is log 10. -/
def Obligations.AppendStepsFail : Prop :=
  ∀ (s : State) (p : Port) (j : AppendJob) (sector page first : Nat) (target : List Byte), s.dev.active = true →
    s.dev.appending p j sector page first target →
    let base := pageBase sector page + first
    let aborts := fun (d : Device) => (d.leavePlaceWait (.executor p)).answer p .aborted []
    (s.flash.holds base target = true → exec .appendStepFail s = .next s) ∧
    (s.flash.holds base target = false → (j.phase = .step1 ∨ j.phase = .step2) →
      let x := (s.dev.sector j.sector).setPage j.page .void
      let d := s.dev.drawn.setSector j.sector
        { x with suspect := true, state := if x.state = .tail then .filled else x.state }
      let r := ((d.recount j.stream).evalHigh j.stream).reclaim j.stream
      let f := s.flash.programFailed s.dev.draws base target
      let voids := fun (d : Device) (kept : List MetaEntry) => exec .appendStepFail s = .next (s.onRig
        (Device.settle
          { d.toExec p .onArray (.append { j with attempts := j.attempts + 1, kept := kept, phase := .voiding }) with
            arrayOp := .program j.sector j.page 15 [0x00#8] }) f)
      (r.1.retirable p r.2 →
        ((s.dev.exec p).inHand.isSome = true → voids (r.1.stageAll (retireEntries r.2)) []) ∧
        ((s.dev.exec p).inHand = none → exec .appendStepFail s = .next (s.onRig
          (aborts (r.1.stageAll (retireEntries r.2)).release).settle f))) ∧
      (¬ r.1.retirable p r.2 →
        ((s.dev.exec p).inHand.isSome = true →
          (s.dev.mode ≠ .formatting → voids (r.1.joinPlaceWait (.executor p)) (retireEntries r.2)) ∧
          (s.dev.mode = .formatting → voids r.1 [])) ∧
        ((s.dev.exec p).inHand = none → exec .appendStepFail s = .next (s.onRig (aborts r.1.release).settle f)))) ∧
    ∀ verified : Bool, j.phase = .voiding → (verified = true → s.flash.verifies base target = true) →
      let d := (s.dev.stepReported s.flash verified base target).release
      let f := s.flash.stepEnded verified s.dev.draws base target
      let ends := fun (d : Device) => exec (.appendVoidStepEnd verified) s = .next (s.onRig d.settle f)
      ((s.dev.exec p).inHand = none ∨ s.dev.mode = .formatting → ends (aborts d)) ∧
      ((s.dev.exec p).inHand.isSome = true → s.dev.mode ≠ .formatting →
        (j.kept ≠ [] → ends (d.toExec p .waitStaging (.append { j with phase := .failed }))) ∧
        (j.kept = [] → 3 ≤ j.attempts → ends ((d.leavePlaceWait (.executor p)).answer p .media [])) ∧
        (j.kept = [] → j.attempts < 3 → ends
          ((d.toExec p .check (.append { j with phase := .seek, kept := [] })).seekPlace p { j with kept := [] })))

/-! ### Reports of the array: metadata pages -/

/-- The steps of a metadata page complete, with the pulses reported: after step 1 the claim for step 2; after step 2 of
a journal page its entries leave the buffer, the durable serial rises unless the half is broken, the waiters it covers
are released, the writer is IDLE and the freed places are offered (R77, R111). A page whose writer has gone HALTED ends
with its step, its commit standing (R120); one that FORMATTING discarded is forgotten (R121). A waiter released answers
OK: CREATE with stream number and incarnation, ACK with committed as of the ACK (log 21), SYNC with the durable serial,
CONFIGURE and DELETE with no body; one whose serial lies above the durable serial waits on, and nothing else changes
(R19, R21, R23, R59, R113, R173). The pulses reported are a free value (log 1). That the entries of a page whose step 1
completes under a halted writer stay taken is the model's choice (log 55). -/
def Obligations.JournalPageCommits : Prop :=
  (∀ (d : Device),
    let e := d.releaseWaiters
    e = { d with ports := e.ports, execs := e.execs } ∧
    ∀ q, let x := d.exec q
      ((∀ serial, x.state = .waitDurable serial → d.writer.durableSerial < serial) →
        e.exec q = x ∧ e.port q = d.port q) ∧
      ∀ serial, x.state = .waitDurable serial → serial ≤ d.writer.durableSerial →
        e.exec q = Executor.rest ∧ (x.inHand = none → e.port q = d.port q) ∧
        ∀ tag k body, x.inHand = some (.known tag k body) →
          let answers := fun out => e.port q = { d.port q with
            responses := (d.port q).responses ++ [reply tag k .ok out] }
          (∀ st inc, x.job = .created st inc → answers [BitVec.ofNat 8 st.val, inc]) ∧
          (∀ committed, x.job = .acked committed → answers (bigEndian 4 committed)) ∧
          (x.job = .none → k = .sync → answers (bigEndian 4 d.writer.durableSerial)) ∧
          (x.job = .none → (k = .configure ∨ k = .delete) → answers [])) ∧
  ∀ (s : State) (g : PageInFlight) (sector page first : Nat) (target : List Byte), s.dev.active = true →
    s.dev.journaling g sector page first target →
    s.flash.verifies (pageBase sector page + first) target = true → g.voiding = false →
    let base := pageBase sector page + first
    let f := s.flash.programmed base target
    let e := s.dev.programDone (s.flash.holds base target)
    let ends := fun (d : Device) (w : Writer) (state : WriterState) =>
      ({ d.release with writer := { w with state := state, inFlight := none } } : Device)
    (g.step2 = false →
      (g.fate = .kept → exec .metaStep1Done s = .next (s.onRig
        (Device.settle { e.release with writer := { s.dev.writer with state := .claim2 } }) f)) ∧
      (g.fate = .halted → exec .metaStep1Done s = .next (s.onRig (ends e s.dev.writer .halted).settle f)) ∧
      (g.fate = .discarded → exec .metaStep1Done s = .next (s.onRig (ends e s.dev.writer .idle).settle f))) ∧
    (g.step2 = true → g.kind = .journal →
      let w := { s.dev.writer with
        staging := s.dev.writer.staging.filter fun e => e.cond ≠ .taken
        durableSerial := if s.dev.writer.broken then s.dev.writer.durableSerial else g.first + g.entries.length - 1 }
      let d := ({ e with writer := w } : Device).releaseWaiters
      (g.fate = .kept → exec .metaStep2Done s = .next (s.onRig (ends d d.writer .idle).offerPlaces.settle f)) ∧
      (g.fate = .halted → exec .metaStep2Done s = .next (s.onRig (ends e w .halted).settle f)) ∧
      (g.fate = .discarded → exec .metaStep2Done s = .next (s.onRig (ends e s.dev.writer .idle).settle f)))

/-- A step of a metadata page fails, which it cannot where the page reads its target already (R77): the void mark is
programmed under the same grant; at its end the entries of a journal page are open again, the half is broken, and the
writer is IDLE with its trigger; a checkpoint page is forgotten (R112, R118). With a writer gone HALTED the entries are
open and the half broken all the same (R112, R120), those a compaction covered staying covered (log 55), and a page
FORMATTING discarded is forgotten (R121). That the timer runs and its expiry stands only where open entries remain is
the model's choice (log 14), and what the pulses left is a free value (log 1). A fail where the range reads its target
cannot occur and changes nothing (log 18), and a void step on a byte that reads 00h verifies whatever the report (log
27). -/
def Obligations.MetadataPageFails : Prop :=
  ∀ (s : State) (g : PageInFlight) (sector page first : Nat) (target : List Byte), s.dev.active = true →
    s.dev.journaling g sector page first target →
    let base := pageBase sector page + first
    (s.flash.holds base target = true → exec .metaStepFail s = .next s) ∧
    (s.flash.holds base target = false → g.voiding = false → exec .metaStepFail s = .next (s.onRig
      (Device.settle
        { s.dev.drawn with
          writer := { s.dev.writer with inFlight := some { g with voiding := true } }
          arrayOp := .program (2 * g.half + g.page / 16) (g.page % 16) 15 [0x00#8] })
      (s.flash.programFailed s.dev.draws base target))) ∧
    ∀ verified : Bool, g.voiding = true → (verified = true → s.flash.verifies base target = true) →
      let d := (s.dev.stepReported s.flash verified base target).release
      let f := s.flash.stepEnded verified s.dev.draws base target
      let ends := fun (w : Writer) (state : WriterState) => exec (.metaVoidStepEnd verified) s = .next (s.onRig
        (Device.settle { d with writer := { w with state := state, inFlight := none } }) f)
      let again := s.dev.writer.reopen
      (g.fate = .kept → g.kind = .journal →
        ends { again with broken := true, timerRunning := again.hasOpen, timerExpired := again.hasOpen } .idle) ∧
      (g.fate = .kept → g.kind = .checkpoint → ends s.dev.writer .idle) ∧
      (g.fate = .halted → g.kind = .journal → ends { again with broken := true } .halted) ∧
      (g.fate = .halted → g.kind = .checkpoint → ends s.dev.writer .halted) ∧
      (g.fate = .discarded → ends s.dev.writer .idle)

/-- A checkpoint page commits: before the last its entries count as written; with the last of a compaction the target
half is active at the next generation, the durable serial reaches the snapshot, the covered entries leave, the waiters
are released and the places offered (R118, R119). With the last of FORMAT's every stream is FREE with its incarnation
and no cursor is left, the chains' sectors and the pool follow the erase queue with mark 0, the writer begins at serial
1, and the part is READY, or READ_ONLY with 32 bad sectors, with STATE to every attached port (R121, R150). In STOPPING
the commit stands, a FORMAT ended by it taking the writer's values alone (R122, R151): that is the model's choice (log
22). That a page which commits under a halted writer changes no table is log 29, that the entries the compaction covered
stay covered then is log 55, that FORMAT's commit clears the flush timer's expiry too is log 23, and that the entry list
is emptied while the compaction's other registers stand is log 58; the pulses reported are a free value (log 1). -/
def Obligations.CheckpointPageCommits : Prop :=
  ∀ (s : State) (g : PageInFlight) (sector page first : Nat) (target : List Byte), s.dev.active = true →
    s.dev.journaling g sector page first target →
    s.flash.verifies (pageBase sector page + first) target = true → g.voiding = false →
    g.step2 = true → g.kind = .checkpoint →
    let base := pageBase sector page + first
    let f := s.flash.programmed base target
    let e := s.dev.programDone (s.flash.holds base target)
    let ends := fun (d : Device) => exec .checkpointPageCommit s = .next (s.onRig d.settle f)
    (g.fate = .halted →
      ends { e.release with writer := { s.dev.writer with state := .halted, inFlight := none } }) ∧
    (g.fate = .discarded →
      ends { e.release with writer := { s.dev.writer with state := .idle, inFlight := none } }) ∧
    (g.fate = .kept →
      let w := { s.dev.writer with
        state := .idle, inFlight := none, written := s.dev.writer.written + g.entries.length }
      let last := { w with
        activeHalf := some w.target, generation := w.generation + 1, writePos := w.checkpointPos, broken := false
        durableSerial := max w.durableSerial (w.snapshot - 1)
        staging := w.staging.filter fun e => e.cond ≠ .covered
        phase := .none, list := [], written := 0 }
      let first := { w with
        activeHalf := some 0, generation := w.generation + 1, writePos := w.checkpointPos, broken := false
        nextSerial := 1, durableSerial := 0, staging := [], timerRunning := false, timerExpired := false
        phase := .none, list := [], written := 0, forFormat := false }
      let on := fun (w : Writer) => ({ e.release with writer := w } : Device)
      (w.written < w.list.length → ends (on w)) ∧
      (w.list.length ≤ w.written → w.forFormat = false →
        (s.dev.mode ≠ .stopping → ends (on last).releaseWaiters.offerPlaces) ∧
        (s.dev.mode = .stopping →
          let d := (on last).releaseWaiters
          ends ({ d with writer := { d.writer with stop := .done } } : Device).offerPlaces)) ∧
      (w.list.length ≤ w.written → w.forFormat = true →
        (s.dev.mode = .stopping → ends (on { first with stop := .done })) ∧
        (s.dev.mode = .formatting →
          let d := (on w).formatCommitted
          ends d ∧ d.writer = first ∧ (∀ st, d.stream st = none ∧ d.incarnation st = s.dev.incarnation st) ∧
          (∀ st q, d.cursor st q = none) ∧ d.freePool = [] ∧
          d.eraseQueue = s.dev.eraseQueue ++ ((List.finRange 16).flatMap fun st =>
            match s.dev.stream st with | some b => b.chain | none => []) ++ s.dev.freePool ∧
          (∀ n ∈ d.eraseQueue, n < 256 → d.sector n =
            { Sector.blank with state := .queued, eraseCount := (s.dev.sector n).eraseCount }) ∧
          d.badList = s.dev.badList ∧ d.consent.state = .idle ∧
          d.mode = (if s.dev.badList.length = 32 then .readOnly else .ready) ∧
          d.reason = (if s.dev.badList.length = 32 then .mediaWorn else .none) ∧
          (s.dev.consent.ballot = none → ∀ q, (s.dev.port q).attached = true → d.events.get q =
            (s.dev.events.get q).offer
              ⟨.state, none, some (if s.dev.badList.length = 32 then 4 else 3)⟩))))

/-! ### Reports of the array: erases -/

/-- A pulse of an erase ends: the next pulse, or the sector erased throughout and its owner told with the number of
completed pulses, or the failure after the sixth (R79). An erased data sector leaves the erase queue and is FREE at its
place in the pool with its count one more, the space-wait list is served, and its WEAR entry is staged with the counts
as they stand or waits for a place (R13, R97, R98). A failed one leaves the queue for the bad list, with RETIRED,
READ_ONLY at the 32nd, and its RETIRE entry; with 32 bad sectors it is QUEUED again; a failed slot sector halts the
writer (R16, R99, R101). An erased slot sector counts for FORMAT, whose second brings the other half and whose fourth
the checkpoint, or for the compaction (R96, R115, R149). Halting the writer: HALTED with no compaction, no timer and an
empty place-wait list, its page finishing only if a step is on the array; READY and FORMATTING become READ_ONLY with
reason META_MEDIA, READ_ONLY keeps its state and takes the reason, STOPPING keeps both (log 34); the slot empty, a slot
erase abandoned, one from the queue carried on; the engine's outcome discarded; executors that wait for durability or
places, or keep RETIRE entries while a void step runs (log 15), answered READ_ONLY. From then on offered entries are
discarded, places suffice, a durable wait is refused READ_ONLY, and a consent unit waiting for places executes its purge
first (R101, R118, R120, R147, R175; its order is log 7, put off by an append in flight by log 37). Read from the rules:
the halt clears the flush timer's expiry (R120, log 23) and what a pending purge does in it (R147, log 29). The model's
choices: an abandoned slot erase keeps its operation, its context marked, until its report (log 47); entries taken or
covered keep their condition in the halt (log 55), the compaction's other registers their values (log 57); a sector that
reads erased verifies whatever the report (log 27). What a failed pulse left is a free value (log 1). -/
def Obligations.ErasePulsesEnd : Prop :=
  (∀ d : Device,
    let h := d.haltWriter
    h.writer = { d.writer with
      state := .halted, phase := .none, forFormat := false, timerRunning := false, timerExpired := false, placeWait := []
      inFlight := if d.arbiter.holder = some .writer then
        d.writer.inFlight.map fun g => { g with fate := .halted } else none } ∧
    ((d.mode = .ready ∨ d.mode = .readOnly ∨ d.mode = .formatting) → h.mode = .readOnly ∧ h.reason = .metaMedia) ∧
    (d.mode = .stopping → h.mode = .stopping ∧ h.reason = d.reason) ∧
    (d.mode = .formatting → h.consent.state = .idle) ∧
    ((d.mode = .ready ∨ d.mode = .formatting) → d.consent.ballot = none → ∀ q, h.events.get q =
      if (d.port q).attached then (d.events.get q).offer ⟨.state, none, some 4⟩ else d.events.get q) ∧
    (d.mode = .readOnly → h.events = d.events) ∧
    h.engine.slot = [] ∧ h.engine.outcome = none ∧ h.cursors = d.cursors ∧ h.sectors = d.sectors ∧
    h.freePool = d.freePool ∧ h.eraseQueue = d.eraseQueue ∧ h.badList = d.badList ∧ h.spaceWait = d.spaceWait ∧
    ((d.engine.current = none ∨ ∃ c, d.engine.current = some c ∧ c.source = .queue) →
      h.engine.current = d.engine.current ∧ h.eraseCtx = d.eraseCtx ∧ h.arrayOp = d.arrayOp ∧
        h.arbiter.holder = d.arbiter.holder) ∧
    (∀ c x, d.engine.current = some c → c.source = .slot → d.eraseCtx = some x →
      (x.phase = .suspended → h.engine.current = none ∧ h.eraseCtx = none) ∧
      (x.phase ≠ .suspended → h.engine.current = some c ∧ h.eraseCtx = some { x with abandon := true } ∧
        h.arrayOp = d.arrayOp ∧ h.arbiter.holder = d.arbiter.holder)) ∧
    (∀ q, let x := d.exec q
      let told := ∀ r, x.inHand = some r →
        h.port q = { d.port q with responses := (d.port q).responses ++ [⟨r.label.1, r.label.2, .readOnly, []⟩] }
      let keeps := x.state = .onArray ∧ ∃ j, x.job = .append j ∧ j.kept ≠ []
      ((x.state = .waitStaging ∨ ∃ serial, x.state = .waitDurable serial) → h.exec q = Executor.rest ∧ told) ∧
      (∀ j, x.state = .onArray → x.job = .append j → j.kept ≠ [] →
        h.exec q = ⟨.onArray, none, .append { j with kept := [] }⟩ ∧ told) ∧
      (x.state ≠ .waitStaging → (∀ serial, x.state ≠ .waitDurable serial) → ¬ keeps →
        h.exec q = x ∧ h.port q = d.port q)) ∧
    (∀ e, h.stage e = h) ∧ (∀ who n, h.placesSuffice who n = true) ∧
    (∀ p job serial, h.awaitDurable p job serial = h.answer p .readOnly []) ∧
    ∀ st inc b, d.consent.state = .purgeStaging → d.consent.ballot = none → d.mode ≠ .formatting →
      d.consent.pending = some (st, inc) → d.stream st = some b → d.incarnation st = inc →
      (h.exec b.writer).inFlightOn st = false →
      let e := h.purgeStream st
      e.writer = h.writer ∧ h.consequence = some { e.leavePlaceWait .consent with
        consent := { e.consent with state := .idle, pending := none } }) ∧
  (∀ (s : State) (x : EraseContext) (c : CurrentErase) (verified : Bool), s.dev.active = true → s.dev.arrayOp = .erase →
      s.dev.eraseCtx = some x → x.phase = .running → x.abandon = false → s.dev.engine.current = some c →
      let failed := s.flash.eraseFailed s.dev.draws x.sector
      let erased := s.flash.eraseSector x.sector
      let d := ({ s.dev.drawn.release with
        eraseCtx := none, engine := { s.dev.engine with current := none, state := .idle } } : Device)
      (verified = false → s.flash.sectorErased x.sector = false → x.pulses < 5 → s.dev.quiet →
        exec (.erasePulseEnd verified) s = .next (s.onRig
          { s.dev.drawn with eraseCtx := some { x with pulses := x.pulses + 1 } } failed)) ∧
      (verified = false → s.flash.sectorErased x.sector = false → 5 ≤ x.pulses →
        (c.source = .slot → exec (.erasePulseEnd verified) s = .next (s.onRig d.haltWriter.settle failed)) ∧
        (c.source = .queue →
          (32 ≤ s.dev.badList.length → exec (.erasePulseEnd verified) s = .next (s.onRig
            (Device.settle (d.setSector c.sector { s.dev.sector c.sector with state := .queued })) failed)) ∧
          (s.dev.badList.length < 32 → exec (.erasePulseEnd verified) s =
            .next (s.onRig (s.dev.drawn.queueFailed c.sector).settle failed)))) ∧
      (verified = true ∨ s.flash.sectorErased x.sector = true →
        let counted : Device := { s.dev with eraseDonePulses := x.pulses + 1 }
        (c.source = .queue → exec (.erasePulseEnd verified) s =
          .next (s.onRig (counted.queueErased c.sector).settle erased)) ∧
        (c.source = .slot → exec (.erasePulseEnd verified) s = .next (s.onRig counted.slotErased.settle erased)) ∧
        ∀ a, erased.read a = if x.sector * 4096 ≤ a ∧ a < x.sector * 4096 + 4096 then 0xFF#8 else s.flash.read a)) ∧
  (∀ (d : Device) (n : Nat), n < 256 → n ∉ d.freePool →
    let count := min 16777215 ((d.sector n).eraseCount + 1)
    let e := ({ d with eraseQueue := d.eraseQueue.filter (· != n) } : Device).joinPool n count
    let served := e.serveSpace
    let ended := ({ served.release with
      eraseCtx := none, engine := { served.engine with current := none, state := .idle, outcome := none } } : Device)
    let g := n - n % 4
    let wear := MetaEntry.wear g (served.sector g).eraseCount (served.sector (g + 1)).eraseCount
      (served.sector (g + 2)).eraseCount (served.sector (g + 3)).eraseCount
    (ended.placesSuffice .engine 1 = true → d.queueErased n = (ended.leavePlaceWait .engine).stage wear) ∧
    (ended.placesSuffice .engine 1 = false → d.queueErased n =
      { ended.joinPlaceWait .engine with
        engine := { ended.engine with outcome := some (.wear g), state := .waitStaging } }) ∧
    e.sector n = { Sector.blank with state := .free, eraseCount := count } ∧
    e.eraseQueue = d.eraseQueue.filter (· != n) ∧
    (∃ before after, d.freePool = before ++ after ∧ e.freePool = before ++ n :: after ∧
      (∀ m ∈ before, ¬ (count < (d.sector m).eraseCount ∨ count = (d.sector m).eraseCount ∧ n < m)) ∧
      ∀ m, after.head? = some m → count < (d.sector m).eraseCount ∨ count = (d.sector m).eraseCount ∧ n < m) ∧
    (d.spaceWait = [] → served = e) ∧
    ∀ p rest, d.spaceWait = p :: rest →
      let woken : Device := { e with spaceWait := rest }
      (∀ status, woken.appendCheck p (woken.appendBody p) = .error status →
        served = (woken.answer p status []).serveSpace) ∧
      ∀ found j, woken.appendCheck p (woken.appendBody p) = .ok found → (woken.exec p).job = .append j →
        served = (woken.allocate j.stream).toExec p .waitArray (.append { j with phase := .seek })) ∧
  (∀ (d : Device) (n : Nat), n < 256 → d.badList.length < 32 →
    let gone : Device := { d with eraseQueue := d.eraseQueue.filter (· != n) }
    let r := gone.retire n
    let ended := ({ r.release with
      eraseCtx := none, engine := { r.engine with current := none, state := .idle, outcome := none } } : Device)
    (ended.placesSuffice .engine 1 = true →
      d.queueFailed n = (ended.leavePlaceWait .engine).stage (.retire [n])) ∧
    (ended.placesSuffice .engine 1 = false → d.queueFailed n =
      { ended.joinPlaceWait .engine with
        engine := { ended.engine with outcome := some (.retire n), state := .waitStaging } }) ∧
    r.sector n = { Sector.blank with state := .bad, eraseCount := (d.sector n).eraseCount } ∧
    r.badList.Perm (n :: d.badList) ∧ r.eraseQueue = d.eraseQueue.filter (· != n) ∧
    r.mode = (if d.badList.length = 31 ∧ d.mode = .ready then .readOnly else d.mode) ∧
    ∀ q, (d.port q).attached = true → (r.events.get q).overflow = true ∨
      ⟨.retired, some n, none⟩ ∈ (r.events.get q).queue) ∧
  ∀ d : Device,
    let e := ({ d.release with
      eraseCtx := none, engine := { d.engine with current := none, state := .idle } } : Device)
    (d.consent.state = .formatErase →
      let counted := ({ e with consent := { d.consent with formatErased := d.consent.formatErased + 1 } } : Device)
      (d.consent.formatErased ≠ 1 → d.consent.formatErased ≠ 3 → d.slotErased = counted) ∧
      (d.consent.formatErased = 1 → d.slotErased =
        { counted with engine := { counted.engine with
            slot := [2 * (1 - d.consent.formatHalf), 2 * (1 - d.consent.formatHalf) + 1] } }) ∧
      (d.consent.formatErased = 3 → d.slotErased =
        { counted with
          consent := { counted.consent with state := .formatCheckpoint }
          writer := { d.writer with
            phase := .checkpoint, forFormat := true, target := 0, snapshot := 1
            list := counted.checkpointList 1 true, written := 0, checkpointPos := 0 } })) ∧
    (d.consent.state ≠ .formatErase → d.writer.phase = .erasing →
      d.slotErased = { e with writer := { d.writer with erased := d.writer.erased + 1 } }) ∧
    (d.consent.state ≠ .formatErase → d.writer.phase ≠ .erasing → d.slotErased = e)

/-- A stopped pulse leaves its sector partly erased: SUSPENDED counts a suspension and frees the array, ABANDONED puts a
queued sector back and forgets the erase (R69, R80, R82, R90, R102). That between ABANDON and its report the combination
stands and no SUSPEND is issued is the model's choice (log 47). -/
def Obligations.StoppedPulsesAreReported : Prop :=
  ∀ (s : State) (x : EraseContext) (c : CurrentErase), s.dev.active = true → s.dev.eraseCtx = some x →
    s.dev.engine.current = some c →
    let f := s.flash.partialErase s.dev.draws x.sector
    let mark := fun v => match c.source with
      | .queue => s.dev.drawn.setSector c.sector { s.dev.sector c.sector with state := v }
      | .slot => s.dev.drawn
    (s.dev.arrayOp = .suspending → x.phase = .suspending → x.abandon = false →
      exec .suspended s = .next (s.onRig
        (Device.settle
          { (mark .suspended).release with
            eraseCtx := some { x with phase := .suspended }
            engine := { s.dev.engine with
              state := .suspended, current := some { c with suspensions := c.suspensions + 1, timer := .stopped } }
            arbiter := { s.dev.arbiter with holder := none, starveTimer := true } }) f)) ∧
    (x.abandon = true → s.dev.arbiter.holder = some .engine →
      exec .abandoned s = .next (s.onRig
        (Device.settle
          { (mark .queued).release with
            eraseCtx := none, engine := { s.dev.engine with current := none, state := .idle } }) f)) ∧
    (x.abandon = true → s.dev.stepSuspend = none ∧ exec .suspended s = .next s ∧
      ∀ verified, exec (.erasePulseEnd verified) s = .next s)

/-! ### Bytes of the array -/

/-- The CRC (R70): each byte into the high half of the register, then eight shifts of the polynomial, from FFFFh, with
the manual's two checks, most significant byte first where it is stored; it is the CRC of data pages, of metadata pages
and of frames. -/
def Obligations.CrcFollowsItsDefinition : Prop :=
  crc16 [] = 0xFFFF#16 ∧
  (∀ (l : List Byte) (b : Byte), crc16 (l ++ [b]) =
    let r := crc16 l ^^^ (b.setWidth 16 <<< 8)
    (List.range 8).foldl (fun r _ => if r.getLsbD 15 then (r <<< 1) ^^^ 0x1021#16 else r <<< 1) r) ∧
  crc16 [0x31#8, 0x32#8, 0x33#8, 0x34#8, 0x35#8, 0x36#8, 0x37#8, 0x38#8, 0x39#8] = 0x29B1#16 ∧
  crc16 [0x00#8] = 0xE1F0#16 ∧
  (∀ l : List Byte, ∃ hi lo : Byte, crcBytes l = [hi, lo] ∧ hi ++ lo = crc16 l) ∧
  (∀ (st : Fin 16) (inc : Byte) (origin : Port) (seq : Nat) (t0 t1 : Byte) (payload : List Byte),
    let page := dataStep1 st inc origin seq [t0, t1] payload
    bytesAt page 10 2 = crcBytes (page.take 10) ∧ bytesAt page 12 2 = crcBytes payload ∧ page.drop 16 = payload) ∧
  (∀ (generation first : Nat) (kind : MetaKind) (entries : List MetaEntry),
    let page := metaStep1 generation first kind entries
    bytesAt page 10 2 = crcBytes (page.take 10) ∧ bytesAt page 12 2 = crcBytes (page.drop 16) ∧
      page.drop 16 = entries.flatMap MetaEntry.encode) ∧
  (∀ (tag kind : Byte) (body : List Byte),
    let frame := requestFrame tag kind body
    frame = frame.take (3 + body.length) ++ crcBytes (frame.take (3 + body.length))) ∧
  ∀ r : Response,
    let frame := responseFrame r
    frame = frame.take (4 + r.body.length) ++ crcBytes (frame.take (4 + r.body.length))

/-- What PROGRAM_FAIL and a cut step leave, whatever the free value: in the range each byte holds former 1 bits less
some of those the target clears; what a stopped or failed erase pulse leaves: in its sector each byte holds its former
value with some 0 bits set; elsewhere nothing changes (R69, R77, R79, R83). -/
def Obligations.CutPulsesMoveBitsOneWay : Prop :=
  (∀ (f : Flash) (n base : Nat) (target : List Byte), f.wf = true →
      ∀ f', (f' = f.programCut n base target ∨ f' = f.programFailed n base target) →
        (∀ a, a < base ∨ base + target.length ≤ a → f'.read a = f.read a) ∧
        ∀ i t, target[i]? = some t →
          (f'.read (base + i) &&& f.read (base + i)) = f'.read (base + i) ∧
          (f.read (base + i) &&& t) = (f'.read (base + i) &&& t)) ∧
  ∀ (f : Flash) (n sector : Nat), f.wf = true →
    ∀ f', (f' = f.partialErase n sector ∨ f' = f.eraseFailed n sector) →
      (∀ a, a < sector * 4096 ∨ sector * 4096 + 4096 ≤ a → f'.read a = f.read a) ∧
      ∀ a, (f'.read a ||| f.read a) = f'.read a

/-- The canonical form of the array is kept by every step, from every state that has it. -/
def Obligations.EveryStepKeepsTheArrayForm : Prop :=
  ∀ s t : State, s.flash.wf = true → step s = .next t → t.flash.wf = true

/-- A page written by both steps of an append reads back as its record, whatever the page held where the steps verify
(R37, R38, R54, R71, R77). -/
def Obligations.StoredRecordReadsBack : Prop :=
  ∀ (f : Flash) (sector page : Nat) (st : Fin 16) (inc t0 t1 : Byte) (origin : Port) (seq : Nat) (payload : List Byte),
    f.wf = true → seq < 4294967296 → 1 ≤ payload.length → payload.length ≤ 240 →
    let base := pageBase sector page
    let g := (f.programmed base (dataStep1 st inc origin seq [t0, t1] payload)).programmed (base + 14) [0x00#8]
    let bytes := g.readPage sector page
    recordGood bytes st inc seq = true ∧ recordBody bytes seq = bigEndian 4 seq ++ [t0, t1] ++ payload ∧
      dataCondition bytes = .committed ∧
      dataCondition ((f.programmed base (dataStep1 st inc origin seq [t0, t1] payload)).readPage sector page) =
        .uncommitted

/-! ### Metadata entries and pages -/

/-- A metadata entry read back from the 16 bytes it is written as is that entry, for every entry with its fields in the
ranges of R103 and R125; a metadata page written by both steps reads back as the page it was formed as (R73, R74, R103,
R125). -/
def Obligations.MetadataReadsBack : Prop :=
  (∀ e : MetaEntry, e.valid = true → e.encode.length = 16 ∧ decodeEntry e.encode = some e) ∧
  ∀ (f : Flash) (g : PageInFlight), f.wf = true → g.half < 2 → g.page < 32 → g.generation < 4294967296 →
    g.first < 4294967296 → 1 ≤ g.entries.length → g.entries.length ≤ 15 → (∀ e ∈ g.entries, e.valid = true) →
    (g.kind = .journal → ∀ e ∈ g.entries, e.asEnd = none) →
    let base := pageBase (metaSector g.half g.page) (metaPage g.page)
    let f' := (f.programmed base (metaStep1 g.generation g.first g.kind g.entries)).programmed (base + 14) [0x00#8]
    readMetaPage (f'.halfPage g.half g.page) = some ⟨g.generation, g.first, g.kind, g.entries⟩

/-- Staging and places. A CURSOR entry staged where the buffer holds an open one of its cursor replaces the newest of
them in place, its serial kept, unless a definition of its stream follows that one; otherwise, as any other entry, it
joins at the end with the next serial (R106); an entry that meets the serial limit halts the writer, and one that takes
no entries discards it (R104, R120). Freed places are offered down the list from its head, in ERASING first to the
engine: a waiter that stages or is answered leaves the list, and the offering goes on past it; one that still lacks
places keeps its position, and the offering stops there. An executor offered places makes its request's checks again; an
append that waits for a drop's places makes its checks and finds its place from the start; one with kept RETIRE entries
stages them and goes on; the consent unit discards its purge where the stream is gone, executes it where the places
suffice, and with an append in flight goes back to PURGE_PENDING, off the list (log 48) (R29, R33, R34, R43, R107,
R147). That a replacement succeeds with the next serial at
FFFFFFFFh is the model's choice between R104 and R106 (log 17), which of two open entries of a cursor is replaced is log
42, and that one whose kept entry meets the limit goes on as if staged is log 41. -/
def Obligations.StagingCoalescesAndOffersPlaces : Prop :=
  (∀ (d : Device) (st : Fin 16) (inc : Byte) (p : Port) (committed lost : Nat), d.writer.takesEntries = true →
    let e := MetaEntry.cursor st inc p committed lost
    let joins := d.writer.nextSerial < 4294967295 →
      (d.stage e).writer = { d.writer with
        staging := d.writer.staging ++ [⟨d.writer.nextSerial, e, .opened⟩]
        nextSerial := d.writer.nextSerial + 1
        timerRunning := if d.writer.hasOpen then d.writer.timerRunning else true }
    (∀ (before later : List Staged) (x : Staged), d.writer.staging = before ++ x :: later → x.cond = .opened →
      x.entry.sameCursor e = true → (∀ y ∈ later, y.cond = .opened → y.entry.sameCursor e = false) →
      ((∀ y ∈ later, y.entry.definesStream st = false) →
        (d.stage e).writer = { d.writer with staging := before ++ { x with entry := e } :: later }) ∧
      ((∃ y ∈ later, y.entry.definesStream st = true) → joins)) ∧
    ((∀ x ∈ d.writer.staging, x.cond = .opened → x.entry.sameCursor e = false) → joins)) ∧
  (∀ (d : Device) (e : MetaEntry),
    (d.writer.takesEntries = false → d.stage e = d) ∧
    (d.writer.takesEntries = true → (∀ x ∈ d.writer.staging, x.cond = .opened → x.entry.sameCursor e = false) →
      (4294967295 ≤ d.writer.nextSerial → d.stage e = d.haltWriter) ∧
      (d.writer.nextSerial < 4294967295 → (d.stage e).writer = { d.writer with
        staging := d.writer.staging ++ [⟨d.writer.nextSerial, e, .opened⟩]
        nextSerial := d.writer.nextSerial + 1
        timerRunning := if d.writer.hasOpen then d.writer.timerRunning else true }))) ∧
  (∀ d : Device,
    let first := if d.writer.phase = .erasing ∧ d.engine.state = .waitStaging then d.offerTo .engine else d
    (first.writer.placeWait = [] → d.offerPlaces = first) ∧
    ∀ w rest, first.writer.placeWait = w :: rest →
      let next := first.offerTo w
      (next.writer.placeWait.head? = some w → d.offerPlaces = next) ∧
      (next.writer.placeWait = [] → d.offerPlaces = next) ∧
      ∀ v more, next.writer.placeWait = v :: more → v ≠ w →
        (next.offerTo v).writer.placeWait.head? = some v → d.offerPlaces = next.offerTo v) ∧
  (∀ (d : Device) (n : Nat) (at' : Nat → Device),
    at' 0 = (if d.writer.phase = .erasing ∧ d.engine.state = .waitStaging then d.offerTo .engine else d) →
    (∀ k, k < n → ∃ w, (at' k).writer.placeWait.head? = some w ∧ at' (k + 1) = (at' k).offerTo w ∧
      (at' (k + 1)).writer.placeWait.head? ≠ some w) →
    n < 2 * (at' 0).writer.placeWait.length →
      ((at' n).writer.placeWait = [] → d.offerPlaces = at' n) ∧
      ∀ w, (at' n).writer.placeWait.head? = some w → ((at' n).offerTo w).writer.placeWait.head? = some w →
        d.offerPlaces = (at' n).offerTo w) ∧
  (∀ (d : Device) (p : Port) (j : AppendJob), (d.exec p).state = .waitStaging → (d.exec p).job = .append j →
    j.phase = .seek → .executor p ∈ d.writer.placeWait →
    let again := fun (e : Device) => d.offerTo (.executor p) = e.leavePlaceWait (.executor p)
    (∀ status, d.appendCheck p (d.appendBody p) = .error status →
      d.offerTo (.executor p) = (d.leavePlaceWait (.executor p)).answer p status []) ∧
    ∀ found b, d.appendCheck p (d.appendBody p) = .ok found → d.stream j.stream = some b →
      let room := fun (e : Device) =>
        (e.freePool ≠ [] → again ((e.allocate j.stream).toExec p .waitArray (.append j))) ∧
        (e.freePool = [] → e.eraseQueue = [] → again (e.answer p .nospace [])) ∧
        (e.freePool = [] → e.eraseQueue ≠ [] →
          again { e.toExec p .waitSpace (.append j) with spaceWait := e.spaceWait ++ [p] })
      (d.tailOf b ≠ none → again (d.toExec p .waitArray (.append j))) ∧
      (d.tailOf b = none →
        (b.chain.length < b.quota → room d) ∧
        (b.quota ≤ b.chain.length → b.policy = .refuse → again (d.answer p .full [])) ∧
        (b.quota ≤ b.chain.length → b.policy = .dropOldest →
          let ready := (d.leavePlaceWait (.executor p)).toExec p .check (.append j)
          (ready.placesFor (fun d => d.dropHead j.stream) p → room (ready.dropHead j.stream)) ∧
          (¬ ready.placesFor (fun d => d.dropHead j.stream) p → d.offerTo (.executor p) = d)))) ∧
  (∀ (d : Device) (st : Fin 16) (inc : Byte), d.consent.state = .purgeStaging → d.consent.pending = some (st, inc) →
    .consent ∈ d.writer.placeWait →
    let finish := fun (d : Device) =>
      { d.leavePlaceWait .consent with consent := { d.consent with state := .idle, pending := none } }
    (d.stream st = none ∨ d.incarnation st ≠ inc → d.offerTo .consent = finish d) ∧
    ∀ b, d.stream st = some b → d.incarnation st = inc →
      ((d.exec b.writer).inFlightOn st = true → d.offerTo .consent =
        { d.leavePlaceWait .consent with consent := { d.consent with state := .purgePending } }) ∧
      ((d.exec b.writer).inFlightOn st = false →
        (d.placesSuffice .consent (d.placesNeeded fun d => d.purgeStream st) = true →
          d.offerTo .consent = finish (d.purgeStream st)) ∧
        (d.placesSuffice .consent (d.placesNeeded fun d => d.purgeStream st) = false →
          d.offerTo .consent = d))) ∧
  ∀ (d : Device) (p : Port),
    (∀ r, (d.exec p).inHand = some r → (∀ j, (d.exec p).job ≠ .append j) →
      let again := d.process p r
      ((again.exec p).state = .waitStaging → d.offerTo (.executor p) = again) ∧
      ((again.exec p).state ≠ .waitStaging → d.offerTo (.executor p) = again.leavePlaceWait (.executor p))) ∧
    (∀ j, (d.exec p).state = .waitStaging → (d.exec p).job = .append j →
      let going := (((d.leavePlaceWait (.executor p)).toExec p .check (.append { j with kept := [] })).stageAll j.kept)
      ((j.phase = .failed ∨ ∃ seq, j.phase = .committed seq) →
        d.placesSuffice (.executor p) j.kept.length = false → d.offerTo (.executor p) = d) ∧
      (d.placesSuffice (.executor p) j.kept.length = true →
        (∀ seq, j.phase = .committed seq → d.offerTo (.executor p) = going.answer p .ok (bigEndian 4 seq)) ∧
        (j.phase = .failed → 3 ≤ j.attempts →
          d.offerTo (.executor p) = (going.leavePlaceWait (.executor p)).answer p .media []) ∧
        (j.phase = .failed → j.attempts < 3 → d.offerTo (.executor p) =
          (going.toExec p .check (.append { j with phase := .seek, kept := [] })).seekPlace p { j with kept := [] }))) ∧
    ∀ o, d.engine.outcome = some o →
      (d.placesSuffice .engine 1 = true → d.offerTo .engine =
        ({ d.leavePlaceWait .engine with
          engine := { d.engine with outcome := none, state := .idle } } : Device).stage (d.outcomeEntry o)) ∧
      (d.placesSuffice .engine 1 = false → d.offerTo .engine =
        { d.joinPlaceWait .engine with engine := { d.engine with state := .waitStaging } })

/-! ### Events and queues -/

/-- An event offered to a queue (R155): a match takes the new value in its place, otherwise the event is the newest
entry while fewer than 16 wait, otherwise it is discarded with the overflow flag set; so that no queue comes to hold
more than 16 entries or two of the same kind and subject. -/
def Obligations.OfferedEventsCoalesce : Prop :=
  ∀ (u : EventUnit) (e : Event),
    (∀ (before later : List Event) (x : Event), u.queue = before ++ x :: later → x.kind = e.kind →
      x.subject = e.subject → (before ++ later).all (fun y => !y.matches e) = true →
      u.offer e = { u with queue := before ++ { x with value := e.value } :: later }) ∧
    (u.queue.all (fun y => !y.matches e) = true → u.queue.length < 16 →
      u.offer e = { u with queue := u.queue ++ [e] }) ∧
    (u.queue.all (fun y => !y.matches e) = true → 16 ≤ u.queue.length → u.offer e = { u with overflow := true }) ∧
    (u.queue.length ≤ 16 → (u.queue.Pairwise fun x y => ¬(x.kind = y.kind ∧ x.subject = y.subject)) →
      (u.offer e).queue.length ≤ 16 ∧
        (u.offer e).queue.Pairwise fun x y => ¬(x.kind = y.kind ∧ x.subject = y.subject))

/-- The high flag (R6): set exactly while room is at most the margin, HIGH_WATER with the room to the writer on setting.
-/
def Obligations.HighFlagFollowsTheRoom : Prop :=
  ∀ (d : Device) (st : Fin 16) (b : StreamBody), d.stream st = some b →
    let full := decide (b.quota * 16 - b.used ≤ b.margin)
    (d.evalHigh st).stream st = some { b with high := full } ∧
      (d.evalHigh st).events = (if full && !b.high then
        d.offer b.writer ⟨.highWater, some st.val, some (b.quota * 16 - b.used)⟩ else d).events

/-- No event queue comes to hold more than sixteen entries, or two of one kind and subject (R154, R155); no request
queue comes to hold more than four entries, and every request in hand has its response slot (R166). -/
def Obligations.QueuesStayGood : Prop :=
  (∀ s t : State, s.dev.eventsGood → step s = .next t → t.dev.eventsGood) ∧
  ∀ s t : State, s.dev.requestsGood ∧ s.dev.slotsGood → step s = .next t → t.dev.requestsGood ∧ t.dev.slotsGood

/-- No erase is suspended more than sixteen times (R89). -/
def Obligations.SuspensionsStayInBudget : Prop :=
  ∀ s t : State, s.dev.budgetGood → step s = .next t → t.dev.budgetGood

/-- No sector comes to be in two places, every data sector keeps one after a mount, the bad list holds at most 32, and
the data sector being erased stays in the erase queue (R12 to R16). While a mount runs its unit's tables hold each
scanned sector in one class, so that the step that ends it puts every data sector in one place (R123, R131, R137). -/
def Obligations.SectorsStayInOnePlace : Prop :=
  ∀ s t : State, s.dev.sectorsGood ∧ s.dev.scanGood → step s = .next t → t.dev.sectorsGood ∧ t.dev.scanGood

/-- With the sectors each in one place: the records of every open stream stay one run of sequences from the oldest to
below the next, every cursor keeps oldest ≤ committed ≤ delivered ≤ next sequence and its lost count within 65535, and
every append in execution stays its stream's writer's own, its page WRITING in the last sector of the chain (R4, R11,
R36, R49, R50); a mount leaves them so. A READ is granted for a record below the next sequence (R53), an append for a
page of its own stream's chain (R36). That a record read moves delivered no further than the next sequence is the
model's choice (log 45). -/
def Obligations.CursorsStayInOrder : Prop :=
  (∀ s t : State, s.dev.sectorsGood ∧ s.dev.scanGood ∧ s.dev.cursorsGood ∧ s.dev.appendsGood → step s = .next t →
    t.dev.sectorsGood ∧ t.dev.scanGood ∧ t.dev.cursorsGood ∧ t.dev.appendsGood) ∧
  (∀ (d : Device) (p : Port) (st : Fin 16) (inc : Byte), d.cursorsGood →
    ∀ st' inc' seq sector page b, ((d.grantRead p st inc).exec p).job = .reading st' inc' seq sector page →
      (d.exec p).job = .read st inc → d.stream st' = some b → st' = st ∧ inc' = inc ∧ seq < b.next) ∧
  ∀ (d : Device) (p : Port) (j k : AppendJob), d.sectorsGood → (d.exec p).job = .append j → j.phase = .seek →
    ((d.grantStep1 p j).exec p).job = .append k → k.phase = .step1 →
    ∃ b, d.stream j.stream = some b ∧ k.stream = j.stream ∧ k.sector ∈ b.chain ∧
      ∀ st b', st ≠ j.stream → d.stream st = some b' → k.sector ∉ b'.chain

/-- The staging buffer keeps at most 15 entries in ascending serial order below the next serial, and the durable serial
does not pass the newest serial assigned (R104, R105). -/
def Obligations.JournalStaysInOrder : Prop :=
  ∀ s t : State, s.dev.journalGood → step s = .next t → t.dev.journalGood

/-- The state after reset: MOUNTING at its first page, every queue empty, every session DETACHED, and every invariant
above (R123, R154, R161, R166, R175, R177). That it is a part out of RESETn with PFAIL released and its first read under
way is the model's choice (log 3), and so are its erased array (log 2) and the values of registers the manual gives none
(log 20). -/
def Obligations.ResetIsMountingAndGood : Prop :=
  State.reset.dev.mode = .mounting ∧ State.reset.dev.mount.phase = .metaScan ∧
    State.reset.dev.arrayOp = .read 0 0 ∧ State.reset.dev.active = true ∧ State.reset.pending = [] ∧
    (∀ p, (State.reset.dev.port p).attached = false ∧ (State.reset.dev.events.get p).mask = 0x0200#16 ∧
      State.reset.dev.alert p = false ∧ State.reset.dev.linkStatus p = [0x80#8, 0x01#8]) ∧
    State.reset.flash.wf = true ∧ State.reset.dev.eventsGood ∧ State.reset.dev.requestsGood ∧
    State.reset.dev.slotsGood ∧ State.reset.dev.budgetGood ∧ State.reset.dev.sectorsGood ∧
    State.reset.dev.scanGood ∧ State.reset.dev.cursorsGood ∧ State.reset.dev.appendsGood ∧
    State.reset.dev.journalGood
end

