-- ==== Sys2Proof/Laws/Flash.lean ====
section
/-! SUPPORT. The laws of the page array: a read after a write, and the canonical form kept by every operation. -/

namespace Sys2Proof.Machine

open Sys2Proof

/-! ### Canonical form -/

theorem Flash.risingFrom_mono {j k : Nat} (h : j ≤ k) : {m : Flash} → m.risingFrom k = true → m.risingFrom j = true
  | [], _ => rfl
  | (a, v) :: t, hm => by
    simp only [Flash.risingFrom, Bool.and_eq_true, decide_eq_true_eq] at hm ⊢
    exact ⟨⟨le_trans h hm.1.1, hm.1.2⟩, hm.2⟩

/-- An address below every listed one reads erased. -/
theorem Flash.read_below {low a : Nat} (h : a < low) : {m : Flash} → m.risingFrom low = true → m.read a = erasedByte
  | [], _ => rfl
  | (k, v) :: t, hm => by
    simp only [Flash.risingFrom, Bool.and_eq_true, decide_eq_true_eq] at hm
    have hk : k ≠ a := by omega
    simp only [Flash.read, hk, if_false]
    exact Flash.read_below (by omega) hm.2

theorem Flash.risingFrom_write {low a : Nat} (v : Byte) (h : low ≤ a) :
    {m : Flash} → m.risingFrom low = true → (m.write a v).risingFrom low = true
  | [], _ => by
    unfold Flash.write
    split
    · rfl
    · simp_all [Flash.risingFrom]
  | (k, b) :: t, hm => by
    have hm' := hm
    simp only [Flash.risingFrom, Bool.and_eq_true, decide_eq_true_eq] at hm'
    obtain ⟨⟨hk, hb⟩, ht⟩ := hm'
    unfold Flash.write
    split
    · simp only [Flash.risingFrom, Bool.and_eq_true, decide_eq_true_eq]
      exact ⟨⟨hk, hb⟩, Flash.risingFrom_write v (by omega) ht⟩
    · split
      · split
        · exact Flash.risingFrom_mono (by omega) ht
        · simp_all [Flash.risingFrom]
      · split
        · exact hm
        · simp only [Flash.risingFrom, Bool.and_eq_true, decide_eq_true_eq]
          exact ⟨⟨h, by simp_all⟩, ⟨by omega, hb⟩, ht⟩

/-- A write keeps the canonical form. -/
theorem Flash.wf_write {m : Flash} (a : Nat) (v : Byte) (h : m.wf = true) : (m.write a v).wf = true :=
  Flash.risingFrom_write v (Nat.zero_le a) h

/-! ### A read after a write -/

theorem Flash.read_write_self (a : Nat) (v : Byte) :
    {low : Nat} → {m : Flash} → m.risingFrom low = true → (m.write a v).read a = v
  | _, [], _ => by
    unfold Flash.write
    split <;> simp_all [Flash.read]
  | _, (k, b) :: t, hm => by
    simp only [Flash.risingFrom, Bool.and_eq_true, decide_eq_true_eq] at hm
    unfold Flash.write
    split
    · have hk : k ≠ a := by omega
      simp only [Flash.read, hk, if_false]
      exact Flash.read_write_self a v hm.2
    · split
      · split
        · subst_vars
          exact Flash.read_below (Nat.lt_succ_self _) hm.2
        · simp [Flash.read]
      · split
        · have hk : k ≠ a := by omega
          subst_vars
          simp only [Flash.read, hk, if_false]
          exact Flash.read_below (by omega) hm.2
        · simp [Flash.read]

theorem Flash.read_write_other (a : Nat) (v : Byte) {c : Nat} (h : c ≠ a) :
    (m : Flash) → (m.write a v).read c = m.read c
  | [] => by
    unfold Flash.write
    split
    · rfl
    · have : a ≠ c := fun e => h e.symm
      simp [Flash.read, this]
  | (k, b) :: t => by
    unfold Flash.write
    have hac : a ≠ c := fun e => h e.symm
    split
    · simp only [Flash.read]
      split
      · rfl
      · exact Flash.read_write_other a v h t
    · split
      · subst_vars
        split <;> simp [Flash.read, hac]
      · split
        · rfl
        · simp [Flash.read, hac]

/-! ### Programs and erases keep the form -/

theorem Flash.wf_writeList : (l : List Byte) → (m : Flash) → (a : Nat) → m.wf = true → (m.writeList a l).wf = true
  | [], _, _, h => h
  | v :: vs, m, a, h => Flash.wf_writeList vs (m.write a v) (a + 1) (Flash.wf_write a v h)

theorem Flash.wf_programmed {m : Flash} (base : Nat) (target : List Byte) (h : m.wf = true) :
    (m.programmed base target).wf = true := Flash.wf_writeList _ _ _ h

theorem Flash.wf_programCut {m : Flash} (n base : Nat) (target : List Byte) (h : m.wf = true) :
    (m.programCut n base target).wf = true := Flash.wf_writeList _ _ _ h

theorem Flash.wf_programFailed {m : Flash} (n base : Nat) (target : List Byte) (h : m.wf = true) :
    (m.programFailed n base target).wf = true := by
  unfold Flash.programFailed
  dsimp only
  split
  · exact h
  · exact Flash.wf_writeList _ _ _ h

/-- Cells left out, or changed in place to bytes that are not erased, keep the form. -/
theorem Flash.risingFrom_filterMap (f : Host.Cell → Option Host.Cell)
    (hf : ∀ x y, f x = some y → y.1 = x.1 ∧ ((x.2 != erasedByte) = true → (y.2 != erasedByte) = true)) :
    {low : Nat} → {m : Flash} → m.risingFrom low = true → Flash.risingFrom low (m.filterMap f) = true
  | _, [], _ => rfl
  | low, (k, v) :: t, hm => by
    simp only [Flash.risingFrom, Bool.and_eq_true, decide_eq_true_eq] at hm
    have ht := Flash.risingFrom_filterMap f hf hm.2
    cases hx : f (k, v) with
    | none =>
      rw [List.filterMap_cons_none hx]
      exact Flash.risingFrom_mono (by omega) ht
    | some y =>
      obtain ⟨h1, h2⟩ := hf _ _ hx
      rw [List.filterMap_cons_some hx]
      obtain ⟨yk, yv⟩ := y
      simp only at h1
      subst h1
      simp only [Flash.risingFrom, Bool.and_eq_true, decide_eq_true_eq]
      exact ⟨⟨hm.1.1, h2 hm.1.2⟩, ht⟩

theorem Flash.wf_eraseSector {m : Flash} (sector : Nat) (h : m.wf = true) : (m.eraseSector sector).wf = true := by
  have := Flash.risingFrom_filterMap (Option.guard fun x => !inSector sector x.1) (by
    intro x y hxy
    obtain ⟨rfl, -⟩ := Option.guard_eq_some_iff.mp hxy
    exact ⟨rfl, id⟩) h
  rwa [List.filterMap_eq_filter] at this

theorem Flash.wf_partialErase {m : Flash} (n sector : Nat) (h : m.wf = true) : (m.partialErase n sector).wf = true := by
  refine Flash.risingFrom_filterMap _ ?_ h
  intro x y hxy
  simp only at hxy
  split at hxy
  · split at hxy
    · cases hxy
    · cases hxy
      exact ⟨rfl, fun _ => by simp_all⟩
  · cases hxy; exact ⟨rfl, id⟩

theorem Flash.wf_eraseFailed {m : Flash} (n sector : Nat) (h : m.wf = true) : (m.eraseFailed n sector).wf = true := by
  unfold Flash.eraseFailed
  simp only
  split
  · exact h
  · exact Flash.wf_partialErase n sector h

/-! ### The array as its owners leave it -/

/-- PROGRAM_DONE happens only with a program step in progress, reports its pulses, and leaves its targets (R77). -/
theorem Device.stepPasses_spec {d : Device} {flash : Flash} {r : Rig} (h : d.stepPasses flash = some r) :
    ∃ sector page first target, d.arrayOp = .program sector page first target ∧
      flash.verifies (pageBase sector page + first) target = true ∧
      r = (d.programDone (flash.holds (pageBase sector page + first) target),
        flash.programmed (pageBase sector page + first) target) := by
  unfold Device.stepPasses at h
  split at h
  · rename_i sector page first target hop
    simp only at h
    split at h
    · cases h; exact ⟨sector, page, first, target, hop, ‹_›, rfl⟩
    · cases h
  all_goals cases h

/-- PROGRAM_FAIL happens only with a program step in progress whose range does not read its target (R77). -/
theorem Device.stepFails_spec {d : Device} {flash : Flash} {r : Rig} (h : d.stepFails flash = some r) :
    ∃ sector page first target, d.arrayOp = .program sector page first target ∧
      flash.holds (pageBase sector page + first) target = false ∧
      r = (d.drawn, flash.programFailed d.draws (pageBase sector page + first) target) := by
  unfold Device.stepFails at h
  split at h
  · rename_i sector page first target hop
    simp only at h
    split at h
    · cases h
    · rename_i hh
      cases h; exact ⟨sector, page, first, target, hop, (Bool.not_eq_true _).mp hh, rfl⟩
  all_goals cases h

theorem Device.stepPasses_wf {d d' : Device} {flash flash' : Flash} (hw : flash.wf = true)
    (h : d.stepPasses flash = some (d', flash')) : flash'.wf = true := by
  obtain ⟨_, _, _, _, _, _, e⟩ := Device.stepPasses_spec h
  cases e
  exact Flash.wf_programmed _ _ hw

theorem Device.stepFails_wf {d d' : Device} {flash flash' : Flash} (hw : flash.wf = true)
    (h : d.stepFails flash = some (d', flash')) : flash'.wf = true := by
  obtain ⟨_, _, _, _, _, _, e⟩ := Device.stepFails_spec h
  cases e
  exact Flash.wf_programFailed _ _ _ hw

theorem Device.stepEnds_wf {d d' : Device} {flash flash' : Flash} {verified : Bool} (hw : flash.wf = true)
    (h : d.stepEnds flash verified = some (d', flash')) : flash'.wf = true := by
  unfold Device.stepEnds at h
  split at h
  · exact Device.stepPasses_wf hw h
  · exact Device.stepFails_wf hw h

/-- A report of PROGRAM_DONE changes the pulses reported and the draw counter alone (R77). -/
theorem Device.programDone_frame (d : Device) (held : Bool) :
    d.programDone held = { d with pulses := (d.programDone held).pulses, draws := d.draws + 1 } := rfl

/-- The pulses reported lie between 1 and 8, whatever the free value (R77). -/
theorem Device.programDone_pulses (d : Device) (held : Bool) :
    1 ≤ (d.programDone held).pulses ∧ (d.programDone held).pulses ≤ 8 := by
  cases held
  · have := Nat.mod_lt (Config.stepPulses d.draws) (show 0 < Config.programPulses by decide)
    simp only [Device.programDone, Config.programPulses] at *
    exact ⟨by simp, by simp; omega⟩
  · exact ⟨Nat.le_refl _, by simp [Device.programDone]⟩

theorem Device.cutArray_wf {d : Device} {flash : Flash} (hw : flash.wf = true) : (d.cutArray flash).wf = true := by
  unfold Device.cutArray
  split
  · exact Flash.wf_programCut _ _ _ hw
  · split
    · exact Flash.wf_partialErase _ _ hw
    · exact hw
  · split
    · exact Flash.wf_partialErase _ _ hw
    · exact hw
  · exact hw
  · exact hw

end Sys2Proof.Machine
end

