-- ==== Sys2Proof/Laws/State.lean ====
section
/-! SUPPORT. The small lemmas of the state: per-port tables, and one lemma for each field that each named update leaves
alone, so that no proof unfolds a record update. -/

namespace Sys2Proof.Machine

open Sys2Proof

/-! ### Per-port tables -/

@[simp] theorem PerPort.get_set_self {α : Type} (t : PerPort α) (p : Port) (x : α) : (t.set p x).get p = x := by
  cases p <;> rfl

theorem PerPort.get_set {α : Type} (t : PerPort α) (p q : Port) (x : α) :
    (t.set p x).get q = if q = p then x else t.get q := by
  cases p <;> cases q <;> rfl

@[simp] theorem PerPort.set_get {α : Type} (t : PerPort α) (p : Port) : t.set p (t.get p) = t := by
  cases p <;> rfl

@[simp] theorem PerPort.set_set {α : Type} (t : PerPort α) (p : Port) (x y : α) :
    (t.set p x).set p y = t.set p y := by
  cases p <;> rfl

@[simp] theorem PerPort.get_all {α : Type} (p : Port) (x : α) : (PerPort.all x).get p = x := by
  cases p <;> rfl

theorem PerPort.ext_get {α : Type} {t u : PerPort α} (h : ∀ p, t.get p = u.get p) : t = u := by
  have ha := h .A; have hb := h .B; have hc := h .C
  cases t; cases u
  simp_all [PerPort.get]

/-! ### The port and executor of a part -/

@[simp] theorem Device.port_setPort (d : Device) (p : Port) (x : HostPort) : (d.setPort p x).port p = x :=
  PerPort.get_set_self _ _ _

theorem Device.port_setPort_other (d : Device) (p q : Port) (x : HostPort) (h : q ≠ p) :
    (d.setPort p x).port q = d.port q := by
  simp [Device.port, Device.setPort, PerPort.get_set, h]

@[simp] theorem Device.exec_setExec (d : Device) (p : Port) (x : Executor) : (d.setExec p x).exec p = x :=
  PerPort.get_set_self _ _ _

theorem Device.exec_setExec_other (d : Device) (p q : Port) (x : Executor) (h : q ≠ p) :
    (d.setExec p x).exec q = d.exec q := by
  simp [Device.exec, Device.setExec, PerPort.get_set, h]

@[simp] theorem Device.exec_setPort (d : Device) (p q : Port) (x : HostPort) : (d.setPort p x).exec q = d.exec q := rfl

@[simp] theorem Device.port_setExec (d : Device) (p q : Port) (x : Executor) : (d.setExec p x).port q = d.port q := rfl

@[simp] theorem Device.setPort_setPort (d : Device) (p : Port) (x y : HostPort) :
    (d.setPort p x).setPort p y = d.setPort p y := by
  simp [Device.setPort]

@[simp] theorem Device.setExec_setExec (d : Device) (p : Port) (x y : Executor) :
    (d.setExec p x).setExec p y = d.setExec p y := by
  simp [Device.setExec]

@[simp] theorem Device.setPort_port (d : Device) (p : Port) : d.setPort p (d.port p) = d := by
  simp [Device.setPort, Device.port]

@[simp] theorem Device.setExec_exec (d : Device) (p : Port) : d.setExec p (d.exec p) = d := by
  simp [Device.setExec, Device.exec]

theorem Device.setPort_setExec (d : Device) (p q : Port) (x : HostPort) (y : Executor) :
    (d.setPort p x).setExec q y = (d.setExec q y).setPort p x := rfl

/-! ### Stream, cursor and sector tables -/

@[simp] theorem Device.stream_setBody (d : Device) (st : Fin 16) (b : Option StreamBody) :
    (d.setBody st b).stream st = b := by
  simp [Device.stream, Device.setBody]

theorem Device.stream_setBody_other (d : Device) (st st' : Fin 16) (b : Option StreamBody) (h : st' ≠ st) :
    (d.setBody st b).stream st' = d.stream st' := by
  have : st.val ≠ st'.val := fun e => h (Fin.ext e.symm)
  simp [Device.stream, Device.setBody, this]

@[simp] theorem Device.incarnation_setBody (d : Device) (st st' : Fin 16) (b : Option StreamBody) :
    (d.setBody st b).incarnation st' = d.incarnation st' := by
  by_cases h : st.val = st'.val <;> simp [Device.incarnation, Device.setBody, h]

@[simp] theorem Device.cursor_setCursor (d : Device) (st : Fin 16) (p : Port) (c : Option Cursor) :
    (d.setCursor st p c).cursor st p = c := by
  simp [Device.cursor, Device.setCursor]

theorem Device.cursor_setCursor_other (d : Device) (st st' : Fin 16) (p q : Port) (c : Option Cursor)
    (h : st' ≠ st ∨ q ≠ p) : (d.setCursor st p c).cursor st' q = d.cursor st' q := by
  by_cases e : st.val = st'.val
  · have e' : st = st' := Fin.ext e
    subst e'
    have hq : q ≠ p := h.resolve_left fun hh => hh rfl
    simp [Device.cursor, Device.setCursor, PerPort.get_set, hq]
  · simp [Device.cursor, Device.setCursor, e]

theorem Device.sector_setSector (d : Device) (n : Nat) (x : Sector) (h : n < 256) :
    (d.setSector n x).sector n = x := by
  simp [Device.sector, Device.setSector, h]

theorem Device.sector_setSector_other (d : Device) (n m : Nat) (x : Sector) (h : m ≠ n) :
    (d.setSector n x).sector m = d.sector m := by
  unfold Device.setSector
  split
  · have hm : n ≠ m := fun e => h e.symm
    simp [Device.sector, hm]
  · rfl

/-! ### setBody -/

@[simp] theorem Device.setBody_powered (d : Device) (st : Fin 16) (b : Option StreamBody) : (d.setBody st b).powered = d.powered := rfl
@[simp] theorem Device.setBody_resetLow (d : Device) (st : Fin 16) (b : Option StreamBody) : (d.setBody st b).resetLow = d.resetLow := rfl
@[simp] theorem Device.setBody_pfail (d : Device) (st : Fin 16) (b : Option StreamBody) : (d.setBody st b).pfail = d.pfail := rfl
@[simp] theorem Device.setBody_mode (d : Device) (st : Fin 16) (b : Option StreamBody) : (d.setBody st b).mode = d.mode := rfl
@[simp] theorem Device.setBody_reason (d : Device) (st : Fin 16) (b : Option StreamBody) : (d.setBody st b).reason = d.reason := rfl
@[simp] theorem Device.setBody_ports (d : Device) (st : Fin 16) (b : Option StreamBody) : (d.setBody st b).ports = d.ports := rfl
@[simp] theorem Device.setBody_events (d : Device) (st : Fin 16) (b : Option StreamBody) : (d.setBody st b).events = d.events := rfl
@[simp] theorem Device.setBody_execs (d : Device) (st : Fin 16) (b : Option StreamBody) : (d.setBody st b).execs = d.execs := rfl
@[simp] theorem Device.setBody_cursors (d : Device) (st : Fin 16) (b : Option StreamBody) : (d.setBody st b).cursors = d.cursors := rfl
@[simp] theorem Device.setBody_sectors (d : Device) (st : Fin 16) (b : Option StreamBody) : (d.setBody st b).sectors = d.sectors := rfl
@[simp] theorem Device.setBody_freePool (d : Device) (st : Fin 16) (b : Option StreamBody) : (d.setBody st b).freePool = d.freePool := rfl
@[simp] theorem Device.setBody_eraseQueue (d : Device) (st : Fin 16) (b : Option StreamBody) : (d.setBody st b).eraseQueue = d.eraseQueue := rfl
@[simp] theorem Device.setBody_badList (d : Device) (st : Fin 16) (b : Option StreamBody) : (d.setBody st b).badList = d.badList := rfl
@[simp] theorem Device.setBody_spaceWait (d : Device) (st : Fin 16) (b : Option StreamBody) : (d.setBody st b).spaceWait = d.spaceWait := rfl
@[simp] theorem Device.setBody_arrayOp (d : Device) (st : Fin 16) (b : Option StreamBody) : (d.setBody st b).arrayOp = d.arrayOp := rfl
@[simp] theorem Device.setBody_pulses (d : Device) (st : Fin 16) (b : Option StreamBody) : (d.setBody st b).pulses = d.pulses := rfl
@[simp] theorem Device.setBody_eraseDonePulses (d : Device) (st : Fin 16) (b : Option StreamBody) : (d.setBody st b).eraseDonePulses = d.eraseDonePulses := rfl
@[simp] theorem Device.setBody_eraseCtx (d : Device) (st : Fin 16) (b : Option StreamBody) : (d.setBody st b).eraseCtx = d.eraseCtx := rfl
@[simp] theorem Device.setBody_arbiter (d : Device) (st : Fin 16) (b : Option StreamBody) : (d.setBody st b).arbiter = d.arbiter := rfl
@[simp] theorem Device.setBody_engine (d : Device) (st : Fin 16) (b : Option StreamBody) : (d.setBody st b).engine = d.engine := rfl
@[simp] theorem Device.setBody_writer (d : Device) (st : Fin 16) (b : Option StreamBody) : (d.setBody st b).writer = d.writer := rfl
@[simp] theorem Device.setBody_mount (d : Device) (st : Fin 16) (b : Option StreamBody) : (d.setBody st b).mount = d.mount := rfl
@[simp] theorem Device.setBody_consent (d : Device) (st : Fin 16) (b : Option StreamBody) : (d.setBody st b).consent = d.consent := rfl
@[simp] theorem Device.setBody_draws (d : Device) (st : Fin 16) (b : Option StreamBody) : (d.setBody st b).draws = d.draws := rfl

/-! ### setStream -/

@[simp] theorem Device.setStream_powered (d : Device) (st : Fin 16) (x : Stream) : (d.setStream st x).powered = d.powered := rfl
@[simp] theorem Device.setStream_resetLow (d : Device) (st : Fin 16) (x : Stream) : (d.setStream st x).resetLow = d.resetLow := rfl
@[simp] theorem Device.setStream_pfail (d : Device) (st : Fin 16) (x : Stream) : (d.setStream st x).pfail = d.pfail := rfl
@[simp] theorem Device.setStream_mode (d : Device) (st : Fin 16) (x : Stream) : (d.setStream st x).mode = d.mode := rfl
@[simp] theorem Device.setStream_reason (d : Device) (st : Fin 16) (x : Stream) : (d.setStream st x).reason = d.reason := rfl
@[simp] theorem Device.setStream_ports (d : Device) (st : Fin 16) (x : Stream) : (d.setStream st x).ports = d.ports := rfl
@[simp] theorem Device.setStream_events (d : Device) (st : Fin 16) (x : Stream) : (d.setStream st x).events = d.events := rfl
@[simp] theorem Device.setStream_execs (d : Device) (st : Fin 16) (x : Stream) : (d.setStream st x).execs = d.execs := rfl
@[simp] theorem Device.setStream_cursors (d : Device) (st : Fin 16) (x : Stream) : (d.setStream st x).cursors = d.cursors := rfl
@[simp] theorem Device.setStream_sectors (d : Device) (st : Fin 16) (x : Stream) : (d.setStream st x).sectors = d.sectors := rfl
@[simp] theorem Device.setStream_freePool (d : Device) (st : Fin 16) (x : Stream) : (d.setStream st x).freePool = d.freePool := rfl
@[simp] theorem Device.setStream_eraseQueue (d : Device) (st : Fin 16) (x : Stream) : (d.setStream st x).eraseQueue = d.eraseQueue := rfl
@[simp] theorem Device.setStream_badList (d : Device) (st : Fin 16) (x : Stream) : (d.setStream st x).badList = d.badList := rfl
@[simp] theorem Device.setStream_spaceWait (d : Device) (st : Fin 16) (x : Stream) : (d.setStream st x).spaceWait = d.spaceWait := rfl
@[simp] theorem Device.setStream_arrayOp (d : Device) (st : Fin 16) (x : Stream) : (d.setStream st x).arrayOp = d.arrayOp := rfl
@[simp] theorem Device.setStream_pulses (d : Device) (st : Fin 16) (x : Stream) : (d.setStream st x).pulses = d.pulses := rfl
@[simp] theorem Device.setStream_eraseDonePulses (d : Device) (st : Fin 16) (x : Stream) : (d.setStream st x).eraseDonePulses = d.eraseDonePulses := rfl
@[simp] theorem Device.setStream_eraseCtx (d : Device) (st : Fin 16) (x : Stream) : (d.setStream st x).eraseCtx = d.eraseCtx := rfl
@[simp] theorem Device.setStream_arbiter (d : Device) (st : Fin 16) (x : Stream) : (d.setStream st x).arbiter = d.arbiter := rfl
@[simp] theorem Device.setStream_engine (d : Device) (st : Fin 16) (x : Stream) : (d.setStream st x).engine = d.engine := rfl
@[simp] theorem Device.setStream_writer (d : Device) (st : Fin 16) (x : Stream) : (d.setStream st x).writer = d.writer := rfl
@[simp] theorem Device.setStream_mount (d : Device) (st : Fin 16) (x : Stream) : (d.setStream st x).mount = d.mount := rfl
@[simp] theorem Device.setStream_consent (d : Device) (st : Fin 16) (x : Stream) : (d.setStream st x).consent = d.consent := rfl
@[simp] theorem Device.setStream_draws (d : Device) (st : Fin 16) (x : Stream) : (d.setStream st x).draws = d.draws := rfl

/-! ### setCursor -/

@[simp] theorem Device.setCursor_powered (d : Device) (st : Fin 16) (p : Port) (c : Option Cursor) : (d.setCursor st p c).powered = d.powered := rfl
@[simp] theorem Device.setCursor_resetLow (d : Device) (st : Fin 16) (p : Port) (c : Option Cursor) : (d.setCursor st p c).resetLow = d.resetLow := rfl
@[simp] theorem Device.setCursor_pfail (d : Device) (st : Fin 16) (p : Port) (c : Option Cursor) : (d.setCursor st p c).pfail = d.pfail := rfl
@[simp] theorem Device.setCursor_mode (d : Device) (st : Fin 16) (p : Port) (c : Option Cursor) : (d.setCursor st p c).mode = d.mode := rfl
@[simp] theorem Device.setCursor_reason (d : Device) (st : Fin 16) (p : Port) (c : Option Cursor) : (d.setCursor st p c).reason = d.reason := rfl
@[simp] theorem Device.setCursor_ports (d : Device) (st : Fin 16) (p : Port) (c : Option Cursor) : (d.setCursor st p c).ports = d.ports := rfl
@[simp] theorem Device.setCursor_events (d : Device) (st : Fin 16) (p : Port) (c : Option Cursor) : (d.setCursor st p c).events = d.events := rfl
@[simp] theorem Device.setCursor_execs (d : Device) (st : Fin 16) (p : Port) (c : Option Cursor) : (d.setCursor st p c).execs = d.execs := rfl
@[simp] theorem Device.setCursor_streams (d : Device) (st : Fin 16) (p : Port) (c : Option Cursor) : (d.setCursor st p c).streams = d.streams := rfl
@[simp] theorem Device.setCursor_sectors (d : Device) (st : Fin 16) (p : Port) (c : Option Cursor) : (d.setCursor st p c).sectors = d.sectors := rfl
@[simp] theorem Device.setCursor_freePool (d : Device) (st : Fin 16) (p : Port) (c : Option Cursor) : (d.setCursor st p c).freePool = d.freePool := rfl
@[simp] theorem Device.setCursor_eraseQueue (d : Device) (st : Fin 16) (p : Port) (c : Option Cursor) : (d.setCursor st p c).eraseQueue = d.eraseQueue := rfl
@[simp] theorem Device.setCursor_badList (d : Device) (st : Fin 16) (p : Port) (c : Option Cursor) : (d.setCursor st p c).badList = d.badList := rfl
@[simp] theorem Device.setCursor_spaceWait (d : Device) (st : Fin 16) (p : Port) (c : Option Cursor) : (d.setCursor st p c).spaceWait = d.spaceWait := rfl
@[simp] theorem Device.setCursor_arrayOp (d : Device) (st : Fin 16) (p : Port) (c : Option Cursor) : (d.setCursor st p c).arrayOp = d.arrayOp := rfl
@[simp] theorem Device.setCursor_pulses (d : Device) (st : Fin 16) (p : Port) (c : Option Cursor) : (d.setCursor st p c).pulses = d.pulses := rfl
@[simp] theorem Device.setCursor_eraseDonePulses (d : Device) (st : Fin 16) (p : Port) (c : Option Cursor) : (d.setCursor st p c).eraseDonePulses = d.eraseDonePulses := rfl
@[simp] theorem Device.setCursor_eraseCtx (d : Device) (st : Fin 16) (p : Port) (c : Option Cursor) : (d.setCursor st p c).eraseCtx = d.eraseCtx := rfl
@[simp] theorem Device.setCursor_arbiter (d : Device) (st : Fin 16) (p : Port) (c : Option Cursor) : (d.setCursor st p c).arbiter = d.arbiter := rfl
@[simp] theorem Device.setCursor_engine (d : Device) (st : Fin 16) (p : Port) (c : Option Cursor) : (d.setCursor st p c).engine = d.engine := rfl
@[simp] theorem Device.setCursor_writer (d : Device) (st : Fin 16) (p : Port) (c : Option Cursor) : (d.setCursor st p c).writer = d.writer := rfl
@[simp] theorem Device.setCursor_mount (d : Device) (st : Fin 16) (p : Port) (c : Option Cursor) : (d.setCursor st p c).mount = d.mount := rfl
@[simp] theorem Device.setCursor_consent (d : Device) (st : Fin 16) (p : Port) (c : Option Cursor) : (d.setCursor st p c).consent = d.consent := rfl
@[simp] theorem Device.setCursor_draws (d : Device) (st : Fin 16) (p : Port) (c : Option Cursor) : (d.setCursor st p c).draws = d.draws := rfl

/-! ### dropCursors -/

@[simp] theorem Device.dropCursors_powered (d : Device) (st : Fin 16) : (d.dropCursors st).powered = d.powered := rfl
@[simp] theorem Device.dropCursors_resetLow (d : Device) (st : Fin 16) : (d.dropCursors st).resetLow = d.resetLow := rfl
@[simp] theorem Device.dropCursors_pfail (d : Device) (st : Fin 16) : (d.dropCursors st).pfail = d.pfail := rfl
@[simp] theorem Device.dropCursors_mode (d : Device) (st : Fin 16) : (d.dropCursors st).mode = d.mode := rfl
@[simp] theorem Device.dropCursors_reason (d : Device) (st : Fin 16) : (d.dropCursors st).reason = d.reason := rfl
@[simp] theorem Device.dropCursors_ports (d : Device) (st : Fin 16) : (d.dropCursors st).ports = d.ports := rfl
@[simp] theorem Device.dropCursors_events (d : Device) (st : Fin 16) : (d.dropCursors st).events = d.events := rfl
@[simp] theorem Device.dropCursors_execs (d : Device) (st : Fin 16) : (d.dropCursors st).execs = d.execs := rfl
@[simp] theorem Device.dropCursors_streams (d : Device) (st : Fin 16) : (d.dropCursors st).streams = d.streams := rfl
@[simp] theorem Device.dropCursors_sectors (d : Device) (st : Fin 16) : (d.dropCursors st).sectors = d.sectors := rfl
@[simp] theorem Device.dropCursors_freePool (d : Device) (st : Fin 16) : (d.dropCursors st).freePool = d.freePool := rfl
@[simp] theorem Device.dropCursors_eraseQueue (d : Device) (st : Fin 16) : (d.dropCursors st).eraseQueue = d.eraseQueue := rfl
@[simp] theorem Device.dropCursors_badList (d : Device) (st : Fin 16) : (d.dropCursors st).badList = d.badList := rfl
@[simp] theorem Device.dropCursors_spaceWait (d : Device) (st : Fin 16) : (d.dropCursors st).spaceWait = d.spaceWait := rfl
@[simp] theorem Device.dropCursors_arrayOp (d : Device) (st : Fin 16) : (d.dropCursors st).arrayOp = d.arrayOp := rfl
@[simp] theorem Device.dropCursors_pulses (d : Device) (st : Fin 16) : (d.dropCursors st).pulses = d.pulses := rfl
@[simp] theorem Device.dropCursors_eraseDonePulses (d : Device) (st : Fin 16) : (d.dropCursors st).eraseDonePulses = d.eraseDonePulses := rfl
@[simp] theorem Device.dropCursors_eraseCtx (d : Device) (st : Fin 16) : (d.dropCursors st).eraseCtx = d.eraseCtx := rfl
@[simp] theorem Device.dropCursors_arbiter (d : Device) (st : Fin 16) : (d.dropCursors st).arbiter = d.arbiter := rfl
@[simp] theorem Device.dropCursors_engine (d : Device) (st : Fin 16) : (d.dropCursors st).engine = d.engine := rfl
@[simp] theorem Device.dropCursors_writer (d : Device) (st : Fin 16) : (d.dropCursors st).writer = d.writer := rfl
@[simp] theorem Device.dropCursors_mount (d : Device) (st : Fin 16) : (d.dropCursors st).mount = d.mount := rfl
@[simp] theorem Device.dropCursors_consent (d : Device) (st : Fin 16) : (d.dropCursors st).consent = d.consent := rfl
@[simp] theorem Device.dropCursors_draws (d : Device) (st : Fin 16) : (d.dropCursors st).draws = d.draws := rfl

/-! ### setPort -/

@[simp] theorem Device.setPort_powered (d : Device) (p : Port) (x : HostPort) : (d.setPort p x).powered = d.powered := rfl
@[simp] theorem Device.setPort_resetLow (d : Device) (p : Port) (x : HostPort) : (d.setPort p x).resetLow = d.resetLow := rfl
@[simp] theorem Device.setPort_pfail (d : Device) (p : Port) (x : HostPort) : (d.setPort p x).pfail = d.pfail := rfl
@[simp] theorem Device.setPort_mode (d : Device) (p : Port) (x : HostPort) : (d.setPort p x).mode = d.mode := rfl
@[simp] theorem Device.setPort_reason (d : Device) (p : Port) (x : HostPort) : (d.setPort p x).reason = d.reason := rfl
@[simp] theorem Device.setPort_events (d : Device) (p : Port) (x : HostPort) : (d.setPort p x).events = d.events := rfl
@[simp] theorem Device.setPort_execs (d : Device) (p : Port) (x : HostPort) : (d.setPort p x).execs = d.execs := rfl
@[simp] theorem Device.setPort_streams (d : Device) (p : Port) (x : HostPort) : (d.setPort p x).streams = d.streams := rfl
@[simp] theorem Device.setPort_cursors (d : Device) (p : Port) (x : HostPort) : (d.setPort p x).cursors = d.cursors := rfl
@[simp] theorem Device.setPort_sectors (d : Device) (p : Port) (x : HostPort) : (d.setPort p x).sectors = d.sectors := rfl
@[simp] theorem Device.setPort_freePool (d : Device) (p : Port) (x : HostPort) : (d.setPort p x).freePool = d.freePool := rfl
@[simp] theorem Device.setPort_eraseQueue (d : Device) (p : Port) (x : HostPort) : (d.setPort p x).eraseQueue = d.eraseQueue := rfl
@[simp] theorem Device.setPort_badList (d : Device) (p : Port) (x : HostPort) : (d.setPort p x).badList = d.badList := rfl
@[simp] theorem Device.setPort_spaceWait (d : Device) (p : Port) (x : HostPort) : (d.setPort p x).spaceWait = d.spaceWait := rfl
@[simp] theorem Device.setPort_arrayOp (d : Device) (p : Port) (x : HostPort) : (d.setPort p x).arrayOp = d.arrayOp := rfl
@[simp] theorem Device.setPort_pulses (d : Device) (p : Port) (x : HostPort) : (d.setPort p x).pulses = d.pulses := rfl
@[simp] theorem Device.setPort_eraseDonePulses (d : Device) (p : Port) (x : HostPort) : (d.setPort p x).eraseDonePulses = d.eraseDonePulses := rfl
@[simp] theorem Device.setPort_eraseCtx (d : Device) (p : Port) (x : HostPort) : (d.setPort p x).eraseCtx = d.eraseCtx := rfl
@[simp] theorem Device.setPort_arbiter (d : Device) (p : Port) (x : HostPort) : (d.setPort p x).arbiter = d.arbiter := rfl
@[simp] theorem Device.setPort_engine (d : Device) (p : Port) (x : HostPort) : (d.setPort p x).engine = d.engine := rfl
@[simp] theorem Device.setPort_writer (d : Device) (p : Port) (x : HostPort) : (d.setPort p x).writer = d.writer := rfl
@[simp] theorem Device.setPort_mount (d : Device) (p : Port) (x : HostPort) : (d.setPort p x).mount = d.mount := rfl
@[simp] theorem Device.setPort_consent (d : Device) (p : Port) (x : HostPort) : (d.setPort p x).consent = d.consent := rfl
@[simp] theorem Device.setPort_draws (d : Device) (p : Port) (x : HostPort) : (d.setPort p x).draws = d.draws := rfl

/-! ### setExec -/

@[simp] theorem Device.setExec_powered (d : Device) (p : Port) (x : Executor) : (d.setExec p x).powered = d.powered := rfl
@[simp] theorem Device.setExec_resetLow (d : Device) (p : Port) (x : Executor) : (d.setExec p x).resetLow = d.resetLow := rfl
@[simp] theorem Device.setExec_pfail (d : Device) (p : Port) (x : Executor) : (d.setExec p x).pfail = d.pfail := rfl
@[simp] theorem Device.setExec_mode (d : Device) (p : Port) (x : Executor) : (d.setExec p x).mode = d.mode := rfl
@[simp] theorem Device.setExec_reason (d : Device) (p : Port) (x : Executor) : (d.setExec p x).reason = d.reason := rfl
@[simp] theorem Device.setExec_ports (d : Device) (p : Port) (x : Executor) : (d.setExec p x).ports = d.ports := rfl
@[simp] theorem Device.setExec_events (d : Device) (p : Port) (x : Executor) : (d.setExec p x).events = d.events := rfl
@[simp] theorem Device.setExec_streams (d : Device) (p : Port) (x : Executor) : (d.setExec p x).streams = d.streams := rfl
@[simp] theorem Device.setExec_cursors (d : Device) (p : Port) (x : Executor) : (d.setExec p x).cursors = d.cursors := rfl
@[simp] theorem Device.setExec_sectors (d : Device) (p : Port) (x : Executor) : (d.setExec p x).sectors = d.sectors := rfl
@[simp] theorem Device.setExec_freePool (d : Device) (p : Port) (x : Executor) : (d.setExec p x).freePool = d.freePool := rfl
@[simp] theorem Device.setExec_eraseQueue (d : Device) (p : Port) (x : Executor) : (d.setExec p x).eraseQueue = d.eraseQueue := rfl
@[simp] theorem Device.setExec_badList (d : Device) (p : Port) (x : Executor) : (d.setExec p x).badList = d.badList := rfl
@[simp] theorem Device.setExec_spaceWait (d : Device) (p : Port) (x : Executor) : (d.setExec p x).spaceWait = d.spaceWait := rfl
@[simp] theorem Device.setExec_arrayOp (d : Device) (p : Port) (x : Executor) : (d.setExec p x).arrayOp = d.arrayOp := rfl
@[simp] theorem Device.setExec_pulses (d : Device) (p : Port) (x : Executor) : (d.setExec p x).pulses = d.pulses := rfl
@[simp] theorem Device.setExec_eraseDonePulses (d : Device) (p : Port) (x : Executor) : (d.setExec p x).eraseDonePulses = d.eraseDonePulses := rfl
@[simp] theorem Device.setExec_eraseCtx (d : Device) (p : Port) (x : Executor) : (d.setExec p x).eraseCtx = d.eraseCtx := rfl
@[simp] theorem Device.setExec_arbiter (d : Device) (p : Port) (x : Executor) : (d.setExec p x).arbiter = d.arbiter := rfl
@[simp] theorem Device.setExec_engine (d : Device) (p : Port) (x : Executor) : (d.setExec p x).engine = d.engine := rfl
@[simp] theorem Device.setExec_writer (d : Device) (p : Port) (x : Executor) : (d.setExec p x).writer = d.writer := rfl
@[simp] theorem Device.setExec_mount (d : Device) (p : Port) (x : Executor) : (d.setExec p x).mount = d.mount := rfl
@[simp] theorem Device.setExec_consent (d : Device) (p : Port) (x : Executor) : (d.setExec p x).consent = d.consent := rfl
@[simp] theorem Device.setExec_draws (d : Device) (p : Port) (x : Executor) : (d.setExec p x).draws = d.draws := rfl

/-! ### toExec -/

@[simp] theorem Device.toExec_powered (d : Device) (p : Port) (st : ExecState) (j : Job) : (d.toExec p st j).powered = d.powered := rfl
@[simp] theorem Device.toExec_resetLow (d : Device) (p : Port) (st : ExecState) (j : Job) : (d.toExec p st j).resetLow = d.resetLow := rfl
@[simp] theorem Device.toExec_pfail (d : Device) (p : Port) (st : ExecState) (j : Job) : (d.toExec p st j).pfail = d.pfail := rfl
@[simp] theorem Device.toExec_mode (d : Device) (p : Port) (st : ExecState) (j : Job) : (d.toExec p st j).mode = d.mode := rfl
@[simp] theorem Device.toExec_reason (d : Device) (p : Port) (st : ExecState) (j : Job) : (d.toExec p st j).reason = d.reason := rfl
@[simp] theorem Device.toExec_ports (d : Device) (p : Port) (st : ExecState) (j : Job) : (d.toExec p st j).ports = d.ports := rfl
@[simp] theorem Device.toExec_events (d : Device) (p : Port) (st : ExecState) (j : Job) : (d.toExec p st j).events = d.events := rfl
@[simp] theorem Device.toExec_streams (d : Device) (p : Port) (st : ExecState) (j : Job) : (d.toExec p st j).streams = d.streams := rfl
@[simp] theorem Device.toExec_cursors (d : Device) (p : Port) (st : ExecState) (j : Job) : (d.toExec p st j).cursors = d.cursors := rfl
@[simp] theorem Device.toExec_sectors (d : Device) (p : Port) (st : ExecState) (j : Job) : (d.toExec p st j).sectors = d.sectors := rfl
@[simp] theorem Device.toExec_freePool (d : Device) (p : Port) (st : ExecState) (j : Job) : (d.toExec p st j).freePool = d.freePool := rfl
@[simp] theorem Device.toExec_eraseQueue (d : Device) (p : Port) (st : ExecState) (j : Job) : (d.toExec p st j).eraseQueue = d.eraseQueue := rfl
@[simp] theorem Device.toExec_badList (d : Device) (p : Port) (st : ExecState) (j : Job) : (d.toExec p st j).badList = d.badList := rfl
@[simp] theorem Device.toExec_spaceWait (d : Device) (p : Port) (st : ExecState) (j : Job) : (d.toExec p st j).spaceWait = d.spaceWait := rfl
@[simp] theorem Device.toExec_arrayOp (d : Device) (p : Port) (st : ExecState) (j : Job) : (d.toExec p st j).arrayOp = d.arrayOp := rfl
@[simp] theorem Device.toExec_pulses (d : Device) (p : Port) (st : ExecState) (j : Job) : (d.toExec p st j).pulses = d.pulses := rfl
@[simp] theorem Device.toExec_eraseDonePulses (d : Device) (p : Port) (st : ExecState) (j : Job) : (d.toExec p st j).eraseDonePulses = d.eraseDonePulses := rfl
@[simp] theorem Device.toExec_eraseCtx (d : Device) (p : Port) (st : ExecState) (j : Job) : (d.toExec p st j).eraseCtx = d.eraseCtx := rfl
@[simp] theorem Device.toExec_arbiter (d : Device) (p : Port) (st : ExecState) (j : Job) : (d.toExec p st j).arbiter = d.arbiter := rfl
@[simp] theorem Device.toExec_engine (d : Device) (p : Port) (st : ExecState) (j : Job) : (d.toExec p st j).engine = d.engine := rfl
@[simp] theorem Device.toExec_writer (d : Device) (p : Port) (st : ExecState) (j : Job) : (d.toExec p st j).writer = d.writer := rfl
@[simp] theorem Device.toExec_mount (d : Device) (p : Port) (st : ExecState) (j : Job) : (d.toExec p st j).mount = d.mount := rfl
@[simp] theorem Device.toExec_consent (d : Device) (p : Port) (st : ExecState) (j : Job) : (d.toExec p st j).consent = d.consent := rfl
@[simp] theorem Device.toExec_draws (d : Device) (p : Port) (st : ExecState) (j : Job) : (d.toExec p st j).draws = d.draws := rfl

/-! ### toExecState -/

@[simp] theorem Device.toExecState_powered (d : Device) (p : Port) (st : ExecState) : (d.toExecState p st).powered = d.powered := rfl
@[simp] theorem Device.toExecState_resetLow (d : Device) (p : Port) (st : ExecState) : (d.toExecState p st).resetLow = d.resetLow := rfl
@[simp] theorem Device.toExecState_pfail (d : Device) (p : Port) (st : ExecState) : (d.toExecState p st).pfail = d.pfail := rfl
@[simp] theorem Device.toExecState_mode (d : Device) (p : Port) (st : ExecState) : (d.toExecState p st).mode = d.mode := rfl
@[simp] theorem Device.toExecState_reason (d : Device) (p : Port) (st : ExecState) : (d.toExecState p st).reason = d.reason := rfl
@[simp] theorem Device.toExecState_ports (d : Device) (p : Port) (st : ExecState) : (d.toExecState p st).ports = d.ports := rfl
@[simp] theorem Device.toExecState_events (d : Device) (p : Port) (st : ExecState) : (d.toExecState p st).events = d.events := rfl
@[simp] theorem Device.toExecState_streams (d : Device) (p : Port) (st : ExecState) : (d.toExecState p st).streams = d.streams := rfl
@[simp] theorem Device.toExecState_cursors (d : Device) (p : Port) (st : ExecState) : (d.toExecState p st).cursors = d.cursors := rfl
@[simp] theorem Device.toExecState_sectors (d : Device) (p : Port) (st : ExecState) : (d.toExecState p st).sectors = d.sectors := rfl
@[simp] theorem Device.toExecState_freePool (d : Device) (p : Port) (st : ExecState) : (d.toExecState p st).freePool = d.freePool := rfl
@[simp] theorem Device.toExecState_eraseQueue (d : Device) (p : Port) (st : ExecState) : (d.toExecState p st).eraseQueue = d.eraseQueue := rfl
@[simp] theorem Device.toExecState_badList (d : Device) (p : Port) (st : ExecState) : (d.toExecState p st).badList = d.badList := rfl
@[simp] theorem Device.toExecState_spaceWait (d : Device) (p : Port) (st : ExecState) : (d.toExecState p st).spaceWait = d.spaceWait := rfl
@[simp] theorem Device.toExecState_arrayOp (d : Device) (p : Port) (st : ExecState) : (d.toExecState p st).arrayOp = d.arrayOp := rfl
@[simp] theorem Device.toExecState_pulses (d : Device) (p : Port) (st : ExecState) : (d.toExecState p st).pulses = d.pulses := rfl
@[simp] theorem Device.toExecState_eraseDonePulses (d : Device) (p : Port) (st : ExecState) : (d.toExecState p st).eraseDonePulses = d.eraseDonePulses := rfl
@[simp] theorem Device.toExecState_eraseCtx (d : Device) (p : Port) (st : ExecState) : (d.toExecState p st).eraseCtx = d.eraseCtx := rfl
@[simp] theorem Device.toExecState_arbiter (d : Device) (p : Port) (st : ExecState) : (d.toExecState p st).arbiter = d.arbiter := rfl
@[simp] theorem Device.toExecState_engine (d : Device) (p : Port) (st : ExecState) : (d.toExecState p st).engine = d.engine := rfl
@[simp] theorem Device.toExecState_writer (d : Device) (p : Port) (st : ExecState) : (d.toExecState p st).writer = d.writer := rfl
@[simp] theorem Device.toExecState_mount (d : Device) (p : Port) (st : ExecState) : (d.toExecState p st).mount = d.mount := rfl
@[simp] theorem Device.toExecState_consent (d : Device) (p : Port) (st : ExecState) : (d.toExecState p st).consent = d.consent := rfl
@[simp] theorem Device.toExecState_draws (d : Device) (p : Port) (st : ExecState) : (d.toExecState p st).draws = d.draws := rfl

/-! ### drawn -/

@[simp] theorem Device.drawn_powered (d : Device) : (d.drawn).powered = d.powered := rfl
@[simp] theorem Device.drawn_resetLow (d : Device) : (d.drawn).resetLow = d.resetLow := rfl
@[simp] theorem Device.drawn_pfail (d : Device) : (d.drawn).pfail = d.pfail := rfl
@[simp] theorem Device.drawn_mode (d : Device) : (d.drawn).mode = d.mode := rfl
@[simp] theorem Device.drawn_reason (d : Device) : (d.drawn).reason = d.reason := rfl
@[simp] theorem Device.drawn_ports (d : Device) : (d.drawn).ports = d.ports := rfl
@[simp] theorem Device.drawn_events (d : Device) : (d.drawn).events = d.events := rfl
@[simp] theorem Device.drawn_execs (d : Device) : (d.drawn).execs = d.execs := rfl
@[simp] theorem Device.drawn_streams (d : Device) : (d.drawn).streams = d.streams := rfl
@[simp] theorem Device.drawn_cursors (d : Device) : (d.drawn).cursors = d.cursors := rfl
@[simp] theorem Device.drawn_sectors (d : Device) : (d.drawn).sectors = d.sectors := rfl
@[simp] theorem Device.drawn_freePool (d : Device) : (d.drawn).freePool = d.freePool := rfl
@[simp] theorem Device.drawn_eraseQueue (d : Device) : (d.drawn).eraseQueue = d.eraseQueue := rfl
@[simp] theorem Device.drawn_badList (d : Device) : (d.drawn).badList = d.badList := rfl
@[simp] theorem Device.drawn_spaceWait (d : Device) : (d.drawn).spaceWait = d.spaceWait := rfl
@[simp] theorem Device.drawn_arrayOp (d : Device) : (d.drawn).arrayOp = d.arrayOp := rfl
@[simp] theorem Device.drawn_pulses (d : Device) : (d.drawn).pulses = d.pulses := rfl
@[simp] theorem Device.drawn_eraseDonePulses (d : Device) : (d.drawn).eraseDonePulses = d.eraseDonePulses := rfl
@[simp] theorem Device.drawn_eraseCtx (d : Device) : (d.drawn).eraseCtx = d.eraseCtx := rfl
@[simp] theorem Device.drawn_arbiter (d : Device) : (d.drawn).arbiter = d.arbiter := rfl
@[simp] theorem Device.drawn_engine (d : Device) : (d.drawn).engine = d.engine := rfl
@[simp] theorem Device.drawn_writer (d : Device) : (d.drawn).writer = d.writer := rfl
@[simp] theorem Device.drawn_mount (d : Device) : (d.drawn).mount = d.mount := rfl
@[simp] theorem Device.drawn_consent (d : Device) : (d.drawn).consent = d.consent := rfl

/-! ### release -/

@[simp] theorem Device.release_powered (d : Device) : (d.release).powered = d.powered := rfl
@[simp] theorem Device.release_resetLow (d : Device) : (d.release).resetLow = d.resetLow := rfl
@[simp] theorem Device.release_pfail (d : Device) : (d.release).pfail = d.pfail := rfl
@[simp] theorem Device.release_mode (d : Device) : (d.release).mode = d.mode := rfl
@[simp] theorem Device.release_reason (d : Device) : (d.release).reason = d.reason := rfl
@[simp] theorem Device.release_ports (d : Device) : (d.release).ports = d.ports := rfl
@[simp] theorem Device.release_events (d : Device) : (d.release).events = d.events := rfl
@[simp] theorem Device.release_execs (d : Device) : (d.release).execs = d.execs := rfl
@[simp] theorem Device.release_streams (d : Device) : (d.release).streams = d.streams := rfl
@[simp] theorem Device.release_cursors (d : Device) : (d.release).cursors = d.cursors := rfl
@[simp] theorem Device.release_sectors (d : Device) : (d.release).sectors = d.sectors := rfl
@[simp] theorem Device.release_freePool (d : Device) : (d.release).freePool = d.freePool := rfl
@[simp] theorem Device.release_eraseQueue (d : Device) : (d.release).eraseQueue = d.eraseQueue := rfl
@[simp] theorem Device.release_badList (d : Device) : (d.release).badList = d.badList := rfl
@[simp] theorem Device.release_spaceWait (d : Device) : (d.release).spaceWait = d.spaceWait := rfl
@[simp] theorem Device.release_pulses (d : Device) : (d.release).pulses = d.pulses := rfl
@[simp] theorem Device.release_eraseDonePulses (d : Device) : (d.release).eraseDonePulses = d.eraseDonePulses := rfl
@[simp] theorem Device.release_eraseCtx (d : Device) : (d.release).eraseCtx = d.eraseCtx := rfl
@[simp] theorem Device.release_engine (d : Device) : (d.release).engine = d.engine := rfl
@[simp] theorem Device.release_writer (d : Device) : (d.release).writer = d.writer := rfl
@[simp] theorem Device.release_mount (d : Device) : (d.release).mount = d.mount := rfl
@[simp] theorem Device.release_consent (d : Device) : (d.release).consent = d.consent := rfl
@[simp] theorem Device.release_draws (d : Device) : (d.release).draws = d.draws := rfl

/-! ### setSector -/

@[simp] theorem Device.setSector_powered (d : Device) (n : Nat) (x : Sector) : (d.setSector n x).powered = d.powered := by
  unfold Device.setSector; split <;> rfl
@[simp] theorem Device.setSector_resetLow (d : Device) (n : Nat) (x : Sector) : (d.setSector n x).resetLow = d.resetLow := by
  unfold Device.setSector; split <;> rfl
@[simp] theorem Device.setSector_pfail (d : Device) (n : Nat) (x : Sector) : (d.setSector n x).pfail = d.pfail := by
  unfold Device.setSector; split <;> rfl
@[simp] theorem Device.setSector_mode (d : Device) (n : Nat) (x : Sector) : (d.setSector n x).mode = d.mode := by
  unfold Device.setSector; split <;> rfl
@[simp] theorem Device.setSector_reason (d : Device) (n : Nat) (x : Sector) : (d.setSector n x).reason = d.reason := by
  unfold Device.setSector; split <;> rfl
@[simp] theorem Device.setSector_ports (d : Device) (n : Nat) (x : Sector) : (d.setSector n x).ports = d.ports := by
  unfold Device.setSector; split <;> rfl
@[simp] theorem Device.setSector_events (d : Device) (n : Nat) (x : Sector) : (d.setSector n x).events = d.events := by
  unfold Device.setSector; split <;> rfl
@[simp] theorem Device.setSector_execs (d : Device) (n : Nat) (x : Sector) : (d.setSector n x).execs = d.execs := by
  unfold Device.setSector; split <;> rfl
@[simp] theorem Device.setSector_streams (d : Device) (n : Nat) (x : Sector) : (d.setSector n x).streams = d.streams := by
  unfold Device.setSector; split <;> rfl
@[simp] theorem Device.setSector_cursors (d : Device) (n : Nat) (x : Sector) : (d.setSector n x).cursors = d.cursors := by
  unfold Device.setSector; split <;> rfl
@[simp] theorem Device.setSector_freePool (d : Device) (n : Nat) (x : Sector) : (d.setSector n x).freePool = d.freePool := by
  unfold Device.setSector; split <;> rfl
@[simp] theorem Device.setSector_eraseQueue (d : Device) (n : Nat) (x : Sector) : (d.setSector n x).eraseQueue = d.eraseQueue := by
  unfold Device.setSector; split <;> rfl
@[simp] theorem Device.setSector_badList (d : Device) (n : Nat) (x : Sector) : (d.setSector n x).badList = d.badList := by
  unfold Device.setSector; split <;> rfl
@[simp] theorem Device.setSector_spaceWait (d : Device) (n : Nat) (x : Sector) : (d.setSector n x).spaceWait = d.spaceWait := by
  unfold Device.setSector; split <;> rfl
@[simp] theorem Device.setSector_arrayOp (d : Device) (n : Nat) (x : Sector) : (d.setSector n x).arrayOp = d.arrayOp := by
  unfold Device.setSector; split <;> rfl
@[simp] theorem Device.setSector_pulses (d : Device) (n : Nat) (x : Sector) : (d.setSector n x).pulses = d.pulses := by
  unfold Device.setSector; split <;> rfl
@[simp] theorem Device.setSector_eraseDonePulses (d : Device) (n : Nat) (x : Sector) : (d.setSector n x).eraseDonePulses = d.eraseDonePulses := by
  unfold Device.setSector; split <;> rfl
@[simp] theorem Device.setSector_eraseCtx (d : Device) (n : Nat) (x : Sector) : (d.setSector n x).eraseCtx = d.eraseCtx := by
  unfold Device.setSector; split <;> rfl
@[simp] theorem Device.setSector_arbiter (d : Device) (n : Nat) (x : Sector) : (d.setSector n x).arbiter = d.arbiter := by
  unfold Device.setSector; split <;> rfl
@[simp] theorem Device.setSector_engine (d : Device) (n : Nat) (x : Sector) : (d.setSector n x).engine = d.engine := by
  unfold Device.setSector; split <;> rfl
@[simp] theorem Device.setSector_writer (d : Device) (n : Nat) (x : Sector) : (d.setSector n x).writer = d.writer := by
  unfold Device.setSector; split <;> rfl
@[simp] theorem Device.setSector_mount (d : Device) (n : Nat) (x : Sector) : (d.setSector n x).mount = d.mount := by
  unfold Device.setSector; split <;> rfl
@[simp] theorem Device.setSector_consent (d : Device) (n : Nat) (x : Sector) : (d.setSector n x).consent = d.consent := by
  unfold Device.setSector; split <;> rfl
@[simp] theorem Device.setSector_draws (d : Device) (n : Nat) (x : Sector) : (d.setSector n x).draws = d.draws := by
  unfold Device.setSector; split <;> rfl

@[simp] theorem Device.release_holder (d : Device) : d.release.arbiter.holder = none := rfl
@[simp] theorem Device.release_arrayOp (d : Device) : d.release.arrayOp = .none := rfl
@[simp] theorem Device.drawn_draws (d : Device) : d.drawn.draws = d.draws + 1 := rfl

end Sys2Proof.Machine
end

