-- ==== Sys2Proof/Laws/Settle.lean ====
section
/-! SUPPORT. A part at rest: when no consequence is due, how long it stays so, and what the arrival of a request at a
part at rest comes to. -/

namespace Sys2Proof.Machine

open Sys2Proof

/-! ### No consequence due -/

theorem Device.quiet_iff (d : Device) : d.quiet ↔
    d.stepPurge = none ∧ d.stepTake .A = none ∧ d.stepTake .B = none ∧ d.stepTake .C = none ∧ d.stepChoice = none
      ∧ d.stepCompaction = none ∧ d.stepSnapshot = none ∧ d.stepClaim = none ∧ d.stepSuspend = none
      ∧ d.stopMove = none ∧ d.stepGrant = none ∧ d.stepDrain = none ∧ d.stepStopped = none := by
  unfold Device.quiet Device.consequence
  simp only [Option.orElse_eq_orElse, Option.orElse_eq_or, Option.or_eq_none_iff]

/-- At rest, an event has no consequence. -/
theorem settleFor_quiet {d : Device} (h : d.quiet) : ∀ fuel, settleFor fuel d = d
  | 0 => rfl
  | fuel + 1 => by
    have h' : d.consequence = none := h
    simp [settleFor, h']

theorem Device.settle_quiet {d : Device} (h : d.quiet) : d.settle = d := settleFor_quiet h _

theorem Device.settled_quiet {d : Device} (h : d.quiet) : d.settled = d := settleFor_quiet h _

/-- The first consequence of an event, and the rest. -/
theorem Device.settle_of_consequence {d d' : Device} (h : d.consequence = some d') : d.settle = d'.settled := by
  show settleFor (Config.settleFuel - 1 + 1) d = _
  simp [settleFor, h, Device.settled]

theorem Device.stepTake_none_of_empty {d : Device} {p : Port} (h : (d.port p).requests = []) : d.stepTake p = none := by
  simp [Device.stepTake, Device.canTake, h]

theorem Device.stepTake_congr {d d' : Device} {p : Port} (he : d'.exec p = d.exec p)
    (hr : (d'.port p).requests = (d.port p).requests) (hs : (d'.port p).responses = (d.port p).responses)
    (h : d.stepTake p = none) : d'.stepTake p = none := by
  unfold Device.stepTake Device.canTake at *
  rw [he, hr, hs]
  split at h
  · cases h
  · rename_i hc
    split at h
    · cases h
    · rename_i hi
      simp [hc, hi]

/-- A consequence that is not due for a condition is not due for the same condition elsewhere. -/
theorem ite_none_congr {α : Type} {c : Prop} [Decidable c] {x y : α} (h : (if c then some x else none) = none) :
    (if c then some y else none) = none := by
  split at h
  · cases h
  · simp_all

/-- The same, the consequence standing in the other branch. -/
theorem ite_some_congr {α : Type} {c : Prop} [Decidable c] {x y : α} (h : (if c then none else some x) = none) :
    (if c then none else some y) = none := by
  split at h
  · simp_all
  · cases h

/-- A purge that is not due stays so under changes of ports, events, cursors and the draw counter. -/
theorem Device.stepPurge_of_same {d : Device} (h : d.stepPurge = none) (P : PerPort HostPort) (E : PerPort EventUnit)
    (C : Vector (PerPort (Option Cursor)) 16) (n : Nat) :
    ({ d with ports := P, events := E, cursors := C, draws := n } : Device).stepPurge = none := by
  revert h
  unfold Device.stepPurge
  dsimp only
  cases d.consent.state
  case purgePending =>
    change (match d.purgeTarget with | none => _ | some (st, b) => if d.appendInFlight st b then _ else _) = none →
      (match d.purgeTarget with | none => _ | some (st, b) => if d.appendInFlight st b then _ else _) = none
    cases d.purgeTarget with
    | none => exact fun hh => nomatch hh
    | some x => exact fun hh => ite_some_congr hh
  case purgeStaging => exact fun hh => ite_some_congr hh
  all_goals exact fun _ => rfl

/-- What rest depends on: executors that take nothing, and everything else but the ports, the events, the cursors and
the draw counter. -/
theorem Device.quiet_of_takes {d : Device} (h : d.quiet) (P : PerPort HostPort) (E : PerPort EventUnit)
    (C : Vector (PerPort (Option Cursor)) 16) (n : Nat)
    (take : ∀ q, Device.stepTake { d with ports := P, events := E, cursors := C, draws := n } q = none) :
    ({ d with ports := P, events := E, cursors := C, draws := n } : Device).quiet := by
  rw [Device.quiet_iff] at h ⊢
  obtain ⟨h1, h2, h3, h4, h5, h6, h7, h8, h9, h10, h11, h12, h13⟩ := h
  refine ⟨?_, take .A, take .B, take .C, ite_none_congr h5, ite_none_congr h6, ite_none_congr h7, ?_,
    ite_none_congr h9, ?_, ?_, ite_none_congr h12, ite_none_congr h13⟩
  · exact Device.stepPurge_of_same h1 P E C n
  · revert h8
    unfold Device.stepClaim
    intro h8
    split at h8
    · rename_i hc
      rw [if_pos (show _ from hc)]
      split at h8
      · split at h8 <;> cases h8
      · rename_i hw
        rw [if_neg (show ¬ _ from hw)]
        exact ite_none_congr h8
    · rename_i hc
      exact if_neg (show ¬ _ from hc)
  · revert h10
    unfold Device.stopMove
    intro h10
    split at h10
    · rename_i hc
      rw [if_pos (show _ from hc)]
      rw [Option.map_eq_none_iff] at h10 ⊢
      exact h10
    · rename_i hc
      exact if_neg (show ¬ _ from hc)
  · revert h11
    unfold Device.stepGrant
    intro h11
    split at h11
    · rename_i hc
      rw [if_pos (show _ from hc)]
      rw [Option.map_eq_none_iff] at h11 ⊢
      exact h11
    · rename_i hc
      exact if_neg (show ¬ _ from hc)

/-- Rest kept where every request queue is empty or stands, with the responses, as it was. -/
theorem Device.quiet_of_same {d : Device} (h : d.quiet) (P : PerPort HostPort) (E : PerPort EventUnit)
    (C : Vector (PerPort (Option Cursor)) 16) (n : Nat)
    (hp : ∀ q, (P.get q).requests = [] ∨
      ((P.get q).requests = (d.port q).requests ∧ (P.get q).responses = (d.port q).responses)) :
    ({ d with ports := P, events := E, cursors := C, draws := n } : Device).quiet := by
  refine Device.quiet_of_takes h P E C n fun q => ?_
  rcases hp q with e | ⟨e1, e2⟩
  · exact Device.stepTake_none_of_empty e
  · refine Device.stepTake_congr (d := d) rfl e1 e2 ?_
    obtain ⟨-, h2, h3, h4, -⟩ := (Device.quiet_iff d).mp h
    cases q <;> assumption

/-- Rest kept through the opening and the closing of a ballot: streams and consent unit changed, the unit IDLE or OPEN.
-/
theorem Device.quiet_of_consent {d : Device} (h : d.quiet) (P : PerPort HostPort) (E : PerPort EventUnit)
    (C : Vector (PerPort (Option Cursor)) 16) (S : Vector Stream 16) (K : Consent) (n : Nat)
    (hk : K.state = .idle ∨ K.state = .opened)
    (take : ∀ q, Device.stepTake { d with
      ports := P, events := E, cursors := C, streams := S, consent := K, draws := n } q = none) :
    ({ d with ports := P, events := E, cursors := C, streams := S, consent := K, draws := n } : Device).quiet := by
  rw [Device.quiet_iff] at h ⊢
  obtain ⟨-, -, -, -, h5, h6, h7, h8, h9, h10, h11, -, h13⟩ := h
  refine ⟨?_, take .A, take .B, take .C, ite_none_congr h5, ite_none_congr h6, ite_none_congr h7, ?_,
    ite_none_congr h9, ?_, ?_, ?_, ite_none_congr h13⟩
  · rcases hk with e | e <;> simp [Device.stepPurge, e]
  · revert h8
    unfold Device.stepClaim
    intro h8
    split at h8
    · rename_i hc
      rw [if_pos (show _ from hc)]
      split at h8
      · split at h8 <;> cases h8
      · rename_i hw
        rw [if_neg (show ¬ _ from hw)]
        exact ite_none_congr h8
    · rename_i hc
      exact if_neg (show ¬ _ from hc)
  · revert h10
    unfold Device.stopMove
    intro h10
    split at h10
    · rename_i hc
      rw [if_pos (show _ from hc)]
      rw [Option.map_eq_none_iff] at h10 ⊢
      exact h10
    · rename_i hc
      exact if_neg (show ¬ _ from hc)
  · revert h11
    unfold Device.stepGrant
    intro h11
    split at h11
    · rename_i hc
      rw [if_pos (show _ from hc)]
      rw [Option.map_eq_none_iff] at h11 ⊢
      exact h11
    · rename_i hc
      exact if_neg (show ¬ _ from hc)
  · rcases hk with e | e <;> simp [Device.stepDrain, e]

/-! ### The arrival of a request at a part at rest -/

/-- A request that arrives at a part at rest, at a port ready for it, is taken in that event before anything else
(R164, R166). -/
theorem Device.consequence_arrive {d : Device} {p : Port} (h : d.quiet) (hr : d.ready p) (r : Request) :
    (d.arrive p r).consequence = some ((d.received p r).process p r) := by
  obtain ⟨he, hq, hl⟩ := hr
  have ha : d.arrive p r = d.setPort p { d.port p with begun := none, requests := [r], rejected := false } := by
    simp [Device.arrive, hq, Config.queueSlots]
  obtain ⟨h1, h2, h3, h4, -⟩ := (Device.quiet_iff d).mp h
  have take : (d.arrive p r).stepTake p = some ((d.received p r).process p r) := by
    have hc : (d.arrive p r).canTake p = true := by
      simp [ha, Device.canTake, he, Executor.rest, hl]
    rw [Device.stepTake, if_pos hc, Device.takeRequest, ha]
    simp [Device.received]
  have others : ∀ q, q ≠ p → d.stepTake q = none → (d.arrive p r).stepTake q = none := by
    intro q hqp hq'
    rw [ha]
    refine Device.stepTake_congr (d := d) rfl ?_ ?_ hq' <;> simp [Device.port_setPort_other, hqp]
  have purge : (d.arrive p r).stepPurge = none := by rw [ha]; exact Device.stepPurge_of_same h1 _ d.events d.cursors d.draws
  unfold Device.consequence
  rw [purge]
  cases p with
  | A => rw [take]; rfl
  | B => rw [others .A (by decide) h2, take]; rfl
  | C => rw [others .A (by decide) h2, others .B (by decide) h3, take]; rfl

/-- The event of an arrival at a port ready for it (R164, R166; log 7). -/
theorem State.arrival_awaits {s : State} {p : Port} (h : s.dev.awaits p) (r : Request) :
    s.arrival p r = { s with dev := ((s.dev.received p r).process p r).settled } := by
  obtain ⟨ha, hq, hr⟩ := h
  simp [State.arrival, State.event, ha, Device.settle_of_consequence (Device.consequence_arrive hq hr r)]

/-- A request answered in the event it is taken, on a port whose executor rested: the response is placed and nothing
else changes (R166). -/
theorem Device.received_answer {d : Device} {p : Port} (hr : d.ready p) (r : Request) (status : Status)
    (body : List Byte) :
    (d.received p r).answer p status body = d.replied p ⟨r.label.1, r.label.2, status, body⟩ := by
  obtain ⟨he, hq, -⟩ := hr
  have h1 : ((d.received p r).exec p).inHand = some r := by simp [Device.received]
  rw [Device.answer, h1]
  simp only [Device.respond, Device.received, Device.port_setExec, Device.port_setPort, Device.replied, ← hq]
  rw [← Device.setPort_setExec, Device.setExec_setExec, Device.setPort_setPort, Device.setPort_setExec, ← he,
    Device.setExec_exec]

/-- A part at rest that has only answered is at rest. -/
theorem Device.quiet_replied {d : Device} {p : Port} (h : d.quiet) (hr : d.ready p) (x : Response)
    (E : PerPort EventUnit) (C : Vector (PerPort (Option Cursor)) 16) (n : Nat) :
    ({ d.replied p x with events := E, cursors := C, draws := n } : Device).quiet := by
  refine Device.quiet_of_same h (d.replied p x).ports E C n fun q => ?_
  by_cases hq : q = p
  · subst hq
    left
    simpa [Device.replied, Device.setPort] using hr.2.1
  · right
    simp [Device.replied, Device.setPort, PerPort.get_set, hq, Device.port]

/-! ### Waits for places, and the end of an erase -/

/-- Exactly when a LINK_RESET takes a waiter off the place-wait list, and so offers the places on (R107; log 28). -/
theorem Device.waitsForPlaces_iff (d : Device) (p : Port) : d.waitsForPlaces p = true ↔
    (d.exec p).state = .waitStaging ∨ (d.exec p).state = .onArray ∧ .executor p ∈ d.writer.placeWait := by
  simp [Device.waitsForPlaces]

/-- ERASE_DONE by its source, the number of completed pulses reported (R79, R96, R97). -/
theorem Device.pulsePassed_cases (d : Device) (x : EraseContext) (c : CurrentErase) :
    c.source = .queue ∧ d.pulsePassed x c = { d with eraseDonePulses := x.pulses + 1 }.queueErased c.sector ∨
      c.source = .slot ∧ d.pulsePassed x c = { d with eraseDonePulses := x.pulses + 1 }.slotErased := by
  unfold Device.pulsePassed Device.eraseDone
  cases c.source <;> simp

end Sys2Proof.Machine
end

