-- ==== Sys2Proof/Laws/Ops.lean ====
section
/-! SUPPORT. What each shared operation can do, said once: events, responses, ballots, sessions, and the arrival of a
request of a kind. -/

namespace Sys2Proof.Machine

open Sys2Proof

/-! ### Bytes -/

@[simp] theorem bigEndian_length : ∀ width n : Nat, (bigEndian width n).length = width
  | 0, _ => rfl
  | w + 1, n => by simp [bigEndian, bigEndian_length w]

@[simp] theorem crcBytes_length (l : List Byte) : (crcBytes l).length = 2 := bigEndian_length _ _

@[simp] theorem requestFrame_length (tag kind : Byte) (body : List Byte) :
    (requestFrame tag kind body).length = 5 + body.length := by
  simp [requestFrame]; omega

@[simp] theorem responseFrame_length (r : Response) : (responseFrame r).length = 6 + r.body.length := by
  simp [responseFrame]; omega

@[simp] theorem emptyFrame_length : emptyFrame.length = 6 := by simp [emptyFrame]

theorem kindOfCode_byte (k : Kind) : kindOfCode k.byte.toNat = some k := by cases k <;> rfl

/-! ### Events -/

/-- An event whose changes are known, and the consequences after them. -/
theorem State.event_settle {s : State} {f : Device → Option Device} {d : Device} (ha : s.dev.active = true)
    (hf : f s.dev = some d) : s.event f = s.onDev d.settle := by
  simp [State.event, ha, hf, State.onDev]

/-- An event that leaves nothing due. -/
theorem State.event_quiet {s : State} {f : Device → Option Device} {d : Device} (ha : s.dev.active = true)
    (hf : f s.dev = some d) (hq : d.quiet) : s.event f = s.onDev d := by
  rw [State.event_settle ha hf, Device.settle_quiet hq]

theorem Device.stepTake_of_quiet {d : Device} (h : d.quiet) : ∀ p, d.stepTake p = none := by
  obtain ⟨-, h2, h3, h4, -⟩ := (Device.quiet_iff d).mp h
  intro p
  cases p <;> assumption

/-! ### What stays at rest -/

theorem Device.quiet_setPort {d : Device} (h : d.quiet) (p : Port) (x : HostPort)
    (hp : (d.setPort p x).stepTake p = none) : (d.setPort p x).quiet := by
  refine Device.quiet_of_takes h (d.ports.set p x) d.events d.cursors d.draws fun q => ?_
  by_cases hqp : q = p
  · subst hqp
    exact hp
  · refine Device.stepTake_congr (d := d) rfl ?_ ?_ (Device.stepTake_of_quiet h q)
    · show ((d.ports.set p x).get q).requests = _
      simp [PerPort.get_set, hqp, Device.port]
    · show ((d.ports.set p x).get q).responses = _
      simp [PerPort.get_set, hqp, Device.port]

theorem Device.quiet_setPort_same {d : Device} (h : d.quiet) (p : Port) (x : HostPort)
    (h1 : x.requests = (d.port p).requests) (h2 : x.responses = (d.port p).responses) : (d.setPort p x).quiet := by
  apply Device.quiet_setPort h
  refine Device.stepTake_congr (d := d) rfl ?_ ?_ (Device.stepTake_of_quiet h p) <;> simp [h1, h2]

theorem Device.quiet_setPort_empty {d : Device} (h : d.quiet) (p : Port) (x : HostPort) (h1 : x.requests = []) :
    (d.setPort p x).quiet := by
  apply Device.quiet_setPort h
  apply Device.stepTake_none_of_empty
  simp [h1]

theorem Device.quiet_setEvents {d : Device} (h : d.quiet) (E : PerPort EventUnit) : ({ d with events := E } : Device).quiet :=
  Device.quiet_of_takes h d.ports E d.cursors d.draws fun q =>
    Device.stepTake_congr (d := d) rfl rfl rfl (Device.stepTake_of_quiet h q)

/-! ### Offering events (R153) -/

/-- An offer changes the event units alone. -/
theorem Device.offer_frame (d : Device) (p : Port) (e : Event) :
    d.offer p e = { d with events := (d.offer p e).events } := by
  unfold Device.offer
  split <;> rfl

/-- An offer reaches the port's queue where its session is ATTACHED, and no other queue (R153). -/
theorem Device.offer_events (d : Device) (p q : Port) (e : Event) :
    (d.offer p e).events.get q =
      if p = q ∧ (d.port p).attached = true then (d.events.get q).offer e else d.events.get q := by
  unfold Device.offer
  split <;> rename_i h
  · simp only [PerPort.get_set]
    by_cases hq : q = p
    · subst hq
      simp [h]
    · simp [hq, Ne.symm hq]
  · simp [h]

@[simp] theorem Device.offer_port (d : Device) (p q : Port) (e : Event) : (d.offer p e).port q = d.port q := by
  rw [Device.offer_frame]
  rfl

theorem Device.offerIf_events (d : Device) (b : Bool) (p q : Port) (e : Event) :
    ((if b = true then d.offer p e else d).events.get q) =
      if b = true ∧ p = q ∧ (d.port p).attached = true then (d.events.get q).offer e else d.events.get q := by
  cases b <;> simp [Device.offer_events]

theorem Device.offerIf_port (d : Device) (b : Bool) (p q : Port) (e : Event) :
    ((if b = true then d.offer p e else d).port q) = d.port q := by
  cases b <;> simp

/-- An offer to a set of ports changes the event units alone. -/
theorem Device.offerSet_frame (d : Device) (s : PortSet) (e : Event) :
    d.offerSet s e = { d with events := (d.offerSet s e).events } := by
  unfold Device.offerSet Device.offer
  cases s.a <;> cases s.b <;> cases s.c <;> simp <;> (repeat' split) <;> rfl

/-- It reaches exactly the attached ports of the set (R153). -/
theorem Device.offerSet_events (d : Device) (s : PortSet) (q : Port) (e : Event) :
    (d.offerSet s e).events.get q =
      if s.get q = true ∧ (d.port q).attached = true then (d.events.get q).offer e else d.events.get q := by
  unfold Device.offerSet
  simp only [Device.offerIf_events, Device.offerIf_port]
  cases q <;> simp [PerPort.get] <;> congr

@[simp] theorem Device.offerSet_port (d : Device) (s : PortSet) (q : Port) (e : Event) :
    (d.offerSet s e).port q = d.port q := by
  rw [Device.offerSet_frame]
  rfl

theorem Device.quiet_offerSet {d : Device} (h : d.quiet) (s : PortSet) (e : Event) : (d.offerSet s e).quiet := by
  rw [Device.offerSet_frame]
  exact Device.quiet_setEvents h _

/-! ### Ballots (R145) -/

/-- The ballot-held flag is the stream table's. -/
theorem Device.holdBallotStream_frame (d : Device) (op : BallotOp) (v : Bool) :
    d.holdBallotStream op v = { d with streams := (d.holdBallotStream op v).streams } := by
  unfold Device.holdBallotStream Device.setBallotHeld Device.setBody
  repeat' split
  all_goals rfl

/-- With no ballot open there is nothing to close. -/
theorem Device.closeBallot_none (d : Device) (o : BallotOutcome) (h : d.consent.ballot = none) : d.closeBallot o = d := by
  unfold Device.closeBallot
  rw [h]

/-- Closing a ballot changes its stream's flag, the event units, and the consent unit (R145). -/
theorem Device.closeBallot_frame (d : Device) (o : BallotOutcome) (bl : Ballot) (h : d.consent.ballot = some bl) :
    d.closeBallot o =
      { d with
        streams := (d.holdBallotStream bl.op false).streams
        events := ((d.holdBallotStream bl.op false).offerSet bl.parties ⟨.ballotDone, some bl.id.toNat, some o.code⟩).events
        consent := { d.consent with ballot := none, state := .idle } } := by
  unfold Device.closeBallot
  rw [h]
  simp only
  rw [Device.offerSet_frame, Device.holdBallotStream_frame]

@[simp] theorem Device.closeBallot_ballot (d : Device) (o : BallotOutcome) : (d.closeBallot o).consent.ballot = none := by
  cases hb : d.consent.ballot with
  | none => rw [Device.closeBallot_none _ _ hb, hb]
  | some bl => rw [Device.closeBallot_frame _ _ _ hb]

@[simp] theorem Device.closeBallot_port (d : Device) (o : BallotOutcome) (q : Port) : (d.closeBallot o).port q = d.port q := by
  cases hb : d.consent.ballot with
  | none => rw [Device.closeBallot_none _ _ hb]
  | some bl =>
    rw [Device.closeBallot_frame _ _ _ hb]
    rfl

@[simp] theorem Device.abortBallotOf_port (d : Device) (p q : Port) : (d.abortBallotOf p).port q = d.port q := by
  unfold Device.abortBallotOf
  split <;> simp

theorem Device.quiet_closeBallot {d : Device} (h : d.quiet) (o : BallotOutcome) : (d.closeBallot o).quiet := by
  cases hb : d.consent.ballot with
  | none =>
    rw [Device.closeBallot_none _ _ hb]
    exact h
  | some bl =>
    rw [Device.closeBallot_frame _ _ _ hb]
    refine Device.quiet_of_consent h d.ports _ d.cursors _ _ d.draws (Or.inl rfl) fun q => ?_
    exact Device.stepTake_congr (d := d) rfl rfl rfl (Device.stepTake_of_quiet h q)

theorem Device.quiet_abortBallotOf {d : Device} (h : d.quiet) (p : Port) : (d.abortBallotOf p).quiet := by
  unfold Device.abortBallotOf
  split
  · exact Device.quiet_closeBallot h _
  · exact h

theorem Device.quiet_endSession {d : Device} (h : d.quiet) (p : Port) : (d.endSession p).quiet := by
  unfold Device.endSession Device.sendPeer
  apply Device.quiet_offerSet
  apply Device.quiet_abortBallotOf
  exact Device.quiet_setEvents
    (Device.quiet_setPort_same h p { d.port p with attached := false } rfl rfl) _

/-! ### Requests of a kind -/

/-- A request row is the arrival of its frame (log 4). -/
theorem exec_command (k : Kind) (p : Port) (tag : Byte) (body : List Byte) (s : State) (hb : bodyFits body = true) :
    exec (k.command p tag body) s = .next (s.arrival p (.known tag k body)) := by
  cases k <;> simp [Kind.command, exec, execAttach, execDetach, execCreate, execConfigure, execDelete, execAppend, execRead,
    execAck, execRewind, execSetlevel, execQuery, execStatus, execSync, execEvents, execMask, execPropose, execAgree,
    execRefuse, requestEntry, hb]

/-- At a port that waits for it, the request is taken and processed in its event (R164, R166). -/
theorem exec_command_awaits {s : State} {p : Port} (h : s.dev.awaits p) (k : Kind) (tag : Byte) (body : List Byte)
    (hb : bodyFits body = true) :
    exec (k.command p tag body) s =
      .next (s.onDev ((s.dev.received p (.known tag k body)).process p (.known tag k body)).settled) := by
  rw [exec_command _ _ _ _ _ hb, State.arrival_awaits h]
  rfl

/-- Outside STOPPING and STOPPED, a request of good length is carried out by its own rule (R167). -/
theorem Device.process_received {d : Device} {p : Port} {k : Kind} {tag : Byte} {body : List Byte} (hh : d.halting = false)
    (hl : lengthGood k body = true) :
    (d.received p (.known tag k body)).process p (.known tag k body) =
      (d.received p (.known tag k body)).carryOut p k body := by
  have : (d.received p (.known tag k body)).halting = false := hh
  simp [Device.process, this, hl]

/-- Answering does not read events, cursors or the draw counter. -/
theorem Device.answer_frame (d : Device) (p : Port) (status : Status) (body : List Byte) (E : PerPort EventUnit)
    (C : Vector (PerPort (Option Cursor)) 16) (n : Nat) :
    ({ d with events := E, cursors := C, draws := n } : Device).answer p status body =
      { d.answer p status body with events := E, cursors := C, draws := n } := by
  unfold Device.answer
  show (match (d.exec p).inHand with | none => _ | some r => _) = _
  cases (d.exec p).inHand <;> rfl

/-- A request whose rule comes to an answer, and to changes of events, cursors and the draw counter at most. -/
theorem exec_command_answers {s : State} {p : Port} (h : s.dev.serves p) (k : Kind) (tag : Byte) (body : List Byte)
    (status : Status) (out : List Byte) (hb : bodyFits body = true) (hl : lengthGood k body = true) (E : PerPort EventUnit)
    (C : Vector (PerPort (Option Cursor)) 16) (n : Nat)
    (hc : (s.dev.received p (.known tag k body)).carryOut p k body =
      ({ s.dev.received p (.known tag k body) with events := E, cursors := C, draws := n } : Device).answer p status out) :
    exec (k.command p tag body) s =
      .next (s.onDev { s.dev.replied p (reply tag k status out) with events := E, cursors := C, draws := n }) := by
  rw [exec_command_awaits h.1 k tag body hb, Device.process_received h.2 hl, hc, Device.answer_frame,
    Device.received_answer h.1.2.2, Device.settled_quiet (Device.quiet_replied h.1.2.1 h.1.2.2 _ _ _ _)]
  rfl

/-- A request whose rule comes to an answer alone. -/
theorem exec_command_only_answers {s : State} {p : Port} (h : s.dev.serves p) (k : Kind) (tag : Byte) (body : List Byte)
    (status : Status) (out : List Byte) (hb : bodyFits body = true) (hl : lengthGood k body = true)
    (hc : (s.dev.received p (.known tag k body)).carryOut p k body =
      (s.dev.received p (.known tag k body)).answer p status out) :
    exec (k.command p tag body) s = .next (s.onDev (s.dev.replied p (reply tag k status out))) :=
  exec_command_answers h k tag body status out hb hl s.dev.events s.dev.cursors s.dev.draws hc

/-! ### Edges of a transaction -/

/-- A beginning samples once: with a transaction under way it is no event (R160). -/
theorem Device.transactionBegins_cases (d : Device) (p : Port) :
    (d.port p).begun = none ∧ d.transactionBegins p = some (d.setPort p { d.port p with begun := some (d.sample p) }) ∨
      (d.port p).begun ≠ none ∧ d.transactionBegins p = none := by
  cases h : (d.port p).begun <;> simp [Device.transactionBegins, h]

/-- The end of a transaction leaves every queue and session alone (R160). -/
theorem Device.transactionOver_port (d : Device) (p q : Port) (out : List Byte) :
    ((d.transactionOver p out).port q).requests = (d.port q).requests ∧
      ((d.transactionOver p out).port q).responses = (d.port q).responses ∧
      ((d.transactionOver p out).port q).attached = (d.port q).attached ∧
      ((d.transactionOver p out).port q).rejected = (d.port q).rejected := by
  unfold Device.transactionOver
  by_cases h : q = p
  · subst h; simp
  · cases p <;> cases q <;> first | exact absurd rfl h | exact ⟨rfl, rfl, rfl, rfl⟩

theorem Device.quiet_transactionOver {d : Device} (h : d.quiet) (p : Port) (out : List Byte) :
    (d.transactionOver p out).quiet :=
  Device.quiet_setPort_same h p _ rfl rfl

/-! ### Places in the staging buffer -/

/-- The places an operation needs cover what it adds (R107). -/
theorem placesUsed_le_placesNeeded (d : Device) (op : Device → Device) : placesUsed d (op d) ≤ d.placesNeeded op :=
  Nat.le_max_left _ _

/-- A writer that takes no entries keeps no producer waiting and stages nothing (R107, R120). -/
theorem Device.takes_none {d : Device} (h : d.writer.takesEntries = false) (who : Waiter) (n : Nat) (e : MetaEntry) :
    d.placesSuffice who n = true ∧ d.stage e = d := by
  simp [Device.placesSuffice, Device.stage, h]

/-- An executor's operation is made whole or not at all (R17, R33, R58). -/
theorem Device.withPlaces_cases (d : Device) (p : Port) (op next : Device → Device) :
    d.withPlaces p op next = next (op ((d.leavePlaceWait (.executor p)).toExecState p .check)) ∨
      d.withPlaces p op next = (d.joinPlaceWait (.executor p)).toExecState p .waitStaging := by
  rw [Device.withPlaces]
  exact (ite_eq_or_eq _ _ _)

end Sys2Proof.Machine
end

