-- ==== Sys2Proof/Laws/Tables.lean ====
section
/-! SUPPORT. What the operations on the stream, cursor and sector tables can change, said once for each. -/

namespace Sys2Proof.Machine

open Sys2Proof

/-! ### Streams and cursors -/

/-- Recounting a stream changes the stream table (R4, R5). -/
theorem Device.recount_frame (d : Device) (st : Fin 16) : d.recount st = { d with streams := (d.recount st).streams } := by
  unfold Device.recount Device.setBody
  split <;> rfl

/-- Evaluating a high flag changes the stream table and the event units (R6). -/
theorem Device.evalHigh_frame (d : Device) (st : Fin 16) :
    d.evalHigh st = { d with streams := (d.evalHigh st).streams, events := (d.evalHigh st).events } := by
  unfold Device.evalHigh
  repeat' split
  all_goals ((try rw [Device.offer_frame]); rfl)

/-- Evaluating a backlog flag changes the cursor table and the event units (R64). -/
theorem Device.evalBacklog_frame (d : Device) (st : Fin 16) (p : Port) :
    d.evalBacklog st p = { d with cursors := (d.evalBacklog st p).cursors, events := (d.evalBacklog st p).events } := by
  unfold Device.evalBacklog
  repeat' split
  all_goals ((try rw [Device.offer_frame]); rfl)

theorem Device.evalBacklogs_frame (d : Device) (st : Fin 16) :
    d.evalBacklogs st = { d with cursors := (d.evalBacklogs st).cursors, events := (d.evalBacklogs st).events } := by
  unfold Device.evalBacklogs
  rw [Device.evalBacklog_frame _ st .C, Device.evalBacklog_frame _ st .B, Device.evalBacklog_frame _ st .A]

/-- The stream table knows nothing of an evaluated backlog flag. -/
@[simp] theorem Device.evalBacklog_stream (d : Device) (st st' : Fin 16) (p : Port) :
    (d.evalBacklog st p).stream st' = d.stream st' := by
  rw [Device.evalBacklog_frame]
  rfl

/-- A staged CURSOR entry is recorded with its cursor and nowhere else (R117). -/
theorem Device.recordEntry_frame (d : Device) (e : MetaEntry) :
    d.recordEntry e = { d with cursors := (d.recordEntry e).cursors } := by
  unfold Device.recordEntry
  repeat' split
  all_goals rfl

/-- Staging changes the writer and the cursor record, short of the last serial (R104, R106). -/
theorem Device.stage_frame (d : Device) (e : MetaEntry) (h : d.writer.nextSerial < Config.erasedSerial) :
    d.stage e = { d with writer := (d.stage e).writer, cursors := (d.stage e).cursors } := by
  unfold Device.stage
  split
  · rfl
  · split
    · rw [Device.recordEntry_frame]
    · rw [if_neg (by omega), Device.recordEntry_frame]

/-- A writer that takes no entries discards them (R120). -/
theorem Device.stage_discarded (d : Device) (e : MetaEntry) (h : d.writer.takesEntries = false) : d.stage e = d := by
  simp [Device.stage, h]

/-! ### The sector map -/

theorem Device.setSector_frame (d : Device) (n : Nat) (x : Sector) :
    d.setSector n x = { d with sectors := (d.setSector n x).sectors } := by
  unfold Device.setSector
  split <;> rfl

/-- A sector that joins the erase queue changes its descriptor and the queue (R14). -/
theorem Device.joinQueue_frame (d : Device) (n : Nat) :
    d.joinQueue n = { d with sectors := (d.joinQueue n).sectors, eraseQueue := d.eraseQueue ++ [n] } := by
  unfold Device.joinQueue
  rw [Device.setSector_frame]

/-- A sector that joins the free pool changes its descriptor and the pool (R13). -/
theorem Device.joinPool_frame (d : Device) (n count : Nat) :
    d.joinPool n count =
      { d with sectors := (d.joinPool n count).sectors, freePool := (d.joinPool n count).freePool } := by
  unfold Device.joinPool
  rw [Device.setSector_frame]

/-- Insertion into the pool adds the sector and loses none (R13). -/
theorem Device.insertPool_mem (d : Device) (n m : Nat) : ∀ l : List Nat, m ∈ d.insertPool n l ↔ m = n ∨ m ∈ l
  | [] => by simp [Device.insertPool]
  | x :: xs => by
    simp only [Device.insertPool]
    split
    · simp
    · simp only [List.mem_cons, Device.insertPool_mem d n m xs]
      constructor
      · rintro (h | h | h)
        · exact Or.inr (Or.inl h)
        · exact Or.inl h
        · exact Or.inr (Or.inr h)
      · rintro (h | h | h)
        · exact Or.inr (Or.inl h)
        · exact Or.inl h
        · exact Or.inr (Or.inr h)

theorem Device.insertPool_length (d : Device) (n : Nat) : ∀ l : List Nat, (d.insertPool n l).length = l.length + 1
  | [] => rfl
  | x :: xs => by
    simp only [Device.insertPool]
    split
    · rfl
    · simp [Device.insertPool_length d n xs]

/-! ### The staging buffer -/

/-- What a replacement in place does, once (R106; log 42): the last open CURSOR entry of that cursor that no definition
of its stream follows takes the new entry, its serial and its place kept. -/
theorem replaceEntry_some {e : MetaEntry} : ∀ {l l' : List Staged}, replaceEntry e l = some l' →
    ∃ before x later, l = before ++ x :: later ∧ l' = before ++ { x with entry := e } :: later ∧ x.cond = .opened ∧
      x.entry.sameCursor e = true ∧ overtaken x.entry later = false ∧ replaceEntry e later = none
  | [], _, h => by cases h
  | x :: xs, l', h => by
    rw [replaceEntry] at h
    split at h
    · next l'' h' =>
      cases h
      obtain ⟨before, y, later, h1, h2, h3⟩ := replaceEntry_some h'
      exact ⟨x :: before, y, later, by rw [h1]; rfl, by rw [h2]; rfl, h3⟩
    · next h' =>
      split at h
      · next hc =>
        cases h
        simp only [Bool.and_eq_true, beq_iff_eq, Bool.not_eq_true'] at hc
        exact ⟨[], x, xs, rfl, rfl, hc.1.1, hc.1.2, hc.2, h'⟩
      · cases h

/-- A replacement keeps every serial and condition of the buffer, in order (R106). -/
theorem replaceEntry_keeps {e : MetaEntry} {l l' : List Staged} (h : replaceEntry e l = some l') :
    l'.map Staged.serial = l.map Staged.serial ∧ l'.map Staged.cond = l.map Staged.cond := by
  obtain ⟨before, x, later, rfl, rfl, -⟩ := replaceEntry_some h
  simp

/-- Everything staging an entry can do (R104, R106, R120): nothing, a replacement in place, the halt at the serial
limit, or one entry more at the end of the buffer. -/
theorem Device.stage_cases (d : Device) (e : MetaEntry) :
    (d.writer.takesEntries = false ∧ d.stage e = d) ∨
    (d.writer.takesEntries = true ∧ ∃ l, replaceEntry e d.writer.staging = some l ∧
      d.stage e = { d with writer := { d.writer with staging := l } }.recordEntry e) ∨
    (d.writer.takesEntries = true ∧ replaceEntry e d.writer.staging = none ∧
      Config.erasedSerial ≤ d.writer.nextSerial ∧ d.stage e = d.haltWriter) ∨
    (d.writer.takesEntries = true ∧ replaceEntry e d.writer.staging = none ∧
      d.writer.nextSerial < Config.erasedSerial ∧
      d.stage e = { d with writer := d.writer.addEntry e }.recordEntry e) := by
  cases ht : d.writer.takesEntries with
  | false => exact .inl ⟨rfl, by simp [Device.stage, ht]⟩
  | true =>
    cases hr : replaceEntry e d.writer.staging with
    | some l => exact .inr (.inl ⟨rfl, l, rfl, by simp [Device.stage, ht, hr]⟩)
    | none =>
      rcases Nat.lt_or_ge d.writer.nextSerial Config.erasedSerial with h | h
      · exact .inr (.inr (.inr ⟨rfl, rfl, h, by simp [Device.stage, ht, hr, Nat.not_le.mpr h]⟩))
      · exact .inr (.inr (.inl ⟨rfl, rfl, h, by simp [Device.stage, ht, hr, h]⟩))

/-! ### Executors -/

/-- Joining or leaving the place-wait list changes the writer alone (R107). -/
theorem Device.joinPlaceWait_frame (d : Device) (who : Waiter) :
    d.joinPlaceWait who = { d with writer := (d.joinPlaceWait who).writer } := by
  unfold Device.joinPlaceWait
  split <;> rfl

/-- An answer changes the port's response queue and the executor (R166). -/
theorem Device.answer_changes (d : Device) (p : Port) (status : Status) (body : List Byte) :
    d.answer p status body =
      { d with ports := (d.answer p status body).ports, execs := (d.answer p status body).execs } := by
  unfold Device.answer
  split <;> rfl

/-- An executor that has answered rests, and holds no request (R166). -/
@[simp] theorem Device.answer_exec (d : Device) (p : Port) (status : Status) (body : List Byte) :
    (d.answer p status body).exec p = Executor.rest := by
  unfold Device.answer
  split <;> simp

end Sys2Proof.Machine
end

