-- ==== Sys2Proof/Tests/Slice0.lean ====
section
/-! SUPPORT. Tests: the well-formedness checks refuse ill-formed commands; the manual's CRC checks; single steps with
results worked out from the manual; and, for every statement with hypotheses, a state and operands that meet them. -/

namespace Sys2Proof.Tests

open Sys2Proof Sys2Proof.Machine

-- Kernel evaluations one at a time: run side by side, each holds a thread.
set_option Elab.async false

/-! ### Sample states -/

/-- A port with an open session and empty queues. -/
def up : HostPort := { HostPort.powerUp with attached := true }

/-- Ports B and C. -/
def portsBC : PortSet := ⟨false, true, true⟩

/-- A stream of port A, read by B and C: sequences 0 to 2 in sector 8. -/
def stream0 : StreamBody where
  held := false
  nameTag := 0x51#32
  writer := .A
  readers := portsBC
  policy := .refuse
  quota := 2
  margin := 4
  next := 3
  oldest := 0
  chain := [8]
  used := 3
  high := false
  ballotHeld := false

/-- B has read up to 2 and acknowledged up to 1. -/
def curB : Cursor := ⟨1, 2, 1024, false, 0, 1, 0⟩
/-- C has read and acknowledged everything. -/
def curC : Cursor := ⟨3, 3, 1024, false, 0, 3, 0⟩

/-- The tail of stream 0. -/
def tail8 : Sector :=
  { Sector.blank with state := .tail, owner := some (0, 1), pages := pageMap [.live 0, .live 1, .live 2] }

/-- An idle metadata writer with nothing staged. -/
def writer0 : Writer :=
  { Writer.powerUp with
    state := .idle, activeHalf := some 0, generation := 1, writePos := 6, nextSerial := 5, durableSerial := 4 }

/-- A READY part at rest, every port attached, stream 0 open, sector 9 in the pool. -/
def part : Device :=
  { Device.powerUp true false false 0 with
    mode := .ready
    ports := PerPort.all up
    streams := (Vector.replicate 16 Stream.blank).set 0 ⟨1, some stream0⟩
    cursors := (Vector.replicate 16 (PerPort.all none)).set 0 ⟨none, some curB, some curC⟩
    sectors := ((Vector.replicate 256 Sector.blank).set 8 tail8).set 9 { Sector.blank with state := .free }
    freePool := [9]
    writer := writer0
    mount := Mount.powerUp.over .done }

/-- One entry staged and not durable. -/
def staged1 (state : WriterState) : Writer :=
  { writer0 with state := state, nextSerial := 6, staging := [⟨5, .streamDrop 1 1, .opened⟩], timerRunning := true }

/-- The part with stream 0 as given. -/
def withStream (b : StreamBody) : Device := part.setBody 0 (some b)

/-- The part in another device state. -/
def inMode (m : DeviceState) : Device := { part with mode := m }

/-- The part with one port's session closed. -/
def detached (p : Port) : Device := part.setPort p HostPort.powerUp

/-- The array held by port C's executor, reading a page. -/
def reading : Device :=
  { part.setExec .C ⟨.onArray, some (.known 9 .read [0]), .reading 0 1 2 8 2⟩ with
    arrayOp := .read 8 2, arbiter := { Arbiter.powerUp with holder := some (.executor .C) } }

/-- The append of port A in a phase, its step on the array. -/
def appendJob (phase : AppendPhase) (attempts : Nat) : AppendJob := ⟨0, phase, 8, 3, attempts, []⟩
/-- The step-1 bytes of that append. -/
def recordBytes : List Byte := dataStep1 0 1 .A 3 [0xAA#8, 0xBB#8] [0x11#8]
/-- Port A's append on the array. -/
def appending (phase : AppendPhase) (attempts first : Nat) (target : List Byte) : Device :=
  { (part.setPageState 8 3 .writing).setExec .A
      ⟨.onArray, some (.known 7 .append [0, 0xAA, 0xBB, 0x11]), .append (appendJob phase attempts)⟩ with
    arrayOp := .program 8 3 first target, arbiter := { Arbiter.powerUp with holder := some (.executor .A) } }

/-- A page of the writer in flight. -/
def inFlight (kind : MetaKind) (step2 voiding : Bool) : PageInFlight :=
  ⟨if kind = .journal then 0 else 1, if kind = .journal then 6 else 0, kind, if kind = .journal then 1 else 2,
    if kind = .journal then 5 else 0, [.streamDrop 1 1], step2, voiding, .kept⟩

/-- The metadata writer's page on the array; the journal page holds the taken entry of serial 5. -/
def journaling (kind : MetaKind) (step2 voiding : Bool) (first : Nat) (target : List Byte) : Device :=
  { part with
    writer := { writer0 with
      state := if step2 then .program2 else .program1
      inFlight := some (inFlight kind step2 voiding)
      staging := if kind = .journal then [⟨5, .streamDrop 1 1, .taken⟩] else []
      nextSerial := 6
      phase := if kind = .journal then .none else .checkpoint
      target := 1, snapshot := 6, list := [.streamDrop 1 1, .checkpointEnd 6 2], checkpointPos := 1 }
    arrayOp := .program (2 * (inFlight kind step2 voiding).half) (inFlight kind step2 voiding).page first target
    arbiter := { Arbiter.powerUp with holder := some .writer } }

/-- The step-1 bytes of a page in flight. -/
def pageBytes (kind : MetaKind) : List Byte :=
  metaStep1 (inFlight kind false false).generation (inFlight kind false false).first kind [.streamDrop 1 1]

/-- The current erase of a sector. -/
def erase20 (source : EraseSource) (suspensions : Nat) (timer : RunTimer) : CurrentErase :=
  ⟨20, source, suspensions, timer⟩

/-- An erase on the array: a data sector from the queue, or a sector from the priority slot. -/
def erasing (source : EraseSource) (suspensions : Nat) (timer : RunTimer) (x : EraseContext) (op : ArrayOp) : Device :=
  { part.setSector 20 { Sector.blank with state := .erasing } with
    eraseQueue := [20]
    arrayOp := op
    eraseCtx := some x
    engine :=
      { Engine.powerUp with
        state := if op = .suspending then .suspending else .running
        current := some (erase20 source suspensions timer) }
    arbiter := { Arbiter.powerUp with holder := some .engine } }

/-- The state with a part, an unprogrammed array and no command waiting. -/
def holding (d : Device) : State := ⟨d, [], []⟩

/-- A field of the next state's part, none where the command stops. -/
def after {α : Type} (i : Instr) (d : Device) (f : Device → α) : Option α :=
  match exec i (holding d) with
  | .next s => some (f s.dev)
  | .fault _ => none
  | .refused _ => none

/-- The responses waiting at a port after a command: status and body. -/
def answers (i : Instr) (d : Device) (p : Port) : Option (List (Status × List Byte)) :=
  after i d fun d => (d.port p).responses.map fun r => (r.status, r.body)

/-! ### Meeting the hypotheses -/

theorem quiet_of {d : Device} (h : d.consequence.isNone = true) : d.quiet := Option.isNone_iff_eq_none.mp h

/-- `awaits`, computed. -/
def awaitsNow (d : Device) (p : Port) : Bool :=
  d.active && d.consequence.isNone && d.exec p == Executor.rest && (d.port p).requests.isEmpty
    && decide ((d.port p).responses.length < Config.queueSlots)

theorem awaits_of {d : Device} {p : Port} (h : awaitsNow d p = true) : d.awaits p := by
  simp only [awaitsNow, Bool.and_eq_true, beq_iff_eq, decide_eq_true_eq, List.isEmpty_iff] at h
  exact ⟨h.1.1.1.1, quiet_of h.1.1.1.2, h.1.1.2, h.1.2, h.2⟩

theorem serves_of {d : Device} {p : Port} (h : (awaitsNow d p && !d.halting) = true) : d.serves p := by
  simp only [Bool.and_eq_true, Bool.not_eq_true'] at h
  exact ⟨awaits_of h.1, h.2⟩

theorem part_serves (p : Port) : part.serves p := by cases p <;> exact serves_of (by decide +kernel)

theorem part_reader : part.readerOf .B 0 stream0 curB :=
  ⟨.inl rfl, by decide +kernel, by decide +kernel, by decide +kernel, by decide +kernel⟩

theorem part_writer : part.writerOf .A 0 stream0 := ⟨⟨rfl, by decide +kernel⟩, by decide +kernel, rfl⟩

theorem part_idle : part.arrayIdle := ⟨rfl, rfl, by decide⟩

/-! ### Witnesses: the machine and the link -/

theorem witness_StepRunsFrontCommand :
    State.reset.pending = [] ∧
      ({ State.reset with pending := [.mountReadDone, .flushTimerExpiry] } : State).pending =
        .mountReadDone :: [.flushTimerExpiry] := ⟨rfl, rfl⟩

theorem witness_EveryCommandCompletes : endsPulses (.append .A 0 []) = false := rfl

/-- Four requests and four responses waiting. -/
def crowded : Device :=
  part.setPort .A { up with
    requests := List.replicate 4 .frame, responses := List.replicate 4 ⟨1, 1, .ok, [0x2A]⟩ }

theorem witness_LinkStatusReadsTheQueues :
    (crowded.port .A).requests.length ≤ 4 ∧ (crowded.port .A).responses.length ≤ 4 := ⟨by decide, by decide⟩

theorem witness_RequestFrameIsItsRequest :
    bodyFits (List.replicate 250 0x5A) = true ∧ bodyFits [] = true ∧ knownKind 0x00 = false ∧ knownKind 0x13 = false ∧
      0 < 5 + ([] : List Byte).length ∧ 254 < 5 + (List.replicate 250 (0x5A : Byte)).length ∧
      [0x00#8, 0x00#8].length = 2 ∧ [0x00#8, 0x00#8] ≠ crcBytes (0x07#8 :: 0x0D#8 :: BitVec.ofNat 8 0 :: []) ∧
      250 < (0xFB#8).toNat :=
  ⟨by decide +kernel, by decide, by decide, by decide, by decide, by decide +kernel, rfl, by decide +kernel, by decide⟩

theorem witness_SendOfAFrameIsItsArrival :
    part.active = true ∧ bodyFits (List.replicate 250 0x5A) = true ∧ bodyFits [] = true := ⟨rfl, by decide +kernel, rfl⟩

/-- The executor of a crowded port waits for a response slot. -/
def slotWaiter : Device :=
  (part.setPort .A { up with requests := [.frame], responses := List.replicate 4 ⟨1, 1, .ok, [0x2A]⟩ }).setExec .A
    ⟨.waitSlot, none, .none⟩

/-- Port A's transaction began with nothing waiting; a response has come since. -/
def begunEmpty : Device :=
  part.setPort .A { up with responses := [⟨1, 1, .ok, [0x2A]⟩], begun := some ⟨[0x80, 0x03], none⟩ }

theorem witness_SendPollsOrQueues :
    (part.active = true ∧ part.quiet ∧ (part.port .A).begun = none ∧ knownTransaction 0x00 = false ∧
      knownTransaction 0x04 = false ∧ ([] : List Byte).length ≤ 1 ∧ [0x00#8].length ≤ 1) ∧
    (begunEmpty.active = true ∧ (begunEmpty.port .A).begun ≠ none ∧
      (begunEmpty.port .A).begun = some ⟨[0x80, 0x03], none⟩) ∧
    ((crowded.setExec .A ⟨.waitSlot, none, .none⟩).active = true ∧
      (crowded.setExec .A ⟨.waitSlot, none, .none⟩).quiet ∧ 2 ≤ [0x00#8, 0x01#8].length ∧
      4 ≤ ((crowded.setExec .A ⟨.waitSlot, none, .none⟩).port .A).requests.length) ∧
    (slotWaiter.active = true ∧ slotWaiter.quiet ∧ (slotWaiter.port .A).requests.length < 4 ∧
      (slotWaiter.exec .A).state = .waitSlot ∧ 4 ≤ (slotWaiter.port .A).responses.length) ∧
    reading.active = true ∧ reading.quiet ∧ (reading.port .C).requests.length < 4 ∧
      (reading.exec .C).state ≠ .idle ∧ (reading.exec .C).state ≠ .waitSlot :=
  ⟨⟨rfl, quiet_of (by decide +kernel), rfl, rfl, rfl, by decide, by decide⟩, ⟨rfl, by decide, rfl⟩,
    ⟨rfl, quiet_of (by decide +kernel), by decide, by decide⟩,
    ⟨rfl, quiet_of (by decide +kernel), by decide, by decide, by decide⟩, rfl, quiet_of (by decide +kernel), by decide,
    by decide, by decide⟩

/-- One response of one body byte waits. -/
def answered : Device := part.setPort .A { up with responses := [⟨1, 1, .ok, [0x2A]⟩] }

/-- Port C's executor is on the array, a request and a response waiting. -/
def busy : Device := reading.setPort .C { up with requests := [.frame], responses := [⟨1, 1, .ok, [0x2A]⟩] }

theorem witness_FetchShiftsTheOldestResponse :
    (answered.active = true ∧ answered.quiet ∧ (answered.opening .A).oldest = some ⟨1, 1, .ok, [0x2A]⟩ ∧
      (answered.port .A).requests = [] ∧ 7 + [0x2A#8].length ≤ 8 ∧ 7 < 7 + [0x2A#8].length) ∧
    (begunEmpty.active = true ∧ begunEmpty.quiet ∧ (begunEmpty.opening .A).oldest = none ∧
      (begunEmpty.port .A).responses ≠ []) ∧
    (part.active = true ∧ part.quiet ∧ (part.opening .A).oldest = none) ∧
    (busy.active = true ∧ busy.quiet ∧ (busy.opening .C).oldest = some ⟨1, 1, .ok, [0x2A]⟩ ∧
      (busy.port .C).requests ≠ [] ∧ (busy.exec .C).state ≠ .idle ∧ (busy.exec .C).state ≠ .waitSlot) ∧
    slotWaiter.active = true ∧ slotWaiter.quiet ∧ (slotWaiter.opening .A).oldest = some ⟨1, 1, .ok, [0x2A]⟩ ∧
      (slotWaiter.port .A).requests = [.frame] ∧ ((slotWaiter.port .A).responses.drop 1).length < 4 ∧
      (slotWaiter.exec .A).state = .waitSlot :=
  ⟨⟨rfl, quiet_of (by decide +kernel), rfl, rfl, by decide, by decide⟩,
    ⟨rfl, quiet_of (by decide +kernel), rfl, by decide⟩, ⟨rfl, quiet_of (by decide +kernel), rfl⟩,
    ⟨rfl, quiet_of (by decide +kernel), rfl, by decide, by decide, by decide⟩, rfl, quiet_of (by decide +kernel), rfl,
    rfl, by decide, rfl⟩

/-- A ballot on PURGE of stream 0 that A opened. -/
def purgeBallot : Ballot := ⟨1, .purge 0 1, .A, PerPort.all true, ⟨true, false, false⟩⟩
/-- The part with that ballot open. -/
def balloting : Device :=
  { withStream { stream0 with ballotHeld := true } with
    consent := { Consent.powerUp with state := .opened, counter := 1, ballot := some purgeBallot } }

/-- Port A's executor in a state, with a request in hand. -/
def inHand (state : ExecState) (job : Job) : Device := part.setExec .A ⟨state, some (.known 7 .sync []), job⟩

/-- Port A's append has its void step on the array, the executor on the place-wait list for its RETIRE entry. -/
def keptOnArray : Device :=
  { inHand .onArray (.append ⟨0, .voiding, 8, 3, 1, [.retire [77]]⟩) with
    writer := { writer0 with placeWait := [.executor .A, .consent] } }

theorem witness_LinkResetEndsTheSession :
    (part.active = true ∧ part.quiet ∧ part.exec .A = Executor.rest ∧ (part.port .A).attached = true) ∧
    ((detached .A).active = true ∧ (detached .A).quiet ∧ (detached .A).exec .A = Executor.rest ∧
      ((detached .A).port .A).attached = false) ∧
    (balloting.active = true ∧ balloting.quiet ∧ balloting.exec .B = Executor.rest ∧ balloting.isParty .B = true) ∧
    (((inHand (.waitDurable 9) .none).exec .A).state = .waitDurable 9 ∧
      ((inHand .waitSpace (.append ⟨0, .seek, 0, 0, 0, []⟩)).exec .A).state = .waitSpace ∧
      ((inHand .waitStaging .none).exec .A).state = .waitStaging ∧ ((inHand .check .none).exec .A).state = .check) ∧
    (((inHand .waitArray (.append ⟨0, .between, 8, 3, 0, []⟩)).exec .A).job = .append ⟨0, .between, 8, 3, 0, []⟩ ∧
      ((inHand .waitArray (.read 0 1)).exec .A).job = .read 0 1) ∧
    (reading.exec .C).state = .onArray ∧ (reading.exec .C).job = .reading 0 1 2 8 2 ∧
      (inHand .onArray (.append ⟨0, .step1, 8, 3, 0, []⟩)).active = true ∧
      .executor .A ∉ (inHand .onArray (.append ⟨0, .step1, 8, 3, 0, []⟩)).writer.placeWait ∧
      (keptOnArray.exec .A).state = .onArray ∧ .executor .A ∈ keptOnArray.writer.placeWait ∧
      (keptOnArray.exec .A).job = .append ⟨0, .voiding, 8, 3, 1, [.retire [77]]⟩ :=
  ⟨⟨rfl, quiet_of (by decide +kernel), rfl, rfl⟩, ⟨rfl, quiet_of (by decide +kernel), rfl, rfl⟩,
    ⟨rfl, quiet_of (by decide +kernel), rfl, rfl⟩, ⟨rfl, rfl, rfl, rfl⟩, ⟨rfl, rfl⟩, rfl, rfl, rfl,
    by decide, rfl, .head _, rfl⟩

/-! ### Witnesses: pins -/

theorem witness_ResetWipesAndReleaseMounts :
    ((Device.powerUp true true false 0).active = false ∧ (Device.powerUp false false false 0).active = false ∧
      onPins (.fetch .A (.ends 300)) = false) ∧
    part.resetLow = false ∧ part.powered = true ∧ part.arrayOp = .none ∧ reading.arrayOp = .read 8 2 ∧
      (Device.powerUp true true false 0).resetLow = true ∧ (Device.powerUp true true false 0).powered = true ∧
      (Device.powerUp false false true 0).powered = false ∧ (Device.powerUp false false true 0).resetLow = false ∧
      (Device.powerUp true true false 0).pfail = false ∧ (Device.powerUp false false true 0).pfail = true ∧
      (appending .step2 0 14 [0]).arrayOp = .program 8 3 14 [0] ∧ (appending .step2 0 14 [0]).resetLow = false ∧
      (erasing .queue 0 .running ⟨20, 2, .running, false⟩ .erase).arrayOp = .erase ∧
      (erasing .queue 0 .running ⟨20, 2, .suspending, false⟩ .suspending).arrayOp = .suspending ∧
      (erasing .queue 0 .running ⟨20, 2, .suspending, false⟩ .suspending).eraseCtx =
        some ⟨20, 2, .suspending, false⟩ :=
  ⟨⟨rfl, rfl, rfl⟩, rfl, rfl, rfl, rfl, rfl, rfl, rfl, rfl, rfl, rfl, rfl, rfl, rfl, rfl, rfl⟩

/-- A part STOPPED with PFAIL asserted. -/
def stopped : Device := { Device.powerUp true false true 0 with mode := .stopped, ports := PerPort.all up }

/-- That part with requests queued at B and, behind a full response queue, at C. -/
def queued : Device :=
  (stopped.setPort .B { up with requests := [.frame, .frame] }).setPort .C
    { up with requests := List.replicate 4 .frame, responses := List.replicate 4 ⟨1, 1, .ok, [0x2A]⟩ }

theorem witness_PfailStopsAndRestarts :
    (part.active = true ∧ part.quiet ∧ stoppable part.mode = true ∧
      (∀ q, part.exec q = Executor.rest ∧ (part.port q).requests = []) ∧ part.arrayIdle ∧ part.engine.current = none ∧
      part.eraseCtx = none ∧ part.consent.ballot = none ∧ part.writer.state = .idle ∧ part.writer.hasOpen = false) ∧
    (stopped.active = true ∧ stopped.quiet ∧ stoppable stopped.mode = false ∧ stopped.mode = .stopped ∧
      ∀ q, (stopped.port q).requests = []) ∧
    (queued.active = true ∧ queued.mode = .stopped ∧ (queued.port .B).requests = .frame :: [.frame] ∧
      (queued.port .B).responses.length < 4 ∧
      (∀ q, (q, Port.B) ∈ [(Port.A, Port.B), (Port.A, Port.C), (Port.B, Port.C)] → (queued.port q).requests = []) ∧
      ∀ q, (queued.port q).requests.length ≤ 4) ∧
    ({ reading with mode := .stopping, pfail := true } : Device).active = true ∧
      ({ reading with mode := .stopping, writer := { writer0 with stop := .done }, pfail := true } : Device).quiet :=
  ⟨⟨rfl, quiet_of (by decide +kernel), rfl, fun q => by cases q <;> exact ⟨rfl, rfl⟩, part_idle, rfl, rfl, rfl, rfl,
    by decide⟩, ⟨rfl, quiet_of (by decide +kernel), rfl, rfl, fun q => by cases q <;> rfl⟩,
    ⟨rfl, rfl, rfl, by decide, fun q h => (by cases q <;> first | rfl | exact absurd h (by decide)),
      fun q => by cases q <;> decide⟩, rfl, quiet_of (by decide +kernel)⟩

/-- Port A's append between its steps. -/
def between : Device :=
  (part.setPageState 8 3 .writing).setExec .A
    ⟨.waitArray, some (.known 7 .append [0, 0xAA, 0xBB, 0x11]), .append (appendJob .between 0)⟩

/-- A part in STOPPING, its writer in a state and at a place of the stopping flush. -/
def flushing (stop : StopFlush) (w : Writer) : Device := { part with mode := .stopping, writer := { w with stop := stop } }

theorem witness_StoppingEndsWhatIsUnderWay :
    (part.active = true ∧ stoppable part.mode = true ∧ part.writer.nextSerial < 4294967280) ∧
    (((inHand (.waitDurable 9) .none).exec .A).inHand = some (.known 7 .sync []) ∧ ExecState.waitDurable 9 ≠ .idle ∧
      ((inHand .onArray (.reading 0 1 2 8 2)).exec .A).state = .onArray ∧
      (between.exec .A).state = .waitArray ∧ (between.exec .A).job = .append (appendJob .between 0) ∧
      (appendJob .between 0).phase = .between ∧ (appendJob .between 0).sector < 256 ∧ (appendJob .between 0).page < 16) ∧
    ((erasing .queue 3 .stopped ⟨20, 2, .suspended, false⟩ .none).eraseCtx = some ⟨20, 2, .suspended, false⟩ ∧
      (erasing .queue 3 .stopped ⟨20, 2, .suspended, false⟩ .none).engine.current = some (erase20 .queue 3 .stopped) ∧
      (erasing .slot 0 .running ⟨20, 0, .running, false⟩ .erase).eraseCtx = some ⟨20, 0, .running, false⟩) ∧
    (balloting.consent.ballot = some purgeBallot ∧ purgeBallot.parties.get .B = true ∧
      (balloting.port .B).attached = true ∧ purgeBallot.op = .purge 0 1) ∧
    (∀ q j, (part.exec q).state = .waitArray → (part.exec q).job = .append j → j.phase ≠ .between) ∧
    ((flushing .finishing (staged1 .idle)).mode = .stopping ∧ (flushing .finishing (staged1 .idle)).writer.state = .idle ∧
      (staged1 .idle).activeHalf ≠ none ∧ (staged1 .idle).hasOpen = true ∧ (staged1 .idle).phase ≠ .checkpoint ∧
      (staged1 .idle).writePos < 32 ∧ writer0.hasOpen = false ∧ (flushing .flushing writer0).writer.stop = .flushing ∧
      (flushing .finishing (staged1 .halted)).arbiter.holder ≠ some .writer) ∧
    (flushing .done writer0).arbiter.holder = none ∧ (flushing .done writer0).engine.current = none ∧
      (flushing .done writer0).arrayOp = .none ∧ (flushing .done writer0).pfail = false :=
  ⟨⟨rfl, rfl, by decide⟩, ⟨rfl, by decide, rfl, rfl, rfl, rfl, by decide, by decide⟩, ⟨rfl, rfl, rfl⟩,
    ⟨rfl, rfl, rfl, rfl⟩, fun q j h => (by cases q <;> cases h),
    ⟨rfl, rfl, by decide, by decide, by decide, by decide, by decide, rfl, by decide⟩, rfl, rfl, rfl, rfl⟩

/-! ### Witnesses: requests of every port, and refusals -/

theorem witness_SessionsOpenAndClose :
    part.serves .A ∧ (part.port .A).attached = true ∧ (detached .A).serves .A ∧
      ((detached .A).port .A).attached = false ∧ balloting.serves .B ∧ (balloting.port .B).attached = true ∧
      balloting.isParty .B = true :=
  ⟨part_serves .A, rfl, serves_of (by decide +kernel), rfl, serves_of (by decide +kernel), rfl, rfl⟩

theorem witness_StatusReportsTheTables :
    (inMode .mounting).serves .C ∧ (inMode .readOnly).serves .C ∧ part.serves .C ∧ balloting.serves .C :=
  ⟨serves_of (by decide +kernel), serves_of (by decide +kernel), part_serves .C, serves_of (by decide +kernel)⟩

theorem witness_QueryReportsStreamAndCursor :
    part.serves .A ∧ part.mode = .ready ∧ (part.port .A).attached = true ∧ part.stream 0 = some stream0 ∧
      stream0.readers.get .A = false ∧ part.serves .B ∧ stream0.readers.get .B = true ∧
      part.cursor 0 .B = some curB ∧ (inMode .readOnly).serves .B :=
  ⟨part_serves .A, rfl, rfl, by decide +kernel, rfl, part_serves .B, rfl, by decide +kernel,
    serves_of (by decide +kernel)⟩

theorem witness_EventsAndMaskActOnTheQueue :
    part.serves .A ∧ (part.port .A).attached = true ∧ ((0x03#8 ++ 0xFE#8 : BitVec 16) &&& 0xFC01#16 = 0#16) ∧
      ((0x04#8 ++ 0x00#8 : BitVec 16) &&& 0xFC01#16 ≠ 0#16) ∧ ((0x00#8 ++ 0x01#8 : BitVec 16) &&& 0xFC01#16 ≠ 0#16) :=
  ⟨part_serves .A, rfl, by decide, by decide, by decide⟩

theorem witness_MalformedRequestsAreAnswered :
    part.serves .A ∧ part.serves .B ∧ (detached .B).serves .B ∧
      lengthGood .create (List.replicate 8 0) = false ∧ Kind.ownLength .create = false ∧ lengthGood .append [0, 0] = false ∧
      lengthGood .mask [0] = false ∧ (part.port .A).attached = true ∧ lengthGood .events [0] = false ∧
      lengthGood .detach [0] = false ∧ ((detached .B).port .B).attached = false ∧
      lengthGood .ack [0, 0, 0, 0, 0] = false ∧ [0, 0, 0, 0, 0].head? = some (streamByte 0) ∧
      part.readerOf .B 0 stream0 curB ∧ (0x02 : Byte) ≠ 0x00#8 ∧ (0x02 : Byte) ≠ 0x01#8 ∧ (0xFF : Byte) ≠ 0x01#8 :=
  ⟨part_serves .A, part_serves .B, serves_of (by decide +kernel), by decide, rfl, by decide, by decide, rfl, by decide,
    by decide, rfl, by decide, by decide, part_reader, by decide, by decide, by decide⟩

theorem witness_StateAndAttachmentAreChecked :
    ((inMode .readOnly).serves .A ∧ lengthGood .append [0, 0, 0] = true ∧
      refusedIn .append [0, 0, 0] (inMode .readOnly).mode = some .readOnly ∧ lengthGood .propose [1, 0] = true ∧
      refusedIn .propose [1, 0] .blank = some .notReady ∧ (inMode .blank).serves .A ∧
      (inMode .mounting).serves .A ∧ refusedIn .propose [2, 0] .mounting = some .notReady) ∧
    ((detached .A).serves .A ∧ refusedIn .detach [] (detached .A).mode = none ∧
      ((detached .A).port .A).attached = false) ∧
    part.serves .A ∧ part.serves .B ∧ (part.port .A).attached = true ∧
      refusedIn .read [1] part.mode = none ∧ Kind.named .read [16] = some (16 :: []) ∧
      (∀ st, (16 : Byte) = streamByte st → part.stream st = none) ∧
      Kind.named .propose [1, 1] = some (streamByte 1 :: []) ∧ part.stream 1 = none ∧
      part.stream 0 = some stream0 ∧ stream0.readers.get .A = false ∧ stream0.writer ≠ .B :=
  ⟨⟨serves_of (by decide +kernel), by decide, rfl, by decide, by decide, serves_of (by decide +kernel),
    serves_of (by decide +kernel), rfl⟩, ⟨serves_of (by decide +kernel), rfl, rfl⟩, part_serves .A, part_serves .B, rfl,
    rfl, rfl, by decide, by decide, by decide +kernel, by decide +kernel, rfl, by decide⟩

theorem witness_HaltingPartAbortsEveryRequest :
    stopped.awaits .A ∧ stopped.mode = .stopped ∧ bodyFits [] = true ∧
      ({ reading with mode := .stopping, writer := { writer0 with stop := .done } } : Device).awaits .A :=
  ⟨awaits_of (by decide +kernel), rfl, rfl, awaits_of (by decide +kernel)⟩

/-! ### Witnesses: cursors -/

theorem witness_RewindAndSetlevelActOnTheCursor : part.serves .B ∧ part.readerOf .B 0 stream0 curB :=
  ⟨part_serves .B, part_reader⟩

/-- The erase of sector 20 that has run for 2 ms, after so many suspensions. -/
def ranOut (suspensions : Nat) : Device := erasing .queue suspensions .reached ⟨20, 0, .running, false⟩ .erase

theorem witness_ReadIsEmptyOrReadsItsRecord :
    (part.serves .C ∧ part.readerOf .C 0 stream0 curC ∧ curC.delivered = stream0.next) ∧
    (part.serves .B ∧ part.readerOf .B 0 stream0 curB ∧ curB.delivered ≠ stream0.next ∧ part.arrayIdle ∧
      part.locate stream0.chain curB.delivered = some (8, 2)) ∧
    (reading.serves .B ∧ reading.readerOf .B 0 stream0 curB ∧ reading.arbiter.holder ≠ none ∧
      reading.engine.state ≠ .running) ∧
    ((ranOut 16).serves .B ∧ ∀ e, (ranOut 16).engine.current = some e → e.timer ≠ .reached ∨ 16 ≤ e.suspensions) ∧
    (ranOut 15).serves .B ∧ (ranOut 15).readerOf .B 0 stream0 curB ∧ (ranOut 15).arbiter.holder = some .engine ∧
      (ranOut 15).engine.state = .running ∧ (ranOut 15).engine.current = some (erase20 .queue 15 .reached) ∧
      (ranOut 15).eraseCtx = some ⟨20, 0, .running, false⟩ :=
  ⟨⟨part_serves .C, ⟨.inl rfl, rfl, by decide +kernel, rfl, by decide +kernel⟩, rfl⟩,
    ⟨part_serves .B, part_reader, by decide, part_idle, by decide +kernel⟩, ⟨serves_of (by decide +kernel),
    ⟨.inl rfl, rfl, by decide +kernel, rfl, by decide +kernel⟩, by decide, by decide⟩,
    ⟨serves_of (by decide +kernel), fun e h => (by cases h; exact .inr (by decide))⟩, serves_of (by decide +kernel),
    ⟨.inl rfl, rfl, by decide +kernel, rfl, by decide +kernel⟩, rfl, rfl, rfl, rfl⟩

theorem reader_readOnly : (inMode .readOnly).readerOf .B 0 stream0 curB :=
  ⟨.inr rfl, rfl, by decide +kernel, rfl, by decide +kernel⟩

/-- Every staging place taken by entries that serial 5 on hold. -/
def noPlaces : Device :=
  { reading with writer := { writer0 with
      state := .claim1, timerRunning := true, nextSerial := 20
      staging := (List.range' 5 15).map fun n => ⟨n, .streamDrop 1 1, .opened⟩ } }

/-- The buffer with one CURSOR entry of stream 0, port B, and what follows it. -/
def stagedCursor (later : List Staged) : Device :=
  { part with
    writer := { writer0 with staging := ⟨5, .cursor 0 1 .B 1 0, .opened⟩ :: later, nextSerial := 7, timerRunning := true } }

/-- That part with a durable serial and a writer state. -/
def durableAt (serial : Nat) (state : WriterState) : Device :=
  { stagedCursor [] with writer := { (stagedCursor []).writer with durableSerial := serial, state := state } }

/-- Sequences 0 to 2 in sector 8 acknowledged by both readers, 3 in sector 10: the first is FILLED, the second the
TAIL. -/
def leaving : Device :=
  ((((part.setBody 0 (some { stream0 with chain := [8, 10], used := 32, next := 4 })).setSector 8
    { tail8 with state := .filled }).setSector 10
      { Sector.blank with state := .tail, owner := some (0, 1), pages := pageMap [.live 3] }).setCursor 0 .B (some curC))

/-- The request port B's executor has taken. -/
def ackOne (durable : Bool) : Request := .known 5 .ack (ackBody 0 1 durable)

theorem witness_AckAnswersOrAdvances :
    ((inMode .readOnly).serves .B ∧ (inMode .readOnly).readerOf .B 0 stream0 curB ∧ (inMode .readOnly).mode = .readOnly ∧
      part.serves .B ∧ part.readerOf .B 0 stream0 curB ∧ ¬(part.mode = .readOnly ∧ true = true) ∧
      0 + 1 ≤ curB.committed ∧ part.writer.cursorSerial 0 .B = none ∧ curB.committed < 2 + 1 ∧
      curB.delivered < 2 + 1 ∧ curB.delivered < 4294967295 + 1 ∧ 4294967295 < 4294967296) ∧
    (part.serves .B ∧ part.readerOf .B 0 stream0 curB ∧ 1 < 4294967296 ∧ curB.committed < 1 + 1 ∧
      1 + 1 ≤ curB.delivered ∧ part.offPlaceWait .B ∧
      (part.received .B (ackOne false)).placesFor (fun d => d.advanceCursor 0 .B 2) .B) ∧
    ((inMode .readOnly).serves .B ∧ (inMode .readOnly).readerOf .B 0 stream0 curB ∧
      (inMode .readOnly).offPlaceWait .B) ∧
    (noPlaces.serves .B ∧ noPlaces.readerOf .B 0 stream0 curB ∧ noPlaces.offPlaceWait .B ∧
      ¬(noPlaces.received .B (ackOne true)).placesFor (fun d => d.advanceCursor 0 .B 2) .B) ∧
    ((stagedCursor []).serves .B ∧ (durableAt 5 .idle).serves .B ∧ (durableAt 4 .halted).serves .B ∧
      (stagedCursor []).readerOf .B 0 stream0 curB ∧ (stagedCursor []).mode = .ready ∧ 0 + 1 ≤ curB.committed ∧
      (stagedCursor []).writer.staging = [] ++ ⟨5, .cursor 0 1 .B 1 0, .opened⟩ :: [] ∧
      (MetaEntry.cursor 0 1 .B 1 0).isCursorOf 0 .B = true ∧ (durableAt 4 .halted).writer.state = .halted ∧
      5 ≤ (durableAt 5 .idle).writer.durableSerial ∧ (stagedCursor []).writer.durableSerial < 5) ∧
    (leaving.stream 0).map (fun b => (b.chain, b.readers)) = some ([8] ++ [10], portsBC) ∧ [8, 10].Nodup ∧
      leaving.mode ≠ .readOnly ∧ portsBC.get .B = true ∧ leaving.cursor 0 .B = some curC ∧ curC.committed = 3 ∧
      (leaving.sector 8).state = .filled ∧ .writing ∉ (leaving.sector 8).pageList ∧
      (leaving.sector 8).pageList[2]? = some (.live 2) ∧ (leaving.sector 10).state ≠ .filled ∧
      (leaving.sector 10).pageList[0]? = some (.live 3) ∧ ((leaving.reclaim 0).1.eraseQueue, (leaving.reclaim 0).2) =
        ([8], []) ∧ (inMode .readOnly).stream 0 = some stream0 :=
  ⟨⟨serves_of (by decide +kernel), reader_readOnly, rfl, part_serves .B, part_reader, by decide, by decide,
    by decide +kernel, by decide, by decide, by decide, by decide⟩,
    ⟨part_serves .B, part_reader, by decide, by decide, by decide, by unfold Device.offPlaceWait; decide,
    by unfold Device.placesFor; decide +kernel⟩,
    ⟨serves_of (by decide +kernel), reader_readOnly, by unfold Device.offPlaceWait; decide⟩,
    ⟨serves_of (by decide +kernel), ⟨.inl rfl, rfl, by decide +kernel, rfl, by decide +kernel⟩,
      by unfold Device.offPlaceWait; decide, by unfold Device.placesFor; decide +kernel⟩,
    ⟨serves_of (by decide +kernel), serves_of (by decide +kernel), serves_of (by decide +kernel),
      ⟨.inl rfl, rfl, by decide +kernel, rfl, by decide +kernel⟩, rfl, by decide, rfl, rfl, rfl, by decide, by decide⟩,
    by decide +kernel, by decide, by decide, rfl, by decide +kernel, rfl, by decide +kernel, by decide +kernel,
    by decide +kernel, by decide +kernel, by decide +kernel, by decide +kernel, by decide +kernel⟩

/-! ### Witnesses: streams -/

/-- A CREATE of quota 1, margin 16, no readers. -/
def createBody : List Byte := [0, 0, 0, 0x51, 1, 0, 0, 0, 16]
/-- Every stream number taken. -/
def allTaken : Device := { part with streams := Vector.replicate 16 ⟨1, some stream0⟩ }

theorem witness_CreateOpensAStream :
    (part.serves .A ∧ part.writable .A ∧ createBody.length = 9 ∧ (createArgs createBody).isSome = true ∧
      part.lowestFree = some 1 ∧ part.offPlaceWait .A ∧
      (part.received .A (.known 1 .create createBody)).placesFor
        (fun d => d.createStream .A 1 ⟨0x51, 1, .refuse, PerPort.all false, 16⟩) .A ∧
      (part.received .A (.known 1 .create createBody)).writer.takesEntries = true ∧
      (part.received .A (.known 1 .create createBody)).writer.nextSerial < 4294967295) ∧
    createArgs (List.replicate 9 0) = none ∧ allTaken.serves .A ∧ allTaken.writable .A ∧ allTaken.lowestFree = none ∧
    noPlaces.serves .A ∧ noPlaces.writable .A ∧ noPlaces.lowestFree = some 1 ∧ noPlaces.offPlaceWait .A ∧
      ¬(noPlaces.received .A (.known 1 .create createBody)).placesFor
        (fun d => d.createStream .A 1 ⟨0x51, 1, .refuse, PerPort.all false, 16⟩) .A :=
  ⟨⟨part_serves .A, ⟨rfl, rfl⟩, rfl, by decide, by decide +kernel, by unfold Device.offPlaceWait; decide,
    by unfold Device.placesFor; decide +kernel, rfl, by decide⟩, by decide, serves_of (by decide +kernel), ⟨rfl, rfl⟩,
    by decide +kernel, serves_of (by decide +kernel), ⟨rfl, rfl⟩, by decide +kernel,
    by unfold Device.offPlaceWait; decide, by unfold Device.placesFor; decide +kernel⟩

/-- CONFIGURE to readers A and B, DROP_OLDEST, quota 2, margin 32, OPEN. -/
def configureTail : List Byte := [3, 1, 2, 0, 32, 0]

theorem witness_ConfigureReplacesTheDefinition :
    (part.serves .A ∧ part.writerOf .A 0 stream0 ∧ configureTail.length = 6 ∧ stream0.ballotHeld = false ∧
      configureArgs (streamByte 0 :: configureTail) stream0.chain.length =
        some ⟨⟨true, true, false⟩, .dropOldest, 2, 32, false⟩ ∧ part.offPlaceWait .A ∧
      stream0.readers.get .C = true ∧ (⟨true, true, false⟩ : PortSet).get .C = false ∧
      (part.received .A (.known 1 .configure (streamByte 0 :: configureTail))).placesFor
        (fun d => d.configureStream 0 ⟨⟨true, true, false⟩, .dropOldest, 2, 32, false⟩) .A ∧
      (portList.filter fun q => (⟨true, true, false⟩ : PortSet).get q && !stream0.readers.get q) = [.A] ∧
      (part.received .A (.known 1 .configure (streamByte 0 :: configureTail))).writer.nextSerial + 1 < 4294967295 ∧
      (part.received .A (.known 1 .configure (streamByte 0 :: configureTail))).writer.takesEntries = true) ∧
    configureArgs (streamByte 0 :: [0, 0, 0, 0, 0, 0]) stream0.chain.length = none ∧
    (balloting.serves .A ∧ balloting.writerOf .A 0 { stream0 with ballotHeld := true }) ∧
    noPlaces.serves .A ∧ noPlaces.writerOf .A 0 stream0 ∧ noPlaces.offPlaceWait .A ∧
      ¬(noPlaces.received .A (.known 1 .configure (streamByte 0 :: configureTail))).placesFor
        (fun d => d.configureStream 0 ⟨⟨true, true, false⟩, .dropOldest, 2, 32, false⟩) .A :=
  ⟨⟨part_serves .A, part_writer, rfl, rfl, by decide +kernel, by unfold Device.offPlaceWait; decide, rfl, rfl,
    by unfold Device.placesFor; decide +kernel, rfl, by decide, rfl⟩, by decide +kernel,
    ⟨serves_of (by decide +kernel), ⟨rfl, rfl⟩, by decide +kernel, rfl⟩, serves_of (by decide +kernel),
    ⟨⟨rfl, rfl⟩, by decide +kernel, rfl⟩, by unfold Device.offPlaceWait; decide,
    by unfold Device.placesFor; decide +kernel⟩

/-- Stream 0 wholly acknowledged by both readers. -/
def acknowledged (d : Device) : Device := d.setCursor 0 .B (some curC)

theorem witness_DeleteFreesTheNumber :
    (balloting.serves .A ∧ balloting.writerOf .A 0 { stream0 with ballotHeld := true }) ∧
    (part.serves .A ∧ part.writerOf .A 0 stream0 ∧ part.cursor 0 .B = some curB ∧ curB.committed ≠ stream0.next) ∧
    ((acknowledged part).serves .A ∧ (acknowledged part).writerOf .A 0 stream0 ∧
      (∀ q c, (acknowledged part).cursor 0 q = some c → c.committed = stream0.next) ∧
      (acknowledged part).offPlaceWait .A ∧
      ((acknowledged part).received .A (.known 1 .delete [streamByte 0])).placesFor (fun d => d.deleteStream 0) .A ∧
      ((acknowledged part).received .A (.known 1 .delete [streamByte 0])).writer.takesEntries = true ∧
      (∀ n ∈ stream0.chain, ((acknowledged part).sector n).suspect = false) ∧ stream0.readers.get .B = true ∧
      ((acknowledged part).port .B).attached = true) ∧
    (acknowledged noPlaces).serves .A ∧ (acknowledged noPlaces).writerOf .A 0 stream0 ∧
      (acknowledged noPlaces).offPlaceWait .A ∧
      ¬((acknowledged noPlaces).received .A (.known 1 .delete [streamByte 0])).placesFor
        (fun d => d.deleteStream 0) .A :=
  ⟨⟨serves_of (by decide +kernel), ⟨rfl, rfl⟩, by decide +kernel, rfl⟩,
    ⟨part_serves .A, part_writer, by decide +kernel, by decide⟩,
    ⟨serves_of (by decide +kernel), ⟨⟨rfl, rfl⟩, by decide +kernel, rfl⟩, fun q c h => by
      revert c
      have e : (acknowledged part).cursors[0] = ⟨none, some curC, some curC⟩ := by decide +kernel
      intro c h
      rw [Device.cursor, show (acknowledged part).cursors[(0 : Fin 16).val] = _ from e] at h
      cases q <;> cases h <;> rfl, by unfold Device.offPlaceWait; decide, by unfold Device.placesFor; decide +kernel,
      rfl, by decide +kernel, rfl, rfl⟩,
    serves_of (by decide +kernel), ⟨⟨rfl, rfl⟩, by decide +kernel, rfl⟩, by unfold Device.offPlaceWait; decide,
    by unfold Device.placesFor; decide +kernel⟩

/-! ### Witnesses: appends -/

theorem witness_AppendStartsStepOne :
    part.serves .A ∧ part.writerOf .A 0 stream0 ∧ stream0.held = false ∧ stream0.next < 4294967295 ∧
      part.tailOf stream0 = some 8 ∧ (part.sector 8).firstUnused = some 3 ∧ part.arrayIdle ∧
      1 ≤ (List.replicate 240 0x11#8).length ∧ (List.replicate 240 0x11#8).length ≤ 240 ∧
    (reading.serves .A ∧ reading.writerOf .A 0 stream0 ∧ reading.tailOf stream0 = some 8 ∧
      reading.arbiter.holder ≠ none ∧ reading.engine.state ≠ .running) ∧
    ((ranOut 16).serves .A ∧ ∀ e, (ranOut 16).engine.current = some e → e.timer ≠ .reached ∨ 16 ≤ e.suspensions) ∧
    (ranOut 15).serves .A ∧ (ranOut 15).writerOf .A 0 stream0 ∧ (ranOut 15).tailOf stream0 = some 8 ∧
      (ranOut 15).arbiter.holder = some .engine ∧ (ranOut 15).engine.state = .running ∧
      (ranOut 15).engine.current = some (erase20 .queue 15 .reached) ∧
      (ranOut 15).eraseCtx = some ⟨20, 0, .running, false⟩ :=
  ⟨part_serves .A, part_writer, rfl, by decide, by decide +kernel, by decide +kernel, part_idle, by decide +kernel,
    by decide +kernel,
    ⟨serves_of (by decide +kernel), ⟨⟨rfl, rfl⟩, by decide +kernel, rfl⟩, by decide +kernel, by decide, by decide⟩,
    ⟨serves_of (by decide +kernel), fun e h => (by cases h; exact .inr (by decide))⟩, serves_of (by decide +kernel),
    ⟨⟨rfl, rfl⟩, by decide +kernel, rfl⟩, by decide +kernel, rfl, rfl, rfl, rfl⟩

/-- Stream 0 at its quota with its last sector FILLED. -/
def stuck (quota : Nat) (pool queue : List Nat) : Device :=
  { (withStream { stream0 with quota := quota }).setSector 8 { tail8 with state := .filled } with
    freePool := pool, eraseQueue := queue, engine := { Engine.powerUp with outcome := some (.wear 20) } }

/-- Stream 0 under DROP_OLDEST, its chain of two FILLED sectors at its quota: sequences 0 to 2 and 3. -/
def dropping (d : Device) : Device :=
  (((d.setBody 0 (some { stream0 with policy := .dropOldest, chain := [8, 10], used := 32, next := 4 })).setSector 8
    { tail8 with state := .filled }).setSector 10
      { Sector.blank with state := .filled, owner := some (0, 1), pages := pageMap [.live 3] })

/-- The APPEND port A has sent. -/
def appendOne : Request := .known 7 .append [0, 0xAA, 0xBB, 0x11]

/-- That append looking for a page. -/
def seeking : Job := .append ⟨0, .seek, 0, 0, 0, []⟩

theorem witness_AppendOutcomesWithoutAPage :
    ((withStream { stream0 with held := true }).serves .A ∧ (withStream { stream0 with held := true }).writable .A ∧
      (withStream { stream0 with held := true }).stream 0 = some { stream0 with held := true }) ∧
    (part.serves .B ∧ part.writable .B ∧ stream0.writer ≠ .B ∧ part.stream 0 = some stream0) ∧
    (part.serves .A ∧ part.writable .A ∧ stream0.writer = .A ∧ 240 < (List.replicate 241 0x11#8).length ∧
      (List.replicate 247 0x11#8).length ≤ 247) ∧
    ((withStream { stream0 with next := 4294967295 }).serves .A ∧
      (withStream { stream0 with next := 4294967295 }).writable .A) ∧
    ((stuck 1 [] []).serves .A ∧ (stuck 1 [] []).tailOf { stream0 with quota := 1 } = none ∧
      ({ stream0 with quota := 1 } : StreamBody).quota ≤ stream0.chain.length ∧ stream0.policy = .refuse) ∧
    ((stuck 2 [] []).serves .A ∧ (stuck 2 [] []).tailOf stream0 = none ∧ stream0.chain.length < stream0.quota ∧
      (stuck 2 [] []).freePool = [] ∧ (stuck 2 [] []).eraseQueue = []) ∧
    ((stuck 2 [] [20]).serves .A ∧ (stuck 2 [] [20]).tailOf stream0 = none ∧ (stuck 2 [] [20]).eraseQueue ≠ []) ∧
    ((stuck 2 [9] []).serves .A ∧ (stuck 2 [9] []).freePool = [9] ∧ 9 < 256) ∧
    ((dropping part).serves .A ∧ (dropping part).writable .A ∧ (dropping part).offPlaceWait .A ∧
      ((dropping part).stream 0).map (fun b => (b.chain, b.quota, (dropping part).tailOf b)) =
        some ([8, 10], 2, none) ∧
      (((dropping part).received .A appendOne).toExec .A .check seeking).placesFor (fun d => d.dropHead 0) .A ∧
      ((((dropping part).received .A appendOne).toExec .A .check seeking).dropHead 0).freePool ≠ [] ∧
      (dropping part).chainOldest [10] 4 = 3 ∧ curB.committed < 3 ∧ 3 ≤ curC.committed ∧
      stream0.readers.get .B = true ∧ part.writer.takesEntries = true ∧ part.writer.nextSerial + 1 ≤ 4294967295 ∧
      8 < 256 ∧ 8 ∉ [10] ∧ ((dropping part).sector 8).suspect = false) ∧
    (dropping noPlaces).serves .A ∧ (dropping noPlaces).offPlaceWait .A ∧
      ¬(((dropping noPlaces).received .A appendOne).toExec .A .check seeking).placesFor (fun d => d.dropHead 0) .A :=
  ⟨⟨serves_of (by decide +kernel), ⟨rfl, rfl⟩, by decide +kernel⟩, ⟨part_serves .B, ⟨rfl, rfl⟩, by decide,
    by decide +kernel⟩, ⟨part_serves .A, ⟨rfl, rfl⟩, rfl, by decide +kernel, by decide +kernel⟩,
    ⟨serves_of (by decide +kernel), rfl, rfl⟩,
    ⟨serves_of (by decide +kernel), by decide +kernel, by decide, rfl⟩,
    ⟨serves_of (by decide +kernel), by decide +kernel, by decide, rfl, rfl⟩,
    ⟨serves_of (by decide +kernel), by decide +kernel, by decide⟩, ⟨serves_of (by decide +kernel), rfl, by decide⟩,
    ⟨serves_of (by decide +kernel), ⟨by decide +kernel, by decide +kernel⟩,
      by unfold Device.offPlaceWait; decide +kernel, by decide +kernel, by unfold Device.placesFor; decide +kernel,
      by decide +kernel, by decide +kernel, by decide, by decide, rfl, rfl, by decide, by decide, by decide,
      by decide +kernel⟩,
    serves_of (by decide +kernel), by unfold Device.offPlaceWait; decide +kernel,
    by unfold Device.placesFor; decide +kernel⟩

/-! ### Witnesses: ballots -/

/-- A BLANK part whose port A alone is attached. -/
def alone : Device := { inMode .blank with ports := ⟨up, HostPort.powerUp, HostPort.powerUp⟩ }

theorem witness_ProposeOpensABallot :
    (part.serves .A ∧ part.mode = .ready ∧ (0x03 : Byte) ≠ 0x01#8 ∧ (0x03 : Byte) ≠ 0x02#8) ∧
    (part.serves .A ∧ (part.port .A).attached = true ∧ part.stream 0 = some stream0 ∧ part.mode = .ready ∧
      (stream0.readers.set stream0.writer true).get .A = true ∧ part.consent.state = .idle ∧
      (stream0.readers.set stream0.writer true).get .B = true) ∧
    ((withStream { stream0 with readers := ⟨false, true, false⟩ }).serves .C ∧
      (portsBC.set .C false |>.set .A true).get .C = false) ∧
    (balloting.serves .A ∧ balloting.consent.state ≠ .idle ∧ balloting.attachedPorts.get .A = true) ∧
    alone.serves .A ∧ alone.mode = .blank ∧ alone.attachedPorts.get .A = true ∧ alone.consent.state = .idle ∧
      ∀ q, q ≠ .A → alone.attachedPorts.get q = false :=
  ⟨⟨part_serves .A, rfl, by decide, by decide⟩,
    ⟨part_serves .A, rfl, by decide +kernel, rfl, rfl, rfl, rfl⟩, ⟨serves_of (by decide +kernel), rfl⟩,
    ⟨serves_of (by decide +kernel), by decide, rfl⟩, serves_of (by decide +kernel), rfl, rfl, rfl,
    fun q h => by cases q <;> first | rfl | exact absurd rfl h⟩

/-- One vote short of passing. -/
def lastVote : Device :=
  { balloting with
    consent := { balloting.consent with ballot := some { purgeBallot with agreed := ⟨true, true, false⟩ } } }

/-- A ballot that needs A and B alone. -/
def withoutC : Device :=
  { balloting with
    consent := { balloting.consent with ballot := some { purgeBallot with parties := ⟨true, true, false⟩ } } }

theorem witness_VotesCountOrClose :
    (part.serves .B ∧ part.mode = .ready ∧ part.consent.state ≠ .opened) ∧
    (balloting.serves .B ∧ balloting.consent.state = .opened ∧ balloting.consent.ballot = some purgeBallot ∧
      purgeBallot.id ≠ 2 ∧ purgeBallot.id = 1) ∧
    (withoutC.serves .C ∧ withoutC.consent.ballot = some { purgeBallot with parties := ⟨true, true, false⟩ } ∧
      (⟨true, true, false⟩ : PortSet).get .C = false) ∧
    (balloting.serves .A ∧ purgeBallot.parties.get .A = true ∧ purgeBallot.agreed.get .A = true) ∧
    (purgeBallot.parties.get .B = true ∧ purgeBallot.agreed.get .B = false ∧
      purgeBallot.parties.subset (purgeBallot.agreed.set .B true) = false) ∧
    lastVote.serves .C ∧ lastVote.consent.ballot = some { purgeBallot with agreed := ⟨true, true, false⟩ } ∧
      purgeBallot.parties.subset ((⟨true, true, false⟩ : PortSet).set .C true) = true :=
  ⟨⟨part_serves .B, rfl, by decide⟩, ⟨serves_of (by decide +kernel), rfl, rfl, by decide, rfl⟩,
    ⟨serves_of (by decide +kernel), rfl, rfl⟩, ⟨serves_of (by decide +kernel), rfl, rfl⟩, ⟨rfl, rfl, by decide⟩,
    serves_of (by decide +kernel), rfl, by decide⟩

/-- A passed PURGE of stream 0 on the unit. -/
def purging (d : Device) : Device :=
  { d with consent := { Consent.powerUp with state := .purgePending, pending := some (0, 1) } }

theorem witness_BallotClosesInOneEvent :
    (balloting.consent.ballot = some purgeBallot ∧ purgeBallot.op = .purge 0 1 ∧
      balloting.stream 0 = some { stream0 with ballotHeld := true } ∧ purgeBallot.parties.get .B = true ∧
      (balloting.port .B).attached = true ∧ balloting.active = true ∧ balloting.quiet ∧
      withoutC.consent.ballot = some { purgeBallot with parties := ⟨true, true, false⟩ } ∧
      BallotOutcome.expired ≠ .passed) ∧
    ({ inHand .waitSpace seeking with consent := { Consent.powerUp with
        state := .opened, ballot := some { purgeBallot with op := .format } } } : Device).consent.ballot =
      some { purgeBallot with op := .format } ∧
    ((purging part).stream 0 = some stream0 ∧ (purging part).incarnation 0 = 1 ∧
      ((purging part).exec stream0.writer).inFlightOn 0 = false ∧
      (purging part).placesSuffice .consent ((purging part).placesNeeded fun d => d.purgeStream 0) = true ∧
      (purging noPlaces).placesSuffice .consent ((purging noPlaces).placesNeeded fun d => d.purgeStream 0) = false ∧
      part.cursor 0 .B = some curB ∧ part.writer.takesEntries = true ∧ part.writer.nextSerial + 2 ≤ 4294967295 ∧
      8 ∈ stream0.chain ∧ (part.sector 8).suspect = false ∧ (purging (part.setBody 0 none)).stream 0 = none ∧
      ((purging (appending .step2 0 14 [0])).exec stream0.writer).inFlightOn 0 = true) ∧
    ({ part with consent := { Consent.powerUp with state := .formatDrain } } : Device).someExecClaims = false ∧
      part.writerClaims = false ∧ part.engineClaims = false ∧ part.arrayIdle ∧ part.eraseCtx = none :=
  ⟨⟨rfl, rfl, by decide +kernel, rfl, rfl, rfl, quiet_of (by decide +kernel), rfl, by decide⟩, rfl,
    ⟨by decide +kernel, by decide +kernel, rfl, by decide +kernel, by decide +kernel, by decide +kernel, rfl, by decide,
      by decide, by decide +kernel, by decide +kernel, rfl⟩, rfl, rfl, rfl, part_idle, rfl⟩

/-! ### Witnesses: SYNC, timers, grants -/

theorem witness_SyncAnswersOrWaits :
    (part.serves .B ∧ part.mode = .ready ∧ (part.port .B).attached = true ∧
      part.writer.nextSerial - 1 ≤ part.writer.durableSerial) ∧
    (({ part with writer := staged1 .idle } : Device).serves .B ∧
      (staged1 .idle).durableSerial < (staged1 .idle).nextSerial - 1 ∧ (staged1 .idle).state ≠ .halted) ∧
    ({ inMode .readOnly with writer := staged1 .halted } : Device).serves .B ∧ (staged1 .halted).state = .halted :=
  ⟨⟨part_serves .B, rfl, rfl, by decide⟩, ⟨serves_of (by decide +kernel), by decide, by decide⟩,
    serves_of (by decide +kernel), rfl⟩

/-- Port A's APPEND waits for space. -/
def waiting : Device :=
  { stuck 2 [] [20] with
    execs := ⟨⟨.waitSpace, some (.known 7 .append [0, 0xAA, 0xBB, 0x11]), .append ⟨0, .seek, 0, 0, 0, []⟩⟩,
      Executor.rest, Executor.rest⟩
    spaceWait := [.A] }

theorem witness_TimersActOnExpiry :
    (waiting.active = true ∧ (waiting.exec .A).state = .waitSpace) ∧
    (({ reading with writer := staged1 .idle } : Device).active = true ∧ (staged1 .idle).timerRunning = true ∧
      ({ reading with writer := staged1 .idle } : Device).quiet ∧ reading.mode = .ready ∧
      (staged1 .idle).activeHalf.isSome = true ∧ (staged1 .idle).hasOpen = true ∧ (staged1 .idle).phase = .none ∧
      (staged1 .idle).writePos < 32 ∧ reading.arbiter.holder = some (.executor .C) ∧
      reading.engine.state ≠ .running) ∧
    (({ ranOut 15 with writer := staged1 .idle } : Device).active = true ∧
      ({ ranOut 15 with writer := staged1 .idle } : Device).quiet ∧ (ranOut 15).arbiter.holder = some .engine ∧
      (ranOut 15).engine.state = .running ∧ (ranOut 15).engine.current = some (erase20 .queue 15 .reached) ∧
      (ranOut 15).eraseCtx = some ⟨20, 0, .running, false⟩) ∧
    (({ reading with arbiter := { reading.arbiter with starveTimer := true } } : Device).quiet ∧
      reading.arbiter.holder ≠ none) ∧
    ((erasing .queue 0 .running ⟨20, 0, .running, false⟩ .erase).active = true ∧
      (erasing .queue 0 .running ⟨20, 0, .running, false⟩ .erase).quiet ∧
      (erasing .queue 0 .running ⟨20, 0, .running, false⟩ .erase).someExecClaims = false ∧
      (erasing .queue 0 .running ⟨20, 0, .running, false⟩ .erase).writerClaims = false) ∧
    ((erasing .queue 15 .running ⟨20, 0, .running, false⟩ .erase).toExec .B .waitArray (.read 0 1)).quiet ∧
      ((erasing .queue 15 .running ⟨20, 0, .running, false⟩ .erase).toExec .B .waitArray (.read 0 1)).someExecClaims
        = true ∧ 15 < 16 ∧
    ((erasing .queue 16 .running ⟨20, 0, .running, false⟩ .erase).toExec .B .waitArray (.read 0 1)).quiet :=
  ⟨⟨rfl, rfl⟩, ⟨rfl, rfl, quiet_of (by decide +kernel), rfl, rfl, rfl, rfl, by decide, rfl, by decide⟩,
    ⟨rfl, quiet_of (by decide +kernel), rfl, rfl, rfl, rfl⟩,
    ⟨quiet_of (by decide +kernel), by decide⟩, ⟨rfl, quiet_of (by decide +kernel), rfl, rfl⟩,
    quiet_of (by decide +kernel), rfl, by decide, quiet_of (by decide +kernel)⟩

/-- B and C claim the array, and with `engine` the erase engine. -/
def claims (writer : WriterState) (engine : EngineState) (starved : Bool) : Device :=
  { (part.toExec .B .waitArray (.read 0 1)).toExec .C .waitArray (.read 0 1) with
    writer := { writer0 with state := writer }, engine := { Engine.powerUp with state := engine }
    arbiter := { Arbiter.powerUp with starved := starved } }

theorem witness_GrantsFollowTheFourRules :
    (claims .claim2 .claiming true).writerClaims = true ∧ (claims .idle .claiming true).writerClaims = false ∧
      (claims .idle .claiming true).engineClaims = true ∧ (claims .idle .claiming false).arbiter.starved = false ∧
      (claims .idle .claiming false).execClaims .A = false ∧ (claims .idle .claiming false).execClaims .B = true ∧
      part.execClaims .A = false ∧ part.execClaims .B = false ∧ part.execClaims .C = false :=
  ⟨rfl, rfl, rfl, rfl, rfl, rfl, rfl, rfl, rfl⟩

/-- Port B's claim for a page read, or port A's for its append in a phase, in a device state. -/
def claimant (m : DeviceState) (phase : AppendPhase) : Device :=
  { (part.toExec .B .waitArray (.read 0 1)).setExec .A
      ⟨.waitArray, some (.known 7 .append [0, 0xAA, 0xBB, 0x11]), .append (appendJob phase 0)⟩ with mode := m }

/-- The engine with sectors in the slot and the erase queue, the head QUEUED at a mark, in a device state. -/
def choosing (slot queue : List Nat) (mark : Nat) (m : DeviceState) : Device :=
  { part.setSector 20 { Sector.blank with state := .queued, mark := mark } with
    eraseQueue := queue, engine := { Engine.powerUp with slot := slot }, mode := m }

theorem witness_GrantsStartTheirOperations :
    (part.arbiter.holder = none ∧ part.arrayOp = .none ∧ part.mode ≠ .mounting ∧ part.mode ≠ .stopped) ∧
    ((journaling .journal false false 0 [0]).writer.inFlight = some (inFlight .journal false false) ∧
      ({ writer0 with state := .claim2, inFlight := some (inFlight .journal false false) } : Writer).state = .claim2 ∧
      ({ writer0 with state := .claim1, phase := .checkpoint } : Writer).phase = .checkpoint ∧
      noPlaces.writer.state = .claim1 ∧ noPlaces.writer.phase ≠ .checkpoint ∧ noPlaces.writer.activeHalf = some 0 ∧
      noPlaces.writer.staging.Pairwise fun x y => x.serial < y.serial) ∧
    (((claimant .ready .seek).exec .A).job = .append (appendJob .seek 0) ∧ (claimant .readOnly .seek).mode = .readOnly ∧
      (claimant .formatting .seek).mode ≠ .ready ∧ ((claimant .ready .seek).setBody 0 none).stream 0 = none ∧
      (claimant .ready .seek).stream 0 = some stream0 ∧ (stuck 2 [9] []).tailOf stream0 = none ∧
      (claimant .ready .seek).tailOf stream0 = some 8 ∧ ((claimant .ready .seek).sector 8).firstUnused = some 3 ∧
      ((claimant .ready .seek).exec .A).inHand = some (.known 7 .append (streamByte 0 :: 0xAA :: 0xBB :: [0x11])) ∧
      ((claimant .formatting .between).exec .A).job = .append (appendJob .between 0)) ∧
    (((claimant .ready .seek).exec .B).job = .read 0 1 ∧ (claimant .ready .seek).incarnation 0 = 1 ∧
      ((claimant .ready .seek).setCursor 0 .B none).cursor 0 .B = none ∧
      (claimant .ready .seek).cursor 0 .B = some curB ∧ curC.delivered = stream0.next ∧
      curB.delivered ≠ stream0.next ∧ (claimant .ready .seek).locate stream0.chain curB.delivered = some (8, 2)) ∧
    ((choosing [2, 3] [] 0 .ready).engine.state ≠ .suspended ∧ slotMode (choosing [2, 3] [] 0 .ready).mode = true ∧
      slotMode (choosing [2, 3] [] 0 .stopping).mode = false ∧
      ((choosing [] [20] 4 .ready).sector 20).state = .queued ∧
      ((choosing [] [20] 4 .ready).sector 20).mark ≤ (choosing [] [20] 4 .ready).writer.durableSerial ∧
      (choosing [] [20] 5 .ready).writer.durableSerial < ((choosing [] [20] 5 .ready).sector 20).mark) ∧
    ({ erasing .queue 3 .stopped ⟨20, 2, .suspended, false⟩ .none with
        engine := { Engine.powerUp with state := .suspended, current := some (erase20 .queue 3 .stopped) } } :
          Device).engine.state = .suspended ∧ (erase20 .slot 3 .stopped).source = .slot :=
  ⟨⟨rfl, rfl, by decide, by decide⟩, ⟨rfl, rfl, rfl, rfl, by decide, rfl, by decide⟩,
    ⟨rfl, rfl, by decide, by decide +kernel, by decide +kernel, by decide +kernel, by decide +kernel, by decide +kernel,
      rfl, rfl⟩,
    ⟨rfl, by decide +kernel, by decide +kernel, by decide +kernel, rfl, by decide, by decide +kernel⟩,
    ⟨by decide, rfl, rfl, by decide +kernel, by decide +kernel, by decide +kernel⟩, rfl, rfl⟩

/-- The compaction erased both sectors of the other half. -/
def compacted : Device := { part with writer := { staged1 .idle with phase := .erasing, erased := 2, target := 1 } }

/-- A part with waiters on its place-wait list. -/
def first (d : Device) (waiters : List Waiter) : Device := { d with writer := { d.writer with placeWait := waiters } }

/-- A checkpoint of one entry under way, at a page of its half. -/
def checkpointAt (page : Nat) : Device :=
  { part with writer := { writer0 with phase := .checkpoint, list := [.checkpointEnd 6 2], checkpointPos := page } }

theorem witness_ChoiceAndCompactionFollowTheTables :
    (part.mode = .ready ∧ part.writer.state = .idle ∧ (inMode .stopping).mode ≠ .ready ∧
      (checkpointAt 31).writer.phase = .checkpoint ∧ (checkpointAt 31).writer.written < 1 ∧
      (checkpointAt 31).writer.checkpointPos < 32 ∧ 32 ≤ (checkpointAt 32).writer.checkpointPos ∧
      (staged1 .idle).activeHalf ≠ none ∧ (∃ x ∈ (staged1 .idle).staging, x.cond = .opened) ∧
      (staged1 .idle).phase ≠ .checkpoint ∧ (staged1 .idle).writePos < 32 ∧ 15 ≤ noPlaces.writer.staging.length ∧
      ((inHand (.waitDurable 5) .none).exec .A).state = .waitDurable 5 ∧
      (⟨5, .streamDrop 1 1, .opened⟩ : Staged) ∈ (staged1 .idle).staging ∧
      (first part [.engine]).writer.placeWait ≠ [] ∧ ({ staged1 .idle with timerExpired := true } : Writer).timerExpired
        = true ∧ (staged1 .idle).staging.length < 15 ∧ (staged1 .idle).placeWait = [] ∧
      (staged1 .idle).timerExpired = false) ∧
    ((choosing [2] [20] 4 .readOnly).engine.slot ≠ [] ∧ (choosing [2] [20] 4 .readOnly).engine.current = none ∧
      (choosing [2] [20] 4 .readOnly).engine.outcome = none) ∧
    ((choosing [] [20] 4 .ready).mode = .ready ∧ ((choosing [] [20] 4 .ready).sector 20).state = .queued ∧
      ((choosing [] [20] 4 .ready).sector 20).mark ≤ (choosing [] [20] 4 .ready).writer.durableSerial ∧
      (choosing [] [20] 5 .ready).writer.durableSerial < ((choosing [] [20] 5 .ready).sector 20).mark ∧
      (choosing [] [] 0 .ready).eraseQueue = [] ∧ (choosing [2] [20] 4 .stopping).mode ≠ .ready) ∧
    (part.writer.activeHalf = some 0 ∧ part.writer.phase = .none ∧ part.writer.broken = false ∧
      24 ≤ ({ writer0 with writePos := 24 } : Writer).writePos ∧ ({ writer0 with broken := true } : Writer).broken = true) ∧
    (compacted.writer.phase = .erasing ∧ 2 ≤ compacted.writer.erased ∧ compacted.writer.state = .idle ∧
      compacted.mode ≠ .stopping ∧ part.writer.phase ≠ .erasing) ∧
    (List.range' 4 32).length ≤ 32 :=
  ⟨⟨rfl, rfl, by decide, rfl, by decide, by decide, by decide, by decide, ⟨_, .head _, rfl⟩, by decide, by decide,
      by decide, rfl, .head _, by decide, rfl, by decide, rfl, rfl⟩,
    ⟨by decide, rfl, rfl⟩, ⟨rfl, by decide +kernel, by decide +kernel, by decide +kernel, rfl, by decide⟩,
    ⟨rfl, rfl, rfl, by decide, rfl⟩, ⟨rfl, by decide, rfl, by decide, by decide⟩, by decide⟩

/-! ### Witnesses: reports of the array -/

theorem witness_PageReadAnswersTheReader :
    reading.active = true ∧ reading.arbiter.holder = some (.executor .C) ∧ reading.arrayOp = .read 8 2 ∧
      (reading.exec .C).job = .reading 0 1 2 8 2 ∧ (reading.exec .C).inHand = some (.known 9 .read [0]) ∧
      reading.mode ≠ .formatting ∧ reading.stream 0 = some stream0 ∧ reading.incarnation 0 = 1 ∧
      reading.cursor 0 .C = some curC ∧
      ({ reading with mode := .formatting } : Device).mode = .formatting ∧
      (reading.setBody 0 none).stream 0 = none ∧ (reading.setCursor 0 .C none).cursor 0 .C = none ∧
      ((reading.setExec .C ⟨.onArray, none, .reading 0 1 2 8 2⟩).exec .C).inHand = none ∧
      recordGood ((Flash.programmed [] (pageBase 8 2) (dataStep1 0 1 .A 2 [0, 0] [0x11])).programmed
        (pageBase 8 2 + 14) [0] |>.readPage 8 2) 0 1 2 = true ∧
      recordGood (Flash.readPage [] 8 2) 0 1 2 = false :=
  ⟨rfl, rfl, rfl, rfl, rfl, by decide, by decide +kernel, by decide +kernel, by decide +kernel, rfl, by decide +kernel,
    by decide +kernel, rfl, by decide +kernel, by decide +kernel⟩

/-- The mount unit reading a page. -/
def mounting (sector page : Nat) : Device :=
  { Device.powerUp true false false 0 with
    mount := { Mount.powerUp with phase := if sector < 4 then .metaScan else .dataScan }, arrayOp := .read sector page }

/-- A checkpoint of one entry, its CHECKPOINT_END: generation 1, snapshot serial 1. -/
def firstCheckpoint : Checkpoint := ⟨1, 1, 0, [.checkpointEnd 1 1]⟩

/-- An array that holds it, on page 0 of half 0. -/
def oneCheckpoint : Flash :=
  (Flash.programmed [] 0 (metaStep1 1 0 .checkpoint [.checkpointEnd 1 1])).programmed 14 [0]

theorem witness_MountReadsTheArray :
    (({ part with arrayOp := .read 0 0 } : Device).active = true ∧ part.arbiter.holder = none ∧ part.mode ≠ .mounting) ∧
    ((mounting 0 14).active = true ∧ (mounting 0 14).mode = .mounting ∧ (mounting 0 14).arbiter.holder = none ∧
      (mounting 0 14).quiet) ∧
    ((mounting 2 15).quiet ∧ (mounting 3 15).arrayOp = .read 3 15 ∧ (mounting 3 15).consent.ballot = none ∧
      chooseHalf (qualify (Flash.halfPages [] 0)) (qualify (Flash.halfPages [] 1)) = none) ∧
    ((mounting 4 15).arrayOp = .read 4 15 ∧ (mounting 255 15).active = true) ∧
    chooseHalf (qualify (Flash.halfPages oneCheckpoint 0)) (qualify (Flash.halfPages oneCheckpoint 1)) =
      some (0, firstCheckpoint) ∧
    (∀ page, page < 32 → Flash.halfPage [] 0 page = Flash.halfPage [(8192, 0)] 0 page) ∧ (1 < 2 ∧ 4 < 5) :=
  ⟨⟨rfl, rfl, by decide⟩, ⟨rfl, rfl, rfl, quiet_of (by decide +kernel)⟩,
    ⟨quiet_of (by decide +kernel), rfl, rfl, by decide +kernel⟩, ⟨rfl, rfl⟩, by decide +kernel, by decide +kernel,
    by decide, by decide⟩

/-- A page of 256 bytes that both steps of an append of port A have written. -/
def recordPage (seq : Nat) : List Byte :=
  ((Flash.programmed [] 0 (dataStep1 0 1 .A seq [0, 0] [0x11])).programmed 14 [0]).readPage 0 0

/-- Working tables with stream 0 defined at incarnation 1, sector 6 bad. -/
def replayed : Mount :=
  { Mount.powerUp with
    streams := (Vector.replicate 16 Stream.blank).set 0 ⟨1, some { stream0 with chain := [] }⟩, bad := [6] }

theorem witness_MountReplaysAndClassifies :
    (qualify [some ⟨1, 0, .checkpoint, [.checkpointEnd 1 1]⟩] = some firstCheckpoint ∧
      qualify [some ⟨1, 1, .checkpoint, [.checkpointEnd 1 1]⟩] = none) ∧
    (replayed.streams[(0 : Fin 16).val].body.isSome = true ∧ replayed.streams[(0 : Fin 16).val].incarnation = 1 ∧
      portsBC.get .B = true ∧ 6 ∈ replayed.bad ∧ 4 ∉ replayed.bad ∧ replayed.bad.length < 32) ∧
    ((List.replicate 16 (List.replicate 256 0xFF#8)).length = 16 ∧
      (∀ x ∈ List.replicate 16 (List.replicate 256 0xFF#8), pageErased x = true) ∧
      pageErased (recordPage 0) = false ∧ crcBytes ((recordPage 0).take 10) = ((recordPage 0).drop 10).take 2 ∧
      (byteAt (recordPage 0) 2).toNat = 1 ∧ (byteAt (recordPage 0) 3).toNat = portCode stream0.writer ∧
      fieldAt (recordPage 0) 4 4 = 0 ∧ recordGood (recordPage 0) 0 1 0 = true) ∧
    ([PageState.live 0, .void, .live 2][2]? = some (.live 2) ∧ (0 : Nat) < 2 ∧ (2 : Nat) ≠ 0 + 1) :=
  ⟨⟨by decide +kernel, by decide +kernel⟩, ⟨by decide +kernel, by decide +kernel, rfl, by decide, by decide, by decide⟩,
    ⟨by decide, by decide +kernel, by decide +kernel, by decide +kernel, by decide +kernel, by decide +kernel,
      by decide +kernel, by decide +kernel⟩, rfl, by decide, by decide⟩

/-- An owned sector with LIVE pages. -/
def owned (sector : Nat) (seqs : List Nat) : OwnedSector := ⟨sector, 0, pageMap (seqs.map .live), false⟩

/-- DATA_SCAN's end: stream 0 owns sectors 4 and 5, 6 is bad, 7 released, the rest erased. -/
def scanned : Device :=
  { mounting 255 15 with
    mount := { (mounting 255 15).mount with
      streams := (Vector.replicate 16 Stream.blank).set 0 ⟨1, some { stream0 with chain := [] }⟩
      bad := [6], released := [7], freeFound := List.range' 8 248, owned := [owned 4 [0, 1], owned 5 [2]] } }

/-- Stream 0 with a chain of FILLED sectors, each with one LIVE page. -/
def chained (quota : Nat) : Device :=
  (((part.setBody 0 (some { stream0 with chain := [8, 10, 11], quota := quota, next := 3 })).setSector 8
    { tail8 with state := .filled, pages := pageMap [.live 0] }).setSector 10
      { tail8 with state := .filled, pages := pageMap [.live 1] }).setSector 11
        { tail8 with state := .filled, pages := pageMap [.live 2] }

theorem witness_MountRebuildsTheTables :
    ((∀ q, (PerPort.all false : PortSet).get q = false) ∧ [owned 4 [0]] ≠ [] ∧
      (∃ q, portsBC.get q = true ∧ (PerPort.all none : PerPort (Option Retained)).get q = none) ∧
      ∀ q, portsBC.get q = true → (PerPort.all (some ⟨1, 2, 0⟩) : PerPort (Option Retained)).get q ≠ none) ∧
    ((walk none [owned 4 [0, 1]]).1.getLast? = some (owned 4 [0, 1]) ∧
      (owned 5 [2]).first = (owned 4 [0, 1]).last + 1 ∧ (owned 5 [1]).first ≠ (owned 4 [0, 1]).last + 1) ∧
    (part.stream 0 = some stream0 ∧ ([owned 4 [0, 1], owned 5 [2], owned 6 [9]].map OwnedSector.sector).Nodup ∧
      (∀ o ∈ [owned 4 [0, 1], owned 5 [2]], o.sector < 256 ∧
        o.pages.toList.any (fun x => x.seq?.isSome) = true) ∧ part.mount.repair ≤ 65535) ∧
    ((3 ≤ 5 ∧ (⟨1, 2, 0⟩ : Retained).committed < 3) ∧ 5 < (⟨1, 6, 0⟩ : Retained).committed ∧
      3 ≤ (⟨1, 3, 0⟩ : Retained).committed ∧ (⟨1, 5, 0⟩ : Retained).committed ≤ 5) ∧
    (((chained 1).stream 0).map StreamBody.chain = some (8 :: [10, 11]) ∧ 8 ∉ [10, 11] ∧ [8, 10, 11].Nodup ∧
      (∀ n ∈ [8, 10, 11], ((chained 1).sector n).suspect = false) ∧
      ([8, 10, 11].takeWhile fun n => ((chained 1).sector n).reclaimable 1) = [8] ∧ curB.committed = 1 ∧
      (chained 1).chainOldest [10, 11] 3 = 1 ∧ (chained 1).chainOldest [11] 3 = 2) ∧
    (scanned.consent.ballot = none ∧ scanned.freePool = [] ∧ scanned.eraseQueue = [] ∧
      scanned.writer = Writer.powerUp ∧
      (∀ (st : Fin 16) (b : StreamBody), scanned.mount.streams[st.val].body = some b → b.chain = []) ∧
      (∀ o ∈ scanned.mount.owned, scanned.mount.streams[o.stream.val].body.isSome = true) ∧
      (scanned.mount.bad ++ scanned.mount.freeFound ++ scanned.mount.released ++
        scanned.mount.owned.map OwnedSector.sector).Perm (List.range' 4 252)) ∧
    scanned.mount.nextSector 256 = none ∧ scanned.mount.nextSector 6 = some 7 := by
  refine ⟨⟨fun q => by cases q <;> rfl, by decide, ⟨.B, rfl, rfl⟩, fun q _ => by cases q <;> decide⟩,
    ⟨by decide +kernel, by decide, by decide⟩, ⟨by decide +kernel, by decide, by decide, by decide⟩,
    ⟨⟨by decide, by decide⟩, by decide, by decide, by decide⟩,
    ⟨by decide +kernel, by decide, by decide, by decide +kernel, by decide +kernel, rfl, by decide +kernel,
      by decide +kernel⟩,
    ⟨rfl, rfl, rfl, rfl, fun st b h => ?_, by decide +kernel, by decide +kernel⟩, by decide +kernel, by decide +kernel⟩
  have e : ∀ st : Fin 16, (scanned.mount.streams[st.val].body.map StreamBody.chain).getD [] = [] := by decide +kernel
  have := e st
  rw [h] at this
  exact this

/-- Stream 0's sector suspect and every record acknowledged: the commit reclaims nothing, the failure retires it. -/
def retiring (d : Device) : Device :=
  { (d.setSector 8 { (d.sector 8).setPage 3 .writing with suspect := true }).setBody 0
      (some { stream0 with readers := PerPort.all false }) with
    cursors := Vector.replicate 16 (PerPort.all none) }

/-- A part whose staging buffer is full, the array with port A's append. -/
def full (d : Device) : Device := { d with writer := noPlaces.writer }

theorem witness_AppendStepsComplete :
    ((appending .step1 0 0 recordBytes).active = true ∧
      (appending .step1 0 0 recordBytes).appending .A (appendJob .step1 0) 8 3 0 recordBytes ∧
      Flash.verifies [] (pageBase 8 3 + 0) recordBytes = true ∧
      ((appending .step1 0 0 recordBytes).exec .A).inHand.isSome = true ∧
      (appending .step1 0 0 recordBytes).mode ≠ .formatting ∧
      (((appending .step1 0 0 recordBytes).release.setPageState 8 3 .void).reclaim 0).1.retirable .A
        (((appending .step1 0 0 recordBytes).release.setPageState 8 3 .void).reclaim 0).2) ∧
    (¬((({ appending .step1 0 0 recordBytes with mode := .formatting } : Device).exec .A).inHand.isSome = true ∧
      ({ appending .step1 0 0 recordBytes with mode := .formatting } : Device).mode ≠ .formatting)) ∧
    ((appending .step2 0 14 [0]).appending .A (appendJob .step2 0) 8 3 14 [0] ∧
      Flash.verifies [] (pageBase 8 3 + 14) [0] = true ∧ (appending .step2 0 14 [0]).stream 0 = some stream0 ∧
      ((((appending .step2 0 14 [0]).release.setPageState 8 3 (.live 3)).setBody 0
        (some { stream0 with next := 4 })).evalBacklogs 0 |>.reclaim 0).2 = []) ∧
    ¬(full part).retirable .A [8] :=
  ⟨⟨rfl, ⟨rfl, rfl, rfl⟩, by decide +kernel, rfl, by decide, .inl (by decide +kernel)⟩, by decide,
    ⟨⟨rfl, rfl, rfl⟩, by decide +kernel, by decide +kernel, by decide +kernel⟩,
    by unfold Device.retirable; decide +kernel⟩

theorem witness_AppendStepsFail :
    ((appending .step1 2 0 recordBytes).active = true ∧
      (appending .step1 2 0 recordBytes).appending .A (appendJob .step1 2) 8 3 0 recordBytes ∧
      Flash.holds [] (pageBase 8 3 + 0) recordBytes = false ∧
      ((((appending .step1 2 0 recordBytes).drawn.setSector 8
        { ((appending .step1 2 0 recordBytes).sector 8).setPage 3 .void with suspect := true, state := .filled }).recount
          0).evalHigh 0 |>.reclaim 0).2 = []) ∧
    (Flash.holds [(pageBase 8 3 + 14, 0)] (pageBase 8 3 + 14) [0] = true ∧
      (appending .step2 0 14 [0]).appending .A (appendJob .step2 0) 8 3 14 [0]) ∧
    (((((retiring (appending .step1 2 0 recordBytes)).drawn.setSector 8
        { ((retiring (appending .step1 2 0 recordBytes)).sector 8).setPage 3 .void with
          suspect := true, state := .filled }).recount 0).evalHigh 0 |>.reclaim 0).2 = [8] ∧
      ¬(full (retiring part)).retirable .A [8] ∧ (retiring part).retirable .A [8]) ∧
    ((appending .voiding 3 15 [0]).appending .A (appendJob .voiding 3) 8 3 15 [0] ∧
      Flash.verifies [] (pageBase 8 3 + 15) [0] = true ∧ (appendJob .voiding 3).kept = [] ∧
      ({ appending .voiding 3 15 [0] with mode := .formatting } : Device).mode = .formatting) ∧
    (appending .voiding 2 15 [0]).appending .A (appendJob .voiding 2) 8 3 15 [0] ∧ 2 < 3 :=
  ⟨⟨rfl, ⟨rfl, rfl, rfl⟩, by decide +kernel, by decide +kernel⟩, ⟨by decide +kernel, ⟨rfl, rfl, rfl⟩⟩,
    ⟨by decide +kernel, by unfold Device.retirable; decide +kernel, by unfold Device.retirable; decide +kernel⟩,
    ⟨⟨rfl, rfl, rfl⟩, by decide +kernel, rfl, rfl⟩, ⟨rfl, rfl, rfl⟩, by decide⟩

/-- The same page after the writer went HALTED, or FORMATTING forgot it. -/
def fated (fate : PageFate) (kind : MetaKind) (step2 voiding : Bool) (first : Nat) (target : List Byte) : Device :=
  { journaling kind step2 voiding first target with
    writer := { (journaling kind step2 voiding first target).writer with
      inFlight := some { inFlight kind step2 voiding with fate := fate } } }

/-- Port A's executor waits for a serial to be durable, an answer's job and a request in hand. -/
def durableWaiter (serial : Nat) (k : Kind) (job : Job) : Device :=
  part.setExec .A ⟨.waitDurable serial, some (.known 7 k []), job⟩

theorem witness_JournalPageCommits :
    (((durableWaiter 4 .create (.created 0 1)).exec .A).state = .waitDurable 4 ∧ 4 ≤ part.writer.durableSerial ∧
      part.writer.durableSerial < 5 ∧ ((durableWaiter 5 .sync .none).exec .A).state = .waitDurable 5 ∧
      ((durableWaiter 4 .create (.created 0 1)).exec .A).inHand = some (.known 7 .create []) ∧
      ((durableWaiter 4 .create (.created 0 1)).exec .A).job = .created 0 1 ∧
      ((durableWaiter 4 .ack (.acked 9)).exec .A).job = .acked 9 ∧
      ((durableWaiter 4 .sync .none).exec .A).job = .none ∧
      ((durableWaiter 4 .delete .none).exec .A).inHand = some (.known 7 .delete []) ∧
      ((part.setExec .A ⟨.waitDurable 4, none, .none⟩).exec .A).inHand = none ∧
      (((durableWaiter 4 .create (.created 0 1)).releaseWaiters.port .A).responses.map fun r => r.body) = [[0, 1]]) ∧
    ((journaling .journal false false 0 (pageBytes .journal)).active = true ∧
      (journaling .journal false false 0 (pageBytes .journal)).journaling (inFlight .journal false false) 0 6 0
        (pageBytes .journal) ∧ Flash.verifies [] (pageBase 0 6 + 0) (pageBytes .journal) = true) ∧
    ((journaling .journal true false 14 [0]).journaling (inFlight .journal true false) 0 6 14 [0] ∧
      Flash.verifies [] (pageBase 0 6 + 14) [0] = true ∧ (inFlight .journal true false).fate = .kept) ∧
    (fated .halted .journal true false 14 [0]).journaling { inFlight .journal true false with fate := .halted } 0 6 14
        [0] ∧
    (fated .discarded .journal false false 0 (pageBytes .journal)).journaling
      { inFlight .journal false false with fate := .discarded } 0 6 0 (pageBytes .journal) :=
  ⟨⟨rfl, by decide, by decide, rfl, rfl, rfl, rfl, rfl, rfl, rfl, by decide +kernel⟩, ⟨rfl, ⟨rfl, rfl, rfl⟩, by decide +kernel⟩, ⟨⟨rfl, rfl, rfl⟩, by decide +kernel, rfl⟩, ⟨rfl, rfl, rfl⟩, rfl, rfl, rfl⟩

theorem witness_MetadataPageFails :
    ((journaling .journal false false 0 (pageBytes .journal)).journaling (inFlight .journal false false) 0 6 0
        (pageBytes .journal) ∧ Flash.holds [] (pageBase 0 6 + 0) (pageBytes .journal) = false ∧
      Flash.holds [(pageBase 0 6 + 14, 0)] (pageBase 0 6 + 14) [0] = true) ∧
    ((journaling .journal true true 15 [0]).journaling (inFlight .journal true true) 0 6 15 [0] ∧
      (journaling .checkpoint true true 15 [0]).journaling (inFlight .checkpoint true true) 2 0 15 [0] ∧
      Flash.verifies [] (pageBase 0 6 + 15) [0] = true ∧ Flash.verifies [] (pageBase 2 0 + 15) [0] = true) ∧
    (fated .halted .journal true true 15 [0]).journaling { inFlight .journal true true with fate := .halted } 0 6 15
        [0] ∧
    (fated .discarded .checkpoint true true 15 [0]).journaling
      { inFlight .checkpoint true true with fate := .discarded } 2 0 15 [0] :=
  ⟨⟨⟨rfl, rfl, rfl⟩, by decide +kernel, by decide +kernel⟩,
    ⟨⟨rfl, rfl, rfl⟩, ⟨rfl, rfl, rfl⟩, by decide +kernel, by decide +kernel⟩, ⟨rfl, rfl, rfl⟩, rfl, rfl, rfl⟩

/-- The checkpoint's last page, its first entry written before. -/
def lastCheckpoint : Device :=
  { journaling .checkpoint true false 14 [0] with
    writer := { (journaling .checkpoint true false 14 [0]).writer with written := 1 } }

/-- FORMAT's last page, in a device state. -/
def lastOfFormat (mode : DeviceState) : Device :=
  { lastCheckpoint with
    mode := mode
    writer := { lastCheckpoint.writer with forFormat := true, activeHalf := none, target := 0, snapshot := 1 }
    consent := { Consent.powerUp with state := .formatCheckpoint } }

theorem witness_CheckpointPageCommits :
    ((journaling .checkpoint true false 14 [0]).journaling (inFlight .checkpoint true false) 2 0 14 [0] ∧
      Flash.verifies [] (pageBase 2 0 + 14) [0] = true ∧ 0 + [MetaEntry.streamDrop 1 1].length < 2) ∧
    (lastCheckpoint.active = true ∧ lastCheckpoint.journaling (inFlight .checkpoint true false) 2 0 14 [0] ∧
      lastCheckpoint.writer.list.length ≤ 1 + (inFlight .checkpoint true false).entries.length ∧
      lastCheckpoint.writer.forFormat = false ∧ lastCheckpoint.mode ≠ .stopping) ∧
    ((lastOfFormat .formatting).journaling (inFlight .checkpoint true false) 2 0 14 [0] ∧
      (lastOfFormat .formatting).writer.forFormat = true ∧ (lastOfFormat .formatting).mode ≠ .stopping ∧
      (lastOfFormat .formatting).consent.ballot = none ∧
      (lastOfFormat .stopping).journaling (inFlight .checkpoint true false) 2 0 14 [0] ∧
      (lastOfFormat .stopping).mode = .stopping) ∧
    (fated .halted .checkpoint true false 14 [0]).journaling { inFlight .checkpoint true false with fate := .halted } 2 0
        14 [0] ∧
    (fated .discarded .checkpoint true false 14 [0]).journaling
      { inFlight .checkpoint true false with fate := .discarded } 2 0 14 [0] :=
  ⟨⟨⟨rfl, rfl, rfl⟩, by decide +kernel, by decide⟩, ⟨rfl, ⟨rfl, rfl, rfl⟩, by decide, rfl, by decide⟩,
    ⟨⟨rfl, rfl, rfl⟩, rfl, by decide, rfl, ⟨rfl, rfl, rfl⟩, rfl⟩, ⟨rfl, rfl, rfl⟩, rfl, rfl, rfl⟩

/-- An erase at its pulse with that many before it. -/
def pulse (source : EraseSource) (pulses : Nat) : Device :=
  erasing source 0 .running ⟨20, pulses, .running, false⟩ .erase

/-- A slot sector's erase for FORMAT, so many sectors erased before it. -/
def formatPulse (erased : Nat) : Device :=
  { pulse .slot 0 with consent := { Consent.powerUp with state := .formatErase, formatErased := erased } }

/-- The purge of stream 0 passed, the unit waiting for its places. -/
def purgeStaging (d : Device) : Device :=
  { d with consent := { Consent.powerUp with state := .purgeStaging, pending := some (0, 1) } }

/-- Port A's append on the array for its void step, with a RETIRE entry kept. -/
def keepingOnArray : Device :=
  part.setExec .A ⟨.onArray, some (.known 7 .append [0, 0xAA, 0xBB, 0x11]), .append ⟨0, .voiding, 8, 3, 3, [.retire [77]]⟩⟩

theorem witness_ErasePulsesEnd :
    (part.mode = .ready ∧ (inMode .readOnly).mode = .readOnly ∧ (inMode .formatting).mode = .formatting ∧
      (inMode .stopping).mode = .stopping ∧ part.consent.ballot = none ∧ part.engine.current = none ∧
      (∃ c, (pulse .queue 0).engine.current = some c ∧ c.source = .queue) ∧
      (pulse .slot 0).engine.current = some (erase20 .slot 0 .running) ∧
      (pulse .slot 0).eraseCtx = some ⟨20, 0, .running, false⟩ ∧
      (erasing .slot 3 .stopped ⟨20, 2, .suspended, false⟩ .none).eraseCtx = some ⟨20, 2, .suspended, false⟩ ∧
      ((inHand .waitStaging .none).exec .A).state = .waitStaging ∧
      ((inHand .waitStaging .none).exec .A).inHand = some (.known 7 .sync []) ∧
      (keepingOnArray.exec .A).state = .onArray ∧
      (keepingOnArray.exec .A).job = .append ⟨0, .voiding, 8, 3, 3, [.retire [77]]⟩ ∧ (part.exec .B).state = .idle ∧
      (purgeStaging part).consent.state = .purgeStaging ∧ (purgeStaging part).stream 0 = some stream0 ∧
      (purgeStaging part).consent.pending = some (0, 1) ∧ (purgeStaging part).incarnation 0 = 1 ∧
      ((purgeStaging part).haltWriter.exec stream0.writer).inFlightOn 0 = false) ∧
    ((pulse .queue 4).active = true ∧ (pulse .queue 4).arrayOp = .erase ∧
      (pulse .queue 4).eraseCtx = some ⟨20, 4, .running, false⟩ ∧
      (pulse .queue 4).engine.current = some (erase20 .queue 0 .running) ∧ (pulse .queue 4).quiet ∧
      Flash.sectorErased [(81920, 0)] 20 = false ∧ 4 < 5) ∧
    ((pulse .slot 5).arrayOp = .erase ∧ (pulse .slot 5).engine.current = some (erase20 .slot 0 .running) ∧
      32 ≤ ({ pulse .queue 5 with badList := List.range' 100 32 } : Device).badList.length ∧
      (pulse .queue 5).badList.length < 32) ∧
    (20 ∉ (pulse .queue 0).freePool ∧ (pulse .queue 0).freePool = [] ++ [9] ∧ (pulse .queue 0).spaceWait = [] ∧
      (pulse .queue 0).writer.takesEntries = true ∧ (pulse .queue 0).placesSuffice .engine 1 = true ∧
      (full (pulse .queue 0)).placesSuffice .engine 1 = false) ∧
    (20 ∉ waiting.freePool ∧ waiting.spaceWait = .A :: [] ∧ (waiting.exec .A).job = seeking ∧
      ({ pulse .queue 5 with badList := List.range' 100 31 } : Device).badList.length = 31) ∧
    (formatPulse 1).consent.formatErased = 1 ∧ (formatPulse 3).consent.formatErased = 3 ∧
      (formatPulse 0).consent.state = .formatErase ∧ (pulse .slot 0).consent.state ≠ .formatErase :=
  ⟨⟨rfl, rfl, rfl, rfl, rfl, rfl, ⟨_, rfl, rfl⟩, rfl, rfl, rfl, rfl, rfl, rfl, rfl, rfl, rfl, by decide +kernel, rfl,
      by decide +kernel, by decide +kernel⟩, ⟨rfl, rfl, rfl, rfl, quiet_of (by decide +kernel), by decide, by decide⟩, ⟨rfl, rfl, by decide, by decide⟩,
    ⟨by decide, rfl, rfl, rfl, by decide, by decide⟩, ⟨by decide, rfl, rfl, by decide⟩, rfl, rfl, rfl, by decide⟩

/-- A pulse stopped for a suspension, or for an abandonment. -/
def stopping (source : EraseSource) (abandon : Bool) : Device :=
  erasing source 15 .reached ⟨20, 2, .suspending, abandon⟩ .suspending

theorem witness_StoppedPulsesAreReported :
    (stopping .queue false).active = true ∧ (stopping .queue false).eraseCtx = some ⟨20, 2, .suspending, false⟩ ∧
      (stopping .queue false).engine.current = some (erase20 .queue 15 .reached) ∧
      (stopping .queue false).arrayOp = .suspending ∧
      (stopping .slot true).eraseCtx = some ⟨20, 2, .suspending, true⟩ ∧
      (stopping .slot true).arbiter.holder = some .engine := ⟨rfl, rfl, rfl, rfl, rfl, rfl⟩

/-! ### Witnesses: bytes, entries, events, invariants -/

theorem witness_CutPulsesMoveBitsOneWay : Flash.wf [(0, 0), (1048575, 0xFE)] = true ∧ [0x00#8][0]? = some 0 :=
  ⟨by decide, rfl⟩

theorem witness_EveryStepKeepsTheArrayForm :
    State.reset.flash.wf = true ∧ step State.reset = .next State.reset ∧
      ({ holding (pulse .queue 4) with flash := [(81920, 0)], pending := [.erasePulseEnd true] } : State).flash.wf = true :=
  ⟨rfl, rfl, by decide⟩

theorem witness_StoredRecordReadsBack :
    Flash.wf [(0, 0)] = true ∧ 4294967295 < 4294967296 ∧ 1 ≤ (List.replicate 240 0x00#8).length ∧
      (List.replicate 240 0x00#8).length ≤ 240 ∧ [0x00#8].length ≤ 240 :=
  ⟨by decide, by decide, by decide +kernel, by decide +kernel, by decide⟩

theorem witness_MetadataReadsBack :
    ((MetaEntry.streamDef 15 255 .C (PerPort.all true) true .dropOldest 0xFFFFFFFF 252 4032 4294967295).valid = true ∧
      (MetaEntry.streamDrop 0 0).valid = true ∧ (MetaEntry.cursor 15 255 .C 4294967295 65535).valid = true ∧
      (MetaEntry.wear 252 16777215 0 0 1).valid = true ∧ (MetaEntry.retire (List.range' 248 8)).valid = true ∧
      (MetaEntry.retire [4]).valid = true ∧ (MetaEntry.checkpointEnd 4294967295 132).valid = true) ∧
    Flash.wf [] = true ∧ (inFlight .journal true false).half < 2 ∧ (inFlight .journal true false).page < 32 ∧
      (inFlight .journal true false).generation < 4294967296 ∧ (inFlight .journal true false).first < 4294967296 ∧
      1 ≤ (inFlight .journal true false).entries.length ∧ (inFlight .journal true false).entries.length ≤ 15 ∧
      (∀ e ∈ (inFlight .journal true false).entries, e.valid = true) ∧
      ∀ e ∈ (inFlight .journal true false).entries, e.asEnd = none :=
  ⟨⟨by decide, rfl, by decide, by decide, by decide, by decide, by decide⟩, rfl, by decide, by decide, by decide,
    by decide, by decide, by decide, by decide, by decide⟩

/-- Port A's append keeps a RETIRE entry and waits for its place. -/
def keeping (d : Device) (phase : AppendPhase) (attempts : Nat) : Device :=
  d.setExec .A ⟨.waitStaging, some (.known 7 .append [0, 0xAA, 0xBB, 0x11]),
    .append ⟨0, phase, 8, 3, attempts, [.retire [77]]⟩⟩

/-- The engine with the outcome of an erase in hand. -/
def outcome (d : Device) : Device := { d with engine := { Engine.powerUp with outcome := some (.wear 20) } }

/-- Port A's append waits for the places of a drop. -/
def seekWaits (d : Device) : Device := first (d.setExec .A ⟨.waitStaging, some appendOne, seeking⟩) [.executor .A]

/-- What the checks of that append answer, none where they pass. -/
def refusedAppend (d : Device) : Option Status :=
  match d.appendCheck .A (d.appendBody .A) with
  | .error status => some status
  | .ok _ => none

/-- Three waiters: the executors of A and C have places, the engine has none. -/
def threeWaiters : Device :=
  first (outcome ((keeping noPlaces .failed 3).setExec .A ⟨.waitStaging, some (.known 7 .sync []), .none⟩))
    [.executor .A, .executor .C, .engine]

/-- The consent unit waits for places. -/
def unitWaits (d : Device) : Device := first (purgeStaging d) [.consent]

theorem witness_StagingCoalescesAndOffersPlaces :
    (threeWaiters.writer.phase ≠ .erasing ∧ threeWaiters.writer.placeWait.head? = some (.executor .A) ∧
      (threeWaiters.offerTo (.executor .A)).writer.placeWait.head? = some (.executor .C) ∧
      ((threeWaiters.offerTo (.executor .A)).offerTo (.executor .C)).writer.placeWait.head? = some .engine ∧
      (((threeWaiters.offerTo (.executor .A)).offerTo (.executor .C)).offerTo .engine).writer.placeWait.head? =
        some .engine ∧ 2 < 2 * threeWaiters.writer.placeWait.length ∧
      ((first (keeping part .failed 3) [.executor .A]).offerTo (.executor .A)).writer.placeWait = [] ∧
      (first (outcome compacted) [.engine]).writer.phase = .erasing ∧
      ({ outcome part with engine := { (outcome part).engine with state := .waitStaging } } : Device).engine.state =
        .waitStaging) ∧
    (((seekWaits part).exec .A).state = .waitStaging ∧ ((seekWaits part).exec .A).job = seeking ∧
      .executor .A ∈ (seekWaits part).writer.placeWait ∧ (seekWaits part).stream 0 = some stream0 ∧
      refusedAppend (seekWaits (inMode .readOnly)) = some .readOnly ∧ refusedAppend (seekWaits part) = none ∧
      (seekWaits part).tailOf stream0 ≠ none ∧ (seekWaits (stuck 2 [9] [])).tailOf stream0 = none ∧
      (seekWaits (stuck 2 [9] [])).freePool ≠ [] ∧ (seekWaits (stuck 2 [] [])).eraseQueue = [] ∧
      (seekWaits (stuck 2 [] [20])).eraseQueue ≠ [] ∧ stream0.chain.length < stream0.quota ∧
      ((seekWaits (stuck 1 [] [])).stream 0).map (fun b => (b.quota, b.policy)) = some (1, .refuse) ∧
      ((seekWaits (dropping part)).stream 0).map (fun b => (b.quota, b.policy, b.chain.length)) =
        some (2, .dropOldest, 2) ∧
      (((seekWaits (dropping part)).leavePlaceWait (.executor .A)).toExec .A .check seeking).placesFor
        (fun d => d.dropHead 0) .A ∧
      ¬(((seekWaits (dropping noPlaces)).leavePlaceWait (.executor .A)).toExec .A .check seeking).placesFor
        (fun d => d.dropHead 0) .A) ∧
    ((unitWaits part).consent.state = .purgeStaging ∧ (unitWaits part).consent.pending = some (0, 1) ∧
      .consent ∈ (unitWaits part).writer.placeWait ∧ (unitWaits (part.setBody 0 none)).stream 0 = none ∧
      (unitWaits part).stream 0 = some stream0 ∧ (unitWaits part).incarnation 0 = 1 ∧
      ((unitWaits (appending .step2 0 14 [0])).exec stream0.writer).inFlightOn 0 = true ∧
      ((unitWaits part).exec stream0.writer).inFlightOn 0 = false ∧
      (unitWaits part).placesSuffice .consent ((unitWaits part).placesNeeded fun d => d.purgeStream 0) = true ∧
      (unitWaits noPlaces).placesSuffice .consent ((unitWaits noPlaces).placesNeeded fun d => d.purgeStream 0) =
        false) ∧
    (part.writer.takesEntries = true ∧ part.writer.nextSerial < 4294967295 ∧ part.writer.staging = []) ∧
    ((stagedCursor []).writer.staging = [] ++ ⟨5, .cursor 0 1 .B 1 0, .opened⟩ :: [] ∧
      MetaEntry.sameCursor (.cursor 0 1 .B 1 0) (.cursor 0 1 .B 2 0) = true) ∧
    ((stagedCursor [⟨6, .streamDrop 0 1, .opened⟩]).writer.staging =
        [] ++ ⟨5, .cursor 0 1 .B 1 0, .opened⟩ :: [⟨6, .streamDrop 0 1, .opened⟩] ∧
      (∀ y ∈ ([⟨6, .streamDrop 0 1, .opened⟩] : List Staged), y.cond = .opened →
        y.entry.sameCursor (.cursor 0 1 .B 2 0) = false) ∧
      MetaEntry.definesStream 0 (.streamDrop 0 1) = true) ∧
    (({ part with writer := { writer0 with state := .halted } } : Device).writer.takesEntries = false ∧
      ({ part with writer := { writer0 with nextSerial := 4294967295 } } : Device).writer.takesEntries = true) ∧
    (part.writer.placeWait = [] ∧ (first part [.executor .C]).writer.placeWait = .executor .C :: [] ∧
      ((first (keeping noPlaces .failed 1) [.executor .A]).offerTo (.executor .A)).writer.placeWait.head? =
        some (.executor .A) ∧
      ((first (keeping part .failed 3) [.executor .A]).offerTo (.executor .A)).writer.placeWait = [] ∧
      ((first (outcome noPlaces) [.executor .C, .engine]).offerTo (.executor .C)).writer.placeWait = .engine :: [] ∧
      (((first (outcome noPlaces) [.executor .C, .engine]).offerTo (.executor .C)).offerTo .engine).writer.placeWait.head? =
        some .engine) ∧
    (((inHand .waitStaging .none).exec .A).inHand = some (.known 7 .sync []) ∧
      (((inHand .waitStaging .none).process .A (.known 7 .sync [])).exec .A).state ≠ .waitStaging ∧
      ((noPlaces.process .B (ackOne false)).exec .B).state = .waitStaging) ∧
    (((keeping part (.committed 2) 0).exec .A).state = .waitStaging ∧
      (keeping part (.committed 2) 0).placesSuffice (.executor .A) 1 = true ∧
      (keeping noPlaces .failed 1).placesSuffice (.executor .A) 1 = false) ∧
    (outcome part).engine.outcome = some (.wear 20) ∧ (outcome part).placesSuffice .engine 1 = true ∧
      (outcome noPlaces).placesSuffice .engine 1 = false :=
  ⟨⟨by decide, rfl, by decide +kernel, by decide +kernel, by decide +kernel, by decide,
      by decide +kernel, rfl, rfl⟩,
    ⟨rfl, rfl, .head _, by decide +kernel, by decide +kernel, by decide +kernel, by decide +kernel, by decide +kernel,
      by decide, rfl, by decide, by decide, by decide +kernel, by decide +kernel,
      by unfold Device.placesFor; decide +kernel, by unfold Device.placesFor; decide +kernel⟩,
    ⟨rfl, rfl, .head _, by decide +kernel, by decide +kernel, by decide +kernel, rfl, rfl, by decide +kernel,
      by decide +kernel⟩,
    ⟨rfl, by decide, rfl⟩, ⟨rfl, by decide⟩, ⟨rfl, by decide, by decide⟩, ⟨rfl, rfl⟩,
    ⟨rfl, rfl, by decide +kernel, by decide +kernel, by decide +kernel, by decide +kernel⟩,
    ⟨rfl, by decide +kernel, by decide +kernel⟩, ⟨rfl, by decide +kernel, by decide +kernel⟩, rfl, by decide +kernel,
    by decide +kernel⟩

theorem witness_OfferedEventsCoalesce :
    ([⟨.peer, some 1, some 1⟩] : List Event) = [] ++ ⟨.peer, some 1, some 1⟩ :: [] ∧
      ([] : List Event).all (fun y => !y.matches ⟨.peer, some 1, some 0⟩) = true ∧
      ((List.range 15).map fun n => (⟨.retired, some n, none⟩ : Event)).length < 16 ∧
      16 ≤ ((List.range 16).map fun n => (⟨.retired, some n, none⟩ : Event)).length ∧
      ((List.range 16).map fun n => (⟨.retired, some n, none⟩ : Event)).all
        (fun y => !y.matches ⟨.retired, some 16, none⟩) = true ∧
      ((List.range 16).map fun n => (⟨.retired, some n, none⟩ : Event)).Pairwise
        (fun x y => ¬(x.kind = y.kind ∧ x.subject = y.subject)) :=
  ⟨rfl, rfl, by decide, by decide, by decide, by decide⟩

theorem witness_HighFlagFollowsTheRoom : part.stream 0 = some stream0 := by decide +kernel

theorem part_good : part.eventsGood ∧ part.requestsGood ∧ part.slotsGood ∧ part.budgetGood :=
  ⟨fun p => by cases p <;> exact ⟨rfl, .nil⟩, fun p => by cases p <;> rfl,
    fun p => by cases p <;> decide, fun _ _ h => nomatch h⟩

theorem witness_QueuesStayGood :
    (holding part).dev.eventsGood ∧ (holding part).dev.requestsGood ∧ (holding part).dev.slotsGood ∧
      step (holding part) = .next (holding part) := ⟨part_good.1, part_good.2.1, part_good.2.2.1, rfl⟩

theorem witness_SuspensionsStayInBudget : (holding part).dev.budgetGood ∧ step (holding part) = .next (holding part) :=
  ⟨part_good.2.2.2, rfl⟩

/-- Every data sector but 8 and 9, for the erase queue. -/
def otherSectors : List Nat := 10 :: List.range' 4 4 ++ List.range' 11 245

/-- The part with every data sector in a place. -/
def settledPart : Device := { part with eraseQueue := otherSectors }

/-- Port A's append in its step 1, every data sector in a place. -/
def settledAppend : Device := { appending .step1 0 0 recordBytes with eraseQueue := otherSectors }

theorem settled_sectors : settledPart.sectorsGood :=
  ⟨by decide +kernel, by decide, (fun c (h : settledPart.engine.current = some c) => by cases h),
    fun _ => by decide +kernel⟩

theorem append_sectors : settledAppend.sectorsGood :=
  ⟨by decide +kernel, by decide, (fun c (h : settledAppend.engine.current = some c) => by cases h),
    fun _ => by decide +kernel⟩

theorem settled_scan : settledPart.scanGood := fun h => (by cases h)

theorem append_scan : settledAppend.scanGood := fun h => (by cases h)

/-- DATA_SCAN at sector 8: stream 0 owns 4 and 5, 6 is bad, 7 released. -/
def midScan : Device :=
  { mounting 8 15 with
    mount := { (mounting 8 15).mount with
      streams := replayed.streams, bad := [6], released := [7], owned := [owned 4 [0, 1], owned 5 [2]] } }

theorem mid_scan : midScan.scanGood := by
  have noStream : ∀ st : Fin 16, midScan.stream st = none ∧
      (midScan.cursor st .A = none ∧ midScan.cursor st .B = none ∧ midScan.cursor st .C = none) := by decide +kernel
  have noChain : ∀ st : Fin 16, ((midScan.mount.streams[st.val].body.map StreamBody.chain).getD []) = [] := by
    decide +kernel
  have noRetained : ∀ st : Fin 16, midScan.mount.retained[st.val] = PerPort.all none := by decide +kernel
  refine fun _ => ⟨rfl, rfl, fun p => by cases p <;> rfl, fun st => ⟨(noStream st).1, fun p => ?_⟩, rfl, rfl, rfl,
    fun n page h => ?_⟩
  · cases p
    exacts [(noStream st).2.1, (noStream st).2.2.1, (noStream st).2.2.2]
  · cases h
    refine ⟨fun st b hb => ?_, fun st p r hr => ?_, fun h => absurd h (by decide), fun _ => ⟨by decide, by decide, by decide,
      by decide, by decide, by decide, ?_⟩⟩
    · have := noChain st
      rw [hb] at this
      exact this
    · rw [noRetained st] at hr
      cases p <;> cases hr
    · intro o ho
      rcases List.mem_cons.mp ho with rfl | ho
      · exact ⟨by decide +kernel, by unfold pagesInOrder; decide +kernel, 0, 2, by decide, by decide +kernel⟩
      · rcases List.mem_singleton.mp ho with rfl
        exact ⟨by decide +kernel, by unfold pagesInOrder; decide +kernel, 2, 1, by decide, by decide +kernel⟩

theorem witness_SectorsStayInOnePlace :
    (settledPart.sectorsGood ∧ settledPart.scanGood ∧ settledPart.places.length = 252 ∧
      step (holding settledPart) = .next (holding settledPart)) ∧
    midScan.sectorsGood ∧ midScan.scanGood ∧ midScan.mode = .mounting ∧ midScan.arrayOp = .read 8 15 :=
  ⟨⟨settled_sectors, settled_scan, by decide +kernel, rfl⟩,
    ⟨by decide +kernel, by decide, (fun c (h : midScan.engine.current = some c) => by cases h),
      fun h => absurd h (by decide)⟩, mid_scan, rfl, rfl⟩

/-- One open stream, its records one run, B's and C's cursors in order: what `cursorsGood` asks of `stream0`. -/
theorem cursors_of {d : Device} (streams : ∀ st : Fin 16, d.stream st = if st = 0 then some stream0 else none)
    (cursors : d.cursors[(0 : Fin 16).val] = ⟨none, some curB, some curC⟩)
    (records : (stream0.chain.flatMap fun n => (d.sector n).liveSeqs) = [0, 1, 2])
    (order : pagesInOrder (d.sector 8).pageList) : d.cursorsGood := by
  intro st b hb
  rw [streams st] at hb
  split at hb
  · next h =>
    subst h
    cases hb
    refine ⟨by decide, records, fun n hn => ?_, fun p c hc => ?_⟩
    · rcases List.mem_singleton.mp hn with rfl
      exact order
    · rw [Device.cursor, cursors] at hc
      cases p <;> cases hc <;> decide
  · cases hb

theorem settled_cursors : settledPart.cursorsGood :=
  cursors_of (by decide +kernel) (by decide +kernel) (by decide +kernel) (by unfold pagesInOrder; decide +kernel)

theorem append_cursors : settledAppend.cursorsGood :=
  cursors_of (by decide +kernel) (by decide +kernel) (by decide +kernel) (by unfold pagesInOrder; decide +kernel)

theorem settled_appends : settledPart.appendsGood :=
  ⟨fun p j h => (by cases p <;> cases h), fun h => (by cases h), fun h => (by cases h)⟩

theorem append_appends : settledAppend.appendsGood := by
  refine ⟨fun p j h => ?_, fun h => (by cases h), fun h => (by cases h)⟩
  cases p <;> cases h
  have chain : settledAppend.stream 0 = some stream0 := by decide +kernel
  refine ⟨fun r h => ?_, fun _ => ⟨stream0, chain, rfl⟩, fun _ => ⟨fun b hb => ?_, by decide +kernel, ?_⟩,
    fun h => (by cases h), fun _ => ⟨rfl, 8, 3, 0, recordBytes, rfl⟩⟩
  · cases h
    exact ⟨7, [0, 0xAA, 0xBB, 0x11], rfl, rfl⟩
  · have hb' : settledAppend.stream 0 = some b := hb
    rw [chain] at hb'
    cases hb'
    rfl
  · have all : ∀ k : Fin 16, 3 < k.val → (settledAppend.sector 8).pageList[k.val]? = some .unused := by decide +kernel
    exact fun k h3 h16 => all ⟨k, h16⟩ h3

theorem witness_CursorsStayInOrder :
    (settledPart.sectorsGood ∧ settledPart.scanGood ∧ settledPart.cursorsGood ∧ settledPart.appendsGood ∧
      step (holding settledPart) = .next (holding settledPart)) ∧
    (settledAppend.sectorsGood ∧ settledAppend.scanGood ∧ settledAppend.cursorsGood ∧ settledAppend.appendsGood ∧
      (settledAppend.exec .A).job = .append (appendJob .step1 0)) ∧
    ((settledPart.setExec .B ⟨.waitArray, some (.known 9 .read [0]), .read 0 1⟩).exec .B).job = .read 0 1 ∧
      (((settledPart.setExec .B ⟨.waitArray, some (.known 9 .read [0]), .read 0 1⟩).grantRead .B 0 1).exec .B).job =
        .reading 0 1 2 8 2 ∧
      ((((settledPart.setExec .A ⟨.waitArray, some appendOne, seeking⟩).grantStep1 .A ⟨0, .seek, 0, 0, 0, []⟩).exec .A).job
        = .append ⟨0, .step1, 8, 3, 0, []⟩) :=
  ⟨⟨settled_sectors, settled_scan, settled_cursors, settled_appends, rfl⟩,
    ⟨append_sectors, append_scan, append_cursors, append_appends, rfl⟩, rfl, by decide +kernel, by decide +kernel⟩

theorem witness_JournalStaysInOrder :
    (holding (stagedCursor [⟨6, .streamDrop 0 1, .opened⟩])).dev.journalGood ∧
      (holding noPlaces).dev.journalGood ∧ step (holding noPlaces) = .next (holding noPlaces) := by
  refine ⟨⟨by decide, by decide, by decide, by decide, (fun _ h => nomatch h), by decide⟩,
    ⟨by decide, by decide, by decide, by decide, (fun _ h => nomatch h), by decide⟩, rfl⟩

/-! ### Smoke: ill-formed commands are refused -/

theorem test_long_body_refused : (Instr.append .A 0 (List.replicate 251 0)).wellFormed = false := by decide +kernel

theorem test_longest_body_accepted : (Instr.append .A 0 (List.replicate 250 0)).wellFormed = true := by decide +kernel

/-- 02h is FETCH (R160). -/
theorem test_known_transaction_code_refused : (Instr.otherTransactionCode .B 0x02 (.ends 4)).wellFormed = false := by decide

theorem test_unknown_transaction_code_accepted : (Instr.otherTransactionCode .B 0x04 (.ends 4)).wellFormed = true := by decide

/-- 12h is REFUSE, the highest kind code (R163). -/
theorem test_known_kind_refused : (Instr.unknownEntry .C 1 0x12).wellFormed = false := by decide

theorem test_unknown_kind_accepted : (Instr.unknownEntry .C 1 0x13).wellFormed = true := by decide

/-- No row of the table has bits. -/
theorem test_no_word_spells_a_command : decodeTableWord 8 0x41 = none := rfl

/-! ### Bytes (R70, R71, R73) -/

/-- The CRC of the nine ASCII bytes 31h to 39h (R70). -/
theorem test_crc_digits : crc16 [0x31, 0x32, 0x33, 0x34, 0x35, 0x36, 0x37, 0x38, 0x39] = 0x29B1 := by decide +kernel

theorem test_crc_zero : crcBytes [0x00] = [0xE1, 0xF0] := by decide +kernel

/-- The header fields of a data page, byte by byte (R71). -/
theorem test_data_header : dataHeader 5 7 12 .C 0x01020304 [0xAA, 0xBB] = [5, 7, 12, 2, 1, 2, 3, 4, 0xAA, 0xBB] := by
  decide

/-- Generation, first serial, entry count, page kind (R73). -/
theorem test_meta_header : metaHeader 41 8995 5 .journal = [0, 0, 0, 41, 0, 0, 0x23, 0x23, 5, 2] := by decide

/-! ### The link (R160 to R165) -/

/-- After RESETn: four free slots, MOUNTING (R161). -/
theorem test_reset_link_status : State.reset.dev.linkStatus .C = [0x80, 0x01] := by decide +kernel

/-- A SEND of an ATTACH is answered in the event its transaction ends; the CRC is sent after the body (R162). -/
theorem test_send_attach :
    answers (.send .A (.ends (0x00 :: requestFrame 7 0x01 []))) (detached .A) .A = some [(.ok, [0])] := by decide +kernel

/-- Four slots free, no response, READY (R161); FFh after the two status bytes. -/
theorem test_other_code_shifts_status :
    after (.otherTransactionCode .B 0x09 (.ends 4)) part (fun d => (d.port .B).sdo) = some [0x80, 0x03, 0xFF, 0xFF, 0xFF] := by
  decide +kernel

/-- A FETCH that shifted the whole response out removes it (R165). -/
theorem test_fetch_removes : answers (.fetch .A (.ends 8)) answered .A = some [] := by decide +kernel

/-- One byte short, it stays (R165). -/
theorem test_short_fetch_keeps : answers (.fetch .A (.ends 7)) answered .A = some [(.ok, [0x2A])] := by decide +kernel

/-- Begun with nothing waiting, it removes none, whatever has come since (R165). -/
theorem test_fetch_begun_empty_removes_none : answers (.fetch .A (.ends 8)) begunEmpty .A = some [(.ok, [0x2A])] := by
  decide +kernel

/-- The beginning of a transaction samples the link status and the oldest response (R160, R165). -/
theorem test_beginning_samples :
    after (.fetch .A .begins) answered (fun d => (d.port .A).begun) = some (some ⟨[0x84, 0x03], some ⟨1, 1, .ok, [0x2A]⟩⟩) := by
  decide +kernel

/-- LINK_RESET of a party aborts the ballot: 4 is ABORTED (R144, R152, R170). -/
theorem test_link_reset_aborts_ballot :
    after (.linkReset .C (.ends 1)) balloting (fun d => ((d.events.get .B).queue, d.consent.ballot)) =
      some ([⟨.ballotDone, some 1, some 4⟩, ⟨.peer, some 2, some 0⟩], none) := by decide +kernel

/-- LINK_RESET of an append that waits for places with its void step on the array frees the list for those behind (log
28): here the consent unit, which has nothing to purge. -/
theorem test_link_reset_offers_on :
    after (.linkReset .A (.ends 1)) { keptOnArray with
        consent := { Consent.powerUp with state := .purgeStaging, pending := some (5, 1) } }
      (fun d => (d.writer.placeWait, d.consent.state)) = some ([], .idle) := by decide +kernel

/-! ### Requests (R163 to R173) -/

theorem test_attach_sends_peer :
    after (.attach .B 1 []) (detached .B) (fun d => (d.events.get .A).queue) = some [⟨.peer, some 1, some 1⟩] := by
  decide +kernel

/-- The arrival of a request ends the transaction under way at its port (R160; log 43). -/
theorem test_arrival_ends_the_transaction :
    after (.status .A 1 []) begunEmpty (fun d => (d.port .A).begun) = some none := by decide +kernel

theorem test_detached_request : answers (.detach .B 1 []) (detached .B) .B = some [(.notAttached, [])] := by
  decide +kernel

/-- Attachment is checked before the empty body (R169). -/
theorem test_detached_detach_with_a_body :
    answers (.detach .B 1 [0]) (detached .B) .B = some [(.notAttached, [])] := by decide +kernel

/-- 26 bytes, the first the device state (R172). -/
theorem test_status_length :
    after (.status .A 1 []) part (fun d => (d.port .A).responses.map fun r => (r.body.length, r.body.head?)) =
      some [(26, some 0x03)] := by decide +kernel

/-- The writer A, no reader of its own stream, gets the 27 bytes of the descriptor alone (R67, R171). -/
theorem test_query_without_cursor :
    after (.query .A 1 [0]) part (fun d => (d.port .A).responses.map fun r => r.body.length) = some [27] := by
  decide +kernel

/-- The default mask is PEER, 0200h (R154). -/
theorem test_mask_answers_old : answers (.mask .A 1 [0x00, 0x06]) part .A = some [(.ok, [0x02, 0x00])] := by
  decide +kernel

theorem test_events_of_an_empty_queue : answers (.events .A 1 []) part .A = some [(.ok, [0, 0, 0])] := by decide +kernel

theorem test_frame_entry : answers (.frameEntry .A) part .A = some [(.frame, [])] := by decide +kernel

theorem test_unknown_entry :
    after (.unknownEntry .A 3 0x55) part (fun d => (d.port .A).responses) = some [⟨3, 0x55, .unknown, []⟩] := by
  decide +kernel

/-- C has been delivered every record (R52). -/
theorem test_read_empty : answers (.read .C 1 [0]) part .C = some [(.empty, [])] := by decide +kernel

/-- B's delivered is 2: ACK through 2 lies past it (R57). -/
theorem test_ack_past_delivered : answers (.ack .B 1 [0, 0, 0, 0, 2, 0]) part .B = some [(.seq, [])] := by decide +kernel

theorem test_ack_advances :
    after (.ack .B 1 [0, 0, 0, 0, 1, 0]) part (fun d => ((d.port .B).responses.map (·.body), d.cursor 0 .B)) =
      some ([[0, 0, 0, 2]], some ⟨2, 2, 1024, false, 0, 2, 0⟩) := by decide +kernel

theorem test_rewind : answers (.rewind .B 1 [0]) part .B = some [(.ok, [0, 0, 0, 1])] := by decide +kernel

/-- B's backlog is 2: a level of 2 sets the flag and says so at once (R63). -/
theorem test_setlevel_tells_backlog :
    after (.setlevel .B 1 [0, 0, 2]) part (fun d => (d.events.get .B).queue) = some [⟨.backlog, some 0, some 2⟩] := by
  decide +kernel

/-- Next serial 5, durable serial 4: answered at once (R173). -/
theorem test_sync_at_once : answers (.sync .C 1 []) part .C = some [(.ok, [0, 0, 0, 4])] := by decide +kernel

/-- DROP_OLDEST with a quota of 1 is refused (R18). -/
theorem test_create_drop_oldest_of_one :
    answers (.create .A 1 [0, 0, 0, 1, 1, 1, 7, 0, 0]) part .A = some [(.badArg, [])] := by decide +kernel

/-- The lowest FREE number is 1; its incarnation becomes 1 (R3, R19). -/
theorem test_create_takes_lowest :
    after (.create .A 1 createBody) part (fun d => ((d.stream 1).isSome, d.incarnation 1)) = some (true, 1) := by
  decide +kernel

/-- A quota below the chain's length is refused (R20). -/
theorem test_configure_below_chain :
    answers (.configure .A 1 (0 :: [6, 0, 0, 0, 0, 0])) part .A = some [(.badArg, [])] := by decide +kernel

theorem test_delete_backlog : answers (.delete .A 1 [0]) part .A = some [(.backlog, [])] := by decide +kernel

theorem test_append_not_writer : answers (.append .B 1 [0, 0, 0, 9]) part .B = some [(.notWriter, [])] := by
  decide +kernel

/-- The first UNUSED page of the tail is 3; a record of one byte takes 17 bytes of it (R29, R71). -/
theorem test_append_programs_tail :
    after (.append .A 1 [0, 0xAA, 0xBB, 0x11]) part (fun d => d.arrayOp) = some (.program 8 3 0 recordBytes) := by
  decide +kernel

theorem test_propose_opens :
    after (.propose .A 1 [1, 0]) part (fun d => ((d.port .A).responses.map (·.body), (d.events.get .C).queue)) =
      some ([[1]], [⟨.ballotOpen, some 1, some 1⟩]) := by decide +kernel

theorem test_agree_another_id : answers (.agree .B 1 [2]) balloting .B = some [(.stale, [])] := by decide +kernel

/-- 2 is REFUSED (R152). -/
theorem test_refuse_closes :
    after (.refuse .B 1 [1]) balloting (fun d => ((d.events.get .C).queue, d.consent.state)) =
      some ([⟨.ballotDone, some 1, some 2⟩], .idle) := by decide +kernel

/-! ### Timers and reports -/

theorem test_window_expires :
    after .windowTimerExpiry balloting (fun d => (d.events.get .B).queue) = some [⟨.ballotDone, some 1, some 3⟩] := by
  decide +kernel

/-- The journal page claimed at entry is the one stopping flush (R122). -/
theorem test_claimed_page_is_the_flush :
    after .pfailAsserted noPlaces (fun d => (d.writer.stop, d.writer.state)) = some (.flushing, .claim1) := by
  decide +kernel

theorem test_space_timer_answers : answers (.spaceTimerExpiry .A) waiting .A = some [(.nospace, [])] := by
  decide +kernel

/-- After step 1 the executor claims again, and on the idle array programs the commit mark (R37, R38). -/
theorem test_step1_then_step2 :
    after .appendStep1Done (appending .step1 0 0 recordBytes) (fun d => d.arrayOp) = some (.program 8 3 14 [0x00]) := by
  decide +kernel

theorem test_append_commits :
    after .appendStep2Done (appending .step2 0 14 [0x00])
        (fun d => ((d.port .A).responses.map (·.body), (d.stream 0).map (·.next))) = some ([[0, 0, 0, 3]], some 4) := by
  decide +kernel

/-- In FORMATTING too a failed step is followed by the void step (R41, R46). -/
theorem test_step_fail_in_formatting_voids :
    after .appendStepFail
        { appending .step1 0 0 recordBytes with
          mode := .formatting, consent := { Consent.powerUp with state := .formatDrain } }
        (fun d => d.arrayOp) = some (.program 8 3 15 [0x00]) := by decide +kernel

/-- Three attempts failed (R42). -/
theorem test_third_failure_is_media :
    answers (.appendVoidStepEnd false) (appending .voiding 3 15 [0x00]) .A = some [(.media, [])] := by decide +kernel

/-- A stopped pulse does not count (R80); with no other claim waiting the erase resumes at once (R86, R90). -/
theorem test_suspended_resumes :
    after .suspended (erasing .queue 3 .reached ⟨20, 2, .suspending, false⟩ .suspending)
        (fun d => (d.engine.current.map (·.suspensions), d.eraseCtx.map (·.pulses), (d.sector 20).state)) =
      some (some 4, some 2, .erasing) := by decide +kernel

/-- The sector erased joins the pool with its count one more (R97); ERASE_DONE has the third pulse's number (R79). -/
theorem test_erase_done :
    after (.erasePulseEnd true) (pulse .queue 2)
        (fun d => ((d.sector 20).state, (d.sector 20).eraseCount, d.freePool, d.eraseDonePulses)) =
      some (.free, 1, [9, 20], 3) := by decide +kernel

/-- META_SCAN goes on to the next page (R125). -/
theorem test_mount_reads_on :
    after .mountReadDone (mounting 0 0) (fun d => d.arrayOp) = some (.read 0 1) := by decide +kernel

end Sys2Proof.Tests
end

