-- ==== Sys2Proof/Proofs/ThePageArray.lean ====
section
/-! The CRC of R70 and the places that hold one: the register's recursion, the two bytes stored, and the two layouts that
carry it (a page behind its ten header bytes, a frame behind the bytes covered). -/

namespace Sys2Proof.Machine

open Sys2Proof

/-! ### The register -/

@[simp] theorem crc16_nil : crc16 [] = 0xFFFF#16 := rfl

/-- Bytes enter the register in ascending order, so the last one enters last (R70). -/
theorem crc16_concat (l : List Byte) (b : Byte) : crc16 (l ++ [b]) = crcByte (crc16 l) b := by
  simp [crc16, List.foldl_append]

theorem crcShift_eq_ite_getLsbD (r : BitVec 16) :
    crcShift r = if r.getLsbD 15 then (r <<< 1) ^^^ 0x1021#16 else r <<< 1 := by
  rw [crcShift, BitVec.msb_eq_getLsbD_last]

/-- The eight shifts of one byte, as a fold over their numbers. -/
theorem crcByte_eq_foldl_crcShift (r : BitVec 16) (b : Byte) :
    crcByte r b = (List.range 8).foldl (fun r _ => crcShift r) (r ^^^ (b.setWidth 16 <<< 8)) := rfl

/-! ### The two bytes stored -/

theorem crcBytes_eq_pair (l : List Byte) :
    crcBytes l = [(crc16 l).extractLsb' 8 8, (crc16 l).extractLsb' 0 8] := by
  have hi : BitVec.ofNat 8 ((crc16 l).toNat / 256) = (crc16 l).extractLsb' 8 8 := by
    rw [BitVec.extractLsb', Nat.shiftRight_eq_div_pow]
  have lo : BitVec.ofNat 8 (crc16 l).toNat = (crc16 l).extractLsb' 0 8 := by
    rw [BitVec.extractLsb', Nat.shiftRight_zero]
  simp [crcBytes, bigEndian, hi, lo]

/-- The two bytes spell the register, most significant byte first (R70). -/
theorem crcBytes_spell_crc16 (l : List Byte) : ∃ hi lo : Byte, crcBytes l = [hi, lo] ∧ hi ++ lo = crc16 l := by
  refine ⟨_, _, crcBytes_eq_pair l, ?_⟩
  have join : (crc16 l).extractLsb' 8 8 ++ (crc16 l).extractLsb' 0 8 = (crc16 l).extractLsb' 0 16 :=
    BitVec.extractLsb'_append_extractLsb'_eq_extractLsb' rfl
  exact join.trans BitVec.extractLsb'_eq_self

/-! ### Pages -/

/-- The layout data pages and metadata pages share (R71, R73): header bytes 0 to 9, the header's CRC, the body's CRC, both
marks erased, the body. -/
def pageLayout (header body : List Byte) : List Byte :=
  header ++ crcBytes header ++ crcBytes body ++ [erasedByte, erasedByte] ++ body

theorem dataStep1_eq_pageLayout (st : Fin 16) (inc : Byte) (origin : Port) (seq : Nat) (tag payload : List Byte) :
    dataStep1 st inc origin seq tag payload = pageLayout (dataHeader st inc payload.length origin seq tag) payload := rfl

theorem metaStep1_eq_pageLayout (generation first : Nat) (kind : MetaKind) (entries : List MetaEntry) :
    metaStep1 generation first kind entries =
      pageLayout (metaHeader generation first entries.length kind) (entries.flatMap MetaEntry.encode) := rfl

theorem dataHeader_length (st : Fin 16) (inc : Byte) (len : Nat) (origin : Port) (seq : Nat) (tag : List Byte) :
    (dataHeader st inc len origin seq tag).length = 8 + tag.length := by
  simp [dataHeader]; omega

theorem metaHeader_length (generation first count : Nat) (kind : MetaKind) :
    (metaHeader generation first count kind).length = 10 := by
  simp [metaHeader]

section PageFields

variable {header : List Byte} (hlen : header.length = 10) (body : List Byte)
include hlen

theorem pageLayout_take_header : (pageLayout header body).take 10 = header := by
  simp [pageLayout, ← hlen]

theorem pageLayout_headerCrc : bytesAt (pageLayout header body) 10 2 = crcBytes header := by
  simp [bytesAt, pageLayout, ← hlen]

theorem pageLayout_bodyCrc : bytesAt (pageLayout header body) 12 2 = crcBytes body := by
  simp [bytesAt, pageLayout, List.drop_append, List.take_append, hlen]

theorem pageLayout_drop_body : (pageLayout header body).drop 16 = body :=
  List.drop_left' (by simp [hlen])

end PageFields

/-! ### Frames -/

/-- Bytes followed by their own CRC are, cut at the number of bytes covered, just that. -/
theorem append_crcBytes_eq_take {covered : List Byte} {n : Nat} (hlen : covered.length = n) :
    covered ++ crcBytes covered =
      (covered ++ crcBytes covered).take n ++ crcBytes ((covered ++ crcBytes covered).take n) := by
  rw [List.take_left' hlen]

theorem requestFrame_ends_in_crc (tag kind : Byte) (body : List Byte) :
    requestFrame tag kind body = (requestFrame tag kind body).take (3 + body.length) ++
      crcBytes ((requestFrame tag kind body).take (3 + body.length)) :=
  append_crcBytes_eq_take (by simp; omega)

theorem responseFrame_ends_in_crc (r : Response) :
    responseFrame r = (responseFrame r).take (4 + r.body.length) ++
      crcBytes ((responseFrame r).take (4 + r.body.length)) :=
  append_crcBytes_eq_take (by simp; omega)

/-- Settles O47: the register by its recursion, the stored bytes by splitting the register, the pages and frames by their
layouts. -/
theorem crcFollowsItsDefinition : Obligations.CrcFollowsItsDefinition := by
  unfold Obligations.CrcFollowsItsDefinition
  refine ⟨crc16_nil, fun l b => ?recursion, by decide +kernel, by decide, crcBytes_spell_crc16,
    fun st inc origin seq t0 t1 payload => ?data, fun generation first kind entries => ?metadata,
    requestFrame_ends_in_crc, responseFrame_ends_in_crc⟩
  case recursion =>
    simp only [crc16_concat, crcByte_eq_foldl_crcShift, crcShift_eq_ite_getLsbD]
  case data =>
    have hlen := dataHeader_length st inc payload.length origin seq [t0, t1]
    simp only [dataStep1_eq_pageLayout, pageLayout_headerCrc hlen, pageLayout_take_header hlen,
      pageLayout_bodyCrc hlen, pageLayout_drop_body hlen, and_self]
  case metadata =>
    have hlen := metaHeader_length generation first entries.length kind
    simp only [metaStep1_eq_pageLayout, pageLayout_headerCrc hlen, pageLayout_take_header hlen,
      pageLayout_bodyCrc hlen, pageLayout_drop_body hlen, and_self]

end Sys2Proof.Machine
end

