-- ==== Sys2Proof/Proofs/EventQueues.lean ====
section
/-! The event queue of R155: the three things an offer does to a queue, and what the queue keeps through each of them. -/

namespace Sys2Proof.Machine

open Sys2Proof

/-! ### Matching events -/

theorem Event.matches_iff {x e : Event} : x.matches e = true ↔ x.kind = e.kind ∧ x.subject = e.subject := by
  simp [Event.matches]

/-- Two queued events of one kind and subject, which R155 rules out, are two that match. -/
theorem Event.distinct_iff {x y : Event} :
    ¬(x.kind = y.kind ∧ x.subject = y.subject) ↔ x.matches y = false := by
  rw [← Event.matches_iff, Bool.not_eq_true]

/-- A queued event brought up to date by an offered one: the new value where they match (R155). -/
def Event.refresh (e x : Event) : Event := if x.matches e then { x with value := e.value } else x

theorem Event.refresh_of_matches {e x : Event} (h : x.matches e = true) :
    e.refresh x = { x with value := e.value } := if_pos h

theorem Event.refresh_of_not_matches {e x : Event} (h : x.matches e = false) : e.refresh x = x := by
  simp [Event.refresh, h]

/-- A new value changes neither the kind nor the subject, so it makes no two events alike. -/
@[simp] theorem Event.refresh_matches_refresh (e x y : Event) :
    (e.refresh x).matches (e.refresh y) = x.matches y := by
  unfold Event.refresh
  split <;> split <;> rfl

theorem Event.map_refresh_of_none {e : Event} {l : List Event} (h : ∀ x ∈ l, x.matches e = false) :
    l.map e.refresh = l :=
  (List.map_congr_left fun x hx => Event.refresh_of_not_matches (h x hx)).trans (List.map_id' l)

/-! ### What an offer does -/

theorem EventUnit.offer_of_match {u : EventUnit} {e x : Event} (hx : x ∈ u.queue) (h : x.matches e = true) :
    u.offer e = { u with queue := u.queue.map e.refresh } :=
  if_pos (List.any_eq_true.mpr ⟨x, hx, h⟩)

theorem EventUnit.offer_of_no_match {u : EventUnit} {e : Event} (h : ∀ x ∈ u.queue, x.matches e = false) :
    u.offer e =
      if u.queue.length < 16 then { u with queue := u.queue ++ [e] } else { u with overflow := true } :=
  if_neg (by simpa using h)

theorem EventUnit.offer_of_room {u : EventUnit} {e : Event} (h : ∀ x ∈ u.queue, x.matches e = false)
    (room : u.queue.length < 16) : u.offer e = { u with queue := u.queue ++ [e] } := by
  rw [offer_of_no_match h, if_pos room]

theorem EventUnit.offer_of_full {u : EventUnit} {e : Event} (h : ∀ x ∈ u.queue, x.matches e = false)
    (full : 16 ≤ u.queue.length) : u.offer e = { u with overflow := true } := by
  rw [offer_of_no_match h, if_neg (Nat.not_lt.mpr full)]

/-- All an offer can do to a queue: refresh its matching entries, add the event behind entries that do not match it, or
leave it (R155). -/
theorem EventUnit.offer_queue_cases (u : EventUnit) (e : Event) :
    (u.offer e).queue = u.queue.map e.refresh ∨
      ((∀ x ∈ u.queue, x.matches e = false) ∧ u.queue.length < 16 ∧ (u.offer e).queue = u.queue ++ [e]) ∨
      (u.offer e).queue = u.queue := by
  by_cases h : ∀ x ∈ u.queue, x.matches e = false
  · rcases Nat.lt_or_ge u.queue.length 16 with room | full
    · exact .inr (.inl ⟨h, room, by rw [offer_of_room h room]⟩)
    · exact .inr (.inr (by rw [offer_of_full h full]))
  · obtain ⟨x, hx, hmatch⟩ : ∃ x ∈ u.queue, x.matches e = true := by simpa using h
    exact .inl (by rw [offer_of_match hx hmatch])

/-! ### What the queue keeps -/

theorem EventUnit.offer_keeps_bound (u : EventUnit) (e : Event) (h : u.queue.length ≤ 16) :
    (u.offer e).queue.length ≤ 16 := by
  obtain hq | ⟨-, room, hq⟩ | hq := u.offer_queue_cases e
  · simpa [hq] using h
  · simpa [hq] using room
  · exact hq ▸ h

theorem EventUnit.offer_keeps_distinct (u : EventUnit) (e : Event)
    (h : u.queue.Pairwise fun x y => x.matches y = false) :
    (u.offer e).queue.Pairwise fun x y => x.matches y = false := by
  obtain hq | ⟨fresh, -, hq⟩ | hq := u.offer_queue_cases e
  · simpa [hq, List.pairwise_map] using h
  · simpa [hq, List.pairwise_append] using ⟨h, fresh⟩
  · exact hq ▸ h

/-- Settles O53: the one match is refreshed where it stands, and what the queue keeps follows from the three cases of an
offer. -/
theorem offeredEventsCoalesce : Obligations.OfferedEventsCoalesce := by
  unfold Obligations.OfferedEventsCoalesce
  refine fun u e => ⟨fun before later x hq hkind hsubject others => ?coalesced, fun fresh room => ?added,
    fun fresh full => ?discarded, fun bound distinct => ⟨u.offer_keeps_bound e bound, ?distinct⟩⟩
  case coalesced =>
    have hx : x.matches e = true := Event.matches_iff.mpr ⟨hkind, hsubject⟩
    obtain ⟨hbefore, hlater⟩ : (∀ y ∈ before, y.matches e = false) ∧ ∀ y ∈ later, y.matches e = false := by
      simpa using others
    rw [EventUnit.offer_of_match (x := x) (by simp [hq]) hx, hq, List.map_append, List.map_cons,
      Event.map_refresh_of_none hbefore, Event.map_refresh_of_none hlater, Event.refresh_of_matches hx]
  case added => exact EventUnit.offer_of_room (by simpa using fresh) room
  case discarded => exact EventUnit.offer_of_full (by simpa using fresh) full
  case distinct =>
    simp only [Event.distinct_iff] at distinct ⊢
    exact u.offer_keeps_distinct e distinct

end Sys2Proof.Machine
end

section
/-! The link status of R161: the four fields of its first byte, the device state in its second, and what it reads of a
port. -/

namespace Sys2Proof.Machine

open Sys2Proof

/-! ### The two bytes -/

/-- The first byte of link status from its four fields (R161): bits 7 to 5, bits 4 to 2, bit 1 and bit 0. -/
def statusFields (free waiting : Nat) (event rejected : Bool) : Byte :=
  BitVec.ofNat 8 (free * 32 + waiting * 4 + event.toNat * 2 + rejected.toNat)

theorem Device.linkStatus_eq (d : Device) (p : Port) :
    d.linkStatus p =
      [statusFields (4 - (d.port p).requests.length) (d.port p).responses.length (!(d.events.get p).queue.isEmpty)
        (d.port p).rejected, BitVec.ofNat 8 (deviceCode d.mode)] := by
  have event (b : Bool) : (if b then 0 else 2) = (!b).toNat * 2 := by cases b <;> rfl
  have rejected (b : Bool) : (if b then 1 else 0) = b.toNat := by cases b <;> rfl
  simp only [linkStatus, statusFields, event, rejected, Config.queueSlots]

/-- The fields do not run into each other while each count fits its three bits. -/
theorem statusFields_toNat {free waiting : Nat} (hfree : free ≤ 7) (hwaiting : waiting ≤ 7)
    (event rejected : Bool) :
    (statusFields free waiting event rejected).toNat =
      free * 32 + waiting * 4 + event.toNat * 2 + rejected.toNat := by
  have hevent := event.toNat_le
  have hrejected := rejected.toNat_le
  rw [statusFields, BitVec.toNat_ofNat, Nat.mod_eq_of_lt (by omega)]

theorem deviceCode_toNat (m : DeviceState) : (BitVec.ofNat 8 (deviceCode m)).toNat = deviceCode m := by
  cases m <;> rfl

/-- Each field is read back from the bits of R161 it was laid into. -/
theorem statusFields_read_back {free waiting : Nat} (hfree : free ≤ 7) (hwaiting : waiting ≤ 7)
    (event rejected : Bool) :
    (statusFields free waiting event rejected).toNat / 32 = free ∧
      (statusFields free waiting event rejected).toNat / 4 % 8 = waiting ∧
      (statusFields free waiting event rejected).toNat / 2 % 2 = event.toNat ∧
      (statusFields free waiting event rejected).toNat % 2 = rejected.toNat := by
  have hevent := event.toNat_le
  have hrejected := rejected.toNat_le
  rw [statusFields_toNat hfree hwaiting]
  omega

/-! ### What link status reads -/

/-- Link status is a function of a port's two queues, its rejected bit, its event queue and the device state (R161). -/
theorem Device.linkStatus_congr {d e : Device} {p : Port} (requests : (d.port p).requests = (e.port p).requests)
    (responses : (d.port p).responses = (e.port p).responses) (rejected : (d.port p).rejected = (e.port p).rejected)
    (queue : (d.events.get p).queue = (e.events.get p).queue) (mode : d.mode = e.mode) :
    d.linkStatus p = e.linkStatus p := by
  rw [linkStatus_eq, linkStatus_eq, requests, responses, rejected, queue, mode]

theorem Device.linkStatus_setOverflow (d : Device) (p : Port) (o : Bool) :
    ({ d with events := d.events.set p { d.events.get p with overflow := o } } : Device).linkStatus p =
      d.linkStatus p :=
  linkStatus_congr rfl rfl rfl (by rw [PerPort.get_set_self]) rfl

theorem Device.linkStatus_setExec (d : Device) (p : Port) (x : Executor) :
    (d.setExec p x).linkStatus p = d.linkStatus p :=
  linkStatus_congr rfl rfl rfl rfl rfl

theorem Device.linkStatus_setAttached (d : Device) (p : Port) (a : Bool) :
    (d.setPort p { d.port p with attached := a }).linkStatus p = d.linkStatus p :=
  linkStatus_congr (by rw [port_setPort]) (by rw [port_setPort]) (by rw [port_setPort]) rfl rfl

theorem Device.linkStatus_powerUp (powered resetLow pfail : Bool) (draws : Nat) (p : Port) :
    (Device.powerUp powered resetLow pfail draws).linkStatus p = [0x80#8, 0x01#8] := by
  cases p <;> rfl

/-- Settles O3: each field is read off the byte it was laid into, and a change of anything link status does not read
leaves it. -/
theorem linkStatusReadsTheQueues : Obligations.LinkStatusReadsTheQueues := by
  unfold Obligations.LinkStatusReadsTheQueues
  refine ⟨rfl, Device.linkStatus_powerUp true false, fun d p hrequests hresponses => ?_⟩
  obtain ⟨free, waiting, event, rejected⟩ :=
    statusFields_read_back (free := 4 - (d.port p).requests.length) (waiting := (d.port p).responses.length)
      (by omega) (by omega) (!(d.events.get p).queue.isEmpty) (d.port p).rejected
  refine ⟨_, _, d.linkStatus_eq p, free, waiting, ?event, ?rejected, deviceCode_toNat d.mode,
    fun o E hE => hE ▸ d.linkStatus_setOverflow p o, d.linkStatus_setExec p, d.linkStatus_setAttached p⟩
  case event => rw [event]; simp
  case rejected => rw [rejected]; simp

end Sys2Proof.Machine
end

