-- ==== Sys2Proof/Proofs/EveryCommand.lean ====
section
/-! What every command has in common: it ends in a next state, leaves the queue of commands alone, changes the array only
where a pulse ends or is cut, and keeps the array's canonical form. -/

namespace Sys2Proof.Machine

open Sys2Proof

-- One process elaborates the whole text: proofs taken in turn stay within its memory.
set_option Elab.async false

/-! ### Events and reports -/

@[simp] theorem State.event_pending (s : State) (f : Device → Option Device) : (s.event f).pending = s.pending := by
  unfold State.event
  repeat' split
  all_goals rfl

@[simp] theorem State.event_flash (s : State) (f : Device → Option Device) : (s.event f).flash = s.flash := by
  unfold State.event
  repeat' split
  all_goals rfl

@[simp] theorem State.report_pending (s : State) (f : Device → Flash → Option Rig) :
    (s.report f).pending = s.pending := by
  unfold State.report
  repeat' split
  all_goals rfl

/-- A report leaves the array with a property that its meaning keeps. -/
theorem State.report_flash {s : State} {f : Device → Flash → Option Rig} (P : Flash → Prop) (h : P s.flash)
    (hf : ∀ r, f s.dev s.flash = some r → P r.2) : P (s.report f).flash := by
  unfold State.report
  split
  · split
    · exact hf _ ‹_›
    · exact h
  · exact h

/-! ### The completion of a page read leaves the array's bytes -/

theorem Device.readPageDone_flash {d : Device} {flash : Flash} {r : Rig} (h : d.readPageDone flash = some r) :
    r.2 = flash := by
  unfold Device.readPageDone at h
  split at h
  · cases h
  · split at h <;> cases h <;> rfl

theorem Device.mountPageDone_flash {d : Device} {flash : Flash} {r : Rig} (h : d.mountPageDone flash = some r) :
    r.2 = flash := by
  unfold Device.mountPageDone at h
  split at h
  · split at h <;> cases h <;> rfl
  · cases h

/-! ### The meaning of a command -/

theorem exec_completes (c : Instr) (s : State) : ∃ t, exec c s = .next t ∧ t.pending = s.pending := by
  cases c
  case resetnAsserted => exact ⟨_, rfl, by split <;> rfl⟩
  case resetnReleased => exact ⟨_, rfl, by split <;> rfl⟩
  case endOfPowerUp => exact ⟨_, rfl, by split <;> rfl⟩
  case supplyLoss => exact ⟨_, rfl, by split <;> rfl⟩
  case pfailAsserted => exact ⟨_, rfl, by split <;> simp⟩
  case pfailReleased => exact ⟨_, rfl, by split <;> simp⟩
  all_goals exact ⟨_, rfl, by simp [State.transaction, State.arrival]⟩

theorem exec_flash {c : Instr} {s t : State} (hc : endsPulses c = false) (h : exec c s = .next t) :
    t.flash = s.flash := by
  cases c
  case resetnReleased => cases h; split <;> rfl
  case endOfPowerUp => cases h; split <;> rfl
  case pfailAsserted => cases h; split <;> simp
  case pfailReleased => cases h; split <;> simp
  case readPageDone => cases h; exact State.report_flash (· = s.flash) rfl fun _ => Device.readPageDone_flash
  case mountReadDone => cases h; exact State.report_flash (· = s.flash) rfl fun _ => Device.mountPageDone_flash
  all_goals first | (cases hc; done) | (cases h; simp [State.transaction, State.arrival])

/-- Settles O2: every meaning is a next state; of the reports only a page read's has no pulse, and it hands the array's
bytes on. -/
theorem everyCommandCompletes : Obligations.EveryCommandCompletes := by
  unfold Obligations.EveryCommandCompletes
  intro c s
  obtain ⟨t, ht, hpending⟩ := exec_completes c s
  exact ⟨t, ht, hpending, fun hc => exec_flash hc ht⟩

/-! ### One step -/

theorem step_of_empty {s : State} (h : s.pending = []) : step s = .next s := by
  simp [step, h]

theorem step_of_front {c : Instr} {rest : List Instr} {s : State} (h : s.pending = c :: rest) :
    step s = exec c { s with pending := rest } := by
  simp [step, h]

/-- Settles O1. -/
theorem stepRunsFrontCommand : Obligations.StepRunsFrontCommand :=
  ⟨fun _ => step_of_empty, fun _ _ _ => step_of_front⟩

/-- A property of part and array that every command keeps is kept by every step: the queue of commands does not enter. -/
theorem step_keeps {P : Device → Flash → Prop}
    (hexec : ∀ c s t, P s.dev s.flash → exec c s = .next t → P t.dev t.flash) {s t : State} (h : P s.dev s.flash)
    (hstep : step s = .next t) : P t.dev t.flash := by
  cases hp : s.pending with
  | nil =>
    rw [step_of_empty hp] at hstep
    cases hstep
    exact h
  | cons c rest => exact hexec c { s with pending := rest } t h (step_of_front hp ▸ hstep)

/-! ### The canonical form -/

/-- An optional rig whose array has the canonical form if there is one. -/
def goodRig (r : Option Rig) : Prop := ∀ x, r = some x → x.2.wf = true

theorem goodRig_none : goodRig none := fun _ h => nomatch h

theorem goodRig_some {x : Rig} (h : x.2.wf = true) : goodRig (some x) := by
  rintro _ ⟨⟩
  exact h

section Reports

variable {d : Device} {flash : Flash} (hw : flash.wf = true)
include hw

theorem Device.appendStep1Done_wf : goodRig (d.appendStep1Done flash) := by
  unfold Device.appendStep1Done
  split
  · have := Device.stepPasses_wf hw ‹_›
    repeat' split
    all_goals first | exact goodRig_none | exact goodRig_some this
  · exact goodRig_none

theorem Device.appendStep2Done_wf : goodRig (d.appendStep2Done flash) := by
  unfold Device.appendStep2Done
  split
  · have := Device.stepPasses_wf hw ‹_›
    split
    · exact goodRig_none
    · split
      · dsimp only
        split
        · exact goodRig_some (x := (_, _)) this
        · split <;> exact goodRig_some (x := (_, _)) this
      · exact goodRig_none
  · exact goodRig_none

theorem Device.appendStepFail_wf : goodRig (d.appendStepFail flash) := by
  unfold Device.appendStepFail
  split
  · have := Device.stepFails_wf hw ‹_›
    repeat' split
    all_goals first | exact goodRig_none | exact goodRig_some this
  · exact goodRig_none

theorem Device.appendVoidEnd_wf (verified : Bool) : goodRig (Device.appendVoidEnd verified d flash) := by
  unfold Device.appendVoidEnd
  split
  · have := Device.stepEnds_wf hw ‹_›
    repeat' split
    all_goals first | exact goodRig_none | exact goodRig_some this
  · exact goodRig_none

theorem Device.metaStep1Done_wf : goodRig (d.metaStep1Done flash) := by
  unfold Device.metaStep1Done
  split
  · have := Device.stepPasses_wf hw ‹_›
    split
    · exact goodRig_some this
    · exact goodRig_none
  · exact goodRig_none

theorem Device.metaStep2Done_wf : goodRig (d.metaStep2Done flash) := by
  unfold Device.metaStep2Done
  split
  · have := Device.stepPasses_wf hw ‹_›
    split
    · exact goodRig_some this
    · exact goodRig_none
  · exact goodRig_none

theorem Device.checkpointStep2Done_wf : goodRig (d.checkpointStep2Done flash) := by
  unfold Device.checkpointStep2Done
  split
  · have := Device.stepPasses_wf hw ‹_›
    split
    · exact goodRig_some this
    · exact goodRig_none
  · exact goodRig_none

theorem Device.metaStepFail_wf : goodRig (d.metaStepFail flash) := by
  unfold Device.metaStepFail
  split
  · have := Device.stepFails_wf hw ‹_›
    split
    · exact goodRig_none
    · exact goodRig_some this
  · exact goodRig_none

theorem Device.metaVoidEnd_wf (verified : Bool) : goodRig (Device.metaVoidEnd verified d flash) := by
  unfold Device.metaVoidEnd
  split
  · have := Device.stepEnds_wf hw ‹_›
    split
    · exact goodRig_some this
    · exact goodRig_none
  · exact goodRig_none

theorem Device.erasePulseEnd_wf (verified : Bool) : goodRig (Device.erasePulseEnd verified d flash) := by
  unfold Device.erasePulseEnd
  split
  · split
    · split
      · exact goodRig_some (Flash.wf_eraseSector _ hw)
      · exact goodRig_some (Flash.wf_eraseFailed _ _ hw)
    · exact goodRig_none
  · exact goodRig_none

theorem Device.suspendedReport_wf : goodRig (d.suspendedReport flash) := by
  unfold Device.suspendedReport
  split
  · split
    · exact goodRig_some (Flash.wf_partialErase _ _ hw)
    · exact goodRig_none
  · exact goodRig_none

theorem Device.abandonedReport_wf : goodRig (d.abandonedReport flash) := by
  unfold Device.abandonedReport
  split
  · split
    · exact goodRig_some (Flash.wf_partialErase _ _ hw)
    · exact goodRig_none
  · exact goodRig_none

end Reports

theorem State.report_wf {s : State} {f : Device → Flash → Option Rig} (h : s.flash.wf = true)
    (hf : goodRig (f s.dev s.flash)) : (s.report f).flash.wf = true :=
  State.report_flash (fun m => m.wf = true) h hf

/-- The commands that end or cut a pulse keep the canonical form. -/
theorem exec_pulse_wf {c : Instr} {s t : State} (hc : endsPulses c = true) (h : s.flash.wf = true)
    (ht : exec c s = .next t) : t.flash.wf = true := by
  cases c <;> first | (cases hc; done) | cases ht
  case resetnAsserted => split; exacts [h, Device.cutArray_wf h]
  case supplyLoss => split; exacts [Device.cutArray_wf h, h]
  case appendStep1Done => exact State.report_wf h (Device.appendStep1Done_wf h)
  case appendStep2Done => exact State.report_wf h (Device.appendStep2Done_wf h)
  case appendStepFail => exact State.report_wf h (Device.appendStepFail_wf h)
  case appendVoidStepEnd verified => exact State.report_wf h (Device.appendVoidEnd_wf h verified)
  case metaStep1Done => exact State.report_wf h (Device.metaStep1Done_wf h)
  case metaStep2Done => exact State.report_wf h (Device.metaStep2Done_wf h)
  case metaStepFail => exact State.report_wf h (Device.metaStepFail_wf h)
  case metaVoidStepEnd verified => exact State.report_wf h (Device.metaVoidEnd_wf h verified)
  case checkpointPageCommit => exact State.report_wf h (Device.checkpointStep2Done_wf h)
  case erasePulseEnd verified => exact State.report_wf h (Device.erasePulseEnd_wf h verified)
  case suspended => exact State.report_wf h (Device.suspendedReport_wf h)
  case abandoned => exact State.report_wf h (Device.abandonedReport_wf h)

/-- Settles O49: a command that ends no pulse leaves the array, and every report that ends one keeps its form. -/
theorem everyStepKeepsTheArrayForm : Obligations.EveryStepKeepsTheArrayForm := by
  unfold Obligations.EveryStepKeepsTheArrayForm
  intro s t h hstep
  refine step_keeps (P := fun _ m => m.wf = true) (fun c s t hs ht => ?_) h hstep
  cases hc : endsPulses c with
  | false => rw [exec_flash hc ht]; exact hs
  | true => exact exec_pulse_wf hc hs ht

end Sys2Proof.Machine
end

