-- ==== Sys2Proof/Proofs/ArrayBytes.lean ====
section
/-! The array's bytes: what is read back after a program step, a step cut short and a partial erase, byte by byte, and the
pages written by two steps. -/

namespace Sys2Proof.Machine

open Sys2Proof

-- One process elaborates the whole text: proofs taken in turn stay within its memory.
set_option Elab.async false

/-! ### Reading a range -/

/-- Only the cells of an address matter to what is read there. -/
theorem Flash.read_filter {keep : Host.Cell → Bool} {a : Nat} (h : ∀ v, keep (a, v) = true) :
    ∀ m : Flash, Flash.read (m.filter keep) a = m.read a
  | [] => rfl
  | (k, v) :: t => by
    by_cases hk : k = a
    · subst hk
      simp [Flash.read, h]
    · cases hkeep : keep (k, v) <;> simp [hkeep, Flash.read, hk, Flash.read_filter h t]

theorem Flash.readRange_eq (m : Flash) (base len : Nat) :
    m.readRange base len = (List.range len).map fun i => m.read (base + i) := by
  unfold Flash.readRange
  refine List.map_congr_left fun i hi => ?_
  have := List.mem_range.mp hi
  exact Flash.read_filter (by simp; omega) m

@[simp] theorem Flash.readRange_length (m : Flash) (base len : Nat) : (m.readRange base len).length = len := by
  simp [Flash.readRange_eq]

@[simp] theorem Flash.readRange_getElem? (m : Flash) (base len i : Nat) :
    (m.readRange base len)[i]? = if i < len then some (m.read (base + i)) else none := by
  simp only [Flash.readRange_eq, List.getElem?_map]
  split <;> simp_all

/-! ### Reading after consecutive writes -/

theorem Flash.read_writeList {m : Flash} (hm : m.wf = true) (l : List Byte) (a c : Nat) :
    (m.writeList a l).read c = if a ≤ c then (l[c - a]?).getD (m.read c) else m.read c := by
  induction l generalizing m a with
  | nil => simp [Flash.writeList]
  | cons v vs ih =>
    rw [Flash.writeList, ih (Flash.wf_write a v hm)]
    rcases lt_trichotomy c a with h | h | h
    · rw [if_neg (by omega), if_neg (by omega), Flash.read_write_other a v (by omega)]
    · subst h
      simp [Flash.read_write_self c v (low := 0) hm]
    · obtain ⟨k, rfl⟩ : ∃ k, c = a + 1 + k := ⟨c - (a + 1), by omega⟩
      rw [if_pos (by omega), if_pos (by omega), Flash.read_write_other a v (by omega)]
      simp [show a + 1 + k - a = k + 1 by omega]

theorem Flash.read_writeList_outside {m : Flash} (hm : m.wf = true) {l : List Byte} {a c : Nat}
    (h : c < a ∨ a + l.length ≤ c) : (m.writeList a l).read c = m.read c := by
  rw [Flash.read_writeList hm]
  split
  · rw [List.getElem?_eq_none (by omega), Option.getD_none]
  · rfl

theorem Flash.read_writeList_at {m : Flash} (hm : m.wf = true) {l : List Byte} {a i : Nat} {v : Byte}
    (h : l[i]? = some v) : (m.writeList a l).read (a + i) = v := by
  simp [Flash.read_writeList hm, h]

/-! ### Steps cut short or failed (R69, R77) -/

/-- Former 1 bits, less some of those the target clears: what a partial step leaves moves one way only. -/
theorem partialProgram_byte (old t p : Byte) :
    (old &&& (t ||| ~~~p)) &&& old = old &&& (t ||| ~~~p) ∧ old &&& t = (old &&& (t ||| ~~~p)) &&& t := by
  constructor
  · ext i
    simp only [BitVec.getElem_and, BitVec.getElem_or, BitVec.getElem_not]
    cases old[i] <;> simp
  · ext i
    simp only [BitVec.getElem_and, BitVec.getElem_or, BitVec.getElem_not]
    cases old[i] <;> cases t[i] <;> simp

theorem partialProgram_length (n base : Nat) (old target : List Byte) :
    (partialProgram n base old target).length = min old.length target.length := by
  simp [partialProgram]

theorem partialProgram_getElem? {n base i : Nat} {old target : List Byte} {x t : Byte} (hx : old[i]? = some x)
    (ht : target[i]? = some t) :
    (partialProgram n base old target)[i]? = some (x &&& (t ||| ~~~Config.pulseBits n (base + i))) := by
  obtain ⟨hi, rfl⟩ := List.getElem?_eq_some_iff.mp hx
  simp [partialProgram, List.getElem?_zipWith, ht, hi]

/-- A byte left by `after` where `before` stood: no 0 bit set, and no 1 bit of the target lost. -/
def clearsTowards (before after t : Byte) : Prop := after &&& before = after ∧ before &&& t = after &&& t

theorem clearsTowards_refl (b t : Byte) : clearsTowards b b t := ⟨BitVec.and_self, rfl⟩

section Cut

variable {f : Flash} (hf : f.wf = true) (n base : Nat) (target : List Byte)
include hf

theorem Flash.programCut_outside {a : Nat} (h : a < base ∨ base + target.length ≤ a) :
    (f.programCut n base target).read a = f.read a :=
  Flash.read_writeList_outside hf (by simpa [partialProgram_length] using h)

theorem Flash.programCut_inside {i : Nat} {t : Byte} (ht : target[i]? = some t) :
    clearsTowards (f.read (base + i)) ((f.programCut n base target).read (base + i)) t := by
  have hi : i < target.length := (List.getElem?_eq_some_iff.mp ht).1
  have hx : (f.readRange base target.length)[i]? = some (f.read (base + i)) := by
    rw [Flash.readRange_getElem?, if_pos hi]
  rw [Flash.programCut, Flash.read_writeList_at hf (partialProgram_getElem? hx ht)]
  exact partialProgram_byte _ _ _

omit hf in
/-- A failed step leaves what a cut one does, or nothing changed (R77). -/
theorem Flash.programFailed_cases :
    f.programFailed n base target = f ∨ f.programFailed n base target = f.programCut n base target :=
  ite_eq_or_eq _ _ _

end Cut

/-! ### Partial erases (R69, R79) -/

/-- A pulse stopped or failed reads, in its sector, former 0 bits set or not, and elsewhere as before. -/
theorem Flash.read_partialErase {f : Flash} (n sector a : Nat) : ∀ {low : Nat}, f.risingFrom low = true →
    (f.partialErase n sector).read a =
      if inSector sector a = true ∧ f.read a ≠ erasedByte then f.read a ||| Config.pulseBits n a else f.read a := by
  induction f with
  | nil => intro _ _; simp [Flash.partialErase, Flash.read]
  | cons x t ih =>
    obtain ⟨k, v⟩ := x
    intro low h
    simp only [Flash.risingFrom, Bool.and_eq_true, decide_eq_true_eq, bne_iff_ne] at h
    obtain ⟨⟨-, hv⟩, ht⟩ := h
    have ih := ih ht
    unfold Flash.partialErase at ih ⊢
    by_cases hk : k = a
    · subst hk
      have hbelow := Flash.read_below (Nat.lt_succ_self k) ht
      by_cases hs : inSector sector k = true
      · by_cases hp : v ||| Config.pulseBits n k = erasedByte
        · simp [hs, hp, Flash.read, hv, ih, hbelow]
        · simp [hs, hp, Flash.read, hv]
      · simp [hs, Flash.read]
    · by_cases hs : inSector sector k = true
      · by_cases hp : v ||| Config.pulseBits n k = erasedByte
        · simp [hs, hp, Flash.read, hk, ih]
        · simp [hs, hp, Flash.read, hk, ih]
      · simp [hs, Flash.read, hk, ih]

theorem Flash.partialErase_outside {f : Flash} (hf : f.wf = true) (n : Nat) {sector a : Nat}
    (h : a < sector * 4096 ∨ sector * 4096 + 4096 ≤ a) : (f.partialErase n sector).read a = f.read a := by
  rw [Flash.read_partialErase n sector a hf, if_neg]
  simp only [inSector, Bool.and_eq_true, decide_eq_true_eq]
  omega

theorem Flash.partialErase_sets {f : Flash} (hf : f.wf = true) (n sector a : Nat) :
    (f.partialErase n sector).read a ||| f.read a = (f.partialErase n sector).read a := by
  rw [Flash.read_partialErase n sector a hf]
  split
  · rw [BitVec.or_assoc, BitVec.or_comm (Config.pulseBits n a), ← BitVec.or_assoc, BitVec.or_self]
  · exact BitVec.or_self

/-- A failed pulse leaves what a stopped one does, or nothing changed (R79). -/
theorem Flash.eraseFailed_cases (f : Flash) (n sector : Nat) :
    f.eraseFailed n sector = f ∨ f.eraseFailed n sector = f.partialErase n sector :=
  ite_eq_or_eq _ _ _

/-- Settles O48: byte by byte, whatever the free values. -/
theorem cutPulsesMoveBitsOneWay : Obligations.CutPulsesMoveBitsOneWay := by
  unfold Obligations.CutPulsesMoveBitsOneWay
  refine ⟨fun f n base target hf f' h => ?program, fun f n sector hf f' h => ?erase⟩
  case program =>
    obtain rfl | rfl : f' = f ∨ f' = f.programCut n base target :=
      h.elim .inr fun h => h ▸ Flash.programFailed_cases n base target
    · exact ⟨fun _ _ => rfl, fun i t _ => clearsTowards_refl _ t⟩
    · exact ⟨fun a => Flash.programCut_outside hf n base target,
        fun i t => Flash.programCut_inside hf n base target⟩
  case erase =>
    obtain rfl | rfl : f' = f ∨ f' = f.partialErase n sector :=
      h.elim .inr fun h => h ▸ Flash.eraseFailed_cases f n sector
    · exact ⟨fun _ _ => rfl, fun _ => BitVec.or_self⟩
    · exact ⟨fun a => Flash.partialErase_outside hf n, Flash.partialErase_sets hf n sector⟩

end Sys2Proof.Machine
end

