-- ==== Sys2Proof/Proofs/PagesReadBack.lean ====
section
/-! A page written by both of its steps reads back: the bytes it then holds, and what mount and READ make of them. -/

namespace Sys2Proof.Machine

open Sys2Proof

-- One process elaborates the whole text: proofs taken in turn stay within its memory.
set_option Elab.async false

/-! ### Numbers in bytes -/

theorem foldl_bigEndian (w n acc : Nat) :
    (bigEndian w n).foldl (fun acc b => acc * 256 + b.toNat) acc = acc * 256 ^ w + n % 256 ^ w := by
  induction w generalizing acc with
  | zero => simp [bigEndian, Nat.mod_one]
  | succ w ih =>
    have hdigit : (BitVec.ofNat 8 (n / 256 ^ w)).toNat = n / 256 ^ w % 256 := BitVec.toNat_ofNat _ _
    have hmod : n % 256 ^ (w + 1) = n % 256 ^ w + 256 ^ w * (n / 256 ^ w % 256) := by
      rw [Nat.pow_succ, Nat.mod_mul]
    rw [bigEndian, List.foldl_cons, ih, hdigit, hmod]
    ring

/-- A number that fits its field is read back from it (00 Conventions). -/
theorem fromBytes_bigEndian {w n : Nat} (h : n < 256 ^ w) : fromBytes (bigEndian w n) = n := by
  rw [fromBytes, foldl_bigEndian, Nat.zero_mul, Nat.zero_add, Nat.mod_eq_of_lt h]

theorem toNat_ofNat_byte {n : Nat} (h : n < 256) : (BitVec.ofNat 8 n).toNat = n := by
  rw [BitVec.toNat_ofNat, Nat.mod_eq_of_lt h]

theorem portCode_lt (p : Port) : portCode p < 3 := by cases p <;> decide

theorem portOfCode_portCode (p : Port) : portOfCode (portCode p) = some p := by cases p <;> rfl

theorem portSetCode_lt (s : PortSet) : portSetCode s < 8 := by
  unfold portSetCode
  split <;> split <;> split <;> decide

theorem portSetOfCode_portSetCode (s : PortSet) : portSetOfCode (portSetCode s) = some s := by
  obtain ⟨a, b, c⟩ := s
  cases a <;> cases b <;> cases c <;> rfl

theorem streamOfByte_streamByte (st : Fin 16) : streamOfByte (BitVec.ofNat 8 st.val) = some st := by
  have hval := toNat_ofNat_byte (show st.val < 256 by omega)
  simp [streamOfByte, hval]

/-! ### The page after its steps -/

/-- The bytes of a page as step 1 leaves it, its commit mark at `mark`, with what stood behind the body. -/
def writtenPage (header body : List Byte) (mark : Byte) (rest : List Byte) : List Byte :=
  header ++ crcBytes header ++ crcBytes body ++ [mark, erasedByte] ++ body ++ rest

/-- A range that begins with a programmed target reads the target, and behind it what stood there. -/
theorem Flash.readRange_programmed {f : Flash} (hf : f.wf = true) (base : Nat) (target : List Byte) {len : Nat}
    (h : target.length ≤ len) :
    (f.programmed base target).readRange base len =
      target ++ f.readRange (base + target.length) (len - target.length) := by
  refine List.ext_getElem? fun i => ?_
  rw [Flash.readRange_getElem?, Flash.programmed]
  rcases Nat.lt_or_ge i target.length with hi | hi
  · rw [List.getElem?_append_left hi, List.getElem?_eq_getElem hi, if_pos (by omega),
      Flash.read_writeList_at hf (List.getElem?_eq_getElem hi)]
  · rw [List.getElem?_append_right hi, Flash.readRange_getElem?, Flash.read_writeList_outside hf (.inr (by omega)),
      Nat.add_assoc, Nat.add_sub_cancel' hi]
    congr 1
    simp only [eq_iff_iff]
    omega

/-- A one-byte step, such as a mark, sets that byte of the range. -/
theorem Flash.readRange_mark {f : Flash} (hf : f.wf = true) (base k len : Nat) (v : Byte) :
    (f.programmed (base + k) [v]).readRange base len = (f.readRange base len).set k v := by
  refine List.ext_getElem? fun i => ?_
  rw [List.getElem?_set, Flash.readRange_getElem?, Flash.readRange_getElem?, Flash.readRange_length, Flash.programmed]
  by_cases hik : k = i
  · subst hik
    rw [Flash.read_writeList hf, if_pos (Nat.le_refl _), Nat.sub_self]
    simp
  · rw [if_neg hik, Flash.read_writeList_outside hf (by simp; omega)]

section WrittenPage

variable {header : List Byte} (hheader : header.length = 10) (body rest : List Byte) (mark : Byte)
include hheader

theorem writtenPage_set_mark (v : Byte) :
    (writtenPage header body mark rest).set 14 v = writtenPage header body v rest := by
  simp [writtenPage, hheader]

theorem writtenPage_take_header : (writtenPage header body mark rest).take 10 = header := by
  simp [writtenPage, ← hheader]

theorem writtenPage_headerCrc : bytesAt (writtenPage header body mark rest) 10 2 = crcBytes header := by
  simp [bytesAt, writtenPage, ← hheader]

theorem writtenPage_bodyCrc : bytesAt (writtenPage header body mark rest) 12 2 = crcBytes body := by
  simp [bytesAt, writtenPage, List.drop_append, List.take_append, hheader]

theorem writtenPage_commitMark : byteAt (writtenPage header body mark rest) 14 = mark := by
  simp [byteAt, writtenPage, List.getElem?_append, hheader]

theorem writtenPage_voidMark : byteAt (writtenPage header body mark rest) 15 = erasedByte := by
  simp [byteAt, writtenPage, List.getElem?_append, hheader]

theorem writtenPage_drop_body : (writtenPage header body mark rest).drop 16 = body ++ rest := by
  rw [writtenPage, List.append_assoc]
  exact List.drop_left' (by simp [hheader])

theorem writtenPage_body : bytesAt (writtenPage header body mark rest) 16 body.length = body := by
  rw [bytesAt, writtenPage_drop_body hheader, List.take_left]

/-- A field of the header is read from the header. -/
theorem writtenPage_headerByte {i : Nat} (h : i < 10) :
    byteAt (writtenPage header body mark rest) i = byteAt header i := by
  simp only [byteAt, writtenPage, List.append_assoc, List.getD_eq_getElem?_getD]
  rw [List.getElem?_append_left (by omega)]

theorem writtenPage_headerField {i n : Nat} (h : i + n ≤ 10) :
    bytesAt (writtenPage header body mark rest) i n = bytesAt header i n := by
  simp only [bytesAt, writtenPage, List.append_assoc]
  rw [List.drop_append_of_le_length (by omega), List.take_append_of_le_length (by simp; omega)]

theorem writtenPage_headerGood : headerGood (writtenPage header body mark rest) = true := by
  rw [headerGood, writtenPage_take_header hheader, writtenPage_headerCrc hheader, beq_self_eq_true]

/-- A header byte other than FFh shows that the page is not erased. -/
theorem writtenPage_not_erased {i : Nat} (h : i < 10) (hb : byteAt header i ≠ erasedByte) :
    pageErased (writtenPage header body mark rest) = false := by
  have hi : i < header.length := by omega
  rw [byteAt, List.getD_eq_getElem _ _ hi] at hb
  rw [pageErased, List.all_eq_false]
  exact ⟨header[i], by simp [writtenPage], by simpa using hb⟩

/-- The page is uncommitted before its mark and committed after it (R72, R74). -/
theorem writtenPage_condition {i : Nat} (h : i < 10) (hb : byteAt header i ≠ erasedByte) :
    pageCondition (writtenPage header body erasedByte rest) body = .uncommitted ∧
      pageCondition (writtenPage header body 0x00#8 rest) body = .committed := by
  constructor
  all_goals
    rw [pageCondition, writtenPage_not_erased hheader body rest _ h hb, writtenPage_voidMark hheader,
      writtenPage_headerGood hheader, writtenPage_commitMark hheader, writtenPage_bodyCrc hheader]
    simp [erasedByte]

end WrittenPage

/-- What the two steps of a page leave of its 256 bytes. -/
theorem Flash.readPage_steps {f : Flash} (hf : f.wf = true) (sector page : Nat) {header body : List Byte}
    (hheader : header.length = 10) (hbody : body.length ≤ 240) :
    ∃ rest, (f.programmed (pageBase sector page) (pageLayout header body)).readPage sector page =
        writtenPage header body erasedByte rest ∧
      ((f.programmed (pageBase sector page) (pageLayout header body)).programmed (pageBase sector page + 14)
        [0x00#8]).readPage sector page = writtenPage header body 0x00#8 rest := by
  have hlen : (pageLayout header body).length ≤ 256 := by simp [pageLayout, hheader]; omega
  refine ⟨f.readRange (pageBase sector page + (pageLayout header body).length) (256 - (pageLayout header body).length),
    ?_, ?_⟩
  · rw [Flash.readPage, Flash.readRange_programmed hf _ _ hlen]
    rfl
  · rw [Flash.readPage, Flash.readRange_mark (Flash.wf_programmed _ _ hf), Flash.readRange_programmed hf _ _ hlen]
    exact writtenPage_set_mark hheader body _ erasedByte _

/-! ### Data pages -/

section DataPage

variable (st : Fin 16) (inc t0 t1 : Byte) (origin : Port) (seq : Nat) (payload rest : List Byte) (mark : Byte)

/-- A data page as its steps write it (R71). -/
def dataPage : List Byte :=
  writtenPage (dataHeader st inc payload.length origin seq [t0, t1]) payload mark rest

variable {payload}

theorem dataPage_stream : (byteAt (dataPage st inc t0 t1 origin seq payload rest mark) 0).toNat = st.val := by
  rw [dataPage, writtenPage_headerByte (dataHeader_length ..) _ _ _ (by decide)]
  exact toNat_ofNat_byte (by omega)

theorem dataPage_incarnation : byteAt (dataPage st inc t0 t1 origin seq payload rest mark) 1 = inc := by
  rw [dataPage, writtenPage_headerByte (dataHeader_length ..) _ _ _ (by decide)]
  rfl

theorem dataPage_length (h : payload.length ≤ 240) :
    (byteAt (dataPage st inc t0 t1 origin seq payload rest mark) 2).toNat = payload.length := by
  rw [dataPage, writtenPage_headerByte (dataHeader_length ..) _ _ _ (by decide)]
  exact toNat_ofNat_byte (by omega)

theorem dataPage_seq (h : seq < 4294967296) :
    fieldAt (dataPage st inc t0 t1 origin seq payload rest mark) 4 4 = seq := by
  rw [fieldAt, dataPage, writtenPage_headerField (dataHeader_length ..) _ _ _ (by decide)]
  exact fromBytes_bigEndian (w := 4) h

theorem dataPage_tag : bytesAt (dataPage st inc t0 t1 origin seq payload rest mark) 8 2 = [t0, t1] := by
  rw [dataPage, writtenPage_headerField (dataHeader_length ..) _ _ _ (by decide)]
  rfl

theorem dataPage_payload (h : payload.length ≤ 240) :
    pagePayload (dataPage st inc t0 t1 origin seq payload rest mark) = payload := by
  rw [pagePayload, dataPage_length _ _ _ _ _ _ _ _ h]
  exact writtenPage_body (dataHeader_length ..) payload rest mark

/-- The stream number, at most 15, shows that the page is not erased. -/
theorem dataPage_condition (h : payload.length ≤ 240) :
    dataCondition (dataPage st inc t0 t1 origin seq payload rest erasedByte) = .uncommitted ∧
      dataCondition (dataPage st inc t0 t1 origin seq payload rest 0x00#8) = .committed := by
  rw [dataCondition, dataCondition, dataPage_payload _ _ _ _ _ _ _ _ h, dataPage_payload _ _ _ _ _ _ _ _ h]
  refine writtenPage_condition (dataHeader_length ..) payload rest (i := 0) (by decide) fun heq => ?_
  have hstream := congrArg BitVec.toNat heq
  have hval : (byteAt (dataHeader st inc payload.length origin seq [t0, t1]) 0).toNat = st.val :=
    toNat_ofNat_byte (by omega)
  rw [hval] at hstream
  exact absurd st.isLt (by rw [hstream]; decide)

theorem dataPage_recordGood (hseq : seq < 4294967296) (hpos : 1 ≤ payload.length) (h : payload.length ≤ 240) :
    recordGood (dataPage st inc t0 t1 origin seq payload rest 0x00#8) st inc seq = true := by
  have hlen := dataHeader_length st inc payload.length origin seq [t0, t1]
  have hgood : headerGood (dataPage st inc t0 t1 origin seq payload rest 0x00#8) = true := writtenPage_headerGood hlen ..
  have hmark : byteAt (dataPage st inc t0 t1 origin seq payload rest 0x00#8) 14 = 0x00#8 :=
    writtenPage_commitMark hlen ..
  have hvoid : byteAt (dataPage st inc t0 t1 origin seq payload rest 0x00#8) 15 = erasedByte :=
    writtenPage_voidMark hlen ..
  have hcrc : bytesAt (dataPage st inc t0 t1 origin seq payload rest 0x00#8) 12 2 = crcBytes payload :=
    writtenPage_bodyCrc hlen ..
  simp [recordGood, hgood, hmark, hvoid, hcrc, dataPage_stream, dataPage_incarnation, dataPage_seq _ _ _ _ _ _ _ _ hseq,
    dataPage_length _ _ _ _ _ _ _ _ h, dataPage_payload _ _ _ _ _ _ _ _ h, hpos, h]

end DataPage

/-- Settles O50. -/
theorem storedRecordReadsBack : Obligations.StoredRecordReadsBack := by
  unfold Obligations.StoredRecordReadsBack
  intro f sector page st inc t0 t1 origin seq payload hf hseq hpos hlen
  obtain ⟨rest, hstep1, hstep2⟩ := Flash.readPage_steps hf sector page
    (header := dataHeader st inc payload.length origin seq [t0, t1]) (dataHeader_length ..) hlen
  have hcondition := dataPage_condition st inc t0 t1 origin seq rest hlen
  simp only [dataStep1_eq_pageLayout, hstep1, hstep2]
  refine ⟨dataPage_recordGood st inc t0 t1 origin seq rest hseq hpos hlen, ?_, hcondition.2, hcondition.1⟩
  have htag := dataPage_tag st inc t0 t1 origin seq rest 0x00#8 (payload := payload)
  have hpayload := dataPage_payload st inc t0 t1 origin seq rest 0x00#8 hlen
  rw [dataPage] at htag hpayload
  rw [recordBody, htag, hpayload]

/-! ### Metadata entries (R103) -/

theorem fieldBytes_ofNat {w n : Nat} (b : BitVec w) (h : w ≤ 8 * n) : fromBytes (bigEndian n b.toNat) = b.toNat :=
  fromBytes_bigEndian (Nat.lt_of_lt_of_le b.isLt (by
    rw [show (256 : Nat) = 2 ^ 8 from rfl, ← Nat.pow_mul]
    exact Nat.pow_le_pow_right (by decide) h))

theorem attributesCode_lt (held : Bool) (policy : Policy) : attributesCode held policy < 4 := by
  cases held <;> cases policy <;> decide

theorem MetaEntry.encode_length {e : MetaEntry} (h : e.valid = true) : e.encode.length = 16 := by
  cases e
  case retire sectors =>
    simp only [MetaEntry.valid, Bool.and_eq_true, decide_eq_true_eq] at h
    simp [MetaEntry.encode, pad]
    omega
  all_goals simp [MetaEntry.encode, pad]

/-- The writer and readers byte of a STREAM_DEF holds both in four bits each (R103). -/
theorem partiesByte_toNat (writer : Port) (readers : PortSet) :
    (BitVec.ofNat 8 (portCode writer * 16 + portSetCode readers)).toNat / 16 = portCode writer ∧
      (BitVec.ofNat 8 (portCode writer * 16 + portSetCode readers)).toNat % 16 = portSetCode readers := by
  have hwriter := portCode_lt writer
  have hreaders := portSetCode_lt readers
  rw [toNat_ofNat_byte (by omega)]
  omega

theorem attributesByte_toNat (held : Bool) (policy : Policy) :
    (BitVec.ofNat 8 (attributesCode held policy)).toNat < 4 ∧
      ((BitVec.ofNat 8 (attributesCode held policy)).toNat / 2 == 1) = held ∧
      (if (BitVec.ofNat 8 (attributesCode held policy)).toNat % 2 = 1 then Policy.dropOldest else .refuse) = policy := by
  cases held <;> cases policy <;> decide

theorem definitionValid_bounds {policy : Policy} {quota margin : Nat} (h : definitionValid policy quota margin = true) :
    quota < 256 ∧ margin < 65536 := by
  simp only [definitionValid, Bool.and_eq_true, decide_eq_true_eq] at h
  omega

theorem decodeEntry_encode_streamDef {st : Fin 16} {inc : Byte} {writer : Port} {readers : PortSet} {held : Bool}
    {policy : Policy} {tag : BitVec 32} {quota margin base : Nat} (hdef : definitionValid policy quota margin = true)
    (hbase : base < 4294967296) :
    decodeEntry (MetaEntry.encode (.streamDef st inc writer readers held policy tag quota margin base)) =
      some (.streamDef st inc writer readers held policy tag quota margin base) := by
  obtain ⟨hquota, hmargin⟩ := definitionValid_bounds hdef
  obtain ⟨hwriter, hreaders⟩ := partiesByte_toNat writer readers
  obtain ⟨hattr, hheld, hpolicy⟩ := attributesByte_toNat held policy
  set e := MetaEntry.encode (.streamDef st inc writer readers held policy tag quota margin base) with he
  have hstream : byteAt e 1 = BitVec.ofNat 8 st.val := rfl
  have hparties : byteAt e 3 = BitVec.ofNat 8 (portCode writer * 16 + portSetCode readers) := rfl
  have hattributes : byteAt e 4 = BitVec.ofNat 8 (attributesCode held policy) := rfl
  have htag : fieldAt e 5 4 = tag.toNat := fieldBytes_ofNat (n := 4) tag (by decide)
  have hq : (byteAt e 9).toNat = quota := toNat_ofNat_byte hquota
  have hm : fieldAt e 10 2 = margin := fromBytes_bigEndian (w := 2) hmargin
  have hb : fieldAt e 12 4 = base := fromBytes_bigEndian (w := 4) hbase
  have hinc : byteAt e 2 = inc := rfl
  show decodeStreamDef e = _
  simp only [decodeStreamDef, hstream, hparties, hattributes, htag, hq, hm, hb, hinc, streamOfByte_streamByte, hwriter,
    hreaders, portOfCode_portCode, portSetOfCode_portSetCode, hattr, hheld, hpolicy, hdef, decide_true, Bool.and_self,
    if_true, BitVec.ofNat_toNat, BitVec.setWidth_eq]

theorem decodeEntry_encode_cursor {st : Fin 16} {inc : Byte} {port : Port} {committed lost : Nat}
    (hcommitted : committed < 4294967296) (hlost : lost < 65536) :
    decodeEntry (MetaEntry.encode (.cursor st inc port committed lost)) = some (.cursor st inc port committed lost) := by
  set e := MetaEntry.encode (.cursor st inc port committed lost) with he
  have hstream : byteAt e 1 = BitVec.ofNat 8 st.val := rfl
  have hport : (byteAt e 3).toNat = portCode port := toNat_ofNat_byte (by have := portCode_lt port; omega)
  have hc : fieldAt e 4 4 = committed := fromBytes_bigEndian (w := 4) hcommitted
  have hl : fieldAt e 8 2 = lost := fromBytes_bigEndian (w := 2) hlost
  have hinc : byteAt e 2 = inc := rfl
  show (match streamOfByte (byteAt e 1), portOfCode (byteAt e 3).toNat with
    | some st, some port => some (MetaEntry.cursor st (byteAt e 2) port (fieldAt e 4 4) (fieldAt e 8 2))
    | _, _ => none) = _
  rw [hstream, hport, hc, hl, hinc, streamOfByte_streamByte, portOfCode_portCode]

theorem decodeEntry_encode_wear {first c0 c1 c2 c3 : Nat} (hlow : 4 ≤ first) (hhigh : first < 256)
    (hgroup : first % 4 = 0) (h0 : c0 < 16777216) (h1 : c1 < 16777216) (h2 : c2 < 16777216) (h3 : c3 < 16777216) :
    decodeEntry (MetaEntry.encode (.wear first c0 c1 c2 c3)) = some (.wear first c0 c1 c2 c3) := by
  set e := MetaEntry.encode (.wear first c0 c1 c2 c3) with he
  have hfirst : (byteAt e 1).toNat = first := toNat_ofNat_byte hhigh
  have hc0 : fieldAt e 2 3 = c0 := fromBytes_bigEndian (w := 3) h0
  have hc1 : fieldAt e 5 3 = c1 := fromBytes_bigEndian (w := 3) h1
  have hc2 : fieldAt e 8 3 = c2 := fromBytes_bigEndian (w := 3) h2
  have hc3 : fieldAt e 11 3 = c3 := fromBytes_bigEndian (w := 3) h3
  show (if 4 ≤ (byteAt e 1).toNat && (byteAt e 1).toNat % 4 == 0 then
      some (MetaEntry.wear (byteAt e 1).toNat (fieldAt e 2 3) (fieldAt e 5 3) (fieldAt e 8 3) (fieldAt e 11 3)) else none) = _
  rw [hfirst, hc0, hc1, hc2, hc3, if_pos (by simp [hlow, hgroup])]

theorem map_toNat_map_ofNat {l : List Nat} (h : ∀ n ∈ l, n < 256) : (l.map (BitVec.ofNat 8)).map BitVec.toNat = l := by
  rw [List.map_map]
  exact (List.map_congr_left fun n hn => toNat_ofNat_byte (h n hn)).trans (List.map_id' l)

theorem decodeEntry_encode_retire {sectors : List Nat} (hpos : 1 ≤ sectors.length) (hlen : sectors.length ≤ 8)
    (hrange : ∀ n ∈ sectors, 4 ≤ n ∧ n < 256) :
    decodeEntry (MetaEntry.encode (.retire sectors)) = some (.retire sectors) := by
  set e := MetaEntry.encode (.retire sectors) with he
  have hcount : (byteAt e 1).toNat = sectors.length := toNat_ofNat_byte (by omega)
  have hbytes : bytesAt e 2 sectors.length = sectors.map (BitVec.ofNat 8) := by
    show (sectors.map (BitVec.ofNat 8) ++ _).take sectors.length = _
    exact List.take_left' (by simp)
  have hback := map_toNat_map_ofNat fun n hn => (hrange n hn).2
  show (if 1 ≤ (byteAt e 1).toNat && (byteAt e 1).toNat ≤ 8 &&
        ((bytesAt e 2 (byteAt e 1).toNat).map BitVec.toNat).all (fun n => 4 ≤ n) then
      some (MetaEntry.retire ((bytesAt e 2 (byteAt e 1).toNat).map BitVec.toNat)) else none) = _
  rw [hcount, hbytes, hback, if_pos]
  simpa [hpos, hlen] using fun n hn => (hrange n hn).1

theorem decodeEntry_encode_checkpointEnd {snapshot count : Nat} (hs : snapshot < 4294967296) (hc : count < 65536) :
    decodeEntry (MetaEntry.encode (.checkpointEnd snapshot count)) = some (.checkpointEnd snapshot count) := by
  set e := MetaEntry.encode (.checkpointEnd snapshot count) with he
  have hsnapshot : fieldAt e 2 4 = snapshot := fromBytes_bigEndian (w := 4) hs
  have hcount : fieldAt e 6 2 = count := fromBytes_bigEndian (w := 2) hc
  show some (MetaEntry.checkpointEnd (fieldAt e 2 4) (fieldAt e 6 2)) = _
  rw [hsnapshot, hcount]

/-- An entry whose fields lie in their ranges reads back as itself (R103, R125). -/
theorem decodeEntry_encode {e : MetaEntry} (h : e.valid = true) : decodeEntry e.encode = some e := by
  cases e with
  | streamDef st inc writer readers held policy tag quota margin base =>
    simp only [MetaEntry.valid, Bool.and_eq_true, decide_eq_true_eq] at h
    exact decodeEntry_encode_streamDef h.1 h.2
  | streamDrop st inc =>
    show (streamOfByte (BitVec.ofNat 8 st.val)).map _ = _
    rw [streamOfByte_streamByte]
    rfl
  | cursor st inc port committed lost =>
    simp only [MetaEntry.valid, Bool.and_eq_true, decide_eq_true_eq] at h
    exact decodeEntry_encode_cursor h.1 h.2
  | wear first c0 c1 c2 c3 =>
    simp only [MetaEntry.valid, Bool.and_eq_true, decide_eq_true_eq, beq_iff_eq] at h
    obtain ⟨⟨⟨⟨⟨⟨hlow, hhigh⟩, hgroup⟩, h0⟩, h1⟩, h2⟩, h3⟩ := h
    exact decodeEntry_encode_wear hlow hhigh hgroup h0 h1 h2 h3
  | retire sectors =>
    simp only [MetaEntry.valid, Bool.and_eq_true, decide_eq_true_eq, List.all_eq_true] at h
    obtain ⟨⟨hpos, hlen⟩, hrange⟩ := h
    exact decodeEntry_encode_retire hpos hlen hrange
  | checkpointEnd snapshot count =>
    simp only [MetaEntry.valid, Bool.and_eq_true, decide_eq_true_eq] at h
    exact decodeEntry_encode_checkpointEnd h.1 h.2

/-! ### Metadata pages -/

theorem decodeEntries_encoded {entries : List MetaEntry} (h : ∀ e ∈ entries, e.valid = true) (rest : List Byte) :
    decodeEntries (entries.flatMap MetaEntry.encode ++ rest) entries.length = some entries := by
  induction entries with
  | nil => rfl
  | cons e es ih =>
    have hlen := MetaEntry.encode_length (h e (by simp))
    rw [List.flatMap_cons, List.append_assoc, List.length_cons, decodeEntries, List.take_left' hlen,
      List.drop_left' hlen, decodeEntry_encode (h e (by simp)), ih fun x hx => h x (by simp [hx])]

theorem encoded_length {entries : List MetaEntry} (h : ∀ e ∈ entries, e.valid = true) :
    (entries.flatMap MetaEntry.encode).length = 16 * entries.length := by
  induction entries with
  | nil => rfl
  | cons e es ih =>
    rw [List.flatMap_cons, List.length_append, MetaEntry.encode_length (h e (by simp)),
      ih fun x hx => h x (by simp [hx]), List.length_cons]
    omega

/-- A committed metadata page reads back as what its header and entries were written from (R125). -/
theorem readMetaPage_written {generation first : Nat} {kind : MetaKind} {entries : List MetaEntry}
    (hgen : generation < 4294967296) (hfirst : first < 4294967296) (hpos : 1 ≤ entries.length)
    (hlen : entries.length ≤ 15) (hvalid : ∀ e ∈ entries, e.valid = true)
    (hend : kind = .journal → ∀ e ∈ entries, e.asEnd = none) (rest : List Byte) :
    readMetaPage (writtenPage (metaHeader generation first entries.length kind) (entries.flatMap MetaEntry.encode)
      0x00#8 rest) = some ⟨generation, first, kind, entries⟩ := by
  have hheader := metaHeader_length generation first entries.length kind
  set header := metaHeader generation first entries.length kind
  set body := entries.flatMap MetaEntry.encode with hbody
  set bytes := writtenPage header body 0x00#8 rest with hbytes
  have hcount : byteAt header 8 = BitVec.ofNat 8 entries.length := rfl
  have hcountNat : (byteAt bytes 8).toNat = entries.length := by
    rw [hbytes, writtenPage_headerByte hheader _ _ _ (by decide), hcount]
    exact toNat_ofNat_byte (by omega)
  have hkind : byteAt bytes 9 = BitVec.ofNat 8 kind.code := writtenPage_headerByte hheader _ _ _ (by decide)
  have hgeneration : fieldAt bytes 0 4 = generation := by
    rw [fieldAt, hbytes, writtenPage_headerField hheader _ _ _ (by decide)]
    exact fromBytes_bigEndian (w := 4) hgen
  have hfirstSerial : fieldAt bytes 4 4 = first := by
    rw [fieldAt, hbytes, writtenPage_headerField hheader _ _ _ (by decide)]
    exact fromBytes_bigEndian (w := 4) hfirst
  have hcondition : metaCondition bytes = .committed := by
    rw [metaCondition, hcountNat, ← encoded_length hvalid, ← hbody, hbytes, writtenPage_body hheader]
    refine (writtenPage_condition hheader body rest (i := 8) (by decide) fun heq => ?_).2
    have hFF := congrArg BitVec.toNat (hcount.symm.trans heq)
    rw [toNat_ofNat_byte (by omega)] at hFF
    exact absurd hlen (by rw [hFF]; decide)
  have hentries : decodeEntries (bytes.drop 16) entries.length = some entries := by
    rw [hbytes, writtenPage_drop_body hheader]
    exact decodeEntries_encoded hvalid rest
  rw [readMetaPage, if_pos hcondition]
  simp only [hcountNat, hentries, hgeneration, hfirstSerial, hkind]
  rw [if_pos (by simp [hpos, hlen, Config.stagingPlaces])]
  cases kind with
  | checkpoint => rfl
  | journal =>
    have hnone : (entries.any fun e => e.asEnd.isSome) = false := by
      simpa using hend rfl
    show (if (entries.any fun e => e.asEnd.isSome) = true then none else some _) = _
    rw [hnone]
    rfl

/-- Settles O51. -/
theorem metadataReadsBack : Obligations.MetadataReadsBack := by
  unfold Obligations.MetadataReadsBack
  refine ⟨fun e h => ⟨MetaEntry.encode_length h, decodeEntry_encode h⟩, ?_⟩
  intro f g hf _ _ hgen hfirst hpos hlen hvalid hend
  obtain ⟨rest, -, hstep2⟩ := Flash.readPage_steps hf (metaSector g.half g.page) (metaPage g.page)
    (metaHeader_length g.generation g.first g.entries.length g.kind)
    (body := g.entries.flatMap MetaEntry.encode) (by rw [encoded_length hvalid]; omega)
  simp only [metaStep1_eq_pageLayout, Flash.halfPage, hstep2]
  exact readMetaPage_written hgen hfirst hpos hlen hvalid hend rest

end Sys2Proof.Machine
end

