-- ==== Sys2Proof/Proofs/Lines.lean ====
section
/-! The alert line, the high flag, and the state after reset. -/

namespace Sys2Proof.Machine

open Sys2Proof

-- One process elaborates the whole text: proofs taken in turn stay within its memory.
set_option Elab.async false

/-! ### The alert line (R158, R177) -/

theorem Device.active_iff (d : Device) : d.active = true ↔ d.powered = true ∧ d.resetLow = false := by
  simp [Device.active]

theorem EventUnit.unmasked_iff (u : EventUnit) :
    u.unmasked = true ↔ ∃ e ∈ u.queue, u.mask.getLsbD e.kind.code = false := by
  simp [EventUnit.unmasked]

theorem Device.alert_iff (d : Device) (p : Port) :
    d.alert p = true ↔ d.powered = true ∧ d.resetLow = false ∧
      ((d.port p).responses ≠ [] ∨ ∃ e ∈ (d.events.get p).queue, (d.events.get p).mask.getLsbD e.kind.code = false) := by
  rw [Device.alert, Bool.and_eq_true, Bool.or_eq_true, Device.active_iff, EventUnit.unmasked_iff, and_assoc]
  simp

theorem Device.port_powerUp (powered resetLow pfail : Bool) (draws : Nat) (p : Port) :
    (Device.powerUp powered resetLow pfail draws).port p = HostPort.powerUp := PerPort.get_all p _

theorem Device.events_powerUp (powered resetLow pfail : Bool) (draws : Nat) (p : Port) :
    (Device.powerUp powered resetLow pfail draws).events.get p = EventUnit.powerUp := PerPort.get_all p _

/-- At power-up no response waits and no event is queued. -/
theorem Device.alert_powerUp (powered resetLow pfail : Bool) (draws : Nat) (p : Port) :
    (Device.powerUp powered resetLow pfail draws).alert p = false := by
  rw [← Bool.not_eq_true, Device.alert_iff, Device.port_powerUp, Device.events_powerUp]
  simp [HostPort.powerUp, EventUnit.powerUp]

/-- Settles O4. -/
theorem alertFollowsTheQueues : Obligations.AlertFollowsTheQueues :=
  ⟨Device.alert_iff, Device.alert_powerUp⟩

/-! ### The high flag (R6) -/

/-- Offering an event does not read the stream table. -/
theorem Device.offer_events_setBody (d : Device) (st : Fin 16) (b : Option StreamBody) (p : Port) (e : Event) :
    ((d.setBody st b).offer p e).events = (d.offer p e).events := by
  refine PerPort.ext_get fun q => ?_
  rw [Device.offer_events, Device.offer_events]
  rfl

/-- Settles O54: the three cases of an evaluation, by the room and by the flag as it stands. -/
theorem highFlagFollowsTheRoom : Obligations.HighFlagFollowsTheRoom := by
  unfold Obligations.HighFlagFollowsTheRoom
  intro d st b hb
  have hstream (b' : StreamBody) (p : Port) (e : Event) : ((d.setBody st (some b')).offer p e).stream st = some b' := by
    rw [Device.offer_frame]
    exact Device.stream_setBody d st (some b')
  by_cases hfull : b.quota * 16 - b.used ≤ b.margin
  · cases hhigh : b.high with
    | true =>
      have hsame : d.evalHigh st = d := by simp [Device.evalHigh, hb, StreamBody.room, hfull, hhigh]
      obtain ⟨⟩ := b
      simp_all
    | false =>
      have hset : d.evalHigh st = (d.setBody st (some { b with high := true })).offer b.writer
          ⟨.highWater, some st.val, some b.room⟩ := by
        simp [Device.evalHigh, hb, StreamBody.room, hfull, hhigh]
      simp [hset, hstream, hfull, Device.offer_events_setBody, StreamBody.room]
  · have hclear : d.evalHigh st = d.setBody st (some { b with high := false }) := by
      simp [Device.evalHigh, hb, StreamBody.room, hfull]
    simp [hclear, hfull]

/-! ### The state after reset (R123, R177) -/

section Reset

theorem reset_stream (st : Fin 16) : State.reset.dev.stream st = none := by
  revert st
  decide +kernel

theorem reset_cursor (st : Fin 16) (p : Port) : State.reset.dev.cursor st p = none := by
  revert st
  cases p <;> decide +kernel

theorem reset_retained (st : Fin 16) (p : Port) : State.reset.dev.mount.retained[st.val].get p = none := by
  revert st
  cases p <;> decide +kernel

theorem reset_mountStream (st : Fin 16) : State.reset.dev.mount.streams[st.val].body = none := by
  revert st
  decide +kernel

theorem reset_exec (p : Port) : State.reset.dev.exec p = Executor.rest := PerPort.get_all p _

theorem reset_places : State.reset.dev.places = [] := by decide +kernel

theorem reset_sectorsGood : State.reset.dev.sectorsGood := by
  refine ⟨?nodup, by decide, ?current, ?mounted⟩
  case nodup => rw [reset_places]; exact List.nodup_nil
  case current => exact fun c (h : none = some c) => nomatch h
  case mounted => exact fun h => absurd h (by decide)

theorem reset_scanGood : State.reset.dev.scanGood := by
  refine fun _ => ⟨rfl, rfl, fun p => by rw [reset_exec]; rfl, fun st => ⟨reset_stream st, reset_cursor st⟩, rfl, rfl,
    rfl, ?_⟩
  rintro n page ⟨⟩
  refine ⟨fun st b h => ?_, fun st p r h => ?_, fun _ => ⟨rfl, rfl, rfl, rfl⟩, fun h => absurd h (by decide)⟩
  · rw [reset_mountStream] at h; cases h
  · rw [reset_retained] at h; cases h

theorem reset_cursorsGood : State.reset.dev.cursorsGood := fun st b h => by
  rw [reset_stream] at h
  cases h

theorem reset_appendsGood : State.reset.dev.appendsGood := by
  refine ⟨fun p j h => ?_, fun h => absurd h (by decide), fun h => absurd h (by decide)⟩
  rw [reset_exec] at h
  cases h

theorem reset_queuesGood :
    State.reset.dev.eventsGood ∧ State.reset.dev.requestsGood ∧ State.reset.dev.slotsGood := by
  refine ⟨fun p => ?_, fun p => ?_, fun p => ?_⟩
  · cases p <;> exact ⟨rfl, List.Pairwise.nil⟩
  · cases p <;> rfl
  · cases p <;> decide

theorem reset_journalGood : State.reset.dev.journalGood := by
  refine ⟨by decide, List.Pairwise.nil, ?serials, by decide, ?inFlight, by decide⟩
  case serials => exact fun x (h : x ∈ []) => absurd h List.not_mem_nil
  case inFlight => exact fun g (h : none = some g) => nomatch h

end Reset

/-- Settles O60: every table of the state after reset is empty, so that each invariant holds of it at once. -/
theorem resetIsMountingAndGood : Obligations.ResetIsMountingAndGood := by
  unfold Obligations.ResetIsMountingAndGood
  obtain ⟨hevents, hrequests, hslots⟩ := reset_queuesGood
  refine ⟨rfl, rfl, rfl, rfl, rfl, fun p => ?_, rfl, hevents, hrequests, hslots, ?_, reset_sectorsGood, reset_scanGood,
    reset_cursorsGood, reset_appendsGood, reset_journalGood⟩
  · cases p <;> exact ⟨rfl, rfl, rfl, rfl⟩
  · exact fun c _ (h : none = some c) => nomatch h

end Sys2Proof.Machine
end

