-- ==== Sys2Proof/Proofs/Keeping.lean ====
section
/-! What an operation keeps of the queues, the suspension budget and the metadata writer's serials, said once for every
operation. `Calm` operations stage nothing; `Stages` operations may add entries to the buffer without looking at its
places; `Keeps` operations respect the fifteen places too, because they count them first (R107). -/

namespace Sys2Proof.Machine

open Sys2Proof

-- One process elaborates the whole text: proofs taken in turn stay within its memory.
set_option Elab.async false

/-! ### The relations -/

/-- `Writer.good` but for the number of entries (R104, R105). -/
def Writer.ordered (w : Writer) : Prop :=
  w.staging.Pairwise (fun x y => x.serial < y.serial) ∧ (∀ x ∈ w.staging, x.serial < w.nextSerial) ∧
    w.durableSerial ≤ w.nextSerial - 1 ∧
    (∀ g, w.inFlight = some g → g.kind = .journal → g.first + g.entries.length ≤ w.nextSerial) ∧
    if w.forFormat then w.snapshot ≤ 1 else w.snapshot - 1 ≤ w.nextSerial - 1

theorem Writer.good_iff (w : Writer) : w.good ↔ w.staging.length ≤ Config.stagingPlaces ∧ w.ordered := Iff.rfl

/-- From `d` to `d'` the queues, the budget and the serials stay good. -/
structure Device.Sound (d d' : Device) : Prop where
  events : d.eventsGood → d'.eventsGood
  requests : d.requestsGood → d'.requestsGood
  slots : d.slotsGood → d'.slotsGood
  budget : d.budgetGood → d'.budgetGood
  order : d.writer.ordered → d'.writer.ordered

/-- Sound, with no entry added, and a writer that takes no entries takes none afterwards. -/
structure Device.Calm (d d' : Device) : Prop extends Device.Sound d d' where
  shrinks : d'.writer.staging.length ≤ d.writer.staging.length
  deaf : d.writer.takesEntries = false → d'.writer.takesEntries = false

/-- Sound, with no entry added where the writer takes none. -/
structure Device.Stages (d d' : Device) : Prop extends Device.Sound d d' where
  deaf : d.writer.takesEntries = false →
    d'.writer.takesEntries = false ∧ d'.writer.staging.length ≤ d.writer.staging.length

/-- Sound, with the buffer within its places. -/
structure Device.Keeps (d d' : Device) : Prop extends Device.Sound d d' where
  places : d.writer.staging.length ≤ Config.stagingPlaces → d'.writer.staging.length ≤ Config.stagingPlaces

theorem Device.Sound.trans {a b c : Device} (h : a.Sound b) (k : b.Sound c) : a.Sound c :=
  ⟨k.events ∘ h.events, k.requests ∘ h.requests, k.slots ∘ h.slots, k.budget ∘ h.budget, k.order ∘ h.order⟩

theorem Device.Calm.trans {a b c : Device} (h : a.Calm b) (k : b.Calm c) : a.Calm c :=
  ⟨h.toSound.trans k.toSound, k.shrinks.trans h.shrinks, k.deaf ∘ h.deaf⟩

theorem Device.Stages.trans {a b c : Device} (h : a.Stages b) (k : b.Stages c) : a.Stages c :=
  ⟨h.toSound.trans k.toSound, fun ha => ⟨(k.deaf (h.deaf ha).1).1, (k.deaf (h.deaf ha).1).2.trans (h.deaf ha).2⟩⟩

theorem Device.Keeps.trans {a b c : Device} (h : a.Keeps b) (k : b.Keeps c) : a.Keeps c :=
  ⟨h.toSound.trans k.toSound, k.places ∘ h.places⟩

theorem Device.Calm.refl (d : Device) : d.Calm d := ⟨⟨id, id, id, id, id⟩, Nat.le_refl _, id⟩

theorem Device.Calm.stages {a b : Device} (h : a.Calm b) : a.Stages b :=
  ⟨h.toSound, fun ha => ⟨h.deaf ha, h.shrinks⟩⟩

theorem Device.Calm.keeps {a b : Device} (h : a.Calm b) : a.Keeps b := ⟨h.toSound, h.shrinks.trans⟩

theorem Device.Stages.calm {a b c : Device} (h : a.Stages b) (k : b.Calm c) : a.Stages c := h.trans k.stages

theorem Device.Keeps.calm {a b c : Device} (h : a.Keeps b) (k : b.Calm c) : a.Keeps c := h.trans k.keeps

theorem Device.Stages.refl (d : Device) : d.Stages d := (Device.Calm.refl d).stages

theorem Device.Keeps.refl (d : Device) : d.Keeps d := (Device.Calm.refl d).keeps

/-- An operation that stages keeps the places where its writer takes no entries, or where they suffice (R107). -/
theorem Device.Stages.keeps_of_length {a b : Device} (h : a.Stages b)
    (hlen : a.writer.takesEntries = true → a.writer.staging.length ≤ Config.stagingPlaces →
      b.writer.staging.length ≤ Config.stagingPlaces) : a.Keeps b := by
  refine ⟨h.toSound, fun ha => ?_⟩
  cases ht : a.writer.takesEntries with
  | false => exact (h.deaf ht).2.trans ha
  | true => exact hlen ht ha

theorem Device.Calm.foldl {α : Type} {f : Device → α → Device} (hf : ∀ (d : Device) x, d.Calm (f d x)) (l : List α) (d : Device) :
    d.Calm (l.foldl f d) := by
  induction l generalizing d with
  | nil => exact .refl d
  | cons x xs ih => exact (hf d x).trans (ih _)

/-! ### Atoms -/

theorem HostPort.bounded_iff (h : HostPort) : h.bounded = true ↔ h.requests.length ≤ 4 := decide_eq_true_iff

theorem EventUnit.bounded_iff (u : EventUnit) : u.bounded = true ↔ u.queue.length ≤ 16 := decide_eq_true_iff

/-- Nothing read by the invariants changes. -/
theorem Device.Calm.of_same {d d' : Device} (events : d'.events = d.events) (ports : d'.ports = d.ports)
    (inHand : ∀ p, (d'.exec p).inHand = (d.exec p).inHand) (current : d'.engine.current = d.engine.current)
    (ctx : d'.eraseCtx = d.eraseCtx) (writer : d'.writer = d.writer) : d.Calm d' where
  events h p := by rw [events]; exact h p
  requests h p := by rw [Device.port, ports]; exact h p
  slots h p := by rw [Device.port, ports, inHand]; exact h p
  budget h c x hc hx := h c x (current ▸ hc) (ctx ▸ hx)
  order h := by rw [writer]; exact h
  shrinks := by rw [writer]
  deaf h := by rw [writer]; exact h

/-- The event units alone change, each good as it was. -/
theorem Device.Calm.of_events {d : Device} {E : PerPort EventUnit}
    (h : ∀ p, (d.events.get p).bounded = true → (d.events.get p).queue.Pairwise (fun x y => x.matches y = false) →
      (E.get p).bounded = true ∧ (E.get p).queue.Pairwise fun x y => x.matches y = false) :
    d.Calm { d with events := E } where
  events hd p := h p (hd p).1 (hd p).2
  requests := id
  slots := id
  budget := id
  order := id
  shrinks := Nat.le_refl _
  deaf := id

/-- An event unit replaced by one whose queue holds nothing new. -/
theorem Device.Calm.setEvents {d : Device} {p : Port} {u : EventUnit} (h : u.queue.Sublist (d.events.get p).queue) :
    d.Calm { d with events := d.events.set p u } := by
  refine .of_events fun q hbound hpair => ?_
  rw [PerPort.get_set]
  split
  · subst q
    rw [EventUnit.bounded_iff] at hbound ⊢
    exact ⟨h.length_le.trans hbound, hpair.sublist h⟩
  · exact ⟨hbound, hpair⟩

/-- One port and one executor change: no more requests than the queue takes, and no more responses with the one its
request in hand will have than the response queue takes. -/
theorem Device.Sound.of_port {d d' : Device} {p : Port} (events : d'.events = d.events)
    (ports : ∀ q, q ≠ p → d'.port q = d.port q) (execs : ∀ q, q ≠ p → d'.exec q = d.exec q)
    (requests : (d.port p).requests.length ≤ 4 → (d'.port p).requests.length ≤ 4)
    (slots : (d.port p).responses.length + (if (d.exec p).inHand.isSome then 1 else 0) ≤ 4 →
      (d'.port p).responses.length + (if (d'.exec p).inHand.isSome then 1 else 0) ≤ 4)
    (current : d'.engine.current = d.engine.current) (ctx : d'.eraseCtx = d.eraseCtx) (writer : d'.writer = d.writer) :
    d.Sound d' where
  events h q := by rw [events]; exact h q
  requests h q := by
    by_cases hq : q = p
    · subst hq
      exact (HostPort.bounded_iff _).mpr (requests ((HostPort.bounded_iff _).mp (h q)))
    · rw [ports q hq]; exact h q
  slots h q := by
    by_cases hq : q = p
    · subst hq; exact slots (h q)
    · rw [ports q hq, execs q hq]; exact h q
  budget h c x hc hx := h c x (current ▸ hc) (ctx ▸ hx)
  order h := by rw [writer]; exact h

/-- The writer alone changes. -/
theorem Device.Sound.of_writer {d d' : Device} (events : d'.events = d.events) (ports : d'.ports = d.ports)
    (inHand : ∀ p, (d'.exec p).inHand = (d.exec p).inHand) (current : d'.engine.current = d.engine.current)
    (ctx : d'.eraseCtx = d.eraseCtx) (order : d.writer.ordered → d'.writer.ordered) : d.Sound d' where
  events h p := by rw [events]; exact h p
  requests h p := by rw [Device.port, ports]; exact h p
  slots h p := by rw [Device.port, ports, inHand]; exact h p
  budget h c x hc hx := h c x (current ▸ hc) (ctx ▸ hx)
  order := order

/-- The current erase and the context change within the budget (R89). -/
theorem Device.Calm.of_erase {d d' : Device} (events : d'.events = d.events) (ports : d'.ports = d.ports)
    (inHand : ∀ p, (d'.exec p).inHand = (d.exec p).inHand) (writer : d'.writer = d.writer)
    (budget : d.budgetGood → d'.budgetGood) : d.Calm d' where
  events h p := by rw [events]; exact h p
  requests h p := by rw [Device.port, ports]; exact h p
  slots h p := by rw [Device.port, ports, inHand]; exact h p
  budget := budget
  order h := by rw [writer]; exact h
  shrinks := by rw [writer]
  deaf h := by rw [writer]; exact h

/-! ### Tables -/

namespace Device.Calm

variable {d₀ d : Device}

section Frames

theorem setBody (h : d₀.Calm d) (st : Fin 16) (b : Option StreamBody) : d₀.Calm (d.setBody st b) :=
  h.trans (.of_same rfl rfl (fun _ => rfl) rfl rfl rfl)

theorem setStream (h : d₀.Calm d) (st : Fin 16) (x : Stream) : d₀.Calm (d.setStream st x) :=
  h.trans (.of_same rfl rfl (fun _ => rfl) rfl rfl rfl)

theorem setCursor (h : d₀.Calm d) (st : Fin 16) (p : Port) (c : Option Cursor) : d₀.Calm (d.setCursor st p c) :=
  h.trans (.of_same rfl rfl (fun _ => rfl) rfl rfl rfl)

theorem dropCursors (h : d₀.Calm d) (st : Fin 16) : d₀.Calm (d.dropCursors st) :=
  h.trans (.of_same rfl rfl (fun _ => rfl) rfl rfl rfl)

theorem setSector (h : d₀.Calm d) (n : Nat) (x : Sector) : d₀.Calm (d.setSector n x) := by
  refine h.trans (.of_same ?_ ?_ (fun p => ?_) ?_ ?_ ?_) <;> simp [Device.exec]

theorem setPageState (h : d₀.Calm d) (sector page : Nat) (v : PageState) : d₀.Calm (d.setPageState sector page v) :=
  h.setSector _ _

theorem drawn (h : d₀.Calm d) : d₀.Calm d.drawn := h.trans (.of_same rfl rfl (fun _ => rfl) rfl rfl rfl)

theorem release (h : d₀.Calm d) : d₀.Calm d.release := h.trans (.of_same rfl rfl (fun _ => rfl) rfl rfl rfl)

theorem recount (h : d₀.Calm d) (st : Fin 16) : d₀.Calm (d.recount st) := by
  rw [Device.recount_frame]
  exact h.trans (.of_same rfl rfl (fun _ => rfl) rfl rfl rfl)

theorem setChain (h : d₀.Calm d) (st : Fin 16) (chain : List Nat) : d₀.Calm (d.setChain st chain) := by
  unfold Device.setChain
  split
  exacts [h, h.setBody _ _]

theorem joinQueue (h : d₀.Calm d) (n : Nat) : d₀.Calm (d.joinQueue n) :=
  (h.setSector n _).trans (.of_same rfl rfl (fun _ => rfl) rfl rfl rfl)

theorem joinPool (h : d₀.Calm d) (n count : Nat) : d₀.Calm (d.joinPool n count) :=
  (h.setSector n _).trans (.of_same rfl rfl (fun _ => rfl) rfl rfl rfl)

theorem allocate (h : d₀.Calm d) (st : Fin 16) : d₀.Calm (d.allocate st) := by
  unfold Device.allocate
  split
  · exact (h.setSector _ _).trans (.of_same rfl rfl (fun _ => rfl) rfl rfl rfl)
  · exact h

end Frames

/-! ### Executors and ports -/

/-- An executor with no request it did not have. -/
theorem setExec (h : d₀.Calm d) (p : Port) (x : Executor) (hx : x.inHand = none ∨ x.inHand = (d.exec p).inHand) :
    d₀.Calm (d.setExec p x) := by
  refine h.trans ⟨.of_port (p := p) rfl (fun _ _ => rfl) (fun q hq => Device.exec_setExec_other d p q x hq) id ?_ rfl
    rfl rfl, Nat.le_refl _, id⟩
  rw [Device.exec_setExec, Device.port_setExec]
  rcases hx with hx | hx <;> rw [hx]
  · simp only [Option.isSome_none, Bool.false_eq_true, if_false]
    omega
  · exact id

theorem toExec (h : d₀.Calm d) (p : Port) (state : ExecState) (job : Job) : d₀.Calm (d.toExec p state job) :=
  h.setExec p _ (.inr rfl)

theorem toExecState (h : d₀.Calm d) (p : Port) (state : ExecState) : d₀.Calm (d.toExecState p state) :=
  h.setExec p _ (.inr rfl)

theorem rest (h : d₀.Calm d) (p : Port) : d₀.Calm (d.rest p) := h.setExec p _ (.inl rfl)

/-- A port with no more requests and responses than it had. -/
theorem setPort (h : d₀.Calm d) (p : Port) (x : HostPort) (hq : x.requests.length ≤ (d.port p).requests.length)
    (hr : x.responses.length ≤ (d.port p).responses.length) : d₀.Calm (d.setPort p x) := by
  refine h.trans ⟨.of_port (p := p) rfl (fun q hne => Device.port_setPort_other d p q x hne) (fun _ _ => rfl) ?_ ?_ rfl
    rfl rfl, Nat.le_refl _, id⟩
  · rw [Device.port_setPort]; exact hq.trans
  · rw [Device.port_setPort]; exact (Nat.add_le_add_right hr _).trans

/-- The request in hand is answered, and is in hand no more (R166). -/
theorem respondAndSet (h : d₀.Calm d) (p : Port) {r : Request} (hr : (d.exec p).inHand = some r) (status : Status)
    (body : List Byte) {x : Executor} (hx : x.inHand = none) : d₀.Calm ((d.respond p r status body).setExec p x) := by
  refine h.trans ⟨.of_port (p := p) rfl (fun q hne => Device.port_setPort_other d p q _ hne)
    (fun q hne => Device.exec_setExec_other _ p q x hne) ?_ ?_ rfl rfl rfl, Nat.le_refl _, id⟩
  · simp [Device.respond]
  · simp [Device.respond, hr, hx]

theorem answer (h : d₀.Calm d) (p : Port) (status : Status) (body : List Byte) : d₀.Calm (d.answer p status body) := by
  unfold Device.answer
  split
  · exact h.setExec p _ (.inl rfl)
  · exact h.respondAndSet p ‹_› status body rfl

/-! ### Events and flags -/

theorem offer (h : d₀.Calm d) (p : Port) (e : Event) : d₀.Calm (d.offer p e) := by
  unfold Device.offer
  split
  · refine h.trans (.of_events fun q hbound hpair => ?_)
    rw [PerPort.get_set]
    split
    · subst q
      rw [EventUnit.bounded_iff] at hbound ⊢
      exact ⟨EventUnit.offer_keeps_bound _ e hbound, EventUnit.offer_keeps_distinct _ e hpair⟩
    · exact ⟨hbound, hpair⟩
  · exact h

theorem offerSet (h : d₀.Calm d) (s : PortSet) (e : Event) : d₀.Calm (d.offerSet s e) := by
  have offerIf {d : Device} (h : d₀.Calm d) (b : Bool) (p : Port) : d₀.Calm (if b then d.offer p e else d) := by
    split
    exacts [h.offer p e, h]
  exact offerIf (offerIf (offerIf h s.a .A) s.b .B) s.c .C

theorem offerAll (h : d₀.Calm d) (e : Event) : d₀.Calm (d.offerAll e) := h.offerSet _ e

theorem evalHigh (h : d₀.Calm d) (st : Fin 16) : d₀.Calm (d.evalHigh st) := by
  unfold Device.evalHigh
  split
  · exact h
  · split
    · split
      · exact h
      · exact (h.setBody _ _).offer _ _
    · exact h.setBody _ _

theorem evalBacklog (h : d₀.Calm d) (st : Fin 16) (p : Port) : d₀.Calm (d.evalBacklog st p) := by
  unfold Device.evalBacklog
  split
  · split
    · split
      · exact h
      · exact (h.setCursor _ _ _).offer _ _
    · exact h.setCursor _ _ _
  · exact h

theorem evalBacklogs (h : d₀.Calm d) (st : Fin 16) : d₀.Calm (d.evalBacklogs st) :=
  ((h.evalBacklog st .A).evalBacklog st .B).evalBacklog st .C

/-! ### Ballots, device state, sessions -/

theorem holdBallotStream (h : d₀.Calm d) (op : BallotOp) (v : Bool) : d₀.Calm (d.holdBallotStream op v) := by
  rw [Device.holdBallotStream_frame]
  exact h.trans (.of_same rfl rfl (fun _ => rfl) rfl rfl rfl)

theorem setConsent (h : d₀.Calm d) (c : Consent) : d₀.Calm { d with consent := c } :=
  h.trans (.of_same rfl rfl (fun _ => rfl) rfl rfl rfl)

theorem closeBallot (h : d₀.Calm d) (o : BallotOutcome) : d₀.Calm (d.closeBallot o) := by
  unfold Device.closeBallot
  split
  · exact h
  · exact ((h.holdBallotStream _ _).offerSet _ _).setConsent _

theorem withdrawEngineClaim (h : d₀.Calm d) : d₀.Calm d.withdrawEngineClaim :=
  h.trans (.of_same rfl rfl (fun _ => rfl) rfl rfl rfl)

theorem setMode (h : d₀.Calm d) (m : DeviceState) (r : Reason) : d₀.Calm { d with mode := m, reason := r } :=
  h.trans (.of_same rfl rfl (fun _ => rfl) rfl rfl rfl)

theorem ite {c : Prop} [Decidable c] {x y : Device} (hx : d₀.Calm x) (hy : d₀.Calm y) :
    d₀.Calm (if c then x else y) := by
  split
  exacts [hx, hy]

theorem enterState (h : d₀.Calm d) (m : DeviceState) : d₀.Calm (d.enterState m) := by
  have announce : d₀.Calm (if announced m = true then
      ({ d with mode := m, reason := d.reasonOnEntry m } : Device).offerAll ⟨.state, none, some (deviceCode m)⟩
      else { d with mode := m, reason := d.reasonOnEntry m }) := .ite ((h.setMode _ _).offerAll _) (h.setMode _ _)
  unfold Device.enterState
  dsimp only
  refine .ite (.withdrawEngineClaim ?_) ?_
  all_goals
    split
    · exact .ite (announce.closeBallot _) announce
    · exact announce

theorem abortBallotOf (h : d₀.Calm d) (p : Port) : d₀.Calm (d.abortBallotOf p) := .ite (h.closeBallot _) h

theorem sendPeer (h : d₀.Calm d) (p : Port) (attached : Bool) : d₀.Calm (d.sendPeer p attached) := h.offerSet _ _

/-- The event unit at its reset values (R154). -/
theorem resetEvents (h : d₀.Calm d) (p : Port) : d₀.Calm { d with events := d.events.set p EventUnit.powerUp } :=
  h.trans (.setEvents (List.nil_sublist _))

theorem endSession (h : d₀.Calm d) (p : Port) : d₀.Calm (d.endSession p) :=
  (((h.setPort p { d.port p with attached := false } (Nat.le_refl _) (Nat.le_refl _)).resetEvents p).abortBallotOf
    p).sendPeer p false

/-! ### The erase given up -/

theorem setEngine (h : d₀.Calm d) (x : Engine) (hx : x.current = d.engine.current) : d₀.Calm { d with engine := x } :=
  h.trans (.of_same rfl rfl (fun _ => rfl) hx rfl rfl)

theorem setArbiter (h : d₀.Calm d) (x : Arbiter) : d₀.Calm { d with arbiter := x } :=
  h.trans (.of_same rfl rfl (fun _ => rfl) rfl rfl rfl)

/-- No erase in progress. -/
theorem noErase (h : d₀.Calm d) (x : Engine) (hx : x.current = none) :
    d₀.Calm { d with eraseCtx := none, engine := x } :=
  h.trans (.of_erase rfl rfl (fun _ => rfl) rfl fun _ _ _ hc _ => nomatch (hx.symm.trans hc))

/-- A context changed but for its phase. -/
theorem setCtx (h : d₀.Calm d) {x y : EraseContext} (hx : d.eraseCtx = some x) (hy : y.phase = x.phase) :
    d₀.Calm { d with eraseCtx := some y } := by
  refine h.trans (.of_erase rfl rfl (fun _ => rfl) rfl fun hd c z hc hz => ?_)
  cases hz
  rw [hy]
  exact hd c x hc hx

theorem eraseAbandoned (h : d₀.Calm d) : d₀.Calm d.eraseAbandoned := by
  unfold Device.eraseAbandoned
  dsimp only
  refine .ite (.release ?_) ?_
  all_goals
    refine .noErase ?_ _ rfl
    split
    · split
      exacts [h.setSector _ _, h]
    · exact h

theorem abandonErase (h : d₀.Calm d) : d₀.Calm d.abandonErase := by
  unfold Device.abandonErase
  split
  · exact h
  · rename_i x hx
    split
    · exact h.withdrawEngineClaim.eraseAbandoned
    · exact h.setCtx hx rfl
    · exact h.setCtx hx rfl

theorem discardOutcome (h : d₀.Calm d) : d₀.Calm d.discardOutcome := h.setEngine _ rfl

theorem stopEngine (h : d₀.Calm d) : d₀.Calm d.stopEngine := by
  have emptied : d₀.Calm { d with
      engine := { d.engine with slot := [] }
      arbiter := { d.arbiter with starved := false, starveTimer := false } } :=
    h.trans (.of_same rfl rfl (fun _ => rfl) rfl rfl rfl)
  have stopped := emptied.abandonErase.discardOutcome
  unfold Device.stopEngine
  exact .ite (stopped.setEngine _ rfl) stopped

/-! ### Halting -/

theorem answerOnArray (h : d₀.Calm d) (p : Port) (j : AppendJob) (status : Status) :
    d₀.Calm (d.answerOnArray p j status) := by
  unfold Device.answerOnArray
  dsimp only
  split
  · exact h.respondAndSet p ‹_› status [] rfl
  · exact h.setExec p _ (.inl rfl)

theorem haltWaiter (h : d₀.Calm d) (p : Port) : d₀.Calm (d.haltWaiter p) := by
  unfold Device.haltWaiter
  split
  case h_3 =>
    split
    · exact .ite h (h.answerOnArray _ _ _)
    all_goals exact h
  all_goals first | exact h.answer _ _ _ | exact h

theorem setReason (h : d₀.Calm d) (r : Reason) : d₀.Calm { d with reason := r } :=
  h.trans (.of_same rfl rfl (fun _ => rfl) rfl rfl rfl)

theorem enterMetaMedia (h : d₀.Calm d) : d₀.Calm d.enterMetaMedia := by
  unfold Device.enterMetaMedia
  split
  · exact h.enterState _
  · exact (h.enterState _).setConsent _
  · exact h.setReason _
  all_goals exact h

/-- The writer changes, its serials in order and its buffer no longer; it takes no entries then, or as before. -/
theorem setWriter (h : d₀.Calm d) (w : Writer) (order : d.writer.ordered → w.ordered)
    (shrinks : w.staging.length ≤ d.writer.staging.length)
    (deaf : d.writer.takesEntries = false → w.takesEntries = false) : d₀.Calm { d with writer := w } :=
  h.trans ⟨.of_writer rfl rfl (fun _ => rfl) rfl rfl order, shrinks, deaf⟩

end Device.Calm

/-- What leaves the buffer, the serials and the snapshot alone keeps their order; a page in flight may go. -/
theorem Writer.ordered_of_same {w w' : Writer} (staging : w'.staging = w.staging) (next : w'.nextSerial = w.nextSerial)
    (durable : w'.durableSerial = w.durableSerial)
    (inFlight : ∀ g, w'.inFlight = some g →
      ∃ g', w.inFlight = some g' ∧ g.kind = g'.kind ∧ g.first = g'.first ∧ g.entries = g'.entries)
    (snapshot : w'.snapshot = w.snapshot) (format : w'.forFormat = false ∨ w'.forFormat = w.forFormat)
    (h : w.ordered) : w'.ordered := by
  obtain ⟨hpair, hlt, hdurable, hflight, hsnapshot⟩ := h
  refine ⟨staging ▸ hpair, by rw [staging, next]; exact hlt, by rw [durable, next]; exact hdurable, fun g hg hk => ?_, ?_⟩
  · obtain ⟨g', hg', hkind, hfirst, hentries⟩ := inFlight g hg
    rw [hfirst, hentries, next]
    exact hflight g' hg' (hkind ▸ hk)
  · rw [snapshot, next]
    rcases format with hf | hf <;> rw [hf]
    · simp only [Bool.false_eq_true, if_false]
      split at hsnapshot <;> omega
    · exact hsnapshot

theorem Writer.takesEntries_halted {w : Writer} (h : w.state = .halted) : w.takesEntries = false := by
  simp [Writer.takesEntries, h]

/-- The page in flight as another fate leaves it. -/
theorem PageInFlight.map_fate {o : Option PageInFlight} {c : Prop} [Decidable c] {fate : PageFate} {g : PageInFlight}
    (h : (if c then o.map fun g => { g with fate := fate } else none) = some g) :
    ∃ g', o = some g' ∧ g.kind = g'.kind ∧ g.first = g'.first ∧ g.entries = g'.entries := by
  split at h
  · obtain ⟨g', hg', rfl⟩ := Option.map_eq_some_iff.mp h
    exact ⟨g', hg', rfl, rfl, rfl⟩
  · cases h

namespace Device.Calm

variable {d₀ d : Device}

theorem haltWriter (h : d₀.Calm d) : d₀.Calm d.haltWriter := by
  have halted := h.setWriter { d.writer with
      state := .halted
      inFlight := if d.arbiter.holder = some .writer then d.writer.inFlight.map fun g => { g with fate := .halted }
        else none
      phase := .none
      forFormat := false
      timerRunning := false
      timerExpired := false
      placeWait := [] }
    (Writer.ordered_of_same rfl rfl rfl (fun _ => PageInFlight.map_fate) rfl (.inl rfl)) (Nat.le_refl _)
    (fun _ => Writer.takesEntries_halted rfl)
  unfold Device.haltWriter
  dsimp only
  refine .discardOutcome (.haltWaiter (.haltWaiter (.haltWaiter ?_ _) _) _)
  split
  · refine .ite (.abandonErase ?_) ?_
    all_goals exact halted.enterMetaMedia.setEngine _ rfl
  · exact halted.enterMetaMedia.setEngine _ rfl

end Device.Calm

end Sys2Proof.Machine
end

