-- ==== Sys2Proof/Proofs/KeepingRequests.lean ====
section
/-! The operations that stage entries, the requests, and the offering of places: what they keep. -/

namespace Sys2Proof.Machine

open Sys2Proof

-- One process elaborates the whole text: proofs taken in turn stay within its memory.
set_option Elab.async false

/-! ### Staging -/

theorem Writer.ordered_addEntry {w : Writer} (e : MetaEntry) (h : w.ordered) : (w.addEntry e).ordered := by
  obtain ⟨hpair, hlt, hdurable, hflight, hsnapshot⟩ := h
  refine ⟨?_, fun x hx => ?_, ?_, fun g hg hk => ?_, ?_⟩
  · simpa [Writer.addEntry, List.pairwise_append] using ⟨hpair, hlt⟩
  · rcases List.mem_append.mp hx with hx | hx
    · exact Nat.lt_succ_of_lt (hlt x hx)
    · rw [List.mem_singleton.mp hx]
      exact Nat.lt_succ_self _
  · simp only [Writer.addEntry]; omega
  · exact (hflight g hg hk).trans (Nat.le_succ _)
  · by_cases hf : w.forFormat = true
    · rw [if_pos hf] at hsnapshot
      exact (if_pos (show (w.addEntry e).forFormat = true from hf)).mpr hsnapshot
    · rw [if_neg hf] at hsnapshot
      exact (if_neg (show ¬(w.addEntry e).forFormat = true from hf)).mpr (hsnapshot.trans (Nat.sub_le _ _))

theorem Writer.ordered_setStaging {w : Writer} {l : List Staged}
    (serials : l.map Staged.serial = w.staging.map Staged.serial) (h : w.ordered) :
    ({ w with staging := l } : Writer).ordered := by
  obtain ⟨hpair, hlt, hrest⟩ := h
  refine ⟨?_, fun x hx => ?_, hrest⟩
  · rw [← List.pairwise_map (f := Staged.serial) (R := (· < ·))] at hpair ⊢
    rw [serials]
    exact hpair
  · obtain ⟨y, hy, hxy⟩ := List.mem_map.mp (serials ▸ List.mem_map_of_mem (f := Staged.serial) hx)
    exact hxy ▸ hlt y hy

theorem Device.recordEntry_writer (d : Device) (e : MetaEntry) : (d.recordEntry e).writer = d.writer := by
  rw [Device.recordEntry_frame]

namespace Device.Calm

variable {d₀ d : Device}

theorem recordEntry (h : d₀.Calm d) (e : MetaEntry) : d₀.Calm (d.recordEntry e) := by
  rw [Device.recordEntry_frame]
  exact h.trans (.of_same rfl rfl (fun _ => rfl) rfl rfl rfl)

theorem setPlaceWait (h : d₀.Calm d) (l : List Waiter) : d₀.Calm { d with writer := { d.writer with placeWait := l } } :=
  h.setWriter _ id (Nat.le_refl _) id

theorem joinPlaceWait (h : d₀.Calm d) (who : Waiter) : d₀.Calm (d.joinPlaceWait who) := .ite h (h.setPlaceWait _)

theorem leavePlaceWait (h : d₀.Calm d) (who : Waiter) : d₀.Calm (d.leavePlaceWait who) := h.setPlaceWait _

/-! ### Waits for durability -/

theorem durableAnswer (h : d₀.Calm d) (p : Port) : d₀.Calm (d.durableAnswer p) := by
  unfold Device.durableAnswer
  split
  case h_3 => split <;> exact h.answer _ _ _
  all_goals exact h.answer _ _ _

theorem awaitDurable (h : d₀.Calm d) (p : Port) (job : Job) (serial : Nat) : d₀.Calm (d.awaitDurable p job serial) :=
  .ite (h.answer _ _ _) (.ite ((h.toExec _ _ _).durableAnswer _) (h.toExec _ _ _))

theorem releaseWaiter (h : d₀.Calm d) (p : Port) : d₀.Calm (d.releaseWaiter p) := by
  unfold Device.releaseWaiter
  split
  · exact .ite (h.durableAnswer p) h
  all_goals exact h

theorem releaseWaiters (h : d₀.Calm d) : d₀.Calm d.releaseWaiters :=
  ((h.releaseWaiter .A).releaseWaiter .B).releaseWaiter .C

/-! ### Sectors that leave a chain -/

theorem retire (h : d₀.Calm d) (n : Nat) : d₀.Calm (d.retire n) := by
  have listed : d₀.Calm { d.setSector n ((d.sector n).cleared .bad 0) with
      badList := insertAscending n (d.setSector n ((d.sector n).cleared .bad 0)).badList } :=
    (h.setSector _ _).trans (.of_same rfl rfl (fun _ => rfl) rfl rfl rfl)
  unfold Device.retire
  exact .ite ((listed.offerAll _).enterState _) (listed.offerAll _)

theorem releaseSector {x : Device × List Nat} (h : d₀.Calm x.1) (n : Nat) : d₀.Calm (releaseSector x n).1 := by
  unfold Sys2Proof.Machine.releaseSector
  split
  exacts [h.retire n, h.joinQueue n]

theorem takeHeads (least : Nat) (chain : List Nat) {x : Device × List Nat} (h : d₀.Calm x.1) :
    d₀.Calm (takeHeads least chain x).2.1 := by
  induction chain generalizing x with
  | nil => exact h
  | cons n rest ih =>
    rw [Sys2Proof.Machine.takeHeads]
    split
    exacts [ih (h.releaseSector n), h]

theorem reclaim (h : d₀.Calm d) (st : Fin 16) : d₀.Calm (d.reclaim st).1 := by
  unfold Device.reclaim
  split
  · exact h
  · split
    · exact h
    · dsimp only
      split
      · exact h
      · exact (((takeHeads _ _ (x := (d, [])) h).setChain _ _).recount _).evalHigh _

theorem foldl_releaseSector (chain : List Nat) {x : Device × List Nat} (h : d₀.Calm x.1) :
    d₀.Calm (chain.foldl Sys2Proof.Machine.releaseSector x).1 := by
  induction chain generalizing x with
  | nil => exact h
  | cons n rest ih => exact ih (h.releaseSector n)

theorem emptyChain (h : d₀.Calm d) (st : Fin 16) : d₀.Calm (d.emptyChain st).1 := by
  unfold Device.emptyChain
  split
  · exact h
  · exact (foldl_releaseSector _ (x := (d, [])) h).setChain _ _

end Device.Calm

theorem Device.stage_length_le (d : Device) (e : MetaEntry) :
    (d.stage e).writer.staging.length ≤ d.writer.staging.length + 1 := by
  rcases d.stage_cases e with ⟨-, hs⟩ | ⟨-, l, hl, hs⟩ | ⟨-, -, -, hs⟩ | ⟨-, -, -, hs⟩ <;> rw [hs]
  · exact Nat.le_succ _
  · have := congrArg List.length (replaceEntry_keeps hl).1
    rw [Device.recordEntry_writer]
    simp only [List.length_map] at this
    exact this.trans_le (Nat.le_succ _)
  · exact (Device.Calm.refl d).haltWriter.shrinks.trans (Nat.le_succ _)
  · rw [Device.recordEntry_writer]
    simp [Writer.addEntry]

theorem Device.stageAll_length_le (es : List MetaEntry) (d : Device) :
    (d.stageAll es).writer.staging.length ≤ d.writer.staging.length + es.length := by
  induction es generalizing d with
  | nil => exact Nat.le_refl _
  | cons e es ih =>
    have hone := d.stage_length_le e
    have hrest := ih (d.stage e)
    rw [List.length_cons]
    exact hrest.trans (by omega)

namespace Device.Stages

variable {d₀ d : Device}

theorem ite {c : Prop} [Decidable c] {x y : Device} (hx : d₀.Stages x) (hy : d₀.Stages y) :
    d₀.Stages (if c then x else y) := by
  split
  exacts [hx, hy]

theorem stage (h : d₀.Stages d) (e : MetaEntry) : d₀.Stages (d.stage e) := by
  have writes (w : Writer) (order : d.writer.ordered → w.ordered) (takes : d.writer.takesEntries = true) :
      d.Stages (({ d with writer := w } : Device).recordEntry e) := by
    have written : d.Sound { d with writer := w } := .of_writer rfl rfl (fun _ => rfl) rfl rfl order
    exact ⟨written.trans ((Device.Calm.refl _).recordEntry e).toSound, fun hf => by simp [hf] at takes⟩
  refine h.trans ?_
  rcases d.stage_cases e with ⟨-, hs⟩ | ⟨ht, l, hl, hs⟩ | ⟨-, -, -, hs⟩ | ⟨ht, -, -, hs⟩ <;> rw [hs]
  · exact .refl d
  · exact writes _ (Writer.ordered_setStaging (replaceEntry_keeps hl).1) ht
  · exact (Device.Calm.refl d).haltWriter.stages
  · exact writes _ (Writer.ordered_addEntry e) ht

theorem stageAll (es : List MetaEntry) (h : d₀.Stages d) : d₀.Stages (d.stageAll es) := by
  induction es generalizing d with
  | nil => exact h
  | cons e es ih => exact ih (h.stage e)

theorem stageDefinition (h : d₀.Stages d) (st : Fin 16) : d₀.Stages (d.stageDefinition st) := by
  unfold Device.stageDefinition
  split
  exacts [h, h.stage _]

theorem reclaimStaged (h : d₀.Stages d) (st : Fin 16) : d₀.Stages (d.reclaimStaged st) :=
  (h.calm ((Device.Calm.refl d).reclaim st)).stageAll _

/-! ### The operations counted before they are made (R107) -/

theorem raiseCursor (h : d₀.Stages d) (st : Fin 16) (x : Nat) (p : Port) : d₀.Stages (d.raiseCursor st x p) := by
  unfold Device.raiseCursor
  split
  · refine .ite ?_ h
    exact Stages.calm (.stage (h.calm ((Device.Calm.refl d).setCursor _ _ _)) _)
      (((Device.Calm.refl _).offer _ _).evalBacklog _ _)
  · exact h

theorem dropHead (h : d₀.Stages d) (st : Fin 16) : d₀.Stages (d.dropHead st) := by
  unfold Device.dropHead
  split
  · exact h
  · split
    · exact h
    · have raised (x : Nat) := ((h.raiseCursor st x .A).raiseCursor st x .B).raiseCursor st x .C
      exact .stageAll _ ((raised _).calm
        (((((Device.Calm.releaseSector (x := (_, [])) (.refl _) _).setChain _ _).recount _).evalHigh _).reclaim _))

theorem purgeCursor (h : d₀.Stages d) (st : Fin 16) (next : Nat) (p : Port) :
    d₀.Stages (d.purgeCursor st next p) := by
  unfold Device.purgeCursor
  split
  · exact h
  · exact (h.calm ((Device.Calm.refl d).setCursor _ _ _)).stage _

theorem purgeStream (h : d₀.Stages d) (st : Fin 16) : d₀.Stages (d.purgeStream st) := by
  unfold Device.purgeStream
  split
  · exact h
  · have raised (next : Nat) := ((h.purgeCursor st next .A).purgeCursor st next .B).purgeCursor st next .C
    exact (((raised _).calm ((Device.Calm.refl _).emptyChain st)).stageAll _).calm
      ((((Device.Calm.refl _).recount _).evalHigh _).evalBacklogs _)

theorem advanceCursor (h : d₀.Stages d) (st : Fin 16) (p : Port) (n : Nat) : d₀.Stages (d.advanceCursor st p n) := by
  unfold Device.advanceCursor
  split
  · exact h
  · exact (((h.calm ((Device.Calm.refl d).setCursor _ _ _)).stage _).calm
      ((Device.Calm.refl _).evalBacklog _ _)).reclaimStaged _

theorem createStream (h : d₀.Stages d) (p : Port) (st : Fin 16) (a : CreateArgs) : d₀.Stages (d.createStream p st a) :=
  Stages.stageDefinition (h.calm
    ((((((Device.Calm.refl d).setStream _ _).setCursor _ _ _).setCursor _ _ _).setCursor _ _ _).evalHigh _)) st

theorem stageAdded (h : d₀.Stages d) (st : Fin 16) (old new : PortSet) (next : Nat) (q : Port) :
    d₀.Stages (d.stageAdded st old new next q) := .ite (h.stage _) h

theorem configureStream (h : d₀.Stages d) (st : Fin 16) (a : ConfigureArgs) : d₀.Stages (d.configureStream st a) := by
  have changed {d' : Device} (k : d.Calm d') (old new : PortSet) (next : Nat) (q : Port) :
      d.Calm (d'.changeReader st old new next q) := by
    unfold Device.changeReader
    split
    exacts [k.setCursor _ _ _, k.setCursor _ _ _, k, k]
  unfold Device.configureStream
  split
  · exact h
  · have rewritten (b : StreamBody) (old new : PortSet) (next : Nat) :=
      changed (changed (changed ((Device.Calm.refl d).setBody st (some b)) old new next .A) old new next .B) old new next .C
    exact (((((((h.calm (rewritten _ _ _ _)).stageDefinition st).stageAdded st _ _ _ .A).stageAdded st _ _ _ .B).stageAdded
      st _ _ _ .C).calm ((Device.Calm.refl _).evalHigh _))).reclaimStaged _

theorem deleteStream (h : d₀.Stages d) (st : Fin 16) : d₀.Stages (d.deleteStream st) := by
  unfold Device.deleteStream
  split
  · exact h
  · exact (((h.stage _).calm ((Device.Calm.refl _).emptyChain st)).stageAll _).calm
      ((((Device.Calm.refl _).dropCursors _).offerSet _ _).setBody _ _)

end Device.Stages

/-! ### Operations that count their places -/

/-- Places that suffice are free ones, for a writer that takes entries (R107). -/
theorem Device.placesSuffice_free {d : Device} {who : Waiter} {n : Nat} (h : d.placesSuffice who n = true)
    (ht : d.writer.takesEntries = true) : n ≤ Config.stagingPlaces - d.writer.staging.length := by
  simp only [Device.placesSuffice, ht, Bool.not_true, Bool.false_or, Writer.freePlaces] at h
  exact (of_decide_eq_true h).trans (Nat.sub_le _ _)

/-- A staging operation whose places suffice keeps the buffer within them. -/
theorem Device.Stages.keeps_of_places {d : Device} {op : Device → Device} {who : Waiter} (h : d.Stages (op d))
    (hplaces : d.placesSuffice who (d.placesNeeded op) = true) : d.Keeps (op d) := by
  refine h.keeps_of_length fun ht hlen => ?_
  have hfree := Device.placesSuffice_free hplaces ht
  have hused := placesUsed_le_placesNeeded d op
  simp only [placesUsed] at hused
  omega

/-- So does staging a list of entries that finds a place for each. -/
theorem Device.stageAll_keeps {d : Device} {who : Waiter} {es : List MetaEntry}
    (hplaces : d.placesSuffice who es.length = true) : d.Keeps (d.stageAll es) := by
  refine (Device.Stages.stageAll es (.refl d)).keeps_of_length fun ht hlen => ?_
  have hfree := Device.placesSuffice_free hplaces ht
  have hadded := d.stageAll_length_le es
  omega

namespace Device.Keeps

variable {d₀ d : Device}

theorem ite {c : Prop} [Decidable c] {x y : Device} (hx : d₀.Keeps x) (hy : d₀.Keeps y) :
    d₀.Keeps (if c then x else y) := by
  split
  exacts [hx, hy]

theorem withPlaces (h : d₀.Keeps d) (p : Port) {op next : Device → Device} (hop : ∀ d : Device, d.Stages (op d))
    (hnext : ∀ d : Device, d.Keeps (next d)) : d₀.Keeps (d.withPlaces p op next) := by
  have readied : d.Calm ((d.leavePlaceWait (.executor p)).toExecState p .check) :=
    ((Device.Calm.refl d).leavePlaceWait _).toExecState _ _
  unfold Device.withPlaces
  dsimp only
  split
  · rename_i hplaces
    exact ((h.calm readied).trans ((hop _).keeps_of_places (who := .executor p) hplaces)).trans (hnext _)
  · exact h.calm (((Device.Calm.refl d).joinPlaceWait _).toExecState _ _)

/-! ### Appends -/

theorem claimStep1 (h : d₀.Keeps d) (p : Port) (j : AppendJob) : d₀.Keeps (d.claimStep1 p j) :=
  h.calm ((Device.Calm.refl d).toExec _ _ _)

theorem answer (h : d₀.Keeps d) (p : Port) (status : Status) (body : List Byte) : d₀.Keeps (d.answer p status body) :=
  h.calm ((Device.Calm.refl d).answer _ _ _)

theorem allocateOrWait (h : d₀.Keeps d) (p : Port) (j : AppendJob) : d₀.Keeps (d.allocateOrWait p j) := by
  have waits : d.Calm { d.toExec p .waitSpace (.append { j with phase := .seek }) with spaceWait := d.spaceWait ++ [p] } :=
    ((Device.Calm.refl d).toExec _ _ _).trans (.of_same rfl rfl (fun _ => rfl) rfl rfl rfl)
  exact .ite ((h.calm ((Device.Calm.refl d).allocate _)).claimStep1 _ _) (.ite (h.answer _ _ _) (h.calm waits))

theorem findPlace (h : d₀.Keeps d) (p : Port) (j : AppendJob) : d₀.Keeps (d.findPlace p j) := by
  unfold Device.findPlace
  split
  · exact h.answer _ _ _
  · refine .ite (h.claimStep1 _ _) (.ite (h.allocateOrWait _ _) ?_)
    split
    · exact h.answer _ _ _
    · exact (h.calm ((Device.Calm.refl d).toExec _ _ _)).withPlaces p (fun d => (Device.Stages.refl d).dropHead _)
        fun d => (Keeps.refl d).allocateOrWait p j

theorem seekPlace (h : d₀.Keeps d) (p : Port) (j : AppendJob) : d₀.Keeps (d.seekPlace p j) := by
  have left := h.calm ((Device.Calm.refl d).leavePlaceWait (.executor p))
  unfold Device.seekPlace
  dsimp only
  split
  exacts [left.answer _ _ _, left.findPlace p j]

theorem leavePlaceWait (h : d₀.Keeps d) (who : Waiter) : d₀.Keeps (d.leavePlaceWait who) :=
  h.calm ((Device.Calm.refl d).leavePlaceWait who)

theorem seekAgain (h : d₀.Keeps d) (p : Port) (j : AppendJob) : d₀.Keeps (d.seekAgain p j) := by
  unfold Device.seekAgain
  split
  · exact (h.leavePlaceWait _).answer _ _ _
  · exact .ite (h.findPlace p j) ((h.findPlace p j).leavePlaceWait _)

theorem takePage (h : d₀.Keeps d) (st : Fin 16) (sector page : Nat) : d₀.Keeps (d.takePage st sector page) :=
  h.calm ((((Device.Calm.refl d).setSector _ _).recount _).evalHigh _)

theorem setArrayOp (h : d₀.Keeps d) (op : ArrayOp) : d₀.Keeps { d with arrayOp := op } :=
  h.calm (.of_same rfl rfl (fun _ => rfl) rfl rfl rfl)

theorem toExec (h : d₀.Keeps d) (p : Port) (state : ExecState) (job : Job) : d₀.Keeps (d.toExec p state job) :=
  h.calm ((Device.Calm.refl d).toExec _ _ _)

theorem release (h : d₀.Keeps d) : d₀.Keeps d.release := h.calm (Device.Calm.refl d).release

theorem grantStep1 (h : d₀.Keeps d) (p : Port) (j : AppendJob) : d₀.Keeps (d.grantStep1 p j) := by
  unfold Device.grantStep1
  refine .ite (h.release.answer _ _ _) ?_
  split
  · exact h.release.answer _ _ _
  · split
    · exact h.release.findPlace p j
    · split
      · exact h.release.findPlace p j
      · exact ((h.takePage _ _ _).toExec _ _ _).setArrayOp _

theorem stageOrDiscard (h : d₀.Keeps d) (p : Port) (es : List MetaEntry) : d₀.Keeps (d.stageOrDiscard p es) := by
  unfold Device.stageOrDiscard
  split
  exacts [h.trans (Device.stageAll_keeps ‹_›), h]

theorem abandonPage (h : d₀.Keeps d) (p : Port) (j : AppendJob) : d₀.Keeps (d.abandonPage p j) :=
  (h.calm (((Device.Calm.refl d).setPageState _ _ _).reclaim _)).stageOrDiscard p _

theorem grantStep2 (h : d₀.Keeps d) (p : Port) (j : AppendJob) : d₀.Keeps (d.grantStep2 p j) :=
  .ite ((h.release.abandonPage p j).answer _ _ _) ((h.toExec _ _ _).setArrayOp _)

theorem stageOutcome (h : d₀.Keeps d) (p : Port) (j : AppendJob) (es : List MetaEntry) :
    d₀.Keeps (d.stageOutcome p j es).1 := by
  unfold Device.stageOutcome
  split
  · rename_i hplaces
    rcases Bool.or_eq_true _ _ ▸ hplaces with he | hp
    · rw [List.isEmpty_iff.mp he]
      exact h
    · exact h.trans (Device.stageAll_keeps hp)
  · split
    · exact h.calm ((Device.Calm.refl d).joinPlaceWait _)
    · exact h

theorem afterFailure (h : d₀.Keeps d) (p : Port) (j : AppendJob) : d₀.Keeps (d.afterFailure p j) :=
  .ite ((h.leavePlaceWait _).answer _ _ _) ((h.toExec _ _ _).seekPlace _ _)

theorem stageKept (h : d₀.Keeps d) (p : Port) (j : AppendJob) : d₀.Keeps (d.stageKept p j) := by
  unfold Device.stageKept
  split
  · rename_i hplaces
    have staged (state : ExecState) (job : Job) :
        d₀.Keeps (((d.leavePlaceWait (.executor p)).toExec p state job).stageAll j.kept) :=
      ((h.leavePlaceWait _).toExec _ _ _).trans (Device.stageAll_keeps (who := .executor p) hplaces)
    dsimp only
    split
    · exact (staged _ _).answer _ _ _
    · exact (staged _ _).afterFailure _ _
    · exact (staged _ _).toExec _ _ _
    all_goals exact staged _ _
  · exact h

/-! ### Space -/

theorem wakeSpace (l : List Port) (h : d₀.Keeps d) : d₀.Keeps (wakeSpace l d) := by
  induction l generalizing d with
  | nil => exact h
  | cons p rest ih =>
    have shorter : d₀.Keeps { d with spaceWait := rest } := h.calm (.of_same rfl rfl (fun _ => rfl) rfl rfl rfl)
    rw [Sys2Proof.Machine.wakeSpace]
    split
    · exact (shorter.calm ((Device.Calm.refl _).allocate _)).claimStep1 _ _
    · exact ih (shorter.answer _ _ _)
    · exact ih (shorter.answer _ _ _)

/-! ### The purge (R147) -/

theorem purgeOver (h : d₀.Keeps d) : d₀.Keeps d.purgeOver :=
  (h.leavePlaceWait .consent).calm ((Device.Calm.refl _).setConsent _)

theorem tryPurge (h : d₀.Keeps d) : d₀.Keeps d.tryPurge := by
  unfold Device.tryPurge
  split
  · exact h.purgeOver
  · rename_i st b _
    refine .ite ((h.leavePlaceWait _).calm ((Device.Calm.refl _).setConsent _)) ?_
    split
    · rename_i hplaces
      exact (h.trans (((Device.Stages.refl d).purgeStream st).keeps_of_places (who := .consent) hplaces)).purgeOver
    · exact h.calm (((Device.Calm.refl d).joinPlaceWait _).setConsent _)

end Device.Keeps

end Sys2Proof.Machine
end

