-- ==== Sys2Proof/Proofs/KeepingEvents.lean ====
section
/-! Requests, erases, the writer, mounts, pins and the consequences of an event: what they keep, up to one step. -/

namespace Sys2Proof.Machine

open Sys2Proof

-- One process elaborates the whole text: proofs taken in turn stay within its memory.
set_option Elab.async false

namespace Device.Calm

variable {d₀ d : Device}

/-! ### FORMAT and ballots -/

theorem formatExecutor (h : d₀.Calm d) (p : Port) : d₀.Calm (d.formatExecutor p) := by
  unfold Device.formatExecutor
  split
  case h_4 =>
    split
    · exact h.toExec _ _ _
    all_goals exact h
  all_goals first | exact h.answer _ _ _ | exact h

theorem setSpaceWait (h : d₀.Calm d) (l : List Port) : d₀.Calm { d with spaceWait := l } :=
  h.trans (.of_same rfl rfl (fun _ => rfl) rfl rfl rfl)

theorem formatWriter (h : d₀.Calm d) : d₀.Calm d.formatWriter := by
  refine h.setWriter _ (fun ⟨_, _, hdurable, hflight, hsnapshot⟩ => ?_) (Nat.zero_le _) fun _ => ?_
  · refine ⟨List.Pairwise.nil, fun x hx => absurd hx List.not_mem_nil, hdurable, fun g hg hk => ?_, ?_⟩
    · obtain ⟨g', hg', hkind, hfirst, hentries⟩ := PageInFlight.map_fate hg
      exact hfirst ▸ hentries ▸ hflight g' hg' (hkind ▸ hk)
    · simp only [Bool.false_eq_true, if_false]
      split at hsnapshot <;> omega
  · simp [Writer.takesEntries]

theorem enterFormatting (h : d₀.Calm d) : d₀.Calm d.enterFormatting := by
  unfold Device.enterFormatting
  exact (((((((h.enterState _).formatExecutor .A).formatExecutor .B).formatExecutor .C).setSpaceWait _).stopEngine).formatWriter).setConsent _

theorem passBallot (h : d₀.Calm d) (bl : Ballot) : d₀.Calm (d.passBallot bl) := by
  unfold Device.passBallot
  dsimp only
  split
  · exact (h.closeBallot _).setConsent _
  · exact (h.closeBallot _).enterFormatting

theorem passIfComplete (h : d₀.Calm d) : d₀.Calm d.passIfComplete := by
  unfold Device.passIfComplete
  split
  · exact .ite (h.passBallot _) h
  · exact h

theorem openBallot (h : d₀.Calm d) (p : Port) (op : BallotOp) (parties : PortSet) : d₀.Calm (d.openBallot p op parties) :=
  passIfComplete ((((h.setConsent _).holdBallotStream _ _).offerSet _ _).answer _ _ _)

theorem proposeTo (h : d₀.Calm d) (p : Port) (op : BallotOp) (parties : PortSet) : d₀.Calm (d.proposeTo p op parties) :=
  .ite (h.answer _ _ _) (.ite (h.answer _ _ _) (h.openBallot _ _ _))

theorem takePropose (h : d₀.Calm d) (p : Port) (body : List Byte) : d₀.Calm (d.takePropose p body) := by
  unfold Device.takePropose
  dsimp only
  split
  · exact h.answer _ _ _
  · refine .ite ?_ (.ite (h.proposeTo _ _ _) (h.answer _ _ _))
    split
    exacts [h.answer _ _ _, h.proposeTo _ _ _]

theorem takeAgree (h : d₀.Calm d) (p : Port) (body : List Byte) : d₀.Calm (d.takeAgree p body) := by
  unfold Device.takeAgree
  split
  exacts [h.answer _ _ _, ((h.setConsent _).answer _ _ _).passIfComplete]

theorem takeRefuse (h : d₀.Calm d) (p : Port) (body : List Byte) : d₀.Calm (d.takeRefuse p body) := by
  unfold Device.takeRefuse
  split
  exacts [h.answer _ _ _, (h.answer _ _ _).closeBallot _]

/-! ### Cursors -/

theorem takeRead (h : d₀.Calm d) (p : Port) (body : List Byte) : d₀.Calm (d.takeRead p body) := by
  unfold Device.takeRead
  split
  exacts [h.answer _ _ _, .ite (h.answer _ _ _) (h.toExec _ _ _)]

theorem setArrayOp (h : d₀.Calm d) (op : ArrayOp) : d₀.Calm { d with arrayOp := op } :=
  h.trans (.of_same rfl rfl (fun _ => rfl) rfl rfl rfl)

theorem grantRead (h : d₀.Calm d) (p : Port) (st : Fin 16) (inc : Byte) : d₀.Calm (d.grantRead p st inc) := by
  have refused (status : Status) (body : List Byte) := h.release.answer p status body
  unfold Device.grantRead
  refine .ite (refused _ _) ?_
  split
  · exact refused _ _
  · refine .ite (refused _ _) ?_
    split
    · exact refused _ _
    · refine .ite (refused _ _) ?_
      split
      · exact refused _ _
      · exact (h.toExec _ _ _).setArrayOp _

theorem readOutcome (h : d₀.Calm d) (p : Port) (st : Fin 16) (inc : Byte) (seq : Nat) (bytes : List Byte) :
    d₀.Calm (d.readOutcome p st inc seq bytes) := by
  unfold Device.readOutcome
  refine .ite (h.answer _ _ _) ?_
  split
  · exact h.answer _ _ _
  · refine .ite (h.answer _ _ _) ?_
    split
    · exact h.answer _ _ _
    · exact .ite ((h.setCursor _ _ _).answer _ _ _) ((h.setCursor _ _ _).answer _ _ _)

theorem ackAdvanced (h : d₀.Calm d) (p : Port) (st : Fin 16) (n : Nat) (durable : Bool) :
    d₀.Calm (d.ackAdvanced p st n durable) := .ite (h.awaitDurable _ _ _) (h.answer _ _ _)

theorem ackUnchanged (h : d₀.Calm d) (p : Port) (st : Fin 16) (committed : Nat) (durable : Bool) :
    d₀.Calm (d.ackUnchanged p st committed durable) := by
  unfold Device.ackUnchanged
  split
  exacts [h.awaitDurable _ _ _, h.answer _ _ _]

theorem takeRewind (h : d₀.Calm d) (p : Port) (body : List Byte) : d₀.Calm (d.takeRewind p body) := by
  unfold Device.takeRewind
  split
  exacts [h.answer _ _ _, (h.setCursor _ _ _).answer _ _ _]

theorem takeSetlevel (h : d₀.Calm d) (p : Port) (body : List Byte) : d₀.Calm (d.takeSetlevel p body) := by
  unfold Device.takeSetlevel
  split
  exacts [h.answer _ _ _, ((h.setCursor _ _ _).evalBacklog _ _).answer _ _ _]

/-! ### Sessions and reports -/

theorem takeAttach (h : d₀.Calm d) (p : Port) : d₀.Calm (d.takeAttach p) := by
  have attached := h.setPort p { d.port p with attached := true } (Nat.le_refl _) (Nat.le_refl _)
  exact .ite (h.answer _ _ _) (((attached.resetEvents p).sendPeer _ _).answer _ _ _)

theorem takeDetach (h : d₀.Calm d) (p : Port) (body : List Byte) : d₀.Calm (d.takeDetach p body) :=
  .ite (h.answer _ _ _) (.ite (h.answer _ _ _) ((h.answer _ _ _).endSession _))

theorem takeEvents (h : d₀.Calm d) (p : Port) (body : List Byte) : d₀.Calm (d.takeEvents p body) :=
  .ite (h.answer _ _ _) (.ite (h.answer _ _ _) ((h.trans (.setEvents (List.drop_sublist _ _))).answer _ _ _))

theorem takeMask (h : d₀.Calm d) (p : Port) (body : List Byte) : d₀.Calm (d.takeMask p body) := by
  refine .ite (h.answer _ _ _) (.ite (h.answer _ _ _) (.answer (h.trans (.setEvents ?_)) _ _ _))
  exact List.Sublist.refl _

theorem takeQuery (h : d₀.Calm d) (p : Port) (body : List Byte) : d₀.Calm (d.takeQuery p body) := by
  unfold Device.takeQuery
  split
  · exact h.answer _ _ _
  · split
    exacts [h.answer _ _ _, h.answer _ _ _]

theorem takeStatus (h : d₀.Calm d) (p : Port) : d₀.Calm (d.takeStatus p) := (h.answer _ _ _).drawn

theorem takeSync (h : d₀.Calm d) (p : Port) : d₀.Calm (d.takeSync p) := by
  unfold Device.takeSync
  split
  exacts [h.answer _ _ _, .ite (h.answer _ _ _) (h.awaitDurable _ _ _)]

end Device.Calm

/-! ### Requests -/

namespace Device.Keeps

variable {d₀ d : Device}

theorem takeAck (h : d₀.Keeps d) (p : Port) (body : List Byte) : d₀.Keeps (d.takeAck p body) := by
  unfold Device.takeAck
  split
  · exact h.answer _ _ _
  · refine .ite (h.answer _ _ _) (.ite (h.calm ((Device.Calm.refl d).ackUnchanged _ _ _ _)) (.ite (h.answer _ _ _)
      (.ite ?_ (h.withPlaces p (fun d => (Device.Stages.refl d).advanceCursor _ _ _) fun d =>
        ((Device.Calm.refl d).ackAdvanced _ _ _ _).keeps))))
    exact h.calm ((((Device.Calm.refl d).setCursor _ _ _).evalBacklog _ _).answer _ _ _)

theorem takeCreate (h : d₀.Keeps d) (p : Port) (body : List Byte) : d₀.Keeps (d.takeCreate p body) := by
  unfold Device.takeCreate
  split
  · exact h.answer _ _ _
  · split
    · exact h.answer _ _ _
    · split
      · exact h.answer _ _ _
      · exact h.withPlaces p (fun d => (Device.Stages.refl d).createStream _ _ _) fun d =>
          ((Device.Calm.refl d).awaitDurable _ _ _).keeps

theorem takeConfigure (h : d₀.Keeps d) (p : Port) (body : List Byte) : d₀.Keeps (d.takeConfigure p body) := by
  unfold Device.takeConfigure
  split
  · exact h.answer _ _ _
  · split
    · exact h.answer _ _ _
    · exact h.withPlaces p (fun d => (Device.Stages.refl d).configureStream _ _) fun d =>
        ((Device.Calm.refl d).awaitDurable _ _ _).keeps

theorem takeDelete (h : d₀.Keeps d) (p : Port) (body : List Byte) : d₀.Keeps (d.takeDelete p body) := by
  unfold Device.takeDelete
  split
  · exact h.answer _ _ _
  · exact .ite (h.answer _ _ _) (h.withPlaces p (fun d => (Device.Stages.refl d).deleteStream _) fun d =>
      ((Device.Calm.refl d).awaitDurable _ _ _).keeps)

theorem takeAppend (h : d₀.Keeps d) (p : Port) (body : List Byte) : d₀.Keeps (d.takeAppend p body) := by
  unfold Device.takeAppend
  split
  exacts [h.answer _ _ _, h.findPlace _ _]

theorem carryOut (h : d₀.Keeps d) (p : Port) (kind : Kind) (body : List Byte) : d₀.Keeps (d.carryOut p kind body) := by
  have calm {d' : Device} (k : d.Calm d') : d₀.Keeps d' := h.calm k
  cases kind with
  | attach => exact calm ((Device.Calm.refl d).takeAttach p)
  | detach => exact calm ((Device.Calm.refl d).takeDetach p body)
  | create => exact h.takeCreate p body
  | configure => exact h.takeConfigure p body
  | delete => exact h.takeDelete p body
  | append => exact h.takeAppend p body
  | read => exact calm ((Device.Calm.refl d).takeRead p body)
  | ack => exact h.takeAck p body
  | rewind => exact calm ((Device.Calm.refl d).takeRewind p body)
  | setlevel => exact calm ((Device.Calm.refl d).takeSetlevel p body)
  | query => exact calm ((Device.Calm.refl d).takeQuery p body)
  | status => exact calm ((Device.Calm.refl d).takeStatus p)
  | sync => exact calm ((Device.Calm.refl d).takeSync p)
  | events => exact calm ((Device.Calm.refl d).takeEvents p body)
  | mask => exact calm ((Device.Calm.refl d).takeMask p body)
  | propose => exact calm ((Device.Calm.refl d).takePropose p body)
  | agree => exact calm ((Device.Calm.refl d).takeAgree p body)
  | refuse => exact calm ((Device.Calm.refl d).takeRefuse p body)

theorem process (h : d₀.Keeps d) (p : Port) (r : Request) : d₀.Keeps (d.process p r) := by
  unfold Device.process
  refine .ite (h.answer _ _ _) ?_
  split
  · exact h.answer _ _ _
  · exact h.answer _ _ _
  · exact .ite (h.answer _ _ _) (h.carryOut _ _ _)

/-- A request is taken only with a response slot free for it (R166). -/
theorem takeRequest (h : d₀.Keeps d) (p : Port) (hfree : (d.port p).responses.length < 4) :
    d₀.Keeps (d.takeRequest p) := by
  unfold Device.takeRequest
  split
  · exact h
  · rename_i r rest hrequests
    refine process ?_ p r
    refine h.trans ⟨.of_port (p := p) rfl (fun q hne => Device.port_setPort_other d p q _ hne)
      (fun q hne => Device.exec_setExec_other _ p q _ hne) ?_ ?_ rfl rfl rfl, id⟩
    · rw [Device.port_setExec, Device.port_setPort, hrequests]
      exact fun hlen => (Nat.le_succ _).trans hlen
    · rw [Device.port_setExec, Device.port_setPort, Device.exec_setExec]
      exact fun _ => hfree

theorem arrive (h : d₀.Keeps d) (p : Port) (r : Request) : d₀.Keeps (d.arrive p r) := by
  unfold Device.arrive
  dsimp only
  split
  · exact h.calm ((Device.Calm.refl d).setPort _ _ (Nat.le_refl _) (Nat.le_refl _))
  · rename_i hroom
    refine h.trans ⟨.of_port (p := p) rfl (fun q hne => Device.port_setPort_other d p q _ hne) (fun _ _ => rfl) ?_ ?_ rfl
      rfl rfl, id⟩
    · rw [Device.port_setPort]
      simp only [Config.queueSlots] at hroom
      simp only [List.length_append, List.length_singleton]
      omega
    · rw [Device.port_setPort]
      exact id

/-! ### Offering places -/

theorem stageEngine (h : d₀.Keeps d) : d₀.Keeps d.stageEngine := by
  unfold Device.stageEngine
  split
  · exact h
  · split
    · rename_i hplaces
      refine (h.calm (((Device.Calm.refl d).leavePlaceWait .engine).setEngine { d.engine with outcome := none, state := .idle }
        rfl)).trans ?_
      exact Device.stageAll_keeps (who := .engine) (es := [_]) hplaces
    · exact h.calm (((Device.Calm.refl d).joinPlaceWait .engine).setEngine _ (by rw [Device.joinPlaceWait_frame]))

theorem processAgain (h : d₀.Keeps d) (p : Port) (r : Request) : d₀.Keeps (d.processAgain p r) :=
  .ite (h.process p r) ((h.process p r).leavePlaceWait _)

theorem executorAgain (h : d₀.Keeps d) (p : Port) : d₀.Keeps (d.executorAgain p) := by
  unfold Device.executorAgain
  split
  · split
    · exact h.seekAgain _ _
    · exact h.stageKept _ _
    · exact h.stageKept _ _
    · exact h.stageKept _ _
    all_goals exact h.leavePlaceWait _
  · exact h.processAgain _ _
  · exact h.leavePlaceWait _

theorem offerTo (h : d₀.Keeps d) (w : Waiter) : d₀.Keeps (d.offerTo w) := by
  cases w with
  | executor p => exact h.executorAgain p
  | engine => exact h.stageEngine
  | consent => exact h.tryPurge

theorem offerDown (fuel : Nat) (h : d₀.Keeps d) : d₀.Keeps (offerDown fuel d) := by
  induction fuel generalizing d with
  | zero => exact h
  | succ fuel ih =>
    rw [Sys2Proof.Machine.offerDown]
    split
    · exact h
    · exact .ite (h.offerTo _) (ih (h.offerTo _))

theorem offerPlaces (h : d₀.Keeps d) : d₀.Keeps d.offerPlaces := offerDown _ (.ite h.stageEngine h)

/-! ### Ending a request -/

theorem setExec (h : d₀.Keeps d) (p : Port) (x : Executor) (hx : x.inHand = none) : d₀.Keeps (d.setExec p x) :=
  h.calm ((Device.Calm.refl d).setExec p x (.inl hx))

theorem rest (h : d₀.Keeps d) (p : Port) : d₀.Keeps (d.rest p) := h.setExec p _ rfl

theorem withdrawClaim (h : d₀.Keeps d) (p : Port) : d₀.Keeps (d.withdrawClaim p) := by
  unfold Device.withdrawClaim
  split
  · split
    · exact h.abandonPage _ _
    all_goals exact h
  all_goals exact h

theorem detachJob (h : d₀.Keeps d) (p : Port) : d₀.Keeps (d.detachJob p) := by
  unfold Device.detachJob
  dsimp only
  split <;> exact (h.leavePlaceWait _).setExec _ _ rfl

theorem abandonRequest (h : d₀.Keeps d) (p : Port) : d₀.Keeps (d.abandonRequest p) := by
  unfold Device.abandonRequest
  split
  · exact h.rest p
  · exact h.rest p
  · exact h.rest p
  · exact (h.leavePlaceWait _).rest p
  · exact (h.calm ((Device.Calm.refl d).setSpaceWait _)).rest p
  · exact h.rest p
  · exact (h.withdrawClaim p).rest p
  · exact h.detachJob p

theorem linkReset (h : d₀.Keeps d) (p : Port) : d₀.Keeps (d.linkReset p) := by
  have cleared := (h.calm ((Device.Calm.refl d).setPort p
    { d.port p with requests := [], responses := [], rejected := false } (Nat.zero_le _) (Nat.zero_le _))).abandonRequest p
  have ended (x : Device) (hx : d₀.Keeps x) :
      d₀.Keeps (if (x.port p).attached then x.endSession p else x.abortBallotOf p) :=
    .ite (hx.calm ((Device.Calm.refl x).endSession p)) (hx.calm ((Device.Calm.refl x).abortBallotOf p))
  exact .ite (ended _ cleared).offerPlaces (ended _ cleared)

end Device.Keeps

/-! ### Stopping and mounting -/

theorem Writer.ordered_setStop {w : Writer} (phase : Compaction) (stop : StopFlush) (h : w.ordered) :
    ({ w with phase := phase, stop := stop } : Writer).ordered := h

namespace Device.Keeps

variable {d₀ d : Device}

theorem stopExecutor (h : d₀.Keeps d) (p : Port) : d₀.Keeps (d.stopExecutor p) := by
  unfold Device.stopExecutor
  split
  · exact h
  · exact h
  · exact h.answer _ _ _
  · exact (h.withdrawClaim p).answer _ _ _
  · exact h.answer _ _ _
  · exact h.answer _ _ _
  · exact h.answer _ _ _
  · split
    · rename_i r hr
      have left : (d.respond p r .aborted []).detachJob p =
          (((d.respond p r .aborted []).setExec p ((d.respond p r .aborted []).detachJob p |>.exec p)).leavePlaceWait
            (.executor p)) := by
        unfold Device.detachJob
        dsimp only
        split <;> simp [Device.leavePlaceWait, Device.setExec, Device.exec]
      rw [left]
      refine leavePlaceWait (h.calm ((Device.Calm.refl d).respondAndSet p hr _ _ ?_)) _
      unfold Device.detachJob
      dsimp only
      split <;> simp
    · exact h

theorem stopConsent (h : d₀.Keeps d) : d₀.Keeps d.stopConsent :=
  h.calm (((Device.Calm.refl d).closeBallot _).setConsent _)

theorem enterStopping (h : d₀.Keeps d) : d₀.Keeps d.enterStopping := by
  have stopped := ((h.calm ((Device.Calm.refl d).setMode .stopping (d.reasonOnEntry .stopping))).stopExecutor
    .A |>.stopExecutor .B).stopExecutor .C
  have idle := (stopped.calm ((((Device.Calm.refl _).setSpaceWait []).setPlaceWait []).stopEngine)).stopConsent
  have flushing (x : Device) (m : Mount) : x.Calm { x with writer := x.writer.enterStopping, mount := m } :=
    ((Device.Calm.refl x).setWriter x.writer.enterStopping id (Nat.le_refl _) id).trans
      (.of_same rfl rfl (fun _ => rfl) rfl rfl rfl)
  exact idle.calm (flushing _ _)

/-- RAM at power-up, the ports and event units kept: the executors rest. -/
theorem remounted (d : Device) (powered resetLow pfail : Bool) (draws : Nat) :
    d.Keeps { Device.powerUp powered resetLow pfail draws with ports := d.ports, events := d.events } where
  events := id
  requests := id
  slots h p := by
    have hrest : (Device.exec { Device.powerUp powered resetLow pfail draws with ports := d.ports, events := d.events } p) =
        Executor.rest := PerPort.get_all p _
    rw [hrest]
    exact (Nat.le_add_right _ _).trans (h p)
  budget _ c x hc _ := nomatch (hc : none = some c)
  order _ := by
    refine ⟨List.Pairwise.nil, fun x (h : x ∈ []) => absurd h List.not_mem_nil, Nat.le_refl _, ?_, Nat.le_refl _⟩
    exact fun g (h : none = some g) => nomatch h
  places _ := Nat.zero_le _

theorem beginMount (h : d₀.Keeps d) : d₀.Keeps d.beginMount := by
  have mounted := h.trans (remounted d d.powered d.resetLow d.pfail d.draws)
  exact .ite mounted.enterStopping (mounted.calm (.of_same rfl rfl (fun _ => rfl) rfl rfl rfl))

theorem enterStopped (h : d₀.Keeps d) : d₀.Keeps d.enterStopped := by
  have dormant : d₀.Keeps { d with
      mode := .stopped, reason := d.reasonOnEntry .stopped
      writer := { d.writer with state := .dormant, stop := .notStopping } } :=
    h.calm (((Device.Calm.refl d).setMode .stopped (d.reasonOnEntry .stopped)).setWriter
      { d.writer with state := .dormant, stop := .notStopping } id (Nat.le_refl _) fun _ => rfl)
  exact .ite dormant dormant.beginMount

end Device.Keeps

end Sys2Proof.Machine
end

