-- ==== Sys2Proof/Proofs/KeepingSteps.lean ====
section
/-! Erases, metadata pages, mounts, the consequences of an event and the commands: what they keep, and with it the three
invariants of queues, suspensions and journal. -/

namespace Sys2Proof.Machine

open Sys2Proof

-- One process elaborates the whole text: proofs taken in turn stay within its memory.
set_option Elab.async false

namespace Device.Calm

variable {d₀ d : Device}

/-! ### The erase engine -/

theorem enterChoice (h : d₀.Calm d) (c : EngineState) : d₀.Calm (d.enterChoice c) :=
  h.trans (.of_same rfl rfl (fun _ => rfl) rfl rfl rfl)

theorem setEraseState (h : d₀.Calm d) (c : CurrentErase) (v : SectorState) : d₀.Calm (d.setEraseState c v) := by
  unfold Device.setEraseState
  split
  exacts [h.setSector _ _, h]

/-- A fresh erase has used no suspension. -/
theorem startErase (h : d₀.Calm d) (n : Nat) (source : EraseSource) : d₀.Calm (d.startErase n source) := by
  refine (h.setEraseState ⟨n, source, 0, .running⟩ .erasing).trans
    (.of_erase rfl rfl (fun _ => rfl) rfl fun _ c x hc hx => ?_)
  cases hc
  cases hx
  exact Nat.zero_le 16

theorem engineGivesUp (h : d₀.Calm d) : d₀.Calm d.engineGivesUp :=
  h.trans (.of_same rfl rfl (fun _ => rfl) rfl rfl rfl)

theorem grantStart (h : d₀.Calm d) : d₀.Calm d.grantStart := by
  unfold Device.grantStart
  split
  · refine .ite (startErase ?_ _ _) h.engineGivesUp
    exact h.setEngine _ rfl
  · split
    exacts [.ite (h.startErase _ _) h.engineGivesUp, h.engineGivesUp]

/-- RESUME uses no suspension. -/
theorem grantResume (h : d₀.Calm d) : d₀.Calm d.grantResume := by
  unfold Device.grantResume
  split
  · rename_i c x hc hx
    have unchanged (c' : CurrentErase) (v : SectorState) :
        (d.setEraseState c' v).engine = d.engine ∧ (d.setEraseState c' v).eraseCtx = d.eraseCtx := by
      unfold Device.setEraseState
      split <;> simp
    refine (h.setEraseState c .erasing).trans (.of_erase rfl rfl (fun _ => rfl) rfl fun hd c' x' hc' hx' => ?_)
    cases hc'
    cases hx'
    refine (Nat.le_add_right _ _).trans (hd c x ?_ ?_)
    · rw [(unchanged c .erasing).1, hc]
    · rw [(unchanged c .erasing).2, hx]
  · exact h.engineGivesUp

theorem engineGrant (h : d₀.Calm d) : d₀.Calm d.engineGrant := .ite h.grantResume h.grantStart

/-- SUSPEND is issued only with budget left (R89). -/
theorem suspend (h : d₀.Calm d) (hmust : d.mustSuspend = true) : d₀.Calm d.suspend := by
  unfold Device.suspend
  unfold Device.mustSuspend at hmust
  split
  · exact h
  · rename_i x hx
    split at hmust
    · rename_i c x' hc hx'
      simp only [Bool.and_eq_true, decide_eq_true_eq] at hmust
      obtain ⟨⟨-, hbudget⟩, -⟩ := hmust
      refine h.trans (.of_erase rfl rfl (fun _ => rfl) rfl fun _ c' y hc' hy => ?_)
      cases hc.symm.trans hc'
      cases hy
      exact hbudget
    · cases hmust

/-- SUSPENDED counts the suspension that was under way (R90). -/
theorem eraseSuspended (h : d₀.Calm d) {x : EraseContext} {c : CurrentErase} (hx : d.eraseCtx = some x)
    (hc : d.engine.current = some c) (hphase : x.phase = .suspending) : d₀.Calm (d.eraseSuspended x c) := by
  have unchanged (v : SectorState) :
      (d.setEraseState c v).engine = d.engine ∧ (d.setEraseState c v).eraseCtx = d.eraseCtx := by
    unfold Device.setEraseState
    split <;> simp
  refine ((h.setEraseState c .suspended).release).trans
    (.of_erase rfl rfl (fun _ => rfl) rfl fun hd c' x' hc' hx' => ?_)
  cases hc'
  cases hx'
  have hused := hd c x ((unchanged .suspended).1 ▸ hc) ((unchanged .suspended).2 ▸ hx)
  rwa [hphase, if_pos rfl] at hused

theorem endErase (h : d₀.Calm d) : d₀.Calm d.endErase := h.release.noErase _ rfl

/-! ### The metadata region's sectors at FORMAT, and mount's passes -/

theorem requeue (h : d₀.Calm d) (n : Nat) : d₀.Calm (d.requeue n) :=
  (h.setSector n _).trans (.of_same rfl rfl (fun _ => rfl) rfl rfl rfl)

theorem setPool (h : d₀.Calm d) (l : List Nat) : d₀.Calm { d with freePool := l } :=
  h.trans (.of_same rfl rfl (fun _ => rfl) rfl rfl rfl)

theorem formatSectors (h : d₀.Calm d) : d₀.Calm d.formatSectors := by
  have cleared : d₀.Calm (d.eraseQueue.foldl (fun d n => d.setSector n ((d.sector n).cleared .queued 0)) d) :=
    h.trans (foldl (fun d n => (refl d).setSector n _) _ _)
  exact (cleared.setPool []).trans (foldl (fun d n => (refl d).requeue n) _ _)

theorem setMount (h : d₀.Calm d) (m : Mount) : d₀.Calm { d with mount := m } :=
  h.trans (.of_same rfl rfl (fun _ => rfl) rfl rfl rfl)

theorem addRepair (h : d₀.Calm d) : d₀.Calm d.addRepair := h.setMount _

theorem quietHigh (h : d₀.Calm d) (st : Fin 16) : d₀.Calm (d.quietHigh st) := by
  unfold Device.quietHigh
  split
  exacts [h, h.setBody _ _]

theorem placeOwned (h : d₀.Calm d) (isLast : Bool) (o : OwnedSector) : d₀.Calm (d.placeOwned isLast o) :=
  h.setSector _ _

theorem mountChain (h : d₀.Calm d) (st : Fin 16) (own : List OwnedSector) : d₀.Calm (d.mountChain st own) := by
  unfold Device.mountChain
  split
  · exact h
  · dsimp only
    refine quietHigh (recount (setBody (trans (h.trans (foldl (fun d o => ?_) _ _)) (foldl (fun d o => ?_) _ _)) _ _) _) _
    · exact ((refl d).joinQueue _).addRepair
    · exact (refl d).placeOwned _ _

theorem createCursor (h : d₀.Calm d) (st : Fin 16) (p : Port) : d₀.Calm (d.createCursor st p) := by
  unfold Device.createCursor
  split
  · exact h
  · exact .ite (.ite (h.setCursor _ _ _).addRepair (h.setCursor _ _ _)) h

theorem mountReclaim (h : d₀.Calm d) (st : Fin 16) : d₀.Calm (d.mountReclaim st) := by
  unfold Device.mountReclaim
  split
  · exact h
  · exact (((takeHeads _ _ (x := (d, [])) h).setChain _ _).recount _).quietHigh _

theorem trimCursor (h : d₀.Calm d) (st : Fin 16) (x : Nat) (p : Port) : d₀.Calm (d.trimCursor st x p) := by
  unfold Device.trimCursor
  split
  · exact h
  · exact .ite (h.setCursor _ _ _).addRepair h

theorem trim (st : Fin 16) (excess : Nat) (h : d₀.Calm d) : d₀.Calm (d.trim st excess) := by
  induction excess generalizing d with
  | zero => exact h
  | succ excess ih =>
    rw [Device.trim]
    split
    · exact h
    · split
      · exact h
      · exact ih (((((h.joinQueue _).addRepair.setChain _ _).trimCursor _ _ .A).trimCursor _ _ .B).trimCursor _ _ .C)

theorem quietBacklog (h : d₀.Calm d) (st : Fin 16) (p : Port) : d₀.Calm (d.quietBacklog st p) := by
  unfold Device.quietBacklog
  split
  exacts [h.setCursor _ _ _, h]

theorem mountPasses (h : d₀.Calm d) (st : Fin 16) : d₀.Calm (d.mountPasses st) := by
  unfold Device.mountPasses
  dsimp only
  split
  · exact h.mountReclaim st
  · exact (((((trim _ _ (h.mountReclaim st)).recount _).quietHigh _).quietBacklog _ _).quietBacklog _ _).quietBacklog _ _

theorem seedSector (h : d₀.Calm d) (counts : Vector Nat 256) (n : Nat) : d₀.Calm (d.seedSector counts n) := by
  unfold Device.seedSector
  split
  exacts [h.setSector _ _, h]

theorem seedTables (h : d₀.Calm d) : d₀.Calm d.seedTables := by
  have defined : d₀.Calm { d with streams := d.mount.streams, badList := d.mount.bad } :=
    h.trans (.of_same rfl rfl (fun _ => rfl) rfl rfl rfl)
  unfold Device.seedTables
  dsimp only
  refine trans (trans (trans (defined.trans (foldl (fun d n => ?_) _ _)) (foldl (fun d n => ?_) _ _))
    (foldl (fun d n => ?_) _ _)) (foldl (fun d n => ?_) _ _)
  · exact (refl d).seedSector _ n
  · exact (refl d).setSector n _
  · exact (refl d).joinPool n _
  · exact (refl d).joinQueue n

theorem mountChains (h : d₀.Calm d) : d₀.Calm d.mountChains := by
  unfold Device.mountChains
  dsimp only
  refine (h.trans (foldl (fun d t => ?_) _ _)).trans (foldl (fun d t => ?_) _ _)
  · exact foldl (fun d o => (refl d).joinQueue _) _ _
  · exact (refl d).mountChain _ _

theorem mountCursors (h : d₀.Calm d) : d₀.Calm d.mountCursors :=
  h.trans (foldl (fun d st => (((refl d).createCursor st .A).createCursor st .B).createCursor st .C) _ _)

end Device.Calm

/-! ### The writer -/

/-- Ascending serials below `n` leave room for their number (R105). -/
theorem serials_room {l : List Staged} {n : Nat} (hpair : l.Pairwise fun x y => x.serial < y.serial)
    (hlt : ∀ x ∈ l, x.serial < n) : (l.head?.map Staged.serial).getD 0 + l.length ≤ n := by
  induction l with
  | nil => exact Nat.zero_le _
  | cons x xs ih =>
    obtain ⟨hx, hxs⟩ := List.pairwise_cons.mp hpair
    have hxn := hlt x (by simp)
    have hrest := ih hxs fun y hy => hlt y (by simp [hy])
    cases xs with
    | nil => simpa using hxn
    | cons y ys =>
      have hxy := hx y (by simp)
      simp only [List.head?_cons, Option.map_some, Option.getD_some, List.length_cons] at hrest ⊢
      omega

theorem takeOpen_serials (n : Nat) (l : List Staged) : (takeOpen n l).map Staged.serial = l.map Staged.serial := by
  induction l generalizing n with
  | nil => cases n <;> rfl
  | cons e es ih =>
    cases n with
    | zero => rfl
    | succ n =>
      rw [takeOpen]
      split <;> simp [ih]

/-- Fewer entries, the same numbers: the order stands. -/
theorem Writer.ordered_of_sublist {w w' : Writer} {l : List Staged} (h : w.ordered) (hl : l.Sublist w.staging)
    (staging : w'.staging.map Staged.serial = l.map Staged.serial) (next : w'.nextSerial = w.nextSerial)
    (durable : w'.durableSerial ≤ w.nextSerial - 1)
    (inFlight : ∀ g, w'.inFlight = some g → g.kind = .journal → g.first + g.entries.length ≤ w.nextSerial)
    (snapshot : if w'.forFormat then w'.snapshot ≤ 1 else w'.snapshot - 1 ≤ w.nextSerial - 1) : w'.ordered := by
  obtain ⟨hpair, hlt, -⟩ := h
  obtain ⟨h1, h2, -⟩ := Writer.ordered_setStaging (w := { w' with staging := l, nextSerial := w.nextSerial, durableSerial := 0, inFlight := none, snapshot := 0 })
    (l := w'.staging) staging ⟨hpair.sublist hl, fun x hx => hlt x (hl.subset hx), Nat.zero_le _, fun g hg => (nomatch hg),
      by split <;> exact Nat.zero_le _⟩
  refine ⟨h1, fun x hx => next ▸ h2 x hx, next ▸ durable, fun g hg hk => next ▸ inFlight g hg hk, ?_⟩
  rw [next]
  exact snapshot

theorem Staged.map_serial {f : Staged → Staged} (hf : ∀ e, (f e).serial = e.serial) (l : List Staged) :
    (l.map f).map Staged.serial = l.map Staged.serial := by
  rw [List.map_map]
  exact List.map_congr_left fun e _ => hf e

namespace Device.Keeps

variable {d₀ d : Device}

/-- The writer changes, its serials in order and its buffer within the places. -/
theorem setWriter (h : d₀.Keeps d) (w : Writer) (order : d.writer.ordered → w.ordered)
    (places : d.writer.staging.length ≤ Config.stagingPlaces → w.staging.length ≤ Config.stagingPlaces) :
    d₀.Keeps { d with writer := w } :=
  h.trans ⟨.of_writer rfl rfl (fun _ => rfl) rfl rfl order, places⟩

/-- The writer's step begins. -/
theorem setStep (h : d₀.Keeps d) (w : Writer) (op : ArrayOp) (order : d.writer.ordered → w.ordered)
    (places : d.writer.staging.length ≤ Config.stagingPlaces → w.staging.length ≤ Config.stagingPlaces) :
    d₀.Keeps { d with writer := w, arrayOp := op } := (h.setWriter w order places).setArrayOp op

theorem grantJournal (h : d₀.Keeps d) (half : Nat) : d₀.Keeps (d.grantJournal half) := by
  have hsub : (openEntries Config.stagingPlaces d.writer.staging).Sublist d.writer.staging :=
    (List.take_sublist _ _).trans List.filter_sublist
  have hserials := takeOpen_serials Config.stagingPlaces d.writer.staging
  refine h.setStep _ _ (fun ho => ?_) fun hlen => ?_
  · have hroom := serials_room (ho.1.sublist hsub) fun x hx => ho.2.1 x (hsub.subset hx)
    refine Writer.ordered_of_sublist ho (List.Sublist.refl _) hserials rfl ho.2.2.1 ?_ ho.2.2.2.2
    rintro g ⟨⟩ -
    rwa [List.length_map]
  · have := congrArg List.length hserials
    simp only [List.length_map] at this
    exact this.trans_le hlen

theorem grantCheckpoint (h : d₀.Keeps d) : d₀.Keeps d.grantCheckpoint := by
  refine h.setStep _ _ (fun ho => ?_) id
  obtain ⟨hpair, hlt, hdurable, -, hsnapshot⟩ := ho
  refine ⟨hpair, hlt, hdurable, ?_, hsnapshot⟩
  rintro g ⟨⟩ hk
  cases hk

/-- The page in flight moves on to another of its steps. -/
theorem setInFlight (h : d₀.Keeps d) {g g' : PageInFlight} (state : WriterState) (hg : d.writer.inFlight = some g)
    (hkind : g'.kind = g.kind) (hfirst : g'.first = g.first) (hentries : g'.entries = g.entries) :
    d₀.Keeps { d with writer := { d.writer with state := state, inFlight := some g' } } := by
  refine h.setWriter _ (Writer.ordered_of_same rfl rfl rfl ?_ rfl (.inr rfl)) id
  rintro _ ⟨⟩
  exact ⟨g, hg, hkind, hfirst, hentries⟩

theorem setState (h : d₀.Keeps d) (state : WriterState) :
    d₀.Keeps { d with writer := { d.writer with state := state } } := h.setWriter _ id id

theorem writerGrant (h : d₀.Keeps d) : d₀.Keeps d.writerGrant := by
  unfold Device.writerGrant
  split
  · rename_i g _ hg
    exact (h.setInFlight .program2 (g' := { g with step2 := true }) hg rfl rfl rfl).setArrayOp _
  · refine .ite h.grantCheckpoint ?_
    split
    · exact h.grantJournal _
    · exact h.release.setState _

theorem endPage (h : d₀.Keeps d) (state : WriterState) : d₀.Keeps (d.endPage state) :=
  h.release.setWriter _ (Writer.ordered_of_same rfl rfl rfl (fun _ hg => nomatch hg) rfl (.inr rfl)) id

theorem metaStep1Ends (h : d₀.Keeps d) (g : PageInFlight) : d₀.Keeps (d.metaStep1Ends g) := by
  unfold Device.metaStep1Ends
  split
  exacts [h.release.setState _, h.endPage _, h.endPage _]

/-- A journal page's serials lie below the next one, so the durable serial does not pass it (R111). -/
theorem commitJournal (h : d₀.Keeps d) {g : PageInFlight} (hg : d.writer.inFlight = some g) (hk : g.kind = .journal) :
    d₀.Keeps { d with writer := d.writer.commitJournal g } := by
  refine h.setWriter _ (fun ho => ?_) (List.length_filter_le _ _).trans
  obtain ⟨-, -, hdurable, hflight, hsnapshot⟩ := id ho
  refine Writer.ordered_of_sublist ho List.filter_sublist rfl rfl ?_ hflight hsnapshot
  have := hflight g hg hk
  simp only [Writer.commitJournal]
  split <;> omega

theorem journalCommitted (h : d₀.Keeps d) {g : PageInFlight} (hg : d.writer.inFlight = some g)
    (hk : g.kind = .journal) : d₀.Keeps (d.journalCommitted g) := by
  unfold Device.journalCommitted
  split
  · exact (((h.commitJournal hg hk).calm (Device.Calm.refl _).releaseWaiters).endPage .idle).offerPlaces
  · exact (h.commitJournal hg hk).endPage _
  · exact h.endPage _

theorem reopen_ordered {w : Writer} (h : w.ordered) : w.reopen.ordered :=
  Writer.ordered_setStaging (Staged.map_serial (fun e => by split <;> rfl) _) h

theorem metaVoided (h : d₀.Keeps d) (g : PageInFlight) : d₀.Keeps (d.metaVoided g) := by
  have opened (w : Writer) (hw : d.writer.reopen.ordered → w.ordered) (hs : w.staging = d.writer.reopen.staging) :
      d₀.Keeps { d with writer := w } :=
    h.setWriter w (hw ∘ reopen_ordered) fun hlen => by rw [hs]; simpa [Writer.reopen] using hlen
  unfold Device.metaVoided
  split
  · refine endPage (opened _ ?_ ?_) _
    exacts [id, rfl]
  · exact h.endPage _
  · refine endPage (opened _ ?_ ?_) _
    exacts [id, rfl]
  · exact h.endPage _
  · exact h.endPage _

theorem noFlushAfter (h : d₀.Keeps d) : d₀.Keeps d.noFlushAfter := .ite (h.setWriter _ id id) h

theorem commitCheckpoint (h : d₀.Keeps d) (hf : d.writer.forFormat = false) :
    d₀.Keeps { d with writer := d.writer.commitCheckpoint } := by
  refine h.setWriter _ (fun ho => ?_) (List.length_filter_le _ _).trans
  obtain ⟨-, -, hdurable, hflight, hsnapshot⟩ := id ho
  refine Writer.ordered_of_sublist ho List.filter_sublist rfl rfl ?_ hflight hsnapshot
  rw [hf, if_neg Bool.false_ne_true] at hsnapshot
  exact Nat.max_le.mpr ⟨hdurable, hsnapshot⟩

theorem commitFormat (h : d₀.Keeps d) (hf : d.writer.forFormat = true) (hg : d.writer.inFlight = none) :
    d₀.Keeps { d with writer := d.writer.commitFormat } := by
  refine h.setWriter _ (fun ⟨_, _, _, _, hsnapshot⟩ => ?_) fun _ => Nat.zero_le _
  rw [if_pos hf] at hsnapshot
  refine ⟨List.Pairwise.nil, fun x hx => absurd hx List.not_mem_nil, Nat.le_refl _, fun g hg' => ?_,
    Nat.sub_le_sub_right hsnapshot 1⟩
  exact nomatch hg.symm.trans hg'

theorem setConsent (h : d₀.Keeps d) (c : Consent) : d₀.Keeps { d with consent := c } :=
  h.calm ((Device.Calm.refl d).setConsent c)

theorem formatCommitted (h : d₀.Keeps d) (hf : d.writer.forFormat = true) (hg : d.writer.inFlight = none) :
    d₀.Keeps d.formatCommitted := by
  unfold Device.formatCommitted
  split
  · exact (h.commitFormat hf hg).noFlushAfter
  · have hwriter : d.formatSectors.writer = d.writer := by
      have cleared (l : List Nat) (d : Device) :
          (l.foldl (fun d n => d.setSector n ((d.sector n).cleared .queued 0)) d).writer = d.writer := by
        induction l generalizing d with
        | nil => rfl
        | cons n l ih => exact (ih _).trans (Device.setSector_writer _ _ _)
      have queued (l : List Nat) (d : Device) : (l.foldl Device.requeue d).writer = d.writer := by
        induction l generalizing d with
        | nil => rfl
        | cons n l ih => exact (ih _).trans (Device.setSector_writer _ _ _)
      exact (queued _ _).trans (cleared _ _)
    have emptied : d₀.Keeps { d.formatSectors with
        streams := d.formatSectors.streams.map Stream.freed, cursors := Vector.replicate 16 (PerPort.all none) } :=
      h.calm ((Device.Calm.refl d).formatSectors.trans (.of_same rfl rfl (fun _ => rfl) rfl rfl rfl))
    have written := emptied.commitFormat (hwriter ▸ hf) (hwriter ▸ hg)
    exact (written.calm ((Device.Calm.refl _).enterState _)).setConsent _

theorem compactionCommitted (h : d₀.Keeps d) (hf : d.writer.forFormat = false) : d₀.Keeps d.compactionCommitted :=
  ((h.commitCheckpoint hf).calm (Device.Calm.refl _).releaseWaiters).noFlushAfter.offerPlaces

theorem checkpointCommitted (h : d₀.Keeps d) (g : PageInFlight) : d₀.Keeps (d.checkpointCommitted g) := by
  unfold Device.checkpointCommitted
  split
  · exact h.endPage _
  · exact h.endPage _
  · have counted := (h.endPage .idle).setWriter { (d.endPage .idle).writer with
      written := (d.endPage .idle).writer.written + g.entries.length } id id
    dsimp only
    refine .ite ?_ counted
    split
    · exact counted.formatCommitted ‹_› rfl
    · exact counted.compactionCommitted (Bool.eq_false_of_not_eq_true ‹_›)

theorem takeSnapshot (h : d₀.Keeps d) : d₀.Keeps d.takeSnapshot := by
  refine offerPlaces (h.setWriter _ (fun ho => ?_) fun hlen => by simpa using hlen)
  refine Writer.ordered_of_sublist ho (List.Sublist.refl _)
    (Staged.map_serial (f := Staged.cover) (fun _ => rfl) _) rfl ho.2.2.1 ho.2.2.2.1 ?_
  exact Nat.le_refl _

theorem setEngine (h : d₀.Keeps d) (x : Engine) (hx : x.current = d.engine.current) : d₀.Keeps { d with engine := x } :=
  h.calm ((Device.Calm.refl d).setEngine x hx)

/-- Writer, engine and consent unit change together, the current erase standing. -/
theorem setUnits (h : d₀.Keeps d) (w : Writer) (x : Engine) (c : Consent) (hx : x.current = d.engine.current)
    (order : d.writer.ordered → w.ordered)
    (places : d.writer.staging.length ≤ Config.stagingPlaces → w.staging.length ≤ Config.stagingPlaces) :
    d₀.Keeps { d with writer := w, engine := x, consent := c } :=
  ((h.setWriter w order places).setConsent c).setEngine x hx

theorem beginCompaction (h : d₀.Keeps d) : d₀.Keeps d.beginCompaction := by
  unfold Device.beginCompaction
  split
  · exact h
  · refine h.setUnits _ _ _ ?_ ?_ ?_
    exacts [rfl, id, id]

/-! ### Ends of erases -/

theorem stageOutcomeOf (h : d₀.Keeps d) (o : EraseOutcome) :
    d₀.Keeps { d with engine := { d.engine with outcome := some o } }.stageEngine :=
  (h.setEngine { d.engine with outcome := some o } rfl).stageEngine

theorem queueErased (h : d₀.Keeps d) (n : Nat) : d₀.Keeps (d.queueErased n) := by
  have left (x : Device) : x.Calm { x with eraseQueue := x.eraseQueue.filter (· != n) } :=
    .of_same rfl rfl (fun _ => rfl) rfl rfl rfl
  exact ((wakeSpace _ (h.calm ((left d).joinPool _ _))).calm (Device.Calm.refl _).endErase).stageOutcomeOf _

theorem queueFailed (h : d₀.Keeps d) (n : Nat) : d₀.Keeps (d.queueFailed n) := by
  have left (x : Device) : x.Calm { x with eraseQueue := x.eraseQueue.filter (· != n) } :=
    .of_same rfl rfl (fun _ => rfl) rfl rfl rfl
  exact .ite ((h.calm ((left d).retire n).endErase).stageOutcomeOf _) (h.calm ((Device.Calm.refl d).setSector _ _).endErase)

theorem setEraseQueue (h : d₀.Keeps d) (l : List Nat) : d₀.Keeps { d with eraseQueue := l } :=
  h.calm (.of_same rfl rfl (fun _ => rfl) rfl rfl rfl)

theorem haltWriter (h : d₀.Keeps d) : d₀.Keeps d.haltWriter := h.calm (Device.Calm.refl d).haltWriter

theorem beginFormatCheckpoint (h : d₀.Keeps d) : d₀.Keeps d.beginFormatCheckpoint := by
  refine h.setUnits _ _ _ rfl (fun ⟨hpair, hlt, hdurable, hflight, _⟩ => ?_) id
  exact ⟨hpair, hlt, hdurable, hflight, Nat.le_refl _⟩

theorem slotErased (h : d₀.Keeps d) : d₀.Keeps d.slotErased := by
  have ended := h.calm (Device.Calm.refl d).endErase
  have counted (n : Nat) := ended.setConsent { d.endErase.consent with formatErased := n }
  refine .ite (.ite ?_ (.ite (counted _).beginFormatCheckpoint (counted _))) (.ite ?_ ended)
  · refine (counted _).setEngine _ ?_
    rfl
  · refine ended.setWriter _ ?_ ?_
    exacts [id, id]

theorem pulsePassed (h : d₀.Keeps d) (x : EraseContext) (c : CurrentErase) : d₀.Keeps (d.pulsePassed x c) := by
  have counted : d₀.Keeps { d with eraseDonePulses := x.pulses + 1 } := h.calm (.of_same rfl rfl (fun _ => rfl) rfl rfl rfl)
  rcases d.pulsePassed_cases x c with ⟨-, hp⟩ | ⟨-, hp⟩ <;> rw [hp]
  exacts [counted.queueErased _, counted.slotErased]

theorem pulseFailed (h : d₀.Keeps d) {x : EraseContext} (c : CurrentErase) (hx : d.eraseCtx = some x) :
    d₀.Keeps (d.pulseFailed x c) := by
  unfold Device.pulseFailed
  refine .ite (h.calm ((Device.Calm.refl d).setCtx hx rfl)) ?_
  unfold Device.eraseFail
  split
  · exact h.queueFailed _
  · exact (h.calm (Device.Calm.refl d).endErase).haltWriter

/-! ### Mount -/

/-- The writer as mount hands it over: an empty buffer, and no page in flight. -/
theorem handOver (h : d₀.Keeps d) (w : Writer) (m : Mount) (hs : w.staging = []) (hg : w.inFlight = none)
    (hd : w.durableSerial ≤ w.nextSerial - 1) (hz : w.snapshot = 0) :
    d₀.Keeps { d with writer := w, mount := m } := by
  refine h.trans ⟨.of_writer rfl rfl (fun _ => rfl) rfl rfl fun _ => ?_, fun _ => by simp [hs]⟩
  refine ⟨by simp [hs], by simp [hs], hd, by simp [hg], ?_⟩
  rw [hz]
  split <;> exact Nat.zero_le _

theorem mountDone (h : d₀.Keeps d) : d₀.Keeps d.mountDone :=
  (h.handOver d.mount.writer (d.mount.over .done) rfl rfl (Nat.le_refl _) rfl).calm ((Device.Calm.refl _).enterState _)

theorem finishMount (h : d₀.Keeps d) : d₀.Keeps d.finishMount := by
  refine mountDone (h.calm ((Device.Calm.refl d).seedTables.mountChains.mountCursors.trans (.foldl (fun d st => ?_) _ _)))
  exact (Device.Calm.refl d).mountPasses st

theorem mountBlank (h : d₀.Keeps d) : d₀.Keeps d.mountBlank := by
  unfold Device.mountBlank
  generalize dataSectors = l
  have queued : d.Calm (l.foldl (fun d n => d.setSector n { Sector.blank with state := .queued }) d) :=
    .foldl (fun d n => (Device.Calm.refl d).setSector n _) _ _
  refine Keeps.calm (handOver (d := { List.foldl _ d l with eraseQueue := l }) ?_ _ _ rfl rfl (Nat.le_refl _) rfl)
    ((Device.Calm.refl _).enterState _)
  exact (h.calm queued).setEraseQueue l

theorem scanFrom (h : d₀.Keeps d) (n : Nat) : d₀.Keeps (d.scanFrom n) := by
  unfold Device.scanFrom
  split
  exacts [h.setArrayOp _, (h.setArrayOp _).finishMount]

theorem setMount (h : d₀.Keeps d) (m : Mount) : d₀.Keeps { d with mount := m } := h.calm ((Device.Calm.refl d).setMount m)

theorem mountReadDone (h : d₀.Keeps d) (flash : Flash) (sector page : Nat) :
    d₀.Keeps (d.mountReadDone flash sector page) := by
  unfold Device.mountReadDone
  refine .ite (h.setArrayOp _) (.ite (h.setArrayOp _) (.ite ?_ ((h.setMount _).scanFrom _)))
  unfold Device.metaScanEnds
  split
  exacts [(h.setArrayOp _).mountBlank, (h.setMount _).scanFrom _]

/-! ### Grants -/

theorem executorGrant (h : d₀.Keeps d) (p : Port) : d₀.Keeps (d.executorGrant p) := by
  unfold Device.executorGrant
  split
  · exact h.calm ((Device.Calm.refl d).grantRead _ _ _)
  · split
    · exact h.grantStep1 _ _
    · exact h.grantStep2 _ _
    all_goals exact h.release.rest p
  all_goals exact h.release.rest p

theorem grant (h : d₀.Keeps d) (c : Claimant) : d₀.Keeps (d.grant c) := by
  have held (x : Arbiter) : d₀.Keeps { d with arbiter := x } := h.calm ((Device.Calm.refl d).setArbiter x)
  cases c with
  | writer => exact (held _).writerGrant
  | engine => exact (held _).calm (Device.Calm.refl _).engineGrant
  | executor p => exact executorGrant (held { d.arbiter with holder := some (.executor p), pointer := p }) p

end Device.Keeps

/-! ### The consequences of an event -/

namespace Device

variable {d d' : Device}

theorem stepPurge_keeps (h : d.stepPurge = some d') : d.Keeps d' := by
  unfold Device.stepPurge at h
  split at h
  · split at h
    · cases h; exact (Keeps.refl d).tryPurge
    · split at h <;> cases h
      exact (Keeps.refl d).tryPurge
  · split at h <;> cases h
    exact (Keeps.refl d).tryPurge
  all_goals cases h

/-- A request is taken only where its response has a slot (R166). -/
theorem stepTake_keeps {p : Port} (h : d.stepTake p = some d') : d.Keeps d' := by
  unfold Device.stepTake at h
  split at h
  · rename_i hcan
    cases h
    unfold Device.canTake at hcan
    exact (Keeps.refl d).takeRequest p (of_decide_eq_true (Bool.and_eq_true_iff.mp hcan).2)
  · split at h <;> cases h
    exact ((Calm.refl d).toExecState _ _).keeps

theorem stepClaim_keeps (h : d.stepClaim = some d') : d.Keeps d' := by
  unfold Device.stepClaim at h
  split at h
  · split at h
    · split at h <;> cases h
      exacts [(Keeps.refl d).setState _, (Keeps.refl d).haltWriter]
    · split at h <;> cases h
      exact (Keeps.refl d).setState _
  · cases h

theorem writerStopMove_ordered {w w' : Writer} {onArray : Bool} (h : w.stopMove onArray = some w') :
    w'.staging = w.staging ∧ (w.ordered → w'.ordered) := by
  unfold Writer.stopMove at h
  repeat' split at h
  all_goals first | (cases h; done) | (cases h; exact ⟨rfl, id⟩)

theorem stopMove_keeps (h : d.stopMove = some d') : d.Keeps d' := by
  unfold Device.stopMove at h
  split at h
  · obtain ⟨w, hw, rfl⟩ := Option.map_eq_some_iff.mp h
    obtain ⟨hs, ho⟩ := writerStopMove_ordered hw
    exact (Keeps.refl d).setWriter w ho fun hlen => by rwa [hs]
  · cases h

theorem stepGrant_keeps (h : d.stepGrant = some d') : d.Keeps d' := by
  unfold Device.stepGrant at h
  split at h
  · obtain ⟨c, -, rfl⟩ := Option.map_eq_some_iff.mp h
    exact (Keeps.refl d).grant c
  · cases h

/-- A consequence taken on a condition. -/
theorem keeps_of_ite {c : Prop} [Decidable c] {x : Device} (hx : c → d.Keeps x)
    (h : (if c then some x else none) = some d') : d.Keeps d' := by
  split at h <;> cases h
  exact hx ‹_›

theorem consequence_keeps (h : d.consequence = some d') : d.Keeps d' := by
  unfold Device.consequence at h
  simp only [Option.orElse_eq_orElse, Option.orElse_eq_or, Option.or_eq_some_iff] at h
  rcases h with h | ⟨-, h⟩
  · exact stepPurge_keeps h
  rcases h with h | ⟨-, h | ⟨-, h | ⟨-, h⟩⟩⟩
  · exact stepTake_keeps h
  · exact stepTake_keeps h
  · exact stepTake_keeps h
  rcases h with h | ⟨-, h | ⟨-, h | ⟨-, h | ⟨-, h⟩⟩⟩⟩
  · exact keeps_of_ite (fun _ => ((Calm.refl d).enterChoice _).keeps) h
  · exact keeps_of_ite (fun _ => (Keeps.refl d).beginCompaction) h
  · exact keeps_of_ite (fun _ => (Keeps.refl d).takeSnapshot) h
  · exact stepClaim_keeps h
  rcases h with h | ⟨-, h | ⟨-, h | ⟨-, h | ⟨-, h⟩⟩⟩⟩
  · exact keeps_of_ite (fun hmust => ((Calm.refl d).suspend hmust).keeps) h
  · exact stopMove_keeps h
  · exact stepGrant_keeps h
  · refine keeps_of_ite (fun _ => ?_) h
    exact (Keeps.refl d).setUnits d.writer _ _ rfl id id
  · exact keeps_of_ite (fun _ => (Keeps.refl d).enterStopped) h

theorem settleFor_keeps (fuel : Nat) (d : Device) : d.Keeps (settleFor fuel d) := by
  induction fuel generalizing d with
  | zero => exact .refl d
  | succ fuel ih =>
    rw [settleFor]
    split
    · exact .refl d
    · exact (consequence_keeps ‹_›).trans (ih _)

theorem settle_keeps (d : Device) : d.Keeps d.settle := settleFor_keeps _ d

end Device

end Sys2Proof.Machine
end

