-- ==== Sys2Proof/Proofs/KeepingCommands.lean ====
section
/-! What every command keeps of the queues, the suspension budget and the metadata writer's serials, and with it the
three step invariants about them. -/

namespace Sys2Proof.Machine

open Sys2Proof

-- One process elaborates the whole text: proofs taken in turn stay within its memory.
set_option Elab.async false

/-! ### Link transactions -/

namespace Device.Calm

variable {d₀ d : Device}

theorem transactionOver (h : d₀.Calm d) (p : Port) (out : List Byte) : d₀.Calm (d.transactionOver p out) :=
  h.setPort _ _ (Nat.le_refl _) (Nat.le_refl _)

theorem fetchEnds (h : d₀.Calm d) (p : Port) (shifted : Nat) : d₀.Calm (d.fetchEnds p shifted) := by
  have removed := (h.transactionOver p ((d.opening p).fetchOut shifted)).setPort p
    { (d.transactionOver p ((d.opening p).fetchOut shifted)).port p with
      responses := ((d.transactionOver p ((d.opening p).fetchOut shifted)).port p).responses.drop 1 }
    (Nat.le_refl _) (by simp)
  exact .ite removed (h.transactionOver _ _)

end Device.Calm

namespace Device.Keeps

variable {d₀ d : Device}

theorem transactionOver (h : d₀.Keeps d) (p : Port) (out : List Byte) : d₀.Keeps (d.transactionOver p out) :=
  h.calm ((Device.Calm.refl d).transactionOver p out)

theorem transactionEnds (h : d₀.Keeps d) (p : Port) (code : Byte) (rest : List Byte) :
    d₀.Keeps (d.transactionEnds p code rest) := by
  unfold Device.transactionEnds
  split
  · unfold Device.sendEnds
    split
    exacts [h.transactionOver _ _, h.transactionOver _ _, (h.transactionOver _ _).arrive _ _]
  · exact h.calm ((Device.Calm.refl d).fetchEnds _ _)
  · exact .ite (h.transactionOver _ _) ((h.transactionOver _ _).linkReset _)
  · exact h.transactionOver _ _

/-! ### Pins and supply -/

/-- The part at power-up satisfies each invariant by itself (R177). -/
theorem powerUp (d : Device) (powered resetLow pfail : Bool) (draws : Nat) :
    d.Keeps (Device.powerUp powered resetLow pfail draws) := by
  refine ⟨⟨fun _ => ?_, fun _ => ?_, fun _ => ?_, (remounted d powered resetLow pfail draws).budget,
    (remounted d powered resetLow pfail draws).order⟩, fun _ => Nat.zero_le _⟩ <;> intro p <;> cases p
  all_goals first | exact ⟨rfl, List.Pairwise.nil⟩ | rfl | exact Nat.zero_le 4

theorem restart (d : Device) : d.Keeps d.restart :=
  (powerUp d _ _ _ _).beginMount.trans (Device.settle_keeps _)

theorem setPins (h : d₀.Keeps d) (powered resetLow pfail : Bool) :
    d₀.Keeps { d with powered := powered, resetLow := resetLow, pfail := pfail } :=
  h.calm (.of_same rfl rfl (fun _ => rfl) rfl rfl rfl)

theorem pfailRises (h : d₀.Keeps d) : d₀.Keeps d.pfailRises := by
  have raised : d₀.Keeps { d with pfail := true } := h.setPins _ _ _
  exact .ite raised.enterStopping raised

theorem pfailFalls (h : d₀.Keeps d) : d₀.Keeps d.pfailFalls := by
  have fallen : d₀.Keeps { d with pfail := false } := h.setPins _ _ _
  exact .ite fallen.beginMount fallen

/-! ### Timers -/

theorem spaceTimeout {d' : Device} {p : Port} (h : d.spaceTimeout p = some d') : d.Keeps d' := by
  have left : d.Keeps (d.leaveSpace p) := ((Device.Calm.refl d).setSpaceWait _).keeps
  unfold Device.spaceTimeout at h
  split at h
  · dsimp only at h
    split at h <;> cases h <;> exact left.answer _ _ _
  · cases h

theorem flushTimeout {d' : Device} (h : d.flushTimeout = some d') : d.Keeps d' := by
  unfold Device.flushTimeout at h
  refine Device.keeps_of_ite (fun _ => ?_) h
  exact (refl d).setWriter _ id id

theorem starvationTimeout {d' : Device} (h : d.starvationTimeout = some d') : d.Keeps d' := by
  unfold Device.starvationTimeout at h
  exact Device.keeps_of_ite (fun _ => ((Device.Calm.refl d).setArbiter _).keeps) h

/-- The run timer's end uses no suspension (R89). -/
theorem runTimeout {d' : Device} (h : d.runTimeout = some d') : d.Keeps d' := by
  unfold Device.runTimeout at h
  split at h
  · cases h
  · rename_i c hc
    refine Device.keeps_of_ite (fun _ => Device.Calm.keeps ?_) h
    refine .of_erase rfl rfl (fun _ => rfl) rfl fun hd c' x hc' hx => ?_
    cases hc'
    exact hd c x hc hx

theorem windowTimeout {d' : Device} (h : d.windowTimeout = some d') : d.Keeps d' := by
  unfold Device.windowTimeout at h
  split at h
  · cases h
  · cases h
    exact ((Device.Calm.refl d).closeBallot _).keeps

end Device.Keeps

/-! ### Reports -/

/-- What a report makes of the part, if it can occur, keeps the invariants. -/
def Device.KeepsIn (d : Device) (r : Option Rig) : Prop := ∀ x, r = some x → d.Keeps x.1

namespace Device.KeepsIn

variable {d d' : Device} {flash flash' : Flash}

theorem none : d.KeepsIn none := fun _ h => nomatch h

theorem some (h : d.Keeps d') : d.KeepsIn (some (d', flash)) := by
  rintro _ ⟨⟩
  exact h

theorem ite {c : Prop} [Decidable c] {x y : Option Rig} (hx : d.KeepsIn x) (hy : d.KeepsIn y) :
    d.KeepsIn (if c then x else y) := by
  split
  exacts [hx, hy]

end Device.KeepsIn

/-- What the end of a program step changes of the part: the pulses reported, and the draws. -/
def Device.ran (d : Device) (pulses draws : Nat) : Device := { d with pulses := pulses, draws := draws }

theorem Device.stepPasses_ran {d d' : Device} {flash flash' : Flash} (h : d.stepPasses flash = some (d', flash')) :
    ∃ pulses draws, d' = d.ran pulses draws := by
  unfold Device.stepPasses at h
  split at h
  · dsimp only at h
    split at h <;> cases h
    exact ⟨_, _, rfl⟩
  all_goals cases h

theorem Device.stepFails_ran {d d' : Device} {flash flash' : Flash} (h : d.stepFails flash = some (d', flash')) :
    ∃ pulses draws, d' = d.ran pulses draws := by
  unfold Device.stepFails at h
  split at h
  · dsimp only at h
    split at h <;> cases h
    exact ⟨_, _, rfl⟩
  all_goals cases h

theorem Device.stepEnds_ran {d d' : Device} {flash flash' : Flash} {verified : Bool}
    (h : d.stepEnds flash verified = some (d', flash')) : ∃ pulses draws, d' = d.ran pulses draws := by
  unfold Device.stepEnds at h
  split at h
  exacts [stepPasses_ran h, stepFails_ran h]

theorem Device.Keeps.ran (d : Device) (pulses draws : Nat) : d.Keeps (d.ran pulses draws) :=
  Device.Calm.keeps (.of_same rfl rfl (fun _ => rfl) rfl rfl rfl)

namespace Device.KeepsIn

variable {d : Device} {flash : Flash}

theorem readPageDone : d.KeepsIn (d.readPageDone flash) := by
  have calm {d' : Device} (h : d.release.Calm d') : d.KeepsIn (Option.some (d', flash)) :=
    .some ((Device.Keeps.refl d).release.calm h)
  unfold Device.readPageDone
  split
  · exact none
  · dsimp only
    split
    exacts [calm ((Device.Calm.refl _).rest _), calm ((Device.Calm.refl _).readOutcome _ _ _ _ _)]

theorem mountPageDone : d.KeepsIn (d.mountPageDone flash) := by
  unfold Device.mountPageDone
  split
  · refine ite (some ((Device.Keeps.refl d).mountReadDone _ _ _)) (some ?_)
    exact (Device.Keeps.refl d).setArrayOp _
  · exact none

end Device.KeepsIn

namespace Device.Keeps

variable {d₀ d : Device}

theorem endAppend (h : d₀.Keeps d) (p : Port) : d₀.Keeps (d.endAppend p) := (h.leavePlaceWait _).answer _ _ _

theorem commitRecord (h : d₀.Keeps d) (j : AppendJob) (b : StreamBody) : d₀.Keeps (d.commitRecord j b).1 :=
  h.calm (((((Device.Calm.refl d).setPageState _ _ _).setBody _ _).evalBacklogs _).reclaim _)

theorem failPage (h : d₀.Keeps d) (j : AppendJob) : d₀.Keeps (d.failPage j).1 :=
  h.calm (((((Device.Calm.refl d).setSector _ _).recount _).evalHigh _).reclaim _)

end Device.Keeps

namespace Device.KeepsIn

variable {d : Device} {flash : Flash}

theorem appendStep1Done : d.KeepsIn (d.appendStep1Done flash) := by
  unfold Device.appendStep1Done
  split
  · obtain ⟨pulses, draws, rfl⟩ := Device.stepPasses_ran ‹_›
    have released := (Device.Keeps.ran d pulses draws).release
    exact ite (ite (some ((released.abandonPage _ _).endAppend _)) (some (released.toExec _ _ _))) none
  · exact none

theorem appendStep2Done : d.KeepsIn (d.appendStep2Done flash) := by
  unfold Device.appendStep2Done
  split
  · obtain ⟨pulses, draws, rfl⟩ := Device.stepPasses_ran ‹_›
    split
    · exact none
    · have staged (p : Port) (j : AppendJob) (b : StreamBody) (es : List MetaEntry) :=
        ((Device.Keeps.ran d pulses draws).release.commitRecord j b).stageOutcome p j es
      exact ite (ite (some ((staged _ _ _ _).endAppend _)) (ite (some ((staged _ _ _ _).answer _ _ _))
        (some ((staged _ _ _ _).toExec _ _ _)))) none
  · exact none

theorem appendStepFail : d.KeepsIn (d.appendStepFail flash) := by
  unfold Device.appendStepFail
  split
  · obtain ⟨pulses, draws, rfl⟩ := Device.stepFails_ran ‹_›
    have staged (p : Port) (j k : AppendJob) (es : List MetaEntry) :=
      ((Device.Keeps.ran d pulses draws).failPage j).stageOutcome p k es
    refine ite (ite (some ((staged _ _ _ _).release.endAppend _)) (some ?_)) none
    exact ((staged _ _ _ _).toExec _ _ _).setArrayOp _
  · exact none

theorem appendVoidEnd (verified : Bool) : d.KeepsIn (d.appendVoidEnd verified flash) := by
  unfold Device.appendVoidEnd
  split
  · obtain ⟨pulses, draws, rfl⟩ := Device.stepEnds_ran ‹_›
    have released := (Device.Keeps.ran d pulses draws).release
    exact ite (ite (some (released.endAppend _)) (ite (some (released.afterFailure _ _))
      (some (released.toExec _ _ _)))) none
  · exact none

/-- The page on the array is the writer's page in flight. -/
theorem metaOnArray {g : PageInFlight} (h : d.metaOnArray = Option.some g) : d.writer.inFlight = Option.some g := by
  unfold Device.metaOnArray at h
  split at h
  exacts [h, nomatch h]

theorem metaStep1Done : d.KeepsIn (d.metaStep1Done flash) := by
  unfold Device.metaStep1Done
  split
  · obtain ⟨pulses, draws, rfl⟩ := Device.stepPasses_ran ‹_›
    exact ite (some ((Device.Keeps.ran d _ _).metaStep1Ends _)) none
  · exact none

theorem metaStep2Done : d.KeepsIn (d.metaStep2Done flash) := by
  unfold Device.metaStep2Done
  split
  · rename_i g _ _ hg hs
    obtain ⟨pulses, draws, rfl⟩ := Device.stepPasses_ran hs
    split
    · rename_i hkind
      simp only [Bool.and_eq_true, beq_iff_eq] at hkind
      exact some ((Device.Keeps.ran d _ _).journalCommitted (g := g) (metaOnArray hg) hkind.2)
    · exact none
  · exact none

theorem checkpointStep2Done : d.KeepsIn (d.checkpointStep2Done flash) := by
  unfold Device.checkpointStep2Done
  split
  · obtain ⟨pulses, draws, rfl⟩ := Device.stepPasses_ran ‹_›
    exact ite (some ((Device.Keeps.ran d _ _).checkpointCommitted _)) none
  · exact none

theorem metaStepFail : d.KeepsIn (d.metaStepFail flash) := by
  unfold Device.metaStepFail
  split
  · rename_i g _ _ hg hs
    obtain ⟨pulses, draws, rfl⟩ := Device.stepFails_ran hs
    refine ite none (some ?_)
    exact ((Device.Keeps.ran d pulses draws).setInFlight (g := g) (g' := { g with voiding := true })
      (d.ran pulses draws).writer.state (metaOnArray hg) rfl rfl rfl).setArrayOp _
  · exact none

theorem metaVoidEnd (verified : Bool) : d.KeepsIn (d.metaVoidEnd verified flash) := by
  unfold Device.metaVoidEnd
  split
  · obtain ⟨pulses, draws, rfl⟩ := Device.stepEnds_ran ‹_›
    exact ite (some ((Device.Keeps.ran d _ _).metaVoided _)) none
  · exact none

theorem erasePulseEnd (verified : Bool) : d.KeepsIn (d.erasePulseEnd verified flash) := by
  unfold Device.erasePulseEnd
  split
  · exact ite (ite (some ((Device.Keeps.refl d).pulsePassed _ _))
      (some (((Device.Calm.refl d).drawn.keeps).pulseFailed _ (by assumption)))) none
  · exact none

theorem suspendedReport : d.KeepsIn (d.suspendedReport flash) := by
  unfold Device.suspendedReport
  split
  · rename_i hx hc
    split
    · rename_i hphase
      simp only [Bool.and_eq_true, beq_iff_eq] at hphase
      exact some ((Device.Calm.refl d).drawn.eraseSuspended hx hc hphase.1.2).keeps
    · exact none
  · exact none

theorem abandonedReport : d.KeepsIn (d.abandonedReport flash) := by
  unfold Device.abandonedReport
  split
  · exact ite (some (Device.Calm.refl d).drawn.eraseAbandoned.keeps) none
  · exact none

end Device.KeepsIn

/-! ### Commands -/

theorem State.event_keeps {s : State} {f : Device → Option Device} (hf : ∀ d', f s.dev = some d' → s.dev.Keeps d') :
    s.dev.Keeps (s.event f).dev := by
  unfold State.event
  split
  · split
    exacts [(hf _ ‹_›).trans (Device.settle_keeps _), .refl _]
  · exact .refl _

theorem State.report_keeps {s : State} {f : Device → Flash → Option Rig} (hf : s.dev.KeepsIn (f s.dev s.flash)) :
    s.dev.Keeps (s.report f).dev := by
  unfold State.report
  split
  · split
    · exact Device.Keeps.trans (hf _ ‹_›) (Device.settle_keeps _)
    · exact .refl _
  · exact .refl _

theorem State.arrival_keeps (s : State) (p : Port) (r : Request) : s.dev.Keeps (s.arrival p r).dev :=
  State.event_keeps fun _ h => by cases h; exact (Device.Keeps.refl _).arrive p r

theorem State.transaction_keeps (s : State) (p : Port) (code : Byte) (rest : Edge (List Byte)) :
    s.dev.Keeps (s.transaction p code rest).dev := by
  refine State.event_keeps fun d' h => ?_
  cases rest with
  | ends bytes => cases h; exact (Device.Keeps.refl _).transactionEnds _ _ _
  | begins =>
    dsimp only [Device.transactionBegins] at h
    split at h <;> cases h
    exact ((Device.Calm.refl s.dev).setPort p { s.dev.port p with begun := some (s.dev.sample p) } (Nat.le_refl _)
      (Nat.le_refl _)).keeps

theorem exec_keeps {c : Instr} {s t : State} (h : exec c s = .next t) : s.dev.Keeps t.dev := by
  cases c <;> cases h
  case send => exact s.transaction_keeps _ _ _
  case fetch => exact s.transaction_keeps _ _ _
  case linkReset => exact s.transaction_keeps _ _ _
  case otherTransactionCode => exact s.transaction_keeps _ _ _
  case resetnAsserted => split; exacts [.refl _, .powerUp _ _ _ _ _]
  case supplyLoss => split; exacts [.powerUp _ _ _ _ _, .refl _]
  case resetnReleased =>
    have low : s.dev.Keeps { s.dev with resetLow := false } := (Device.Keeps.refl _).setPins _ _ _
    split
    · dsimp only
      split
      exacts [low.trans (.restart _), low]
    · exact .refl _
  case endOfPowerUp =>
    have supplied : s.dev.Keeps { s.dev with powered := true } := (Device.Keeps.refl _).setPins _ _ _
    split
    · exact .refl _
    · dsimp only
      split
      exacts [supplied, supplied.trans (.restart _)]
  case pfailAsserted =>
    split
    · exact State.event_keeps fun _ h => by cases h; exact (Device.Keeps.refl _).pfailRises
    · exact (Device.Keeps.refl _).setPins _ _ _
  case pfailReleased =>
    split
    · exact State.event_keeps fun _ h => by cases h; exact (Device.Keeps.refl _).pfailFalls
    · exact (Device.Keeps.refl _).setPins _ _ _
  case spaceTimerExpiry => exact State.event_keeps fun _ => Device.Keeps.spaceTimeout
  case flushTimerExpiry => exact State.event_keeps fun _ => Device.Keeps.flushTimeout
  case starvationTimerExpiry => exact State.event_keeps fun _ => Device.Keeps.starvationTimeout
  case runTimerExpiry => exact State.event_keeps fun _ => Device.Keeps.runTimeout
  case windowTimerExpiry => exact State.event_keeps fun _ => Device.Keeps.windowTimeout
  case readPageDone => exact State.report_keeps Device.KeepsIn.readPageDone
  case mountReadDone => exact State.report_keeps Device.KeepsIn.mountPageDone
  case appendStep1Done => exact State.report_keeps Device.KeepsIn.appendStep1Done
  case appendStep2Done => exact State.report_keeps Device.KeepsIn.appendStep2Done
  case appendStepFail => exact State.report_keeps Device.KeepsIn.appendStepFail
  case appendVoidStepEnd verified => exact State.report_keeps (Device.KeepsIn.appendVoidEnd verified)
  case metaStep1Done => exact State.report_keeps Device.KeepsIn.metaStep1Done
  case metaStep2Done => exact State.report_keeps Device.KeepsIn.metaStep2Done
  case metaStepFail => exact State.report_keeps Device.KeepsIn.metaStepFail
  case metaVoidStepEnd verified => exact State.report_keeps (Device.KeepsIn.metaVoidEnd verified)
  case checkpointPageCommit => exact State.report_keeps Device.KeepsIn.checkpointStep2Done
  case erasePulseEnd verified => exact State.report_keeps (Device.KeepsIn.erasePulseEnd verified)
  case suspended => exact State.report_keeps Device.KeepsIn.suspendedReport
  case abandoned => exact State.report_keeps Device.KeepsIn.abandonedReport
  all_goals exact s.arrival_keeps _ _

theorem step_keepsInvariants {s t : State} (h : step s = .next t) : s.dev.Keeps t.dev :=
  step_keeps (P := fun d _ => s.dev.Keeps d) (fun _ _ _ hs ht => hs.trans (exec_keeps ht)) (.refl _) h

/-- Settles O55: every operation that offers an event, answers or takes a request keeps its queue. -/
theorem queuesStayGood : Obligations.QueuesStayGood :=
  ⟨fun _ _ hs h => (step_keepsInvariants h).events hs,
    fun _ _ hs h => ⟨(step_keepsInvariants h).requests hs.1, (step_keepsInvariants h).slots hs.2⟩⟩

/-- Settles O56: SUSPEND is issued with budget left alone, and its report counts the one under way. -/
theorem suspensionsStayInBudget : Obligations.SuspensionsStayInBudget :=
  fun _ _ hs h => (step_keepsInvariants h).budget hs

/-- Settles O59: every operation that stages has counted its places. -/
theorem journalStaysInOrder : Obligations.JournalStaysInOrder := by
  intro s t hs h
  obtain ⟨hlen, hord⟩ := (Writer.good_iff _).mp hs
  exact (Writer.good_iff _).mpr ⟨(step_keepsInvariants h).places hlen, (step_keepsInvariants h).order hord⟩

end Sys2Proof.Machine
end

