-- ==== Sys2Proof/Proofs/LinkTransactions.lean ====
section
/-! Request frames as they are classified (R162, R164), and what SEND and FETCH do (R160, R164 to R166). -/

namespace Sys2Proof.Machine

open Sys2Proof

-- One process elaborates the whole text: proofs taken in turn stay within its memory.
set_option Elab.async false

/-! ### Frames -/

/-- A frame of another length than its body length field gives is bad (R164). -/
theorem classifyFrame_of_length {bytes : List Byte} (h : bytes.length ≠ 5 + (byteAt bytes 2).toNat) :
    classifyFrame bytes = .frame := by
  simp [classifyFrame, h]

/-- A frame of its own length is good where its CRC is that of the bytes before it (R162, R164). -/
theorem classifyFrame_framed (tag kind : Byte) {body crc : List Byte} (hb : body.length ≤ 250) (hc : crc.length = 2) :
    classifyFrame (tag :: kind :: BitVec.ofNat 8 body.length :: body ++ crc) =
      if crcBytes (tag :: kind :: BitVec.ofNat 8 body.length :: body) = crc then
        match kindOfCode kind.toNat with
        | none => .unknown tag kind
        | some k => .known tag k body
      else .frame := by
  have hlen : (BitVec.ofNat 8 body.length).toNat = body.length := toNat_ofNat_byte (by omega)
  have hcovered : (tag :: kind :: BitVec.ofNat 8 body.length :: body ++ crc).take (3 + body.length) =
      tag :: kind :: BitVec.ofNat 8 body.length :: body := List.take_left' (by simp; omega)
  have hcrc : bytesAt (tag :: kind :: BitVec.ofNat 8 body.length :: body ++ crc) (3 + body.length) 2 = crc := by
    rw [bytesAt, List.drop_left' (by simp; omega), List.take_of_length_le (by omega)]
  have hbody : bytesAt (tag :: kind :: BitVec.ofNat 8 body.length :: body ++ crc) 3 body.length = body := by
    simp [bytesAt]
  have hfield : byteAt (tag :: kind :: BitVec.ofNat 8 body.length :: body ++ crc) 2 = BitVec.ofNat 8 body.length := rfl
  have htotal : (tag :: kind :: BitVec.ofNat 8 body.length :: body ++ crc).length = 5 + body.length := by
    simp; omega
  unfold classifyFrame
  dsimp only
  rw [hfield, hlen, hcovered, hcrc, htotal, hbody]
  by_cases h : crcBytes (tag :: kind :: BitVec.ofNat 8 body.length :: body) = crc
  · rw [if_pos h, if_neg (by simp [h]; omega)]
    rfl
  · rw [if_neg h, if_pos (by simp [h])]

theorem classifyFrame_requestFrame (tag kind : Byte) {body : List Byte} (hb : body.length ≤ 250) :
    classifyFrame (requestFrame tag kind body) =
      match kindOfCode kind.toNat with
      | none => .unknown tag kind
      | some k => .known tag k body := by
  rw [show requestFrame tag kind body = tag :: kind :: BitVec.ofNat 8 body.length :: body ++
    crcBytes (tag :: kind :: BitVec.ofNat 8 body.length :: body) from rfl, classifyFrame_framed tag kind hb (by simp), if_pos rfl]

/-- The body length field of a frame, however the frame goes on. -/
theorem requestFrame_lengthField (tag kind : Byte) {body : List Byte} (hb : body.length ≤ 250) (more : List Byte) :
    (byteAt (requestFrame tag kind body ++ more) 2).toNat = body.length := toNat_ofNat_byte (by omega)

/-- A frame cut short. -/
theorem classifyFrame_cut (tag kind : Byte) {body : List Byte} (hb : body.length ≤ 250) {n : Nat}
    (hn : n < 5 + body.length) : classifyFrame ((requestFrame tag kind body).take n) = .frame := by
  apply classifyFrame_of_length
  rw [List.length_take, requestFrame_length]
  rcases Nat.lt_or_ge 2 n with h | h
  · have hfield : byteAt ((requestFrame tag kind body).take n) 2 = byteAt (requestFrame tag kind body ++ []) 2 := by
      simp [byteAt, List.getD_eq_getElem?_getD, h]
    rw [hfield, requestFrame_lengthField tag kind hb]
    omega
  · omega

/-- A kind code is unknown exactly outside 01h to 12h (R163). -/
theorem kindOfCode_none {kind : Byte} (h : knownKind kind = false) : kindOfCode kind.toNat = none := by
  revert kind
  decide

/-- Settles O5: each frame by the first check of R164 it fails. -/
theorem requestFrameIsItsRequest : Obligations.RequestFrameIsItsRequest := by
  intro tag body hfits
  have hb : body.length ≤ 250 := of_decide_eq_true hfits
  refine ⟨fun k => ?known, fun kind hk => ?unknown, fun kind n hn => classifyFrame_cut tag kind hb hn,
    fun kind x more => ?long, fun kind crc hc hne => ?crc, fun kind len rest hlen => ?field⟩
  case known => rw [classifyFrame_requestFrame _ _ hb, kindOfCode_byte]
  case unknown => rw [classifyFrame_requestFrame _ _ hb, kindOfCode_none hk]
  case long =>
    apply classifyFrame_of_length
    rw [requestFrame_lengthField tag kind hb, List.length_append, requestFrame_length, List.length_cons]
    omega
  case crc => rw [classifyFrame_framed _ _ hb hc, if_neg (Ne.symm hne)]
  case field =>
    have : byteAt (tag :: kind :: len :: rest) 2 = len := rfl
    simp [classifyFrame, this, hlen]

/-! ### Ends of transactions -/

/-- The end of a transaction, in its event (R160). -/
theorem State.transaction_ends {s : State} (ha : s.dev.active = true) (p : Port) (code : Byte) (bytes : List Byte) :
    s.transaction p code (.ends bytes) = s.onDev (s.dev.transactionEnds p code bytes).settle :=
  State.event_settle ha rfl

theorem Device.transactionEnds_send (d : Device) (p : Port) (rest : List Byte) :
    d.transactionEnds p 0x01#8 rest = d.sendEnds p rest := rfl

theorem Device.transactionEnds_fetch (d : Device) (p : Port) (rest : List Byte) :
    d.transactionEnds p 0x02#8 rest = d.fetchEnds p rest.length := rfl

theorem Device.transactionEnds_linkReset (d : Device) (p : Port) (rest : List Byte) :
    d.transactionEnds p 0x03#8 rest = d.linkResetEnds p rest.length := rfl

theorem transactionOfCode_other {code : Byte} (h : knownTransaction code = false) : transactionOfCode code = .other := by
  revert code
  decide

/-- Settles O6: the frame of a request is classified as that request, and its row is its arrival. -/
theorem sendOfAFrameIsItsArrival : Obligations.SendOfAFrameIsItsArrival := by
  intro s p second tag body k ha hfits x
  have hb : body.length ≤ 250 := of_decide_eq_true hfits
  have hframe : classifyFrame (requestFrame tag k.byte body) = .known tag k body := by
    rw [classifyFrame_requestFrame _ _ hb, kindOfCode_byte]
  have hout : x.statusOut (second :: requestFrame tag k.byte body).length =
      (x.status ++ List.replicate (5 + body.length) 0xFF#8).take (7 + body.length) := by
    have hshifted : (second :: requestFrame tag k.byte body).length = 6 + body.length := by
      rw [List.length_cons, requestFrame_length]
      omega
    rw [hshifted, Sample.statusOut, erasedByte, show 6 + body.length - 1 = 5 + body.length by omega,
      show 6 + body.length + 1 = 7 + body.length by omega]
  have harrival (d : Device) (r : Request) (hd : d.active = true) :
      (s.onDev d).arrival p r = s.onDev (d.arrive p r).settle := State.event_settle hd rfl
  rw [exec_command _ _ _ _ _ hfits, ← hframe, ← hout, harrival]
  · exact congrArg Host.Outcome.next (State.transaction_ends ha p 0x01#8 (second :: requestFrame tag k.byte body))
  · exact ha

theorem Device.sendEnds_poll (d : Device) (p : Port) {rest : List Byte} (h : rest.length ≤ 1) :
    d.sendEnds p rest = d.transactionOver p ((d.opening p).statusOut rest.length) := by
  match rest, h with
  | [], _ => rfl
  | [_], _ => rfl

theorem Device.sendEnds_entry (d : Device) (p : Port) {rest : List Byte} (h : 2 ≤ rest.length) :
    d.sendEnds p rest =
      (d.transactionOver p ((d.opening p).statusOut rest.length)).arrive p (classifyFrame (rest.drop 1)) := by
  match rest, h with
  | _ :: _ :: _, _ => rfl

/-- An executor that is neither IDLE nor waits for a slot takes nothing, and one without a response slot neither (R166).
-/
theorem Device.stepTake_none_of_busy {d : Device} {p : Port}
    (h : (d.exec p).state ≠ .idle ∧ (d.exec p).state ≠ .waitSlot ∨
      (d.exec p).state = .waitSlot ∧ 4 ≤ (d.port p).responses.length) : d.stepTake p = none := by
  rcases h with ⟨hidle, hslot⟩ | ⟨hslot, hfull⟩
  · simp [stepTake, canTake, hidle, hslot]
  · simp [stepTake, canTake, hslot, Config.queueSlots, Nat.not_lt.mpr hfull]

/-- Settles O7. -/
theorem sendPollsOrQueues : Obligations.SendPollsOrQueues := by
  refine ⟨fun s p code c ha hc => ?begins, fun d p => ?opening, fun s p code shifted ha hq hcode => ?other,
    fun s p rest ha hq => ?send⟩
  case begins =>
    have hevent : exec c s = .next (s.event fun d => d.transactionBegins p) := by
      rcases hc with rfl | rfl | rfl | rfl <;> rfl
    rw [hevent]
    rcases s.dev.transactionBegins_cases p with ⟨hnone, hbegins⟩ | ⟨hsome, hbegins⟩
    · refine ⟨fun hq _ => congrArg _ (State.event_quiet ha hbegins ?_), fun h => absurd hnone h⟩
      exact Device.quiet_setPort_same hq p { s.dev.port p with begun := some (s.dev.sample p) } rfl rfl
    · refine ⟨fun _ h => absurd h hsome, fun _ => ?_⟩
      simp [State.event, ha, hbegins]
  case opening => exact ⟨fun x hx => by simp [Device.opening, hx], fun h => by simp [Device.opening, h, Device.sample]⟩
  case other =>
    have hends : s.dev.transactionEnds p code (List.replicate shifted 0x00#8) =
        s.dev.transactionOver p ((s.dev.opening p).statusOut shifted) := by
      simp [Device.transactionEnds, transactionOfCode_other hcode]
    have hexec : exec (.otherTransactionCode p code (.ends shifted)) s =
        .next (s.transaction p code (.ends (List.replicate shifted 0x00#8))) := rfl
    rw [hexec, State.transaction_ends ha, hends, Device.settle_quiet (Device.quiet_transactionOver hq p _)]
    rfl
  case send =>
    intro out h
    have hexec : exec (.send p (.ends rest)) s = .next (s.onDev (s.dev.sendEnds p rest).settle) :=
      congrArg _ (State.transaction_ends ha p 0x01#8 rest)
    have hover : s.dev.transactionOver p ((s.dev.opening p).statusOut rest.length) = s.dev.setPort p h := rfl
    rw [hexec]
    refine ⟨fun hpoll => ?poll, fun hentry hfull => ?full, fun hentry hroom hbusy => ?queued⟩
    case poll => rw [Device.sendEnds_poll _ _ hpoll, Device.settle_quiet (Device.quiet_transactionOver hq p _), hover]
    case full =>
      have harrive (r : Request) : (s.dev.setPort p h).arrive p r = s.dev.setPort p { h with rejected := true } := by
        simp only [Device.arrive, Device.port_setPort, Config.queueSlots, if_pos hfull, Device.setPort_setPort]
        rfl
      rw [Device.sendEnds_entry _ _ hentry, hover, harrive]
      exact congrArg _ (congrArg _ (Device.settle_quiet (Device.quiet_setPort_same hq p { h with rejected := true } rfl rfl)))
    case queued =>
      have harrive (r : Request) : (s.dev.setPort p h).arrive p r =
          s.dev.setPort p { h with requests := h.requests ++ [r], rejected := false } := by
        simp only [Device.arrive, Device.port_setPort, Config.queueSlots, if_neg (Nat.not_le.mpr hroom),
          Device.setPort_setPort]
        rfl
      have hnone (x : HostPort) (hx : x.responses = h.responses) : (s.dev.setPort p x).stepTake p = none := by
        refine Device.stepTake_none_of_busy ?_
        rw [Device.port_setPort, hx]
        exact hbusy
      rw [Device.sendEnds_entry _ _ hentry, hover, harrive]
      refine congrArg _ (congrArg _ (Device.settle_quiet (Device.quiet_setPort hq p _ (hnone _ ?_))))
      rfl

/-! ### FETCH -/

/-- A FETCH that shifts out less than the whole frame, or began with no response, removes none (R165). -/
theorem Device.fetchEnds_keeps {d : Device} {p : Port} {shifted : Nat}
    (h : ((d.opening p).oldest.isSome && decide ((d.opening p).frame.length + 1 ≤ shifted)) = false) :
    d.fetchEnds p shifted = d.transactionOver p ((d.opening p).fetchOut shifted) := by
  simp only [fetchEnds, h]
  rfl

theorem Device.fetchEnds_removes {d : Device} {p : Port} {shifted : Nat}
    (h : ((d.opening p).oldest.isSome && decide ((d.opening p).frame.length + 1 ≤ shifted)) = true) :
    d.fetchEnds p shifted = d.setPort p { d.port p with
      sdo := (d.opening p).fetchOut shifted, begun := none, responses := (d.port p).responses.drop 1 } := by
  simp only [fetchEnds, h, if_true, transactionOver, port_setPort, setPort_setPort]

/-- A request at the front of a queue whose executor can take it is the event's first consequence at a part otherwise at
rest (R166). -/
theorem Device.consequence_take {d : Device} {p : Port} {x : HostPort} {q : Request} {rest : List Request} (h : d.quiet)
    (hx : x.requests = q :: rest) (hr : x.responses.length < 4)
    (he : (d.exec p).state = .idle ∨ (d.exec p).state = .waitSlot) :
    (d.setPort p x).consequence =
      some (((d.setPort p { x with requests := rest }).setExec p ⟨.check, some q, .none⟩).process p q) := by
  obtain ⟨h1, h2, h3, h4, -⟩ := (Device.quiet_iff d).mp h
  have take : (d.setPort p x).stepTake p =
      some (((d.setPort p { x with requests := rest }).setExec p ⟨.check, some q, .none⟩).process p q) := by
    have hc : (d.setPort p x).canTake p = true := by
      rcases he with he | he <;> simp [canTake, he, hx, hr, Config.queueSlots]
    simp only [stepTake, hc, if_true, takeRequest, port_setPort, hx, setPort_setPort]
  have others (r : Port) (hrp : r ≠ p) (hnone : d.stepTake r = none) : (d.setPort p x).stepTake r = none := by
    refine Device.stepTake_congr (d := d) rfl ?_ ?_ hnone <;> rw [port_setPort_other d p r x hrp]
  have purge : (d.setPort p x).stepPurge = none := Device.stepPurge_of_same h1 _ d.events d.cursors d.draws
  unfold Device.consequence
  rw [purge]
  cases p with
  | A => rw [take]; rfl
  | B => rw [others .A (by decide) h2, take]; rfl
  | C => rw [others .A (by decide) h2, others .B (by decide) h3, take]; rfl

/-- Settles O8. -/
theorem fetchShiftsTheOldestResponse : Obligations.FetchShiftsTheOldestResponse := by
  intro s p shifted ha hq x h
  have hexec : exec (.fetch p (.ends shifted)) s = .next (s.onDev (s.dev.fetchEnds p shifted).settle) := by
    refine congrArg _ ((State.transaction_ends ha p 0x02#8 (List.replicate shifted 0x00#8)).trans ?_)
    rw [Device.transactionEnds_fetch, List.length_replicate]
  rw [hexec]
  refine ⟨fun hnone => ?none, fun r hr => ?some⟩
  case none =>
    have hout : x.fetchOut shifted =
        (x.status ++ emptyFrame ++ List.replicate (shifted - 7) 0xFF#8).take (shifted + 1) := by
      simp [Sample.fetchOut, Sample.frame, hnone, Nat.sub_sub, erasedByte]
    have hkeeps : (x.oldest.isSome && decide (x.frame.length + 1 ≤ shifted)) = false := by simp [hnone]
    rw [Device.fetchEnds_keeps hkeeps,
      Device.settle_quiet (Device.quiet_transactionOver hq p _), ← hout]
    rfl
  case some =>
    intro out
    have hout : x.fetchOut shifted = out := by
      simp only [out, Sample.fetchOut, Sample.frame, hr, responseFrame_length, erasedByte, Nat.sub_sub]
      congr 3
      omega
    have hlen : x.frame.length + 1 = 7 + r.body.length := by
      simp only [Sample.frame, hr, responseFrame_length]
      omega
    refine ⟨fun hshort => ?short, fun hwhole => ?whole⟩
    case short =>
      have hkeeps : (x.oldest.isSome && decide (x.frame.length + 1 ≤ shifted)) = false := by
        rw [hlen, decide_eq_false (Nat.not_le.mpr hshort), Bool.and_false]
      rw [Device.fetchEnds_keeps hkeeps, Device.settle_quiet (Device.quiet_transactionOver hq p _)]
      exact congrArg _ (by rw [← hout]; rfl)
    case whole =>
      have hremoves : s.dev.fetchEnds p shifted =
          s.dev.setPort p { h with responses := h.responses.drop 1, sdo := out } := by
        have hremoves : (x.oldest.isSome && decide (x.frame.length + 1 ≤ shifted)) = true := by
          rw [hlen, hr, decide_eq_true hwhole]
          rfl
        rw [Device.fetchEnds_removes hremoves, ← hout]
      rw [hremoves]
      refine ⟨fun hidle => ?_, fun q queue hqueue hroom hstate => ?_⟩
      · refine congrArg _ (congrArg _ (Device.settle_quiet (Device.quiet_setPort hq p _ ?_)))
        rcases hidle with hempty | hbusy
        · exact Device.stepTake_none_of_empty (by rw [Device.port_setPort]; exact hempty)
        · exact Device.stepTake_none_of_busy (.inl hbusy)
      · exact congrArg _ (congrArg _ (Device.settle_of_consequence (Device.consequence_take
          (x := { h with responses := h.responses.drop 1, sdo := out }) hq hqueue hroom hstate)))

end Sys2Proof.Machine
end

