-- ==== Sys2Proof/Proofs/PortRequests.lean ====
section
/-! Requests that any port may make: ATTACH and DETACH, STATUS, QUERY, EVENTS and MASK (R156, R157, R168, R169, R171,
R172). -/

namespace Sys2Proof.Machine

open Sys2Proof

-- One process elaborates the whole text: proofs taken in turn stay within its memory.
set_option Elab.async false

/-! ### The part with a request in hand -/

section Received

variable (d : Device) (p : Port) (r : Request)

@[simp] theorem Device.received_attached (q : Port) : ((d.received p r).port q).attached = (d.port q).attached := by
  unfold Device.received
  by_cases h : q = p
  · subst h
    simp
  · rw [Device.port_setExec, Device.port_setPort_other _ _ _ _ h]

@[simp] theorem Device.received_mode : (d.received p r).mode = d.mode := rfl
@[simp] theorem Device.received_events : (d.received p r).events = d.events := rfl
@[simp] theorem Device.received_consent : (d.received p r).consent = d.consent := rfl
@[simp] theorem Device.received_writer : (d.received p r).writer = d.writer := rfl
@[simp] theorem Device.received_halting : (d.received p r).halting = d.halting := rfl
@[simp] theorem Device.received_stream (st : Fin 16) : (d.received p r).stream st = d.stream st := rfl
@[simp] theorem Device.received_cursor (st : Fin 16) (q : Port) : (d.received p r).cursor st q = d.cursor st q := rfl
@[simp] theorem Device.received_incarnation (st : Fin 16) : (d.received p r).incarnation st = d.incarnation st := rfl
@[simp] theorem Device.received_inHand : ((d.received p r).exec p).inHand = some r := by simp [Device.received]

/-- Offering events does not look at the request in hand. -/
theorem Device.received_offerSet (s : PortSet) (e : Event) :
    (d.received p r).offerSet s e = (d.offerSet s e).received p r := by
  have hevents : ((d.received p r).offerSet s e).events = (d.offerSet s e).events := by
    refine PerPort.ext_get fun q => ?_
    rw [Device.offerSet_events, Device.offerSet_events, Device.received_attached, Device.received_events]
  rw [Device.offerSet_frame (d.received p r), hevents, Device.offerSet_frame d]
  rfl

theorem Device.received_offer (q : Port) (e : Event) : (d.received p r).offer q e = (d.offer q e).received p r := by
  have hevents : ((d.received p r).offer q e).events = (d.offer q e).events := by
    refine PerPort.ext_get fun q' => ?_
    rw [Device.offer_events, Device.offer_events, Device.received_attached, Device.received_events]
  rw [Device.offer_frame (d.received p r), hevents, Device.offer_frame d]
  rfl

theorem Device.received_admission (q : Port) (m : Option Status) : (d.received p r).admission q m = d.admission q m := by
  unfold Device.admission
  rw [Device.received_attached]

theorem Device.received_namedStream (body : List Byte) : (d.received p r).namedStream body = d.namedStream body := rfl

end Received

/-- A request passes its device-state and attachment checks exactly so (R167). -/
theorem Device.admission_none {d : Device} {p : Port} (ha : (d.port p).attached = true) : d.admission p none = none := by
  simp [Device.admission, ha]

theorem readMode_of {m : DeviceState} (h : m = .ready ∨ m = .readOnly) : readMode m = none := by
  rcases h with rfl | rfl <;> rfl

theorem Device.namedStream_of {d : Device} {st : Fin 16} {b : StreamBody} (h : d.stream st = some b) (rest : List Byte) :
    d.namedStream (streamByte st :: rest) = .ok (st, b) := by
  have harg : streamArg (streamByte st :: rest) = some st := streamOfByte_streamByte st
  simp [Device.namedStream, harg, h]

/-! ### Answers -/

/-- A request whose rule comes to changes of a part otherwise at rest, with its port ready as before, and an answer. -/
theorem exec_command_replies {s : State} {p : Port} (h : s.dev.serves p) {k : Kind} {tag : Byte} {body : List Byte}
    {status : Status} {out : List Byte} (hb : bodyFits body = true) (hl : lengthGood k body = true) {d : Device}
    (hc : (s.dev.received p (.known tag k body)).carryOut p k body =
      (d.received p (.known tag k body)).answer p status out)
    (hready : d.ready p) (hquiet : d.quiet) :
    exec (k.command p tag body) s = .next (s.onDev (d.replied p (reply tag k status out))) := by
  rw [exec_command_awaits h.1 k tag body hb, Device.process_received h.2 hl, hc, Device.received_answer hready]
  exact congrArg _ (congrArg _ (Device.settled_quiet (Device.quiet_replied hquiet hready _ d.events d.cursors d.draws)))

/-- Readiness is a matter of the executor and the two queues alone (R166). -/
theorem Device.ready_congr {d d' : Device} {p : Port} (he : d'.exec p = d.exec p)
    (hq : (d'.port p).requests = (d.port p).requests) (hr : (d'.port p).responses = (d.port p).responses)
    (h : d.ready p) : d'.ready p := by
  unfold Device.ready at h ⊢
  rwa [he, hq, hr]

/-! ### Sessions -/

/-- The session opened: attached, its event unit at reset values (R168). -/
def Device.opened (d : Device) (p : Port) : Device :=
  { d.setPort p { d.port p with attached := true } with events := d.events.set p EventUnit.powerUp }

theorem Device.opened_received (d : Device) (p : Port) (r : Request) :
    ({ (d.received p r).setPort p { (d.received p r).port p with attached := true } with
        events := (d.received p r).events.set p EventUnit.powerUp } : Device) = (d.opened p).received p r := by
  simp [Device.received, Device.opened, Device.setPort, Device.setExec, Device.port]

theorem Device.takeAttach_detached {d : Device} {p : Port} (h : (d.port p).attached = false) (r : Request) :
    (d.received p r).takeAttach p =
      (((d.opened p).offerSet ((PerPort.all true).set p false) ⟨.peer, some (portCode p), some 1⟩).received p r).answer p .ok
        [BitVec.ofNat 8 (portCode p)] := by
  rw [← Device.received_offerSet, ← Device.opened_received, takeAttach]
  simp only [Device.received_attached, h]
  rfl

/-- Settles O13: the session's changes are those of a part at rest, and they leave it so. -/
theorem sessionsOpenAndClose : Obligations.SessionsOpenAndClose := by
  refine ⟨fun s p tag h => ⟨fun ha => ?again, fun ha => ?attach⟩, fun s p tag h ha => ?detach⟩
  case again =>
    refine exec_command_only_answers h .attach tag [] .ok _ rfl rfl ?_
    simp only [Device.carryOut, Device.takeAttach, Device.received_attached, ha, if_true]
  case attach =>
    have hquiet : (s.dev.opened p).quiet :=
      Device.quiet_setEvents (Device.quiet_setPort_same h.1.2.1 p { s.dev.port p with attached := true } rfl rfl) _
    refine exec_command_replies h (k := .attach) rfl rfl (Device.takeAttach_detached ha _) ?_ (Device.quiet_offerSet hquiet _ _)
    refine Device.ready_congr ?_ ?_ ?_ h.1.2.2
    · rw [Device.offerSet_frame]; rfl
    all_goals
      rw [Device.offerSet_port]
      simp [Device.setPort, Device.port]
  case detach =>
    intro d d₁ d₂
    have hcarry : (s.dev.received p (.known tag .detach [])).process p (.known tag .detach []) =
        (s.dev.replied p (reply tag .detach .ok [])).endSession p := by
      rw [Device.process_received h.2 rfl]
      simp only [Device.carryOut, Device.takeDetach, Device.received_attached, ha, lengthGood, Kind.bodyLength]
      exact congrArg (Device.endSession · p) (Device.received_answer h.1.2.2 _ _ _)
    have hquiet : (s.dev.replied p (reply tag .detach .ok [])).quiet :=
      Device.quiet_replied h.1.2.1 h.1.2.2 _ s.dev.events s.dev.cursors s.dev.draws
    refine (exec_command_awaits h.1 .detach tag [] rfl).trans ?_
    rw [hcarry, Device.settled_quiet (Device.quiet_endSession hquiet p)]
    rfl

/-! ### STATUS -/

theorem Device.streamCount_eq (d : Device) :
    d.streamCount = (List.finRange 16).countP fun st => (d.stream st).isSome := by
  rw [Device.streamCount, List.countP_eq_length_filter]

theorem Device.statusReport_length (d : Device) : d.statusReport.length = 26 := by
  unfold Device.statusReport Device.ballotReport
  cases d.consent.ballot <;> simp

/-- Settles O14. -/
theorem statusReportsTheTables : Obligations.StatusReportsTheTables := by
  intro s p tag h
  refine ⟨(s.dev.received p (.known tag .status [])).statusReport, Config.windowLeft s.dev.draws % (Config.ballotWindow + 1),
    Nat.le_of_lt_succ (Nat.mod_lt _ (Nat.succ_pos _)), Device.statusReport_length _, ?body, ?exec⟩
  case body =>
    have hports : portSetCode (s.dev.received p (.known tag .status [])).attachedPorts =
        (if (s.dev.port .A).attached then 1 else 0) + (if (s.dev.port .B).attached then 2 else 0) +
          (if (s.dev.port .C).attached then 4 else 0) := by
      rw [← Device.received_attached s.dev p (.known tag .status []) .A, ← Device.received_attached s.dev p (.known tag .status []) .B,
        ← Device.received_attached s.dev p (.known tag .status []) .C]
      rfl
    unfold Device.statusReport
    rw [hports, Device.streamCount_eq, Device.ballotReport, Device.received_consent]
    cases s.dev.consent.ballot <;> rfl
  case exec =>
    refine exec_command_answers h .status tag [] .ok _ rfl rfl s.dev.events s.dev.cursors (s.dev.draws + 1) ?_
    rw [Device.answer_frame]
    show ((s.dev.received p (.known tag .status [])).answer p .ok _).drawn = _
    rw [Device.answer_changes]
    rfl

/-! ### QUERY -/

theorem Device.takeQuery_answers {d : Device} {p : Port} {st : Fin 16} {b : StreamBody}
    (hm : d.mode = .ready ∨ d.mode = .readOnly) (ha : (d.port p).attached = true) (hs : d.stream st = some b) (r : Request) :
    (b.readers.get p = false → (d.received p r).takeQuery p [streamByte st] =
      (d.received p r).answer p .ok (b.report st (d.incarnation st))) ∧
    ∀ c, b.readers.get p = true → d.cursor st p = some c → (d.received p r).takeQuery p [streamByte st] =
      (d.received p r).answer p .ok (b.report st (d.incarnation st) ++ c.report b.next) := by
  rw [takeQuery, Device.received_admission, Device.received_mode, readMode_of hm, Device.admission_none ha,
    Device.received_namedStream, Device.namedStream_of hs]
  simp only [Device.received_cursor, Device.received_incarnation]
  refine ⟨fun hreader => ?_, fun c hreader hc => ?_⟩
  · simp [hreader]
  · simp [hreader, hc]

theorem StreamBody.report_length (b : StreamBody) (st : Fin 16) (inc : Byte) : (b.report st inc).length = 27 := by
  simp [StreamBody.report]

/-- Settles O15. -/
theorem queryReportsStreamAndCursor : Obligations.QueryReportsStreamAndCursor := by
  intro s p tag st b h hm ha hs
  refine ⟨fun hreader => ?other, fun c hreader hc => ?reader, ?fields, b.report_length _ _, fun c => by simp [Cursor.report]⟩
  case other =>
    refine exec_command_only_answers h .query tag [streamByte st] .ok _ rfl rfl ?_
    exact (Device.takeQuery_answers hm ha hs _).1 hreader
  case reader =>
    refine exec_command_only_answers h .query tag [streamByte st] .ok _ rfl rfl ?_
    exact (Device.takeQuery_answers hm ha hs _).2 c hreader hc
  case fields =>
    unfold StreamBody.report portCode policyCode
    cases b.writer <;> cases b.policy <;> rfl

/-! ### EVENTS and MASK -/

theorem Device.takeEvents_answers {d : Device} {p : Port} (ha : (d.port p).attached = true) (r : Request) :
    (d.received p r).takeEvents p [] =
      ({ d.received p r with events := d.events.set p { d.events.get p with
          queue := (d.events.get p).queue.drop 8, overflow := false } } : Device).answer p .ok (d.events.get p).report := by
  simp only [takeEvents, Device.received_attached, ha]
  rfl

/-- The number two bytes spell. -/
theorem fieldAt_pair (hi lo : Byte) : fieldAt [hi, lo] 0 2 = hi.toNat * 256 + lo.toNat := by
  simp [fieldAt, bytesAt, fromBytes]

theorem append_toNat (hi lo : Byte) : (hi ++ lo : BitVec 16).toNat = hi.toNat * 256 + lo.toNat := by
  rw [BitVec.toNat_append, ← Nat.shiftLeft_add_eq_or_of_lt lo.isLt, Nat.shiftLeft_eq]

/-- A mask names no kind outside 1 to 9 exactly where its bits 0 and 10 to 15 are 0 (R163). -/
theorem maskValid_iff (hi lo : Byte) :
    maskValid (hi.toNat * 256 + lo.toNat) = true ↔ (hi ++ lo : BitVec 16) &&& 0xFC01#16 = 0#16 := by
  have hhi : hi.toNat < 4 ↔ hi &&& 0xFC#8 = 0#8 := by
    revert hi
    decide
  have hlo : lo.toNat % 2 = 0 ↔ lo &&& 0x01#8 = 0#8 := by
    revert lo
    decide
  have hand : (hi ++ lo : BitVec 16) &&& 0xFC01#16 = (hi &&& 0xFC#8) ++ (lo &&& 0x01#8) := by
    rw [← BitVec.and_append]
    rfl
  have hzero : (hi &&& 0xFC#8) ++ (lo &&& 0x01#8) = 0#16 ↔ hi &&& 0xFC#8 = 0#8 ∧ lo &&& 0x01#8 = 0#8 := by
    simp only [← BitVec.toNat_inj, append_toNat]
    simp
  have := lo.isLt
  rw [hand, hzero, ← hhi, ← hlo]
  simp only [maskValid, Bool.and_eq_true, beq_iff_eq, decide_eq_true_eq]
  omega

/-- Settles O16. -/
theorem eventsAndMaskActOnTheQueue : Obligations.EventsAndMaskActOnTheQueue := by
  refine ⟨fun s p tag h ha => ?events, fun e => ?entry, fun s p tag hi lo h ha => ?mask⟩
  case events =>
    intro u
    have hreport : u.report = [if u.overflow then 0x01#8 else 0x00#8, BitVec.ofNat 8 (u.queue.take 8).length,
        BitVec.ofNat 8 (u.queue.drop 8).length] ++ (u.queue.take 8).flatMap Event.encode := by
      have hleft : (u.queue.drop 8).length = u.queue.length - (u.queue.take 8).length := by
        rw [List.length_drop, List.length_take]
        omega
      rw [hleft]
      rfl
    rw [← hreport]
    exact exec_command_answers h .events tag [] .ok _ rfl rfl _ s.dev.cursors s.dev.draws
      (Device.takeEvents_answers ha _)
  case entry =>
    unfold Event.encode EventKind.code
    cases e.kind <;> cases e.subject <;> cases e.value <;> rfl
  case mask =>
    intro u m
    have hmask : (s.dev.received p (.known tag .mask [hi, lo])).takeMask p [hi, lo] =
        if maskValid (hi.toNat * 256 + lo.toNat) then
          ({ s.dev.received p (.known tag .mask [hi, lo]) with
            events := s.dev.events.set p { u with mask := m } } : Device).answer p .ok (bigEndian 2 u.mask.toNat)
        else (s.dev.received p (.known tag .mask [hi, lo])).answer p .badArg [] := by
      have hm : BitVec.ofNat 16 (hi.toNat * 256 + lo.toNat) = m := by
        rw [← append_toNat]
        exact BitVec.ofNat_toNat _ _
      unfold Device.takeMask
      rw [Device.received_attached, ha, fieldAt_pair, hm]
      cases maskValid (hi.toNat * 256 + lo.toNat) <;> rfl
    refine ⟨fun hvalid => ?_, fun hvalid => ?_⟩
    · refine exec_command_answers h .mask tag [hi, lo] .ok _ rfl rfl _ s.dev.cursors s.dev.draws (hmask.trans ?_)
      rw [if_pos ((maskValid_iff hi lo).mpr hvalid)]
      rfl
    · refine exec_command_only_answers h .mask tag [hi, lo] .badArg [] rfl rfl (hmask.trans ?_)
      rw [if_neg (fun hg => hvalid ((maskValid_iff hi lo).mp hg))]

end Sys2Proof.Machine
end

