-- ==== Sys2Proof/Proofs/Refusals.lean ====
section
/-! The requests a part refuses (R2, R20, R22, R51, R164, R167, R179), and REWIND and SETLEVEL (R62, R63). -/

namespace Sys2Proof.Machine

open Sys2Proof

-- One process elaborates the whole text: proofs taken in turn stay within its memory.
set_option Elab.async false

/-! ### Entries of every kind -/

/-- An entry that its processing answers at once, at a port that waits for it. -/
theorem arrival_replies {s : State} {p : Port} (h : s.dev.awaits p) {r : Request} {status : Status} {out : List Byte}
    (hc : (s.dev.received p r).process p r = (s.dev.received p r).answer p status out) :
    s.arrival p r = s.onDev (s.dev.replied p ⟨r.label.1, r.label.2, status, out⟩) := by
  rw [State.arrival_awaits h, hc, Device.received_answer h.2.2]
  exact congrArg s.onDev
    (Device.settled_quiet (Device.quiet_replied h.2.1 h.2.2 _ s.dev.events s.dev.cursors s.dev.draws))

theorem exec_command_replied {s : State} {p : Port} (h : s.dev.awaits p) {k : Kind} {tag : Byte} {body : List Byte}
    {status : Status} (hb : bodyFits body = true)
    (hc : (s.dev.received p (.known tag k body)).process p (.known tag k body) =
      (s.dev.received p (.known tag k body)).answer p status []) :
    exec (k.command p tag body) s = .next (s.onDev (s.dev.replied p (reply tag k status []))) := by
  rw [exec_command _ _ _ _ _ hb]
  exact congrArg _ (arrival_replies h hc)

theorem Device.process_halting {d : Device} (h : d.halting = true) (p : Port) (r : Request) :
    d.process p r = d.answer p .aborted [] := by
  simp [Device.process, h]

/-- Settles O19. -/
theorem haltingPartAbortsEveryRequest : Obligations.HaltingPartAbortsEveryRequest := by
  intro s p h hm
  have halting : s.dev.halting = true := by rcases hm with hm | hm <;> simp [Device.halting, hm]
  have aborted (r : Request) : (s.dev.received p r).process p r = (s.dev.received p r).answer p .aborted [] :=
    Device.process_halting (d := s.dev.received p r) halting p r
  exact ⟨fun k tag body hb => exec_command_replied h hb (aborted _), congrArg _ (arrival_replies h (aborted .frame)),
    fun tag kind => congrArg _ (arrival_replies h (aborted (.unknown tag kind)))⟩

/-! ### The device-state table and attachment (R167) -/

theorem refusedIn_write {m : DeviceState} (hm : m ≠ .stopping ∧ m ≠ .stopped) {k : Kind}
    (hk : k = .create ∨ k = .configure ∨ k = .delete ∨ k = .append) (body : List Byte) :
    refusedIn k body m = writeMode m := by
  rcases hk with rfl | rfl | rfl | rfl <;> cases m <;> simp_all [refusedIn, writeMode]

theorem refusedIn_read {m : DeviceState} (hm : m ≠ .stopping ∧ m ≠ .stopped) {k : Kind}
    (hk : k = .read ∨ k = .ack ∨ k = .rewind ∨ k = .setlevel ∨ k = .query ∨ k = .sync) (body : List Byte) :
    refusedIn k body m = readMode m := by
  rcases hk with rfl | rfl | rfl | rfl | rfl | rfl <;> cases m <;> simp_all [refusedIn, readMode]

theorem refusedIn_vote {m : DeviceState} (hm : m ≠ .stopping ∧ m ≠ .stopped) {k : Kind} (hk : k = .agree ∨ k = .refuse)
    (body : List Byte) : refusedIn k body m = ballotMode m := by
  rcases hk with rfl | rfl <;> cases m <;> simp_all [refusedIn, ballotMode]

/-- The operation byte of a PROPOSE names a PURGE. -/
theorem purgeCode_iff {body : List Byte} (hl : lengthGood .propose body = true) :
    (byteAt body 0).toNat = 1 ↔ body.head? = some 0x01#8 := by
  match body, hl with
  | [op, st], _ =>
    show op.toNat = 1 ↔ some op = some 0x01#8
    rw [Option.some_inj, ← BitVec.toNat_inj]
    rfl

theorem refusedIn_propose {m : DeviceState} (hm : m ≠ .stopping ∧ m ≠ .stopped) {body : List Byte}
    (hl : lengthGood .propose body = true) :
    refusedIn .propose body m = if (byteAt body 0).toNat = 1 then writeMode m else ballotMode m := by
  simp only [purgeCode_iff hl]
  cases m <;> simp_all [refusedIn, writeMode, ballotMode]

theorem refusedIn_always {m : DeviceState} (hm : m ≠ .stopping ∧ m ≠ .stopped) {k : Kind}
    (hk : k = .attach ∨ k = .detach ∨ k = .status ∨ k = .events ∨ k = .mask) (body : List Byte) :
    refusedIn k body m = none := by
  rcases hk with rfl | rfl | rfl | rfl | rfl <;> cases m <;> simp_all [refusedIn]

theorem Device.halting_iff (d : Device) : d.halting = false ↔ d.mode ≠ .stopping ∧ d.mode ≠ .stopped := by
  simp [Device.halting]

section CarryOut

variable {d : Device} {p : Port} {k : Kind} {body : List Byte}

/-- A request that its device-state or attachment check refuses is answered with that status (R167). -/
theorem Device.carryOut_refused (hh : d.halting = false) (hl : lengthGood k body = true) (hk : k ≠ .attach ∧ k ≠ .status) {status : Status}
    (h : d.admission p (refusedIn k body d.mode) = some status) : d.carryOut p k body = d.answer p status [] := by
  have hm := d.halting_iff.mp hh
  have always (ha : refusedIn k body d.mode = none) : (d.port p).attached = false ∧ status = .notAttached := by
    rw [ha, Device.admission] at h
    split at h <;> simp_all
  have detached (hk : k = .detach ∨ k = .events ∨ k = .mask) : (d.port p).attached = false ∧ status = .notAttached :=
    always (refusedIn_always hm (by tauto) body)
  cases k with
  | attach => exact absurd rfl hk.1
  | status => exact absurd rfl hk.2
  | detach => obtain ⟨ha, rfl⟩ := detached (by simp); simp [Device.carryOut, Device.takeDetach, ha]
  | events => obtain ⟨ha, rfl⟩ := detached (by simp); simp [Device.carryOut, Device.takeEvents, ha]
  | mask => obtain ⟨ha, rfl⟩ := detached (by simp); simp [Device.carryOut, Device.takeMask, ha]
  | create => rw [refusedIn_write hm (by simp)] at h; simp [Device.carryOut, Device.takeCreate, h]
  | configure =>
    rw [refusedIn_write hm (by simp)] at h
    simp [Device.carryOut, Device.takeConfigure, Device.ownerCheck, h]
  | delete =>
    rw [refusedIn_write hm (by simp)] at h
    simp [Device.carryOut, Device.takeDelete, Device.ownerCheck, h]
  | append =>
    rw [refusedIn_write hm (by simp)] at h
    simp [Device.carryOut, Device.takeAppend, Device.appendCheck, h]
  | read => rw [refusedIn_read hm (by simp)] at h; simp [Device.carryOut, Device.takeRead, Device.cursorCheck, h]
  | ack => rw [refusedIn_read hm (by simp)] at h; simp [Device.carryOut, Device.takeAck, Device.cursorCheck, h]
  | rewind => rw [refusedIn_read hm (by simp)] at h; simp [Device.carryOut, Device.takeRewind, Device.cursorCheck, h]
  | setlevel => rw [refusedIn_read hm (by simp)] at h; simp [Device.carryOut, Device.takeSetlevel, Device.cursorCheck, h]
  | query => rw [refusedIn_read hm (by simp)] at h; simp [Device.carryOut, Device.takeQuery, h]
  | sync => rw [refusedIn_read hm (by simp)] at h; simp [Device.carryOut, Device.takeSync, h]
  | propose => rw [refusedIn_propose hm hl] at h; simp [Device.carryOut, Device.takePropose, h]
  | agree => rw [refusedIn_vote hm (by simp)] at h; simp [Device.carryOut, Device.takeAgree, Device.voteCheck, h]
  | refuse => rw [refusedIn_vote hm (by simp)] at h; simp [Device.carryOut, Device.takeRefuse, Device.voteCheck, h]

theorem Device.admission_admitted (hr : refusedIn k body d.mode = none) (ha : (d.port p).attached = true) :
    d.admission p (refusedIn k body d.mode) = none := by
  rw [hr]
  exact Device.admission_none ha

variable (hh : d.halting = false) (hl : lengthGood k body = true) (hr : refusedIn k body d.mode = none)
  (ha : (d.port p).attached = true)
include hh hr ha

include hl in
/-- A request that names no stream of the part is answered NO_STREAM (R2). -/
theorem Device.carryOut_noStream {named : List Byte} (hn : k.named body = some named)
    (hs : d.namedStream named = .error .noStream) : d.carryOut p k body = d.answer p .noStream [] := by
  have hm := d.halting_iff.mp hh
  have h := Device.admission_admitted hr ha
  cases k with
  | configure =>
    rw [refusedIn_write hm (by simp)] at h
    cases hn
    simp [Device.carryOut, Device.takeConfigure, Device.ownerCheck, h, hs]
  | delete =>
    rw [refusedIn_write hm (by simp)] at h
    cases hn
    simp [Device.carryOut, Device.takeDelete, Device.ownerCheck, h, hs]
  | append =>
    rw [refusedIn_write hm (by simp)] at h
    cases hn
    simp [Device.carryOut, Device.takeAppend, Device.appendCheck, h, hs]
  | read =>
    rw [refusedIn_read hm (by simp)] at h
    cases hn
    simp [Device.carryOut, Device.takeRead, Device.cursorCheck, h, hs]
  | ack =>
    rw [refusedIn_read hm (by simp)] at h
    cases hn
    simp [Device.carryOut, Device.takeAck, Device.cursorCheck, h, hs]
  | rewind =>
    rw [refusedIn_read hm (by simp)] at h
    cases hn
    simp [Device.carryOut, Device.takeRewind, Device.cursorCheck, h, hs]
  | setlevel =>
    rw [refusedIn_read hm (by simp)] at h
    cases hn
    simp [Device.carryOut, Device.takeSetlevel, Device.cursorCheck, h, hs]
  | query =>
    rw [refusedIn_read hm (by simp)] at h
    cases hn
    simp [Device.carryOut, Device.takeQuery, h, hs]
  | propose =>
    rw [refusedIn_propose hm hl] at h
    simp only [Kind.named] at hn
    split at hn
    · rename_i hpurge
      cases hn
      have hcode := (purgeCode_iff hl).mpr hpurge
      rw [if_pos hcode] at h
      simp only [Device.carryOut, Device.takePropose, hcode, if_true, h, hs]
    · cases hn
  | _ => cases hn

/-- READ, ACK, REWIND and SETLEVEL from a port that is no reader (R51). -/
theorem Device.carryOut_notReader (hk : k = .read ∨ k = .ack ∨ k = .rewind ∨ k = .setlevel) {st : Fin 16}
    {b : StreamBody} (hs : d.namedStream body = .ok (st, b)) (hreader : b.readers.get p = false) :
    d.carryOut p k body = d.answer p .notReader [] := by
  have h := Device.admission_admitted hr ha
  rw [refusedIn_read (d.halting_iff.mp hh) (by tauto)] at h
  rcases hk with rfl | rfl | rfl | rfl
  · simp [Device.carryOut, Device.takeRead, Device.cursorCheck, h, hs, hreader]
  · simp [Device.carryOut, Device.takeAck, Device.cursorCheck, h, hs, hreader]
  · simp [Device.carryOut, Device.takeRewind, Device.cursorCheck, h, hs, hreader]
  · simp [Device.carryOut, Device.takeSetlevel, Device.cursorCheck, h, hs, hreader]

/-- CONFIGURE and DELETE from a port that is not the writer (R20, R22). -/
theorem Device.carryOut_notWriter (hk : k = .configure ∨ k = .delete) {st : Fin 16} {b : StreamBody}
    (hs : d.namedStream body = .ok (st, b)) (hwriter : b.writer ≠ p) :
    d.carryOut p k body = d.answer p .notWriter [] := by
  have h := Device.admission_admitted hr ha
  rw [refusedIn_write (d.halting_iff.mp hh) (by tauto)] at h
  rcases hk with rfl | rfl
  · simp [Device.carryOut, Device.takeConfigure, Device.ownerCheck, h, hs, hwriter]
  · simp [Device.carryOut, Device.takeDelete, Device.ownerCheck, h, hs, hwriter]

end CarryOut

/-- A byte names a stream exactly as its stream number (R2). -/
theorem streamOfByte_some {number : Byte} {st : Fin 16} (h : streamOfByte number = some st) : number = streamByte st := by
  unfold streamOfByte at h
  split at h <;> cases h
  exact (by simp : BitVec.ofNat 8 number.toNat = number).symm

/-- Settles O18: a refusal by its own check, the checks before it passed. -/
theorem stateAndAttachmentAreChecked : Obligations.StateAndAttachmentAreChecked := by
  intro s p tag k body h hb hl answered
  have answers {status : Status} (hc : (s.dev.received p (.known tag k body)).carryOut p k body =
      (s.dev.received p (.known tag k body)).answer p status []) : answered status :=
    exec_command_only_answers h k tag body status [] hb hl hc
  have hm := s.dev.halting_iff.mp h.2
  refine ⟨fun status hr => ?state, fun hr ha hattach hstatus => ?attachment, fun hr ha number rest hn => ⟨fun hs => ?stream,
    fun st b hnumber hs => ⟨fun hk hreader => ?reader, fun hk hwriter => ?writer⟩⟩⟩
  case state =>
    refine answers (Device.carryOut_refused (d := s.dev.received p (.known tag k body)) h.2 hl ⟨?_, ?_⟩ ?_)
    · rintro rfl
      rw [refusedIn_always hm (by simp)] at hr
      cases hr
    · rintro rfl
      rw [refusedIn_always hm (by simp)] at hr
      cases hr
    · rw [Device.received_admission, Device.received_mode, hr]
      rfl
  case attachment =>
    refine answers (Device.carryOut_refused (d := s.dev.received p (.known tag k body)) h.2 hl ⟨hattach, hstatus⟩ ?_)
    rw [Device.received_admission, Device.received_mode, hr]
    simp [Device.admission, ha]
  case stream =>
    refine answers (Device.carryOut_noStream h.2 hl hr (by rw [Device.received_attached, ha]) hn ?_)
    rw [Device.received_namedStream, Device.namedStream]
    show (match streamOfByte number with | none => _ | some st => _) = _
    cases hst : streamOfByte number with
    | none => rfl
    | some st => simp [hs st (streamOfByte_some hst)]
  case reader =>
    have hbody : body = streamByte st :: rest := by
      rcases hk with rfl | rfl | rfl | rfl <;> cases hn <;> rw [hnumber]
    refine answers (Device.carryOut_notReader (d := s.dev.received p (.known tag k body)) h.2 hr (by rw [Device.received_attached, ha]) hk (st := st) (b := b) ?_ hreader)
    rw [hbody]
    exact Device.namedStream_of hs rest
  case writer =>
    have hbody : body = streamByte st :: rest := by rcases hk with rfl | rfl <;> cases hn <;> rw [hnumber]
    refine answers (Device.carryOut_notWriter (d := s.dev.received p (.known tag k body)) h.2 hr (by rw [Device.received_attached, ha]) hk (st := st) (b := b) ?_ hwriter)
    rw [hbody]
    exact Device.namedStream_of hs rest

/-! ### Bodies of a wrong length -/

/-- The checks of R51, passed up to the length of the body. -/
theorem Device.cursorCheck_reader {d : Device} {p : Port} {st : Fin 16} {b : StreamBody} {c : Cursor}
    (h : d.readerOf p st b c) (r : Request) (k : Kind) (rest : List Byte) :
    (d.received p r).cursorCheck p k (streamByte st :: rest) =
      if !lengthGood k (streamByte st :: rest) then .error .badArg
      else if k == .ack && (flagOfCode (byteAt (streamByte st :: rest) 5).toNat).isNone then .error .badArg
      else .ok (st, b, c) := by
  obtain ⟨hm, ha, hs, hreader, hc⟩ := h
  rw [Device.cursorCheck, Device.received_admission, Device.received_mode, readMode_of hm, Device.admission_none ha,
    Device.received_namedStream, Device.namedStream_of hs]
  simp only [hreader, Device.received_cursor, hc]

theorem Device.process_badLength {d : Device} (hh : d.halting = false) {k : Kind} {body : List Byte}
    (hl : lengthGood k body = false) (p : Port) (tag : Byte) :
    d.process p (.known tag k body) =
      if k.ownLength then d.carryOut p k body else d.answer p .badArg [] := by
  cases hk : k.ownLength <;> simp [Device.process, hh, hl, hk]

/-- An ACK's flags byte is one of two (R163). -/
theorem flagOfCode_none {flags : Byte} (h0 : flags ≠ 0x00#8) (h1 : flags ≠ 0x01#8) : flagOfCode flags.toNat = none := by
  revert flags
  decide

/-- Settles O17. -/
theorem malformedRequestsAreAnswered : Obligations.MalformedRequestsAreAnswered := by
  refine ⟨fun s p h => ⟨?frame, fun tag kind => ?unknown⟩, fun s p tag k body h hb hl => ⟨fun hk => ?length, fun hk ha => ?detached⟩,
    fun s p tag st b c s0 s1 s2 s3 flags h hr h0 h1 => ?flags⟩
  case frame => exact congrArg _ (arrival_replies h.1 (r := .frame) (by simp [Device.process, h.2]))
  case unknown => exact congrArg _ (arrival_replies h.1 (r := .unknown tag kind) (by simp [Device.process, h.2]))
  case length =>
    refine exec_command_replied h.1 hb ((Device.process_badLength (d := s.dev.received p (.known tag k body)) h.2 hl p tag).trans ?_)
    rcases hk with hk | ⟨hk, ha⟩ | ⟨hk, st, b, c, hhead, hr⟩
    · rw [hk]
      rfl
    · have ha' := Device.received_attached s.dev p (.known tag k body) p
      rw [ha] at ha'
      rcases hk with rfl | rfl | rfl
      · simp [Kind.ownLength, Device.carryOut, Device.takeDetach, ha', hl]
      · simp [Kind.ownLength, Device.carryOut, Device.takeEvents, ha', hl]
      · simp [Kind.ownLength, Device.carryOut, Device.takeMask, ha', hl]
    · obtain ⟨rest, rfl⟩ : ∃ rest, body = streamByte st :: rest := ⟨body.tail, by
        cases body with
        | nil => cases hhead
        | cons x xs => cases hhead; rfl⟩
      have hcheck : (s.dev.received p (.known tag k (streamByte st :: rest))).cursorCheck p k (streamByte st :: rest) =
          .error .badArg := by
        rw [Device.cursorCheck_reader hr, hl]
        rfl
      rcases hk with rfl | rfl | rfl | rfl
      · simp [Kind.ownLength, Device.carryOut, Device.takeRead, hcheck]
      · simp [Kind.ownLength, Device.carryOut, Device.takeAck, hcheck]
      · simp [Kind.ownLength, Device.carryOut, Device.takeRewind, hcheck]
      · simp [Kind.ownLength, Device.carryOut, Device.takeSetlevel, hcheck]
  case detached =>
    refine exec_command_replied h.1 hb ((Device.process_badLength (d := s.dev.received p (.known tag k body)) h.2 hl p tag).trans ?_)
    have ha' := Device.received_attached s.dev p (.known tag k body) p
    rw [ha] at ha'
    rcases hk with rfl | rfl | rfl
    · simp [Kind.ownLength, Device.carryOut, Device.takeDetach, ha']
    · simp [Kind.ownLength, Device.carryOut, Device.takeEvents, ha']
    · simp [Kind.ownLength, Device.carryOut, Device.takeMask, ha']
  case flags =>
    refine exec_command_only_answers h .ack tag [streamByte st, s0, s1, s2, s3, flags] .badArg [] rfl rfl ?_
    have hflag : flagOfCode (byteAt [streamByte st, s0, s1, s2, s3, flags] 5).toNat = none := flagOfCode_none h0 h1
    have hcheck : (s.dev.received p (.known tag .ack [streamByte st, s0, s1, s2, s3, flags])).cursorCheck p .ack
        [streamByte st, s0, s1, s2, s3, flags] = .error .badArg := by
      rw [Device.cursorCheck_reader hr, hflag]
      rfl
    simp only [Device.carryOut, Device.takeAck, hcheck]

/-! ### REWIND and SETLEVEL -/

@[simp] theorem Device.setCursor_setCursor (d : Device) (st : Fin 16) (p : Port) (x y : Option Cursor) :
    (d.setCursor st p x).setCursor st p y = d.setCursor st p y := by
  simp [Device.setCursor]

theorem Device.setCursor_cursor {d : Device} {st : Fin 16} {p : Port} {x : Option Cursor} (h : d.cursor st p = x) :
    d.setCursor st p x = d := by
  subst h
  simp [Device.setCursor, Device.cursor]

/-- Evaluating a backlog flag does not look at the request in hand. -/
theorem Device.received_evalBacklog (d : Device) (p q : Port) (r : Request) (st : Fin 16) :
    (d.received p r).evalBacklog st q = (d.evalBacklog st q).received p r := by
  unfold Device.evalBacklog
  rw [Device.received_stream, Device.received_cursor]
  split
  · split
    · split
      · rfl
      · exact Device.received_offer (d.setCursor st q _) p r q _
    · rfl
  · rfl

/-- An evaluated backlog flag is the comparison of R64, and setting it sends BACKLOG. -/
theorem Device.evalBacklog_eq {d : Device} {st : Fin 16} {p : Port} {b : StreamBody} {c : Cursor} (hs : d.stream st = some b)
    (hc : d.cursor st p = some c) :
    d.evalBacklog st p =
      if c.behind b.next && !c.flag then
        (d.setCursor st p (some { c with flag := c.behind b.next })).offer p
          ⟨.backlog, some st.val, some (b.next - c.committed)⟩
      else d.setCursor st p (some { c with flag := c.behind b.next }) := by
  have same (hf : c.flag = true) : d.setCursor st p (some { c with flag := true }) = d := by
    rw [← hf]
    exact Device.setCursor_cursor hc
  simp only [Device.evalBacklog, hs, hc]
  cases hb : c.behind b.next with
  | false => simp
  | true => cases hf : c.flag <;> simp [same, hf]

/-- Settles O20. -/
theorem rewindAndSetlevelActOnTheCursor : Obligations.RewindAndSetlevelActOnTheCursor := by
  refine ⟨fun s p tag st b c h hr => ?rewind, fun s p tag hi lo st b c h hr => ?setlevel⟩
  case rewind =>
    refine exec_command_answers h .rewind tag [streamByte st] .ok _ rfl rfl s.dev.events
      (s.dev.setCursor st p (some { c with delivered := c.committed })).cursors s.dev.draws ?_
    have hcheck : (s.dev.received p (.known tag .rewind [streamByte st])).cursorCheck p .rewind [streamByte st] =
        .ok (st, b, c) := Device.cursorCheck_reader hr _ _ _
    simp only [Device.carryOut, Device.takeRewind, hcheck]
    rfl
  case setlevel =>
    intro level behind d d'
    obtain ⟨hm, ha, hs, hreader, hc⟩ := id hr
    have hcheck : (s.dev.received p (.known tag .setlevel [streamByte st, hi, lo])).cursorCheck p .setlevel
        [streamByte st, hi, lo] = .ok (st, b, c) := Device.cursorCheck_reader hr _ _ _
    have hlevel : fieldAt [streamByte st, hi, lo] 1 2 = level := fieldAt_pair hi lo
    have hbehind : ({ c with level := level } : Cursor).behind b.next = behind := by
      rw [Bool.eq_iff_iff]
      simp [Cursor.behind, behind]
    have heval : (s.dev.setCursor st p (some { c with level := level })).evalBacklog st p = d' := by
      refine (Device.evalBacklog_eq (d := s.dev.setCursor st p (some { c with level := level })) (b := b) hs
        (Device.cursor_setCursor _ _ _ _)).trans ?_
      rw [hbehind, Device.setCursor_setCursor]
    have hframe : d' = { s.dev with events := d'.events, cursors := d'.cursors } := by
      rw [← heval, Device.evalBacklog_frame]
      rfl
    refine (exec_command_answers h .setlevel tag [streamByte st, hi, lo] .ok [] rfl rfl d'.events d'.cursors s.dev.draws
      ?_).trans ?_
    · simp only [Device.carryOut, Device.takeSetlevel, hcheck, hlevel]
      refine congrArg (Device.answer · p .ok []) ?_
      show ((s.dev.setCursor st p _).received p _).evalBacklog st p = _
      rw [Device.received_evalBacklog, heval]
      conv_lhs => rw [hframe]
      rfl
    · conv_rhs => rw [hframe]
      rfl

end Sys2Proof.Machine
end

