-- ==== Sys2Proof/Proofs/Ballots.lean ====
section
/-! PROPOSE, AGREE and REFUSE (R140 to R142). -/

namespace Sys2Proof.Machine

open Sys2Proof

-- One process elaborates the whole text: proofs taken in turn stay within its memory.
set_option Elab.async false

/-! ### Opening and counting at a part with a request in hand -/

/-- The stream held for a ballot has nothing to do with the request in hand. -/
theorem Device.received_holdBallotStream (d : Device) (p : Port) (r : Request) (op : BallotOp) (v : Bool) :
    (d.received p r).holdBallotStream op v = (d.holdBallotStream op v).received p r := by
  cases op with
  | format => rfl
  | purge st inc =>
    show (d.received p r).setBallotHeld st v = (d.setBallotHeld st v).received p r
    unfold Device.setBallotHeld
    rw [Device.received_stream]
    cases d.stream st <;> rfl

theorem PerPort.subset_iff (s t : PortSet) : s.subset t = true ↔ ∀ q, s.get q = true → t.get q = true := by
  unfold PerPort.subset portList
  simp only [List.all_cons, List.all_nil, Bool.and_true, Bool.and_eq_true, Bool.or_eq_true, Bool.not_eq_true']
  constructor
  · rintro ⟨ha, hb, hc⟩ q hq
    cases q <;> simp_all
  · intro h
    refine ⟨?_, ?_, ?_⟩
    all_goals exact (Bool.eq_false_or_eq_true _).symm.imp id fun hq => h _ hq

/-- A sole party's ballot is complete with its proposer's vote (R141). -/
theorem PerPort.subset_self_iff (s : PortSet) (p : Port) :
    s.subset ((PerPort.all false).set p true) = true ↔ ∀ q, q ≠ p → s.get q = false := by
  rw [PerPort.subset_iff]
  refine forall_congr' fun q => ?_
  rw [PerPort.get_set, PerPort.get_all]
  by_cases h : q = p <;> simp [h]

/-- The open ballot passes exactly when every party has agreed (R141, R142). -/
theorem Device.passIfComplete_eq {d : Device} {bl : Ballot} (h : d.consent.ballot = some bl) :
    d.passIfComplete = if bl.parties.subset bl.agreed then d.passBallot bl else d := by
  simp [Device.passIfComplete, h]

/-- A part at rest that has answered stays at rest with a ballot opened, counted or closed. -/
theorem Device.quiet_balloted {d : Device} {p : Port} (h : d.quiet) (hr : d.ready p) (x : Response)
    (E : PerPort EventUnit) (S : Vector Stream 16) {K : Consent} (hk : K.state = .idle ∨ K.state = .opened) :
    ({ d.replied p x with events := E, streams := S, consent := K } : Device).quiet := by
  refine Device.quiet_of_consent h (d.replied p x).ports E d.cursors S K d.draws hk fun q => ?_
  by_cases hq : q = p
  · subst hq
    refine Device.stepTake_none_of_empty ?_
    simpa [Device.replied, Device.setPort, Device.port] using hr.2.1
  · refine Device.stepTake_congr (d := d) rfl ?_ ?_ (Device.stepTake_of_quiet h q)
    · simp [Device.replied, Device.setPort, PerPort.get_set, hq, Device.port]
    · simp [Device.replied, Device.setPort, PerPort.get_set, hq, Device.port]

/-! ### PROPOSE -/

theorem ballotMode_of {m : DeviceState} (h : m = .ready ∨ m = .readOnly ∨ m = .blank) : ballotMode m = none := by
  rcases h with rfl | rfl | rfl <;> rfl

/-- A PROPOSE that names a PURGE or a FORMAT comes to the last two checks of R140. -/
theorem Device.takePropose_named {d : Device} {p : Port} (ha : (d.port p).attached = true) (r : Request) {body : List Byte}
    {op : BallotOp} {parties : PortSet}
    (h : (∃ x, body = [0x02#8, x]) ∧ op = .format ∧ parties = d.attachedPorts ∧
        (d.mode = .ready ∨ d.mode = .readOnly ∨ d.mode = .blank) ∨
      (∃ st b, body = [0x01#8, streamByte st] ∧ op = .purge st (d.incarnation st) ∧
        d.stream st = some b ∧ parties = b.readers.set b.writer true) ∧ d.mode = .ready) :
    (d.received p r).takePropose p body = (d.received p r).proposeTo p op parties := by
  rcases h with ⟨⟨x, rfl⟩, rfl, rfl, hm⟩ | ⟨⟨st, b, rfl, rfl, hs, rfl⟩, hm⟩
  · have hcode : (byteAt [0x02#8, x] 0).toNat = 2 := rfl
    have hports : (d.received p r).attachedPorts = d.attachedPorts :=
      PerPort.ext_get fun q => by
        have hport (d : Device) : d.attachedPorts.get q = (d.port q).attached := by cases q <;> rfl
        rw [hport, hport, Device.received_attached]
    rw [takePropose, hcode, if_neg (by decide), Device.received_admission, Device.received_mode, ballotMode_of hm,
      Device.admission_none ha, hports]
    rfl
  · have hcode : (byteAt [0x01#8, streamByte st] 0).toNat = 1 := rfl
    have hnamed : (d.received p r).namedStream (List.drop 1 [0x01#8, streamByte st]) = .ok (st, b) :=
      Device.namedStream_of (d := d) hs []
    rw [takePropose, hcode, if_pos rfl, Device.received_admission, Device.received_mode, hm,
      show writeMode .ready = none from rfl, Device.admission_none ha]
    simp only [if_true, hnamed]
    rfl

/-- Settles O28. -/
theorem proposeOpensABallot : Obligations.ProposeOpensABallot := by
  refine ⟨fun s p tag operation x h ha hm h1 h2 => ?unknown, fun s p tag body op parties h ha hop => ?named⟩
  case unknown =>
    refine exec_command_only_answers h .propose tag [operation, x] .badArg [] rfl rfl ?_
    have hcode : (byteAt [operation, x] 0).toNat = operation.toNat := rfl
    have hne1 : operation.toNat ≠ 1 := fun he => h1 (BitVec.eq_of_toNat_eq he)
    have hne2 : operation.toNat ≠ 2 := fun he => h2 (BitVec.eq_of_toNat_eq he)
    show (s.dev.received p _).takePropose p _ = _
    rw [Device.takePropose, hcode, if_neg hne1, Device.received_admission, Device.received_mode, ballotMode_of hm,
      Device.admission_none ha]
    simp only [if_neg hne1, if_neg hne2]
  case named =>
    intro id bl held d
    have hb : bodyFits body = true ∧ lengthGood .propose body = true := by
      rcases hop with ⟨⟨x, rfl⟩, -⟩ | ⟨⟨st, b, rfl, -⟩, -⟩ <;> exact ⟨rfl, rfl⟩
    have hcarry : (s.dev.received p (.known tag .propose body)).carryOut p .propose body =
        (s.dev.received p (.known tag .propose body)).proposeTo p op parties := Device.takePropose_named ha _ hop
    have hframe : held = { s.dev with streams := held.streams, consent := held.consent } := by
      simp only [held]
      rw [Device.holdBallotStream_frame]
    have hopened : (s.dev.received p (.known tag .propose body)).openBallot p op parties = d.passIfComplete := by
      have hheld : ((s.dev.received p (.known tag .propose body)).openBallot p op parties) =
          (((held.offerSet (parties.set p false) ⟨.ballotOpen, some id.toNat, some op.code⟩).received p
            (.known tag .propose body)).answer p .ok [id]).passIfComplete := by
        rw [← Device.received_offerSet, ← Device.received_holdBallotStream]
        rfl
      rw [hheld, Device.received_answer]
      · rfl
      · refine Device.ready_congr ?_ ?_ ?_ h.1.2.2
        · rw [Device.offerSet_frame]
          show held.exec p = _
          rw [hframe]
          rfl
        all_goals
          rw [Device.offerSet_port, hframe]
          rfl
    have hballot : d.consent.ballot = some bl := by
      simp only [d, held]
      rw [Device.offerSet_frame, Device.holdBallotStream_frame]
      rfl
    have hframe : d = { s.dev.replied p (reply tag .propose .ok [id]) with
        events := d.events, streams := d.streams, consent := d.consent } := by
      simp only [d, held]
      rw [Device.offerSet_frame, Device.holdBallotStream_frame]
      rfl
    have hstate : d.consent.state = .opened := by
      simp only [d, held]
      rw [Device.offerSet_frame, Device.holdBallotStream_frame]
      rfl
    refine ⟨fun hp => ?party, fun hp hs => ?busy, fun hp hs hq => ?opened, fun hp hs hq => ?sole⟩
    case party =>
      refine exec_command_only_answers h .propose tag body .notParty [] hb.1 hb.2 (hcarry.trans ?_)
      simp [Device.proposeTo, hp]
    case busy =>
      refine exec_command_only_answers h .propose tag body .ballotBusy [] hb.1 hb.2 (hcarry.trans ?_)
      simp [Device.proposeTo, hp, hs]
    all_goals
      have hexec : exec (.propose p tag body) s = .next (s.onDev d.passIfComplete.settled) := by
        refine (exec_command_awaits h.1 .propose tag body hb.1).trans ?_
        rw [Device.process_received h.2 hb.2, hcarry, ← hopened]
        simp [Device.proposeTo, hp, hs]
      rw [hexec, Device.passIfComplete_eq hballot]
    case opened =>
      obtain ⟨q, hne, hq⟩ := hq
      rw [if_neg fun hall => absurd ((PerPort.subset_self_iff _ _).mp hall q hne) (by simp [bl, hq])]
      refine congrArg _ (congrArg _ (Device.settled_quiet ?_))
      rw [hframe]
      exact Device.quiet_balloted h.1.2.1 h.1.2.2 _ _ _ (.inr hstate)
    case sole => rw [if_pos ((PerPort.subset_self_iff _ _).mpr hq)]

/-! ### AGREE and REFUSE -/

/-- The checks of a vote, passed up to the ballot (R142). -/
theorem Device.voteCheck_eq {d : Device} {p : Port} (hm : d.mode = .ready ∨ d.mode = .readOnly ∨ d.mode = .blank)
    (ha : (d.port p).attached = true) (r : Request) (id : Byte) :
    (d.received p r).voteCheck p [id] =
      match d.consent.ballot with
      | none => .error .stale
      | some bl =>
        if d.consent.state ≠ .opened || bl.id ≠ id then .error .stale
        else if !bl.parties.get p then .error .notParty
        else if bl.agreed.get p then .error .voted
        else .ok bl := by
  rw [voteCheck, Device.received_admission, Device.received_mode, ballotMode_of hm, Device.admission_none ha]
  rfl

/-- A vote refused by its check is answered so, AGREE and REFUSE alike. -/
theorem votes_refused {s : State} {p : Port} {tag id : Byte} (h : s.dev.serves p) {status : Status}
    (hc : ∀ r, (s.dev.received p r).voteCheck p [id] = .error status) :
    exec (.agree p tag [id]) s = .next (s.onDev (s.dev.replied p (reply tag .agree status []))) ∧
      exec (.refuse p tag [id]) s = .next (s.onDev (s.dev.replied p (reply tag .refuse status []))) := by
  constructor
  · exact exec_command_only_answers h .agree tag [id] status [] rfl rfl (by simp [Device.carryOut, Device.takeAgree, hc])
  · exact exec_command_only_answers h .refuse tag [id] status [] rfl rfl (by simp [Device.carryOut, Device.takeRefuse, hc])

/-- Settles O29. -/
theorem votesCountOrClose : Obligations.VotesCountOrClose := by
  intro s p tag id h ha hm
  have hcheck (r : Request) := Device.voteCheck_eq hm ha r id
  refine ⟨fun hstale => votes_refused h fun r => ?stale, fun bl hs hbl hid => ⟨fun hp => votes_refused h fun r => ?party,
    fun hp hv => votes_refused h fun r => ?voted, fun hp hv => ?vote⟩⟩
  case stale =>
    rw [hcheck]
    rcases hstale with hs | hnone | ⟨bl, hbl, hid⟩
    · cases s.dev.consent.ballot <;> simp [hs]
    · simp [hnone]
    · simp [hbl, hid]
  case party => simp [hcheck, hbl, hs, hid, hp]
  case voted => simp [hcheck, hbl, hs, hid, hp, hv]
  case vote =>
    intro counted d
    have hok (r : Request) : (s.dev.received p r).voteCheck p [id] = .ok bl := by simp [hcheck, hbl, hs, hid, hp, hv]
    have hagree : exec (.agree p tag [id]) s = .next (s.onDev d.passIfComplete.settled) := by
      refine (exec_command_awaits h.1 .agree tag [id] rfl).trans ?_
      rw [Device.process_received h.2 rfl]
      simp only [Device.carryOut, Device.takeAgree, hok]
      refine congrArg (fun x : Device => Host.Outcome.next (s.onDev x.passIfComplete.settled)) ?_
      exact Device.received_answer (d := { s.dev with consent := { s.dev.consent with ballot := some counted } })
        (Device.ready_congr rfl rfl rfl h.1.2.2) _ _ _
    rw [hagree, Device.passIfComplete_eq (bl := counted) rfl]
    refine ⟨fun hsub => ?_, fun hsub => ?_, ?_⟩
    · rw [if_neg (by simp only [counted] at hsub ⊢; simp [hsub])]
      refine congrArg _ (congrArg _ (Device.settled_quiet ?_))
      exact Device.quiet_balloted h.1.2.1 h.1.2.2 _ s.dev.events s.dev.streams (.inr hs)
    · rw [if_pos hsub]
    · refine (exec_command_awaits h.1 .refuse tag [id] rfl).trans ?_
      rw [Device.process_received h.2 rfl]
      simp only [Device.carryOut, Device.takeRefuse, hok]
      rw [Device.received_answer h.1.2.2]
      exact congrArg _ (congrArg _ (Device.settled_quiet (Device.quiet_closeBallot
        (Device.quiet_replied h.1.2.1 h.1.2.2 _ s.dev.events s.dev.cursors s.dev.draws) _)))

end Sys2Proof.Machine
end

