-- ==== Sys2Proof/Proofs/Rest.lean ====
section
/-! A part at rest, condition by condition: what each consequence of an event waits for (log 7), and what an executor's
claim brings about at a part at rest (R87, R89). -/

namespace Sys2Proof.Machine

open Sys2Proof

-- One process elaborates the whole text: proofs taken in turn stay within its memory.
set_option Elab.async false

/-! ### The conditions -/

theorem ite_some_none_iff {α : Type} {c : Prop} [Decidable c] {x : α} : (if c then some x else none) = none ↔ ¬ c := by
  split <;> simp_all

theorem ite_none_some_iff {α : Type} {c : Prop} [Decidable c] {x : α} : (if c then none else some x) = none ↔ c := by
  split <;> simp_all

theorem Device.stepPurge_none_iff (d : Device) : d.stepPurge = none ↔
    (d.consent.state = .purgePending → ∃ st b, d.purgeTarget = some (st, b) ∧ d.appendInFlight st b = true) ∧
      (d.consent.state = .purgeStaging → d.writer.takesEntries = true) := by
  unfold Device.stepPurge
  cases d.consent.state
  case purgePending =>
    cases d.purgeTarget with
    | none => simp
    | some x =>
      obtain ⟨st, b⟩ := x
      simp
  case purgeStaging => simp
  all_goals simp

theorem Device.stepClaim_none_iff (d : Device) : d.stepClaim = none ↔
    (writerMode d.mode = true → d.writer.state = .idle →
      d.writer.checkpointWaits = false ∧ (d.writer.canFlush = true → d.flushTrigger = false)) := by
  unfold Device.stepClaim
  cases writerMode d.mode
  · simp
  · by_cases hs : d.writer.state = .idle
    · cases hc : d.writer.checkpointWaits
      · simp [hs]
      · simp only [hs, Bool.true_and, beq_self_eq_true, if_true, forall_const, Bool.true_eq_false, false_and, iff_false]
        split <;> simp
    · simp [hs]

theorem Device.stepGrant_none_iff (d : Device) : d.stepGrant = none ↔
    (d.arbiter.holder = none → d.arrayOp = .none → d.mode ≠ .mounting → d.mode ≠ .stopped → d.nextClaimant = none) := by
  unfold Device.stepGrant
  split
  · rename_i h
    simp only [Bool.and_eq_true, Option.isNone_iff_eq_none, beq_iff_eq, decide_eq_true_eq] at h
    obtain ⟨⟨⟨hh, ho⟩, hm⟩, hs⟩ := h
    simp [Option.map_eq_none_iff, hh, ho, hm, hs]
  · rename_i h
    simp only [Bool.and_eq_true, Option.isNone_iff_eq_none, beq_iff_eq, decide_eq_true_eq] at h
    exact ⟨fun _ hh ho hm hs => absurd ⟨⟨⟨hh, ho⟩, hm⟩, hs⟩ h, fun _ => rfl⟩

theorem Device.stopMove_none_iff (d : Device) : d.stopMove = none ↔
    (d.mode = .stopping → d.writer.stopMove (d.arbiter.holder == some .writer) = none) := by
  unfold Device.stopMove
  split
  · rename_i h
    simp [h, Option.map_eq_none_iff]
  · rename_i h
    simp [h]

theorem Device.stepDrain_none_iff (d : Device) : d.stepDrain = none ↔
    ¬(d.consent.state = .formatDrain ∧ d.arbiter.holder = none ∧ d.arrayOp = .none ∧ d.eraseCtx = none ∧
      d.nextClaimant = none) := by
  unfold Device.stepDrain
  rw [ite_some_none_iff]
  simp [and_assoc]

theorem Device.stepChoice_none_iff (d : Device) : d.stepChoice = none ↔
    (d.engine.choosing = true → d.engine.state = d.chosenState) := by
  unfold Device.stepChoice
  rw [ite_some_none_iff]
  simp

theorem Device.stepStopped_none_iff (d : Device) : d.stepStopped = none ↔
    (d.mode = .stopping → d.stopComplete = false) := by
  unfold Device.stepStopped
  rw [ite_some_none_iff, Bool.not_eq_true]
  refine ⟨fun h _ => h, fun h => ?_⟩
  by_cases hm : d.mode = .stopping
  · exact h hm
  · simp [Device.stopComplete, hm]

/-- No claimant waits (R87). -/
theorem Device.nextClaimant_none_iff (d : Device) : d.nextClaimant = none ↔
    d.writerClaims = false ∧ d.engineClaims = false ∧ ∀ p, d.execClaims p = false := by
  have ports : (∀ p, d.execClaims p = false) ↔ (roundRobin d.arbiter.pointer).find? (fun p => d.execClaims p) = none := by
    rw [List.find?_eq_none]
    constructor
    · exact fun h p _ => by simp [h p]
    · intro h p
      have hmem : p ∈ roundRobin d.arbiter.pointer := by cases d.arbiter.pointer <;> cases p <;> simp [roundRobin]
      simpa using h p hmem
  rw [ports]
  unfold Device.nextClaimant
  cases d.writerClaims with
  | true => simp
  | false =>
    cases d.engineClaims with
    | true =>
      cases d.arbiter.starved
      · cases (roundRobin d.arbiter.pointer).find? fun p => d.execClaims p <;> simp
      · simp
    | false => cases (roundRobin d.arbiter.pointer).find? fun p => d.execClaims p <;> simp

/-- What a part at rest waits for, up to the arbiter's turn: one condition for each consequence (log 7). -/
structure Device.Settled (d : Device) : Prop where
  purge : d.consent.state = .purgePending → ∃ st b, d.purgeTarget = some (st, b) ∧ d.appendInFlight st b = true
  staging : d.consent.state = .purgeStaging → d.writer.takesEntries = true
  take : ∀ p, d.stepTake p = none
  choice : d.engine.choosing = true → d.engine.state = d.chosenState
  compaction : d.compactionDue = false
  snapshot : d.snapshotDue = false
  claim : writerMode d.mode = true → d.writer.state = .idle →
    d.writer.checkpointWaits = false ∧ (d.writer.canFlush = true → d.flushTrigger = false)

/-- What it waits for from there on. -/
structure Device.AtRest (d : Device) : Prop extends Device.Settled d where
  suspend : d.mustSuspend = false
  stop : d.mode = .stopping → d.writer.stopMove (d.arbiter.holder == some .writer) = none
  grant : d.arbiter.holder = none → d.arrayOp = .none → d.mode ≠ .mounting → d.mode ≠ .stopped → d.nextClaimant = none
  drain : ¬(d.consent.state = .formatDrain ∧ d.arbiter.holder = none ∧ d.arrayOp = .none ∧ d.eraseCtx = none ∧
    d.nextClaimant = none)
  stopped : d.mode = .stopping → d.stopComplete = false

theorem Device.stepCompaction_none_iff (d : Device) : d.stepCompaction = none ↔ d.compactionDue = false := by
  rw [Device.stepCompaction, ite_some_none_iff, Bool.not_eq_true]

theorem Device.stepSnapshot_none_iff (d : Device) : d.stepSnapshot = none ↔ d.snapshotDue = false := by
  rw [Device.stepSnapshot, ite_some_none_iff, Bool.not_eq_true]

theorem Device.stepSuspend_none_iff (d : Device) : d.stepSuspend = none ↔ d.mustSuspend = false := by
  rw [Device.stepSuspend, ite_some_none_iff, Bool.not_eq_true]

theorem Device.quiet_iff_atRest (d : Device) : d.quiet ↔ d.AtRest := by
  rw [Device.quiet_iff, Device.stepPurge_none_iff, Device.stepChoice_none_iff, Device.stepCompaction_none_iff,
    Device.stepSnapshot_none_iff, Device.stepClaim_none_iff, Device.stepSuspend_none_iff, Device.stopMove_none_iff,
    Device.stepGrant_none_iff, Device.stepDrain_none_iff, Device.stepStopped_none_iff]
  constructor
  · rintro ⟨⟨h0, h1⟩, h2, h3, h4, h5, h6, h7, h8, h9, h10, h11, h12, h13⟩
    exact ⟨⟨h0, h1, fun p => by cases p <;> assumption, h5, h6, h7, h8⟩, h9, h10, h11, h12, h13⟩
  · rintro ⟨⟨h0, h1, h2, h5, h6, h7, h8⟩, h9, h10, h11, h12, h13⟩
    exact ⟨⟨h0, h1⟩, h2 _, h2 _, h2 _, h5, h6, h7, h8, h9, h10, h11, h12, h13⟩

theorem Device.quiet.atRest {d : Device} (h : d.quiet) : d.AtRest := d.quiet_iff_atRest.mp h

theorem Device.AtRest.quiet {d : Device} (h : d.AtRest) : d.quiet := d.quiet_iff_atRest.mpr h

/-! ### The consequences in their order -/

theorem Device.Settled.consequence {d : Device} (h : d.Settled) :
    d.consequence = (d.stepSuspend <|> d.stopMove <|> d.stepGrant <|> d.stepDrain <|> d.stepStopped) := by
  unfold Device.consequence
  rw [(Device.stepPurge_none_iff d).mpr ⟨h.purge, h.staging⟩, h.take, h.take, h.take,
    (Device.stepChoice_none_iff d).mpr h.choice, (Device.stepCompaction_none_iff d).mpr h.compaction,
    (Device.stepSnapshot_none_iff d).mpr h.snapshot, (Device.stepClaim_none_iff d).mpr h.claim]
  rfl

theorem Device.Settled.suspends {d : Device} (h : d.Settled) (hs : d.mustSuspend = true) :
    d.consequence = some d.suspend := by
  rw [h.consequence]
  simp [Device.stepSuspend, hs]

/-- The arbiter's turn: nothing before it is due, the array is idle, and a claimant waits. -/
theorem Device.Settled.grants {d : Device} (h : d.Settled) (hs : d.mustSuspend = false) (hm : d.mode ≠ .stopping)
    (hmount : d.mode ≠ .mounting) (hstop : d.mode ≠ .stopped) (hh : d.arbiter.holder = none) (ho : d.arrayOp = .none)
    {c : Claimant} (hc : d.nextClaimant = some c) : d.consequence = some (d.grant c) := by
  rw [h.consequence]
  simp [Device.stepSuspend, hs, Device.stopMove, hm, Device.stepGrant, hmount, hstop, hh, ho, hc]

/-- The consequence that comes first is all there is, where it leaves the part at rest. -/
theorem Device.settled_of_consequence {d d' : Device} (h : d.consequence = some d') (hq : d'.quiet) : d.settled = d' := by
  show settleFor (Config.settleFuel - 2 + 1) d = d'
  rw [settleFor, h]
  exact settleFor_quiet hq _

theorem Device.settle_of_quiet_consequence {d d' : Device} (h : d.consequence = some d') (hq : d'.quiet) :
    d.settle = d' := by
  rw [Device.settle_of_consequence h, Device.settled_quiet hq]

/-! ### Executors at work -/

/-- A durable waiter on an open entry is a trigger (R109). -/
theorem Device.waiterTrigger_iff (d : Device) : d.waiterTrigger = true ↔
    ∃ p serial, (d.exec p).state = .waitDurable serial ∧
      ∃ e ∈ d.writer.staging, e.serial = serial ∧ e.cond = .opened := by
  unfold Device.waiterTrigger
  rw [List.any_eq_true]
  constructor
  · rintro ⟨p, -, hp⟩
    refine ⟨p, ?_⟩
    split at hp
    · rename_i serial hs
      obtain ⟨e, he, hcond⟩ := List.any_eq_true.mp hp
      exact ⟨serial, hs, e, he, by simpa using hcond⟩
    all_goals cases hp
  · rintro ⟨p, serial, hs, e, he, hserial, hcond⟩
    refine ⟨p, by cases p <;> simp [portList], ?_⟩
    rw [hs]
    exact List.any_eq_true.mpr ⟨e, he, by simp [hserial, hcond]⟩

/-- An executor busy with no wait for durability (R113, R166). -/
structure Executor.Aside (x : Executor) : Prop where
  busy : x.state ≠ .idle ∧ x.state ≠ .waitSlot
  waits : ∀ serial, x.state ≠ .waitDurable serial

/-- What is settled stays so when a resting executor is given work, whatever holds the array; a pending purge may find
its stream's fields changed, but not its writer. -/
theorem Device.Settled.of_exec {d d' : Device} {p : Port} (h : d.Settled) (hr : d.ready p) (hx : (d'.exec p).Aside)
    (execs : ∀ q, q ≠ p → d'.exec q = d.exec q) (ports : ∀ q, q ≠ p → d'.port q = d.port q)
    (consent : d'.consent = d.consent) (target : ∀ st b, d.purgeTarget = some (st, b) →
      ∃ b', d'.purgeTarget = some (st, b') ∧ b'.writer = b.writer) (writer : d'.writer = d.writer)
    (mode : d'.mode = d.mode) (choice : d'.engine.choosing = true → d'.engine.state = d'.chosenState) : d'.Settled := by
  have trigger : d'.flushTrigger = d.flushTrigger := by
    have waiters : d'.waiterTrigger = d.waiterTrigger := by
      rw [Bool.eq_iff_iff, Device.waiterTrigger_iff, Device.waiterTrigger_iff, writer]
      refine exists_congr fun q => exists_congr fun serial => and_congr_left fun _ => ?_
      by_cases hq : q = p
      · subst hq
        simp [hx.waits serial, hr.1, Executor.rest]
      · rw [execs q hq]
    rw [Device.flushTrigger, waiters, writer]
    rfl
  refine ⟨fun hs => ?_, fun hs => ?_, fun q => ?_, choice, ?_, ?_, fun hm hs => ?_⟩
  · obtain ⟨st, b, ht, hf⟩ := h.purge (consent ▸ hs)
    obtain ⟨b', ht', hb⟩ := target st b ht
    refine ⟨st, b', ht', ?_⟩
    have hne : b.writer ≠ p := by
      rintro rfl
      rw [Device.appendInFlight, hr.1] at hf
      cases hf
    rw [Device.appendInFlight, hb, execs _ hne]
    exact hf
  · rw [writer]
    exact h.staging (consent ▸ hs)
  · by_cases hq : q = p
    · subst hq
      exact Device.stepTake_none_of_busy (.inl hx.busy)
    · exact Device.stepTake_congr (execs q hq) (by rw [ports q hq]) (by rw [ports q hq]) (h.take q)
  · rw [Device.compactionDue, mode, writer]
    exact h.compaction
  · rw [Device.snapshotDue, mode, writer]
    exact h.snapshot
  · rw [mode] at hm
    rw [writer] at hs ⊢
    rw [trigger]
    exact h.claim hm hs

/-- Once the array is the executor's the part is at rest: nothing else was due (R86). -/
theorem Device.AtRest.onArray {d d' : Device} {p : Port} (h : d.AtRest) (hr : d.ready p) (hx : (d'.exec p).Aside)
    (execs : ∀ q, q ≠ p → d'.exec q = d.exec q) (ports : ∀ q, q ≠ p → d'.port q = d.port q)
    (consent : d'.consent = d.consent) (target : ∀ st b, d.purgeTarget = some (st, b) →
      ∃ b', d'.purgeTarget = some (st, b') ∧ b'.writer = b.writer) (writer : d'.writer = d.writer)
    (mode : d'.mode = d.mode) (engine : d'.engine = d.engine) (choice : d'.chosenState = d.chosenState)
    (holder : d'.arbiter.holder = some (.executor p)) (hs : d.engine.state ≠ .running) (hm : d.mode ≠ .stopping) :
    d'.quiet := by
  have hheld : d'.arbiter.holder ≠ none := by simp [holder]
  have hstop : d'.mode ≠ .stopping := mode ▸ hm
  refine Device.AtRest.quiet ⟨h.toSettled.of_exec hr hx execs ports consent target writer mode ?_, ?_,
    fun hn => absurd hn hstop, fun hn => absurd hn hheld, fun hn => absurd hn.2.1 hheld, fun hn => absurd hn hstop⟩
  · rw [engine, choice]
    exact h.choice
  · unfold Device.mustSuspend
    split
    · simp [engine, hs]
    · rfl

/-! ### A claim placed at a part at rest -/

/-- A request in hand, in WAIT_ARRAY for a job. -/
def Device.claiming (d : Device) (p : Port) (r : Request) (job : Job) : Device := (d.received p r).toExec p .waitArray job

section Claiming

variable {d : Device} {p : Port} {r : Request} {job : Job}

@[simp] theorem Device.claiming_exec : (d.claiming p r job).exec p = ⟨.waitArray, some r, job⟩ := by
  simp [Device.claiming, Device.toExec, Device.received]

theorem Device.claiming_exec_other {q : Port} (h : q ≠ p) : (d.claiming p r job).exec q = d.exec q := by
  unfold Device.claiming Device.toExec
  rw [Device.exec_setExec_other _ _ _ _ h, Device.received, Device.exec_setExec_other _ _ _ _ h, Device.exec_setPort]

theorem Device.claiming_port_other {q : Port} (h : q ≠ p) : (d.claiming p r job).port q = d.port q :=
  Device.port_setPort_other d p q _ h

variable (hr : d.ready p)
include hr

theorem Device.Settled.claiming (h : d.Settled) : (d.claiming p r job).Settled := by
  refine h.of_exec hr ?_ (fun q => Device.claiming_exec_other) (fun q => Device.claiming_port_other) rfl
    (fun _ b ht => ⟨b, ht, rfl⟩) rfl rfl h.choice
  rw [Device.claiming_exec]
  exact ⟨⟨ExecState.noConfusion, ExecState.noConfusion⟩, fun _ => ExecState.noConfusion⟩

/-- On an array held by another the claim waits, unless SUSPEND is due (R87, R89). -/
theorem Device.AtRest.claimWaits (h : d.AtRest) (hh : d.arbiter.holder ≠ none)
    (hs : d.engine.state ≠ .running ∨
      ∀ e, d.engine.current = some e → e.timer ≠ .reached ∨ 16 ≤ e.suspensions) : (d.claiming p r job).quiet := by
  refine Device.AtRest.quiet ⟨h.toSettled.claiming hr, ?_, h.stop, fun hn => absurd hn hh,
    fun hn => absurd hn.2.1 hh, h.stopped⟩
  unfold Device.mustSuspend
  split
  · rename_i c x hc hx
    rcases hs with hs | hs
    · have : (d.claiming p r job).engine.state ≠ .running := hs
      simp [this]
    · rcases hs c hc with ht | hb
      · simp [ht]
      · simp [Config.suspensionBudget, Nat.not_lt.mpr hb]
  · rfl

/-- At an erase that has run for 2 ms, with suspensions left, the claim makes the arbiter issue SUSPEND (R89). -/
theorem Device.AtRest.claimSuspends (h : d.AtRest) (hh : d.arbiter.holder = some .engine) (hs : d.engine.state = .running)
    {e : CurrentErase} {x : EraseContext} (he : d.engine.current = some e) (ht : e.timer = .reached)
    (hb : e.suspensions < 16) (hx : d.eraseCtx = some x) (hphase : x.phase = .running) (hab : x.abandon = false) :
    (d.claiming p r job).settled = { d.claiming p r job with
      engine := { d.engine with state := .suspending }
      arrayOp := .suspending
      eraseCtx := some { x with phase := .suspending } } := by
  have hsettled := h.toSettled.claiming hr (r := r) (job := job)
  have hmust : (d.claiming p r job).mustSuspend = true := by
    have hclaims : (d.claiming p r job).execClaims p = true := by simp [Device.execClaims]
    have hsome : (d.claiming p r job).someExecClaims = true := by
      unfold Device.someExecClaims
      cases p <;> simp [hclaims]
    have hcur : (d.claiming p r job).engine = d.engine := rfl
    have hctx : (d.claiming p r job).eraseCtx = d.eraseCtx := rfl
    simp [Device.mustSuspend, hcur, hctx, he, hx, hs, hphase, hab, ht, hb, hsome, Config.suspensionBudget]
  have hsuspend : (d.claiming p r job).suspend = { d.claiming p r job with
      engine := { d.engine with state := .suspending }
      arrayOp := .suspending
      eraseCtx := some { x with phase := .suspending } } := by
    unfold Device.suspend
    rw [show (d.claiming p r job).eraseCtx = some x from hx]
    rfl
  rw [← hsuspend]
  refine Device.settled_of_consequence (hsettled.suspends hmust) ?_
  rw [hsuspend]
  have hholder : d.arbiter.holder ≠ none := by simp [hh]
  refine Device.AtRest.quiet ⟨⟨hsettled.purge, hsettled.staging,
    fun q => Device.stepTake_congr (d := d.claiming p r job) rfl rfl rfl (hsettled.take q), fun hc => ?_, hsettled.compaction,
    hsettled.snapshot, hsettled.claim⟩, ?_, h.stop, fun hn => absurd hn hholder, fun hn => absurd hn.2.1 hholder,
    fun _ => ?_⟩
  · simp [Engine.choosing, he] at hc
  · simp [Device.mustSuspend, he]
  · simp [Device.stopComplete]

/-- On an idle array the claim is granted at once (R87). -/
theorem Device.AtRest.claimGranted (h : d.AtRest) (hidle : d.arrayIdle) (hm : d.mode = .ready ∨ d.mode = .readOnly) :
    (d.claiming p r job).consequence = some ((d.claiming p r job).grant (.executor p)) := by
  obtain ⟨hh, ho, hs⟩ := hidle
  have hmode : d.mode ≠ .stopping ∧ d.mode ≠ .mounting ∧ d.mode ≠ .stopped := by rcases hm with hm | hm <;> simp [hm]
  obtain ⟨hw, he, hx⟩ := (Device.nextClaimant_none_iff d).mp (h.grant hh ho hmode.2.1 hmode.2.2)
  refine (h.toSettled.claiming hr).grants ?_ hmode.1 hmode.2.1 hmode.2.2 hh ho ?_
  · unfold Device.mustSuspend
    split
    · have : (d.claiming p r job).engine.state ≠ .running := hs
      simp [this]
    · rfl
  · have hfind : (roundRobin d.arbiter.pointer).find? (fun q => (d.claiming p r job).execClaims q) = some p := by
      have claims (q : Port) : (d.claiming p r job).execClaims q = (q == p) := by
        by_cases hq : q = p
        · subst hq
          simp [Device.execClaims]
        · have := hx q
          unfold Device.execClaims at this ⊢
          rw [Device.claiming_exec_other hq, this]
          simp [hq]
      simp only [claims]
      cases d.arbiter.pointer <;> cases p <;> rfl
    have hw' : (d.claiming p r job).writerClaims = false := hw
    have he' : (d.claiming p r job).engineClaims = false := he
    have hp' : (d.claiming p r job).arbiter.pointer = d.arbiter.pointer := rfl
    unfold Device.nextClaimant
    rw [hw', he', hp', hfind]
    rfl

end Claiming

end Sys2Proof.Machine
end

