-- ==== Sys2Proof/Proofs/ReadsAndSync.lean ====
section
/-! READ from its claim to its record (R52 to R56), SYNC (R173), and the order of the arbiter's grants (R87). -/

namespace Sys2Proof.Machine

open Sys2Proof

-- One process elaborates the whole text: proofs taken in turn stay within its memory.
set_option Elab.async false

/-! ### READ -/

theorem Device.takeRead_eq {d : Device} {p : Port} {st : Fin 16} {b : StreamBody} {c : Cursor} (h : d.readerOf p st b c)
    (r : Request) : (d.received p r).takeRead p [streamByte st] =
      if c.delivered = b.next then (d.received p r).answer p .empty []
      else d.claiming p r (.read st (d.incarnation st)) := by
  have hcheck : (d.received p r).cursorCheck p .read [streamByte st] = .ok (st, b, c) := Device.cursorCheck_reader h _ _ _
  simp only [takeRead, hcheck]
  rfl

/-- A READ granted the array reads the page of the record that delivered names (R53). -/
theorem Device.grant_read {d : Device} {p : Port} {st : Fin 16} {b : StreamBody} {c : Cursor} {sector page : Nat}
    (h : d.readerOf p st b c) (hc : c.delivered ≠ b.next) (hl : d.locate b.chain c.delivered = some (sector, page))
    (r : Request) :
    (d.claiming p r (.read st (d.incarnation st))).grant (.executor p) =
      (((d.received p r).toExec p .onArray (.reading st (d.incarnation st) c.delivered sector page)).grantedTo p
        (.read sector page)) := by
  obtain ⟨hm, ha, hs, hreader, hcur⟩ := h
  have hmode : d.mode ≠ .formatting := by rcases hm with hm | hm <;> simp [hm]
  generalize hg : ({ d.claiming p r (.read st (d.incarnation st)) with
    arbiter := { d.arbiter with holder := some (.executor p), pointer := p } } : Device) = g
  have hgrant : (d.claiming p r (.read st (d.incarnation st))).grant (.executor p) = g.executorGrant p := by
    rw [← hg]
    rfl
  have hexec : g.exec p = ⟨.waitArray, some r, .read st (d.incarnation st)⟩ := by
    rw [← hg]
    exact Device.claiming_exec
  have hstream : g.stream st = some b := by rw [← hg]; exact hs
  have hinc : g.incarnation st = d.incarnation st := by rw [← hg]; rfl
  have hcursor : g.cursor st p = some c := by rw [← hg]; exact hcur
  have hlocate : g.locate b.chain c.delivered = some (sector, page) := by rw [← hg]; exact hl
  have hgmode : g.mode ≠ .formatting := by rw [← hg]; exact hmode
  rw [hgrant, Device.executorGrant, hexec]
  simp only [Device.grantRead, hgmode, if_false, hstream, hinc, ne_eq, not_true, hcursor, hc, hlocate]
  subst hg
  simp [Device.claiming, Device.toExec, Device.received, Device.grantedTo, Device.setExec, Device.exec]

/-- Settles O21. -/
theorem readIsEmptyOrReadsItsRecord : Obligations.ReadIsEmptyOrReadsItsRecord := by
  intro s p tag st b c h hr d inc
  have hrest := h.1.2.1.atRest
  have hready := h.1.2.2
  have hexec (hc : c.delivered ≠ b.next) : exec (.read p tag [streamByte st]) s =
      .next (s.onDev (s.dev.claiming p (.known tag .read [streamByte st]) (.read st inc)).settled) := by
    refine (exec_command_awaits h.1 .read tag [streamByte st] rfl).trans ?_
    rw [Device.process_received h.2 rfl]
    show Host.Outcome.next (s.onDev ((s.dev.received p _).takeRead p _).settled) = _
    rw [Device.takeRead_eq hr, if_neg hc]
  refine ⟨fun hc => ?empty, fun hc hidle sector page hl => ?granted, fun hc hh hs => ?waits,
    fun e x hc hh hs he ht hb hx hphase hab => ?suspends⟩
  case empty =>
    refine exec_command_only_answers h .read tag [streamByte st] .empty [] rfl rfl ?_
    exact (Device.takeRead_eq hr _).trans (if_pos hc)
  case waits =>
    rw [hexec hc, Device.settled_quiet (hrest.claimWaits hready hh hs)]
    rfl
  case suspends =>
    rw [hexec hc, hrest.claimSuspends hready hh hs he ht hb hx hphase hab]
    rfl
  case granted =>
    rw [hexec hc]
    refine congrArg _ (congrArg _ (Device.settled_of_consequence
      ((hrest.claimGranted hready hidle hr.1).trans (congrArg _ (Device.grant_read hr hc hl _))) ?_))
    refine hrest.onArray hready ?_ (fun q hq => (Device.exec_setExec_other _ p q _ hq).trans (Device.exec_setExec_other _ p q _ hq))
      (fun q hq => Device.port_setPort_other _ p q _ hq) rfl (fun _ b ht => ⟨b, ht, rfl⟩) rfl rfl rfl rfl rfl hidle.2.2
      (by rcases hr.1 with hm | hm <;> simp [hm])
    refine (Device.exec_setExec _ p _).symm ▸ ?_
    exact ⟨⟨ExecState.noConfusion, ExecState.noConfusion⟩, fun _ => ExecState.noConfusion⟩

/-! ### A page read completes -/

/-- A report that can occur: what the array and its owner do, then the consequences. -/
theorem State.report_some {s : State} {f : Device → Flash → Option Rig} {d : Device} {m : Flash} (ha : s.dev.active = true)
    (h : f s.dev s.flash = some (d, m)) : s.report f = s.onRig d.settle m := by
  simp [State.report, ha, h, State.onRig]

/-- One that cannot changes nothing (log 18). -/
theorem State.report_none {s : State} {f : Device → Flash → Option Rig} (h : f s.dev s.flash = none) : s.report f = s := by
  unfold State.report
  rw [h]
  split <;> rfl

theorem recordGood_iff (bytes : List Byte) (st : Fin 16) (inc : Byte) (seq : Nat) :
    recordGood bytes st inc seq = true ↔
      crcBytes (bytes.take 10) = (bytes.drop 10).take 2 ∧ (byteAt bytes 0).toNat = st.val ∧ byteAt bytes 1 = inc ∧
        fieldAt bytes 4 4 = seq ∧ (1 ≤ (byteAt bytes 2).toNat ∧ (byteAt bytes 2).toNat ≤ 240) ∧
        byteAt bytes 14 = 0x00#8 ∧ byteAt bytes 15 = 0xFF#8 ∧
        crcBytes ((bytes.drop 16).take (byteAt bytes 2).toNat) = (bytes.drop 12).take 2 := by
  simp only [recordGood, headerGood, pagePayload, bytesAt, erasedByte, Bool.and_eq_true, beq_iff_eq, decide_eq_true_eq,
    and_assoc]

/-- The read of an executor that holds the array (R54). -/
theorem State.readPageDone_eq {s : State} {p : Port} {st : Fin 16} {inc : Byte} {seq n k sector page : Nat}
    (ha : s.dev.active = true) (hh : s.dev.arbiter.holder = some (.executor p)) (ho : s.dev.arrayOp = .read sector page)
    (hj : (s.dev.exec p).job = .reading st inc seq n k) :
    exec .readPageDone s = .next (s.onDev (match (s.dev.exec p).inHand with
      | none => s.dev.release.rest p
      | some _ => s.dev.release.readOutcome p st inc seq (s.flash.readPage sector page)).settle) := by
  have hread : s.dev.readOnArray = some (p, st, inc, seq, sector, page) := by
    simp [Device.readOnArray, Device.holdingPort, hh, ho, hj]
  have hreport : s.dev.readPageDone s.flash = some (match (s.dev.exec p).inHand with
      | none => s.dev.release.rest p
      | some _ => s.dev.release.readOutcome p st inc seq (s.flash.readPage sector page), s.flash) := by
    simp only [Device.readPageDone, hread]
    cases (s.dev.exec p).inHand <;> rfl
  show Host.Outcome.next (s.report Device.readPageDone) = _
  rw [State.report_some ha hreport]
  rfl

/-- Settles O36: the eight checks byte by byte, and the outcome by what is left of stream and cursor. -/
theorem pageReadAnswersTheReader : Obligations.PageReadAnswersTheReader := by
  refine ⟨recordGood_iff, fun s p st inc seq n k sector page ha hh ho hj => ?_⟩
  intro bytes d
  rw [State.readPageDone_eq ha hh ho hj]
  refine ⟨fun hnone => by rw [hnone]; rfl, fun r hr => ?_⟩
  rw [hr]
  have outcome {d' : Device} (h : d.readOutcome p st inc seq bytes = d') :
      (.next (s.onDev (d.readOutcome p st inc seq bytes).settle) : Host.Outcome State Fault Refusal) =
        .next (s.onDev d'.settle) := by
    rw [h]
  have hmode : d.mode = s.dev.mode := rfl
  have hstream : d.stream st = s.dev.stream st := rfl
  have hinc : d.incarnation st = s.dev.incarnation st := rfl
  have hcursor : d.cursor st p = s.dev.cursor st p := rfl
  refine ⟨fun hm => outcome ?formatting, fun hm => ⟨fun hgone => outcome ?stream, fun b hs hi => ⟨fun hc => outcome ?cursor,
    fun c hc => ⟨fun hg => outcome ?good, fun hg => outcome ?bad⟩⟩⟩⟩
  case formatting => simp [Device.readOutcome, hmode, hm]
  case stream =>
    rcases hgone with hs | hi
    · simp [Device.readOutcome, hmode, hm, hstream, hs]
    · simp only [Device.readOutcome, hmode, hm, if_false, hstream, hinc]
      cases s.dev.stream st <;> simp [hi]
  case cursor => simp [Device.readOutcome, hmode, hm, hstream, hs, hinc, hi, hcursor, hc]
  case good =>
    simp [Device.readOutcome, hmode, hm, hstream, hs, hinc, hi, hcursor, hc, hg, recordBody, pagePayload, bytesAt]
  case bad => simp [Device.readOutcome, hmode, hm, hstream, hs, hinc, hi, hcursor, hc, hg]

/-! ### SYNC -/

theorem Device.takeSync_eq {d : Device} {p : Port} (hm : d.mode = .ready ∨ d.mode = .readOnly)
    (ha : (d.port p).attached = true) (r : Request) :
    (d.received p r).takeSync p =
      if d.newestSerial ≤ d.writer.durableSerial then (d.received p r).answer p .ok (bigEndian 4 d.writer.durableSerial)
      else (d.received p r).awaitDurable p .none d.newestSerial := by
  rw [takeSync, Device.received_admission, Device.received_mode, readMode_of hm, Device.admission_none ha]
  rfl

/-- Settles O31. -/
theorem syncAnswersOrWaits : Obligations.SyncAnswersOrWaits := by
  intro s p tag h hm ha target
  have htake := Device.takeSync_eq hm ha (.known tag .sync [])
  refine ⟨fun hd => ?durable, fun hd => ⟨fun hw => ?halted, fun hw => ?waits⟩⟩
  case durable => exact exec_command_only_answers h .sync tag [] .ok _ rfl rfl (htake.trans (if_pos hd))
  case halted =>
    refine exec_command_only_answers h .sync tag [] .readOnly [] rfl rfl
      ((htake.trans (if_neg (Nat.not_le.mpr hd))).trans ?_)
    simp [Device.awaitDurable, hw]
  case waits =>
    have hcarry : (s.dev.received p (.known tag .sync [])).takeSync p =
        (s.dev.received p (.known tag .sync [])).toExec p (.waitDurable target) .none := by
      refine (htake.trans (if_neg (Nat.not_le.mpr hd))).trans ?_
      rw [Device.awaitDurable, Device.received_writer, if_neg hw]
      exact if_neg (Nat.not_le.mpr hd)
    refine (exec_command_awaits h.1 .sync tag [] rfl).trans ?_
    rw [Device.process_received h.2 rfl]
    exact congrArg (fun d : Device => Host.Outcome.next (s.onDev d.settled)) hcarry

/-! ### The order of grants -/

theorem Device.nextClaimant_executor {d : Device} (hw : d.writerClaims = false)
    (he : d.engineClaims = false ∨ d.arbiter.starved = false) :
    d.nextClaimant = (((roundRobin d.arbiter.pointer).find? fun p => d.execClaims p).map Claimant.executor).or
      (if d.engineClaims then some .engine else none) := by
  have hnot : ¬(d.engineClaims && d.arbiter.starved) = true := by rcases he with he | he <;> simp [he]
  rw [Device.nextClaimant, hw, if_neg (by simp), if_neg hnot]
  cases (roundRobin d.arbiter.pointer).find? fun p => d.execClaims p <;> rfl

/-- Settles O33. -/
theorem grantsFollowTheFourRules : Obligations.GrantsFollowTheFourRules := by
  intro d
  refine ⟨fun hw => ?writer, fun hw he hs => ?starved, fun hw he p q r hmem => ?executors⟩
  case writer => simp [Device.nextClaimant, hw]
  case starved => simp [Device.nextClaimant, hw, he, hs]
  case executors =>
    have hrobin : roundRobin d.arbiter.pointer = [p, q, r] := by
      simp only [List.mem_cons, Prod.mk.injEq, List.not_mem_nil, or_false] at hmem
      rcases hmem with ⟨hp, rfl, rfl, rfl⟩ | ⟨hp, rfl, rfl, rfl⟩ | ⟨hp, rfl, rfl, rfl⟩ <;> rw [hp] <;> rfl
    rw [Device.nextClaimant_executor hw he, hrobin]
    refine ⟨fun hp => ?_, fun hp hq => ?_, fun hp hq hr => ?_, fun hp hq hr => ?_⟩
    · simp [List.find?, hp]
    · simp [List.find?, hp, hq]
    · simp [List.find?, hp, hq, hr]
    · simp [List.find?, hp, hq, hr]

/-! ### A stopped pulse -/

/-- Once ABANDON is stopping the pulse no SUSPEND is issued (R82; log 47). -/
theorem Device.mustSuspend_abandoned {d : Device} {x : EraseContext} (hx : d.eraseCtx = some x) (h : x.abandon = true) :
    d.mustSuspend = false := by
  unfold Device.mustSuspend
  rw [hx]
  split
  · rename_i hc
    cases hc
    simp [h]
  · rfl

/-- An erase abandoned while the engine holds the array (R102). -/
theorem Device.eraseAbandoned_eq {d : Device} {c : CurrentErase} (hc : d.engine.current = some c)
    (hh : d.arbiter.holder = some .engine) :
    d.drawn.eraseAbandoned = { (d.drawn.setEraseState c .queued).release with
      eraseCtx := none, engine := { d.engine with current := none, state := .idle } } := by
  have hcur : d.drawn.engine.current = some c := hc
  unfold Device.eraseAbandoned Device.setEraseState
  rw [hcur]
  cases hsource : c.source <;> simp [hsource, hh, Device.release]

/-- Settles O46. -/
theorem stoppedPulsesAreReported : Obligations.StoppedPulsesAreReported := by
  intro s x c ha hx hc f mark
  have hmark (v : SectorState) : s.dev.drawn.setEraseState c v = mark v := by
    simp only [mark, Device.setEraseState]
    cases c.source <;> rfl
  refine ⟨fun ho hphase hab => ?suspended, fun hab hh => ?abandoned, fun hab => ⟨?noSuspend, ?noReport, fun verified => ?noPulse⟩⟩
  case suspended =>
    show Host.Outcome.next (s.report Device.suspendedReport) = _
    rw [State.report_some (d := s.dev.drawn.eraseSuspended x c) (m := f) ha]
    · rw [← hmark]
      rfl
    · simp [Device.suspendedReport, hx, hc, ho, hphase, hab, f]
  case abandoned =>
    show Host.Outcome.next (s.report Device.abandonedReport) = _
    rw [State.report_some (d := s.dev.drawn.eraseAbandoned) (m := f) ha]
    · rw [← hmark, Device.eraseAbandoned_eq hc hh]
    · simp [Device.abandonedReport, hx, hab, f]
  case noSuspend => exact (Device.stepSuspend_none_iff _).mpr (Device.mustSuspend_abandoned hx hab)
  case noReport =>
    show Host.Outcome.next (s.report Device.suspendedReport) = _
    rw [State.report_none]
    simp [Device.suspendedReport, hx, hc, hab]
  case noPulse =>
    show Host.Outcome.next (s.report (Device.erasePulseEnd verified)) = _
    rw [State.report_none]
    simp [Device.erasePulseEnd, hx, hc, hab]

end Sys2Proof.Machine
end

