-- ==== Sys2Proof/Proofs/TimersExpire.lean ====
section
/-! What the expiry of each timer does (R35, R80, R87, R89, R91, R109). -/

namespace Sys2Proof.Machine

open Sys2Proof

-- One process elaborates the whole text: proofs taken in turn stay within its memory.
set_option Elab.async false

/-! ### The flush timer -/

/-- The writer with its flush timer expired (R109). -/
def Writer.expired (w : Writer) : Writer := { w with timerRunning := false, timerExpired := true }

/-- The idle writer that can flush claims its page on the timer's expiry (R109). -/
theorem Device.AtRest.flushClaims {d : Device} (h : d.AtRest) (hm : d.mode = .ready ∨ d.mode = .readOnly)
    (hs : d.writer.state = .idle) (hcan : d.writer.canFlush = true) (hphase : d.writer.phase = .none) :
    ({ d with writer := d.writer.expired } : Device).consequence =
      some { d with writer := { d.writer.expired with state := .claim1 } } := by
  generalize hd : ({ d with writer := d.writer.expired } : Device) = e
  have hpurge : e.stepPurge = none := by subst hd; exact (Device.stepPurge_none_iff _).mpr ⟨h.purge, h.staging⟩
  have htake (q : Port) : e.stepTake q = none := by
    subst hd
    exact Device.stepTake_congr (d := d) rfl rfl rfl (h.take q)
  have hchoice : e.stepChoice = none := by subst hd; exact (Device.stepChoice_none_iff _).mpr h.choice
  have hcompaction : e.stepCompaction = none := by
    subst hd
    exact (Device.stepCompaction_none_iff _).mpr h.compaction
  have hsnapshot : e.stepSnapshot = none := by subst hd; exact (Device.stepSnapshot_none_iff _).mpr h.snapshot
  have hclaim : e.stepClaim = some { d with writer := { d.writer.expired with state := .claim1 } } := by
    have hmode : writerMode d.mode = true := by rcases hm with hm | hm <;> rw [hm] <;> rfl
    have hwaits : d.writer.expired.checkpointWaits = false := by simp [Writer.checkpointWaits, Writer.expired, hphase]
    have hcan' : d.writer.expired.canFlush = true := hcan
    have hs' : d.writer.expired.state = .idle := hs
    have htrigger : e.flushTrigger = true := by
      subst hd
      simp [Device.flushTrigger, Writer.expired]
    subst hd
    simp only [Device.stepClaim, hmode, hwaits, hcan', hs', htrigger, Bool.and_self, beq_self_eq_true, if_true,
      Bool.false_eq_true, if_false]
  unfold Device.consequence
  rw [hpurge, htake, htake, htake, hchoice, hcompaction, hsnapshot, hclaim]
  rfl

/-- With its claim placed, nothing before the arbiter is due. -/
theorem Device.AtRest.flushSettled {d : Device} (h : d.AtRest) (hs : d.writer.state = .idle)
    (hhalf : d.writer.activeHalf.isSome = true) (hphase : d.writer.phase = .none) :
    ({ d with writer := { d.writer.expired with state := .claim1 } } : Device).Settled where
  purge := h.purge
  staging _ := by simp [Writer.takesEntries, Writer.expired, hhalf]
  take q := Device.stepTake_congr (d := d) rfl rfl rfl (h.take q)
  choice := h.choice
  compaction := by
    have hc := h.compaction
    have ht : d.writer.takesEntries = true := by simp [Writer.takesEntries, hs, hhalf]
    have ht' : ({ d.writer.expired with state := .claim1 } : Writer).takesEntries = true := by
      simp [Writer.takesEntries, Writer.expired, hhalf]
    unfold Device.compactionDue at hc ⊢
    rw [ht] at hc
    exact (congrArg (fun t => (d.mode == .ready || d.mode == .readOnly) && t && d.writer.phase == .none &&
      (decide (Config.compactionTrigger ≤ d.writer.writePos) || d.writer.broken)) ht').trans hc
  snapshot := by simp [Device.snapshotDue, Writer.expired, hphase]
  claim _ hidle := by cases hidle

/-! ### Flags of the arbiter and the engine -/

theorem isNone_of_ne {α : Type} {o : Option α} (h : o ≠ none) : o.isNone = false := by
  cases o with
  | none => exact absurd rfl h
  | some x => rfl

/-- What the arbiter and the engine note of a timer is not looked at before the arbiter's turn. -/
theorem Device.Settled.noted {d : Device} (h : d.Settled) (a : Arbiter) {x : Engine} (choosing : x.choosing = d.engine.choosing)
    (state : x.state = d.engine.state) (slot : x.slot = d.engine.slot) :
    ({ d with arbiter := a, engine := x } : Device).Settled := by
  refine ⟨h.purge, h.staging, fun q => Device.stepTake_congr (d := d) rfl rfl rfl (h.take q), fun hc => ?_, h.compaction,
    h.snapshot, h.claim⟩
  have hstate := h.choice (choosing ▸ hc)
  refine state.trans (hstate.trans ?_)
  unfold Device.chosenState
  rw [← slot]
  rfl

/-- Without a claim of an executor or the writer no SUSPEND is due (R89). -/
theorem Device.mustSuspend_of_no_claims {d : Device} (hexec : d.someExecClaims = false) (hwriter : d.writerClaims = false) :
    d.mustSuspend = false := by
  unfold Device.mustSuspend
  split
  · simp [hexec, hwriter]
  · rfl

/-- Nothing is due to an array that another holds, where no SUSPEND is (R86, R89). -/
theorem Device.Settled.held {d : Device} (h : d.Settled) (hh : d.arbiter.holder ≠ none) (hs : d.mustSuspend = false)
    (hstop : d.mode = .stopping → d.writer.stopMove (d.arbiter.holder == some .writer) = none) : d.quiet := by
  refine Device.AtRest.quiet ⟨h, hs, hstop, fun hn => absurd hn hh, fun hn => absurd hn.2.1 hh, fun _ => ?_⟩
  simp [Device.stopComplete, isNone_of_ne hh]

/-- The part with SUSPEND issued (R80). -/
def Device.suspendIssued (d : Device) (x : EraseContext) : Device :=
  { d with
    engine := { d.engine with state := .suspending }
    arrayOp := .suspending
    eraseCtx := some { x with phase := .suspending } }

/-- The arbiter issues SUSPEND at an erase that has run for 2 ms, and nothing more is due (R89). -/
theorem Device.Settled.suspendsToRest {d : Device} (h : d.Settled) {c : CurrentErase} {x : EraseContext}
    (hc : d.engine.current = some c) (hx : d.eraseCtx = some x) (hs : d.engine.state = .running)
    (hphase : x.phase = .running) (hab : x.abandon = false) (ht : c.timer = .reached) (hb : c.suspensions < 16)
    (hclaims : d.someExecClaims = true ∨ d.writerClaims = true) (hh : d.arbiter.holder ≠ none)
    (hstop : d.mode = .stopping → d.writer.stopMove (d.arbiter.holder == some .writer) = none) :
    d.consequence = some (d.suspendIssued x) ∧ (d.suspendIssued x).quiet := by
  have hmust : d.mustSuspend = true := by
    have hclaim : (d.someExecClaims || d.writerClaims) = true := by simpa using hclaims
    simp [Device.mustSuspend, hc, hx, hs, hphase, hab, ht, hb, hclaim, Config.suspensionBudget]
  have hsuspend : d.suspend = d.suspendIssued x := by simp [Device.suspend, hx, Device.suspendIssued]
  refine ⟨hsuspend ▸ h.suspends hmust, ?_⟩
  have hsettled : (d.suspendIssued x).Settled := by
    refine ⟨h.purge, h.staging, fun q => Device.stepTake_congr (d := d) rfl rfl rfl (h.take q), fun hn => ?_,
      h.compaction, h.snapshot, h.claim⟩
    simp [Device.suspendIssued, Engine.choosing, hc] at hn
  exact hsettled.held hh (by simp [Device.mustSuspend, Device.suspendIssued, hc]) hstop

/-! ### The expiries -/

/-- Settles O32. -/
theorem timersActOnExpiry : Obligations.TimersActOnExpiry := by
  refine ⟨fun s p ha hs => ?space, fun s ha ht => ?flush, fun s ha hq => ⟨fun ht hh => ?starve, fun c x hc hx hs ht hphase hab hh => ?run⟩⟩
  case space =>
    intro d
    have htimeout : s.dev.spaceTimeout p = some (match s.dev.appendCheck p (s.dev.appendBody p) with
        | .ok _ => d.answer p .nospace []
        | .error status => d.answer p status []) := by
      have hcheck : (s.dev.leaveSpace p).appendCheck p ((s.dev.leaveSpace p).appendBody p) =
          s.dev.appendCheck p (s.dev.appendBody p) := rfl
      simp only [Device.spaceTimeout, hs, if_true, hcheck]
      cases s.dev.appendCheck p (s.dev.appendBody p) <;> rfl
    exact congrArg Host.Outcome.next (State.event_settle (f := fun d => d.spaceTimeout p) ha htimeout)
  case flush =>
    intro w
    have hevent : exec .flushTimerExpiry s = .next (s.onDev ({ s.dev with writer := w } : Device).settle) :=
      congrArg Host.Outcome.next (State.event_settle (f := Device.flushTimeout) ha (by simp [Device.flushTimeout, ht, w]))
    have claims (hq : s.dev.quiet) (hm : s.dev.mode = .ready ∨ s.dev.mode = .readOnly) (hi : s.dev.writer.state = .idle)
        (hhalf : s.dev.writer.activeHalf.isSome = true) (hopen : s.dev.writer.hasOpen = true)
        (hphase : s.dev.writer.phase = .none) (hpos : s.dev.writer.writePos < 32) :
        exec .flushTimerExpiry s = .next (s.onDev ({ s.dev with writer := { w with state := .claim1 } } : Device).settled) := by
      have hcan : s.dev.writer.canFlush = true := by simp [Writer.canFlush, hhalf, hopen, hphase, hpos, Config.halfPages]
      rw [hevent]
      exact congrArg _ (congrArg _ (Device.settle_of_consequence (hq.atRest.flushClaims hm hi hcan hphase)))
    refine ⟨hevent, fun hq hm hi hhalf hopen hphase hpos hh hs => ?_,
      fun c x hq hm hi hhalf hopen hphase hpos hh hs hc htimer hb hx hxp hab => ?_⟩
    · rw [claims hq hm hi hhalf hopen hphase hpos]
      refine congrArg _ (congrArg _ (Device.settled_quiet ?_))
      obtain ⟨q, hh⟩ := hh
      refine (hq.atRest.flushSettled hi hhalf hphase).held (by simp [hh]) ?_ fun hn => ?_
      · unfold Device.mustSuspend
        split
        · simp [hs]
        · rfl
      · rcases hm with hm | hm <;> simp [hm] at hn
    · rw [claims hq hm hi hhalf hopen hphase hpos]
      obtain ⟨hcons, hquiet⟩ := (hq.atRest.flushSettled hi hhalf hphase).suspendsToRest (c := c) (x := x) hc hx hs hxp hab
        htimer hb (.inr rfl) (by simp [hh]) fun hn => by rcases hm with hm | hm <;> simp [hm] at hn
      exact congrArg _ (congrArg _ (Device.settled_of_consequence hcons hquiet))
  case starve =>
    have hevent : exec .starvationTimerExpiry s = .next (s.onDev ({ s.dev with
        arbiter := { s.dev.arbiter with starved := true, starveTimer := false } } : Device).settle) :=
      congrArg Host.Outcome.next (State.event_settle (f := Device.starvationTimeout) ha (by simp [Device.starvationTimeout, ht]))
    rw [hevent]
    refine congrArg _ (congrArg _ (Device.settle_quiet ?_))
    exact (hq.atRest.toSettled.noted { s.dev.arbiter with starved := true, starveTimer := false } (x := s.dev.engine) rfl rfl
      rfl).held hh hq.atRest.suspend hq.atRest.stop
  case run =>
    intro current
    have hevent : exec .runTimerExpiry s = .next (s.onDev ({ s.dev with
        engine := { s.dev.engine with current := current } } : Device).settle) :=
      congrArg Host.Outcome.next (State.event_settle (f := Device.runTimeout) ha (by simp [Device.runTimeout, hc, hs, ht, current]))
    have hsettled : ({ s.dev with engine := { s.dev.engine with current := current } } : Device).Settled :=
      hq.atRest.toSettled.noted s.dev.arbiter (x := { s.dev.engine with current := current })
        (by simp [Engine.choosing, current, hc]) rfl rfl
    rw [hevent]
    refine ⟨fun hno => congrArg _ (congrArg _ (Device.settle_quiet (hsettled.held hh ?_ hq.atRest.stop))),
      fun hclaims hb => ?_⟩
    · rcases hno with ⟨hexec, hwriter⟩ | hbudget
      · exact Device.mustSuspend_of_no_claims hexec hwriter
      · simp [Device.mustSuspend, current, hx, Config.suspensionBudget, Nat.not_lt.mpr hbudget]
    · obtain ⟨hcons, hquiet⟩ := hsettled.suspendsToRest (c := { c with timer := .reached }) (x := x) rfl hx hs hphase hab
        rfl hb hclaims hh hq.atRest.stop
      exact congrArg _ (congrArg _ (Device.settle_of_quiet_consequence hcons hquiet))

end Sys2Proof.Machine
end

