-- ==== Sys2Proof/Proofs/StreamTables.lean ====
section
/-! What the operations on the stream table and the page maps leave of streams and sectors, said once for each (R4 to R6,
R10, R36). -/

namespace Sys2Proof.Machine

open Sys2Proof

-- One process elaborates the whole text: proofs taken in turn stay within its memory.
set_option Elab.async false

/-! ### Counters and the high flag (R4 to R6) -/

section Streams

variable (d : Device) (st : Fin 16)

@[simp] theorem Device.evalHigh_mode : (d.evalHigh st).mode = d.mode := by rw [Device.evalHigh_frame]
@[simp] theorem Device.evalHigh_sectors : (d.evalHigh st).sectors = d.sectors := by rw [Device.evalHigh_frame]
@[simp] theorem Device.evalHigh_writer : (d.evalHigh st).writer = d.writer := by rw [Device.evalHigh_frame]
@[simp] theorem Device.evalHigh_cursors : (d.evalHigh st).cursors = d.cursors := by rw [Device.evalHigh_frame]
@[simp] theorem Device.recount_mode : (d.recount st).mode = d.mode := by rw [Device.recount_frame]
@[simp] theorem Device.recount_sectors : (d.recount st).sectors = d.sectors := by rw [Device.recount_frame]
@[simp] theorem Device.recount_writer : (d.recount st).writer = d.writer := by rw [Device.recount_frame]
@[simp] theorem Device.recount_cursors : (d.recount st).cursors = d.cursors := by rw [Device.recount_frame]
@[simp] theorem Device.recount_events : (d.recount st).events = d.events := by rw [Device.recount_frame]

/-- A sector's descriptor is read off the sector map alone (R8). -/
theorem Device.sector_congr {d d' : Device} (h : d'.sectors = d.sectors) (n : Nat) : d'.sector n = d.sector n := by
  simp [Device.sector, h]

theorem Device.chainUsed_congr {d d' : Device} (h : d'.sectors = d.sectors) (chain : List Nat) :
    d'.chainUsed chain = d.chainUsed chain := by
  simp [Device.chainUsed, Device.sector, h]

theorem Device.chainOldest_congr {d d' : Device} (h : d'.sectors = d.sectors) (chain : List Nat) (next : Nat) :
    d'.chainOldest chain next = d.chainOldest chain next := by
  simp [Device.chainOldest, Device.sector, h]

variable {st} in
theorem Device.recount_stream_self {b : StreamBody} (h : d.stream st = some b) : (d.recount st).stream st =
    some { b with used := d.chainUsed b.chain, oldest := d.chainOldest b.chain b.next } := by
  simp [Device.recount, h]

theorem Device.recount_stream_other {st' : Fin 16} (h : st' ≠ st) : (d.recount st).stream st' = d.stream st' := by
  unfold Device.recount
  split
  · rfl
  · exact Device.stream_setBody_other d st st' _ h

@[simp] theorem Device.recount_incarnation (st' : Fin 16) : (d.recount st).incarnation st' = d.incarnation st' := by
  unfold Device.recount
  split <;> simp

theorem Device.evalHigh_stream_other {st' : Fin 16} (h : st' ≠ st) : (d.evalHigh st).stream st' = d.stream st' := by
  unfold Device.evalHigh
  split
  · rfl
  · split
    · split
      · rfl
      · rw [Device.offer_frame]
        exact Device.stream_setBody_other d st st' _ h
    · exact Device.stream_setBody_other d st st' _ h

@[simp] theorem Device.evalHigh_incarnation (st' : Fin 16) : (d.evalHigh st).incarnation st' = d.incarnation st' := by
  unfold Device.evalHigh
  split
  · rfl
  · split
    · split
      · rfl
      · rw [Device.offer_frame]
        exact Device.incarnation_setBody d st st' _
    · exact Device.incarnation_setBody d st st' _

theorem Device.evalHigh_stream_none (h : d.stream st = none) : d.evalHigh st = d := by simp [Device.evalHigh, h]

theorem Device.recount_none (h : d.stream st = none) : d.recount st = d := by simp [Device.recount, h]

/-- A stream's counters and flags brought up to date, as R36, R24 and R148 do it: recounted, then the high flag. -/
theorem Device.recounted_self {b : StreamBody} (h : d.stream st = some b) : ((d.recount st).evalHigh st).stream st =
    some { b with
      used := d.chainUsed b.chain, oldest := d.chainOldest b.chain b.next
      high := decide (b.quota * 16 - d.chainUsed b.chain ≤ b.margin) } :=
  (highFlagFollowsTheRoom _ st _ (d.recount_stream_self h)).1

theorem Device.recounted_other {st' : Fin 16} (h : st' ≠ st) : ((d.recount st).evalHigh st).stream st' = d.stream st' := by
  rw [Device.evalHigh_stream_other _ _ h, Device.recount_stream_other _ _ h]

/-- It changes the stream table and the event units. -/
theorem Device.recounted_frame : (d.recount st).evalHigh st =
    { d with streams := ((d.recount st).evalHigh st).streams, events := ((d.recount st).evalHigh st).events } := by
  rw [Device.evalHigh_frame, Device.recount_frame]

/-- A stream keeps its writer and its incarnation while its counters follow its chain (R1). -/
theorem Device.recounted_writer (st' : Fin 16) {b : StreamBody} (h : d.stream st' = some b) :
    ∃ b', ((d.recount st).evalHigh st).stream st' = some b' ∧ b'.writer = b.writer := by
  by_cases hst : st' = st
  · subst hst
    exact ⟨_, d.recounted_self st' h, rfl⟩
  · exact ⟨b, (d.recounted_other st hst).trans h, rfl⟩

end Streams

/-! ### A page taken (R36) -/

@[simp] theorem Sector.setPage_state (x : Sector) (page : Nat) (v : PageState) : (x.setPage page v).state = x.state := by
  unfold Sector.setPage
  split <;> rfl

@[simp] theorem Sector.setPage_mark (x : Sector) (page : Nat) (v : PageState) : (x.setPage page v).mark = x.mark := by
  unfold Sector.setPage
  split <;> rfl

/-- The descriptor of a sector whose page is taken: FILLED after its page 15 (R36). -/
def Sector.taken (x : Sector) (page : Nat) : Sector :=
  { x.setPage page .writing with state := if page = 15 then .filled else x.state }

theorem Device.takePage_eq (d : Device) (st : Fin 16) (n page : Nat) : d.takePage st n page =
    ((d.setSector n ((d.sector n).taken page)).recount st).evalHigh st := by
  have : (d.sector n).taken page = if page = 15 then { (d.sector n).setPage page .writing with state := .filled }
      else (d.sector n).setPage page .writing := by
    unfold Sector.taken
    split
    · rfl
    · rw [← Sector.setPage_state (d.sector n) page .writing]
  rw [this]
  rfl

/-- Taking a page changes the sector map, the stream table and the event units. -/
theorem Device.takePage_frame (d : Device) (st : Fin 16) (n page : Nat) : d.takePage st n page =
    { d with
      sectors := (d.takePage st n page).sectors, streams := (d.takePage st n page).streams
      events := (d.takePage st n page).events } := by
  rw [Device.takePage_eq, Device.recounted_frame, Device.setSector_frame]

theorem Device.takePage_sector (d : Device) (st : Fin 16) {n : Nat} (page : Nat) (hn : n < 256) :
    (d.takePage st n page).sector n = (d.sector n).taken page := by
  rw [Device.takePage_eq, Device.sector_congr ((Device.evalHigh_sectors _ st).trans (Device.recount_sectors _ st)),
    Device.sector_setSector _ _ _ hn]

theorem Device.takePage_sector_other (d : Device) (st : Fin 16) {n m : Nat} (page : Nat) (h : m ≠ n) :
    (d.takePage st n page).sector m = d.sector m := by
  rw [Device.takePage_eq, Device.sector_congr ((Device.evalHigh_sectors _ st).trans (Device.recount_sectors _ st)),
    Device.sector_setSector_other _ _ _ _ h]

theorem Device.takePage_stream (d : Device) (st : Fin 16) (n page : Nat) {b : StreamBody} (h : d.stream st = some b) :
    (d.takePage st n page).stream st = some { b with
      used := (d.takePage st n page).chainUsed b.chain, oldest := (d.takePage st n page).chainOldest b.chain b.next
      high := decide (b.quota * 16 - (d.takePage st n page).chainUsed b.chain ≤ b.margin) } := by
  have hs : (d.setSector n ((d.sector n).taken page)).stream st = some b := by simpa [Device.stream] using h
  have hsectors : (d.takePage st n page).sectors = (d.setSector n ((d.sector n).taken page)).sectors := by
    rw [Device.takePage_eq]
    simp
  rw [Device.chainUsed_congr hsectors, Device.chainOldest_congr hsectors, Device.takePage_eq]
  exact Device.recounted_self _ st hs

/-- No stream comes to have another writer or incarnation. -/
theorem Device.takePage_writer (d : Device) (st : Fin 16) (n page : Nat) (st' : Fin 16) {b : StreamBody}
    (h : d.stream st' = some b) : ∃ b', (d.takePage st n page).stream st' = some b' ∧ b'.writer = b.writer := by
  rw [Device.takePage_eq]
  exact Device.recounted_writer _ st st' (by simpa [Device.stream] using h)

@[simp] theorem Device.takePage_incarnation (d : Device) (st : Fin 16) (n page : Nat) (st' : Fin 16) :
    (d.takePage st n page).incarnation st' = d.incarnation st' := by
  rw [Device.takePage_eq, Device.evalHigh_incarnation, Device.recount_incarnation]
  simp [Device.incarnation]

/-! ### Where executors and the arbiter stand aside -/

section Work

variable (d : Device) (E : PerPort Executor) (a : Arbiter)

/-- The part with its executors and arbiter as given. -/
def Device.withWork : Device := { d with execs := E, arbiter := a }

theorem Device.evalHigh_withWork (st : Fin 16) : (d.withWork E a).evalHigh st = (d.evalHigh st).withWork E a := by
  have hs : (d.withWork E a).stream st = d.stream st := rfl
  unfold Device.evalHigh
  rw [hs]
  split
  · rfl
  · split
    · split
      · rfl
      · unfold Device.offer
        split <;> rename_i h
        · exact (if_pos h).symm ▸ rfl
        · exact (if_neg h).symm ▸ rfl
    · rfl

theorem Device.recount_withWork (st : Fin 16) : (d.withWork E a).recount st = (d.recount st).withWork E a := by
  have hs : (d.withWork E a).stream st = d.stream st := rfl
  unfold Device.recount
  rw [hs]
  split <;> rfl

theorem Device.setSector_withWork (n : Nat) (x : Sector) : (d.withWork E a).setSector n x = (d.setSector n x).withWork E a := by
  unfold Device.setSector
  split <;> rfl

/-- Taking a page looks at neither (R36). -/
theorem Device.takePage_withWork (st : Fin 16) (n page : Nat) :
    (d.withWork E a).takePage st n page = (d.takePage st n page).withWork E a := by
  rw [Device.takePage_eq, Device.takePage_eq, Device.setSector_withWork, Device.recount_withWork, Device.evalHigh_withWork]
  rfl

end Work

end Sys2Proof.Machine
end

