-- ==== Sys2Proof/Proofs/Grants.lean ====
section
/-! What a grant of the array starts (R36, R38, R46, R53, R74, R79, R81, R91, R95, R110, R118), and an APPEND from its
claim to step 1 (R29, R36, R37, R87, R89). -/

namespace Sys2Proof.Machine

open Sys2Proof

-- One process elaborates the whole text: proofs taken in turn stay within its memory.
set_option Elab.async false

/-! ### The metadata writer's grants (R110, R118) -/

theorem takeOpen_length (n : Nat) (l : List Staged) : (takeOpen n l).length = l.length := by
  rw [← List.length_map (f := Staged.serial), takeOpen_serials, List.length_map]

/-- The first `n` open entries become taken, the others stand (R110). -/
theorem takeOpen_getElem? {n i : Nat} {l : List Staged} {x : Staged} (h : l[i]? = some x) : (takeOpen n l)[i]? =
    some (if x.cond = .opened ∧ ((l.take i).filter fun y => y.cond = .opened).length < n then { x with cond := .taken } else x) := by
  induction l generalizing n i with
  | nil => simp at h
  | cons e es ih =>
    cases n with
    | zero => simp [takeOpen, h]
    | succ n =>
      by_cases he : e.cond = .opened
      · cases i with
        | zero =>
          cases Option.some.inj h
          simp [takeOpen, he]
        | succ i => simpa [takeOpen, he] using ih (n := n) (i := i) (by simpa using h)
      · cases i with
        | zero =>
          cases Option.some.inj h
          simp [takeOpen, he]
        | succ i => simpa [takeOpen, he] using ih (n := n + 1) (i := i) (by simpa using h)

/-- In serial order, the entries taken come before those left open (R110). -/
theorem openEntries_lowest {n : Nat} {l : List Staged} (h : l.Pairwise fun x y => x.serial < y.serial) {x y : Staged}
    (hx : x ∈ openEntries n l) (hy : y ∈ l) (ho : y.cond = .opened) (hn : y ∉ openEntries n l) : x.serial < y.serial := by
  have hsorted := h.filter fun e : Staged => e.cond == .opened
  rw [← List.take_append_drop n (l.filter fun e => e.cond == .opened), List.pairwise_append] at hsorted
  have hmem : y ∈ l.filter fun e => e.cond == .opened := by simp [hy, ho]
  rw [← List.take_append_drop n (l.filter fun e => e.cond == .opened), List.mem_append] at hmem
  exact hsorted.2.2 x hx y (hmem.resolve_left hn)

theorem Writer.hasOpen_iff (w : Writer) : w.hasOpen = true ↔ ∃ x ∈ w.staging, x.cond = .opened := by
  simp [Writer.hasOpen]

theorem Device.grant_mark {d : Device} {g : PageInFlight} (hs : d.writer.state = .claim2) (hg : d.writer.inFlight = some g) :
    d.grant .writer = ({ d with arbiter := { d.arbiter with holder := some .writer } } : Device).grantMark g := by
  simp [Device.grant, Device.writerGrant, hs, hg]

theorem Device.grant_checkpoint {d : Device} (hs : d.writer.state = .claim1) (hp : d.writer.phase = .checkpoint) :
    d.grant .writer = ({ d with arbiter := { d.arbiter with holder := some .writer } } : Device).grantCheckpoint := by
  simp [Device.grant, Device.writerGrant, hs, hp]

theorem Device.grant_journal {d : Device} {half : Nat} (hs : d.writer.state = .claim1) (hp : d.writer.phase ≠ .checkpoint)
    (hh : d.writer.activeHalf = some half) :
    d.grant .writer = ({ d with arbiter := { d.arbiter with holder := some .writer } } : Device).grantJournal half := by
  simp [Device.grant, Device.writerGrant, hs, hp, hh]

/-! ### An executor's grants (R36, R38, R53) -/

/-- The array an executor's, the round-robin pointer moved to it (R87). -/
def Device.heldBy (d : Device) (p : Port) : Device :=
  { d with arbiter := { d.arbiter with holder := some (.executor p), pointer := p } }

theorem Device.grant_executor (d : Device) (p : Port) : d.grant (.executor p) = (d.heldBy p).executorGrant p := rfl

theorem Device.grant_seek {d : Device} {p : Port} {j : AppendJob} (hj : (d.exec p).job = .append j) (hs : j.phase = .seek) :
    d.grant (.executor p) = (d.heldBy p).grantStep1 p j := by
  have hj' : ((d.heldBy p).exec p).job = .append j := hj
  simp [Device.grant_executor, Device.executorGrant, hj', hs]

theorem Device.grant_between {d : Device} {p : Port} {j : AppendJob} (hj : (d.exec p).job = .append j)
    (hs : j.phase = .between) : d.grant (.executor p) = (d.heldBy p).grantStep2 p j := by
  have hj' : ((d.heldBy p).exec p).job = .append j := hj
  simp [Device.grant_executor, Device.executorGrant, hj', hs]

theorem Device.grant_reads {d : Device} {p : Port} {st : Fin 16} {inc : Byte} (hj : (d.exec p).job = .read st inc) :
    d.grant (.executor p) = (d.heldBy p).grantRead p st inc := by
  have hj' : ((d.heldBy p).exec p).job = .read st inc := hj
  simp [Device.grant_executor, Device.executorGrant, hj']

/-- The grant of step 1 where the stream's TAIL has an UNUSED page: the lowest is taken (R36, R37). -/
theorem Device.grantStep1_page {d : Device} {p : Port} {j : AppendJob} {b : StreamBody} {n page : Nat} (hm : d.mode = .ready)
    (hs : d.stream j.stream = some b) (ht : d.tailOf b = some n) (hu : (d.sector n).firstUnused = some page) :
    d.grantStep1 p j =
      { (d.takePage j.stream n page).toExec p .onArray (.append { j with phase := .step1, sector := n, page := page }) with
        arrayOp := .program n page 0 (d.step1Bytes p j.stream b) } := by
  simp [Device.grantStep1, hm, hs, ht, hu]

/-- The bytes of step 1 are those of the request in hand (R37). -/
theorem Device.step1Bytes_of {d : Device} {p : Port} {tag t0 t1 : Byte} {payload : List Byte} {number : Byte}
    (h : (d.exec p).inHand = some (.known tag .append (number :: t0 :: t1 :: payload))) (st : Fin 16) (b : StreamBody) :
    d.step1Bytes p st b = dataStep1 st (d.incarnation st) b.writer b.next [t0, t1] payload := by
  simp [Device.step1Bytes, Device.appendBody, h, bytesAt]

/-- The page located holds the record (R53). -/
theorem Device.locate_some {d : Device} {chain : List Nat} {seq n page : Nat} (h : d.locate chain seq = some (n, page)) :
    n ∈ chain ∧ (d.sector n).pageList[page]? = some (.live seq) := by
  obtain ⟨m, hm, hfind⟩ := List.exists_of_findSome?_eq_some h
  obtain ⟨k, hk, hpair⟩ := Option.map_eq_some_iff.mp hfind
  cases hpair
  obtain ⟨hlt, hlive, -⟩ := List.findIdx?_eq_some_iff_getElem.mp hk
  exact ⟨hm, List.getElem?_eq_some_iff.mpr ⟨hlt, by simpa using hlive⟩⟩

/-! ### The erase engine's grants (R79, R81, R91, R95) -/

theorem Device.grantStart_slot {d : Device} {n : Nat} {rest : List Nat} (h : d.engine.slot = n :: rest) : d.grantStart =
    if slotMode d.mode then ({ d with engine := { d.engine with slot := rest } } : Device).startErase n .slot
    else d.engineGivesUp := by
  rw [Device.grantStart, h]

theorem Device.grantStart_queue {d : Device} {n : Nat} (h : d.engine.slot = []) (hn : d.startableHead = some n) :
    d.grantStart =
      if (d.sector n).mark ≤ d.writer.durableSerial then d.startErase n .queue else d.engineGivesUp := by
  rw [Device.grantStart, h, hn]

theorem Device.grantStart_none {d : Device} (h : d.engine.slot = []) (hn : d.startableHead = none) :
    d.grantStart = d.engineGivesUp := by
  rw [Device.grantStart, h, hn]

theorem Device.grantResume_eq {d : Device} {c : CurrentErase} {x : EraseContext} (hc : d.engine.current = some c)
    (hx : d.eraseCtx = some x) : d.grantResume = { d.setEraseState c .erasing with
      engine := { d.engine with state := .running, current := some { c with timer := .running } }
      arbiter := { d.arbiter with starved := false, starveTimer := false }
      arrayOp := .erase
      eraseCtx := some { x with phase := .running } } := by
  rw [Device.grantResume, hc, hx]

theorem Device.startableHead_head {d : Device} {n : Nat} {rest : List Nat} (hq : d.eraseQueue = n :: rest)
    (hm : d.mode = .ready) (hs : (d.sector n).state = .queued) : d.startableHead = some n := by
  simp [Device.startableHead, hq, hm, hs]

theorem Device.startableHead_none {d : Device} (h : d.mode ≠ .ready ∨ d.eraseQueue = [] ∨
    ∃ n rest, d.eraseQueue = n :: rest ∧ (d.sector n).state ≠ .queued) : d.startableHead = none := by
  unfold Device.startableHead
  rcases h with hm | hq | ⟨n, rest, hq, hs⟩
  · split <;> simp [hm]
  · simp [hq]
  · simp [hq, hs]

/-- Settles O34. -/
theorem grantsStartTheirOperations : Obligations.GrantsStartTheirOperations := by
  refine ⟨fun d => ⟨fun hh ho hm hs => ?granted, fun h => ?busy⟩, fun d half => ?writer, fun d p j hj => ?append,
    fun d p st inc hj => ?read, fun d => ?engine⟩
  case granted => simp [Device.stepGrant, hh, ho, hm, hs]
  case busy =>
    rw [Device.stepGrant_none_iff]
    intro hh ho hm hs
    rcases h with h | h | h | h
    · exact absurd hh h
    · exact absurd ho h
    · exact absurd h hm
    · exact absurd h hs
  case writer =>
    intro w held
    refine ⟨fun g hs hg => Device.grant_mark hs hg, fun hs hp => Device.grant_checkpoint hs hp, fun hs hp hh =>
      ⟨openEntries 15 w.staging, takeOpen 15 w.staging, ((openEntries 15 w.staging).head?.map Staged.serial).getD 0, ?_,
        fun x hx => by simp [hx], takeOpen_length _ _, fun i x hx => takeOpen_getElem? hx,
        fun hsorted x hx y hy ho hn => openEntries_lowest hsorted hx hy ho hn, ?_⟩⟩
    · unfold openEntries
      congr 2
    · rw [Device.grant_journal hs hp hh]
      have hopen (w' : Writer) : w'.hasOpen = decide (∃ x ∈ w'.staging, x.cond = .opened) := by
        rw [Bool.eq_iff_iff, Writer.hasOpen_iff, decide_eq_true_iff]
      simp only [Device.grantJournal, hopen]
      rfl
  case append =>
    intro held freed
    have hmode : held.mode = d.mode := rfl
    have hstream : held.stream j.stream = d.stream j.stream := rfl
    have htail (b : StreamBody) : held.tailOf b = d.tailOf b := rfl
    refine ⟨fun hs => ⟨fun hm => ?_, fun hm hm' => ?_, fun hm => ⟨fun hnone => ?_, fun b hb => ⟨fun ht => ?_,
      fun n page t0 t1 payload tag ht hu hn hr => ?_⟩⟩⟩, fun hs => ⟨fun hm => ?_, fun hm => ?_⟩⟩
    · exact (Device.grant_seek hj hs).trans (by simp [Device.grantStep1, Device.heldBy, hm, freed, held])
    · exact (Device.grant_seek hj hs).trans (by simp [Device.grantStep1, Device.heldBy, hm, hm', freed, held])
    · refine (Device.grant_seek hj hs).trans ?_
      show held.grantStep1 p j = _
      simp [Device.grantStep1, hmode, hm, hstream, hnone, freed]
    · refine (Device.grant_seek hj hs).trans ?_
      show held.grantStep1 p j = _
      simp [Device.grantStep1, hmode, hm, hstream, hb, htail, ht, freed]
    · intro taken e
      have he : e = { ((d.heldBy p).takePage j.stream n page).toExec p .onArray
            (.append { j with phase := .step1, sector := n, page := page }) with
          arrayOp := .program n page 0 (dataStep1 j.stream (d.incarnation j.stream) b.writer b.next [t0, t1] payload) } := by
        refine ((Device.grant_seek hj hs).trans (Device.grantStep1_page hm hb ht hu)).trans ?_
        rw [Device.step1Bytes_of (d := d.heldBy p) hr]
        rfl
      have hexec : ((d.heldBy p).takePage j.stream n page).exec p = d.exec p := by
        rw [Device.takePage_frame]
        rfl
      have hsectors : e.sectors = ((d.heldBy p).takePage j.stream n page).sectors := by rw [he]; rfl
      have hpage := (d.heldBy p).takePage_stream j.stream n page hb
      rw [← Device.chainUsed_congr hsectors, ← Device.chainOldest_congr hsectors] at hpage
      refine ⟨?_, ?_, ?_, ?_, fun m hmn => ?_, ?_⟩
      · rw [he, Device.takePage_frame]
        rfl
      · rw [he]
      · rw [he]
        show (((d.heldBy p).takePage j.stream n page).toExec p _ _).exec p = _
        rw [Device.toExec, Device.exec_setExec, hexec]
      · rw [Device.sector_congr hsectors, Device.takePage_sector _ _ _ hn]
        simp [Sector.taken, taken, Device.heldBy, Device.sector]
      · rw [Device.sector_congr hsectors, Device.takePage_sector_other _ _ _ hmn]
        rfl
      · rw [← hpage, he]
        rfl
    · rw [Device.grant_between hj hs]
      exact if_neg hm
    · rw [Device.grant_between hj hs]
      exact if_pos hm
  case read =>
    intro held ends
    have hgrant := Device.grant_reads hj
    have hmode : held.mode = d.mode := rfl
    have hstream : held.stream st = d.stream st := rfl
    have hinc : held.incarnation st = d.incarnation st := rfl
    have hcursor : held.cursor st p = d.cursor st p := rfl
    have hlocate (chain : List Nat) (seq : Nat) : held.locate chain seq = d.locate chain seq := rfl
    refine ⟨fun hm => ?_, fun hm => ⟨fun hgone => ?_, fun b hb hi => ⟨fun hc => ?_, fun c hc => ⟨fun he => ?_,
      fun n page he hl => ⟨(Device.locate_some hl).2, (Device.locate_some hl).1, ?_⟩⟩⟩⟩⟩
    all_goals refine hgrant.trans ?_; show held.grantRead p st inc = _
    · simp [Device.grantRead, hmode, hm]
    · rcases hgone with hs | hi
      · simp [Device.grantRead, hmode, hm, hstream, hs]
      · cases hs : d.stream st <;> simp [Device.grantRead, hmode, hm, hstream, hs, hinc, hi]
    · simp [Device.grantRead, hmode, hm, hstream, hb, hinc, hi, hcursor, hc]
    · simp [Device.grantRead, hmode, hm, hstream, hb, hinc, hi, hcursor, hc, he]
    · simp [Device.grantRead, hmode, hm, hstream, hb, hinc, hi, hcursor, hc, he, hlocate, hl]
  case engine =>
    intro held starts idle
    generalize hg : ({ d with arbiter := { d.arbiter with holder := some .engine } } : Device) = g
    have hgrant : d.grant .engine = g.engineGrant := by rw [← hg]; rfl
    have hstarts (hs : d.engine.state ≠ .suspended) : d.grant .engine = g.grantStart := by
      rw [hgrant, Device.engineGrant, if_neg (by rw [← hg]; exact hs)]
    have hidle : g.engineGivesUp = idle := by subst hg; rfl
    refine ⟨fun hsus => ⟨fun n rest hslot => ⟨fun hm => ?_, fun hm => ?_⟩, fun hslot => ⟨fun n rest hq hm hs =>
      ⟨fun hmark => ?_, fun hmark => ?_⟩, fun hno => ?_⟩⟩, fun c x hsus hc hx => ?_⟩
    · rw [hstarts hsus, Device.grantStart_slot (by subst hg; exact hslot), if_pos (by subst hg; exact hm)]
      subst hg
      rfl
    · rw [hstarts hsus, Device.grantStart_slot (by subst hg; exact hslot),
        if_neg (by subst hg; exact (Bool.not_eq_true _).mpr hm), hidle]
    · rw [hstarts hsus, Device.grantStart_queue (by subst hg; exact hslot)
        (by subst hg; exact Device.startableHead_head hq hm hs), if_pos (by subst hg; exact hmark)]
      subst hg
      simp only [Device.startErase, Device.setEraseState, starts, held, Device.setSector]
      split <;> rfl
    · rw [hstarts hsus, Device.grantStart_queue (by subst hg; exact hslot)
        (by subst hg; exact Device.startableHead_head hq hm hs), if_neg (by subst hg; exact Nat.not_le.mpr hmark), hidle]
    · rw [hstarts hsus, Device.grantStart_none (by subst hg; exact hslot) (by subst hg; exact Device.startableHead_none hno),
        hidle]
    · intro on
      rw [hgrant, Device.engineGrant, if_pos (by subst hg; exact hsus),
        Device.grantResume_eq (c := c) (x := x) (by subst hg; exact hc) (by subst hg; exact hx)]
      subst hg
      refine ⟨fun hsource => ?_, fun hsource => ?_⟩
      · simp only [Device.setEraseState, hsource, on, held]
      · simp only [Device.setEraseState, hsource, on, held, Device.setSector]
        split <;> rfl

end Sys2Proof.Machine
end

