-- ==== Sys2Proof/Proofs/AppendStarts.lean ====
section
/-! An APPEND with a TAIL in its stream's chain, from its claim to step 1 (R29, R36, R37, R87, R89). -/

namespace Sys2Proof.Machine

open Sys2Proof

-- One process elaborates the whole text: proofs taken in turn stay within its memory.
set_option Elab.async false

section Checks

variable {d : Device} {p : Port} {st : Fin 16} {b : StreamBody} {t0 t1 : Byte} {payload : List Byte}

/-- The checks of R27 on a stream that exists, in READY from an attached port. -/
theorem Device.appendCheck_of (hw : d.writable p) (hs : d.stream st = some b) (t0 t1 : Byte) (payload : List Byte) :
    d.appendCheck p (streamByte st :: t0 :: t1 :: payload) =
      if b.held then .error .held
      else if b.writer ≠ p then .error .notWriter
      else if payload = [] ∨ 240 < payload.length then .error .badArg
      else if 4294967295 ≤ b.next then .error .seqExhausted
      else .ok (st, b) := by
  have hmode : writeMode d.mode = none := by rw [hw.1]; rfl
  simp [Device.appendCheck, hmode, Device.admission_none hw.2, Device.namedStream_of hs, Config.erasedSerial]
  congr

theorem Device.appendCheck_ok (hw : d.writerOf p st b) (hh : b.held = false) (h1 : 1 ≤ payload.length)
    (h2 : payload.length ≤ 240) (hn : b.next < 4294967295) :
    d.appendCheck p (streamByte st :: t0 :: t1 :: payload) = .ok (st, b) := by
  rw [Device.appendCheck_of hw.1 hw.2.1]
  have hne : payload ≠ [] := List.ne_nil_of_length_pos h1
  simp [hh, hw.2.2, hne, Nat.not_lt.mpr h2, Nat.not_le.mpr hn]

theorem Device.received_writable (r : Request) (h : d.writable p) : (d.received p r).writable p :=
  ⟨h.1, (d.received_attached p r p).trans h.2⟩

end Checks

theorem Device.received_exec_other (d : Device) {p q : Port} (r : Request) (h : q ≠ p) :
    (d.received p r).exec q = d.exec q :=
  Device.exec_setExec_other _ p q _ h

theorem Device.received_port_other (d : Device) {p q : Port} (r : Request) (h : q ≠ p) :
    (d.received p r).port q = d.port q :=
  Device.port_setPort_other d p q _ h

@[simp] theorem Device.grantedTo_exec (d : Device) (p q : Port) (op : ArrayOp) : (d.grantedTo p op).exec q = d.exec q := rfl

@[simp] theorem Device.grantedTo_port (d : Device) (p q : Port) (op : ArrayOp) : (d.grantedTo p op).port q = d.port q := rfl

@[simp] theorem Device.grantedTo_purgeTarget (d : Device) (p : Port) (op : ArrayOp) :
    (d.grantedTo p op).purgeTarget = d.purgeTarget := rfl

@[simp] theorem Device.toExec_purgeTarget (d : Device) (p : Port) (state : ExecState) (job : Job) :
    (d.toExec p state job).purgeTarget = d.purgeTarget := rfl

@[simp] theorem Device.grantedTo_chosenState (d : Device) (p : Port) (op : ArrayOp) :
    (d.grantedTo p op).chosenState = d.chosenState := rfl

@[simp] theorem Device.toExec_chosenState (d : Device) (p : Port) (state : ExecState) (job : Job) :
    (d.toExec p state job).chosenState = d.chosenState := rfl

/-- A stream with a TAIL in its chain: the append claims the array (R29). -/
theorem Device.findPlace_tail {d : Device} {p : Port} {j : AppendJob} {b : StreamBody} {n : Nat}
    (hs : d.stream j.stream = some b) (ht : d.tailOf b = some n) : d.findPlace p j = d.claimStep1 p j := by
  simp [Device.findPlace, hs, ht]

/-- A sector in TAIL has its descriptor in the map (R8). -/
theorem Device.tailOf_state {d : Device} {b : StreamBody} {n : Nat} (h : d.tailOf b = some n) :
    b.chain.getLast? = some n ∧ (d.sector n).state = .tail := by
  unfold Device.tailOf at h
  split at h
  · rename_i m hm
    split at h
    · rename_i hs
      cases h
      exact ⟨hm, hs⟩
    · cases h
  · cases h

/-- Taking a page of a TAIL does not touch the erase engine's choice: the queue's head is no TAIL (R94). -/
theorem Device.takePage_chosenState {d : Device} (st : Fin 16) {n page : Nat} (ht : (d.sector n).state = .tail) :
    (d.takePage st n page).chosenState = d.chosenState := by
  have hengine : (d.takePage st n page).engine = d.engine := by rw [Device.takePage_frame]
  have hmode : (d.takePage st n page).mode = d.mode := by rw [Device.takePage_frame]
  have hqueue : (d.takePage st n page).eraseQueue = d.eraseQueue := by rw [Device.takePage_frame]
  have hwriter : (d.takePage st n page).writer = d.writer := by rw [Device.takePage_frame]
  have hhead : (d.takePage st n page).startableHead = d.startableHead := by
    unfold Device.startableHead
    rw [hqueue, hmode]
    split
    · rfl
    · rename_i m rest _
      by_cases hm : m = n
      · subst hm
        by_cases hlt : m < 256
        · rw [Device.takePage_sector _ _ _ hlt, ht]
          have : (((d.sector m).taken page).state == SectorState.queued) = false := by
            unfold Sector.taken
            split <;> simp [ht]
          simp [this]
        · simp [Device.sector, hlt, Sector.blank] at ht
      · rw [Device.takePage_sector_other _ _ _ hm]
  unfold Device.chosenState
  rw [hengine, hmode, hhead, hwriter]
  split
  · rfl
  · split
    · rename_i m hm
      have hne : m ≠ n := by
        rintro rfl
        unfold Device.startableHead at hm
        split at hm
        · cases hm
        · split at hm
          · rename_i hq
            cases hm
            simp [ht] at hq
          · cases hm
      rw [Device.takePage_sector_other _ _ _ hne]
    · rfl

theorem Device.purgeTarget_some {d : Device} {st : Fin 16} {b : StreamBody} (h : d.purgeTarget = some (st, b)) :
    ∃ inc, d.consent.pending = some (st, inc) ∧ d.stream st = some b ∧ d.incarnation st = inc := by
  unfold Device.purgeTarget at h
  split at h
  · cases h
  · rename_i st' inc hpend
    split at h
    · cases h
    · rename_i b' hs
      split at h
      · rename_i hinc
        cases h
        exact ⟨inc, hpend, hs, hinc⟩
      · cases h

theorem Device.purgeTarget_of {d : Device} {st : Fin 16} {inc : Byte} {b : StreamBody}
    (hp : d.consent.pending = some (st, inc)) (hs : d.stream st = some b) (hi : d.incarnation st = inc) :
    d.purgeTarget = some (st, b) := by
  simp [Device.purgeTarget, hp, hs, hi]

/-- Settles O26. -/
theorem appendStartsStepOne : Obligations.AppendStartsStepOne := by
  intro s p tag t0 t1 payload st b sector h hw hheld h1 h2 hnext htail body d claimed
  have hrest := h.1.2.1.atRest
  have hready := h.1.2.2
  have hm : s.dev.mode = .ready := hw.1.1
  have hclaim : d.takeAppend p body = claimed := by
    have hcheck : d.appendCheck p body = .ok (st, b) :=
      Device.appendCheck_ok ⟨Device.received_writable _ hw.1, hw.2⟩ hheld h1 h2 hnext
    simp only [Device.takeAppend, hcheck]
    exact Device.findPlace_tail hw.2.1 htail
  have hexec : exec (.append p tag body) s = .next (s.onDev claimed.settled) := by
    refine (exec_command_awaits h.1 .append tag body ?_).trans ?_
    · simp [bodyFits, body]
      omega
    · rw [Device.process_received h.2 (by simp [lengthGood, Kind.bodyLength, body]), ← hclaim]
      rfl
  refine ⟨fun page hu hidle => ?granted, fun hh hs => ?waits, fun e x hh hs he ht hb hx hphase hab => ?suspends⟩
  case waits =>
    rw [hexec]
    exact congrArg _ (congrArg _ (Device.settled_quiet (hrest.claimWaits hready hh hs)))
  case suspends =>
    rw [hexec]
    exact congrArg _ (congrArg _ (hrest.claimSuspends hready hh hs he ht hb hx hphase hab))
  case granted =>
    rw [hexec]
    refine congrArg _ (congrArg _ (Device.settled_of_consequence
      ((hrest.claimGranted hready hidle (.inl hm)).trans (congrArg _ ?_)) ?_))
    · have hjob : (claimed.exec p).job = .append ⟨st, .seek, 0, 0, 0, []⟩ := by simp [claimed, Device.toExec]
      have hhand : (claimed.exec p).inHand = some (.known tag .append body) := by
        simp [claimed, Device.toExec, d]
      refine (Device.grant_seek hjob rfl).trans ?_
      rw [Device.grantStep1_page (d := claimed.heldBy p) (j := ⟨st, .seek, 0, 0, 0, []⟩) hm hw.2.1 htail hu,
        Device.step1Bytes_of (d := claimed.heldBy p) hhand]
      have htake : (claimed.heldBy p).takePage st sector page = (d.takePage st sector page).withWork
          (claimed.heldBy p).execs (claimed.heldBy p).arbiter :=
        Device.takePage_withWork d (claimed.heldBy p).execs (claimed.heldBy p).arbiter st sector page
      rw [htake, hw.2.2]
      have hexecs : (d.takePage st sector page).execs = d.execs := by rw [Device.takePage_frame]
      have harb : (d.takePage st sector page).arbiter = d.arbiter := by rw [Device.takePage_frame]
      have hwork : (claimed.heldBy p).execs = d.execs.set p { d.execs.get p with
          state := .waitArray, job := .append ⟨st, .seek, 0, 0, 0, []⟩ } := rfl
      simp only [Device.toExec, Device.setExec, Device.exec, Device.withWork, Device.grantedTo, hexecs, harb, hwork,
        PerPort.set_set, PerPort.get_set_self]
      rfl
    · have hframe := d.takePage_frame st sector page
      have hexecs : (d.takePage st sector page).execs = d.execs := by rw [hframe]
      have hports : (d.takePage st sector page).ports = d.ports := by rw [hframe]
      refine hrest.onArray hready (p := p) ?_ (fun q hq => ?_) (fun q hq => ?_) ?_ (fun st' b' hp => ?_) ?_ ?_ ?_ ?_ rfl
        hidle.2.2 (by simp [hm])
      · rw [Device.grantedTo_exec, Device.toExec, Device.exec_setExec]
        exact ⟨⟨ExecState.noConfusion, ExecState.noConfusion⟩, fun _ => ExecState.noConfusion⟩
      · rw [Device.grantedTo_exec, Device.toExec, Device.exec_setExec_other _ _ _ _ hq, Device.exec, hexecs]
        exact s.dev.received_exec_other _ hq
      · rw [Device.grantedTo_port, Device.toExec, Device.port_setExec, Device.port, hports]
        exact s.dev.received_port_other _ hq
      · rw [hframe]; rfl
      · have hconsent : (d.takePage st sector page).consent = s.dev.consent := by rw [hframe]; rfl
        obtain ⟨inc, hpend, hs', hinc⟩ := Device.purgeTarget_some hp
        obtain ⟨b'', hb'', hw''⟩ := d.takePage_writer st sector page st' hs'
        rw [Device.grantedTo_purgeTarget, Device.toExec_purgeTarget]
        exact ⟨b'', Device.purgeTarget_of (hconsent ▸ hpend) hb'' ((d.takePage_incarnation st sector page st').trans hinc),
          hw''⟩
      · rw [hframe]; rfl
      · rw [hframe]; rfl
      · rw [hframe]; rfl
      · rw [Device.grantedTo_chosenState, Device.toExec_chosenState,
          Device.takePage_chosenState (d := d) st (Device.tailOf_state htail).2]
        rfl

end Sys2Proof.Machine
end

