-- ==== Sys2Proof/Proofs/MetadataPages.lean ====
section
/-! The ends of a program step (R77) and what the metadata writer makes of them: its pages commit or fail (R111, R112,
R118, R120, R121), and the durable waiters are released (R113). -/

namespace Sys2Proof.Machine

open Sys2Proof

-- One process elaborates the whole text: proofs taken in turn stay within its memory.
set_option Elab.async false

/-! ### The end of a program step (R77) -/

section Steps

variable {d : Device} {flash : Flash} {sector page first : Nat} {target : List Byte}

theorem Device.stepPasses_of (ho : d.arrayOp = .program sector page first target)
    (hv : flash.verifies (pageBase sector page + first) target = true) : d.stepPasses flash =
      some (d.programDone (flash.holds (pageBase sector page + first) target),
        flash.programmed (pageBase sector page + first) target) := by
  simp [Device.stepPasses, ho, hv]

theorem Device.stepFails_of (ho : d.arrayOp = .program sector page first target)
    (hh : flash.holds (pageBase sector page + first) target = false) : d.stepFails flash =
      some (d.drawn, flash.programFailed d.draws (pageBase sector page + first) target) := by
  simp [Device.stepFails, ho, hh]

/-- A range that reads its target already does not fail (R77). -/
theorem Device.stepFails_none (ho : d.arrayOp = .program sector page first target)
    (hh : flash.holds (pageBase sector page + first) target = true) : d.stepFails flash = none := by
  simp [Device.stepFails, ho, hh]

/-- A range that reads its target verifies (R77). -/
theorem Flash.verifies_of_holds {base : Nat} (h : flash.holds base target = true) : flash.verifies base target = true := by
  have hr : flash.readRange base target.length = target := by simpa [Flash.holds] using h
  rw [Flash.verifies, hr, List.all_eq_true]
  intro x hx
  rw [List.mem_iff_getElem?] at hx
  obtain ⟨i, hi⟩ := hx
  rw [List.getElem?_zipWith] at hi
  cases ht : target[i]? with
  | none => simp [ht] at hi
  | some t =>
    rw [ht] at hi
    cases hi
    simp

/-- The end of a void step, verified or not: a byte that reads 00h verifies whatever the report (R77; log 27). -/
theorem Device.stepEnds_of {verified : Bool} (ho : d.arrayOp = .program sector page first target)
    (hv : verified = true → flash.verifies (pageBase sector page + first) target = true) : d.stepEnds flash verified =
      some (d.stepReported flash verified (pageBase sector page + first) target,
        flash.stepEnded verified d.draws (pageBase sector page + first) target) := by
  have hheld : d.targetHeld flash = flash.holds (pageBase sector page + first) target := by simp [Device.targetHeld, ho]
  unfold Device.stepEnds Device.stepReported Flash.stepEnded
  rw [hheld]
  split
  · rename_i hpass
    rw [Device.stepPasses_of ho]
    rw [Bool.or_eq_true] at hpass
    exact hpass.elim hv Flash.verifies_of_holds
  · rename_i hfail
    rw [Bool.or_eq_true, not_or, Bool.not_eq_true, Bool.not_eq_true] at hfail
    exact Device.stepFails_of ho hfail.2

end Steps

/-- A report that the array and its owner act on. -/
theorem State.reports {s : State} {f : Device → Flash → Option Rig} {d : Device} {m : Flash} (ha : s.dev.active = true)
    (h : f s.dev s.flash = some (d, m)) : (Host.Outcome.next (s.report f) : Host.Outcome State Fault Refusal) =
      .next (s.onRig d.settle m) := by
  rw [State.report_some ha h]

/-! ### Durable waiters (R113) -/

/-- The body of the answer of a durable waiter (R19, R21, R23, R59, R173). -/
def Executor.durableBody (x : Executor) (durable : Nat) : List Byte :=
  match x.job, x.inHand with
  | .created st inc, _ => [BitVec.ofNat 8 st.val, inc]
  | .acked committed, _ => bigEndian 4 committed
  | .none, some (.known _ .sync _) => bigEndian 4 durable
  | _, _ => []

section Waiters

variable (d : Device) (p q : Port)

theorem Device.durableAnswer_eq : d.durableAnswer p =
    d.answer p .ok ((d.exec p).durableBody d.writer.durableSerial) := by
  unfold Device.durableAnswer Executor.durableBody
  cases (d.exec p).job with
  | none =>
    rcases (d.exec p).inHand with _ | r
    · rfl
    · cases r with
      | known tag k body => cases k <;> rfl
      | frame => rfl
      | unknown tag kind => rfl
  | created st inc => rfl
  | acked committed => rfl
  | read st inc => rfl
  | reading st inc seq n k => rfl
  | append j => rfl

theorem Device.durableAnswer_frame : d.durableAnswer p =
    { d with ports := (d.durableAnswer p).ports, execs := (d.durableAnswer p).execs } := by
  rw [Device.durableAnswer_eq, Device.answer_changes]

theorem Device.releaseWaiter_frame : d.releaseWaiter p =
    { d with ports := (d.releaseWaiter p).ports, execs := (d.releaseWaiter p).execs } := by
  unfold Device.releaseWaiter
  split
  · split
    · rw [Device.durableAnswer_frame]
    · rfl
  all_goals rfl

@[simp] theorem Device.releaseWaiter_writer : (d.releaseWaiter p).writer = d.writer := by rw [Device.releaseWaiter_frame]

theorem Device.releaseWaiters_frame : d.releaseWaiters =
    { d with ports := d.releaseWaiters.ports, execs := d.releaseWaiters.execs } := by
  unfold Device.releaseWaiters
  rw [Device.releaseWaiter_frame _ .C, Device.releaseWaiter_frame _ .B, Device.releaseWaiter_frame _ .A]

variable {p q}

theorem Device.answer_exec_other {status : Status} {body : List Byte} (h : q ≠ p) :
    (d.answer p status body).exec q = d.exec q := by
  unfold Device.answer
  split <;> exact Device.exec_setExec_other _ _ _ _ h

theorem Device.answer_port_other {status : Status} {body : List Byte} (h : q ≠ p) :
    (d.answer p status body).port q = d.port q := by
  unfold Device.answer
  split
  · rfl
  · exact Device.port_setPort_other _ _ _ _ h

theorem Device.durableAnswer_other (h : q ≠ p) :
    (d.durableAnswer p).exec q = d.exec q ∧ (d.durableAnswer p).port q = d.port q := by
  rw [Device.durableAnswer_eq]
  exact ⟨d.answer_exec_other h, d.answer_port_other h⟩

theorem Device.releaseWaiter_other (h : q ≠ p) :
    (d.releaseWaiter p).exec q = d.exec q ∧ (d.releaseWaiter p).port q = d.port q := by
  unfold Device.releaseWaiter
  split
  · split
    · exact d.durableAnswer_other h
    · exact ⟨rfl, rfl⟩
  all_goals exact ⟨rfl, rfl⟩

end Waiters

/-- An answer places its response at the port (R162, R166). -/
theorem Device.answer_port_known {d : Device} {p : Port} {tag : Byte} {k : Kind} {body : List Byte}
    (h : (d.exec p).inHand = some (.known tag k body)) (status : Status) (out : List Byte) :
    (d.answer p status out).port p =
      { d.port p with responses := (d.port p).responses ++ [reply tag k status out] } := by
  simp [Device.answer, h, Device.respond, Request.label, reply, Kind.byte]

theorem Device.answer_port_none {d : Device} {p : Port} (h : (d.exec p).inHand = none) (status : Status) (out : List Byte) :
    (d.answer p status out).port p = d.port p := by
  simp [Device.answer, h]

/-- What releasing does at one port, by that port, its executor and the durable serial (R113). -/
def Device.releasedAs (d e : Device) (q : Port) : Prop :=
  ((∀ serial, (d.exec q).state = .waitDurable serial → d.writer.durableSerial < serial) →
    e.exec q = d.exec q ∧ e.port q = d.port q) ∧
  ∀ serial, (d.exec q).state = .waitDurable serial → serial ≤ d.writer.durableSerial →
    e.exec q = Executor.rest ∧ ((d.exec q).inHand = none → e.port q = d.port q) ∧
      ∀ tag k body, (d.exec q).inHand = some (.known tag k body) → e.port q = { d.port q with
        responses := (d.port q).responses ++ [reply tag k .ok ((d.exec q).durableBody d.writer.durableSerial)] }

theorem Device.releaseWaiter_as (d : Device) (q : Port) : d.releasedAs (d.releaseWaiter q) q := by
  refine ⟨fun hlater => ?_, fun serial hs hle => ?_⟩
  · unfold Device.releaseWaiter
    split
    · rename_i serial hs
      rw [if_neg (Nat.not_le.mpr (hlater serial hs))]
      exact ⟨rfl, rfl⟩
    all_goals exact ⟨rfl, rfl⟩
  · have hdone : d.releaseWaiter q = d.durableAnswer q := by simp [Device.releaseWaiter, hs, hle]
    rw [hdone, Device.durableAnswer_eq]
    exact ⟨Device.answer_exec _ _ _ _, fun h => Device.answer_port_none h _ _, fun tag k body h => Device.answer_port_known h _ _⟩

theorem Device.releasedAs.congr {d d' e e' : Device} {q : Port} (h : d'.releasedAs e' q)
    (exec : d'.exec q = d.exec q ∧ d'.port q = d.port q) (writer : d'.writer = d.writer)
    (after : e.exec q = e'.exec q ∧ e.port q = e'.port q) : d.releasedAs e q := by
  unfold Device.releasedAs at h ⊢
  rw [exec.1, exec.2, writer] at h
  rw [after.1, after.2]
  exact h

/-- Each port's waiter is released on its own (R111, R113). -/
theorem Device.releaseWaiters_as (d : Device) (q : Port) : d.releasedAs d.releaseWaiters q := by
  have hab (r : Port) (h : r ≠ .A) (h' : r ≠ .B) : ((d.releaseWaiter .A).releaseWaiter .B).exec r = d.exec r ∧
      ((d.releaseWaiter .A).releaseWaiter .B).port r = d.port r :=
    ⟨((d.releaseWaiter .A).releaseWaiter_other h').1.trans (d.releaseWaiter_other h).1,
      ((d.releaseWaiter .A).releaseWaiter_other h').2.trans (d.releaseWaiter_other h).2⟩
  cases q with
  | A =>
    have hb := (d.releaseWaiter .A).releaseWaiter_other (p := .B) (q := .A) (by decide)
    have hc := ((d.releaseWaiter .A).releaseWaiter .B).releaseWaiter_other (p := .C) (q := .A) (by decide)
    exact (d.releaseWaiter_as .A).congr ⟨rfl, rfl⟩ rfl ⟨hc.1.trans hb.1, hc.2.trans hb.2⟩
  | B =>
    exact ((d.releaseWaiter .A).releaseWaiter_as .B).congr (d.releaseWaiter_other (by decide)) (by simp)
      (((d.releaseWaiter .A).releaseWaiter .B).releaseWaiter_other (by decide))
  | C =>
    exact (((d.releaseWaiter .A).releaseWaiter .B).releaseWaiter_as .C).congr (hab .C (by decide) (by decide)) (by simp)
      ⟨rfl, rfl⟩

/-- Entries that are not of a condition, as the writer filters them. -/
theorem Staged.filter_ne (c : Staging) (l : List Staged) :
    (l.filter fun e => !(e.cond == c)) = l.filter fun e => e.cond ≠ c :=
  List.filter_congr fun e _ => by by_cases h : e.cond = c <;> simp [h]

/-! ### The writer's page on the array (R111, R118) -/

theorem Device.metaOnArray_of {d : Device} {g : PageInFlight} (hh : d.arbiter.holder = some .writer)
    (hg : d.writer.inFlight = some g) : d.metaOnArray = some g := by
  simp [Device.metaOnArray, hh, hg]

/-- Settles O42. -/
theorem journalPageCommits : Obligations.JournalPageCommits := by
  refine ⟨fun d => ?waiters, fun s g sector page first target ha hj hv hvoid => ?page⟩
  case waiters =>
    refine ⟨d.releaseWaiters_frame, fun q => ?_⟩
    intro x
    obtain ⟨hstay, hreleased⟩ := d.releaseWaiters_as q
    refine ⟨hstay, fun serial hs hle => ?_⟩
    obtain ⟨hexec, hnone, hknown⟩ := hreleased serial hs hle
    refine ⟨hexec, hnone, fun tag k body hr => ?_⟩
    have hport := hknown tag k body hr
    refine ⟨fun st inc hjob => ?_, fun committed hjob => ?_, fun hjob hk => ?_, fun hjob hk => ?_⟩
    · rw [hport, Executor.durableBody, hjob]
    · rw [hport, Executor.durableBody, hjob]
    · subst hk
      rw [hport, Executor.durableBody, hjob, hr]
    · rw [hport, Executor.durableBody, hjob, hr]
      rcases hk with rfl | rfl <;> rfl
  case page =>
    obtain ⟨hh, hg, ho⟩ := hj
    have hmeta := Device.metaOnArray_of hh hg
    have hpass := Device.stepPasses_of ho hv
    intro base f e ends
    have step1 (hstep : g.step2 = false) : s.dev.metaStep1Done s.flash = some (e.metaStep1Ends g, f) := by
      simp [Device.metaStep1Done, hmeta, hpass, hstep, hvoid, e, f, base]
    have step2 (hstep : g.step2 = true) (hk : g.kind = .journal) :
        s.dev.metaStep2Done s.flash = some (e.journalCommitted g, f) := by
      simp [Device.metaStep2Done, hmeta, hpass, hstep, hvoid, hk, e, f, base]
    refine ⟨fun hstep => ?_, fun hstep hk => ?_⟩
    · have hends := State.reports ha (step1 hstep)
      refine ⟨fun hf => hends.trans ?_, fun hf => hends.trans ?_, fun hf => hends.trans ?_⟩ <;>
        rw [Device.metaStep1Ends, hf] <;> rfl
    · have hends := State.reports ha (step2 hstep hk)
      intro w d
      have hw : e.writer.commitJournal g = w := by
        simp only [Writer.commitJournal, Staged.filter_ne]
        rfl
      refine ⟨fun hf => hends.trans ?_, fun hf => hends.trans ?_, fun hf => hends.trans ?_⟩ <;>
        simp only [Device.journalCommitted, hf, hw] <;> rfl

/-- Settles O43. -/
theorem metadataPageFails : Obligations.MetadataPageFails := by
  intro s g sector page first target ha ⟨hh, hg, ho⟩ base
  have hmeta := Device.metaOnArray_of hh hg
  refine ⟨fun hheld => ?_, fun hheld hvoid => ?_, fun verified hvoid hv => ?_⟩
  · refine congrArg Host.Outcome.next (State.report_none ?_)
    simp [Device.metaStepFail, Device.stepFails_none ho hheld]
  · refine State.reports ha ?_
    rw [Device.metaStepFail, hmeta, Device.stepFails_of ho hheld]
    simp only [hvoid, Bool.false_eq_true, if_false]
    rfl
  · have hends := State.reports (f := Device.metaVoidEnd verified) (d := (s.dev.stepReported s.flash verified base target).metaVoided g)
      (m := s.flash.stepEnded verified s.dev.draws base target) ha
      (by simp [Device.metaVoidEnd, hmeta, Device.stepEnds_of ho hv, hvoid, base])
    have hwriter : (s.dev.stepReported s.flash verified base target).writer = s.dev.writer := by
      unfold Device.stepReported
      split <;> rfl
    intro d f ends again
    refine ⟨fun hf hk => hends.trans ?_, fun hf hk => hends.trans ?_, fun hf hk => hends.trans ?_, fun hf hk => hends.trans ?_,
        fun hf => hends.trans ?_⟩
    · simp only [Device.metaVoided, hf, hk, Device.endPage, hwriter]
      rfl
    · simp only [Device.metaVoided, hf, hk, Device.endPage, hwriter]
      rfl
    · simp only [Device.metaVoided, hf, hk, Device.endPage, hwriter]
      rfl
    · simp only [Device.metaVoided, hf, hk, Device.endPage, hwriter]
      rfl
    · simp only [Device.metaVoided, hf, Device.endPage, hwriter]
      rfl

end Sys2Proof.Machine
end

