-- ==== Sys2Proof/Proofs/Reach.lean ====
section
/-! How far the shared operations reach: what the state controller (R175, R176), sectors that leave a chain (R16, R24) and
the metadata writer's staging and halting (R106, R120) change, and what they leave alone. -/

namespace Sys2Proof.Machine

open Sys2Proof

-- One process elaborates the whole text: proofs taken in turn stay within its memory.
set_option Elab.async false

/-- A stream's fields but for its ballot-held flag (R7). -/
def StreamBody.apart (b : StreamBody) : StreamBody := { b with ballotHeld := false }

/-- What a stream's definition and next sequence are: its fields but for the chain, what is counted from it, and the
flags (R1). -/
def StreamBody.plan (b : StreamBody) : StreamBody :=
  { b with oldest := 0, chain := [], used := 0, high := false, ballotHeld := false }

theorem StreamBody.plan_apart (b : StreamBody) : b.apart.plan = b.plan := rfl

/-! ### The state controller (R144, R175, R176) -/

/-- The reach of the state controller: mode and reason, events, a ballot closed, the erase engine's claim withdrawn. -/
structure Device.Controls (d d' : Device) : Prop where
  frame : d' = { d with
    mode := d'.mode, reason := d'.reason, events := d'.events, streams := d'.streams, arbiter := d'.arbiter
    engine := d'.engine, consent := d'.consent }
  incarnation : ∀ st, d'.incarnation st = d.incarnation st
  stream : ∀ st, (d'.stream st).map StreamBody.apart = (d.stream st).map StreamBody.apart
  arbiter : d'.arbiter.holder = d.arbiter.holder ∧ d'.arbiter.pointer = d.arbiter.pointer
  engine : d'.engine.current = d.engine.current ∧ d'.engine.slot = d.engine.slot ∧ d'.engine.outcome = d.engine.outcome
  pending : d'.consent.pending = d.consent.pending

namespace Device.Controls

variable {a b c d : Device}

theorem refl (d : Device) : d.Controls d := ⟨rfl, fun _ => rfl, fun _ => rfl, ⟨rfl, rfl⟩, ⟨rfl, rfl, rfl⟩, rfl⟩

theorem trans (h : a.Controls b) (k : b.Controls c) : a.Controls c where
  frame := k.frame.trans (by rw [h.frame])
  incarnation st := (k.incarnation st).trans (h.incarnation st)
  stream st := (k.stream st).trans (h.stream st)
  arbiter := ⟨k.arbiter.1.trans h.arbiter.1, k.arbiter.2.trans h.arbiter.2⟩
  engine := ⟨k.engine.1.trans h.engine.1, k.engine.2.1.trans h.engine.2.1, k.engine.2.2.trans h.engine.2.2⟩
  pending := k.pending.trans h.pending

theorem ite {p : Prop} [Decidable p] {x y : Device} (hx : a.Controls x) (hy : a.Controls y) :
    a.Controls (if p then x else y) := by
  split
  exacts [hx, hy]

/-- Changes of mode, reason and events alone. -/
theorem setMode (h : a.Controls d) (m : DeviceState) (r : Reason) (E : PerPort EventUnit) :
    a.Controls { d with mode := m, reason := r, events := E } :=
  h.trans ⟨rfl, fun _ => rfl, fun _ => rfl, ⟨rfl, rfl⟩, ⟨rfl, rfl, rfl⟩, rfl⟩

theorem offer (h : a.Controls d) (p : Port) (e : Event) : a.Controls (d.offer p e) := by
  rw [Device.offer_frame]
  exact h.setMode _ _ _

theorem offerSet (h : a.Controls d) (s : PortSet) (e : Event) : a.Controls (d.offerSet s e) := by
  rw [Device.offerSet_frame]
  exact h.setMode _ _ _

theorem offerAll (h : a.Controls d) (e : Event) : a.Controls (d.offerAll e) := h.offerSet _ _

/-- A stream's fields replaced by others with the same plan but for the ballot-held flag. -/
theorem setBody (h : a.Controls d) {st : Fin 16} {b b' : StreamBody} (hs : d.stream st = some b) (hb : b'.apart = b.apart) :
    a.Controls (d.setBody st (some b')) :=
  h.trans ⟨rfl, fun st' => Device.incarnation_setBody d st st' _, fun st' => by
    by_cases hst : st' = st
    · subst hst
      rw [Device.stream_setBody, hs]
      exact congrArg some hb
    · rw [Device.stream_setBody_other _ _ _ _ hst], ⟨rfl, rfl⟩, ⟨rfl, rfl, rfl⟩, rfl⟩

theorem holdBallotStream (h : a.Controls d) (op : BallotOp) (v : Bool) : a.Controls (d.holdBallotStream op v) := by
  unfold Device.holdBallotStream Device.setBallotHeld
  split
  · split
    · exact h
    · rename_i b hs
      exact h.setBody hs rfl
  · exact h

theorem closeBallot (h : a.Controls d) (o : BallotOutcome) : a.Controls (d.closeBallot o) := by
  unfold Device.closeBallot
  split
  · exact h
  · exact ((h.holdBallotStream _ false).offerSet _ _).trans
      ⟨rfl, fun _ => rfl, fun _ => rfl, ⟨rfl, rfl⟩, ⟨rfl, rfl, rfl⟩, rfl⟩

theorem withdrawEngineClaim (h : a.Controls d) : a.Controls d.withdrawEngineClaim :=
  h.trans ⟨rfl, fun _ => rfl, fun _ => rfl, ⟨rfl, rfl⟩, ⟨rfl, rfl, rfl⟩, rfl⟩

/-- The steps of an entry into a state, in their order (R101, R144, R175, R176). -/
theorem enterState (h : a.Controls d) (m : DeviceState) : a.Controls (d.enterState m) := by
  have entered : a.Controls { d with mode := m, reason := d.reasonOnEntry m } := h.setMode m _ d.events
  have announces : a.Controls (if announced m = true then
      ({ d with mode := m, reason := d.reasonOnEntry m } : Device).offerAll ⟨.state, none, some (deviceCode m)⟩
      else { d with mode := m, reason := d.reasonOnEntry m }) := .ite (entered.offerAll _) entered
  unfold Device.enterState
  dsimp only
  refine .ite (Device.Controls.withdrawEngineClaim ?_) ?_
  all_goals
    split
    · exact .ite (announces.closeBallot _) announces
    · exact announces

end Device.Controls

@[simp] theorem Device.closeBallot_mode (d : Device) (o : BallotOutcome) : (d.closeBallot o).mode = d.mode := by
  cases hb : d.consent.ballot with
  | none => rw [Device.closeBallot_none _ _ hb]
  | some bl => rw [Device.closeBallot_frame _ _ _ hb]

@[simp] theorem Device.offer_mode (d : Device) (p : Port) (e : Event) : (d.offer p e).mode = d.mode := by
  rw [Device.offer_frame]

@[simp] theorem Device.offerAll_mode (d : Device) (e : Event) : (d.offerAll e).mode = d.mode := by
  unfold Device.offerAll
  rw [Device.offerSet_frame]

@[simp] theorem Device.enterState_mode (d : Device) (m : DeviceState) : (d.enterState m).mode = m := by
  unfold Device.enterState Device.withdrawEngineClaim
  dsimp only
  (repeat' split) <;> simp

/-! ### Sectors that leave a chain (R14, R16, R24) -/

/-- A sector BAD in the map and in the bad list, nobody told yet (R16). -/
def Device.listBad (d : Device) (n : Nat) : Device :=
  { d.setSector n ((d.sector n).cleared .bad 0) with badList := insertAscending n d.badList }

@[simp] theorem Device.listBad_mode (d : Device) (n : Nat) : (d.listBad n).mode = d.mode := by
  unfold Device.listBad
  exact Device.setSector_mode _ _ _

/-- A retirement is the listing, RETIRED, and for the 32nd of a READY device READ_ONLY (R16, R99, R175). -/
theorem Device.retire_eq (d : Device) (n : Nat) : d.retire n =
    if (insertAscending n d.badList).length = 32 ∧ d.mode = .ready then
      ((d.listBad n).offerAll ⟨.retired, some n, none⟩).enterState .readOnly
    else (d.listBad n).offerAll ⟨.retired, some n, none⟩ := by
  have hlist : ({ d.setSector n ((d.sector n).cleared .bad 0) with
      badList := insertAscending n (d.setSector n ((d.sector n).cleared .bad 0)).badList } : Device) = d.listBad n := by
    rw [Device.setSector_badList]
    rfl
  have hbad : ((d.listBad n).offerAll ⟨.retired, some n, none⟩).badList = insertAscending n d.badList := by
    unfold Device.offerAll
    rw [Device.offerSet_frame]
    rfl
  unfold Device.retire
  simp only [hlist, hbad, Device.offerAll_mode, Device.listBad_mode, Config.badLimit, Bool.and_eq_true,
    decide_eq_true_eq, beq_iff_eq]

/-- The reach of sectors that leave a chain: the sector map with its erase queue and bad list, the chain with what is
counted from it, and what a retirement does to the state controller. -/
structure Device.Frees (d d' : Device) : Prop where
  frame : d' = { d with
    mode := d'.mode, reason := d'.reason, events := d'.events, streams := d'.streams, arbiter := d'.arbiter
    engine := d'.engine, consent := d'.consent, sectors := d'.sectors, eraseQueue := d'.eraseQueue
    badList := d'.badList }
  mode : d'.mode = d.mode ∨ d.mode = .ready ∧ d'.mode = .readOnly
  incarnation : ∀ st, d'.incarnation st = d.incarnation st
  stream : ∀ st, (d'.stream st).map StreamBody.plan = (d.stream st).map StreamBody.plan
  arbiter : d'.arbiter.holder = d.arbiter.holder ∧ d'.arbiter.pointer = d.arbiter.pointer
  engine : d'.engine.current = d.engine.current ∧ d'.engine.slot = d.engine.slot ∧ d'.engine.outcome = d.engine.outcome
  pending : d'.consent.pending = d.consent.pending

namespace Device.Frees

variable {a b c d : Device}

theorem refl (d : Device) : d.Frees d :=
  ⟨rfl, .inl rfl, fun _ => rfl, fun _ => rfl, ⟨rfl, rfl⟩, ⟨rfl, rfl, rfl⟩, rfl⟩

theorem trans (h : a.Frees b) (k : b.Frees c) : a.Frees c where
  frame := k.frame.trans (by rw [h.frame])
  mode := by
    rcases k.mode with hk | ⟨hk, hk'⟩
    · rw [hk]
      exact h.mode
    · rcases h.mode with hh | ⟨hh, hh'⟩
      · exact .inr ⟨hh ▸ hk, hk'⟩
      · exact .inr ⟨hh, hk'⟩
  incarnation st := (k.incarnation st).trans (h.incarnation st)
  stream st := (k.stream st).trans (h.stream st)
  arbiter := ⟨k.arbiter.1.trans h.arbiter.1, k.arbiter.2.trans h.arbiter.2⟩
  engine := ⟨k.engine.1.trans h.engine.1, k.engine.2.1.trans h.engine.2.1, k.engine.2.2.trans h.engine.2.2⟩
  pending := k.pending.trans h.pending

theorem of_controls (h : a.Controls b) (mode : b.mode = a.mode ∨ a.mode = .ready ∧ b.mode = .readOnly) : a.Frees b where
  frame := h.frame.trans (by rw [h.frame])
  mode := mode
  incarnation := h.incarnation
  stream st := by
    have := congrArg (Option.map StreamBody.plan) (h.stream st)
    simpa [Function.comp_def, StreamBody.plan_apart] using this
  arbiter := h.arbiter
  engine := h.engine
  pending := h.pending

/-- Changes of the sector map and its lists alone. -/
theorem setMap (h : a.Frees d) (S : Vector Sector 256) (queue bad : List Nat) :
    a.Frees { d with sectors := S, eraseQueue := queue, badList := bad } :=
  h.trans ⟨rfl, .inl rfl, fun _ => rfl, fun _ => rfl, ⟨rfl, rfl⟩, ⟨rfl, rfl, rfl⟩, rfl⟩

theorem joinQueue (h : a.Frees d) (n : Nat) : a.Frees (d.joinQueue n) := by
  rw [Device.joinQueue_frame]
  exact h.setMap _ _ d.badList

theorem listBad (h : a.Frees d) (n : Nat) : a.Frees (d.listBad n) := by
  unfold Device.listBad
  rw [Device.setSector_frame]
  exact h.setMap _ d.eraseQueue _

theorem retire (h : a.Frees d) (n : Nat) : a.Frees (d.retire n) := by
  rw [Device.retire_eq]
  split
  · rename_i hfull
    exact (h.listBad n).trans (of_controls (((Device.Controls.refl _).offerAll _).enterState _)
      (.inr ⟨by simpa using hfull.2, Device.enterState_mode _ _⟩))
  · exact (h.listBad n).trans (of_controls ((Device.Controls.refl _).offerAll _) (.inl (Device.offerAll_mode _ _)))

theorem releaseSector {x : Device × List Nat} (h : a.Frees x.1) (n : Nat) : a.Frees (releaseSector x n).1 := by
  unfold Sys2Proof.Machine.releaseSector
  split
  exacts [h.retire n, h.joinQueue n]

theorem takeHeads (least : Nat) (chain : List Nat) {x : Device × List Nat} (h : a.Frees x.1) :
    a.Frees (takeHeads least chain x).2.1 := by
  induction chain generalizing x with
  | nil => exact h
  | cons n rest ih =>
    rw [Sys2Proof.Machine.takeHeads]
    split
    exacts [ih (h.releaseSector n), h]

theorem foldl_releaseSector (chain : List Nat) {x : Device × List Nat} (h : a.Frees x.1) :
    a.Frees (chain.foldl Sys2Proof.Machine.releaseSector x).1 := by
  induction chain generalizing x with
  | nil => exact h
  | cons n rest ih => exact ih (h.releaseSector n)

/-- A stream's fields replaced by others of the same plan. -/
theorem setBody (h : a.Frees d) {st : Fin 16} {b b' : StreamBody} (hs : d.stream st = some b) (hb : b'.plan = b.plan) :
    a.Frees (d.setBody st (some b')) :=
  h.trans ⟨rfl, .inl rfl, fun st' => Device.incarnation_setBody d st st' _, fun st' => by
    by_cases hst : st' = st
    · subst hst
      rw [Device.stream_setBody, hs]
      exact congrArg some hb
    · rw [Device.stream_setBody_other _ _ _ _ hst], ⟨rfl, rfl⟩, ⟨rfl, rfl, rfl⟩, rfl⟩

theorem setChain (h : a.Frees d) (st : Fin 16) (chain : List Nat) : a.Frees (d.setChain st chain) := by
  unfold Device.setChain
  split
  · exact h
  · rename_i b hs
    exact h.setBody hs rfl

theorem recount (h : a.Frees d) (st : Fin 16) : a.Frees (d.recount st) := by
  unfold Device.recount
  split
  · exact h
  · rename_i b hs
    exact h.setBody hs rfl

theorem offer (h : a.Frees d) (p : Port) (e : Event) : a.Frees (d.offer p e) :=
  h.trans (of_controls ((Device.Controls.refl _).offer p e) (.inl (Device.offer_mode _ _ _)))

theorem evalHigh (h : a.Frees d) (st : Fin 16) : a.Frees (d.evalHigh st) := by
  unfold Device.evalHigh
  split
  · exact h
  · rename_i b hs
    split
    · split
      · exact h
      · exact (h.setBody (b' := { b with high := true }) hs rfl).offer _ _
    · exact h.setBody hs rfl

theorem reclaim (h : a.Frees d) (st : Fin 16) : a.Frees (d.reclaim st).1 := by
  unfold Device.reclaim
  split
  · exact h
  · split
    · exact h
    · dsimp only
      split
      · exact h
      · exact (((takeHeads _ _ (x := (d, [])) h).setChain _ _).recount _).evalHigh _

theorem emptyChain (h : a.Frees d) (st : Fin 16) : a.Frees (d.emptyChain st).1 := by
  unfold Device.emptyChain
  split
  · exact h
  · exact (foldl_releaseSector _ (x := (d, [])) h).setChain _ _

/-! What it leaves alone -/

variable (h : a.Frees b)
include h

theorem writer : b.writer = a.writer := by rw [h.frame]
theorem execs : b.execs = a.execs := by rw [h.frame]
theorem ports : b.ports = a.ports := by rw [h.frame]
theorem cursors : b.cursors = a.cursors := by rw [h.frame]
theorem freePool : b.freePool = a.freePool := by rw [h.frame]
theorem exec (p : Port) : b.exec p = a.exec p := congrArg (·.get p) h.execs
theorem cursor (st : Fin 16) (p : Port) : b.cursor st p = a.cursor st p := by rw [Device.cursor, h.cursors, Device.cursor]

theorem placesSuffice (who : Waiter) (n : Nat) : b.placesSuffice who n = a.placesSuffice who n := by
  rw [Device.placesSuffice, h.writer, Device.placesSuffice]

theorem formatting : b.mode = .formatting ↔ a.mode = .formatting := by
  rcases h.mode with hm | ⟨ha, hb⟩
  · rw [hm]
  · simp [ha, hb]

/-- The stream is there still, with its definition and its next sequence. -/
theorem some_stream {st : Fin 16} {x : StreamBody} (hs : a.stream st = some x) :
    ∃ y, b.stream st = some y ∧ y.plan = x.plan := by
  have hplan := h.stream st
  rw [hs, Option.map_some, Option.map_eq_some_iff] at hplan
  exact hplan

theorem none_stream {st : Fin 16} (hs : a.stream st = none) : b.stream st = none := by
  have hplan := h.stream st
  rw [hs, Option.map_none, Option.map_eq_none_iff] at hplan
  exact hplan

end Device.Frees

end Sys2Proof.Machine
end

