-- ==== Sys2Proof/Proofs/AppendSteps.lean ====
section
/-! The ends of the steps of an append: both steps complete (R37, R38, R43 to R46), or fail and are voided (R40 to R42). -/

namespace Sys2Proof.Machine

open Sys2Proof

-- One process elaborates the whole text: proofs taken in turn stay within its memory.
set_option Elab.async false

/-! ### RETIRE entries of an outcome (R43) -/

theorem insertAscending_length (n : Nat) (l : List Nat) : (insertAscending n l).length = l.length + 1 := by
  induction l with
  | nil => rfl
  | cons x xs ih =>
    unfold insertAscending
    split <;> simp [ih]

theorem retireEntries_eq_nil {retired : List Nat} : retireEntries retired = [] ↔ retired = [] := by
  cases retired with
  | nil => simp [retireEntries, groupsOfEight]
  | cons x xs =>
    have hne : ascending (x :: xs) ≠ [] := by
      apply List.ne_nil_of_length_pos
      simp [ascending, insertAscending_length]
    obtain ⟨y, ys, hy⟩ := List.exists_cons_of_ne_nil hne
    simp [retireEntries, groupsOfEight, hy]

section Outcome

variable {d : Device} {p : Port} {j : AppendJob} {retired : List Nat}

theorem Device.stageOrDiscard_retirable (h : d.retirable p retired) :
    d.stageOrDiscard p (retireEntries retired) = d.stageAll (retireEntries retired) := by
  rcases h with rfl | h
  · exact ite_self _
  · exact if_pos h

theorem Device.stageOrDiscard_not (h : ¬ d.retirable p retired) : d.stageOrDiscard p (retireEntries retired) = d :=
  if_neg fun hp => h (.inr hp)

theorem Device.stageOutcome_retirable (h : d.retirable p retired) :
    d.stageOutcome p j (retireEntries retired) = (d.stageAll (retireEntries retired), { j with kept := [] }) := by
  refine if_pos ?_
  rcases h with rfl | h
  · rfl
  · simp [h]

theorem Device.stageOutcome_not (h : ¬ d.retirable p retired) : d.stageOutcome p j (retireEntries retired) =
    if (d.exec p).inHand.isSome = true ∧ d.mode ≠ .formatting then
      (d.joinPlaceWait (.executor p), { j with kept := retireEntries retired })
    else (d, { j with kept := [] }) := by
  have hne : retireEntries retired ≠ [] := fun hn => h (.inl (retireEntries_eq_nil.mp hn))
  have hno : d.placesSuffice (.executor p) (retireEntries retired).length = false := by
    rw [← Bool.not_eq_true]
    exact fun hp => h (.inr hp)
  simp [Device.stageOutcome, hne, hno]

end Outcome

/-! ### The append on the array -/

theorem Device.appendOnArray_of {d : Device} {p : Port} {j : AppendJob} (hh : d.arbiter.holder = some (.executor p))
    (hj : (d.exec p).job = .append j) : d.appendOnArray = some (p, j) := by
  simp [Device.appendOnArray, Device.holdingPort, hh, hj]

theorem Device.endAppend_eq (d : Device) (p : Port) :
    d.endAppend p = (d.leavePlaceWait (.executor p)).answer p .aborted [] := rfl

theorem Device.appendOver_eq (d : Device) (p : Port) :
    d.appendOver p = !decide ((d.exec p).inHand.isSome = true ∧ d.mode ≠ .formatting) := by
  by_cases hm : d.mode = .formatting <;> cases h : (d.exec p).inHand <;> simp [Device.appendOver, h, hm]

section Reports

variable {d e : Device} {flash f : Flash} {p : Port} {j : AppendJob} (happ : d.appendOnArray = some (p, j))
include happ

theorem Device.appendStep1Done_of (hpass : d.stepPasses flash = some (e, f)) (hphase : j.phase = .step1) :
    d.appendStep1Done flash =
      if e.appendOver p then some ((e.release.abandonPage p j).endAppend p, f)
      else some (e.release.toExec p .waitArray (.append { j with phase := .between }), f) := by
  simp only [Device.appendStep1Done, happ, hpass, hphase, if_true]

/-- What step 2 leaves: the record committed, the RETIRE entries staged or kept (R38, R43). -/
theorem Device.appendStep2Done_of (hpass : d.stepPasses flash = some (e, f)) {b : StreamBody}
    (hs : e.stream j.stream = some b) (hphase : j.phase = .step2) {r : Device × List Nat}
    (hr : e.release.commitRecord j b = r) {o : Device × AppendJob}
    (ho : r.1.stageOutcome p j (retireEntries r.2) = o) :
    d.appendStep2Done flash =
      if e.appendOver p then some (o.1.endAppend p, f)
      else if o.2.kept.isEmpty then some (o.1.answer p .ok (bigEndian 4 b.next), f)
      else some (o.1.toExec p .waitStaging (.append { o.2 with phase := .committed b.next }), f) := by
  subst hr ho
  simp only [Device.appendStep2Done, happ, hpass, hs, hphase, if_true]

/-- What a failed step leaves: the tables after it, an attempt more, the RETIRE entries staged or kept (R40 to R43). -/
theorem Device.appendStepFail_of (hfail : d.stepFails flash = some (e, f)) (hphase : j.phase = .step1 ∨ j.phase = .step2)
    {r : Device × List Nat} (hr : e.failPage j = r) {o : Device × AppendJob}
    (ho : r.1.stageOutcome p { j with attempts := j.attempts + 1 } (retireEntries r.2) = o) :
    d.appendStepFail flash =
      if (e.exec p).inHand.isNone then some (o.1.release.endAppend p, f)
      else some ({ o.1.toExec p .onArray (.append { o.2 with phase := .voiding }) with
        arrayOp := .program j.sector j.page 15 [0x00#8] }, f) := by
  have hphase' : (decide (j.phase = .step1) || j.phase == .step2) = true := by simpa using hphase
  subst hr ho
  simp only [Device.appendStepFail, happ, hfail, hphase', if_true]

theorem Device.appendVoidEnd_of {verified : Bool} (hends : d.stepEnds flash verified = some (e, f)) (hphase : j.phase = .voiding) :
    d.appendVoidEnd verified flash =
      if e.appendOver p then some (e.release.endAppend p, f)
      else if j.kept.isEmpty then some (e.release.afterFailure p j, f)
      else some (e.release.toExec p .waitStaging (.append { j with phase := .failed }), f) := by
  simp only [Device.appendVoidEnd, happ, hends, hphase, if_true]

end Reports

/-- Evaluating backlog flags stays within the reach of sectors that leave: it changes cursors. -/
theorem Device.evalBacklogs_stream (d : Device) (st st' : Fin 16) : (d.evalBacklogs st).stream st' = d.stream st' := by
  rw [Device.evalBacklogs_frame]
  rfl

/-- Settles O40. -/
theorem appendStepsComplete : Obligations.AppendStepsComplete := by
  intro s p j sector page first target ha ⟨hh, hj, ho⟩ hv
  have happ := Device.appendOnArray_of hh hj
  have hpass := Device.stepPasses_of ho hv
  intro base f e runs aborts
  have hover : e.appendOver p = !decide runs := Device.appendOver_eq e p
  have goneOn (hr : ¬ runs) : e.appendOver p = true := by simp [hover, hr]
  have runsOn (hr : runs) : ¬ e.appendOver p = true := by simp [hover, hr]
  refine ⟨fun hphase => ?step1, fun b hphase hs => ?step2⟩
  case step1 =>
    have hdone := Device.appendStep1Done_of happ hpass hphase
    refine ⟨fun hr => State.reports ha (hdone.trans (if_neg (runsOn hr))), fun hr => ⟨fun hfit => ?_, fun hfit => ?_⟩⟩
    all_goals refine (State.reports ha (hdone.trans (if_pos (goneOn hr)))).trans ?_
    · exact congrArg (fun d => Host.Outcome.next (s.onRig (aborts d).settle f)) (Device.stageOrDiscard_retirable hfit)
    · exact congrArg (fun d => Host.Outcome.next (s.onRig (aborts d).settle f)) (Device.stageOrDiscard_not hfit)
  case step2 =>
    intro d r
    have hfrees : (d.evalBacklogs j.stream).Frees r.1 := (Device.Frees.refl _).reclaim _
    have hexec : r.1.exec p = s.dev.exec p := by
      rw [hfrees.exec, Device.evalBacklogs_frame]
      simp [d, Device.exec, Device.setPageState, e, Device.programDone]
    have hmode : r.1.mode = .formatting ↔ s.dev.mode = .formatting := by
      rw [hfrees.formatting, Device.evalBacklogs_frame]
      simp [d, Device.setPageState, e, Device.programDone]
    have hdone {o : Device × AppendJob} (ho : r.1.stageOutcome p j (retireEntries r.2) = o) :=
      Device.appendStep2Done_of happ hpass hs hphase (r := r) rfl ho
    have hkeeps : (r.1.exec p).inHand.isSome = true ∧ r.1.mode ≠ .formatting ↔ runs := by
      rw [hexec, ne_eq, hmode]
    refine ⟨?_, fun hfit => ⟨fun hr => ?_, fun hr => ?_⟩, fun hfit => ⟨fun hr => ?_, fun hr => ?_⟩⟩
    · obtain ⟨y, hy, hplan⟩ := hfrees.some_stream ((Device.evalBacklogs_stream _ _ _).trans (Device.stream_setBody _ _ _))
      rw [hy]
      exact congrArg (fun b => some (StreamBody.next b)) hplan
    all_goals refine State.reports ha ?_
    · rw [hdone (Device.stageOutcome_retirable hfit), if_neg (runsOn hr)]
      dsimp only [List.isEmpty]
      rw [if_pos rfl]
    · rw [hdone (Device.stageOutcome_retirable hfit), if_pos (goneOn hr)]
      rw [Device.endAppend_eq]
    · rw [hdone ((Device.stageOutcome_not hfit).trans (if_pos (hkeeps.mpr hr))), if_neg (runsOn hr), if_neg]
      simpa [retireEntries_eq_nil] using fun hn => hfit (.inl hn)
    · rw [hdone ((Device.stageOutcome_not hfit).trans (if_neg (mt hkeeps.mp hr))), if_pos (goneOn hr)]
      rfl

/-- Settles O41. -/
theorem appendStepsFail : Obligations.AppendStepsFail := by
  intro s p j sector page first target ha ⟨hh, hj, ho⟩ base aborts
  have happ := Device.appendOnArray_of hh hj
  refine ⟨fun hheld => ?held, fun hheld hphase => ?fails, fun verified hphase hv => ?voided⟩
  case held =>
    refine congrArg Host.Outcome.next (State.report_none ?_)
    simp [Device.appendStepFail, happ, Device.stepFails_none ho hheld]
  case voided =>
    intro d f ends
    have hexec : (s.dev.stepReported s.flash verified base target).exec p = s.dev.exec p := by
      unfold Device.stepReported
      split <;> rfl
    have hmode : (s.dev.stepReported s.flash verified base target).mode = s.dev.mode := by
      unfold Device.stepReported
      split <;> rfl
    have hdone := Device.appendVoidEnd_of happ (Device.stepEnds_of ho hv) hphase
    rw [Device.appendOver, hexec, hmode] at hdone
    refine ⟨fun hgone => State.reports ha (hdone.trans (if_pos ?_)), fun hr hm => ?_⟩
    · rcases hgone with hr | hm
      · simp [hr]
      · simp [hm]
    · have hon := hdone.trans (if_neg (by simp [hm, ← Option.not_isSome, hr]))
      refine ⟨fun hk => State.reports ha (hon.trans (if_neg (by simpa using hk))), fun hk h3 => State.reports ha
        ((hon.trans (if_pos (by simp [hk]))).trans (congrArg (fun d => some (d, f)) (if_pos h3))), fun hk h3 => State.reports ha
        ((hon.trans (if_pos (by simp [hk]))).trans (congrArg (fun d => some (d, f)) (if_neg (Nat.not_le.mpr h3))))⟩
  case fails =>
    intro x d r f voids
    have hfrees : ((d.recount j.stream).evalHigh j.stream).Frees r.1 := (Device.Frees.refl _).reclaim _
    have hexec : r.1.exec p = s.dev.exec p := by
      rw [hfrees.exec, Device.recounted_frame]
      simp [d, Device.exec]
    have hmode : r.1.mode = .formatting ↔ s.dev.mode = .formatting := by
      rw [hfrees.formatting, Device.recounted_frame]
      simp [d]
    have hdone {o : Device × AppendJob}
        (ho' : r.1.stageOutcome p { j with attempts := j.attempts + 1 } (retireEntries r.2) = o) :=
      Device.appendStepFail_of happ (Device.stepFails_of ho hheld) hphase (r := r) rfl ho'
    have gone (hr : (s.dev.exec p).inHand = none) : (s.dev.drawn.exec p).inHand.isNone = true := by
      rw [show s.dev.drawn.exec p = s.dev.exec p from rfl, hr]
      rfl
    have handed (hr : (s.dev.exec p).inHand.isSome = true) : ¬ (s.dev.drawn.exec p).inHand.isNone = true := by
      rw [show s.dev.drawn.exec p = s.dev.exec p from rfl, ← Option.not_isSome, hr]
      simp
    refine ⟨fun hfit => ⟨fun hr => ?_, fun hr => ?_⟩, fun hfit => ⟨fun hr => ⟨fun hm => ?_, fun hm => ?_⟩, fun hr => ?_⟩⟩
    all_goals refine State.reports ha ?_
    · rw [hdone (Device.stageOutcome_retirable hfit), if_neg (handed hr)]
    · rw [hdone (Device.stageOutcome_retirable hfit), if_pos (gone hr)]
      rfl
    · rw [hdone ((Device.stageOutcome_not hfit).trans (if_pos ⟨hexec ▸ hr, mt hmode.mp hm⟩)), if_neg (handed hr)]
    · rw [hdone ((Device.stageOutcome_not hfit).trans (if_neg fun h => h.2 (hmode.mpr hm))), if_neg (handed hr)]
    · rw [hdone ((Device.stageOutcome_not hfit).trans (if_neg fun h => by simp [hexec, hr] at h)), if_pos (gone hr)]
      rfl

end Sys2Proof.Machine
end

