-- ==== Sys2Proof/Proofs/CheckpointCommits.lean ====
section
/-! A checkpoint page commits (R118), and with the last of them a compaction (R119) or a FORMAT (R121, R150). -/

namespace Sys2Proof.Machine

open Sys2Proof

-- One process elaborates the whole text: proofs taken in turn stay within its memory.
set_option Elab.async false

/-! ### Entry into a device state (R175, R176) -/

@[simp] theorem Device.closeBallot_reason (d : Device) (o : BallotOutcome) : (d.closeBallot o).reason = d.reason := by
  cases hb : d.consent.ballot with
  | none => rw [Device.closeBallot_none _ _ hb]
  | some bl => rw [Device.closeBallot_frame _ _ _ hb]

@[simp] theorem Device.offerAll_reason (d : Device) (e : Event) : (d.offerAll e).reason = d.reason := by
  unfold Device.offerAll
  rw [Device.offerSet_frame]

@[simp] theorem Device.offerAll_consent (d : Device) (e : Event) : (d.offerAll e).consent = d.consent := by
  unfold Device.offerAll
  rw [Device.offerSet_frame]

@[simp] theorem Device.enterState_reason (d : Device) (m : DeviceState) : (d.enterState m).reason = d.reasonOnEntry m := by
  unfold Device.enterState Device.withdrawEngineClaim
  dsimp only
  (repeat' split) <;> simp

/-- STATE reaches every attached port (R153, R176). -/
theorem Device.offerAll_events (d : Device) (q : Port) (e : Event) : (d.offerAll e).events.get q =
    if (d.port q).attached = true then (d.events.get q).offer e else d.events.get q := by
  unfold Device.offerAll
  rw [Device.offerSet_events]
  simp

/-- With no ballot open an announced entry sends STATE and nothing else. -/
theorem Device.enterState_events {d : Device} {m : DeviceState} (hm : announced m = true) (hb : d.consent.ballot = none) (q : Port) :
    (d.enterState m).events.get q =
      if (d.port q).attached = true then (d.events.get q).offer ⟨.state, none, some (deviceCode m)⟩ else d.events.get q := by
  have hevents : (d.enterState m).events =
      (({ d with mode := m, reason := d.reasonOnEntry m } : Device).offerAll ⟨.state, none, some (deviceCode m)⟩).events := by
    unfold Device.enterState Device.withdrawEngineClaim
    simp only [hm, if_true, Device.offerAll_consent, hb]
    split <;> rfl
  rw [hevents, Device.offerAll_events]
  rfl

/-! ### The sector map at FORMAT's commit (R150) -/

theorem Sector.cleared_cleared (x : Sector) (s : SectorState) (m : Nat) : (x.cleared s m).cleared s m = x.cleared s m := rfl

theorem Device.requeue_frame (d : Device) (n : Nat) : d.requeue n =
    { d with sectors := (d.requeue n).sectors, eraseQueue := d.eraseQueue ++ [n] } := by
  unfold Device.requeue
  rw [Device.setSector_frame]

/-- Sectors marked QUEUED with mark 0, whatever else each step does to other tables. -/
theorem Device.foldl_queued {f : Device → Nat → Device}
    (hf : ∀ (d : Device) n m, m < 256 → (f d n).sector m = if m = n then (d.sector n).cleared .queued 0 else d.sector m)
    (l : List Nat) (d : Device) {m : Nat} (hm : m < 256) :
    (l.foldl f d).sector m = if m ∈ l then (d.sector m).cleared .queued 0 else d.sector m := by
  induction l generalizing d with
  | nil => simp
  | cons n l ih =>
    rw [List.foldl_cons, ih, hf d n m hm]
    by_cases hn : m = n
    · subst hn
      simp [Sector.cleared_cleared]
    · simp [hn]

theorem Device.sector_setSector_eq (d : Device) (n : Nat) (x : Sector) {m : Nat} (hm : m < 256) :
    (d.setSector n x).sector m = if m = n then x else d.sector m := by
  split
  · rename_i h
    subst h
    exact Device.sector_setSector _ _ _ hm
  · rename_i h
    exact Device.sector_setSector_other _ _ _ _ h

/-- Every chain's sectors, stream by stream. -/
def Device.chained (d : Device) : List Nat :=
  (List.finRange 16).flatMap fun st => match d.stream st with | some b => b.chain | none => []

theorem Device.foldl_requeue_frame (l : List Nat) (d : Device) : l.foldl Device.requeue d =
    { d with sectors := (l.foldl Device.requeue d).sectors, eraseQueue := d.eraseQueue ++ l } := by
  induction l generalizing d with
  | nil => simp
  | cons n l ih =>
    rw [List.foldl_cons, ih, Device.requeue_frame]
    simp

/-- A present entry of the erase queue at FORMAT's commit (R150). -/
def Device.markQueued (d : Device) (n : Nat) : Device := d.setSector n ((d.sector n).cleared .queued 0)

theorem Device.foldl_markQueued_frame (l : List Nat) (d : Device) :
    l.foldl Device.markQueued d = { d with sectors := (l.foldl Device.markQueued d).sectors } := by
  induction l generalizing d with
  | nil => rfl
  | cons n l ih => rw [List.foldl_cons, ih, Device.markQueued, Device.setSector_frame]

theorem Device.formatSectors_eq (d : Device) : d.formatSectors =
    (d.chained ++ d.freePool).foldl Device.requeue { d.eraseQueue.foldl Device.markQueued d with freePool := [] } := rfl

/-- The present entries of the erase queue, then the chains stream by stream, then the pool (R150, step 2). -/
theorem Device.formatSectors_frame (d : Device) : d.formatSectors =
    { d with
      sectors := d.formatSectors.sectors, freePool := []
      eraseQueue := d.eraseQueue ++ (d.chained ++ d.freePool) } := by
  rw [Device.formatSectors_eq, Device.foldl_requeue_frame, Device.foldl_markQueued_frame]

theorem Device.formatSectors_sector (d : Device) {n : Nat} (hn : n < 256) (hmem : n ∈ d.formatSectors.eraseQueue) :
    d.formatSectors.sector n = (d.sector n).cleared .queued 0 := by
  have present : (d.eraseQueue.foldl Device.markQueued d).sector n =
      if n ∈ d.eraseQueue then (d.sector n).cleared .queued 0 else d.sector n :=
    Device.foldl_queued (f := Device.markQueued) (fun d n m hm => Device.sector_setSector_eq d n _ hm) d.eraseQueue d hn
  have joined (e : Device) : ((d.chained ++ d.freePool).foldl Device.requeue e).sector n =
      if n ∈ d.chained ++ d.freePool then (e.sector n).cleared .queued 0 else e.sector n :=
    Device.foldl_queued (f := Device.requeue) (fun d n m hm => Device.sector_setSector_eq d n _ hm) _ e hn
  have hold : ({ d.eraseQueue.foldl Device.markQueued d with freePool := [] } : Device).sector n =
      (d.eraseQueue.foldl Device.markQueued d).sector n := rfl
  rw [Device.formatSectors_frame] at hmem
  rw [Device.formatSectors_eq, joined, hold, present]
  rcases List.mem_append.mp hmem with hq | hj
  · rw [if_pos hq]
    split <;> rfl
  · rw [if_pos hj]
    split <;> rfl

/-! ### The commit -/

/-- FORMAT's commit in FORMATTING, step by step (R150). -/
def Device.formatWiped (d : Device) : Device :=
  { d.formatSectors with
    streams := d.formatSectors.streams.map Stream.freed
    cursors := Vector.replicate 16 (PerPort.all none)
    writer := d.formatSectors.writer.commitFormat }

theorem Device.formatCommitted_eq {d : Device} (hm : d.mode = .formatting) : d.formatCommitted =
    let e := d.formatWiped.enterState (if d.badList.length = 32 then .readOnly else .ready)
    { e with consent := { e.consent with state := .idle } } := by
  have hbad : d.formatWiped.badList = d.badList := by
    unfold Device.formatWiped
    rw [Device.formatSectors_frame]
  rw [← hbad]
  unfold Device.formatCommitted
  rw [if_neg (not_not.mpr hm)]
  rfl

/-- What the commit of FORMAT's last page leaves of every table (R121, R150). -/
theorem Device.formatCommitted_spec {d : Device} (hm : d.mode = .formatting) :
    let e := d.formatCommitted
    e.writer = d.writer.commitFormat ∧ (∀ st, e.stream st = none ∧ e.incarnation st = d.incarnation st) ∧
      (∀ st q, e.cursor st q = none) ∧ e.freePool = [] ∧ e.eraseQueue = d.eraseQueue ++ d.chained ++ d.freePool ∧
      (∀ n ∈ e.eraseQueue, n < 256 → e.sector n = (d.sector n).cleared .queued 0) ∧ e.badList = d.badList ∧
      e.consent.state = .idle ∧ e.mode = (if d.badList.length = 32 then .readOnly else .ready) ∧
      e.reason = (if d.badList.length = 32 then .mediaWorn else .none) ∧
      (d.consent.ballot = none → ∀ q, (d.port q).attached = true → e.events.get q =
        (d.events.get q).offer ⟨.state, none, some (if d.badList.length = 32 then 4 else 3)⟩) := by
  intro e
  obtain ⟨w, hw⟩ : ∃ w, d.formatWiped = w := ⟨_, rfl⟩
  obtain ⟨mode, hmode⟩ : ∃ m, (if d.badList.length = 32 then DeviceState.readOnly else .ready) = m := ⟨_, rfl⟩
  have he : e = { w.enterState mode with consent := { (w.enterState mode).consent with state := .idle } } := by
    rw [← hw, ← hmode]
    exact Device.formatCommitted_eq hm
  have hc : w.Controls (w.enterState mode) := (Device.Controls.refl w).enterState mode
  have hframe : w = { d with
      sectors := d.formatSectors.sectors, freePool := [], eraseQueue := d.eraseQueue ++ (d.chained ++ d.freePool)
      streams := d.streams.map Stream.freed, cursors := Vector.replicate 16 (PerPort.all none)
      writer := d.writer.commitFormat } := by
    rw [← hw, Device.formatWiped, Device.formatSectors_frame]
  have hwriter : w.writer = d.writer.commitFormat := by rw [hframe]
  have hstream (st : Fin 16) : w.stream st = none := by rw [hframe]; simp [Device.stream, Stream.freed]
  have hinc (st : Fin 16) : w.incarnation st = d.incarnation st := by
    rw [hframe]; simp [Device.incarnation, Stream.freed]
  have hsectors : e.sectors = d.formatSectors.sectors := by rw [he, hc.frame, hframe]
  have hqueue : e.eraseQueue = d.formatSectors.eraseQueue := by rw [he, hc.frame, hframe, Device.formatSectors_frame]
  refine ⟨by rw [he, hc.frame, hwriter], fun st => ⟨?_, ?_⟩, fun st q => ?_, by rw [he, hc.frame, hframe], ?_,
    fun n hn hlt => ?_, by rw [he, hc.frame, hframe], by rw [he], ?_, ?_, fun hb q hq => ?_⟩
  · have : (w.enterState mode).stream st = none := by simpa [hstream] using hc.stream st
    rw [he]
    exact this
  · rw [he]
    exact (hc.incarnation st).trans (hinc st)
  · rw [he, hc.frame, hframe]
    simp [Device.cursor]
  · rw [hqueue, Device.formatSectors_frame, List.append_assoc]
  · rw [Device.sector_congr hsectors]
    exact Device.formatSectors_sector d hlt (hqueue ▸ hn)
  · rw [he, hmode]
    exact Device.enterState_mode w mode
  · have hreason : e.reason = w.reasonOnEntry mode := by rw [he]; exact Device.enterState_reason w mode
    rw [hreason, ← hmode]
    split
    · simp [Device.reasonOnEntry, hwriter, Writer.commitFormat]
    · rfl
  · have hev : e.events = (w.enterState mode).events := by rw [he]
    have hport : w.port q = d.port q := by rw [hframe]; rfl
    rw [hev, Device.enterState_events (by rw [← hmode]; split <;> rfl) (by rw [hframe]; exact hb), hport, if_pos hq]
    have hevents : w.events = d.events := by rw [hframe]
    have hcode : deviceCode mode = if d.badList.length = 32 then 4 else 3 := by
      rw [← hmode]
      split <;> rfl
    rw [hevents, hcode]

/-- Settles O44. -/
theorem checkpointPageCommits : Obligations.CheckpointPageCommits := by
  intro s g sector page first target ha ⟨hh, hg, ho⟩ hv hvoid hstep hk base f e ends
  have hdone : s.dev.checkpointStep2Done s.flash = some (e.checkpointCommitted g, f) := by
    simp [Device.checkpointStep2Done, Device.metaOnArray_of hh hg, Device.stepPasses_of ho hv, hstep, hvoid, hk, e, f, base]
  have hends := State.reports ha hdone
  refine ⟨fun hf => hends.trans ?halted, fun hf => hends.trans ?discarded, fun hf => ?kept⟩
  case halted =>
    rw [Device.checkpointCommitted, hf]
    rfl
  case discarded =>
    rw [Device.checkpointCommitted, hf]
    rfl
  case kept =>
    intro w last first on
    have hcase : e.checkpointCommitted g = if w.list.length ≤ w.written then
        if w.forFormat then (on w).formatCommitted else (on w).compactionCommitted else on w := by
      rw [Device.checkpointCommitted, hf]
      rfl
    rw [hcase] at hends
    refine ⟨fun hlt => ?_, fun hle hform => ?_, fun hle hform => ?_⟩
    · rwa [if_neg (Nat.not_le.mpr hlt)] at hends
    · rw [if_pos hle, if_neg (by simp [hform])] at hends
      have hcommit : w.commitCheckpoint = last := by simp only [Writer.commitCheckpoint, Staged.filter_ne, last]
      have hmode : (on last).releaseWaiters.mode = s.dev.mode := by rw [Device.releaseWaiters_frame]; rfl
      have hcompact : (on w).compactionCommitted = (on last).releaseWaiters.noFlushAfter.offerPlaces := by
        rw [← hcommit]
        rfl
      rw [hcompact] at hends
      refine ⟨fun hm => ?_, fun hm => ?_⟩
      · rwa [Device.noFlushAfter, if_neg (by rw [hmode]; exact hm)] at hends
      · rw [Device.noFlushAfter, if_pos (hmode.trans hm)] at hends
        exact hends
    · rw [if_pos hle, if_pos hform] at hends
      refine ⟨fun hm => ?_, fun hm => ?_⟩
      · have hmode : (on w).mode = .stopping := hm
        have hstop : (on w).formatCommitted = on { first with stop := .done } := by
          rw [Device.formatCommitted, if_pos (by simp [hmode]), Device.noFlushAfter, if_pos hmode]
          rfl
        rwa [hstop] at hends
      · exact ⟨hends, Device.formatCommitted_spec (d := on w) hm⟩

end Sys2Proof.Machine
end

