-- ==== Sys2Proof/Proofs/Choice.lean ====
section
/-! What comes about between commands: the writer's claim (R109, R118), the engine's choice (R94), the beginning of a
compaction, its snapshot and its list (R114, R116, R117). -/

namespace Sys2Proof.Machine

open Sys2Proof

-- One process elaborates the whole text: proofs taken in turn stay within its memory.
set_option Elab.async false

/-! ### Groups of up to eight (R16, R103) -/

/-- Groups in order that make up a list, each of up to eight, all but the last of eight. -/
structure GroupedAs (groups : List (List Nat)) (l : List Nat) : Prop where
  flatten : groups.flatten = l
  size : ∀ g ∈ groups, 1 ≤ g.length ∧ g.length ≤ 8
  full : ∀ g ∈ groups.dropLast, g.length = 8
  count : groups.length ≤ (l.length + 7) / 8

theorem groupsOfEight_grouped {fuel : Nat} {l : List Nat} (h : l.length ≤ fuel) : GroupedAs (groupsOfEight fuel l) l := by
  induction fuel generalizing l with
  | zero =>
    obtain rfl := List.length_eq_zero_iff.mp (Nat.le_zero.mp h)
    exact ⟨rfl, by simp [groupsOfEight], by simp [groupsOfEight], by simp [groupsOfEight]⟩
  | succ fuel ih =>
    cases l with
    | nil => exact ⟨rfl, by simp [groupsOfEight], by simp [groupsOfEight], by simp [groupsOfEight]⟩
    | cons x xs =>
      obtain ⟨hflat, hsize, hfull, hcount⟩ := ih (l := (x :: xs).drop 8) (by simp at h ⊢; omega)
      rw [groupsOfEight]
      refine ⟨?_, ?_, ?_, ?_⟩
      · rw [List.flatten_cons, hflat, List.take_append_drop]
      · intro g hg
        rcases List.mem_cons.mp hg with rfl | hg
        · simp
        · exact hsize g hg
      · intro g hg
        cases hrest : groupsOfEight fuel ((x :: xs).drop 8) with
        | nil =>
          rw [hrest] at hg
          simp at hg
        | cons y ys =>
          rw [hrest, List.dropLast_cons_of_ne_nil (by simp)] at hg
          rcases List.mem_cons.mp hg with rfl | hg
          · have hy := (hsize y (by rw [hrest]; exact List.mem_cons_self)).1
            have hlen := congrArg List.length hflat
            rw [hrest] at hlen
            simp only [List.flatten_cons, List.length_append, List.length_drop, List.length_cons] at hlen
            simp
            omega
          · exact hfull g (hrest ▸ hg)
      · simp only [List.length_cons, List.length_drop] at hcount ⊢
        omega

/-! ### The writer's claim (R109, R118) -/

theorem writerMode_iff (m : DeviceState) : writerMode m = true ↔ m = .ready ∨ m = .readOnly ∨ m = .formatting := by
  cases m <;> simp [writerMode]

theorem Writer.checkpointWaits_iff (w : Writer) : w.checkpointWaits = true ↔
    w.phase = .checkpoint ∧ w.written < w.list.length := by
  simp [Writer.checkpointWaits]

theorem Writer.canFlush_iff (w : Writer) : w.canFlush = true ↔
    w.activeHalf ≠ none ∧ (∃ x ∈ w.staging, x.cond = .opened) ∧ w.phase ≠ .checkpoint ∧ w.writePos < 32 := by
  simp only [Writer.canFlush, Writer.hasOpen_iff, Option.isSome_iff_ne_none, and_assoc, Bool.and_eq_true,
    Bool.not_eq_true', beq_eq_false_iff_ne, decide_eq_true_eq]
  exact Iff.rfl

theorem Device.flushTrigger_iff (d : Device) : d.flushTrigger = true ↔
    15 ≤ d.writer.staging.length ∨
      (∃ q serial x, (d.exec q).state = .waitDurable serial ∧ x ∈ d.writer.staging ∧ x.serial = serial ∧ x.cond = .opened) ∨
      d.writer.placeWait ≠ [] ∨ d.writer.timerExpired = true := by
  simp only [Device.flushTrigger, Bool.or_eq_true, decide_eq_true_eq, Bool.not_eq_true',
    List.isEmpty_eq_false_iff, or_assoc, Device.waiterTrigger_iff]
  exact or_congr_right (or_congr_left (by simp only [← exists_and_left]))

theorem Device.stepClaim_off {d : Device} (h : ¬ (writerMode d.mode = true ∧ d.writer.state = .idle)) : d.stepClaim = none :=
  if_neg (by simpa using h)

theorem Device.stepClaim_works {d : Device} (h : writerMode d.mode = true ∧ d.writer.state = .idle) : d.stepClaim =
    if d.writer.checkpointWaits then
      if d.writer.checkpointPos < 32 then some { d with writer := { d.writer with state := .claim1 } }
      else some d.haltWriter
    else if d.writer.canFlush && d.flushTrigger then some { d with writer := { d.writer with state := .claim1 } }
    else none :=
  if_pos (by simpa using h)

/-! ### The engine's choice (R94) -/

theorem slotMode_iff (m : DeviceState) : slotMode m = true ↔
    m = .ready ∨ m = .readOnly ∨ m = .blank ∨ m = .formatting := by
  cases m <;> simp [slotMode]

theorem Engine.choosing_iff (x : Engine) : x.choosing = true ↔ x.current = none ∧ x.outcome = none := by
  simp [Engine.choosing]

/-- Choosing, the engine enters the state chosen unless it is in it (R94). -/
theorem Device.stepChoice_of {d : Device} {c : EngineState} (hc : d.engine.current = none) (ho : d.engine.outcome = none)
    (hs : d.chosenState = c) :
    (d.engine.state = c → d.stepChoice = none) ∧ (d.engine.state ≠ c → d.stepChoice = some (d.enterChoice c)) := by
  have hx : d.engine.choosing = true := d.engine.choosing_iff.mpr ⟨hc, ho⟩
  simp +contextual [Device.stepChoice, hx, hs]

theorem Device.enterChoice_claiming (d : Device) : d.enterChoice .claiming =
    { d with engine := { d.engine with state := .claiming }, arbiter := { d.arbiter with starveTimer := true } } := rfl

theorem Device.enterChoice_rests {d : Device} {c : EngineState} (h : c ≠ .claiming) : d.enterChoice c =
    { d with
      engine := { d.engine with state := c }
      arbiter := { d.arbiter with starved := false, starveTimer := false } } := by
  simp [Device.enterChoice, h]

theorem Device.chosenState_slot {d : Device} (h : d.engine.slot ≠ []) (hm : slotMode d.mode = true) :
    d.chosenState = .claiming := by
  simp [Device.chosenState, h, hm]

theorem Device.chosenState_head {d : Device} (hslot : ¬ (d.engine.slot ≠ [] ∧ slotMode d.mode = true)) {n : Nat}
    (hn : d.startableHead = some n) :
    d.chosenState = if (d.sector n).mark ≤ d.writer.durableSerial then .claiming else .gated := by
  rw [Device.chosenState, if_neg (by simpa using hslot), hn]

theorem Device.chosenState_none {d : Device} (hslot : ¬ (d.engine.slot ≠ [] ∧ slotMode d.mode = true))
    (hn : d.startableHead = none) : d.chosenState = .idle := by
  rw [Device.chosenState, if_neg (by simpa using hslot), hn]

/-! ### Compaction (R114, R116) -/

theorem Device.compactionDue_iff {d : Device} {half : Nat} (h : d.writer.activeHalf = some half) : d.compactionDue = true ↔
    (d.mode = .ready ∨ d.mode = .readOnly) ∧ d.writer.state ≠ .halted ∧ d.writer.state ≠ .dormant ∧
      d.writer.phase = .none ∧ (24 ≤ d.writer.writePos ∨ d.writer.broken = true) := by
  simp only [Device.compactionDue, Writer.takesEntries, h, and_assoc, Bool.and_eq_true,
    Bool.or_eq_true, Bool.not_eq_true', beq_eq_false_iff_ne, beq_iff_eq, decide_eq_true_eq, Option.isSome_some, true_and]
  exact Iff.rfl

theorem Device.snapshotDue_iff (d : Device) : d.snapshotDue = true ↔
    d.writer.phase = .erasing ∧ 2 ≤ d.writer.erased ∧ d.writer.state = .idle ∧ d.mode ≠ .stopping := by
  simp [Device.snapshotDue, and_assoc]

theorem length_flatMap_le {α β : Type} {f : α → List β} {k : Nat} (h : ∀ x, (f x).length ≤ k) (l : List α) :
    (l.flatMap f).length ≤ l.length * k := by
  induction l with
  | nil => simp
  | cons x xs ih =>
    rw [List.flatMap_cons, List.length_append, List.length_cons, Nat.succ_mul]
    have := h x
    omega

/-- A number's definition or drop in a checkpoint list (R117, R150). -/
def Device.definitions (d : Device) (format : Bool) (st : Fin 16) : List MetaEntry :=
  match d.stream st, format with
  | some b, false => [b.definition st (d.incarnation st)]
  | _, _ => if d.incarnation st = 0 then [] else [.streamDrop st (d.incarnation st)]

/-- A port's cursor of a number in a checkpoint list (R117, R150). -/
def Device.cursorEntries (d : Device) (format : Bool) (st : Fin 16) (p : Port) : List MetaEntry :=
  match d.cursor st p, format with
  | some c, false => [.cursor st (d.incarnation st) p c.recCommitted c.recLost]
  | _, _ => []

theorem Device.definitions_length (d : Device) (format : Bool) (st : Fin 16) : (d.definitions format st).length ≤ 1 := by
  unfold Device.definitions
  split
  · simp
  · split <;> simp

theorem Device.cursorEntries_length (d : Device) (format : Bool) (st : Fin 16) (p : Port) :
    (d.cursorEntries format st p).length ≤ 1 := by
  unfold Device.cursorEntries
  split <;> simp

/-- What stands before the CHECKPOINT_END: definitions and drops, cursors, counts, bad sectors (R117, R150). -/
def Device.checkpointBody (d : Device) (format : Bool) : List MetaEntry :=
  (List.finRange 16).flatMap (d.definitions format)
    ++ ((List.finRange 16).flatMap fun st => [Port.A, .B, .C].flatMap (d.cursorEntries format st))
    ++ ((List.range 63).map fun k => d.outcomeEntry (.wear (4 + 4 * k)))
    ++ (groupsOfEight d.badList.length d.badList).map .retire

theorem Device.checkpointList_eq (d : Device) (snapshot : Nat) (format : Bool) : d.checkpointList snapshot format =
    d.checkpointBody format ++ [.checkpointEnd snapshot ((d.checkpointBody format).length + 1)] := by
  have hdefs : ((List.finRange 16).filterMap fun st =>
      match (if format then none else d.stream st) with
      | some b => some (b.definition st (d.incarnation st))
      | none => if d.incarnation st = 0#8 then none else some (.streamDrop st (d.incarnation st))) =
      (List.finRange 16).flatMap (d.definitions format) := by
    rw [List.filterMap_eq_flatMap_toList]
    refine List.flatMap_congr fun st _ => ?_
    unfold Device.definitions
    cases format <;> cases d.stream st <;> simp <;> split <;> simp_all
  have hcursors : (if format then [] else (List.finRange 16).flatMap fun st => portList.filterMap fun p =>
      (d.cursor st p).map fun c => MetaEntry.cursor st (d.incarnation st) p c.recCommitted c.recLost) =
      (List.finRange 16).flatMap fun st => [Port.A, .B, .C].flatMap (d.cursorEntries format st) := by
    cases format
    · refine List.flatMap_congr fun st _ => ?_
      rw [List.filterMap_eq_flatMap_toList]
      refine List.flatMap_congr fun p _ => ?_
      unfold Device.cursorEntries
      cases d.cursor st p <;> rfl
    · refine (List.flatMap_eq_nil_iff.mpr fun st _ => List.flatMap_eq_nil_iff.mpr fun p _ => ?_).symm
      unfold Device.cursorEntries
      cases d.cursor st p <;> rfl
  unfold Device.checkpointList Device.checkpointBody
  rw [← hdefs, ← hcursors] <;> rfl

/-- Settles O35: each consequence's own condition, and the checkpoint list part by part. -/
theorem choiceAndCompactionFollowTheTables : Obligations.ChoiceAndCompactionFollowTheTables := by
  refine ⟨?_, ?_, ?_, ?_, ?_⟩
  · intro d w works listed page trigger claims
    have hworks : works ↔ (writerMode d.mode = true ∧ w.state = .idle) := by rw [writerMode_iff]
    have hlisted : listed ↔ w.checkpointWaits = true := w.checkpointWaits_iff.symm
    have hpage : page ↔ w.canFlush = true := w.canFlush_iff.symm
    have htrigger : trigger ↔ d.flushTrigger = true := d.flushTrigger_iff.symm
    rw [hworks, hlisted, hpage, htrigger]
    refine ⟨Device.stepClaim_off, fun hw hl hp => ?_, fun hw hl hp => ?_, fun hw hl hp ht => ?_, fun hw hl hp => ?_⟩
    · exact (Device.stepClaim_works hw).trans ((if_pos hl).trans (if_pos hp))
    · exact (Device.stepClaim_works hw).trans ((if_pos hl).trans (if_neg (Nat.not_lt.mpr hp)))
    · exact (Device.stepClaim_works hw).trans ((if_neg hl).trans (if_pos (Bool.and_eq_true_iff.mpr ⟨hp, ht⟩)))
    · exact (Device.stepClaim_works hw).trans ((if_neg hl).trans (if_neg (by simpa using hp)))
  · intro d slotFirst enters claims rests
    have hslot : slotFirst ↔ d.engine.slot ≠ [] ∧ slotMode d.mode = true := by rw [slotMode_iff]
    rw [hslot]
    refine ⟨fun h => ?_, fun hc ho => ⟨fun h => ?_, fun h => ⟨fun n rest hq hm hn => ?_, fun hq => ?_⟩⟩⟩
    · refine if_neg fun hx => ?_
      obtain ⟨hc, ho⟩ := d.engine.choosing_iff.mp (Bool.and_eq_true_iff.mp hx).1
      exact h.elim (absurd hc) (absurd ho)
    · exact Device.stepChoice_of hc ho (Device.chosenState_slot h.1 h.2)
    · have hhead := Device.chosenState_head h (Device.startableHead_head hq hm hn)
      refine ⟨fun hmark => ?_, fun hmark => ?_⟩
      · exact Device.stepChoice_of hc ho (hhead.trans (if_pos hmark))
      · have := Device.stepChoice_of hc ho (hhead.trans (if_neg (Nat.not_le.mpr hmark)))
        rwa [Device.enterChoice_rests (by decide)] at this
    · have := Device.stepChoice_of hc ho (Device.chosenState_none h (Device.startableHead_none (by tauto)))
      rwa [Device.enterChoice_rests (by decide)] at this
  · intro d half hhalf due
    have hdue : due ↔ d.compactionDue = true := (Device.compactionDue_iff hhalf).symm
    rw [hdue]
    refine ⟨fun h => (if_pos h).trans ?_, fun h => if_neg h⟩
    simp [Device.beginCompaction, hhalf, halfSectors]
  · intro d due
    have hdue : due ↔ d.snapshotDue = true := d.snapshotDue_iff.symm
    rw [hdue]
    exact ⟨fun h => if_pos h, fun h => if_neg h⟩
  · intro d snapshot format list
    have hgroups := groupsOfEight_grouped (Nat.le_refl d.badList.length)
    have hlist : list = _ := d.checkpointList_eq snapshot format
    have hlen : list.length = (d.checkpointBody format).length + 1 := by rw [hlist, List.length_append, List.length_singleton]
    refine ⟨_, _, _, groupsOfEight d.badList.length d.badList, by rw [hlen]; exact hlist, rfl, rfl, ?_, hgroups.flatten,
      hgroups.size, hgroups.full, fun hbad => ?_⟩
    · refine List.map_congr_left fun k _ => ?_
      have h1 : 4 + 4 * k + 1 = 5 + 4 * k := by omega
      have h2 : 4 + 4 * k + 2 = 6 + 4 * k := by omega
      have h3 : 4 + 4 * k + 3 = 7 + 4 * k := by omega
      rw [Device.outcomeEntry, h1, h2, h3]
    · have hdefs := length_flatMap_le (d.definitions_length format) (List.finRange 16)
      have hcursors := length_flatMap_le
        (fun st => length_flatMap_le (d.cursorEntries_length format st) [Port.A, Port.B, Port.C]) (List.finRange 16)
      have hcount := hgroups.count
      simp only [List.length_finRange, List.length_cons, List.length_nil] at hdefs hcursors
      rw [hlen, Device.checkpointBody]
      simp only [List.length_append, List.length_map, List.length_range]
      omega

end Sys2Proof.Machine
end

