-- ==== Sys2Proof/Proofs/Halting.lean ====
section
/-! The metadata writer's halt, part by part (R101, R118, R120), and the reach of halting and staging (R104, R106). -/

namespace Sys2Proof.Machine

open Sys2Proof

-- One process elaborates the whole text: proofs taken in turn stay within its memory.
set_option Elab.async false

/-! ### Operations at one port after another -/

/-- An operation that touches one port's executor and queues alone. -/
structure Portwise (f : Device → Port → Device) : Prop where
  frame : ∀ d p, f d p = { d with ports := (f d p).ports, execs := (f d p).execs }
  other : ∀ d p q, q ≠ p → (f d p).exec q = d.exec q ∧ (f d p).port q = d.port q

/-- The operation at each port, in the order A, B, C. -/
def eachPort (f : Device → Port → Device) (d : Device) : Device := f (f (f d .A) .B) .C

theorem Portwise.eachPort_frame {f : Device → Port → Device} (h : Portwise f) (d : Device) :
    eachPort f d = { d with ports := (eachPort f d).ports, execs := (eachPort f d).execs } := by
  unfold eachPort
  rw [h.frame _ .C, h.frame _ .B, h.frame _ .A]

/-- What the operation does at a port, by that port's executor and queues, it does in its turn. -/
theorem Portwise.eachPort_as {f : Device → Port → Device} (h : Portwise f) {R : Executor → HostPort → Executor → HostPort → Prop}
    (step : ∀ d q, R (d.exec q) (d.port q) ((f d q).exec q) ((f d q).port q)) (d : Device) (q : Port) :
    R (d.exec q) (d.port q) ((eachPort f d).exec q) ((eachPort f d).port q) := by
  unfold eachPort
  cases q with
  | A =>
    rw [(h.other _ .C .A (by decide)).1, (h.other _ .C .A (by decide)).2, (h.other _ .B .A (by decide)).1,
      (h.other _ .B .A (by decide)).2]
    exact step d .A
  | B =>
    rw [(h.other _ .C .B (by decide)).1, (h.other _ .C .B (by decide)).2, ← (h.other d .A .B (by decide)).1,
      ← (h.other d .A .B (by decide)).2]
    exact step _ .B
  | C =>
    rw [← (h.other d .A .C (by decide)).1, ← (h.other d .A .C (by decide)).2, ← (h.other (f d .A) .B .C (by decide)).1,
      ← (h.other (f d .A) .B .C (by decide)).2]
    exact step _ .C

/-- A response added to a port's queue, if there is a request to answer (R166). -/
def HostPort.told (h : HostPort) (r : Option Request) (status : Status) (body : List Byte) : HostPort :=
  match r with
  | none => h
  | some r => { h with responses := h.responses ++ [⟨r.label.1, r.label.2, status, body⟩] }

theorem Device.answer_port (d : Device) (p : Port) (status : Status) (body : List Byte) :
    (d.answer p status body).port p = (d.port p).told (d.exec p).inHand status body := by
  unfold Device.answer HostPort.told
  cases (d.exec p).inHand <;> simp [Device.respond]

theorem HostPort.told_fields (h : HostPort) (r : Option Request) (status : Status) (body : List Byte) :
    (h.told r status body).requests = h.requests ∧ (h.told r status body).attached = h.attached := by
  cases r <;> exact ⟨rfl, rfl⟩

theorem HostPort.told_some {h : HostPort} {x : Option Request} {r : Request} (hr : x = some r) (status : Status) (body : List Byte) :
    h.told x status body = { h with responses := h.responses ++ [⟨r.label.1, r.label.2, status, body⟩] } := by
  rw [hr]
  rfl

/-! ### Waiters of a halted writer (R120) -/

theorem Device.answerOnArray_exec (d : Device) (p : Port) (j : AppendJob) (status : Status) :
    (d.answerOnArray p j status).exec p = ⟨.onArray, none, .append { j with kept := [] }⟩ := by
  unfold Device.answerOnArray
  exact Device.exec_setExec _ _ _

theorem Device.answerOnArray_port (d : Device) (p : Port) (j : AppendJob) (status : Status) :
    (d.answerOnArray p j status).port p = (d.port p).told (d.exec p).inHand status [] := by
  unfold Device.answerOnArray HostPort.told
  cases (d.exec p).inHand <;> simp [Device.respond]

/-- An executor that waits for places or for durability (R107, R113). -/
def Executor.waiting (x : Executor) : Prop := x.state = .waitStaging ∨ ∃ serial, x.state = .waitDurable serial

/-- An executor with its void step on the array and RETIRE entries kept (R43; log 15). -/
def Executor.keeping (x : Executor) : Prop := x.state = .onArray ∧ ∃ j, x.job = .append j ∧ j.kept ≠ []

theorem Device.haltWaiter_waiting {d : Device} {p : Port} (h : (d.exec p).waiting) :
    d.haltWaiter p = d.answer p .readOnly [] := by
  rcases h with h | ⟨serial, h⟩ <;> simp [Device.haltWaiter, h]

theorem Device.haltWaiter_keeping {d : Device} {p : Port} {j : AppendJob} (hs : (d.exec p).state = .onArray)
    (hj : (d.exec p).job = .append j) (hk : j.kept ≠ []) : d.haltWaiter p = d.answerOnArray p j .readOnly := by
  simp [Device.haltWaiter, hs, hj, hk]

theorem Device.haltWaiter_other {d : Device} {p : Port} (h : ¬ (d.exec p).waiting) (hk : ¬ (d.exec p).keeping) :
    d.haltWaiter p = d := by
  unfold Device.haltWaiter
  split
  · rename_i serial hs
    exact absurd (.inr ⟨serial, hs⟩) h
  · rename_i hs
    exact absurd (.inl hs) h
  · rename_i hs
    split
    · rename_i j hj
      split
      · rfl
      · rename_i hne
        exact absurd ⟨hs, j, hj, by simpa using hne⟩ hk
    all_goals rfl
  all_goals rfl

/-- Told the halt: the waiters rest with their answer, a void step with kept entries runs on with no request in hand, any
other executor is left alone (R120). -/
def toldHalt (x : Executor) (h : HostPort) (x' : Executor) (h' : HostPort) : Prop :=
  (x.waiting → x' = Executor.rest ∧ h' = h.told x.inHand .readOnly []) ∧
  (∀ j, x.state = .onArray → x.job = .append j → j.kept ≠ [] →
    x' = ⟨.onArray, none, .append { j with kept := [] }⟩ ∧ h' = h.told x.inHand .readOnly []) ∧
  (¬ x.waiting → ¬ x.keeping → x' = x ∧ h' = h)

theorem Device.haltWaiter_told (d : Device) (q : Port) :
    toldHalt (d.exec q) (d.port q) ((d.haltWaiter q).exec q) ((d.haltWaiter q).port q) := by
  refine ⟨fun h => ?_, fun j hs hj hk => ?_, fun h hk => ?_⟩
  · rw [Device.haltWaiter_waiting h]
    exact ⟨Device.answer_exec _ _ _ _, Device.answer_port _ _ _ _⟩
  · rw [Device.haltWaiter_keeping hs hj hk]
    exact ⟨Device.answerOnArray_exec _ _ _ _, Device.answerOnArray_port _ _ _ _⟩
  · rw [Device.haltWaiter_other h hk]
    exact ⟨rfl, rfl⟩

theorem portwise_haltWaiter : Portwise Device.haltWaiter := by
  have cases' (d : Device) (p : Port) : d.haltWaiter p = d ∨ d.haltWaiter p = d.answer p .readOnly [] ∨
      ∃ j, d.haltWaiter p = d.answerOnArray p j .readOnly := by
    by_cases hw : (d.exec p).waiting
    · exact .inr (.inl (Device.haltWaiter_waiting hw))
    · by_cases hk : (d.exec p).keeping
      · obtain ⟨hs, j, hj, hne⟩ := hk
        exact .inr (.inr ⟨j, Device.haltWaiter_keeping hs hj hne⟩)
      · exact .inl (Device.haltWaiter_other hw hk)
  refine ⟨fun d p => ?_, fun d p q hq => ?_⟩
  · rcases cases' d p with h | h | ⟨j, h⟩ <;> rw [h]
    · rw [Device.answer_changes]
    · unfold Device.answerOnArray
      split <;> rfl
  · rcases cases' d p with h | h | ⟨j, h⟩ <;> rw [h]
    · exact ⟨rfl, rfl⟩
    · exact ⟨Device.answer_exec_other _ hq, Device.answer_port_other _ hq⟩
    · unfold Device.answerOnArray
      refine ⟨?_, ?_⟩
      · rw [Device.exec_setExec_other _ _ _ _ hq]
        split <;> rfl
      · split
        · exact Device.port_setPort_other _ _ _ _ hq
        · rfl

/-! ### The parts of the halt (R120) -/

/-- The writer halted, a step of its own on the array or none. -/
def Writer.halted (w : Writer) (onArray : Prop) [Decidable onArray] : Writer :=
  { w with
    state := .halted
    inFlight := if onArray then w.inFlight.map fun g => { g with fate := .halted } else none
    phase := .none
    forFormat := false
    timerRunning := false
    timerExpired := false
    placeWait := [] }

/-- The slot emptied. -/
def Device.slotEmptied (d : Device) : Device := { d with engine := { d.engine with slot := [] } }

/-- The slot emptied, and an erase that came from it abandoned (R101, R120). -/
def Device.haltErase (d : Device) : Device :=
  match d.slotEmptied.engine.current with
  | some c => if c.source = EraseSource.slot then d.slotEmptied.abandonErase else d.slotEmptied
  | none => d.slotEmptied

/-- The part with its writer halted, before anything else follows from it. -/
def Device.writerHalted (d : Device) : Device :=
  { d with writer := d.writer.halted (d.arbiter.holder = some .writer) }

theorem Device.haltWriter_eq (d : Device) : d.haltWriter =
    (eachPort Device.haltWaiter d.writerHalted.enterMetaMedia.haltErase).discardOutcome := rfl

/-- With no erase from the slot, only the slot is emptied. -/
theorem Device.haltErase_apart {d : Device} (h : d.engine.current = none ∨ ∃ c, d.engine.current = some c ∧ c.source = .queue) :
    d.haltErase = d.slotEmptied := by
  unfold Device.haltErase
  have hc : d.slotEmptied.engine.current = d.engine.current := rfl
  rw [hc]
  rcases h with h | ⟨c, h, hq⟩ <;> rw [h]
  exact if_neg (by rw [hq]; decide)

theorem Device.haltErase_slot {d : Device} {c : CurrentErase} (hc : d.engine.current = some c) (hs : c.source = .slot) :
    d.haltErase = d.slotEmptied.abandonErase := by
  unfold Device.haltErase
  have hc' : d.slotEmptied.engine.current = some c := hc
  rw [hc']
  exact if_pos hs

/-- No current erase, one of the erase queue, or one of the slot. -/
theorem Engine.current_cases (x : Engine) : (x.current = none ∨ ∃ c, x.current = some c ∧ c.source = .queue) ∨
    ∃ c, x.current = some c ∧ c.source = .slot := by
  cases hc : x.current with
  | none => exact .inl (.inl rfl)
  | some c =>
    cases hs : c.source with
    | queue => exact .inl (.inr ⟨c, rfl, hs⟩)
    | slot => exact .inr ⟨c, rfl, hs⟩

/-- What abandoning an erase from the slot comes to, by the phase of its context (R82, R102; log 47). -/
theorem Device.abandonErase_slot {d : Device} {c : CurrentErase} (hc : d.engine.current = some c) (hs : c.source = .slot) :
    (d.eraseCtx = none → d.abandonErase = d) ∧
    ∀ x, d.eraseCtx = some x →
      (x.phase ≠ .suspended → d.abandonErase = { d with eraseCtx := some { x with abandon := true } }) ∧
      (x.phase = .suspended → d.abandonErase = { d with
        arrayOp := d.abandonErase.arrayOp
        eraseCtx := none
        arbiter := d.abandonErase.arbiter
        engine := { d.engine with current := none, state := .idle } }) := by
  refine ⟨fun hx => by simp [Device.abandonErase, hx], fun x hx => ⟨fun hp => ?_, fun hp => ?_⟩⟩
  · rw [Device.abandonErase, hx]
    dsimp only
    split
    · rename_i h
      exact absurd h hp
    all_goals rfl
  · have hq : d.withdrawEngineClaim.engine.current = some c := hc
    simp only [Device.abandonErase, hx, hp, Device.eraseAbandoned, hq, hs]
    split <;> rfl

theorem Device.haltErase_frame (d : Device) : d.haltErase =
    { d with
      arrayOp := d.haltErase.arrayOp, eraseCtx := d.haltErase.eraseCtx, arbiter := d.haltErase.arbiter
      engine := d.haltErase.engine } ∧ d.haltErase.engine.slot = [] := by
  rcases d.engine.current_cases with h | ⟨c, hc, hs⟩
  · rw [Device.haltErase_apart h]
    exact ⟨rfl, rfl⟩
  · rw [Device.haltErase_slot hc hs]
    obtain ⟨hnone, hsome⟩ := Device.abandonErase_slot (d := d.slotEmptied) hc hs
    cases hx : d.eraseCtx with
    | none =>
      rw [hnone hx]
      exact ⟨rfl, rfl⟩
    | some x =>
      by_cases hp : x.phase = .suspended
      · rw [(hsome x hx).2 hp]
        exact ⟨rfl, rfl⟩
      · rw [(hsome x hx).1 hp]
        exact ⟨rfl, rfl⟩

/-- With no ballot open an entry changes mode and reason, tells STATE and withdraws the engine's claim at most. -/
theorem Device.enterState_frame {d : Device} (hb : d.consent.ballot = none) (m : DeviceState) : d.enterState m =
    { d with
      mode := m, reason := d.reasonOnEntry m, events := (d.enterState m).events, arbiter := (d.enterState m).arbiter
      engine := (d.enterState m).engine } := by
  obtain ⟨E, hE⟩ : ∃ E, ({ d with mode := m, reason := d.reasonOnEntry m } : Device).offerAll
      ⟨.state, none, some (deviceCode m)⟩ = { d with mode := m, reason := d.reasonOnEntry m, events := E } :=
    ⟨_, Device.offerSet_frame _ _ _⟩
  unfold Device.enterState Device.withdrawEngineClaim
  dsimp only
  rw [hE]
  cases announced m <;> simp only [hb, Bool.false_eq_true, if_false, if_true] <;> split <;> rfl

theorem Device.Controls.enterMetaMedia {a d : Device} (h : a.Controls d) : a.Controls d.enterMetaMedia := by
  unfold Device.enterMetaMedia
  split
  · exact h.enterState _
  · exact (h.enterState .readOnly).trans ⟨rfl, fun _ => rfl, fun _ => rfl, ⟨rfl, rfl⟩, ⟨rfl, rfl, rfl⟩, rfl⟩
  · exact h.setMode d.mode _ d.events
  all_goals exact h

theorem Device.enterMetaMedia_mode {d : Device} (hw : d.writer.state = .halted) :
    ((d.mode = .ready ∨ d.mode = .readOnly ∨ d.mode = .formatting) →
      d.enterMetaMedia.mode = .readOnly ∧ d.enterMetaMedia.reason = .metaMedia) ∧
    (d.mode = .mounting ∨ d.mode = .blank ∨ d.mode = .stopping ∨ d.mode = .stopped → d.enterMetaMedia = d) := by
  have hr : d.reasonOnEntry .readOnly = .metaMedia := if_pos hw
  unfold Device.enterMetaMedia
  cases hm : d.mode <;> simp [hr, hm]

/-- Only the engine's outcome goes, and with it its wait for places (R102, R120). -/
theorem Device.discardOutcome_frame (d : Device) : d.discardOutcome =
    { d with engine := { d.engine with outcome := none, state := d.discardOutcome.engine.state } } := rfl

/-- The halt, each table by the part of it that changes the table. -/
theorem Device.haltWriter_frame (d : Device) : d.haltWriter =
    let m := d.writerHalted.enterMetaMedia
    let k := m.haltErase
    { d with
      mode := m.mode, reason := m.reason, events := m.events, streams := m.streams, consent := m.consent
      writer := d.writerHalted.writer, arrayOp := k.arrayOp, eraseCtx := k.eraseCtx, arbiter := k.arbiter
      engine := { k.engine with outcome := none, state := d.haltWriter.engine.state }
      ports := (eachPort Device.haltWaiter k).ports, execs := (eachPort Device.haltWaiter k).execs } := by
  have hm := ((Device.Controls.refl d.writerHalted).enterMetaMedia).frame
  have hk := d.writerHalted.enterMetaMedia.haltErase_frame.1
  have he := portwise_haltWaiter.eachPort_frame d.writerHalted.enterMetaMedia.haltErase
  exact (congrArg (fun x : Device => { x with
      engine := { x.engine with outcome := none, state := d.haltWriter.engine.state } }) he).trans
    ((congrArg (fun x : Device => { x with
        ports := (eachPort Device.haltWaiter d.writerHalted.enterMetaMedia.haltErase).ports
        execs := (eachPort Device.haltWaiter d.writerHalted.enterMetaMedia.haltErase).execs
        engine := { x.engine with outcome := none, state := d.haltWriter.engine.state } }) hk).trans
      (congrArg (fun x : Device => { x with
        ports := (eachPort Device.haltWaiter d.writerHalted.enterMetaMedia.haltErase).ports
        execs := (eachPort Device.haltWaiter d.writerHalted.enterMetaMedia.haltErase).execs
        arrayOp := d.writerHalted.enterMetaMedia.haltErase.arrayOp
        eraseCtx := d.writerHalted.enterMetaMedia.haltErase.eraseCtx
        arbiter := d.writerHalted.enterMetaMedia.haltErase.arbiter
        engine := { d.writerHalted.enterMetaMedia.haltErase.engine with
          outcome := none, state := d.haltWriter.engine.state } }) hm))

/-- A stream's fields as they were, but for a ballot-held flag cleared (R7). -/
def Device.unheld (d d' : Device) : Prop :=
  ∀ st, d'.stream st = d.stream st ∨ d'.stream st = (d.stream st).map StreamBody.apart

theorem Device.unheld.trans {a b c : Device} (h : a.unheld b) (k : b.unheld c) : a.unheld c := fun st => by
  rcases k st with hk | hk <;> rcases h st with hh | hh <;> rw [hk, hh]
  · exact .inl rfl
  · exact .inr rfl
  · exact .inr rfl
  · exact .inr (by cases a.stream st <;> rfl)

theorem Device.setBallotHeld_unheld (d : Device) (st' : Fin 16) : d.unheld (d.setBallotHeld st' false) := fun st => by
  unfold Device.setBallotHeld
  cases hs : d.stream st' with
  | none => exact .inl rfl
  | some b =>
    by_cases hst : st = st'
    · subst hst
      rw [Device.stream_setBody, hs]
      exact .inr rfl
    · exact .inl (Device.stream_setBody_other _ _ _ _ hst)

theorem Device.holdBallotStream_unheld (d : Device) (op : BallotOp) : d.unheld (d.holdBallotStream op false) := by
  cases op with
  | format => exact fun _ => .inl rfl
  | purge st inc => exact d.setBallotHeld_unheld st

theorem Device.closeBallot_unheld (d : Device) (o : BallotOutcome) : d.unheld (d.closeBallot o) := fun st => by
  cases hb : d.consent.ballot with
  | none =>
    rw [Device.closeBallot_none _ _ hb]
    exact .inl rfl
  | some bl =>
    have hstream : (d.closeBallot o).stream st = (d.holdBallotStream bl.op false).stream st := by
      rw [Device.closeBallot_frame _ _ _ hb]
      rfl
    rw [hstream]
    exact d.holdBallotStream_unheld bl.op st

theorem Device.unheld.ite {d x y : Device} {c : Prop} [Decidable c] (hx : d.unheld x) (hy : d.unheld y) :
    d.unheld (if c then x else y) := by
  split
  exacts [hx, hy]

theorem Device.enterState_unheld (d : Device) (m : DeviceState) : d.unheld (d.enterState m) := by
  have entered : d.unheld { d with mode := m, reason := d.reasonOnEntry m } := fun _ => .inl rfl
  have announces : d.unheld (if announced m = true then
      ({ d with mode := m, reason := d.reasonOnEntry m } : Device).offerAll ⟨.state, none, some (deviceCode m)⟩
      else { d with mode := m, reason := d.reasonOnEntry m }) := .ite (fun st => by
    unfold Device.offerAll
    rw [Device.offerSet_frame]
    exact .inl rfl) entered
  have withdrawn {e : Device} (h : d.unheld e) : d.unheld e.withdrawEngineClaim := h
  unfold Device.enterState
  dsimp only
  refine .ite (withdrawn ?_) ?_
  all_goals
    split
    · exact .ite (announces.trans (Device.closeBallot_unheld _ _)) announces
    · exact announces

theorem Device.enterMetaMedia_unheld (d : Device) : d.unheld d.enterMetaMedia := fun st => by
  unfold Device.enterMetaMedia
  split
  · exact d.enterState_unheld _ st
  · exact d.enterState_unheld _ st
  all_goals exact .inl rfl

/-! ### The reach of halting and staging (R104, R106, R120) -/

/-- A cursor but for the writer's record of it (R117). -/
def Cursor.apart (c : Cursor) : Cursor := { c with recCommitted := 0, recLost := 0 }

/-- The reach of the metadata writer's halting and staging: everything but the sector map with its lists, the space-wait
list and the mount unit. -/
structure Device.Journals (d d' : Device) : Prop where
  frame : d' = { d with
    mode := d'.mode, reason := d'.reason, ports := d'.ports, events := d'.events, execs := d'.execs
    streams := d'.streams, cursors := d'.cursors, arrayOp := d'.arrayOp, eraseCtx := d'.eraseCtx
    arbiter := d'.arbiter, engine := d'.engine, writer := d'.writer, consent := d'.consent }
  mode : d'.mode = d.mode ∨ (d.mode = .ready ∨ d.mode = .formatting) ∧ d'.mode = .readOnly
  incarnation : ∀ st, d'.incarnation st = d.incarnation st
  stream : d.unheld d'
  cursor : ∀ st p, (d'.cursor st p).map Cursor.apart = (d.cursor st p).map Cursor.apart
  port : ∀ p, (d'.port p).requests = (d.port p).requests ∧ (d'.port p).attached = (d.port p).attached

theorem Device.haltWriter_cursors (d : Device) : d.haltWriter.cursors = d.cursors := by rw [Device.haltWriter_frame]

/-- What each port sees of a halt: the executor and the queues as told. -/
theorem Device.haltWriter_told (d : Device) (q : Port) :
    toldHalt (d.exec q) (d.port q) (d.haltWriter.exec q) (d.haltWriter.port q) := by
  have told := portwise_haltWaiter.eachPort_as Device.haltWaiter_told d.writerHalted.enterMetaMedia.haltErase q
  have hexec : d.writerHalted.enterMetaMedia.haltErase.exec q = d.exec q := by
    rw [Device.exec, (Device.haltErase_frame _).1, ((Device.Controls.refl d.writerHalted).enterMetaMedia).frame]
    rfl
  have hport : d.writerHalted.enterMetaMedia.haltErase.port q = d.port q := by
    rw [Device.port, (Device.haltErase_frame _).1, ((Device.Controls.refl d.writerHalted).enterMetaMedia).frame]
    rfl
  rwa [hexec, hport] at told

theorem toldHalt.port {x x' : Executor} {h h' : HostPort} (k : toldHalt x h x' h') :
    h'.requests = h.requests ∧ h'.attached = h.attached := by
  obtain ⟨hwait, hkeep, helse⟩ := k
  by_cases hw : x.waiting
  · rw [(hwait hw).2]
    exact h.told_fields _ _ _
  · by_cases hk : x.keeping
    · obtain ⟨hs, j, hj, hne⟩ := hk
      rw [(hkeep j hs hj hne).2]
      exact h.told_fields _ _ _
    · rw [(helse hw hk).2]
      exact ⟨rfl, rfl⟩

theorem Device.writerHalted_mode (d : Device) :
    d.haltWriter.mode = d.writerHalted.enterMetaMedia.mode ∧ d.haltWriter.reason = d.writerHalted.enterMetaMedia.reason := by
  rw [Device.haltWriter_frame]
  exact ⟨rfl, rfl⟩

/-- A halt takes READY and FORMATTING to READ_ONLY and leaves the other states (R101, R118, R151; log 34). -/
theorem Device.haltWriter_mode (d : Device) :
    ((d.mode = .ready ∨ d.mode = .readOnly ∨ d.mode = .formatting) →
      d.haltWriter.mode = .readOnly ∧ d.haltWriter.reason = .metaMedia) ∧
    (d.mode = .mounting ∨ d.mode = .blank ∨ d.mode = .stopping ∨ d.mode = .stopped →
      d.haltWriter.mode = d.mode ∧ d.haltWriter.reason = d.reason) := by
  rw [d.writerHalted_mode.1, d.writerHalted_mode.2]
  obtain ⟨hwork, hrest⟩ := Device.enterMetaMedia_mode (d := d.writerHalted) rfl
  refine ⟨hwork, fun h => ?_⟩
  rw [hrest h]
  exact ⟨rfl, rfl⟩

namespace Device.Journals

variable {a b c d : Device}

theorem refl (d : Device) : d.Journals d :=
  ⟨rfl, .inl rfl, fun _ => rfl, fun _ => .inl rfl, fun _ _ => rfl, fun _ => ⟨rfl, rfl⟩⟩

theorem trans (h : a.Journals b) (k : b.Journals c) : a.Journals c where
  frame := k.frame.trans (by rw [h.frame])
  mode := by
    rcases k.mode with hk | ⟨hk, hk'⟩
    · rw [hk]
      exact h.mode
    · rcases h.mode with hh | ⟨hh, -⟩
      · exact .inr ⟨hh ▸ hk, hk'⟩
      · exact .inr ⟨hh, hk'⟩
  incarnation st := (k.incarnation st).trans (h.incarnation st)
  stream := h.stream.trans k.stream
  cursor st p := (k.cursor st p).trans (h.cursor st p)
  port p := ⟨(k.port p).1.trans (h.port p).1, (k.port p).2.trans (h.port p).2⟩

/-- Changes of the writer alone. -/
theorem setWriter (h : a.Journals d) (w : Writer) : a.Journals { d with writer := w } :=
  h.trans ⟨rfl, .inl rfl, fun _ => rfl, fun _ => .inl rfl, fun _ _ => rfl, fun _ => ⟨rfl, rfl⟩⟩

theorem recordEntry (h : a.Journals d) (e : MetaEntry) : a.Journals (d.recordEntry e) := by
  refine h.trans ⟨by rw [Device.recordEntry_frame], .inl (by rw [Device.recordEntry_frame]), fun st => ?_,
    fun st => .inl ?_, fun st p => ?_, fun p => ?_⟩
  · rw [Device.recordEntry_frame]
    rfl
  · rw [Device.recordEntry_frame]
    rfl
  · unfold Device.recordEntry
    split
    · rename_i st' _ p' _ _
      split
      · rename_i c hc
        by_cases hst : st = st' ∧ p = p'
        · obtain ⟨rfl, rfl⟩ := hst
          rw [Device.cursor_setCursor, hc]
          rfl
        · rw [Device.cursor_setCursor_other _ _ _ _ _ _ (by tauto)]
      · rfl
    all_goals rfl
  · rw [Device.recordEntry_frame]
    exact ⟨rfl, rfl⟩

theorem haltWriter (h : a.Journals d) : a.Journals d.haltWriter := by
  refine h.trans ⟨?_, ?_, fun st => ?_, fun st => ?_, fun st p => ?_, fun p => (d.haltWriter_told p).port⟩
  · rw [Device.haltWriter_frame]
  · obtain ⟨hwork, hrest⟩ := d.haltWriter_mode
    cases hm : d.mode
    case ready => exact .inr ⟨.inl rfl, (hwork (.inl hm)).1⟩
    case formatting => exact .inr ⟨.inr rfl, (hwork (.inr (.inr hm))).1⟩
    case readOnly => exact .inl (hwork (.inr (.inl hm))).1
    case mounting => exact .inl ((hrest (.inl hm)).1.trans hm)
    case blank => exact .inl ((hrest (.inr (.inl hm))).1.trans hm)
    case stopping => exact .inl ((hrest (.inr (.inr (.inl hm)))).1.trans hm)
    case stopped => exact .inl ((hrest (.inr (.inr (.inr hm)))).1.trans hm)
  · have := ((Device.Controls.refl d.writerHalted).enterMetaMedia).incarnation st
    rw [Device.haltWriter_frame]
    exact this
  · have := d.writerHalted.enterMetaMedia_unheld st
    rw [Device.haltWriter_frame]
    exact this
  · rw [Device.cursor, Device.haltWriter_cursors]
    rfl

theorem stage (h : a.Journals d) (e : MetaEntry) : a.Journals (d.stage e) := by
  rcases Device.stage_cases d e with ⟨-, heq⟩ | ⟨-, l, -, heq⟩ | ⟨-, -, -, heq⟩ | ⟨-, -, -, heq⟩ <;> rw [heq]
  · exact h
  · exact (h.setWriter _).recordEntry e
  · exact h.haltWriter
  · exact (h.setWriter _).recordEntry e

theorem stageAll (h : a.Journals d) (es : List MetaEntry) : a.Journals (d.stageAll es) := by
  induction es generalizing d with
  | nil => exact h
  | cons e es ih => exact ih (h.stage e)

theorem stageDefinition (h : a.Journals d) (st : Fin 16) : a.Journals (d.stageDefinition st) := by
  unfold Device.stageDefinition
  split
  exacts [h, h.stage _]

/-! What it leaves alone -/

variable (h : a.Journals b)
include h

theorem sectors : b.sectors = a.sectors := by rw [h.frame]
theorem freePool : b.freePool = a.freePool := by rw [h.frame]
theorem eraseQueue : b.eraseQueue = a.eraseQueue := by rw [h.frame]
theorem badList : b.badList = a.badList := by rw [h.frame]
theorem spaceWait : b.spaceWait = a.spaceWait := by rw [h.frame]
theorem mount : b.mount = a.mount := by rw [h.frame]
theorem sector (n : Nat) : b.sector n = a.sector n := Device.sector_congr h.sectors n

theorem none_stream {st : Fin 16} (hs : a.stream st = none) : b.stream st = none := by
  rcases h.stream st with hst | hst <;> rw [hst, hs]
  rfl

theorem some_stream {st : Fin 16} {x : StreamBody} (hs : a.stream st = some x) :
    ∃ y, b.stream st = some y ∧ (y = x ∨ y = x.apart) := by
  rcases h.stream st with hst | hst <;> rw [hst, hs]
  exacts [⟨x, rfl, .inl rfl⟩, ⟨x.apart, rfl, .inr rfl⟩]

theorem none_cursor {st : Fin 16} {p : Port} : b.cursor st p = none ↔ a.cursor st p = none := by
  rw [← Option.map_eq_none_iff (f := Cursor.apart), h.cursor st p, Option.map_eq_none_iff]

theorem some_cursor {st : Fin 16} {p : Port} {x : Cursor} (hc : a.cursor st p = some x) :
    ∃ y, b.cursor st p = some y ∧ y.apart = x.apart := by
  have hcursor := h.cursor st p
  rw [hc, Option.map_some, Option.map_eq_some_iff] at hcursor
  exact hcursor

end Device.Journals

end Sys2Proof.Machine
end

