-- ==== Sys2Proof/Proofs/Telling.lean ====
section
/-! Who has been told what: an event offered to a queue is in it, or the queue has overflowed, whatever is offered after
(R153, R155). -/

namespace Sys2Proof.Machine

open Sys2Proof

-- One process elaborates the whole text: proofs taken in turn stay within its memory.
set_option Elab.async false

/-- The queue holds the event, or has lost one (R154, R155). -/
def EventUnit.tells (u : EventUnit) (e : Event) : Prop := u.overflow = true ∨ e ∈ u.queue

theorem EventUnit.offer_tells (u : EventUnit) (e : Event) : (u.offer e).tells e := by
  unfold EventUnit.offer
  split
  · rename_i hany
    obtain ⟨x, hx, hm⟩ := List.any_eq_true.mp hany
    refine .inr (List.mem_map.mpr ⟨x, hx, ?_⟩)
    rw [if_pos hm]
    obtain ⟨hk, hs⟩ := Event.matches_iff.mp hm
    rw [hk, hs]
  · split
    · exact .inr (List.mem_append_right _ (List.mem_singleton_self e))
    · exact .inl rfl

/-- An event of another kind or subject leaves it so. -/
theorem EventUnit.tells.offer {u : EventUnit} {e : Event} (h : u.tells e) {x : Event} (hx : e.matches x = false) :
    (u.offer x).tells e := by
  unfold EventUnit.offer
  split
  · refine h.imp id fun he => List.mem_map.mpr ⟨e, he, ?_⟩
    rw [if_neg (by simp [hx])]
  · split
    · exact h.imp id (List.mem_append_left _)
    · exact .inl rfl

/-- An event that an offer of another one finds in the queue was there before. -/
theorem EventUnit.mem_of_offer {u : EventUnit} {e x : Event} (hx : e.matches x = false) (h : e ∈ (u.offer x).queue) :
    e ∈ u.queue := by
  unfold EventUnit.offer at h
  split at h
  · obtain ⟨y, hy, heq⟩ := List.mem_map.mp h
    split at heq
    · rename_i hm
      subst heq
      have := Event.matches_iff.mp hm
      simp [Event.matches, this.1, this.2] at hx
    · exact heq ▸ hy
  · split at h
    · rcases List.mem_append.mp h with h | h
      · exact h
      · rw [List.mem_singleton.mp h] at hx
        simp [Event.matches] at hx
    · exact h

/-- A port's queue holds the event, or has lost one. -/
def Device.tells (d : Device) (q : Port) (e : Event) : Prop := (d.events.get q).tells e

namespace Device.tells

variable {d : Device} {q : Port} {e x : Event}

theorem of_events {d' : Device} (h : d.tells q e) (he : d'.events = d.events) : d'.tells q e := by
  rw [Device.tells, he]
  exact h

theorem offer (h : d.tells q e) (p : Port) (hx : e.matches x = false) : (d.offer p x).tells q e := by
  unfold Device.tells
  rw [Device.offer_events]
  split
  exacts [EventUnit.tells.offer h hx, h]

theorem offerSet (h : d.tells q e) (s : PortSet) (hx : e.matches x = false) : (d.offerSet s x).tells q e := by
  unfold Device.tells
  rw [Device.offerSet_events]
  split
  exacts [EventUnit.tells.offer h hx, h]

theorem offerAll (h : d.tells q e) (hx : e.matches x = false) : (d.offerAll x).tells q e := h.offerSet _ hx

end Device.tells

/-- Every attached port of a set is told (R153). -/
theorem Device.offerSet_tells {d : Device} {s : PortSet} {q : Port} (hs : s.get q = true) (ha : (d.port q).attached = true)
    (e : Event) : (d.offerSet s e).tells q e := by
  unfold Device.tells
  rw [Device.offerSet_events, if_pos ⟨hs, ha⟩]
  exact EventUnit.offer_tells _ _

theorem Device.offerAll_tells {d : Device} {q : Port} (ha : (d.port q).attached = true) (e : Event) :
    (d.offerAll e).tells q e := Device.offerSet_tells (PerPort.get_all q true) ha e

theorem Device.offer_tells {d : Device} {p : Port} (ha : (d.port p).attached = true) (e : Event) :
    (d.offer p e).tells p e := by
  unfold Device.tells
  rw [Device.offer_events, if_pos ⟨rfl, ha⟩]
  exact EventUnit.offer_tells _ _

/-! ### Through the state controller (R145, R175, R176) -/

/-- Nothing but STATE and BALLOT_DONE has been offered since. -/
def Device.toldSince (d d' : Device) : Prop :=
  ∀ (q : Port) (e : Event), e.kind ≠ .state → e.kind ≠ .ballotDone → (d.tells q e → d'.tells q e) ∧
    (e ∈ (d'.events.get q).queue → e ∈ (d.events.get q).queue)

namespace Device.toldSince

variable {a b c d : Device}

theorem refl (d : Device) : d.toldSince d := fun _ _ _ _ => ⟨id, id⟩

theorem trans (h : a.toldSince b) (k : b.toldSince c) : a.toldSince c := fun q e hs hb =>
  ⟨fun ht => (k q e hs hb).1 ((h q e hs hb).1 ht), fun hm => (h q e hs hb).2 ((k q e hs hb).2 hm)⟩

theorem of_events (h : a.toldSince b) (he : c.events = b.events) : a.toldSince c := by
  unfold Device.toldSince Device.tells
  rw [he]
  exact h

theorem ite {p : Prop} [Decidable p] {x y : Device} (hx : a.toldSince x) (hy : a.toldSince y) :
    a.toldSince (if p then x else y) := by
  split
  exacts [hx, hy]

/-- An offer of STATE or BALLOT_DONE. -/
theorem offerSet (h : a.toldSince d) (s : PortSet) {x : Event} (hx : x.kind = .state ∨ x.kind = .ballotDone) :
    a.toldSince (d.offerSet s x) := h.trans fun q e hs hb => by
  have hne : e.matches x = false := by
    cases hm : e.matches x with
    | false => rfl
    | true =>
      have hk := (Event.matches_iff.mp hm).1
      rcases hx with hx | hx
      · exact absurd (hk.trans hx) hs
      · exact absurd (hk.trans hx) hb
  refine ⟨fun ht => ht.offerSet s hne, fun hm => ?_⟩
  rw [Device.offerSet_events] at hm
  split at hm
  · exact EventUnit.mem_of_offer hne hm
  · exact hm

theorem closeBallot (h : a.toldSince d) (o : BallotOutcome) : a.toldSince (d.closeBallot o) := by
  cases hb : d.consent.ballot with
  | none => rwa [Device.closeBallot_none _ _ hb]
  | some bl =>
    refine ((h.of_events (c := d.holdBallotStream bl.op false) ?_).offerSet bl.parties
      (x := ⟨.ballotDone, some bl.id.toNat, some o.code⟩) (.inr rfl)).of_events ?_
    · rw [Device.holdBallotStream_frame]
    · rw [Device.closeBallot_frame _ _ _ hb]

theorem enterState (h : a.toldSince d) (m : DeviceState) : a.toldSince (d.enterState m) := by
  have entered : a.toldSince { d with mode := m, reason := d.reasonOnEntry m } := h.of_events rfl
  have announces : a.toldSince (if announced m = true then
      ({ d with mode := m, reason := d.reasonOnEntry m } : Device).offerAll ⟨.state, none, some (deviceCode m)⟩
      else { d with mode := m, reason := d.reasonOnEntry m }) := .ite (entered.offerSet _ (.inl rfl)) entered
  unfold Device.enterState
  dsimp only
  refine .ite (.of_events ?_ rfl) ?_
  all_goals
    split
    · exact .ite (announces.closeBallot _) announces
    · exact announces

theorem enterMetaMedia (h : a.toldSince d) : a.toldSince d.enterMetaMedia := by
  unfold Device.enterMetaMedia
  split
  · exact h.enterState _
  · exact (h.enterState .readOnly).of_events rfl
  all_goals exact h.of_events rfl

theorem haltWriter (h : a.toldSince d) : a.toldSince d.haltWriter :=
  ((h.of_events (c := d.writerHalted) rfl).enterMetaMedia).of_events (by rw [Device.haltWriter_frame])

theorem stage (h : a.toldSince d) (e : MetaEntry) : a.toldSince (d.stage e) := by
  rcases Device.stage_cases d e with ⟨-, heq⟩ | ⟨-, l, -, heq⟩ | ⟨-, -, -, heq⟩ | ⟨-, -, -, heq⟩ <;> rw [heq]
  · exact h
  · exact h.of_events (by rw [Device.recordEntry_frame])
  · exact h.haltWriter
  · exact h.of_events (by rw [Device.recordEntry_frame])

theorem stageAll (h : a.toldSince d) (es : List MetaEntry) : a.toldSince (d.stageAll es) := by
  induction es generalizing d with
  | nil => exact h
  | cons e es ih => exact ih (h.stage e)

end Device.toldSince

/-! ### Retirements (R16, R99) -/

/-- A retirement tells every attached port, and takes nothing back that was told of another sector. -/
theorem Device.retire_tells (d : Device) (n : Nat) (q : Port) :
    ((d.port q).attached = true → (d.retire n).tells q ⟨.retired, some n, none⟩) ∧
    ∀ m, d.tells q ⟨.retired, some m, none⟩ → (d.retire n).tells q ⟨.retired, some m, none⟩ := by
  have hlist : ((d.listBad n).port q).attached = (d.port q).attached := by
    unfold Device.listBad
    rw [Device.setSector_frame]
    rfl
  have hevents : (d.listBad n).events = d.events := by
    unfold Device.listBad
    rw [Device.setSector_frame]
  have since : ((d.listBad n).offerAll ⟨.retired, some n, none⟩).toldSince (d.retire n) := by
    rw [Device.retire_eq]
    exact .ite ((Device.toldSince.refl _).enterState _) (.refl _)
  have told (ha : (d.port q).attached = true) : (d.retire n).tells q ⟨.retired, some n, none⟩ :=
    (since q ⟨.retired, some n, none⟩ nofun nofun).1 (Device.offerAll_tells (hlist.trans ha) _)
  refine ⟨told, fun m hm => ?_⟩
  by_cases hmn : m = n
  · subst hmn
    cases ha : (d.port q).attached with
    | true => exact told ha
    | false =>
      refine (since q ⟨.retired, some m, none⟩ nofun nofun).1 ?_
      rw [Device.tells, Device.offerAll_events, if_neg (by rw [hlist, ha]; decide), hevents]
      exact hm
  · refine (since q ⟨.retired, some m, none⟩ nofun nofun).1 (Device.tells.offerAll (hm.of_events hevents) ?_)
    simp [Event.matches, hmn]

end Sys2Proof.Machine
end

