-- ==== Sys2Proof/Proofs/ErasePulses.lean ====
section
/-! The end of an erase pulse (R79): the next pulse, the erased sector's way into the pool (R97, R98), the failure (R99,
R101), and what halting the writer brings about (R120). -/

namespace Sys2Proof.Machine

open Sys2Proof

-- One process elaborates the whole text: proofs taken in turn stay within its memory.
set_option Elab.async false

/-! ### A part whose writer has halted (R120, R147) -/

theorem Device.haltWriter_writer (d : Device) : d.haltWriter.writer = d.writer.halted (d.arbiter.holder = some .writer) := by
  rw [Device.haltWriter_frame]
  rfl

theorem Device.haltWriter_takes (d : Device) : d.haltWriter.writer.takesEntries = false := by
  rw [Device.haltWriter_writer]
  rfl

theorem Device.stageAll_discarded {d : Device} (h : d.writer.takesEntries = false) (es : List MetaEntry) : d.stageAll es = d := by
  induction es with
  | nil => rfl
  | cons e es ih =>
    unfold Device.stageAll at ih ⊢
    rw [List.foldl_cons, Device.stage_discarded _ _ h, ih]

theorem Device.evalBacklogs_writer (d : Device) (st : Fin 16) : (d.evalBacklogs st).writer = d.writer := by
  rw [Device.evalBacklogs_frame]

/-- Without entries to take, a purge leaves the writer alone. -/
theorem Device.purgeStream_writer {d : Device} (h : d.writer.takesEntries = false) (st : Fin 16) :
    (d.purgeStream st).writer = d.writer := by
  have cursor (e : Device) (next : Nat) (p : Port) (he : e.writer = d.writer) :
      (e.purgeCursor st next p).writer = d.writer := by
    unfold Device.purgeCursor
    split
    · exact he
    · rw [Device.stage_discarded]
      · exact he
      · exact (congrArg Writer.takesEntries he).trans h
  unfold Device.purgeStream
  split
  · rfl
  · rename_i b hs
    have hc := cursor _ b.next .C (cursor _ b.next .B (cursor d b.next .A rfl))
    have he := (((Device.Frees.refl _).emptyChain st).writer).trans hc
    dsimp only
    rw [Device.stageAll_discarded ((congrArg Writer.takesEntries he).trans h), Device.evalBacklogs_writer,
      Device.evalHigh_writer, Device.recount_writer]
    exact he

/-- With no ballot open, entering META_MEDIA leaves the streams as they were, and but from FORMATTING the consent unit. -/
theorem Device.enterMetaMedia_quietly {d : Device} (hb : d.consent.ballot = none) :
    d.enterMetaMedia.streams = d.streams ∧ (d.mode ≠ .formatting → d.enterMetaMedia.consent = d.consent) := by
  unfold Device.enterMetaMedia
  cases hm : d.mode
  case ready => exact ⟨by rw [Device.enterState_frame hb], fun _ => by rw [Device.enterState_frame hb]⟩
  case formatting =>
    refine ⟨?_, fun h => absurd rfl h⟩
    dsimp only
    rw [Device.enterState_frame hb]
  all_goals exact ⟨rfl, fun _ => rfl⟩

theorem Device.haltWriter_quietly {d : Device} (hb : d.consent.ballot = none) :
    d.haltWriter.streams = d.streams ∧ (d.mode ≠ .formatting → d.haltWriter.consent = d.consent) := by
  obtain ⟨hstreams, hconsent⟩ := Device.enterMetaMedia_quietly (d := d.writerHalted) hb
  rw [Device.haltWriter_frame]
  exact ⟨hstreams, hconsent⟩

theorem Device.enterMetaMedia_events {d : Device} :
    ((d.mode = .ready ∨ d.mode = .formatting) → d.consent.ballot = none → ∀ q, d.enterMetaMedia.events.get q =
      if (d.port q).attached = true then (d.events.get q).offer ⟨.state, none, some 4⟩ else d.events.get q) ∧
    (d.mode = .readOnly → d.enterMetaMedia.events = d.events) ∧
    (d.mode = .formatting → d.enterMetaMedia.consent.state = .idle) := by
  unfold Device.enterMetaMedia
  refine ⟨fun hm hb q => ?_, fun hm => by rw [hm], fun hm => by rw [hm]⟩
  rcases hm with hm | hm <;> rw [hm] <;> dsimp only <;> rw [Device.enterState_events rfl hb q, deviceCode]

/-- A consent unit that waits for places executes its purge first thing (R147). -/
theorem Device.consequence_purge {d : Device} {st : Fin 16} {inc : Byte} {b : StreamBody} (hstate : d.consent.state = .purgeStaging)
    (htakes : d.writer.takesEntries = false) (hp : d.consent.pending = some (st, inc)) (hs : d.stream st = some b)
    (hi : d.incarnation st = inc) (hfly : (d.exec b.writer).inFlightOn st = false) :
    d.consequence = some (d.purgeStream st).purgeOver := by
  have hpurge : d.stepPurge = some (d.purgeStream st).purgeOver := by
    have htry : d.tryPurge = (d.purgeStream st).purgeOver := by
      simp [Device.tryPurge, Device.purgeTarget_of hp hs hi, Device.appendInFlight, hfly, Device.placesSuffice, htakes]
    simp [Device.stepPurge, hstate, htakes, htry]
  rw [Device.consequence, hpurge]
  rfl

/-! ### Outcomes of an erase (R97, R99) -/

theorem Device.joinPlaceWait_engine (d : Device) (who : Waiter) : (d.joinPlaceWait who).engine = d.engine := by
  rw [Device.joinPlaceWait_frame]

/-- The outcome in hand staged, or the engine waiting for its place (R97, R99). -/
theorem Device.stageEngine_of {d : Device} {o : EraseOutcome} (ho : d.engine.outcome = some o) :
    (d.placesSuffice .engine 1 = true → d.stageEngine =
      ({ d.leavePlaceWait .engine with engine := { d.engine with outcome := none, state := .idle } } : Device).stage
        (d.outcomeEntry o)) ∧
    (d.placesSuffice .engine 1 = false → d.stageEngine =
      { d.joinPlaceWait .engine with engine := { d.engine with state := .waitStaging } }) := by
  refine ⟨fun h => ?_, fun h => ?_⟩
  · simp only [Device.stageEngine, ho, h, if_true]
    cases o <;> rfl
  · simp only [Device.stageEngine, ho, h, Bool.false_eq_true, if_false]
    simp only [Device.joinPlaceWait_engine, ho]

theorem Device.setSector_endErase (d : Device) (n : Nat) (x : Sector) : (d.setSector n x).endErase =
    d.endErase.setSector n x := by
  unfold Device.setSector Device.endErase
  split <;> rfl

/-- An erase over, with no outcome in hand. -/
def Device.erasedOver (d : Device) : Device :=
  { d.release with
    eraseCtx := none, engine := { d.engine with current := none, state := .idle, outcome := none } }

/-- An outcome in hand at the end of an erase: its entry staged, or the wait for a place (R97, R99). -/
theorem Device.endErase_outcome (d : Device) (o : EraseOutcome) :
    (d.erasedOver.placesSuffice .engine 1 = true →
      ({ d.endErase with engine := { d.endErase.engine with outcome := some o } } : Device).stageEngine =
        (d.erasedOver.leavePlaceWait .engine).stage (d.outcomeEntry o)) ∧
    (d.erasedOver.placesSuffice .engine 1 = false →
      ({ d.endErase with engine := { d.endErase.engine with outcome := some o } } : Device).stageEngine =
        { d.erasedOver.joinPlaceWait .engine with
          engine := { d.erasedOver.engine with outcome := some o, state := .waitStaging } }) := by
  obtain ⟨hstages, hwaits⟩ := Device.stageEngine_of
    (d := { d.endErase with engine := { d.endErase.engine with outcome := some o } }) rfl
  refine ⟨fun h => (hstages h).trans ?_, fun h => (hwaits h).trans ?_⟩
  · cases o <;> rfl
  · rw [Device.joinPlaceWait_frame, Device.joinPlaceWait_frame d.erasedOver]
    unfold Device.joinPlaceWait Device.erasedOver Device.endErase Device.release
    split <;> rfl

/-- The place of a sector among those of a pool: after every one it does not go before, before the first it does (R13). -/
theorem Device.insertPool_place (d : Device) (n : Nat) (l : List Nat) : ∃ before after,
    l = before ++ after ∧ d.insertPool n l = before ++ n :: after ∧
      (∀ m ∈ before, ¬ ((d.sector n).eraseCount < (d.sector m).eraseCount ∨
        (d.sector n).eraseCount = (d.sector m).eraseCount ∧ n < m)) ∧
      ∀ m, after.head? = some m → (d.sector n).eraseCount < (d.sector m).eraseCount ∨
        (d.sector n).eraseCount = (d.sector m).eraseCount ∧ n < m := by
  induction l with
  | nil => exact ⟨[], [], rfl, rfl, nofun, nofun⟩
  | cons x xs ih =>
    unfold Device.insertPool
    dsimp only
    split
    · rename_i h
      exact ⟨[], x :: xs, rfl, rfl, nofun, fun m hm => by cases hm; simpa using h⟩
    · rename_i h
      obtain ⟨before, after, hl, hins, hbefore, hafter⟩ := ih
      refine ⟨x :: before, after, by rw [hl]; rfl, by rw [hins]; rfl, fun m hm => ?_, hafter⟩
      rcases List.mem_cons.mp hm with rfl | hm
      · simpa using h
      · exact hbefore m hm

theorem insertAscending_perm (n : Nat) (l : List Nat) : (insertAscending n l).Perm (n :: l) := by
  induction l with
  | nil => exact .refl _
  | cons x xs ih =>
    rw [insertAscending]
    split
    · exact .refl _
    · exact (ih.cons x).trans (.swap n x xs)

/-- What a retirement makes of the sector and its lists (R16, R99, R175). -/
theorem Device.retire_spec {d : Device} {n : Nat} (hn : n < 256) :
    (d.retire n).sector n = (d.sector n).cleared .bad 0 ∧ (d.retire n).badList = insertAscending n d.badList ∧
      (d.retire n).eraseQueue = d.eraseQueue ∧
      (d.retire n).mode = (if d.badList.length = 31 ∧ d.mode = .ready then .readOnly else d.mode) := by
  have hlist : d.listBad n = { d with
      sectors := (d.setSector n ((d.sector n).cleared .bad 0)).sectors, badList := insertAscending n d.badList } := by
    unfold Device.listBad
    rw [Device.setSector_frame]
  have hreach : ∃ e : Device, (d.listBad n).Controls e ∧ d.retire n = e ∧
      e.mode = (if d.badList.length = 31 ∧ d.mode = .ready then .readOnly else d.mode) := by
    rw [Device.retire_eq, insertAscending_length]
    by_cases hfull : d.badList.length + 1 = 32 ∧ d.mode = .ready
    · rw [if_pos hfull, if_pos ⟨Nat.succ.inj hfull.1, hfull.2⟩]
      exact ⟨_, ((Device.Controls.refl _).offerAll _).enterState _, rfl, Device.enterState_mode _ _⟩
    · rw [if_neg hfull, if_neg fun h => hfull ⟨congrArg (· + 1) h.1, h.2⟩]
      exact ⟨_, (Device.Controls.refl _).offerAll _, rfl, (Device.offerAll_mode _ _).trans (Device.listBad_mode _ _)⟩
  obtain ⟨e, he, heq, hmode⟩ := hreach
  rw [heq]
  refine ⟨?_, ?_, ?_, hmode⟩
  · rw [Device.sector_congr (d := d.setSector n ((d.sector n).cleared .bad 0)) (by rw [he.frame, hlist]),
      Device.sector_setSector _ _ _ hn]
  · rw [he.frame, hlist]
  · rw [he.frame, hlist]

/-- The erased sector reads FFh throughout, and no other byte changes (R79). -/
theorem Flash.read_eraseSector (f : Flash) (n a : Nat) : (f.eraseSector n).read a =
    if n * 4096 ≤ a ∧ a < n * 4096 + 4096 then 0xFF#8 else f.read a := by
  split
  · rename_i h
    unfold Flash.eraseSector
    induction f with
    | nil => rfl
    | cons x t ih =>
      obtain ⟨k, v⟩ := x
      rw [List.filter_cons]
      split
      · rename_i hk
        rw [Flash.read, if_neg]
        · exact ih
        · rintro rfl
          simp [inSector, h] at hk
      · exact ih
  · rename_i h
    refine Flash.read_filter (fun _ => ?_) f
    simp [inSector]
    omega

/-- What the end of a pulse comes to (R79; log 27). -/
theorem Device.erasePulseEnd_of {d : Device} {flash : Flash} {x : EraseContext} {c : CurrentErase} (ho : d.arrayOp = .erase)
    (hx : d.eraseCtx = some x) (hp : x.phase = .running) (ha : x.abandon = false) (hc : d.engine.current = some c)
    (verified : Bool) :
    (verified = true ∨ flash.sectorErased x.sector = true →
      d.erasePulseEnd verified flash = some (d.pulsePassed x c, flash.eraseSector x.sector)) ∧
    (verified = false → flash.sectorErased x.sector = false →
      d.erasePulseEnd verified flash = some (d.drawn.pulseFailed x c, flash.eraseFailed d.draws x.sector)) := by
  refine ⟨fun h => ?_, fun hv he => ?_⟩
  · simp [Device.erasePulseEnd, hx, hc, ho, hp, ha, h]
  · simp [Device.erasePulseEnd, hx, hc, ho, hp, ha, hv, he]

/-- The pulses counted are nothing a part at rest waits for. -/
theorem Device.AtRest.pulseCounted {d : Device} (h : d.AtRest) {x : EraseContext} (hx : d.eraseCtx = some x) (draws pulses : Nat) :
    ({ d with draws := draws, eraseCtx := some { x with pulses := pulses } } : Device).AtRest := by
  obtain ⟨⟨hpurge, hstaging, htake, hchoice, hcomp, hsnap, hclaim⟩, hsus, hstop, hgrant, hdrain, hstopped⟩ := h
  have htake' (p : Port) : ({ d with draws := draws, eraseCtx := some { x with pulses := pulses } } : Device).stepTake p =
      none := Device.stepTake_congr (d := d) rfl rfl rfl (htake p)
  refine ⟨⟨hpurge, hstaging, htake', hchoice, hcomp, hsnap, hclaim⟩, ?_, hstop, hgrant, ?_, hstopped⟩
  · have hsame : ({ d with draws := draws, eraseCtx := some { x with pulses := pulses } } : Device).mustSuspend =
        d.mustSuspend := by
      unfold Device.mustSuspend
      rw [hx]
      cases d.engine.current <;> rfl
    rw [hsame]
    exact hsus
  · rintro ⟨-, -, -, hnone, -⟩
    cases hnone

/-- An erased slot sector counts for FORMAT or for the compaction (R96, R115, R149). -/
theorem Device.slotErased_format {d : Device} (h : d.consent.state = .formatErase) : d.slotErased = d.endErase.formatErasedOne :=
  if_pos h

theorem Device.slotErased_compaction {d : Device} (h : d.consent.state ≠ .formatErase) : d.slotErased =
    if d.writer.phase = .erasing then { d.endErase with writer := { d.writer with erased := d.writer.erased + 1 } }
    else d.endErase :=
  if_neg h

/-- Settles O45, the halt by its parts and each outcome of a pulse by its source. -/
theorem erasePulsesEnd : Obligations.ErasePulsesEnd := by
  refine ⟨fun d => ?halt, fun s x c verified ha ho hx hp hab hc => ?pulse, fun d n hn hfree => ?erased,
    fun d n hn hbad => ?failed, fun d => ?slot⟩
  case halt =>
    intro h
    obtain ⟨hwork, hrest⟩ := d.haltWriter_mode
    obtain ⟨hevents, hsilent, hidle⟩ := Device.enterMetaMedia_events (d := d.writerHalted)
    have hframe : h = _ := d.haltWriter_frame
    have hm := ((Device.Controls.refl d.writerHalted).enterMetaMedia)
    have hmcur : d.writerHalted.enterMetaMedia.engine.current = d.engine.current := hm.engine.1
    have hmctx : d.writerHalted.enterMetaMedia.eraseCtx = d.eraseCtx := by rw [hm.frame]; rfl
    have hmop : d.writerHalted.enterMetaMedia.arrayOp = d.arrayOp := by rw [hm.frame]; rfl
    have hmholder : d.writerHalted.enterMetaMedia.arbiter.holder = d.arbiter.holder := hm.arbiter.1
    refine ⟨d.haltWriter_writer, hwork, fun hs => ?_, fun hf => ?_, fun hmode hb q => ?_, fun hr => ?_, ?_, ?_, ?_, ?_, ?_, ?_,
      ?_, ?_, fun hapart => ?_, fun c x hcur hslot hctx => ⟨fun hphase => ?_, fun hphase => ?_⟩, fun q => ?_, fun e => ?_,
      fun who n => ?_, fun p job serial => ?_, fun st inc b hstate hb hnf hpend hstream hinc hfly => ?_⟩
    · exact ⟨(hrest (.inr (.inr (.inl hs)))).1.trans hs, (hrest (.inr (.inr (.inl hs)))).2⟩
    · rw [hframe]
      exact hidle hf
    · rw [hframe]
      exact hevents hmode hb q
    · rw [hframe]
      exact hsilent hr
    · rw [hframe]
      exact (Device.haltErase_frame _).2
    · rw [hframe]
    · exact d.haltWriter_cursors
    · rw [hframe]
    · rw [hframe]
    · rw [hframe]
    · rw [hframe]
    · rw [hframe]
    · have hk := Device.haltErase_apart (d := d.writerHalted.enterMetaMedia) (by rwa [hmcur])
      rw [hframe]
      simp only [hk, Device.slotEmptied]
      exact ⟨hmcur, hmctx, hmop, hmholder⟩
    · have hk := (Device.haltErase_slot (d := d.writerHalted.enterMetaMedia) (hmcur.trans hcur) hslot).trans
        (((Device.abandonErase_slot (d := d.writerHalted.enterMetaMedia.slotEmptied) (hmcur.trans hcur) hslot).2 x
          (hmctx.trans hctx)).2 hphase)
      rw [hframe]
      exact ⟨congrArg (fun e : Device => e.engine.current) hk, congrArg Device.eraseCtx hk⟩
    · have hk := (Device.haltErase_slot (d := d.writerHalted.enterMetaMedia) (hmcur.trans hcur) hslot).trans
        (((Device.abandonErase_slot (d := d.writerHalted.enterMetaMedia.slotEmptied) (hmcur.trans hcur) hslot).2 x
          (hmctx.trans hctx)).1 hphase)
      rw [hframe]
      exact ⟨(congrArg (fun e : Device => e.engine.current) hk).trans (hmcur.trans hcur), congrArg Device.eraseCtx hk,
        (congrArg Device.arrayOp hk).trans hmop, (congrArg (fun e : Device => e.arbiter.holder) hk).trans hmholder⟩
    · intro x told keeps
      obtain ⟨hwait, hkeep, helse⟩ := d.haltWriter_told q
      refine ⟨fun hw => ⟨(hwait hw).1, fun r hr => ?_⟩, fun j hs hj hk => ⟨(hkeep j hs hj hk).1, fun r hr => ?_⟩,
        fun hs hd hk => helse (fun hw => hw.elim hs fun ⟨serial, hd'⟩ => hd serial hd') hk⟩
      · exact (hwait hw).2.trans (HostPort.told_some hr _ _)
      · exact (hkeep j hs hj hk).2.trans (HostPort.told_some hr _ _)
    · exact Device.stage_discarded _ _ d.haltWriter_takes
    · exact (Device.takes_none d.haltWriter_takes who n (.retire [])).1
    · exact if_pos (by rw [d.haltWriter_writer]; rfl)
    · intro e
      obtain ⟨hstreams, hconsent⟩ := Device.haltWriter_quietly hb
      have hs' : h.stream st = some b := by rw [Device.stream, hstreams]; exact hstream
      have hi' : h.incarnation st = inc := by rw [Device.incarnation, hstreams]; exact hinc
      exact ⟨Device.purgeStream_writer d.haltWriter_takes st, Device.consequence_purge
        ((congrArg Consent.state (hconsent hnf)).trans hstate) d.haltWriter_takes
        ((congrArg Consent.pending (hconsent hnf)).trans hpend) hs' hi' hfly⟩
  case pulse =>
    intro failed erased d
    obtain ⟨hpass, hfail⟩ := Device.erasePulseEnd_of (flash := s.flash) ho hx hp hab hc verified
    refine ⟨fun hv he hlt hq => ?_, fun hv he hle => ⟨fun hs => ?_, fun hs => ⟨fun hfull => ?_, fun hroom => ?_⟩⟩,
      fun h => ⟨fun hs => ?_, fun hs => ?_, fun a => Flash.read_eraseSector _ _ _⟩⟩
    · refine (State.reports ha (hfail hv he)).trans ?_
      have hnext : s.dev.drawn.pulseFailed x c =
          { s.dev.drawn with eraseCtx := some { x with pulses := x.pulses + 1 } } := if_pos (by simp [Config.erasePulses]; omega)
      exact congrArg (fun d => Host.Outcome.next (s.onRig d failed))
        ((congrArg Device.settle hnext).trans (Device.settle_quiet (hq.atRest.pulseCounted hx _ _).quiet))
    all_goals
      have hsixth (hle : 5 ≤ x.pulses) : s.dev.drawn.pulseFailed x c = s.dev.drawn.eraseFail c :=
        if_neg (by simp [Config.erasePulses]; omega)
    · refine (State.reports ha (hfail hv he)).trans ?_
      rw [hsixth hle, Device.eraseFail, hs]
      rfl
    · refine (State.reports ha (hfail hv he)).trans ?_
      rw [hsixth hle, Device.eraseFail, hs]
      have hlisted : s.dev.drawn.queueFailed c.sector = _ := if_neg (Nat.not_lt.mpr hfull)
      exact congrArg (fun d => Host.Outcome.next (s.onRig d.settle failed))
        (hlisted.trans (Device.setSector_endErase s.dev.drawn c.sector _))
    · refine (State.reports ha (hfail hv he)).trans ?_
      rw [hsixth hle, Device.eraseFail, hs]
    · refine (State.reports ha (hpass h)).trans ?_
      rw [Device.pulsePassed, Device.eraseDone, hs]
    · refine (State.reports ha (hpass h)).trans ?_
      rw [Device.pulsePassed, Device.eraseDone, hs]
  case erased =>
    intro count e served ended g wear
    obtain ⟨hstages, hwaits⟩ := Device.endErase_outcome served (.wear g)
    have hspace : e.spaceWait = d.spaceWait := by
      rw [show e = _ from Device.joinPool_frame _ _ _]
    refine ⟨hstages, hwaits, ?_, ?_, ?_, fun hnone => ?_, fun p rest hrest => ?_⟩
    · exact Device.sector_setSector { d with eraseQueue := d.eraseQueue.filter (· != n) } n _ hn
    · rw [show e = _ from Device.joinPool_frame _ _ _]
    · obtain ⟨before, after, hpool, hins, hbefore, hafter⟩ := (({ d with
          eraseQueue := d.eraseQueue.filter (· != n) } : Device).setSector n
        { Sector.blank with state := .free, eraseCount := count }).insertPool_place n d.freePool
      have hother (m : Nat) (hm : m ∈ d.freePool) := Device.sector_setSector_other
        { d with eraseQueue := d.eraseQueue.filter (· != n) } n m
        { Sector.blank with state := .free, eraseCount := count } (fun h => hfree (h ▸ hm))
      rw [Device.sector_setSector _ _ _ hn] at hbefore hafter
      refine ⟨before, after, hpool, ?_, fun m hm => ?_, fun m hm => ?_⟩
      · have hkept : (({ d with eraseQueue := d.eraseQueue.filter (· != n) } : Device).setSector n
            { Sector.blank with state := .free, eraseCount := count }).freePool = d.freePool := by
          rw [Device.setSector_frame]
        exact (congrArg (Device.insertPool _ n) hkept).trans hins
      · have := hbefore m hm
        rwa [hother m (hpool ▸ List.mem_append_left _ hm)] at this
      · have := hafter m hm
        rwa [hother m (hpool ▸ List.mem_append_right _ (List.mem_of_head? hm))] at this
    · show wakeSpace e.spaceWait e = e
      rw [hspace, hnone]
      rfl
    · have hserved : served = wakeSpace (p :: rest) e := congrArg (wakeSpace · e) (hspace.trans hrest)
      intro woken
      refine ⟨fun status hno => ?_, fun found j hyes hjob => ?_⟩
      · have hleft : (woken.answer p status []).spaceWait = rest := by rw [Device.answer_changes]
        rw [hserved, wakeSpace, Device.serveSpace, hleft]
        rw [hno]
      · rw [hserved, wakeSpace]
        rw [hyes, hjob]
        rfl
  case failed =>
    intro gone r ended
    obtain ⟨hstages, hwaits⟩ := Device.endErase_outcome r (.retire n)
    have hfails : d.queueFailed n =
        ({ r.endErase with engine := { r.endErase.engine with outcome := some (.retire n) } } : Device).stageEngine :=
      if_pos hbad
    obtain ⟨hsector, hlist, hqueue, hmode⟩ := Device.retire_spec (d := gone) hn
    exact ⟨fun h => hfails.trans (hstages h), fun h => hfails.trans (hwaits h), hsector,
      hlist ▸ insertAscending_perm n d.badList, hqueue, hmode, fun q ha => (gone.retire_tells n q).1 ha⟩
  case slot =>
    intro e
    refine ⟨fun hf => ?_, fun hf hp => ?_, fun hf hp => ?_⟩
    · intro counted
      refine ⟨fun h1 h3 => ?_, fun h1 => ?_, fun h3 => ?_⟩
      · refine (Device.slotErased_format hf).trans ?_
        exact (if_neg fun h => h1 (Nat.succ.inj h)).trans (if_neg fun h => h3 (Nat.succ.inj h))
      · exact (Device.slotErased_format hf).trans (if_pos (congrArg (· + 1) h1))
      · refine (Device.slotErased_format hf).trans ?_
        refine (if_neg fun h => ?_).trans (if_pos (congrArg (· + 1) h3))
        exact absurd (h3.symm.trans (Nat.succ.inj h)) (by decide)
    · exact (Device.slotErased_compaction hf).trans (if_pos hp)
    · exact (Device.slotErased_compaction hf).trans (if_neg hp)

end Sys2Proof.Machine
end

