-- ==== Sys2Proof/Proofs/StagingPlaces.lean ====
section
/-! The staging buffer: which entry a CURSOR entry replaces (R106), what joins it, and how freed places are offered down
the place-wait list (R107). -/

namespace Sys2Proof.Machine

open Sys2Proof

-- One process elaborates the whole text: proofs taken in turn stay within its memory.
set_option Elab.async false

/-! ### Replacement (R106) -/

/-- Nothing is replaced where every open entry of the cursor is overtaken by a definition. -/
theorem replaceEntry_none {e : MetaEntry} {l : List Staged}
    (h : ∀ before x later, l = before ++ x :: later → x.cond = .opened → x.entry.sameCursor e = true →
      overtaken x.entry later = true) : replaceEntry e l = none := by
  cases hr : replaceEntry e l with
  | none => rfl
  | some l' =>
    obtain ⟨before, x, later, hl, -, hopen, hsame, hnot, -⟩ := replaceEntry_some hr
    rw [h before x later hl hopen hsame] at hnot
    cases hnot

theorem replaceEntry_absent {e : MetaEntry} {l : List Staged}
    (h : ∀ x ∈ l, x.cond = .opened → x.entry.sameCursor e = false) : replaceEntry e l = none :=
  replaceEntry_none fun before x later hl hopen hsame => by
    rw [h x (hl ▸ List.mem_append_right _ List.mem_cons_self) hopen] at hsame
    cases hsame

/-- The newest open entry of the cursor is the one replaced, when nothing after it defines its stream. -/
theorem replaceEntry_newest {e : MetaEntry} {x : Staged} {later : List Staged} (before : List Staged)
    (hopen : x.cond = .opened) (hsame : x.entry.sameCursor e = true) (hnot : overtaken x.entry later = false)
    (hlater : ∀ y ∈ later, y.cond = .opened → y.entry.sameCursor e = false) :
    replaceEntry e (before ++ x :: later) = some (before ++ { x with entry := e } :: later) := by
  induction before with
  | nil => simp [replaceEntry, replaceEntry_absent hlater, hopen, hsame, hnot]
  | cons y before ih => simp [replaceEntry, ih]

/-- What overtakes an entry of a cursor: a definition of its stream. -/
theorem overtaken_of_sameCursor {e : MetaEntry} {st : Fin 16} {inc : Byte} {p : Port} {committed lost : Nat}
    (h : e.sameCursor (.cursor st inc p committed lost) = true) (later : List Staged) :
    overtaken e later = later.any fun y => y.entry.definesStream st := by
  cases e with
  | cursor st' inc' p' c l =>
    simp only [MetaEntry.sameCursor, Bool.and_eq_true, beq_iff_eq] at h
    rw [overtaken, h.1.1]
  | _ => cases h

/-- A definition after the newest open entry of a cursor is after all of them. -/
theorem replaceEntry_overtaken {st : Fin 16} {inc : Byte} {p : Port} {committed lost : Nat} {before later : List Staged}
    {x : Staged} (hlater : ∀ y ∈ later, y.cond = .opened →
      y.entry.sameCursor (.cursor st inc p committed lost) = false)
    (hdef : ∃ y ∈ later, y.entry.definesStream st = true) :
    replaceEntry (.cursor st inc p committed lost) (before ++ x :: later) = none := by
  refine replaceEntry_none fun before' x' later' hl hopen hsame => ?_
  obtain ⟨y, hy, hd⟩ := hdef
  have hmem : y ∈ later' := by
    rcases List.append_eq_append_iff.mp hl with ⟨mid, -, hmid⟩ | ⟨mid, -, hmid⟩
    · cases mid with
      | nil => rw [← (List.cons.inj hmid).2]; exact hy
      | cons z mid =>
        rw [List.cons_append] at hmid
        have hx' : x' ∈ later := (List.cons.inj hmid).2 ▸ List.mem_append_right _ List.mem_cons_self
        rw [hlater x' hx' hopen] at hsame
        cases hsame
    · cases mid with
      | nil => rw [(List.cons.inj hmid).2]; exact hy
      | cons z mid =>
        rw [List.cons_append] at hmid
        rw [(List.cons.inj hmid).2]
        exact List.mem_append_right _ (List.mem_cons_of_mem _ hy)
  rw [overtaken_of_sameCursor hsame]
  exact List.any_eq_true.mpr ⟨y, hmem, hd⟩

theorem Device.stage_replaces {d : Device} {e : MetaEntry} {l : List Staged} (ht : d.writer.takesEntries = true)
    (hr : replaceEntry e d.writer.staging = some l) : (d.stage e).writer = { d.writer with staging := l } := by
  have h : d.stage e = ({ d with writer := { d.writer with staging := l } } : Device).recordEntry e := by
    simp [Device.stage, ht, hr]
  rw [h, Device.recordEntry_frame]

theorem Device.stage_joins {d : Device} {e : MetaEntry} (ht : d.writer.takesEntries = true)
    (hr : replaceEntry e d.writer.staging = none) :
    (4294967295 ≤ d.writer.nextSerial → d.stage e = d.haltWriter) ∧
    (d.writer.nextSerial < 4294967295 → (d.stage e).writer = d.writer.addEntry e) := by
  refine ⟨fun h => ?_, fun h => ?_⟩
  · have hl : Config.erasedSerial ≤ d.writer.nextSerial := h
    simp [Device.stage, ht, hr, hl]
  · have hl : ¬ Config.erasedSerial ≤ d.writer.nextSerial := Nat.not_le.mpr h
    have heq : d.stage e = ({ d with writer := d.writer.addEntry e } : Device).recordEntry e := by
      simp [Device.stage, ht, hr, hl]
    rw [heq, Device.recordEntry_frame]

/-! ### The offering (R107) -/

theorem offerDown_empty {d : Device} (h : d.writer.placeWait = []) (fuel : Nat) : offerDown fuel d = d := by
  cases fuel with
  | zero => rfl
  | succ fuel => rw [offerDown, h]

/-- A head that keeps its position ends the offering. -/
theorem offerDown_keeps {d : Device} {w : Waiter} (h : d.writer.placeWait.head? = some w)
    (hk : (d.offerTo w).writer.placeWait.head? = some w) (fuel : Nat) : offerDown (fuel + 1) d = d.offerTo w := by
  obtain ⟨rest, hw⟩ : ∃ rest, d.writer.placeWait = w :: rest := List.head?_eq_some_iff.mp h
  rw [offerDown, hw]
  exact if_pos hk

/-- A head that leaves its position passes the offering on. -/
theorem offerDown_leaves {d : Device} {w : Waiter} (h : d.writer.placeWait.head? = some w)
    (hl : (d.offerTo w).writer.placeWait.head? ≠ some w) (fuel : Nat) :
    offerDown (fuel + 1) d = offerDown fuel (d.offerTo w) := by
  obtain ⟨rest, hw⟩ : ∃ rest, d.writer.placeWait = w :: rest := List.head?_eq_some_iff.mp h
  rw [offerDown, hw]
  exact if_neg hl

/-- The offering goes on past every waiter that leaves the head of the list. -/
theorem offerDown_past (n : Nat) {at' : Nat → Device} (h : ∀ k, k < n → ∃ w, (at' k).writer.placeWait.head? = some w ∧
    at' (k + 1) = (at' k).offerTo w ∧ (at' (k + 1)).writer.placeWait.head? ≠ some w) (fuel : Nat) :
    offerDown (n + fuel) (at' 0) = offerDown fuel (at' n) := by
  induction n generalizing at' with
  | zero => rw [Nat.zero_add]
  | succ n ih =>
    obtain ⟨w, hw, hnext, hleft⟩ := h 0 (Nat.succ_pos n)
    rw [Nat.succ_add, offerDown_leaves hw (hnext ▸ hleft), ← hnext]
    exact ih (at' := fun k => at' (k + 1)) fun k hk => h (k + 1) (Nat.succ_lt_succ hk)

/-- In ERASING the offering begins with the engine that waits for its place (R107). -/
theorem Device.offerPlaces_eq (d : Device) : d.offerPlaces =
    offerDown (2 * (if d.writer.phase = .erasing ∧ d.engine.state = .waitStaging then d.offerTo .engine
      else d).writer.placeWait.length)
      (if d.writer.phase = .erasing ∧ d.engine.state = .waitStaging then d.offerTo .engine else d) := by
  have hcond : (d.writer.phase = .erasing && d.engine.state == .waitStaging) = true ↔
      (d.writer.phase = .erasing ∧ d.engine.state = .waitStaging) := by simp
  unfold Device.offerPlaces
  simp only [hcond]
  rfl

/-! ### Executors on the list -/

theorem Device.joinPlaceWait_of_mem {d : Device} {who : Waiter} (h : who ∈ d.writer.placeWait) :
    d.joinPlaceWait who = d := if_pos h

@[simp] theorem Device.leavePlaceWait_exec (d : Device) (who : Waiter) (q : Port) : (d.leavePlaceWait who).exec q = d.exec q :=
  rfl

theorem Device.toExec_toExec (d : Device) (p : Port) (s s' : ExecState) (j j' : Job) :
    (d.toExec p s j).toExec p s' j' = d.toExec p s' j' := by
  simp [Device.toExec]

theorem Device.toExec_toExecState (d : Device) (p : Port) (s s' : ExecState) (j : Job) :
    (d.toExec p s j).toExecState p s' = d.toExec p s' j := by
  simp [Device.toExec, Device.toExecState]

theorem Device.toExec_self {d : Device} {p : Port} {s : ExecState} {j : Job} (hs : (d.exec p).state = s)
    (hj : (d.exec p).job = j) : d.toExec p s j = d := by
  subst hs hj
  exact d.setExec_exec p

/-- An allocation, or the wait for space, whichever R29 and R34 give. -/
theorem Device.allocateOrWait_of (d : Device) (p : Port) {j : AppendJob} (hj : j.phase = .seek) :
    (d.freePool ≠ [] → d.allocateOrWait p j = (d.allocate j.stream).toExec p .waitArray (.append j)) ∧
    (d.freePool = [] → d.eraseQueue = [] → d.allocateOrWait p j = d.answer p .nospace []) ∧
    (d.freePool = [] → d.eraseQueue ≠ [] → d.allocateOrWait p j =
      { d.toExec p .waitSpace (.append j) with spaceWait := d.spaceWait ++ [p] }) := by
  have hseek : ({ j with phase := .seek } : AppendJob) = j := by rw [← hj]
  refine ⟨fun h => ?_, fun h hq => ?_, fun h hq => ?_⟩
  · simp [Device.allocateOrWait, h, Device.claimStep1, hseek]
  · simp [Device.allocateOrWait, h, hq]
  · simp [Device.allocateOrWait, h, hq, hseek]

/-- An executor that finds a place, or is answered, does not wait for staging places. -/
theorem Device.allocateOrWait_state (d : Device) (p : Port) (j : AppendJob) :
    ((d.allocateOrWait p j).exec p).state ≠ .waitStaging := by
  unfold Device.allocateOrWait Device.claimStep1 Device.toExec
  split
  · rw [Device.exec_setExec]; nofun
  · split
    · rw [Device.answer_exec]; nofun
    · show ((Device.setExec _ _ _).exec p).state ≠ _
      rw [Device.exec_setExec]; nofun

/-- An executor's operation with places, or its wait for them, at a part ready for it (R17, R33, R58). -/
theorem Device.withPlaces_of (d : Device) (p : Port) (op next : Device → Device) {ready : Device}
    (hready : (d.leavePlaceWait (.executor p)).toExecState p .check = ready) :
    (ready.placesFor op p → d.withPlaces p op next = next (op ready)) ∧
    (¬ ready.placesFor op p → d.withPlaces p op next = (d.joinPlaceWait (.executor p)).toExecState p .waitStaging) := by
  subst hready
  exact ⟨fun h => if_pos h, fun h => if_neg h⟩

/-- An append that searches makes its checks again, then finds its place from the start (R33). -/
theorem Device.offerTo_seek {d : Device} {p : Port} {j : AppendJob} (hj : (d.exec p).job = .append j) (hs : j.phase = .seek) :
    d.offerTo (.executor p) = d.seekAgain p j := by
  simp [Device.offerTo, Device.executorAgain, hj, hs]

theorem Device.offerTo_kept {d : Device} {p : Port} {j : AppendJob} (hj : (d.exec p).job = .append j)
    (hk : j.phase = .failed ∨ ∃ seq, j.phase = .committed seq) : d.offerTo (.executor p) = d.stageKept p j := by
  rcases hk with hk | ⟨seq, hk⟩ <;> simp [Device.offerTo, Device.executorAgain, hj, hk]

/-- A request other than an append is processed again (R17, R58). -/
theorem Device.offerTo_request {d : Device} {p : Port} {r : Request} (hr : (d.exec p).inHand = some r)
    (hj : ∀ j, (d.exec p).job ≠ .append j) : d.offerTo (.executor p) = d.processAgain p r := by
  unfold Device.offerTo Device.executorAgain
  cases hjob : (d.exec p).job with
  | append j => exact absurd hjob (hj j)
  | _ => simp [hr]

theorem Device.seekAgain_moves {d e : Device} {p : Port} {j : AppendJob} {found : Fin 16 × StreamBody}
    (hc : d.appendCheck p (d.appendBody p) = .ok found) (hf : d.findPlace p j = e) (he : (e.exec p).state ≠ .waitStaging) :
    d.seekAgain p j = e.leavePlaceWait (.executor p) := by
  simp [Device.seekAgain, hc, hf, he]

theorem Device.seekAgain_stays {d e : Device} {p : Port} {j : AppendJob} {found : Fin 16 × StreamBody}
    (hc : d.appendCheck p (d.appendBody p) = .ok found) (hf : d.findPlace p j = e) (he : (e.exec p).state = .waitStaging) :
    d.seekAgain p j = e := by
  simp [Device.seekAgain, hc, hf, he]

/-- Place finding without a TAIL, by quota and policy (R29). -/
theorem Device.findPlace_tailless {d : Device} {p : Port} {j : AppendJob} {b : StreamBody} (hs : d.stream j.stream = some b)
    (ht : d.tailOf b = none) :
    (b.chain.length < b.quota → d.findPlace p j = d.allocateOrWait p j) ∧
    (b.quota ≤ b.chain.length → b.policy = .refuse → d.findPlace p j = d.answer p .full []) ∧
    (b.quota ≤ b.chain.length → b.policy = .dropOldest → d.findPlace p j =
      (d.toExec p .check (.append { j with phase := .seek })).withPlaces p (fun d => d.dropHead j.stream)
        (fun d => d.allocateOrWait p j)) := by
  refine ⟨fun h => ?_, fun h hp => ?_, fun h hp => ?_⟩
  · simp [Device.findPlace, hs, ht, h]
  · simp [Device.findPlace, hs, ht, Nat.not_lt.mpr h, hp]
  · simp [Device.findPlace, hs, ht, Nat.not_lt.mpr h, hp]

/-- Kept RETIRE entries wait on, or are staged and the append goes on (R43, R107). -/
theorem Device.stageKept_of (d : Device) (p : Port) (j : AppendJob) :
    (d.placesSuffice (.executor p) j.kept.length = false → d.stageKept p j = d) ∧
    ((d.exec p).state = .waitStaging → d.placesSuffice (.executor p) j.kept.length = true →
      let going := ((d.leavePlaceWait (.executor p)).toExec p .check (.append { j with kept := [] })).stageAll j.kept
      (∀ seq, j.phase = .committed seq → d.stageKept p j = going.answer p .ok (bigEndian 4 seq)) ∧
      (j.phase = .failed → d.stageKept p j = going.afterFailure p { j with kept := [] })) := by
  refine ⟨fun h => by simp [Device.stageKept, h], fun hw h => ?_⟩
  dsimp only
  have hw' : ((d.leavePlaceWait (.executor p)).exec p).state = .waitStaging := hw
  refine ⟨fun seq hp => ?_, fun hp => ?_⟩
  all_goals
    unfold Device.stageKept
    rw [if_pos h]
    dsimp only
    rw [if_pos hw', hp]

/-- What the consent unit does when its places are offered: nothing is left of the purge, it is put off, executed, or
still waiting (R147; log 48). -/
theorem Device.tryPurge_of (d : Device) :
    (d.purgeTarget = none → d.tryPurge = d.purgeOver) ∧
    ∀ st b, d.purgeTarget = some (st, b) →
      (d.appendInFlight st b = true → d.tryPurge =
        { d.leavePlaceWait .consent with consent := { d.consent with state := .purgePending } }) ∧
      (d.appendInFlight st b = false →
        (d.placesSuffice .consent (d.placesNeeded fun d => d.purgeStream st) = true →
          d.tryPurge = (d.purgeStream st).purgeOver) ∧
        (d.placesSuffice .consent (d.placesNeeded fun d => d.purgeStream st) = false → d.tryPurge =
          { d.joinPlaceWait .consent with consent := { (d.joinPlaceWait .consent).consent with state := .purgeStaging } })) := by
  refine ⟨fun h => by rw [Device.tryPurge, h], fun st b h => ⟨fun hf => ?_, fun hf => ⟨fun hp => ?_, fun hp => ?_⟩⟩⟩
  · rw [Device.tryPurge, h]
    exact if_pos hf
  · rw [Device.tryPurge, h]
    simp only [hf, hp, if_true, Bool.false_eq_true, if_false]
  · rw [Device.tryPurge, h]
    simp only [hf, hp, Bool.false_eq_true, if_false]

/-- A pending purge whose stream is gone names none (R147). -/
theorem Device.purgeTarget_gone {d : Device} {st : Fin 16} {inc : Byte} (hp : d.consent.pending = some (st, inc))
    (h : d.stream st = none ∨ d.incarnation st ≠ inc) : d.purgeTarget = none := by
  unfold Device.purgeTarget
  rw [hp]
  rcases h with h | h
  · simp [h]
  · cases hs : d.stream st <;> simp [hs, h]

/-- Settles O52: the entry replaced or joined, the offering by induction down the list, and each waiter's part. -/
theorem stagingCoalescesAndOffersPlaces : Obligations.StagingCoalescesAndOffersPlaces := by
  refine ⟨fun d st inc p committed lost ht => ?_, fun d e => ?_, fun d => ?_, fun d n at' h0 hpast hn => ?_,
    fun d p j hw hj hseek hmem => ?_, fun d st inc hstate hpend hmem => ?_, fun d p => ⟨fun r hr hj => ?_, fun j hw hj => ?_,
    fun o ho => Device.stageEngine_of ho⟩⟩
  · intro e joins
    refine ⟨fun before later x hl hopen hsame hlater => ⟨fun hnot => ?_, fun hdef hlt => ?_⟩, fun hnone hlt => ?_⟩
    · have hot : overtaken x.entry later = false := by
        rw [overtaken_of_sameCursor hsame]
        exact List.any_eq_false.mpr fun y hy => Bool.eq_false_iff.mp (hnot y hy)
      exact Device.stage_replaces ht (by rw [hl]; exact replaceEntry_newest before hopen hsame hot hlater)
    · exact (Device.stage_joins ht (by rw [hl]; exact replaceEntry_overtaken hlater hdef)).2 hlt
    · exact (Device.stage_joins ht (replaceEntry_absent hnone)).2 hlt
  · exact ⟨fun ht => Device.stage_discarded _ _ ht, fun ht hnone => Device.stage_joins ht (replaceEntry_absent hnone)⟩
  · intro first
    refine ⟨fun hnil => d.offerPlaces_eq.trans (offerDown_empty hnil _), fun w rest hw => ?_⟩
    intro next
    have hhead : first.writer.placeWait.head? = some w := by rw [hw]; rfl
    have hoffer : d.offerPlaces = offerDown (2 * rest.length + 1 + 1) first := by
      refine d.offerPlaces_eq.trans ?_
      show offerDown (2 * first.writer.placeWait.length) first = _
      rw [hw]
      rfl
    rw [hoffer]
    refine ⟨fun hk => offerDown_keeps hhead hk _, fun hnil => ?_, fun v more hv hne hk => ?_⟩
    · rw [offerDown_leaves hhead (by show next.writer.placeWait.head? ≠ _; rw [hnil]; nofun)]
      exact offerDown_empty hnil _
    · have hhead' : next.writer.placeWait.head? = some v := by rw [hv]; rfl
      rw [offerDown_leaves hhead (by
        show next.writer.placeWait.head? ≠ _; rw [hhead']; exact fun h => hne (Option.some.inj h))]
      exact offerDown_keeps hhead' hk _
  · obtain ⟨fuel, hfuel⟩ : ∃ fuel, 2 * (at' 0).writer.placeWait.length = n + (fuel + 1) :=
      ⟨2 * (at' 0).writer.placeWait.length - n - 1, by omega⟩
    have hoffer : d.offerPlaces = offerDown (fuel + 1) (at' n) := by
      rw [← offerDown_past n hpast, ← hfuel, h0]
      exact d.offerPlaces_eq
    rw [hoffer]
    exact ⟨fun hnil => offerDown_empty hnil _, fun w hw hk => offerDown_keeps hw hk _⟩
  · intro again
    have hself : ({ j with phase := .seek } : AppendJob) = j := by rw [← hseek]
    have hoffer := Device.offerTo_seek hj hseek
    refine ⟨fun status hno => hoffer.trans (by rw [Device.seekAgain, hno]), fun found b hyes hs => ?_⟩
    intro room
    have moves {e : Device} (hf : d.findPlace p j = e) (he : (e.exec p).state ≠ .waitStaging) : again e :=
      hoffer.trans (Device.seekAgain_moves hyes hf he)
    have allocates {e : Device} (hf : d.findPlace p j = e.allocateOrWait p j) : room e := by
      obtain ⟨hsome, hfull, hwait⟩ := e.allocateOrWait_of p hseek
      have hgoes := moves hf (e.allocateOrWait_state p j)
      exact ⟨fun h => hsome h ▸ hgoes, fun h hq => hfull h hq ▸ hgoes, fun h hq => hwait h hq ▸ hgoes⟩
    refine ⟨fun ht => ?_, fun ht => ?_⟩
    · obtain ⟨n, hn⟩ := Option.ne_none_iff_exists'.mp ht
      refine moves ((Device.findPlace_tail hs hn).trans ?_) ?_
      · exact congrArg (fun j => d.toExec p .waitArray (.append j)) hself
      · rw [Device.toExec, Device.exec_setExec]; nofun
    · obtain ⟨hbelow, hrefuse, hdrop⟩ := Device.findPlace_tailless (p := p) hs ht
      refine ⟨fun h => allocates (hbelow h), fun h hp => moves (hrefuse h hp) (by rw [Device.answer_exec]; nofun),
        fun h hp => ?_⟩
      intro ready
      have hready : ((d.toExec p .check (.append { j with phase := .seek })).leavePlaceWait
          (.executor p)).toExecState p .check = ready := by
        rw [hself]
        exact Device.toExec_self (by rw [Device.leavePlaceWait_exec, Device.toExec, Device.exec_setExec])
          (by rw [Device.leavePlaceWait_exec, Device.toExec, Device.exec_setExec])
      obtain ⟨hplaces, hwaits⟩ := Device.withPlaces_of (d.toExec p .check (.append { j with phase := .seek })) p
        (fun d => d.dropHead j.stream) (fun d => d.allocateOrWait p j) hready
      refine ⟨fun hsuff => allocates ((hdrop h hp).trans (hplaces hsuff)), fun hno => ?_⟩
      have hstays : d.findPlace p j = d := by
        refine (hdrop h hp).trans ((hwaits hno).trans ?_)
        rw [Device.joinPlaceWait_of_mem (by exact hmem)]
        exact (Device.toExec_toExecState _ _ _ _ _).trans
          (Device.toExec_self hw (hj.trans (congrArg Job.append hself.symm)))
      exact hoffer.trans (Device.seekAgain_stays hyes hstays hw)
  · intro finish
    obtain ⟨hnone, hsome⟩ := d.tryPurge_of
    refine ⟨fun h => hnone (Device.purgeTarget_gone hpend h), fun b hs hi => ?_⟩
    obtain ⟨hfly, hrest⟩ := hsome st b (Device.purgeTarget_of hpend hs hi)
    refine ⟨fun hf => hfly hf, fun hf => ⟨fun hp => (hrest hf).1 hp, fun hp => ((hrest hf).2 hp).trans ?_⟩⟩
    rw [Device.joinPlaceWait_of_mem hmem, ← hstate]
  · intro again
    have hoffer : d.offerTo (.executor p) = _ := Device.offerTo_request hr hj
    exact ⟨fun h => hoffer.trans (if_pos h), fun h => hoffer.trans (if_neg h)⟩
  · intro going
    obtain ⟨hwaits, hstages⟩ := d.stageKept_of p j
    refine ⟨fun hk hno => (Device.offerTo_kept hj hk).trans (hwaits hno), fun hyes => ?_⟩
    obtain ⟨hcommitted, hfailed⟩ := hstages hw hyes
    refine ⟨fun seq hp => (Device.offerTo_kept hj (.inr ⟨seq, hp⟩)).trans (hcommitted seq hp), fun hp hall => ?_, fun hp hless => ?_⟩
    · exact ((Device.offerTo_kept hj (.inl hp)).trans (hfailed hp)).trans (if_pos hall)
    · exact ((Device.offerTo_kept hj (.inl hp)).trans (hfailed hp)).trans (if_neg (Nat.not_le.mpr hless))

end Sys2Proof.Machine
end

