-- ==== Sys2Proof/Proofs/Creating.lean ====
section
/-! Requests that wait for places, the arguments of CREATE and CONFIGURE, and CREATE itself (R17 to R20, R48). -/

namespace Sys2Proof.Machine

open Sys2Proof

-- One process elaborates the whole text: proofs taken in turn stay within its memory.
set_option Elab.async false

/-! ### Codes (R163) -/

theorem policyOfCode_cases (n : Nat) : n = 0 ∧ policyOfCode n = some .refuse ∨ n = 1 ∧ policyOfCode n = some .dropOldest ∨
    1 < n ∧ policyOfCode n = none := by
  match n with
  | 0 => exact .inl ⟨rfl, rfl⟩
  | 1 => exact .inr (.inl ⟨rfl, rfl⟩)
  | n + 2 => exact .inr (.inr ⟨by omega, rfl⟩)

theorem flagOfCode_cases (n : Nat) : n = 0 ∧ flagOfCode n = some false ∨ n = 1 ∧ flagOfCode n = some true ∨
    1 < n ∧ flagOfCode n = none := by
  match n with
  | 0 => exact .inl ⟨rfl, rfl⟩
  | 1 => exact .inr (.inl ⟨rfl, rfl⟩)
  | n + 2 => exact .inr (.inr ⟨by omega, rfl⟩)

theorem policyOfCode_drop {b : Byte} {policy : Policy} (h : policyOfCode b.toNat = some policy) :
    policy = .dropOldest ↔ b = 0x01#8 := by
  have hone : b = 0x01#8 ↔ b.toNat = 1 := BitVec.toNat_inj.symm
  rw [hone]
  rcases policyOfCode_cases b.toNat with ⟨hn, hp⟩ | ⟨hn, hp⟩ | ⟨hn, hp⟩ <;> rw [hp] at h
  · cases h
    simp [hn]
  · cases h
    simp [hn]
  · cases h

theorem flagOfCode_true {b : Byte} {flag : Bool} (h : flagOfCode b.toNat = some flag) : flag = true ↔ b = 0x01#8 := by
  have hone : b = 0x01#8 ↔ b.toNat = 1 := BitVec.toNat_inj.symm
  rw [hone]
  rcases flagOfCode_cases b.toNat with ⟨hn, hp⟩ | ⟨hn, hp⟩ | ⟨hn, hp⟩ <;> rw [hp] at h
  · cases h
    simp [hn]
  · cases h
    simp [hn]
  · cases h

theorem portSetOfCode_none {n : Nat} : portSetOfCode n = none ↔ 7 < n := by
  unfold portSetOfCode
  split <;> simp <;> omega

/-- The bits of a reader-set byte name its ports (R163). -/
theorem portSetOfCode_bits {b : Byte} {s : PortSet} (h : portSetOfCode b.toNat = some s) :
    (s.get .A = true ↔ b.getLsbD 0 = true) ∧ (s.get .B = true ↔ b.getLsbD 1 = true) ∧
      (s.get .C = true ↔ b.getLsbD 2 = true) := by
  unfold portSetOfCode at h
  split at h
  · cases h
    simp [PerPort.get, BitVec.getLsbD, Nat.testBit_eq_decide_div_mod_eq]
  · cases h

theorem definitionValid_false (policy : Policy) (quota margin : Nat) : definitionValid policy quota margin = false ↔
    quota = 0 ∨ 252 < quota ∨ policy = .dropOldest ∧ quota = 1 ∨ quota * 16 < margin := by
  cases policy <;> simp [definitionValid] <;> omega

theorem fieldAt_four (t0 t1 t2 t3 : Byte) (rest : List Byte) :
    BitVec.ofNat 32 (fieldAt (t0 :: t1 :: t2 :: t3 :: rest) 0 4) = t0 ++ t1 ++ t2 ++ t3 := by
  refine BitVec.eq_of_toNat_eq ?_
  rw [BitVec.toNat_ofNat, BitVec.toNat_append, ← Nat.shiftLeft_add_eq_or_of_lt t3.isLt, BitVec.toNat_append,
    ← Nat.shiftLeft_add_eq_or_of_lt t2.isLt, append_toNat, Nat.shiftLeft_eq, Nat.shiftLeft_eq]
  have h0 := t0.isLt
  have h1 := t1.isLt
  have h2 := t2.isLt
  have h3 := t3.isLt
  simp only [fieldAt, bytesAt, fromBytes, List.drop_zero, List.take, List.foldl]
  omega

/-- CREATE's arguments, taken from their bytes where R18 refuses none of them. -/
theorem createArgs_eq (t0 t1 t2 t3 quota policy readers hi lo : Byte) :
    createArgs [t0, t1, t2, t3, quota, policy, readers, hi, lo] =
      (policyOfCode policy.toNat).bind fun kept => (portSetOfCode readers.toNat).bind fun set =>
        if definitionValid kept quota.toNat (hi.toNat * 256 + lo.toNat) then
          some ⟨t0 ++ t1 ++ t2 ++ t3, quota.toNat, kept, set, hi.toNat * 256 + lo.toNat⟩
        else none := by
  have hpolicy : byteAt [t0, t1, t2, t3, quota, policy, readers, hi, lo] 5 = policy := rfl
  have hreaders : byteAt [t0, t1, t2, t3, quota, policy, readers, hi, lo] 6 = readers := rfl
  have hquota : byteAt [t0, t1, t2, t3, quota, policy, readers, hi, lo] 4 = quota := rfl
  have hmargin : fieldAt [t0, t1, t2, t3, quota, policy, readers, hi, lo] 7 2 = hi.toNat * 256 + lo.toNat :=
    fieldAt_pair hi lo
  unfold createArgs
  rw [hpolicy, hreaders, hquota, hmargin, fieldAt_four]
  cases policyOfCode policy.toNat <;> cases portSetOfCode readers.toNat <;> rfl

/-- The arguments of a definition are refused exactly where R18 and R20 say. -/
theorem definitionRefused_iff (quota policy readers : Byte) (margin : Nat) :
    (∀ kept set, policyOfCode policy.toNat = some kept → portSetOfCode readers.toNat = some set →
      definitionValid kept quota.toNat margin = false) ↔
    quota.toNat = 0 ∨ 252 < quota.toNat ∨ 1 < policy.toNat ∨ policy.toNat = 1 ∧ quota.toNat = 1 ∨
      quota.toNat * 16 < margin ∨ 7 < readers.toNat := by
  by_cases hr : 7 < readers.toNat
  · simp [portSetOfCode_none.mpr hr, hr]
  · obtain ⟨set, hset⟩ := Option.ne_none_iff_exists'.mp (mt portSetOfCode_none.mp hr)
    rcases policyOfCode_cases policy.toNat with ⟨hn, hp⟩ | ⟨hn, hp⟩ | ⟨hn, hp⟩
    · simp [hp, hset, definitionValid_false]
      omega
    · simp [hp, hset, definitionValid_false]
      omega
    · simp [hp, hn]

/-! ### Requests that wait for places (R17, R107) -/

theorem exec_command_performs {s : State} {p : Port} (h : s.dev.serves p) {k : Kind} {tag : Byte} {body : List Byte}
    (hb : bodyFits body = true) (hl : lengthGood k body = true) {d : Device}
    (hc : (s.dev.received p (.known tag k body)).carryOut p k body = d) :
    exec (k.command p tag body) s = .next (s.onDev d.settled) := by
  rw [exec_command_awaits h.1 k tag body hb, Device.process_received h.2 hl, hc]

/-- A request just taken is ready to stage: its executor in CHECK and off the place-wait list. -/
theorem Device.received_ready {d : Device} {p : Port} (h : d.offPlaceWait p) (r : Request) :
    ((d.received p r).leavePlaceWait (.executor p)).toExecState p .check = d.received p r := by
  have hlist : d.writer.placeWait.filter (· != .executor p) = d.writer.placeWait :=
    List.filter_eq_self.mpr fun w hw => bne_iff_ne.mpr fun e => h (e ▸ hw)
  simp [Device.leavePlaceWait, hlist, Device.toExecState, Device.received, Device.exec, Device.setExec]

/-- An operation of a request just taken: with its places it is done, without them the executor waits (R17, R33, R58). -/
theorem exec_command_places {s : State} {p : Port} (h : s.dev.serves p) (hoff : s.dev.offPlaceWait p) {k : Kind} {tag : Byte}
    {body : List Byte} (hb : bodyFits body = true) (hl : lengthGood k body = true) {op next : Device → Device}
    (hc : (s.dev.received p (.known tag k body)).carryOut p k body =
      (s.dev.received p (.known tag k body)).withPlaces p op next) :
    ((s.dev.received p (.known tag k body)).placesFor op p →
      exec (k.command p tag body) s = .next (s.onDev (next (op (s.dev.received p (.known tag k body)))).settled)) ∧
    (¬ (s.dev.received p (.known tag k body)).placesFor op p → exec (k.command p tag body) s = .next (s.onDev
      (((s.dev.received p (.known tag k body)).joinPlaceWait (.executor p)).toExecState p .waitStaging).settled)) := by
  obtain ⟨hplaces, hwaits⟩ := Device.withPlaces_of _ p op next (Device.received_ready hoff (.known tag k body))
  exact ⟨fun hs => exec_command_performs h hb hl (hc.trans (hplaces hs)),
    fun hs => exec_command_performs h hb hl (hc.trans (hwaits hs))⟩

/-! ### Entries other than CURSOR entries (R104, R106) -/

/-- An entry that is no CURSOR entry leaves the cursors' records as they are (R117). -/
theorem Device.recordEntry_uncursored {e : MetaEntry} (h : e.sameCursor e = false) (d : Device) : d.recordEntry e = d := by
  cases e with
  | cursor st inc p c l => simp [MetaEntry.sameCursor] at h
  | _ => rfl

/-- Such an entry is discarded, halts the writer, or joins the buffer (R104, R120). -/
theorem Device.stage_uncursored {e : MetaEntry} (h : e.sameCursor e = false) (d : Device) :
    (d.stage e).cursors = d.cursors ∧
    (d.writer.takesEntries = true → 4294967295 ≤ d.writer.nextSerial → d.stage e = d.haltWriter) ∧
    (d.writer.takesEntries = true → d.writer.nextSerial < 4294967295 →
      d.stage e = { d with writer := d.writer.addEntry e }) := by
  have hnone : replaceEntry e d.writer.staging = none := replaceEntry_absent fun x _ _ => by
    cases e with
    | cursor st inc p c l => simp [MetaEntry.sameCursor] at h
    | _ => cases x.entry <;> rfl
  have joins (ht : d.writer.takesEntries = true) (hlt : d.writer.nextSerial < 4294967295) :
      d.stage e = { d with writer := d.writer.addEntry e } := by
    have hl : ¬ Config.erasedSerial ≤ d.writer.nextSerial := Nat.not_le.mpr hlt
    simp [Device.stage, ht, hnone, hl, Device.recordEntry_uncursored h]
  refine ⟨?_, fun ht hle => (Device.stage_joins ht hnone).1 hle, joins⟩
  cases ht : d.writer.takesEntries with
  | false => rw [Device.stage_discarded _ _ ht]
  | true =>
    rcases Nat.lt_or_ge d.writer.nextSerial 4294967295 with hlt | hle
    · rw [joins ht hlt]
    · rw [(Device.stage_joins ht hnone).1 hle, Device.haltWriter_cursors]

/-! ### CREATE (R18) -/

/-- A stream that no ballot holds comes through staging and halting as it was (R7). -/
theorem Device.Journals.unheld_stream {a b : Device} (h : a.Journals b) {st : Fin 16} {x : StreamBody}
    (hs : a.stream st = some x) (hb : x.ballotHeld = false) : b.stream st = some x := by
  have hapart : x.apart = x := by rw [StreamBody.apart, ← hb]
  obtain ⟨y, hy, hxy⟩ := h.some_stream hs
  rw [hapart, or_self] at hxy
  exact hxy ▸ hy

/-- The lowest FREE number (R18). -/
theorem Device.lowestFree_some {d : Device} {st : Fin 16} (h : d.lowestFree = some st) :
    d.stream st = none ∧ ∀ st', d.stream st' = none → st ≤ st' := by
  obtain ⟨hfree, i, hi, hst, hlower⟩ := List.find?_eq_some_iff_getElem.mp h
  refine ⟨Option.isNone_iff_eq_none.mp hfree, fun st' hst' => Fin.not_lt.mp fun hlt => ?_⟩
  have hval : st.val = i := by rw [← hst]; simp
  have := hlower st'.val (hval ▸ hlt)
  simp [hst'] at this

/-- The stream opened by a CREATE, before its definition is staged: its number's next incarnation, its fields and its
cursors (R18, R48). -/
def Device.streamOpened (d : Device) (p : Port) (st : Fin 16) (a : CreateArgs) : Device :=
  let fresh := fun (q : Port) => if a.readers.get q then some (Cursor.fresh 0) else none
  (((d.setStream st ⟨d.incarnation st + 1, some (a.newStream p)⟩).setCursor st .A (fresh .A)).setCursor st .B
    (fresh .B)).setCursor st .C (fresh .C)

theorem Device.createStream_eq (d : Device) (p : Port) (st : Fin 16) (a : CreateArgs) :
    d.createStream p st a = ((d.streamOpened p st a).evalHigh st).stageDefinition st := rfl

theorem Device.streamOpened_spec (d : Device) (p : Port) (st : Fin 16) (a : CreateArgs) :
    (d.streamOpened p st a).stream st = some (a.newStream p) ∧
      (d.streamOpened p st a).incarnation st = d.incarnation st + 1 ∧ (d.streamOpened p st a).writer = d.writer ∧
      ∀ q, (d.streamOpened p st a).cursor st q = if a.readers.get q then some (Cursor.fresh 0) else none := by
  refine ⟨?_, ?_, rfl, fun q => ?_⟩
  · simp [Device.streamOpened, Device.stream, Device.setCursor, Device.setStream]
  · simp [Device.streamOpened, Device.incarnation, Device.setCursor, Device.setStream]
  · cases q <;> simp [Device.streamOpened, Device.cursor, Device.setCursor, PerPort.get, PerPort.set]

/-- Settles O23: the arguments by their codes, and CREATE by its checks and its places. -/
theorem createOpensAStream : Obligations.CreateOpensAStream := by
  refine ⟨fun t0 t1 t2 t3 quota policy readers hi lo => ?_, fun t0 t1 t2 t3 quota policy readers hi lo a ha => ?_,
    fun s p tag body hserves hw hlen => ?_⟩
  · rw [createArgs_eq, ← definitionRefused_iff]
    cases policyOfCode policy.toNat <;> cases portSetOfCode readers.toNat <;> simp
  · rw [createArgs_eq] at ha
    obtain ⟨kept, hkept, ha⟩ := Option.bind_eq_some_iff.mp ha
    obtain ⟨set, hset, ha⟩ := Option.bind_eq_some_iff.mp ha
    split at ha
    · cases ha
      exact ⟨rfl, rfl, rfl, policyOfCode_drop hkept, portSetOfCode_bits hset⟩
    · cases ha
  · have hb : bodyFits body = true := by simp [bodyFits, hlen]
    have hl : lengthGood .create body = true := by simp [lengthGood, Kind.bodyLength, hlen]
    have hadmit : (s.dev.received p (.known tag .create body)).admission p (writeMode s.dev.mode) = none := by
      rw [Device.received_admission, hw.1]
      exact Device.admission_none hw.2
    refine ⟨fun hnone => ?_, fun a hsome hfull => ?_, fun a st hsome hfree hoff => ?_⟩
    · refine exec_command_replied (k := .create) hserves.1 hb ?_
      rw [Device.process_received hserves.2 hl]
      show Device.takeCreate _ _ _ = _
      rw [Device.takeCreate, Device.received_mode, hadmit]
      simp only [hnone]
    · refine exec_command_replied (k := .create) hserves.1 hb ?_
      rw [Device.process_received hserves.2 hl]
      have hfull' : (s.dev.received p (.known tag .create body)).lowestFree = none := hfull
      show Device.takeCreate _ _ _ = _
      rw [Device.takeCreate, Device.received_mode, hadmit]
      simp only [hsome, hfull']
    · intro d done
      obtain ⟨hnone, hlowest⟩ := Device.lowestFree_some hfree
      obtain ⟨hstream, hinc, hwriter, hcursors⟩ := d.streamOpened_spec p st a
      have hheld : (a.newStream p).ballotHeld = false := rfl
      obtain ⟨hhigh, -⟩ := highFlagFollowsTheRoom (d.streamOpened p st a) st _ hstream
      have hwriter' : ((d.streamOpened p st a).evalHigh st).writer = d.writer := (Device.evalHigh_writer _ _).trans hwriter
      have hinc' : ((d.streamOpened p st a).evalHigh st).incarnation st = s.dev.incarnation st + 1 :=
        (Device.evalHigh_incarnation _ _ _).trans hinc
      have hstage : done = ((d.streamOpened p st a).evalHigh st).stage
          (.streamDef st (s.dev.incarnation st + 1) p a.readers false a.policy a.tag a.quota a.margin 0) := by
        refine (d.createStream_eq p st a).trans ?_
        rw [Device.stageDefinition, hhigh, hinc']
        rfl
      have hreach : ((d.streamOpened p st a).evalHigh st).Journals done := hstage ▸ (Device.Journals.refl _).stage _
      obtain ⟨hkeeps, -, hjoins⟩ := Device.stage_uncursored
        (e := .streamDef st (s.dev.incarnation st + 1) p a.readers false a.policy a.tag a.quota a.margin 0) rfl
        ((d.streamOpened p st a).evalHigh st)
      have hdone : done.incarnation st = s.dev.incarnation st + 1 := (hreach.incarnation st).trans hinc'
      have hrule : d.carryOut p .create body = d.withPlaces p (fun d => d.createStream p st a)
          fun d => d.awaitDurable p (.created st (d.incarnation st)) d.newestSerial := by
        have hfree' : d.lowestFree = some st := hfree
        show Device.takeCreate _ _ _ = _
        rw [Device.takeCreate, Device.received_mode, hadmit]
        simp only [hsome, hfree']
      obtain ⟨hplaces, hwaits⟩ := exec_command_places hserves hoff hb hl hrule
      refine ⟨hnone, hlowest, hdone, ?_, fun q => ?_, fun ht hlt => ?_, fun hs => ?_, hwaits⟩
      · refine (hreach.unheld_stream hhigh hheld).trans ?_
        rfl
      · rw [hstage, Device.cursor, hkeeps, Device.evalHigh_cursors]
        exact hcursors q
      · rw [← hwriter'] at ht hlt
        have hadd : done.writer = d.writer.addEntry _ :=
          ((congrArg Device.writer hstage).trans (congrArg Device.writer (hjoins ht hlt))).trans
            (congrArg (Writer.addEntry · _) hwriter')
        rw [Device.newestSerial, hadd]
        exact ⟨rfl, rfl⟩
      · rw [← hdone]
        exact hplaces hs

end Sys2Proof.Machine
end

