-- ==== Sys2Proof/Proofs/Releasing.lean ====
section
/-! Sectors that leave a chain one after another (R14, R16, R24): which are retired and which queued, and what that leaves
of the tables and tells the ports. -/

namespace Sys2Proof.Machine

open Sys2Proof

-- One process elaborates the whole text: proofs taken in turn stay within its memory.
set_option Elab.async false

/-! ### Retirements -/

theorem Device.retire_controls (d : Device) (n : Nat) : (d.listBad n).Controls (d.retire n) := by
  rw [Device.retire_eq]
  exact .ite (((Device.Controls.refl _).offerAll _).enterState _) ((Device.Controls.refl _).offerAll _)

/-- What a retirement makes of the sector map and its lists (R16). -/
theorem Device.retire_map (d : Device) (n : Nat) :
    (d.retire n).sectors = (d.setSector n ((d.sector n).cleared .bad 0)).sectors ∧
      (d.retire n).badList = insertAscending n d.badList ∧ (d.retire n).eraseQueue = d.eraseQueue := by
  have h := (d.retire_controls n).frame
  refine ⟨?_, ?_, ?_⟩
  · rw [h]
    rfl
  · rw [h]
    rfl
  · rw [h]
    show (d.listBad n).eraseQueue = d.eraseQueue
    rw [Device.listBad, Device.setSector_frame]

theorem Device.retire_unheld (d : Device) (n : Nat) : d.unheld (d.retire n) := by
  have listed : d.unheld (d.listBad n) := fun st => .inl (by rw [Device.listBad, Device.setSector_frame]; rfl)
  have told : d.unheld ((d.listBad n).offerAll ⟨.retired, some n, none⟩) := fun st => by
    rw [Device.offerAll, Device.offerSet_frame]
    exact listed st
  rw [Device.retire_eq]
  exact .ite (told.trans (Device.enterState_unheld _ _)) told

/-- Nothing but STATE, BALLOT_DONE and RETIRED has been offered since. -/
def Device.toldApart (d d' : Device) : Prop :=
  ∀ (q : Port) (e : Event), e.kind ≠ .state → e.kind ≠ .ballotDone → e.kind ≠ .retired →
    (d.tells q e → d'.tells q e) ∧ (e ∈ (d'.events.get q).queue → e ∈ (d.events.get q).queue)

theorem Device.toldApart.refl (d : Device) : d.toldApart d := fun _ _ _ _ _ => ⟨id, id⟩

theorem Device.toldApart.trans {a b c : Device} (h : a.toldApart b) (k : b.toldApart c) : a.toldApart c :=
  fun q e hs hb hr => ⟨fun ht => (k q e hs hb hr).1 ((h q e hs hb hr).1 ht),
    fun hm => (h q e hs hb hr).2 ((k q e hs hb hr).2 hm)⟩

theorem Device.toldApart.of_events {a b c : Device} (h : a.toldApart b) (he : c.events = b.events) : a.toldApart c := by
  unfold Device.toldApart Device.tells
  rw [he]
  exact h

theorem Device.toldSince.apart {a b : Device} (h : a.toldSince b) : a.toldApart b := fun q e hs hb _ => h q e hs hb

theorem Device.retire_toldApart (d : Device) (n : Nat) : d.toldApart (d.retire n) := by
  have listed : (d.listBad n).events = d.events := by
    unfold Device.listBad
    rw [Device.setSector_frame]
  have offered : d.toldApart ((d.listBad n).offerAll ⟨.retired, some n, none⟩) := fun q e _ _ hr => by
    have hne : e.matches ⟨.retired, some n, none⟩ = false := by
      cases hm : e.matches ⟨.retired, some n, none⟩ with
      | false => rfl
      | true => exact absurd (Event.matches_iff.mp hm).1 hr
    refine ⟨fun ht => (ht.of_events listed).offerAll hne, fun hm => ?_⟩
    rw [Device.offerAll_events] at hm
    split at hm
    · rw [listed] at hm
      exact EventUnit.mem_of_offer hne hm
    · rw [← listed]
      exact hm
  rw [Device.retire_eq]
  split
  · exact offered.trans ((Device.toldSince.refl _).enterState _).apart
  · exact offered

/-! ### One sector after another -/

/-- The sectors `gone` have left their chain, `retired` of them for the bad list and the others for the erase queue. -/
structure Device.Released (d e : Device) (gone retired : List Nat) : Prop where
  which : retired = (gone.filter fun n => (d.sector n).suspect).take (32 - d.badList.length)
  queue : e.eraseQueue = d.eraseQueue ++ gone.filter (fun n => n ∉ retired)
  bad : e.badList.Perm (d.badList ++ retired)
  left : ∀ n ∈ gone, n < 256 → e.sector n =
    if n ∈ retired then (d.sector n).cleared .bad 0 else (d.sector n).cleared .queued d.newestSerial
  kept : ∀ n, n ∉ gone → e.sector n = d.sector n
  told : ∀ q n, n ∈ retired → (d.port q).attached = true → e.tells q ⟨.retired, some n, none⟩
  others : d.toldApart e
  stream : d.unheld e
  reach : d.Frees e

theorem Device.Released.nil (d : Device) : d.Released d [] [] :=
  ⟨by simp, by simp, by simp, nofun, fun _ _ => rfl, nofun, .refl d, fun _ => .inl rfl, .refl d⟩

theorem Device.Released.mem_gone {d e : Device} {gone retired : List Nat} (h : d.Released e gone retired) {n : Nat}
    (hn : n ∈ retired) : n ∈ gone := by
  rw [h.which] at hn
  exact List.mem_of_mem_filter (List.mem_of_mem_take hn)

theorem Device.Released.port {d e : Device} {gone retired : List Nat} (h : d.Released e gone retired) (q : Port) :
    e.port q = d.port q := by
  rw [Device.port, h.reach.ports]
  rfl

theorem Device.Released.badLength {d e : Device} {gone retired : List Nat} (h : d.Released e gone retired) :
    e.badList.length = d.badList.length + retired.length := by
  rw [h.bad.length_eq, List.length_append]

/-- The room the bad list has left decides whether a suspect sector is retired (R16). -/
theorem Device.Released.room {d e : Device} {gone retired : List Nat} (h : d.Released e gone retired) :
    (e.badList.length < 32 → retired = gone.filter fun n => (d.sector n).suspect) ∧
    (32 ≤ e.badList.length → 32 - d.badList.length ≤ retired.length) := by
  have hlen := h.badLength
  refine ⟨fun hroom => ?_, fun hfull => by omega⟩
  have hw := congrArg List.length h.which
  rw [List.length_take] at hw
  exact h.which.trans (List.take_of_length_le (by omega))

/-- A suspect sector with room for it is retired (R16). -/
theorem Device.Released.retire {d e : Device} {gone retired : List Nat} (h : d.Released e gone retired) {n : Nat}
    (hn : n ∉ gone) (hs : (d.sector n).suspect = true) (hroom : e.badList.length < 32) :
    d.Released (e.retire n) (gone ++ [n]) (retired ++ [n]) := by
  have hlen := h.badLength
  obtain ⟨hsectors, hbad, hqueue⟩ := e.retire_map n
  have hsector (m : Nat) : (e.retire n).sector m = (e.setSector n ((e.sector n).cleared .bad 0)).sector m :=
    Device.sector_congr hsectors m
  have hnr : n ∉ retired := fun hm => hn (h.mem_gone hm)
  refine ⟨?_, ?_, ?_, fun m hm hlt => ?_, fun m hm => ?_, fun q m hm ha => ?_, h.others.trans (e.retire_toldApart n),
    h.stream.trans (e.retire_unheld n), h.reach.retire n⟩
  · rw [List.filter_append, ← h.room.1 hroom, List.take_of_length_le]
    · simp [hs]
    · simp [hs]
      omega
  · rw [hqueue, h.queue, List.filter_append]
    have hgone : gone.filter (fun m => m ∉ retired ++ [n]) = gone.filter (fun m => m ∉ retired) :=
      List.filter_congr fun m hm => by
        have hne : m ≠ n := fun e => hn (e ▸ hm)
        simp [hne]
    rw [hgone]
    simp
  · rw [hbad]
    refine (insertAscending_perm n e.badList).trans ((h.bad.cons n).trans ?_)
    rw [← List.append_assoc]
    exact (List.perm_append_singleton n (d.badList ++ retired)).symm
  · rw [hsector]
    rcases List.mem_append.mp hm with hg | hg
    · have hne : m ≠ n := fun e => hn (e ▸ hg)
      rw [Device.sector_setSector_other _ _ _ _ hne, h.left m hg hlt]
      simp [hne]
    · rw [List.mem_singleton.mp hg, Device.sector_setSector _ _ _ (List.mem_singleton.mp hg ▸ hlt), h.kept n hn]
      simp
  · simp only [List.mem_append, List.mem_singleton, not_or] at hm
    rw [hsector, Device.sector_setSector_other _ _ _ _ hm.2, h.kept m hm.1]
  · rcases List.mem_append.mp hm with hg | hg
    · exact (e.retire_tells n q).2 m (h.told q m hg ha)
    · rw [List.mem_singleton.mp hg]
      exact (e.retire_tells n q).1 (by rw [h.port]; exact ha)

/-- Any other sector joins the tail end of the erase queue, with the newest serial as its mark (R14). -/
theorem Device.Released.queued {d e : Device} {gone retired : List Nat} (h : d.Released e gone retired) {n : Nat}
    (hn : n ∉ gone) (hs : (d.sector n).suspect = false ∨ 32 ≤ e.badList.length) :
    d.Released (e.joinQueue n) (gone ++ [n]) retired := by
  have hnr : n ∉ retired := fun hm => hn (h.mem_gone hm)
  have hframe : e.joinQueue n = { e with
      sectors := (e.setSector n ((e.sector n).cleared .queued e.newestSerial)).sectors
      eraseQueue := e.eraseQueue ++ [n] } := by
    rw [Device.joinQueue, Device.setSector_frame]
  have hsector (m : Nat) : (e.joinQueue n).sector m =
      (e.setSector n ((e.sector n).cleared .queued e.newestSerial)).sector m := Device.sector_congr (by rw [hframe]) m
  have hmark : e.newestSerial = d.newestSerial := by rw [Device.newestSerial, h.reach.writer, Device.newestSerial]
  have hevents : (e.joinQueue n).events = e.events := by rw [hframe]
  refine ⟨?_, ?_, ?_, fun m hm hlt => ?_, fun m hm => ?_, fun q m hm ha => (h.told q m hm ha).of_events hevents,
    h.others.of_events hevents, h.stream.trans fun st => .inl (by rw [hframe]; rfl), h.reach.joinQueue n⟩
  · rw [List.filter_append]
    rcases hs with hs | hfull
    · simpa [hs] using h.which
    · have hw := h.which
      have hlen := congrArg List.length hw
      have hroom := h.room.2 hfull
      rw [List.length_take] at hlen
      rw [List.take_append_of_le_length (by omega)]
      exact hw
  · rw [hframe, List.filter_append]
    simp [h.queue, hnr]
  · rw [hframe]
    exact h.bad
  · rw [hsector]
    rcases List.mem_append.mp hm with hg | hg
    · have hne : m ≠ n := fun e => hn (e ▸ hg)
      rw [Device.sector_setSector_other _ _ _ _ hne, h.left m hg hlt]
    · rw [List.mem_singleton.mp hg, Device.sector_setSector _ _ _ (List.mem_singleton.mp hg ▸ hlt), h.kept n hn, hmark,
        if_neg hnr]
  · simp only [List.mem_append, List.mem_singleton, not_or] at hm
    rw [hsector, Device.sector_setSector_other _ _ _ _ hm.2, h.kept m hm.1]

theorem Device.Released.releaseSector {d : Device} {x : Device × List Nat} {gone : List Nat} (h : d.Released x.1 gone x.2)
    {n : Nat} (hn : n ∉ gone) :
    d.Released (releaseSector x n).1 (gone ++ [n]) (releaseSector x n).2 := by
  unfold Sys2Proof.Machine.releaseSector
  split
  · rename_i hc
    rw [Bool.and_eq_true, h.kept n hn] at hc
    exact h.retire hn hc.1 (of_decide_eq_true hc.2)
  · rename_i hc
    rw [h.kept n hn] at hc
    refine h.queued hn ?_
    cases hs : (d.sector n).suspect with
    | false => exact .inl rfl
    | true => exact .inr (Nat.not_lt.mp fun hlt => hc (by rw [hs]; exact decide_eq_true hlt))

theorem Device.released_foldl (d : Device) {gone : List Nat} (h : gone.Nodup) :
    d.Released (gone.foldl releaseSector (d, [])).1 gone (gone.foldl releaseSector (d, [])).2 := by
  induction gone using List.reverseRecOn with
  | nil => exact .nil d
  | append_singleton gone n ih =>
    rw [List.foldl_append]
    have hn : n ∉ gone := fun hm => (List.nodup_append.mp h).2.2 n hm n (List.mem_singleton_self n) rfl
    exact (ih (List.nodup_append.mp h).1).releaseSector hn

/-- Heads that qualify leave the chain, up to the first that does not (R24). -/
theorem takeHeads_eq (d : Device) (least : Nat) (chain : List Nat) {x : Device × List Nat} {before : List Nat}
    (h : d.Released x.1 before x.2) (hnodup : chain.Nodup) (hdis : ∀ n ∈ chain, n ∉ before) :
    ∃ gone stay, chain = gone ++ stay ∧ takeHeads least chain x = (stay, gone.foldl releaseSector x) ∧
      (∀ n ∈ gone, (d.sector n).reclaimable least = true) ∧
      ∀ n, stay.head? = some n → (d.sector n).reclaimable least = false := by
  induction chain generalizing x before with
  | nil => exact ⟨[], [], rfl, rfl, nofun, nofun⟩
  | cons n rest ih =>
    have hn : n ∉ before := hdis n List.mem_cons_self
    rw [takeHeads, h.kept n hn]
    cases hr : (d.sector n).reclaimable least with
    | false => exact ⟨[], n :: rest, rfl, rfl, nofun, fun m hm => by cases hm; exact hr⟩
    | true =>
      obtain ⟨gone, stay, hchain, htake, hgone, hstay⟩ := ih (h.releaseSector hn) (List.nodup_cons.mp hnodup).2
        fun m hm hb => by
          rcases List.mem_append.mp hb with hb | hb
          · exact hdis m (List.mem_cons_of_mem _ hm) hb
          · exact (List.nodup_cons.mp hnodup).1 (List.mem_singleton.mp hb ▸ hm)
      refine ⟨n :: gone, stay, by rw [hchain]; rfl, htake, fun m hm => ?_, hstay⟩
      rcases List.mem_cons.mp hm with rfl | hm
      exacts [hr, hgone m hm]

/-! ### Page maps read as lists (R8, R24) -/

theorem PageState.seq?_iff {x : PageState} {v : Nat} : x.seq? = some v ↔ x = .live v := by
  cases x <;> simp [PageState.seq?]

theorem filterMap_live_nil {l : List PageState} : l.filterMap PageState.seq? = [] ↔
    ∀ i seq : Nat, ¬ l[i]? = some (PageState.live seq) := by
  rw [List.filterMap_eq_nil_iff]
  refine ⟨fun h i seq hi => ?_, fun h x hx => Option.eq_none_iff_forall_ne_some.mpr fun v hv => ?_⟩
  · have := h _ (List.mem_of_getElem? hi)
    cases this
  · obtain ⟨i, hi⟩ := List.mem_iff_getElem?.mp hx
    exact h i v (hi.trans (congrArg some (PageState.seq?_iff.mp hv)))

/-- The first LIVE sequence of a page list. -/
theorem head?_live_iff {l : List PageState} {v : Nat} : (l.filterMap PageState.seq?).head? = some v ↔
    ∃ i : Nat, l[i]? = some (PageState.live v) ∧ ∀ k seq : Nat, k < i → ¬ l[k]? = some (PageState.live seq) := by
  rw [List.head?_filterMap, List.findSome?_eq_some_iff]
  constructor
  · rintro ⟨before, x, later, rfl, hx, hbefore⟩
    rw [PageState.seq?_iff] at hx
    subst hx
    refine ⟨before.length, by simp, fun k seq hk hl => ?_⟩
    rw [List.getElem?_append_left hk] at hl
    cases hbefore _ (List.mem_of_getElem? hl)
  · rintro ⟨i, hi, hnone⟩
    obtain ⟨hlt, hget⟩ := List.getElem?_eq_some_iff.mp hi
    refine ⟨l.take i, .live v, l.drop (i + 1), ?_, rfl, fun x hx => ?_⟩
    · rw [← hget, ← List.drop_eq_getElem_cons hlt, List.take_append_drop]
    · obtain ⟨k, hk⟩ := List.mem_iff_getElem?.mp hx
      rw [List.getElem?_take] at hk
      split at hk
      · exact Option.eq_none_iff_forall_ne_some.mpr fun w hw =>
          hnone k w ‹_› (hk.trans (congrArg some (PageState.seq?_iff.mp hw)))
      · cases hk

/-- The last LIVE sequence of a page list. -/
theorem getLast?_live_iff {l : List PageState} {v : Nat} : (l.filterMap PageState.seq?).getLast? = some v ↔
    ∃ i : Nat, l[i]? = some (PageState.live v) ∧ ∀ k seq : Nat, i < k → ¬ l[k]? = some (PageState.live seq) := by
  rw [List.getLast?_filterMap, List.findSome?_eq_some_iff]
  constructor
  · rintro ⟨before, x, later, hl, hx, hbefore⟩
    rw [PageState.seq?_iff] at hx
    subst hx
    have hl' : l = later.reverse ++ .live v :: before.reverse := by
      rw [← List.reverse_reverse l, hl]
      simp
    subst hl'
    refine ⟨later.reverse.length, by simp, fun k seq hk hk' => ?_⟩
    obtain ⟨j, rfl⟩ := Nat.exists_eq_add_of_lt hk
    rw [List.getElem?_append_right (by omega)] at hk'
    have hmem : PageState.live seq ∈ before.reverse := by
      refine List.mem_of_getElem? (i := j) ?_
      rw [← hk', show later.reverse.length + j + 1 - later.reverse.length = j + 1 by omega, List.getElem?_cons_succ]
    cases hbefore _ (List.mem_reverse.mp hmem)
  · rintro ⟨i, hi, hnone⟩
    obtain ⟨hlt, hget⟩ := List.getElem?_eq_some_iff.mp hi
    refine ⟨(l.drop (i + 1)).reverse, .live v, (l.take i).reverse, ?_, rfl, fun x hx => ?_⟩
    · have hsplit : l = l.take i ++ .live v :: l.drop (i + 1) := by
        rw [← hget, ← List.drop_eq_getElem_cons hlt, List.take_append_drop]
      conv_lhs => rw [hsplit]
      simp
    · obtain ⟨k, hk⟩ := List.mem_iff_getElem?.mp (List.mem_reverse.mp hx)
      rw [List.getElem?_drop] at hk
      exact Option.eq_none_iff_forall_ne_some.mpr fun w hw =>
        hnone (i + 1 + k) w (by omega) (hk.trans (congrArg some (PageState.seq?_iff.mp hw)))

/-- A head qualifies for reclaim: FILLED, no WRITING page, no LIVE page or its last sequence below the least committed
(R24). -/
theorem Sector.reclaimable_iff (x : Sector) (least : Nat) : x.reclaimable least = true ↔
    x.state = .filled ∧ .writing ∉ x.pageList ∧ ∀ i last : Nat, x.pageList[i]? = some (PageState.live last) →
      (∀ k seq : Nat, i < k → ¬ x.pageList[k]? = some (PageState.live seq)) → last < least := by
  have hall : (x.pageList.all fun y => y != .writing) = true ↔ .writing ∉ x.pageList := by
    rw [List.all_eq_true]
    exact ⟨fun h hm => by simpa using h _ hm, fun h y hy => bne_iff_ne.mpr fun e => h (e ▸ hy)⟩
  have hlast : (∀ i last : Nat, x.pageList[i]? = some (PageState.live last) →
      (∀ k seq : Nat, i < k → ¬ x.pageList[k]? = some (PageState.live seq)) → last < least) ↔
      ∀ last, x.last? = some last → last < least :=
    ⟨fun h last hl => by
      obtain ⟨i, hi, hnone⟩ := getLast?_live_iff.mp hl
      exact h i last hi hnone, fun h i last hi hnone => h last (getLast?_live_iff.mpr ⟨i, hi, hnone⟩)⟩
  rw [hlast, ← hall]
  unfold Sector.reclaimable
  cases hl : x.last? <;> simp [and_assoc]

/-- A chain's oldest sequence: that of the first LIVE page of its sectors, head first (R4, R32). -/
theorem Device.chainOldest_none {d : Device} {chain : List Nat} (next : Nat)
    (h : ∀ n ∈ chain, ∀ i seq : Nat, ¬ (d.sector n).pageList[i]? = some (PageState.live seq)) : d.chainOldest chain next = next := by
  have hnil : chain.filterMap (fun n => (d.sector n).first?) = [] := List.filterMap_eq_nil_iff.mpr fun n hn => by
    rw [Sector.first?, Sector.liveSeqs, filterMap_live_nil.mpr (h n hn)]
    rfl
  rw [Device.chainOldest, hnil]
  rfl

theorem Device.chainOldest_first {d : Device} {before later : List Nat} {n i seq : Nat} (next : Nat)
    (hb : ∀ m ∈ before, ∀ k t : Nat, ¬ (d.sector m).pageList[k]? = some (PageState.live t))
    (hi : (d.sector n).pageList[i]? = some (PageState.live seq))
    (hfirst : ∀ k t : Nat, k < i → ¬ (d.sector n).pageList[k]? = some (PageState.live t)) :
    d.chainOldest (before ++ n :: later) next = seq := by
  have hnil : before.filterMap (fun n => (d.sector n).first?) = [] := List.filterMap_eq_nil_iff.mpr fun m hm => by
    rw [Sector.first?, Sector.liveSeqs, filterMap_live_nil.mpr (hb m hm)]
    rfl
  have hn : (d.sector n).first? = some seq := head?_live_iff.mpr ⟨i, hi, hfirst⟩
  rw [Device.chainOldest, List.filterMap_append, hnil]
  simp [hn]

/-! ### The reclaim rule (R24, R25) -/

/-- The least committed over a stream's readers, or its next sequence without readers (R24). -/
theorem Device.leastCommitted_eq {d : Device} {st : Fin 16} {b : StreamBody} {least : Nat}
    (h : (∀ q, b.readers.get q = false ∨ d.cursor st q = none) ∧ least = b.next ∨
      (∃ q c, b.readers.get q = true ∧ d.cursor st q = some c ∧ c.committed = least) ∧
        ∀ q c, b.readers.get q = true → d.cursor st q = some c → least ≤ c.committed) :
    d.leastCommitted st b = least := by
  have hmem (v : Nat) : v ∈ ([Port.A, .B, .C].map fun p => if b.readers.get p then (d.cursor st p).map Cursor.committed
      else none).filterMap id ↔ ∃ q c, b.readers.get q = true ∧ d.cursor st q = some c ∧ c.committed = v := by
    rw [List.mem_filterMap]
    constructor
    · rintro ⟨x, hx, rfl⟩
      obtain ⟨q, -, hq⟩ := List.mem_map.mp hx
      cases hr : b.readers.get q with
      | false => simp [hr] at hq
      | true =>
        rw [hr, if_pos rfl, Option.map_eq_some_iff] at hq
        obtain ⟨c, hc, hv⟩ := hq
        exact ⟨q, c, hr, hc, hv⟩
    · rintro ⟨q, c, hr, hc, rfl⟩
      exact ⟨_, List.mem_map.mpr ⟨q, by cases q <;> simp, by rw [hr, hc]; rfl⟩, rfl⟩
  unfold Device.leastCommitted
  dsimp only
  generalize hl : List.filterMap id _ = l
  have hmem' (v : Nat) : v ∈ l ↔ ∃ q c, b.readers.get q = true ∧ d.cursor st q = some c ∧ c.committed = v := by
    rw [← hl]
    exact hmem v
  cases l with
  | nil =>
    rcases h with ⟨-, h⟩ | ⟨⟨q, c, hq⟩, -⟩
    · exact h.symm
    · exact absurd ((hmem' least).mpr ⟨q, c, hq⟩) List.not_mem_nil
  | cons x xs =>
    rcases h with ⟨hnone, -⟩ | ⟨hex, hmin⟩
    · obtain ⟨q, c, hr, hc, -⟩ := (hmem' x).mp List.mem_cons_self
      rcases hnone q with h | h
      · rw [h] at hr
        cases hr
      · rw [h] at hc
        cases hc
    · have : (x :: xs).min? = some least := List.min?_eq_some_iff.mpr ⟨(hmem' least).mpr hex, fun v hv => by
        obtain ⟨q, c, hr, hc, rfl⟩ := (hmem' v).mp hv
        exact hmin q c hr hc⟩
      rw [List.min?_cons'] at this
      exact Option.some.inj this

/-- A reclaim that takes sectors, or takes none (R24). -/
theorem Device.reclaim_eq {d : Device} {st : Fin 16} {b : StreamBody} (hs : d.stream st = some b) (hnodup : b.chain.Nodup)
    (hmode : d.mode ≠ .readOnly) : ∃ gone stay, b.chain = gone ++ stay ∧
      (∀ n ∈ gone, (d.sector n).reclaimable (d.leastCommitted st b) = true) ∧
      (∀ n, stay.head? = some n → (d.sector n).reclaimable (d.leastCommitted st b) = false) ∧
      (gone = [] → d.reclaim st = (d, [])) ∧
      (gone ≠ [] → d.reclaim st = ((((gone.foldl releaseSector (d, [])).1.setChain st stay).recount st).evalHigh st,
        (gone.foldl releaseSector (d, [])).2)) := by
  obtain ⟨gone, stay, hchain, htake, hgone, hstay⟩ := takeHeads_eq d (d.leastCommitted st b) b.chain
    (x := (d, [])) (.nil d) hnodup (fun _ _ => List.not_mem_nil)
  refine ⟨gone, stay, hchain, hgone, hstay, fun hnil => ?_, fun hne => ?_⟩
  · have hlen : stay.length = b.chain.length := by rw [hchain, hnil]; rfl
    simp [Device.reclaim, hs, hmode, htake, hlen]
  · have hlen : ¬ stay.length = b.chain.length := by
      rw [hchain, List.length_append]
      have := List.length_pos_iff.mpr hne
      omega
    simp [Device.reclaim, hs, hmode, htake, hlen]

/-- The high flag's evaluation offers HIGH_WATER at most (R6). -/
theorem Device.evalHigh_tells {d : Device} {q : Port} {e : Event} (h : d.tells q e) (he : e.kind ≠ .highWater) (st : Fin 16) :
    (d.evalHigh st).tells q e := by
  cases hs : d.stream st with
  | none => rwa [Device.evalHigh_stream_none _ _ hs]
  | some b =>
    obtain ⟨-, hevents⟩ := highFlagFollowsTheRoom d st b hs
    have hne : e.matches ⟨.highWater, some st.val, some (b.quota * 16 - b.used)⟩ = false := by
      cases hm : e.matches ⟨.highWater, some st.val, some (b.quota * 16 - b.used)⟩ with
      | false => rfl
      | true => exact absurd (Event.matches_iff.mp hm).1 he
    split at hevents
    · exact (h.offer b.writer hne).of_events hevents
    · exact h.of_events hevents

/-- The RETIRE entries of the sectors an operation retired: sorted, eight to an entry but the last (R16; log 10). -/
theorem insertAscending_sorted {n : Nat} {l : List Nat} (h : l.Pairwise (· ≤ ·)) :
    (insertAscending n l).Pairwise (· ≤ ·) := by
  induction l with
  | nil => exact List.pairwise_singleton _ _
  | cons x xs ih =>
    obtain ⟨hx, hxs⟩ := List.pairwise_cons.mp h
    rw [insertAscending]
    split
    · rename_i hlt
      refine List.pairwise_cons.mpr ⟨fun m hm => ?_, h⟩
      rcases List.mem_cons.mp hm with rfl | hm
      · exact Nat.le_of_lt hlt
      · exact Nat.le_trans (Nat.le_of_lt hlt) (hx m hm)
    · rename_i hge
      refine List.pairwise_cons.mpr ⟨fun m hm => ?_, ih hxs⟩
      rcases List.mem_cons.mp ((insertAscending_perm n xs).mem_iff.mp hm) with rfl | hm
      · exact Nat.not_lt.mp hge
      · exact hx m hm

theorem ascending_perm (l : List Nat) : (ascending l).Perm l := by
  induction l with
  | nil => exact .refl _
  | cons x xs ih => exact (insertAscending_perm x _).trans (ih.cons x)

theorem ascending_sorted (l : List Nat) : (ascending l).Pairwise (· ≤ ·) := by
  induction l with
  | nil => exact .nil
  | cons x xs ih => exact insertAscending_sorted ih

theorem retireEntries_grouped (l : List Nat) : ∃ groups : List (List Nat), groups.flatten.Perm l ∧
    groups.flatten.Pairwise (· ≤ ·) ∧ (∀ g ∈ groups, 1 ≤ g.length ∧ g.length ≤ 8) ∧
    (∀ g ∈ groups.dropLast, g.length = 8) ∧
    ∀ d : Device, d.stageAll (retireEntries l) = groups.foldl (fun d g => d.stage (.retire g)) d := by
  have hlen : (ascending l).length ≤ l.length := Nat.le_of_eq (ascending_perm l).length_eq
  have h := groupsOfEight_grouped hlen
  refine ⟨groupsOfEight l.length (ascending l), ?_, ?_, h.size, h.full, fun d => ?_⟩
  · rw [h.flatten]
    exact ascending_perm l
  · rw [h.flatten]
    exact ascending_sorted l
  · rw [retireEntries, Device.stageAll, List.foldl_map]

end Sys2Proof.Machine
end

