-- ==== Sys2Proof/Proofs/Acknowledging.lean ====
section
/-! ACK (R57 to R60) and the reclaim rule it brings about (R24, R25). -/

namespace Sys2Proof.Machine

open Sys2Proof

-- One process elaborates the whole text: proofs taken in turn stay within its memory.
set_option Elab.async false

/-! ### What a reclaim leaves of its stream (R4 to R6, R24) -/

theorem Sector.usedPages_filled {x : Sector} (h : x.state = .filled) : x.usedPages = 16 := by
  rw [Sector.usedPages, h]

/-- FILLED heads that leave take 16 used pages each (R5). -/
theorem Device.chainUsed_filled {d : Device} {gone : List Nat} (h : ∀ n ∈ gone, (d.sector n).state = .filled)
    (stay : List Nat) : d.chainUsed (gone ++ stay) = 16 * gone.length + d.chainUsed stay := by
  induction gone with
  | nil => simp
  | cons n gone ih =>
    have hn := Sector.usedPages_filled (h n List.mem_cons_self)
    have hrest := ih fun m hm => h m (List.mem_cons_of_mem _ hm)
    unfold Device.chainUsed at hrest ⊢
    rw [List.cons_append, List.map_cons, List.sum_cons, hn, hrest, List.length_cons]
    omega

/-- A stream whose heads have left: the chain that stays, and what is counted from it. -/
def Device.headsGone (d : Device) (st : Fin 16) (gone stay : List Nat) : Device :=
  (((gone.foldl releaseSector (d, [])).1.setChain st stay).recount st).evalHigh st

/-- The chain set and the counters brought up to date touch one stream and the event units. -/
theorem Device.headsGone_frame (d : Device) (st : Fin 16) (gone stay : List Nat) :
    d.headsGone st gone stay = { (gone.foldl releaseSector (d, [])).1 with
      streams := (d.headsGone st gone stay).streams, events := (d.headsGone st gone stay).events } := by
  have hchain : (gone.foldl releaseSector (d, [])).1.setChain st stay = { (gone.foldl releaseSector (d, [])).1 with
      streams := ((gone.foldl releaseSector (d, [])).1.setChain st stay).streams } := by
    unfold Device.setChain
    split <;> rfl
  exact (Device.recounted_frame _ st).trans (congrArg (fun x : Device => { x with
    streams := (d.headsGone st gone stay).streams, events := (d.headsGone st gone stay).events }) hchain)

theorem Device.setChain_other (d : Device) {st st' : Fin 16} (h : st' ≠ st) (chain : List Nat) :
    (d.setChain st chain).stream st' = d.stream st' := by
  unfold Device.setChain
  split
  · rfl
  · exact Device.stream_setBody_other _ _ _ _ h

theorem Device.setChain_self {d : Device} {st : Fin 16} {b : StreamBody} (h : d.stream st = some b) (chain : List Nat) :
    (d.setChain st chain).stream st = some { b with chain := chain } := by
  simp [Device.setChain, h]

/-- The stream itself after its heads have left: its fields but for a ballot-held flag cleared, and its counters. -/
theorem Device.headsGone_self {d : Device} {st : Fin 16} {b : StreamBody} (hs : d.stream st = some b)
    {gone stay : List Nat} (hnodup : (gone ++ stay).Nodup) : ∃ b', (b' = b ∨ b' = b.apart) ∧
      (d.headsGone st gone stay).stream st = some { b' with
        chain := stay, used := d.chainUsed stay, oldest := d.chainOldest stay b.next
        high := decide (b.quota * 16 - d.chainUsed stay ≤ b.margin) } := by
  have h := d.released_foldl (List.nodup_append.mp hnodup).1
  have hstays (n : Nat) (hn : n ∈ stay) : ((gone.foldl releaseSector (d, [])).1.setChain st stay).sector n = d.sector n := by
    have hne : n ∉ gone := fun hg => (List.nodup_append.mp hnodup).2.2 n hg n hn rfl
    rw [Device.sector_congr (d := (gone.foldl releaseSector (d, [])).1) (by unfold Device.setChain; split <;> rfl)]
    exact h.kept n hne
  have hused : ((gone.foldl releaseSector (d, [])).1.setChain st stay).chainUsed stay = d.chainUsed stay := by
    unfold Device.chainUsed
    rw [List.map_congr_left fun n hn => congrArg Sector.usedPages (hstays n hn)]
  have holdest (next : Nat) : ((gone.foldl releaseSector (d, [])).1.setChain st stay).chainOldest stay next =
      d.chainOldest stay next := by
    unfold Device.chainOldest
    rw [List.filterMap_congr fun n hn => congrArg Sector.first? (hstays n hn)]
  obtain ⟨b', hb', hor⟩ : ∃ b', (gone.foldl releaseSector (d, [])).1.stream st = some b' ∧ (b' = b ∨ b' = b.apart) := by
    rcases h.stream st with hst | hst <;> rw [hst, hs]
    exacts [⟨b, rfl, .inl rfl⟩, ⟨b.apart, rfl, .inr rfl⟩]
  refine ⟨b', hor, (Device.recounted_self _ st (Device.setChain_self hb' stay)).trans ?_⟩
  dsimp only
  rw [hused, holdest]
  rcases hor with rfl | rfl <;> rfl

/-- The other streams keep their chains. -/
theorem Device.headsGone_other {d : Device} {st : Fin 16} {gone stay : List Nat} (hnodup : gone.Nodup) {st' : Fin 16}
    (hst : st' ≠ st) : ((d.headsGone st gone stay).stream st').map StreamBody.chain =
      (d.stream st').map StreamBody.chain := by
  have h : (d.headsGone st gone stay).stream st' = (gone.foldl releaseSector (d, [])).1.stream st' :=
    (Device.recounted_other _ st hst).trans (Device.setChain_other _ hst _)
  rw [h]
  rcases (d.released_foldl hnodup).stream st' with hs | hs <;> rw [hs]
  cases d.stream st' <;> rfl

theorem Device.sector_state_lt {d : Device} {n : Nat} (h : (d.sector n).state = .filled) : n < 256 := by
  by_contra hn
  rw [Device.sector, dif_neg hn] at h
  cases h

/-! ### ACK's operands -/

theorem ackBody_flags (st : Fin 16) (seq : Nat) (durable : Bool) :
    byteAt (ackBody st seq durable) 5 = if durable then 0x01#8 else 0x00#8 := by
  have hlen : (bigEndian 4 seq).length = 4 := bigEndian_length 4 seq
  rw [byteAt, ackBody, List.getD_cons_succ, List.getD_append_right _ _ _ _ (Nat.le_of_eq hlen), hlen]
  rfl

theorem ackBody_seq (st : Fin 16) {seq : Nat} (h : seq < 4294967296) (durable : Bool) :
    fieldAt (ackBody st seq durable) 1 4 = seq := by
  rw [fieldAt, bytesAt, ackBody, List.drop_succ_cons, List.drop_zero, List.take_left' (bigEndian_length 4 seq)]
  exact fromBytes_bigEndian h

theorem lengthGood_ackBody (st : Fin 16) (seq : Nat) (durable : Bool) : lengthGood .ack (ackBody st seq durable) = true := by
  simp [lengthGood, Kind.bodyLength, ackBody]

theorem Device.cursorCheck_ack {d : Device} {p : Port} {st : Fin 16} {b : StreamBody} {c : Cursor} (h : d.readerOf p st b c)
    (r : Request) (seq : Nat) (durable : Bool) :
    (d.received p r).cursorCheck p .ack (ackBody st seq durable) = .ok (st, b, c) := by
  have hflag : flagOfCode (byteAt (ackBody st seq durable) 5).toNat = some durable := by
    rw [ackBody_flags]
    cases durable <;> rfl
  refine (Device.cursorCheck_reader h r .ack _).trans ?_
  rw [show streamByte st :: (bigEndian 4 seq ++ [if durable then 0x01#8 else 0x00#8]) = ackBody st seq durable from rfl,
    lengthGood_ackBody, hflag]
  rfl

/-- ACK past its checks (R57 to R60). -/
theorem Device.takeAck_received {d : Device} {p : Port} {st : Fin 16} {b : StreamBody} {c : Cursor} (h : d.readerOf p st b c)
    (r : Request) {seq : Nat} (hseq : seq < 4294967296) (durable : Bool) :
    (d.received p r).takeAck p (ackBody st seq durable) =
      if d.mode = .readOnly ∧ durable = true then (d.received p r).answer p .readOnly []
      else if seq + 1 ≤ c.committed then (d.received p r).ackUnchanged p st c.committed durable
      else if c.delivered < seq + 1 then (d.received p r).answer p .seq []
      else if d.mode = .readOnly then
        (((d.received p r).setCursor st p (some { c with committed := seq + 1 })).evalBacklog st p).answer p .ok
          (bigEndian 4 (seq + 1))
      else (d.received p r).withPlaces p (fun d => d.advanceCursor st p (seq + 1))
        fun d => d.ackAdvanced p st (seq + 1) durable := by
  have hdurable : (byteAt (ackBody st seq durable) 5 == 0x01#8) = durable := by
    rw [ackBody_flags]
    cases durable <;> rfl
  rw [Device.takeAck, Device.cursorCheck_ack h]
  simp only [ackBody_seq st hseq, hdurable, Bool.and_eq_true, decide_eq_true_eq]
  rfl

theorem Device.answer_toExec (d : Device) (p : Port) (s : ExecState) (j : Job) (status : Status) (out : List Byte) :
    (d.toExec p s j).answer p status out = d.answer p status out := by
  have hr : ((d.toExec p s j).exec p).inHand = (d.exec p).inHand := by rw [Device.toExec, Device.exec_setExec]
  unfold Device.answer
  rw [hr]
  cases (d.exec p).inHand with
  | none => exact Device.setExec_setExec _ _ _ _
  | some r =>
    have hsame : (d.toExec p s j).respond p r status out = (d.respond p r status out).setExec p
        ⟨s, (d.exec p).inHand, j⟩ := by
      unfold Device.respond Device.toExec
      rw [Device.setPort_setExec]
      rfl
    dsimp only
    rw [hsame, Device.setExec_setExec]

/-- A wait of an ACK for a serial (R59, R113, R120). -/
theorem Device.awaitDurable_acked (d : Device) (p : Port) (committed serial : Nat) :
    (d.writer.state = .halted → d.awaitDurable p (.acked committed) serial = d.answer p .readOnly []) ∧
    (d.writer.state ≠ .halted → serial ≤ d.writer.durableSerial →
      d.awaitDurable p (.acked committed) serial = d.answer p .ok (bigEndian 4 committed)) ∧
    (d.writer.state ≠ .halted → d.writer.durableSerial < serial →
      d.awaitDurable p (.acked committed) serial = d.toExec p (.waitDurable serial) (.acked committed)) := by
  refine ⟨fun h => if_pos h, fun h hd => ?_, fun h hd => ?_⟩
  · rw [Device.awaitDurable, if_neg h, if_pos hd, ← d.answer_toExec p .check (.acked committed)]
    simp [Device.durableAnswer, Device.toExec]
  · rw [Device.awaitDurable, if_neg h, if_neg (Nat.not_le.mpr hd)]

/-- The newest CURSOR entry of a stream and port in the buffer (R59). -/
theorem Writer.cursorSerial_newest {w : Writer} {st : Fin 16} {p : Port} {before later : List Staged} {x : Staged}
    (hl : w.staging = before ++ x :: later) (hx : x.entry.isCursorOf st p = true)
    (hlater : ∀ y ∈ later, y.entry.isCursorOf st p = false) : w.cursorSerial st p = some x.serial := by
  have hnil : later.filter (fun y => y.entry.isCursorOf st p) = [] := List.filter_eq_nil_iff.mpr fun y hy =>
    Bool.eq_false_iff.mp (hlater y hy)
  simp [Writer.cursorSerial, hl, hx, hnil]

theorem Device.advanceCursor_eq {d : Device} {st : Fin 16} {p : Port} {c : Cursor} (h : d.cursor st p = some c) (n : Nat) :
    d.advanceCursor st p n = (((d.setCursor st p (some { c with committed := n })).stage
      (.cursor st (d.incarnation st) p n c.lost)).evalBacklog st p).reclaimStaged st := by
  rw [Device.advanceCursor, h]
  rfl

/-- The backlog flag's evaluation leaves committed as it is (R64). -/
theorem Device.evalBacklog_committed (d : Device) (st : Fin 16) (p : Port) :
    ((d.evalBacklog st p).cursor st p).map Cursor.committed = (d.cursor st p).map Cursor.committed := by
  cases hs : d.stream st with
  | none => simp [Device.evalBacklog, hs]
  | some b =>
    cases hc : d.cursor st p with
    | none => simp [Device.evalBacklog, hs, hc]
    | some c =>
      have hoffer (e : Device) (x : Event) : (e.offer p x).cursor st p = e.cursor st p := by
        rw [Device.offer_frame]
        rfl
      rw [Device.evalBacklog_eq hs hc]
      split
      · rw [hoffer, Device.cursor_setCursor]
        rfl
      · rw [Device.cursor_setCursor]
        rfl

theorem Device.reclaimStaged_committed (d : Device) (st : Fin 16) (p : Port) :
    ((d.reclaimStaged st).cursor st p).map Cursor.committed = (d.cursor st p).map Cursor.committed := by
  have hstage := ((Device.Journals.refl (d.reclaim st).1).stageAll (retireEntries (d.reclaim st).2)).cursor st p
  have hreclaim := ((Device.Frees.refl d).reclaim st).cursor st p
  have hsame := congrArg (Option.map Cursor.committed) hstage
  rw [Option.map_map, Option.map_map] at hsame
  exact hsame.trans (congrArg (Option.map Cursor.committed) hreclaim)

/-- Settles O22: the ACK by the comparisons of R57 to R60, the reclaim by the heads that leave. -/
theorem ackAnswersOrAdvances : Obligations.AckAnswersOrAdvances := by
  refine ⟨fun s p tag st b c seq durable h hr hseq => ?ack, fun d st b hs hnodup => ?reclaim⟩
  case ack =>
    intro answered
    obtain ⟨hm, ha, hst, hreads, hc⟩ := id hr
    have hb : bodyFits (ackBody st seq durable) = true := by simp [bodyFits, ackBody]
    have hl := lengthGood_ackBody st seq durable
    have htake := Device.takeAck_received hr (.known tag .ack (ackBody st seq durable)) hseq durable
    have answers {status : Status} {out : List Byte}
        (hc : (s.dev.received p (.known tag .ack (ackBody st seq durable))).takeAck p (ackBody st seq durable) =
          (s.dev.received p (.known tag .ack (ackBody st seq durable))).answer p status out) : answered status out :=
      exec_command_only_answers h .ack tag _ status out hb hl hc
    have unchanged (hne : ¬(s.dev.mode = .readOnly ∧ durable = true)) (hle : seq + 1 ≤ c.committed) :=
      (htake.trans (if_neg hne)).trans (if_pos hle)
    refine ⟨fun hro hd => answers (htake.trans (if_pos ⟨hro, hd⟩)), fun hne hle hor => answers ((unchanged hne hle).trans ?_),
      fun hready hd hle before x later hlist hx hlater => ?_, fun hne hlt hdel => ?_, fun hlt hdel hoff => ?_⟩
    · rcases hor with hd | hnone
      · rw [hd]
        rfl
      · unfold Device.ackUnchanged
        rw [Device.received_writer, hnone]
        cases durable <;> rfl
    · have hne : ¬(s.dev.mode = .readOnly ∧ durable = true) := fun hro => by
        rw [hready] at hro
        cases hro.1
      have hwait : (s.dev.received p (.known tag .ack (ackBody st seq durable))).ackUnchanged p st c.committed durable =
          (s.dev.received p (.known tag .ack (ackBody st seq durable))).awaitDurable p (.acked c.committed) x.serial := by
        unfold Device.ackUnchanged
        rw [Device.received_writer, Writer.cursorSerial_newest hlist hx hlater, hd]
      have hrule := (unchanged hne hle).trans hwait
      obtain ⟨hhalted, hdurable, hwaits⟩ := (s.dev.received p (.known tag .ack (ackBody st seq durable))).awaitDurable_acked
        p c.committed x.serial
      exact ⟨fun hw => answers (hrule.trans (hhalted hw)), fun hw =>
        ⟨fun hle' => answers (hrule.trans (hdurable hw hle')),
          fun hlt' => exec_command_performs h (k := .ack) hb hl (hrule.trans (hwaits hw hlt'))⟩⟩
    · exact answers (((htake.trans (if_neg hne)).trans (if_neg (Nat.not_le.mpr hlt))).trans (if_pos hdel))
    · intro n d moved done
      have hpast (hne : ¬(s.dev.mode = .readOnly ∧ durable = true)) :=
        ((htake.trans (if_neg hne)).trans (if_neg (Nat.not_le.mpr hlt))).trans (if_neg (Nat.not_lt.mpr hdel))
      have hdone : d.advanceCursor st p n = done := Device.advanceCursor_eq (d := d) hc n
      refine ⟨fun hro hd => ?_, fun hready hplaces => ?_, fun hready hno => ?_⟩
      · have hne : ¬(s.dev.mode = .readOnly ∧ durable = true) := fun h => by
          rw [hd] at h
          cases h.2
        have hrule := (hpast hne).trans (if_pos hro)
        have heval : ((s.dev.received p (.known tag .ack (ackBody st seq durable))).setCursor st p
            (some { c with committed := n })).evalBacklog st p =
            ((s.dev.setCursor st p (some { c with committed := n })).evalBacklog st p).received p
              (.known tag .ack (ackBody st seq durable)) :=
          Device.received_evalBacklog (s.dev.setCursor st p (some { c with committed := n })) p p _ st
        have hframe := Device.evalBacklog_frame (s.dev.setCursor st p (some { c with committed := n })) st p
        refine (exec_command_answers h .ack tag _ .ok (bigEndian 4 n) hb hl
          ((s.dev.setCursor st p (some { c with committed := n })).evalBacklog st p).events
          ((s.dev.setCursor st p (some { c with committed := n })).evalBacklog st p).cursors s.dev.draws
          ((hrule.trans (congrArg (Device.answer · p .ok (bigEndian 4 n)) heval)).trans
            (congrArg (Device.answer · p .ok (bigEndian 4 n)) ?_))).trans ?_
        · conv_lhs => rw [hframe]
          rfl
        · conv_rhs => rw [hframe]
          rfl
      all_goals
        have hne : ¬ s.dev.mode = .readOnly := fun h => by
          rw [hready] at h
          cases h
        have hrule := (hpast fun h => hne h.1).trans (if_neg hne)
        obtain ⟨hdoes, hwaits⟩ := exec_command_places h hoff (k := .ack) hb hl hrule
      · have hexec := hdoes hplaces
        rw [show (s.dev.received p (.known tag .ack (ackBody st seq durable))).advanceCursor st p (seq + 1) = done from
          hdone] at hexec
        refine ⟨fun hd => ?_, fun hd => ?_, ?_⟩
        · exact hexec.trans (congrArg (fun d : Device => Host.Outcome.next (s.onDev d.settled))
            (if_neg (by rw [hd]; decide)))
        · exact hexec.trans (congrArg (fun d : Device => Host.Outcome.next (s.onDev d.settled)) (if_pos hd))
        · have hmoved := ((Device.Journals.refl (d.setCursor st p (some { c with committed := n }))).stage
            (.cursor st (s.dev.incarnation st) p n c.lost)).cursor st p
          have hcommitted := congrArg (Option.map Cursor.committed) hmoved
          rw [Option.map_map, Option.map_map, Device.cursor_setCursor] at hcommitted
          exact ((Device.reclaimStaged_committed _ _ _).trans (Device.evalBacklog_committed _ _ _)).trans hcommitted
      · exact hwaits hno
  case reclaim =>
    intro e retired
    obtain ⟨groups, hperm, hsorted, hsize, hfull, hstage⟩ := retireEntries_grouped retired
    refine ⟨fun hro => by simp [Device.reclaim, hs, hro], fun hne least hleast => ?_, groups, hperm, hsorted, hsize, hfull, hstage e⟩
    intro live leaves
    obtain ⟨gone, stay, hchain, hgone, hstay, hnil, htaken⟩ := Device.reclaim_eq hs hnodup hne
    rw [Device.leastCommitted_eq hleast] at hgone hstay
    have hgone' (n : Nat) (hn : n ∈ gone) : leaves n := ((d.sector n).reclaimable_iff least).mp (hgone n hn)
    refine ⟨gone, stay, hchain, hgone', fun n hn hl => ?_, hnil, fun hsome => ?_⟩
    · have := hstay n hn
      rw [((d.sector n).reclaimable_iff least).mpr hl] at this
      cases this
    · have hnodup' : (gone ++ stay).Nodup := hchain ▸ hnodup
      have hreclaim := htaken hsome
      have hrel := d.released_foldl (List.nodup_append.mp hnodup').1
      have he : e = d.headsGone st gone stay := congrArg Prod.fst hreclaim
      have hr : (d.reclaim st).2 = (gone.foldl releaseSector (d, [])).2 := by rw [hreclaim]
      have hframe := he.trans (d.headsGone_frame st gone stay)
      rw [← hr] at hrel
      obtain ⟨b', hor, hb'⟩ := Device.headsGone_self hs hnodup'
      have hsector (n : Nat) : e.sector n = (gone.foldl releaseSector (d, [])).1.sector n :=
        Device.sector_congr (by rw [hframe]) n
      refine ⟨hrel.which, ?_, ?_, ?_, ?_, ?_, fun n hn => ?_, fun n hn => ?_, fun q n hn ha => ?_, fun st' hst => ?_, ?_⟩
      · rw [hframe]
        exact hrel.queue
      · rw [hframe]
        exact hrel.bad
      · rw [hframe]
        exact hrel.reach.freePool
      · rw [hframe]
        exact hrel.reach.cursors
      · rw [hframe]
        exact hrel.reach.writer
      · rw [hsector]
        exact hrel.kept n hn
      · rw [hsector]
        exact hrel.left n hn (Device.sector_state_lt (hgone' n hn).1)
      · rw [he]
        refine Device.evalHigh_tells (Device.tells.of_events (hrel.told q n hn ha) ?_) nofun st
        rw [Device.recount_events]
        unfold Device.setChain
        split <;> rfl
      · rw [he]
        exact Device.headsGone_other (List.nodup_append.mp hnodup').1 hst
      · refine ⟨_, he ▸ hb', rfl, ?_, ?_, ?_, ?_, fun hused => ?_, rfl, fun hnone => ?_, fun before n later i v hsplit hb hi hf => ?_⟩
        · rcases hor with rfl | rfl <;> rfl
        · rcases hor with rfl | rfl <;> rfl
        · rcases hor with rfl | rfl <;> rfl
        · rcases hor with rfl | rfl <;> rfl
        · rw [hused, hchain, Device.chainUsed_filled fun n hn => (hgone' n hn).1]
          exact Nat.add_comm _ _
        · exact Device.chainOldest_none _ hnone
        · exact (congrArg (d.chainOldest · b.next) hsplit).trans (Device.chainOldest_first _ hb hi fun k t hk => hf k t hk)

end Sys2Proof.Machine
end

