-- ==== Sys2Proof/Proofs/Deleting.lean ====
section
/-! DELETE (R22, R23): a whole chain leaves its stream, and the stream's number is free. -/

namespace Sys2Proof.Machine

open Sys2Proof

-- One process elaborates the whole text: proofs taken in turn stay within its memory.
set_option Elab.async false

/-! ### A whole chain released (R14, R16) -/

theorem releaseSector_cases (x : Device × List Nat) (n : Nat) :
    (x.1.sector n).suspect = true ∧ x.1.badList.length < 32 ∧ releaseSector x n = (x.1.retire n, x.2 ++ [n]) ∨
    ((x.1.sector n).suspect = false ∨ 32 ≤ x.1.badList.length) ∧ releaseSector x n = (x.1.joinQueue n, x.2) := by
  unfold releaseSector
  cases hs : (x.1.sector n).suspect with
  | false => exact .inr ⟨.inl rfl, by simp⟩
  | true =>
    by_cases hroom : x.1.badList.length < 32
    · exact .inl ⟨rfl, hroom, if_pos (decide_eq_true hroom)⟩
    · exact .inr ⟨.inr (Nat.not_lt.mp hroom), if_neg fun h => hroom (of_decide_eq_true h)⟩

theorem releaseSector_unheld (x : Device × List Nat) (n : Nat) : x.1.unheld (releaseSector x n).1 := by
  rcases releaseSector_cases x n with ⟨-, -, h⟩ | ⟨-, h⟩ <;> rw [h]
  · exact x.1.retire_unheld n
  · exact fun st => .inl (by rw [Device.joinQueue_frame]; rfl)

theorem releaseSector_toldApart (x : Device × List Nat) (n : Nat) : x.1.toldApart (releaseSector x n).1 := by
  rcases releaseSector_cases x n with ⟨-, -, h⟩ | ⟨-, h⟩ <;> rw [h]
  · exact x.1.retire_toldApart n
  · exact (Device.toldApart.refl _).of_events (by rw [Device.joinQueue_frame])

/-- Both lists only grow, and the sector released is in one of them. -/
theorem releaseSector_lists (x : Device × List Nat) (n m : Nat)
    (h : m = n ∨ m ∈ x.1.eraseQueue ∨ m ∈ x.1.badList) :
    m ∈ (releaseSector x n).1.eraseQueue ∨ m ∈ (releaseSector x n).1.badList := by
  rcases releaseSector_cases x n with ⟨-, -, hr⟩ | ⟨-, hr⟩ <;> rw [hr]
  · obtain ⟨-, hbad, hqueue⟩ := x.1.retire_map n
    dsimp only
    rw [hbad, hqueue, (insertAscending_perm n _).mem_iff, List.mem_cons]
    tauto
  · have hqueue : (x.1.joinQueue n).eraseQueue = x.1.eraseQueue ++ [n] := rfl
    have hbad : (x.1.joinQueue n).badList = x.1.badList := by rw [Device.joinQueue_frame]
    dsimp only
    rw [hqueue, hbad, List.mem_append, List.mem_singleton]
    tauto

section Chain

variable (chain : List Nat)

theorem foldl_releaseSector_unheld (x : Device × List Nat) : x.1.unheld (chain.foldl releaseSector x).1 := by
  induction chain generalizing x with
  | nil => exact fun _ => .inl rfl
  | cons n rest ih => exact (releaseSector_unheld x n).trans (ih _)

theorem foldl_releaseSector_toldApart (x : Device × List Nat) : x.1.toldApart (chain.foldl releaseSector x).1 := by
  induction chain generalizing x with
  | nil => exact .refl _
  | cons n rest ih => exact (releaseSector_toldApart x n).trans (ih _)

theorem foldl_releaseSector_lists (x : Device × List Nat) (m : Nat)
    (h : m ∈ chain ∨ m ∈ x.1.eraseQueue ∨ m ∈ x.1.badList) :
    m ∈ (chain.foldl releaseSector x).1.eraseQueue ∨ m ∈ (chain.foldl releaseSector x).1.badList := by
  induction chain generalizing x with
  | nil => exact h.resolve_left List.not_mem_nil
  | cons n rest ih =>
    refine ih _ ?_
    rcases h with h | h
    · rcases List.mem_cons.mp h with rfl | h
      · exact .inr (releaseSector_lists x m m (.inl rfl))
      · exact .inl h
    · exact .inr (releaseSector_lists x n m (.inr h))

variable {chain}

/-- A chain without a suspect sector joins the erase queue head to tail (R14). -/
theorem foldl_releaseSector_unsuspect {x : Device × List Nat} (h : ∀ n ∈ chain, (x.1.sector n).suspect = false) :
    (chain.foldl releaseSector x).1 = chain.foldl Device.joinQueue x.1 ∧ (chain.foldl releaseSector x).2 = x.2 := by
  induction chain generalizing x with
  | nil => exact ⟨rfl, rfl⟩
  | cons n rest ih =>
    have hn : releaseSector x n = (x.1.joinQueue n, x.2) := by
      simp [releaseSector, h n List.mem_cons_self]
    rw [List.foldl_cons, List.foldl_cons, hn]
    refine ih (x := (x.1.joinQueue n, x.2)) fun m hm => ?_
    have hsector : (x.1.joinQueue n).sector m =
        (x.1.setSector n ((x.1.sector n).cleared .queued x.1.newestSerial)).sector m := rfl
    show ((x.1.joinQueue n).sector m).suspect = false
    rw [hsector]
    by_cases hmn : m = n
    · subst hmn
      by_cases hlt : m < 256
      · rw [Device.sector_setSector _ _ _ hlt]
        rfl
      · simp [Device.sector, hlt, Sector.blank]
    · rw [Device.sector_setSector_other _ _ _ _ hmn]
      exact h m (List.mem_cons_of_mem _ hm)

theorem foldl_joinQueue_spec (d : Device) :
    (chain.foldl Device.joinQueue d).eraseQueue = d.eraseQueue ++ chain ∧
    (chain.foldl Device.joinQueue d).badList = d.badList ∧ (chain.foldl Device.joinQueue d).writer = d.writer ∧
    ∀ n, n < 256 → (chain.foldl Device.joinQueue d).sector n =
      if n ∈ chain then (d.sector n).cleared .queued d.newestSerial else d.sector n := by
  induction chain generalizing d with
  | nil => exact ⟨(List.append_nil _).symm, rfl, rfl, fun n _ => by simp⟩
  | cons m rest ih =>
    have hframe := d.joinQueue_frame m
    obtain ⟨hqueue, hbad, hwriter, hsector⟩ := ih (d.joinQueue m)
    have hwriter' : (d.joinQueue m).writer = d.writer := by rw [hframe]
    rw [List.foldl_cons]
    refine ⟨?_, ?_, hwriter.trans hwriter', fun n hn => ?_⟩
    · rw [hqueue]
      exact List.append_assoc d.eraseQueue [m] rest
    · rw [hbad, hframe]
    · have hserial : (d.joinQueue m).newestSerial = d.newestSerial := by rw [Device.newestSerial, hwriter', Device.newestSerial]
      have hm : (d.joinQueue m).sector n = (d.setSector m ((d.sector m).cleared .queued d.newestSerial)).sector n := rfl
      rw [hsector n hn, hserial, hm, Device.sector_setSector_eq _ _ _ hn]
      by_cases hnm : n = m
      · subst hnm
        simp [Sector.cleared]
      · simp [hnm]

end Chain

/-- Staging an entry other than a CURSOR entry adds to the buffer at most. -/
theorem Device.stage_grows {e : MetaEntry} (h : e.sameCursor e = false) (d : Device) :
    ∃ more, (d.stage e).writer.staging = d.writer.staging ++ more := by
  obtain ⟨-, hhalts, hjoins⟩ := Device.stage_uncursored h d
  cases ht : d.writer.takesEntries with
  | false => exact ⟨[], by rw [Device.stage_discarded _ _ ht, List.append_nil]⟩
  | true =>
    rcases Nat.lt_or_ge d.writer.nextSerial 4294967295 with hlt | hle
    · exact ⟨_, by rw [hjoins ht hlt]; rfl⟩
    · exact ⟨[], by rw [hhalts ht hle, Device.haltWriter_writer, List.append_nil]; rfl⟩

theorem Device.stageRetires_grows (d : Device) (l : List Nat) :
    ∃ more, (d.stageAll (retireEntries l)).writer.staging = d.writer.staging ++ more := by
  unfold retireEntries
  generalize groupsOfEight l.length (ascending l) = groups
  induction groups generalizing d with
  | nil => exact ⟨[], (List.append_nil _).symm⟩
  | cons g groups ih =>
    obtain ⟨more, hmore⟩ := d.stage_grows (e := .retire g) rfl
    obtain ⟨rest, hrest⟩ := ih (d.stage (.retire g))
    exact ⟨more ++ rest, hrest.trans (by rw [hmore, List.append_assoc])⟩

theorem Device.dropCursors_cursor (d : Device) (st : Fin 16) (q : Port) : (d.dropCursors st).cursor st q = none := by
  cases q <;> simp [Device.dropCursors, Device.cursor, PerPort.all, PerPort.get]

theorem Device.emptyChain_eq {d : Device} {st : Fin 16} {b : StreamBody} (hs : d.stream st = some b) :
    d.emptyChain st = ((b.chain.foldl releaseSector (d, [])).1.setChain st [],
      (b.chain.foldl releaseSector (d, [])).2) := by
  rw [Device.emptyChain, hs]

/-! ### DELETE (R22, R23) -/

theorem Device.setChain_frame (d : Device) (st : Fin 16) (chain : List Nat) :
    d.setChain st chain = { d with streams := (d.setChain st chain).streams } := by
  unfold Device.setChain
  split <;> rfl

/-- The part of a DELETE before the stream's number is freed: STREAM_DROP staged, the chain released, the RETIRE entries
staged. -/
def Device.chainDropped (d : Device) (st : Fin 16) : Device :=
  ((d.stage (.streamDrop st (d.incarnation st))).emptyChain st).1.stageAll
    (retireEntries ((d.stage (.streamDrop st (d.incarnation st))).emptyChain st).2)

/-- The fields DELETE reports, of a stream no ballot holds. -/
structure Device.ChainDropped (d e : Device) (st : Fin 16) (b : StreamBody) : Prop where
  stream : ∃ b', e.stream st = some b' ∧ b'.readers = b.readers ∧ b'.writer = b.writer
  incarnation : e.incarnation st = d.incarnation st
  attached : ∀ q, (e.port q).attached = (d.port q).attached
  told : d.toldApart e
  lists : ∀ n ∈ b.chain, n ∈ e.eraseQueue ∨ n ∈ e.badList
  queue : (∀ n ∈ b.chain, (d.sector n).suspect = false) → e.eraseQueue = d.eraseQueue ++ b.chain ∧ e.badList = d.badList
  marks : (∀ n ∈ b.chain, (d.sector n).suspect = false) → d.writer.takesEntries = true →
    d.writer.nextSerial < 4294967295 → ∀ n ∈ b.chain, n < 256 →
      e.sector n = (d.sector n).cleared .queued d.writer.nextSerial
  staging : d.writer.takesEntries = true → d.writer.nextSerial < 4294967295 → ∃ more, e.writer.staging =
    d.writer.staging ++ ⟨d.writer.nextSerial, .streamDrop st (d.incarnation st), .opened⟩ :: more

theorem Device.chainDropped_spec {d : Device} {st : Fin 16} {b : StreamBody} (hs : d.stream st = some b)
    (hheld : b.ballotHeld = false) : d.ChainDropped (d.chainDropped st) st b := by
  obtain ⟨-, -, hjoins⟩ := Device.stage_uncursored (e := .streamDrop st (d.incarnation st)) rfl d
  have hjournals := (Device.Journals.refl d).stage (.streamDrop st (d.incarnation st))
  have htold := (Device.toldSince.refl d).stage (.streamDrop st (d.incarnation st))
  generalize hd1 : d.stage (.streamDrop st (d.incarnation st)) = d1 at hjoins hjournals htold
  have hs1 : d1.stream st = some b := hjournals.unheld_stream hs hheld
  have hchain := Device.emptyChain_eq hs1
  have hfrees := (Device.Frees.refl d1).foldl_releaseSector b.chain (x := (d1, []))
  have hunheld := foldl_releaseSector_unheld b.chain (d1, [])
  have hapart := foldl_releaseSector_toldApart b.chain (d1, [])
  have hlists := foldl_releaseSector_lists b.chain (d1, [])
  have hqueued := foldl_releaseSector_unsuspect (chain := b.chain) (x := (d1, []))
  generalize hd2 : (b.chain.foldl releaseSector (d1, [])).1 = d2 at hchain hfrees hunheld hapart hlists hqueued
  generalize hretired : (b.chain.foldl releaseSector (d1, [])).2 = retired at hchain
  have hd4 : d.chainDropped st = (d2.setChain st []).stageAll (retireEntries retired) := by
    rw [Device.chainDropped, hd1, hchain]
  have hframe := d2.setChain_frame st []
  have hlast := (Device.Journals.refl (d2.setChain st [])).stageAll (retireEntries retired)
  have htold' := (Device.toldSince.refl (d2.setChain st [])).stageAll (retireEntries retired)
  obtain ⟨more, hmore⟩ := (d2.setChain st []).stageRetires_grows retired
  rw [← hd4] at hlast htold' hmore
  obtain ⟨b2, hs2, hb2⟩ : ∃ b2, d2.stream st = some b2 ∧ (b2 = b ∨ b2 = b.apart) := by
    rcases hunheld st with h | h <;> rw [h, hs1]
    exacts [⟨b, rfl, .inl rfl⟩, ⟨b.apart, rfl, .inr rfl⟩]
  have hqueue4 : (d.chainDropped st).eraseQueue = d2.eraseQueue := hlast.eraseQueue.trans (by rw [hframe])
  have hbad4 : (d.chainDropped st).badList = d2.badList := hlast.badList.trans (by rw [hframe])
  have hspec (hclean : ∀ n ∈ b.chain, (d.sector n).suspect = false) := by
    have hq := hqueued fun n hn => by rw [hjournals.sector]; exact hclean n hn
    have := foldl_joinQueue_spec (chain := b.chain) d1
    rwa [← hq.1] at this
  refine ⟨?_, ?_, fun q => ?_, ?_, fun n hn => ?_, fun hclean => ?_, fun hclean ht hlt n hn hn' => ?_, fun ht hlt => ?_⟩
  · obtain ⟨b4, hs4, hb4⟩ := hlast.some_stream (Device.setChain_self hs2 [])
    refine ⟨b4, hs4, ?_, ?_⟩
    all_goals
      rcases hb4 with rfl | rfl <;> rcases hb2 with rfl | rfl <;> rfl
  · rw [hlast.incarnation, ← hjournals.incarnation, ← hfrees.incarnation]
    unfold Device.setChain
    split
    · rfl
    · exact Device.incarnation_setBody _ _ _ _
  · rw [(hlast.port q).2, ← (hjournals.port q).2, Device.port, hframe]
    exact congrArg HostPort.attached (congrArg (PerPort.get · q) hfrees.ports)
  · exact (htold.apart.trans hapart).trans
      (((Device.toldApart.refl d2).of_events (c := d2.setChain st []) (by rw [hframe])).trans htold'.apart)
  · rw [hqueue4, hbad4]
    exact hlists n (.inl hn)
  · obtain ⟨hqueue, hbad, -, -⟩ := hspec hclean
    rw [hqueue4, hbad4, hqueue, hbad, hjournals.eraseQueue, hjournals.badList]
    exact ⟨rfl, rfl⟩
  · obtain ⟨-, -, -, hsector⟩ := hspec hclean
    have hserial : d1.newestSerial = d.writer.nextSerial := by
      rw [hjoins ht hlt]
      rfl
    rw [hlast.sector, Device.sector_congr (d := d2) (by rw [hframe]), hsector n hn', if_pos hn, hjournals.sector, hserial]
  · have hwriter : (d2.setChain st []).writer = d1.writer := by
      rw [hframe]
      exact hfrees.writer
    refine ⟨more, hmore.trans ?_⟩
    rw [hwriter, hjoins ht hlt]
    exact List.append_assoc _ _ _

/-- The rest of a DELETE: no cursor left, STREAM_GONE, the number FREE (R23). -/
def Device.numberFreed (e : Device) (st : Fin 16) (b : StreamBody) : Device :=
  ((e.dropCursors st).offerSet (b.readers.set b.writer false) ⟨.streamGone, some st.val, none⟩).setBody st none

theorem Device.numberFreed_frame (e : Device) (st : Fin 16) (b : StreamBody) : e.numberFreed st b = { e with
    streams := (e.numberFreed st b).streams, cursors := (e.numberFreed st b).cursors
    events := (e.numberFreed st b).events } := by
  unfold Device.numberFreed
  rw [Device.offerSet_frame]
  rfl

/-- STREAM_GONE goes to the attached readers but the writer (R23). -/
theorem Device.numberFreed_events (e : Device) (st : Fin 16) (b : StreamBody) (q : Port) :
    (e.numberFreed st b).events.get q = if (q ≠ b.writer ∧ b.readers.get q = true) ∧ (e.port q).attached = true then
      (e.events.get q).offer ⟨.streamGone, some st.val, none⟩ else e.events.get q := by
  have hset : (b.readers.set b.writer false).get q = true ↔ q ≠ b.writer ∧ b.readers.get q = true := by
    rw [PerPort.get_set]
    split <;> simp_all
  have hoffer := Device.offerSet_events (e.dropCursors st) (b.readers.set b.writer false) q ⟨.streamGone, some st.val, none⟩
  simp only [hset] at hoffer
  exact hoffer

theorem Device.numberFreed_tables (e : Device) (st : Fin 16) (b : StreamBody) : (e.numberFreed st b).stream st = none ∧
    (e.numberFreed st b).incarnation st = e.incarnation st ∧ ∀ q, (e.numberFreed st b).cursor st q = none := by
  unfold Device.numberFreed
  refine ⟨Device.stream_setBody _ _ _, ?_, fun q => ?_⟩
  · rw [Device.incarnation_setBody, Device.offerSet_frame]
    rfl
  · rw [Device.offerSet_frame]
    exact Device.dropCursors_cursor _ _ _

theorem Device.deleteStream_eq {d : Device} {st : Fin 16} {b : StreamBody} (hs : d.stream st = some b) :
    d.deleteStream st = (d.chainDropped st).numberFreed st b := by
  rw [Device.deleteStream, hs]
  rfl

/-- DELETE's check of the cursors (R22). -/
theorem Device.allAcknowledged_iff (d : Device) (st : Fin 16) (next : Nat) :
    d.allAcknowledged st next = true ↔ ∀ q c, d.cursor st q = some c → c.committed = next := by
  unfold Device.allAcknowledged
  rw [List.all_eq_true]
  constructor
  · intro h q c hc
    have := h q (by cases q <;> simp [portList])
    rw [hc] at this
    exact beq_iff_eq.mp this
  · intro h q _
    cases hc : d.cursor st q with
    | none => rfl
    | some c => exact beq_iff_eq.mpr (h q c hc)

/-- A CONFIGURE or DELETE of a stream's writer passes its checks unless a ballot holds the stream (R20, R22). -/
theorem Device.ownerCheck_writer {d : Device} {p : Port} {st : Fin 16} {b : StreamBody} (h : d.writerOf p st b)
    (r : Request) (rest : List Byte) : (d.received p r).ownerCheck p (streamByte st :: rest) =
      if b.ballotHeld then .error .ballotBusy else .ok (st, b) := by
  obtain ⟨⟨hm, ha⟩, hs, hw⟩ := h
  have hadmit : (d.received p r).admission p (writeMode (d.received p r).mode) = none := by
    rw [Device.received_admission, Device.received_mode, hm]
    exact Device.admission_none ha
  rw [Device.ownerCheck, hadmit, Device.received_namedStream, Device.namedStream_of hs]
  exact if_neg (not_not.mpr hw)

/-- Settles O25. -/
theorem deleteFreesTheNumber : Obligations.DeleteFreesTheNumber := by
  intro s p tag st b h hw
  have hb : bodyFits [streamByte st] = true := rfl
  have hl : lengthGood .delete [streamByte st] = true := rfl
  obtain ⟨⟨hm, ha⟩, hs, hwriter⟩ := id hw
  have hcheck := Device.ownerCheck_writer hw (.known tag .delete [streamByte st]) []
  refine ⟨fun hheld => ?_, fun hheld hback => ?_, fun hheld hall hoff => ?_⟩
  · refine exec_command_only_answers h .delete tag _ .ballotBusy [] hb hl ?_
    show Device.takeDelete _ _ _ = _
    rw [Device.takeDelete, hcheck, hheld]
    rfl
  · refine exec_command_only_answers h .delete tag _ .backlog [] hb hl ?_
    have hnot : (s.dev.received p (.known tag .delete [streamByte st])).allAcknowledged st b.next = false := by
      rw [Bool.eq_false_iff]
      intro hyes
      obtain ⟨q, c, hc, hne⟩ := hback
      exact hne ((Device.allAcknowledged_iff _ _ _).mp hyes q c hc)
    show Device.takeDelete _ _ _ = _
    rw [Device.takeDelete, hcheck, hheld]
    exact if_pos (by rw [hnot]; rfl)
  · intro d done
    have hyes : d.allAcknowledged st b.next = true := (Device.allAcknowledged_iff _ _ _).mpr hall
    have hrule : d.takeDelete p [streamByte st] = d.withPlaces p (fun d => d.deleteStream st)
        fun d => d.awaitDurable p .none d.newestSerial := by
      rw [Device.takeDelete, hcheck, hheld]
      exact if_neg (by rw [hyes]; decide)
    obtain ⟨hdoes, hwaits⟩ := exec_command_places h hoff (k := .delete) hb hl hrule
    have hspec := Device.chainDropped_spec (d := d) hs hheld
    generalize hdropped : d.chainDropped st = e at hspec
    have hdone : done = e.numberFreed st b := hdropped ▸ Device.deleteStream_eq (d := d) hs
    obtain ⟨hnone, hinc, hcursors⟩ := e.numberFreed_tables st b
    have hframe := e.numberFreed_frame st b
    have hattached (q : Port) : (e.port q).attached = (s.dev.port q).attached :=
      (hspec.attached q).trans (Device.received_attached _ _ _ q)
    rw [hdone]
    refine ⟨hnone, hinc.trans hspec.incarnation, hcursors, fun ht hlt => ?_, fun n hn => ?_,
      fun hclean => ⟨?_, ?_, fun ht hlt n hn hn' => ?_⟩, fun q hr hq hat => ?_, fun q hor hmem => ?_, hdone ▸ hdoes, hwaits⟩
    · obtain ⟨more, hmore⟩ := hspec.staging ht hlt
      refine ⟨more, ?_⟩
      rw [hframe]
      exact hmore
    · rw [hframe]
      exact hspec.lists n hn
    · rw [hframe]
      exact (hspec.queue hclean).1
    · rw [hframe]
      exact (hspec.queue hclean).2
    · exact (Device.sector_congr (by rw [hframe]) n).trans (hspec.marks hclean ht hlt n hn hn')
    · have htold := e.numberFreed_events st b q
      rw [if_pos ⟨⟨hwriter ▸ hq, hr⟩, (hattached q).trans hat⟩] at htold
      exact htold ▸ EventUnit.offer_tells _ _
    · have htold := e.numberFreed_events st b q
      rw [if_neg] at htold
      · exact (hspec.told q ⟨.streamGone, some st.val, none⟩ nofun nofun nofun).2 (htold ▸ hmem)
      · rintro ⟨⟨hne, hr⟩, -⟩
        rcases hor with hor | hor
        · rw [hor] at hr
          cases hr
        · exact hne (hor.trans hwriter.symm)

end Sys2Proof.Machine
end

