-- ==== Sys2Proof/Proofs/Configuring.lean ====
section
/-! CONFIGURE (R20, R21): its arguments, the readers changed, and the entries it stages. -/

namespace Sys2Proof.Machine

open Sys2Proof

-- One process elaborates the whole text: proofs taken in turn stay within its memory.
set_option Elab.async false

/-! ### Arguments (R20, R163) -/

theorem configureArgs_eq (st readers policy quota hi lo held : Byte) (chain : Nat) :
    configureArgs [st, readers, policy, quota, hi, lo, held] chain =
      (portSetOfCode readers.toNat).bind fun set => (policyOfCode policy.toNat).bind fun kept =>
        (flagOfCode held.toNat).bind fun flag =>
          if definitionValid kept quota.toNat (hi.toNat * 256 + lo.toNat) = true ∧ chain ≤ quota.toNat then
            some ⟨set, kept, quota.toNat, hi.toNat * 256 + lo.toNat, flag⟩
          else none := by
  have hreaders : byteAt [st, readers, policy, quota, hi, lo, held] 1 = readers := rfl
  have hpolicy : byteAt [st, readers, policy, quota, hi, lo, held] 2 = policy := rfl
  have hheld : byteAt [st, readers, policy, quota, hi, lo, held] 6 = held := rfl
  have hquota : byteAt [st, readers, policy, quota, hi, lo, held] 3 = quota := rfl
  have hmargin : fieldAt [st, readers, policy, quota, hi, lo, held] 4 2 = hi.toNat * 256 + lo.toNat := fieldAt_pair hi lo
  unfold configureArgs
  rw [hreaders, hpolicy, hheld, hquota, hmargin]
  cases portSetOfCode readers.toNat with
  | none => rfl
  | some set =>
    cases policyOfCode policy.toNat with
    | none => rfl
    | some kept => cases flagOfCode held.toNat <;> simp

theorem flagOfCode_none_iff (n : Nat) : flagOfCode n = none ↔ 1 < n := by
  rcases flagOfCode_cases n with ⟨rfl, h⟩ | ⟨rfl, h⟩ | ⟨hn, h⟩ <;> rw [h]
  · simp
  · simp
  · simp [hn]

/-- CONFIGURE's arguments are refused exactly where R20 says. -/
theorem configureArgs_none (st readers policy quota hi lo held : Byte) (chain : Nat) :
    configureArgs [st, readers, policy, quota, hi, lo, held] chain = none ↔
      (∀ kept set, policyOfCode policy.toNat = some kept → portSetOfCode readers.toNat = some set →
        definitionValid kept quota.toNat (hi.toNat * 256 + lo.toNat) = false) ∨
      1 < held.toNat ∨ quota.toNat < chain := by
  rw [configureArgs_eq, ← flagOfCode_none_iff]
  cases portSetOfCode readers.toNat with
  | none => simp
  | some set =>
    cases policyOfCode policy.toNat with
    | none => simp
    | some kept =>
      cases flagOfCode held.toNat with
      | none => simp
      | some flag =>
        cases hv : definitionValid kept quota.toNat (hi.toNat * 256 + lo.toNat) <;> simp [hv]

/-! ### Entries staged one after another (R104, R106) -/

/-- Entries that leave the cursors' records as they are leave the cursors through their staging (R117). -/
theorem Device.stage_cursors {d : Device} {e : MetaEntry}
    (h : ∀ d' : Device, d'.cursors = d.cursors → (d'.recordEntry e).cursors = d.cursors) : (d.stage e).cursors = d.cursors := by
  rcases d.stage_cases e with ⟨-, heq⟩ | ⟨-, l, -, heq⟩ | ⟨-, -, -, heq⟩ | ⟨-, -, -, heq⟩ <;> rw [heq]
  · exact h _ rfl
  · exact Device.haltWriter_cursors d
  · exact h _ rfl

theorem Device.stageAll_cursors {d : Device} {es : List MetaEntry}
    (h : ∀ e ∈ es, ∀ d' : Device, d'.cursors = d.cursors → (d'.recordEntry e).cursors = d.cursors) :
    (d.stageAll es).cursors = d.cursors := by
  induction es generalizing d with
  | nil => rfl
  | cons e es ih =>
    have he := Device.stage_cursors (h e List.mem_cons_self)
    have hrest := ih (d := d.stage e) fun x hx d' hd' => by
      rw [he] at hd' ⊢
      exact h x (List.mem_cons_of_mem _ hx) d' hd'
    exact hrest.trans he

theorem Device.recordEntry_recorded {d : Device} {st : Fin 16} {p : Port} {c : Cursor} (hc : d.cursor st p = some c)
    (inc : Byte) : d.recordEntry (.cursor st inc p c.recCommitted c.recLost) = d := by
  simp only [Device.recordEntry, hc]
  exact Device.setCursor_cursor hc

theorem Device.reclaimStaged_cursors (d : Device) (st : Fin 16) : (d.reclaimStaged st).cursors = d.cursors := by
  refine (Device.stageAll_cursors fun e he d' hd' => ?_).trans ((Device.Frees.refl d).reclaim st).cursors
  obtain ⟨g, -, rfl⟩ := List.mem_map.mp he
  rw [Device.recordEntry_uncursored rfl]
  exact hd'

/-- Entries added at the end of the buffer take serials in order. -/
theorem Writer.addEntries (w : Writer) (es : List MetaEntry) :
    (es.foldl Writer.addEntry w).staging = w.staging ++ es.mapIdx (fun i e => ⟨w.nextSerial + i, e, .opened⟩) ∧
      (es.foldl Writer.addEntry w).nextSerial = w.nextSerial + es.length ∧
      (es.foldl Writer.addEntry w).takesEntries = w.takesEntries := by
  induction es generalizing w with
  | nil => exact ⟨(List.append_nil _).symm, rfl, rfl⟩
  | cons e es ih =>
    obtain ⟨hstaging, hserial, htakes⟩ := ih (w.addEntry e)
    refine ⟨?_, ?_, htakes⟩
    · rw [List.foldl_cons, hstaging, List.mapIdx_cons]
      have hnext : (w.addEntry e).nextSerial = w.nextSerial + 1 := rfl
      have hold : (w.addEntry e).staging = w.staging ++ [⟨w.nextSerial, e, .opened⟩] := rfl
      rw [hold, hnext, List.append_assoc]
      simp only [Nat.add_assoc, Nat.add_comm 1, List.singleton_append, Nat.add_zero]
    · rw [List.foldl_cons, hserial, List.length_cons]
      show w.nextSerial + 1 + es.length = _
      omega

/-- No entry of a cursor is replaced behind a definition of its stream (R106). -/
theorem replaceEntry_defined {st : Fin 16} {inc : Byte} {p : Port} {committed lost : Nat} {old newer : List Staged} {y : Staged}
    (hy : y.entry.definesStream st = true)
    (hnew : ∀ z ∈ newer, z.entry.sameCursor (.cursor st inc p committed lost) = false) :
    replaceEntry (.cursor st inc p committed lost) (old ++ y :: newer) = none := by
  have hydiff : y.entry.sameCursor (.cursor st inc p committed lost) = false := by
    cases he : y.entry with
    | cursor => rw [he] at hy; cases hy
    | _ => rfl
  refine replaceEntry_none fun before x later hl hopen hsame => ?_
  rw [overtaken_of_sameCursor hsame]
  refine List.any_eq_true.mpr ⟨y, ?_, hy⟩
  have hlast (hx : x ∈ y :: newer) : y ∈ later := by
    rcases List.mem_cons.mp hx with rfl | hx
    · rw [hydiff] at hsame
      cases hsame
    · rw [hnew x hx] at hsame
      cases hsame
  rcases List.append_eq_append_iff.mp hl with ⟨mid, -, hmid⟩ | ⟨mid, -, hmid⟩
  · exact hlast (hmid ▸ List.mem_append_right _ List.mem_cons_self)
  · cases mid with
    | nil =>
      rw [List.nil_append] at hmid
      exact hlast (hmid ▸ List.mem_cons_self)
    | cons z mid =>
      rw [List.cons_append] at hmid
      exact (List.cons.inj hmid).2 ▸ List.mem_append_right _ List.mem_cons_self

/-- CURSOR entries of readers just added, behind the definition that adds them: each takes a place of its own, and their
cursors hold what they record (R21, R106). -/
theorem Device.stageAll_added {st : Fin 16} {inc : Byte} {next : Nat} {ps : List Port} (hps : ps.Nodup) {d : Device}
    {old newer : List Staged} {y : Staged} (hlist : d.writer.staging = old ++ y :: newer)
    (hy : y.entry.definesStream st = true)
    (hnew : ∀ q ∈ ps, ∀ z ∈ newer, z.entry.sameCursor (.cursor st inc q next 0) = false)
    (hcur : ∀ q ∈ ps, d.cursor st q = some (Cursor.fresh next)) (ht : d.writer.takesEntries = true)
    (hserial : d.writer.nextSerial + ps.length ≤ 4294967295) :
    d.stageAll (ps.map fun q => .cursor st inc q next 0) =
      { d with writer := (ps.map fun q => MetaEntry.cursor st inc q next 0).foldl Writer.addEntry d.writer } := by
  induction ps generalizing d newer with
  | nil => rfl
  | cons q ps ih =>
    rw [List.length_cons] at hserial
    have hnone : replaceEntry (.cursor st inc q next 0) d.writer.staging = none :=
      hlist ▸ replaceEntry_defined hy (hnew q List.mem_cons_self)
    have hlt : ¬ Config.erasedSerial ≤ d.writer.nextSerial := fun h => by
      have : 4294967295 ≤ d.writer.nextSerial := h
      omega
    have hstage : d.stage (.cursor st inc q next 0) = { d with writer := d.writer.addEntry (.cursor st inc q next 0) } := by
      have hrec := Device.recordEntry_recorded (d := { d with writer := d.writer.addEntry (.cursor st inc q next 0) })
        (hcur q List.mem_cons_self) inc
      have h : d.stage (.cursor st inc q next 0) =
          ({ d with writer := d.writer.addEntry (.cursor st inc q next 0) } : Device).recordEntry
            (.cursor st inc q next 0) := by
        simp [Device.stage, ht, hnone, hlt]
      exact h.trans hrec
    have hrest := ih (List.nodup_cons.mp hps).2 (d := d.stage (.cursor st inc q next 0))
      (newer := newer ++ [⟨d.writer.nextSerial, .cursor st inc q next 0, .opened⟩]) (by
        rw [hstage]
        show d.writer.staging ++ _ = _
        rw [hlist, List.append_assoc]
        rfl)
      (fun q' hq' z hz => by
        rcases List.mem_append.mp hz with hz | hz
        · exact hnew q' (List.mem_cons_of_mem _ hq') z hz
        · have hne : q ≠ q' := fun e => (List.nodup_cons.mp hps).1 (e ▸ hq')
          rw [List.mem_singleton.mp hz]
          simp [MetaEntry.sameCursor, hne])
      (fun q' hq' => by
        rw [hstage]
        exact hcur q' (List.mem_cons_of_mem _ hq'))
      (by
        rw [hstage]
        exact ht)
      (by
        rw [hstage]
        show d.writer.nextSerial + 1 + ps.length ≤ _
        omega)
    refine Eq.trans (b := (d.stage (.cursor st inc q next 0)).stageAll (ps.map fun q => .cursor st inc q next 0)) rfl ?_
    rw [hrest, hstage]
    rfl

/-! ### CONFIGURE's changes (R21) -/

/-- The definition replaced and the cursors created and discarded, before any entry (R21, steps 1 to 3). -/
def Device.redefined (d : Device) (st : Fin 16) (b : StreamBody) (a : ConfigureArgs) : Device :=
  (((d.setBody st (some { b with
    policy := a.policy, quota := a.quota, margin := a.margin, readers := a.readers, held := a.held })).changeReader st
      b.readers a.readers b.next .A).changeReader st b.readers a.readers b.next .B).changeReader st b.readers a.readers
        b.next .C

/-- The readers a CONFIGURE adds. -/
def ConfigureArgs.added (a : ConfigureArgs) (b : StreamBody) : List Port :=
  portList.filter fun q => a.readers.get q && !b.readers.get q

/-- The entries of a CONFIGURE: the definition, then the added readers' cursors (R21, step 4). -/
def ConfigureArgs.entries (a : ConfigureArgs) (b : StreamBody) (st : Fin 16) (inc : Byte) : List MetaEntry :=
  .streamDef st inc b.writer a.readers a.held a.policy b.nameTag a.quota a.margin b.next ::
    (a.added b).map fun q => .cursor st inc q b.next 0

theorem Device.changeReader_frame (d : Device) (st : Fin 16) (old new : PortSet) (next : Nat) (q : Port) :
    d.changeReader st old new next q = { d with cursors := (d.changeReader st old new next q).cursors } := by
  unfold Device.changeReader
  split <;> rfl

theorem Device.changeReader_cursor (d : Device) (st : Fin 16) (old new : PortSet) (next : Nat) (q p : Port) :
    (d.changeReader st old new next q).cursor st p =
      if p = q ∧ old.get q = false ∧ new.get q = true then some (Cursor.fresh next)
      else if p = q ∧ old.get q = true ∧ new.get q = false then none else d.cursor st p := by
  unfold Device.changeReader
  by_cases hp : p = q
  · subst hp
    cases old.get p <;> cases new.get p <;> simp
  · have hother (c : Option Cursor) := Device.cursor_setCursor_other d st st q p c (.inr hp)
    cases old.get q <;> cases new.get q <;> simp [hp, hother]

theorem Device.redefined_frame (d : Device) (st : Fin 16) (b : StreamBody) (a : ConfigureArgs) :
    d.redefined st b a = { d.setBody st (some { b with
      policy := a.policy, quota := a.quota, margin := a.margin, readers := a.readers, held := a.held }) with
        cursors := (d.redefined st b a).cursors } := by
  unfold Device.redefined
  rw [Device.changeReader_frame _ st _ _ _ .C, Device.changeReader_frame _ st _ _ _ .B,
    Device.changeReader_frame _ st _ _ _ .A]

theorem Device.redefined_cursor (d : Device) (st : Fin 16) (b : StreamBody) (a : ConfigureArgs) (q : Port) :
    (d.redefined st b a).cursor st q =
      if b.readers.get q = false ∧ a.readers.get q = true then some (Cursor.fresh b.next)
      else if b.readers.get q = true ∧ a.readers.get q = false then none else d.cursor st q := by
  unfold Device.redefined
  rw [Device.changeReader_cursor, Device.changeReader_cursor, Device.changeReader_cursor]
  cases q <;> simp <;> rfl

/-- The added readers' entries staged port after port are one list of them (R21, step 4; log 9). -/
theorem Device.stageAdded_all (st : Fin 16) (old new : PortSet) (next : Nat) (ps : List Port) (d : Device) :
    ps.foldl (fun e q => e.stageAdded st old new next q) d =
      d.stageAll ((ps.filter fun q => new.get q && !old.get q).map fun q => .cursor st (d.incarnation st) q next 0) := by
  induction ps generalizing d with
  | nil => rfl
  | cons q ps ih =>
    rw [List.foldl_cons, ih, List.filter_cons]
    unfold Device.stageAdded
    split
    · have hinc := ((Device.Journals.refl d).stage (.cursor st (d.incarnation st) q next 0)).incarnation st
      rw [hinc]
      rfl
    · rfl

/-- CONFIGURE's changes: the definition replaced, its entries staged in order, the high flag and the reclaim (R21). -/
theorem Device.configureStream_eq {d : Device} {st : Fin 16} {b : StreamBody} (hs : d.stream st = some b)
    (a : ConfigureArgs) : d.configureStream st a =
      (((d.redefined st b a).stageAll (a.entries b st (d.incarnation st))).evalHigh st).reclaimStaged st := by
  have hinc : (d.redefined st b a).incarnation st = d.incarnation st := by
    rw [Device.redefined_frame]
    exact Device.incarnation_setBody _ _ _ _
  have hstream : (d.redefined st b a).stream st = some { b with
      policy := a.policy, quota := a.quota, margin := a.margin, readers := a.readers, held := a.held } := by
    rw [Device.redefined_frame]
    exact Device.stream_setBody _ _ _
  have hdef : (d.redefined st b a).stageDefinition st = (d.redefined st b a).stage (.streamDef st (d.incarnation st)
      b.writer a.readers a.held a.policy b.nameTag a.quota a.margin b.next) := by
    rw [Device.stageDefinition, hstream, hinc]
    rfl
  have hkeeps := ((Device.Journals.refl (d.redefined st b a)).stageDefinition st).incarnation st
  have hall := Device.stageAdded_all st b.readers a.readers b.next portList ((d.redefined st b a).stageDefinition st)
  rw [hkeeps, hinc, hdef] at hall
  have hconfigure : d.configureStream st a = ((portList.foldl (fun e q => e.stageAdded st b.readers a.readers b.next q)
      ((d.redefined st b a).stageDefinition st)).evalHigh st).reclaimStaged st := by
    rw [Device.configureStream, hs]
    rfl
  rw [hconfigure, hdef, hall]
  rfl

theorem ConfigureArgs.mem_added {a : ConfigureArgs} {b : StreamBody} {q : Port} :
    q ∈ a.added b ↔ b.readers.get q = false ∧ a.readers.get q = true := by
  have hq : q ∈ portList := by cases q <;> simp [portList]
  simp [ConfigureArgs.added, hq, and_comm]

theorem Device.redefined_added {d : Device} {st : Fin 16} {b : StreamBody} {a : ConfigureArgs} {q : Port}
    (h : q ∈ a.added b) : (d.redefined st b a).cursor st q = some (Cursor.fresh b.next) := by
  rw [Device.redefined_cursor, if_pos (ConfigureArgs.mem_added.mp h)]

/-- CONFIGURE's entries leave the cursors as they were set (R117). -/
theorem Device.redefined_staged_cursors (d : Device) (st : Fin 16) (b : StreamBody) (a : ConfigureArgs) (inc : Byte) :
    ((d.redefined st b a).stageAll (a.entries b st inc)).cursors = (d.redefined st b a).cursors := by
  refine Device.stageAll_cursors fun e he d' hd' => ?_
  rcases List.mem_cons.mp he with rfl | he
  · exact hd'
  · obtain ⟨q, hq, rfl⟩ := List.mem_map.mp he
    have hc : d'.cursor st q = some (Cursor.fresh b.next) := by
      rw [Device.cursor, hd']
      exact Device.redefined_added hq
    exact (congrArg Device.cursors (Device.recordEntry_recorded hc inc)).trans hd'

/-- With serials left for all of them, CONFIGURE's entries take places at the end of the buffer, or a writer that takes
none discards them (R104). -/
theorem Device.redefined_staged {d : Device} {st : Fin 16} {b : StreamBody} {a : ConfigureArgs} (inc : Byte)
    (hlt : d.writer.nextSerial + (a.added b).length < 4294967295) :
    ∃ w, (d.redefined st b a).stageAll (a.entries b st inc) = { d.redefined st b a with writer := w } ∧
      (d.writer.takesEntries = true → w.staging = d.writer.staging ++
        (a.entries b st inc).mapIdx fun i e => ⟨d.writer.nextSerial + i, e, .opened⟩) := by
  have hwriter : (d.redefined st b a).writer = d.writer := by
    rw [Device.redefined_frame]
    rfl
  cases ht : d.writer.takesEntries with
  | false => exact ⟨_, Device.stageAll_discarded (hwriter ▸ ht) _, nofun⟩
  | true =>
    obtain ⟨-, -, hjoins⟩ := Device.stage_uncursored (e := .streamDef st inc b.writer a.readers a.held a.policy b.nameTag
      a.quota a.margin b.next) rfl (d.redefined st b a)
    rw [hwriter] at hjoins
    have hfirst := hjoins ht (by omega)
    have hadded := Device.stageAll_added (inc := inc) (next := b.next)
      (ps := a.added b) (List.Nodup.filter _ (by decide))
      (d := { d.redefined st b a with writer := d.writer.addEntry (.streamDef st inc b.writer a.readers a.held a.policy
        b.nameTag a.quota a.margin b.next) }) (newer := []) (st := st) rfl (by simp [MetaEntry.definesStream]) nofun
      (fun q hq => Device.redefined_added (d := d) hq) ht (by
        show d.writer.nextSerial + 1 + _ ≤ _
        omega)
    refine ⟨(a.entries b st inc).foldl Writer.addEntry d.writer, ?_, fun _ => (d.writer.addEntries _).1⟩
    refine Eq.trans (b := ((d.redefined st b a).stage (.streamDef st inc b.writer a.readers a.held a.policy b.nameTag a.quota
      a.margin b.next)).stageAll ((a.added b).map fun q => .cursor st inc q b.next 0)) rfl ?_
    rw [hfirst, hadded]
    rfl

/-- A reclaim keeps a stream's definition and its next sequence (R24). -/
theorem Device.reclaimStaged_stream {d : Device} (st : Fin 16) {st' : Fin 16} {x : StreamBody} (hs : d.stream st' = some x) :
    ∃ y, (d.reclaimStaged st).stream st' = some y ∧ y.plan = x.plan := by
  obtain ⟨y, hy, hplan⟩ := ((Device.Frees.refl d).reclaim st).some_stream hs
  obtain ⟨z, hz, hzy⟩ := ((Device.Journals.refl (d.reclaim st).1).stageAll (retireEntries (d.reclaim st).2)).some_stream hy
  refine ⟨z, hz, ?_⟩
  rcases hzy with rfl | rfl
  exacts [hplan, hplan]

theorem Device.reclaimStaged_incarnation (d : Device) (st st' : Fin 16) :
    (d.reclaimStaged st).incarnation st' = d.incarnation st' :=
  (((Device.Journals.refl (d.reclaim st).1).stageAll (retireEntries (d.reclaim st).2)).incarnation st').trans
    (((Device.Frees.refl d).reclaim st).incarnation st')

/-- Whom an offer reaches is a matter of the ports and the event units alone. -/
theorem Device.offer_events_congr {d e : Device} (hp : e.ports = d.ports) (he : e.events = d.events) (p : Port) (x : Event) :
    (e.offer p x).events = (d.offer p x).events := by
  refine PerPort.ext_get fun q => ?_
  rw [Device.offer_events, Device.offer_events, he, Device.port, hp]
  rfl

/-- The tables after a CONFIGURE (R21). -/
theorem Device.configureStream_tables {d : Device} {st : Fin 16} {b : StreamBody} (hs : d.stream st = some b)
    (a : ConfigureArgs) : (d.configureStream st a).incarnation st = d.incarnation st ∧
      (d.configureStream st a).cursors = (d.redefined st b a).cursors ∧
      ∃ y, (d.configureStream st a).stream st = some y ∧ y.plan = StreamBody.plan { b with
        policy := a.policy, quota := a.quota, margin := a.margin, readers := a.readers, held := a.held } := by
  have hstream : (d.redefined st b a).stream st = some { b with
      policy := a.policy, quota := a.quota, margin := a.margin, readers := a.readers, held := a.held } := by
    rw [Device.redefined_frame]
    exact Device.stream_setBody _ _ _
  have hinc : (d.redefined st b a).incarnation st = d.incarnation st := by
    rw [Device.redefined_frame]
    exact Device.incarnation_setBody _ _ _ _
  have hjournals := (Device.Journals.refl (d.redefined st b a)).stageAll (a.entries b st (d.incarnation st))
  obtain ⟨y, hy, hor⟩ := hjournals.some_stream hstream
  obtain ⟨z, hz, hplan⟩ := Device.reclaimStaged_stream st (highFlagFollowsTheRoom _ st _ hy).1
  rw [Device.configureStream_eq hs]
  refine ⟨?_, ?_, z, hz, hplan.trans ?_⟩
  · rw [Device.reclaimStaged_incarnation, Device.evalHigh_incarnation, hjournals.incarnation, hinc]
  · rw [Device.reclaimStaged_cursors, Device.evalHigh_cursors, Device.redefined_staged_cursors]
  · rcases hor with rfl | rfl <;> rfl

/-- Settles O24. -/
theorem configureReplacesTheDefinition : Obligations.ConfigureReplacesTheDefinition := by
  refine ⟨fun st readers policy quota hi lo held chain => ?_, fun st readers policy quota hi lo held chain a ha => ?_,
    fun s p tag st b rest h hw hlen => ?_⟩
  · rw [configureArgs_none, definitionRefused_iff]
    simp only [or_assoc]
  · rw [configureArgs_eq] at ha
    obtain ⟨set, hset, ha⟩ := Option.bind_eq_some_iff.mp ha
    obtain ⟨kept, hkept, ha⟩ := Option.bind_eq_some_iff.mp ha
    obtain ⟨flag, hflag, ha⟩ := Option.bind_eq_some_iff.mp ha
    split at ha
    · cases ha
      exact ⟨rfl, rfl, flagOfCode_true hflag, policyOfCode_drop hkept, portSetOfCode_bits hset⟩
    · cases ha
  · intro body
    have hb : bodyFits body = true := by simp [bodyFits, body, hlen]
    have hl : lengthGood .configure body = true := by simp [lengthGood, Kind.bodyLength, body, hlen]
    obtain ⟨⟨hm, ha⟩, hs, hwriter⟩ := id hw
    have hcheck := Device.ownerCheck_writer hw (.known tag .configure body) rest
    refine ⟨fun hheld => ?_, fun hheld hbad => ?_, fun a hheld hargs hoff => ?_⟩
    · refine exec_command_only_answers h .configure tag _ .ballotBusy [] hb hl ?_
      show Device.takeConfigure _ _ _ = _
      rw [Device.takeConfigure, hcheck, hheld]
      rfl
    · refine exec_command_only_answers h .configure tag _ .badArg [] hb hl ?_
      show Device.takeConfigure _ _ _ = _
      rw [Device.takeConfigure, hcheck, hheld]
      simp only [Bool.false_eq_true, if_false]
      rw [hbad]
    · intro d done
      have hrule : d.takeConfigure p body = d.withPlaces p (fun d => d.configureStream st a)
          fun d => d.awaitDurable p .none d.newestSerial := by
        rw [Device.takeConfigure, hcheck, hheld]
        simp only [Bool.false_eq_true, if_false]
        rw [hargs]
      obtain ⟨hdoes, hwaits⟩ := exec_command_places h hoff (k := .configure) hb hl hrule
      obtain ⟨hinc, hcursors, y, hy, hplan⟩ := Device.configureStream_tables (d := d) hs a
      have hcursor (q : Port) : done.cursor st q = (d.redefined st b a).cursor st q := by
        rw [Device.cursor, hcursors]
        rfl
      refine ⟨hinc, ⟨y, hy, congrArg StreamBody.policy hplan, congrArg StreamBody.quota hplan,
        congrArg StreamBody.margin hplan, congrArg StreamBody.readers hplan, congrArg StreamBody.held hplan,
        (congrArg StreamBody.nameTag hplan :), (congrArg StreamBody.writer hplan).trans hwriter, (congrArg StreamBody.next hplan :)⟩,
        fun q hin hout => ?_, fun q hin hout => ?_, fun q hsame => ?_, ?_, hdoes, hwaits⟩
      · rw [hcursor, Device.redefined_cursor, if_neg (by simp [hin]), if_pos ⟨hin, hout⟩]
      · rw [hcursor, Device.redefined_cursor, if_pos ⟨hin, hout⟩]
      · rw [hcursor, Device.redefined_cursor, if_neg (by rw [hsame]; simp), if_neg (by rw [hsame]; simp)]
        rfl
      · intro full added hlt
        obtain ⟨w, hstaged, hstaging⟩ := Device.redefined_staged (d := d) (st := st) (b := b) (a := a)
          (s.dev.incarnation st) hlt
        have hframe := d.redefined_frame st b a
        have hstream : ({ d.redefined st b a with writer := w } : Device).stream st = some { b with
            policy := a.policy, quota := a.quota, margin := a.margin, readers := a.readers, held := a.held } := by
          rw [hframe]
          exact Device.stream_setBody _ _ _
        obtain ⟨hhigh, hevents⟩ := highFlagFollowsTheRoom _ st _ hstream
        have hdone : done = (({ d.redefined st b a with writer := w } : Device).evalHigh st).reclaimStaged st :=
          (Device.configureStream_eq (d := d) hs a).trans (congrArg (fun e : Device => (e.evalHigh st).reclaimStaged st) hstaged)
        have hevaluated := Device.evalHigh_frame { d.redefined st b a with writer := w } st
        refine ⟨_, hdone, ?_, ?_, hhigh, ?_, ?_, ?_, ?_, hevents.trans ?_, fun ht => ?_⟩
        · rw [Device.evalHigh_cursors, hcursors]
        · rw [Device.evalHigh_mode, hframe]
          exact hm
        · rw [hevaluated, hframe]
          rfl
        · rw [hevaluated, hframe]
          rfl
        · rw [hevaluated, hframe]
          rfl
        · rw [hevaluated, hframe]
          rfl
        · have hports : (d.redefined st b a).ports = d.ports := by
            rw [hframe]
            rfl
          have hunits : (d.redefined st b a).events = d.events := by
            rw [hframe]
            rfl
          have hoffer := Device.offer_events_congr (d := d) (e := { d.redefined st b a with writer := w }) hports hunits
            b.writer ⟨.highWater, some st.val, some (a.quota * 16 - b.used)⟩
          by_cases hset : (full && !b.high) = true
          · rw [if_pos hset]
            exact (hoffer.trans (by rw [hwriter])).trans (congrArg Device.events (if_pos hset)).symm
          · rw [if_neg hset]
            exact hunits.trans (congrArg Device.events (if_neg hset)).symm
        · rw [Device.evalHigh_writer, hstaging ht, ← hwriter]
          rfl

end Sys2Proof.Machine
end

