-- ==== Sys2Proof/Proofs/CursorRuns.lean ====
section
/-! Operations that move several cursors of a stream and stage an entry for each (R32, R148): what they leave alone, the
entries the buffer holds at their end, and the writer they leave. -/

namespace Sys2Proof.Machine

open Sys2Proof

-- One process elaborates the whole text: proofs taken in turn stay within its memory.
set_option Elab.async false

/-! ### The writer a staging leaves (R104, R106, R120) -/

/-- Two parts whose stagings leave the same writer: the writer as it stands, and while it takes entries the holder of the
array, which a halt looks at. -/
def Device.writesLike (d e : Device) : Prop :=
  e.writer = d.writer ∧ (d.writer.takesEntries = true → e.arbiter.holder = d.arbiter.holder)

namespace Device.writesLike

variable {a b d e : Device}

theorem refl (d : Device) : d.writesLike d := ⟨rfl, fun _ => rfl⟩

theorem trans (h : a.writesLike b) (k : b.writesLike d) : a.writesLike d :=
  ⟨k.1.trans h.1, fun ht => (k.2 (h.1 ▸ ht)).trans (h.2 ht)⟩

theorem stage (h : d.writesLike e) (x : MetaEntry) : (d.stage x).writesLike (e.stage x) := by
  obtain ⟨hw, hholder⟩ := h
  cases ht : d.writer.takesEntries with
  | false =>
    rw [Device.stage_discarded _ _ ht, Device.stage_discarded _ _ (hw ▸ ht)]
    exact ⟨hw, hholder⟩
  | true =>
    have hh := hholder ht
    cases hr : replaceEntry x d.writer.staging with
    | some l =>
      have hd : d.stage x = ({ d with writer := { d.writer with staging := l } } : Device).recordEntry x := by
        simp [Device.stage, ht, hr]
      have he : e.stage x = ({ e with writer := { e.writer with staging := l } } : Device).recordEntry x := by
        simp [Device.stage, ht, hw, hr]
      rw [hd, he, Device.recordEntry_frame, Device.recordEntry_frame { e with writer := _ }]
      exact ⟨congrArg (fun w : Writer => { w with staging := l }) hw, fun _ => hh⟩
    | none =>
      by_cases hl : Config.erasedSerial ≤ d.writer.nextSerial
      · have hd : d.stage x = d.haltWriter := by simp [Device.stage, ht, hr, hl]
        have he : e.stage x = e.haltWriter := by simp [Device.stage, ht, hw, hr, hl]
        rw [hd, he]
        refine ⟨?_, fun hno => ?_⟩
        · rw [Device.haltWriter_writer, Device.haltWriter_writer, hw, hh]
        · rw [Device.haltWriter_takes] at hno
          cases hno
      · have hd : d.stage x = ({ d with writer := d.writer.addEntry x } : Device).recordEntry x := by
          simp [Device.stage, ht, hr, hl]
        have he : e.stage x = ({ e with writer := e.writer.addEntry x } : Device).recordEntry x := by
          simp [Device.stage, ht, hw, hr, hl]
        rw [hd, he, Device.recordEntry_frame, Device.recordEntry_frame { e with writer := _ }]
        exact ⟨congrArg (Writer.addEntry · x) hw, fun _ => hh⟩

theorem stageAll (h : d.writesLike e) (xs : List MetaEntry) : (d.stageAll xs).writesLike (e.stageAll xs) := by
  induction xs generalizing d e with
  | nil => exact h
  | cons x xs ih => exact ih (h.stage x)

end Device.writesLike

/-- An open entry stays in the buffer when another cursor's entry, or no CURSOR entry, is staged (R106). -/
theorem Device.stage_keeps {d : Device} {y : Staged} (hy : y ∈ d.writer.staging) {x : MetaEntry}
    (hx : y.entry.sameCursor x = false) : y ∈ (d.stage x).writer.staging := by
  rcases d.stage_cases x with ⟨-, heq⟩ | ⟨-, l, hl, heq⟩ | ⟨-, -, -, heq⟩ | ⟨-, -, -, heq⟩ <;> rw [heq]
  · exact hy
  · obtain ⟨before, z, later, hlist, rfl, -, hsame, -⟩ := replaceEntry_some hl
    rw [Device.recordEntry_frame]
    show y ∈ before ++ { z with entry := x } :: later
    rw [hlist, List.mem_append, List.mem_cons] at hy
    rw [List.mem_append, List.mem_cons]
    rcases hy with hy | rfl | hy
    · exact .inl hy
    · rw [hx] at hsame
      cases hsame
    · exact .inr (.inr hy)
  · rw [Device.haltWriter_writer]
    exact hy
  · rw [Device.recordEntry_frame]
    exact List.mem_append_left _ hy

/-- A staged entry is in the buffer, open, unless the serials have run out (R104, R106). -/
theorem Device.stage_holds {d : Device} (ht : d.writer.takesEntries = true) (hlt : d.writer.nextSerial < 4294967295)
    (x : MetaEntry) : (∃ y ∈ (d.stage x).writer.staging, y.cond = .opened ∧ y.entry = x) ∧
      (d.stage x).writer.takesEntries = true ∧ (d.stage x).writer.nextSerial ≤ d.writer.nextSerial + 1 := by
  rcases d.stage_cases x with ⟨hno, -⟩ | ⟨-, l, hl, heq⟩ | ⟨-, -, hle, -⟩ | ⟨-, -, -, heq⟩
  · rw [ht] at hno
    cases hno
  · obtain ⟨before, z, later, hlist, rfl, hopen, -, -⟩ := replaceEntry_some hl
    rw [heq, Device.recordEntry_frame]
    exact ⟨⟨{ z with entry := x }, List.mem_append_right _ List.mem_cons_self, hopen, rfl⟩, ht, Nat.le_succ _⟩
  · have : 4294967295 ≤ d.writer.nextSerial := hle
    omega
  · rw [heq, Device.recordEntry_frame]
    exact ⟨⟨⟨d.writer.nextSerial, x, .opened⟩, List.mem_append_right _ (List.mem_singleton_self _), rfl, rfl⟩, ht, Nat.le_refl _⟩

/-- Entries of different cursors staged one after another are all in the buffer at the end (R106). -/
theorem Device.stageAll_holds {xs : List MetaEntry} (hdiff : xs.Pairwise fun x y => x.sameCursor y = false) {d : Device}
    (ht : d.writer.takesEntries = true) (hlt : d.writer.nextSerial + xs.length ≤ 4294967295) :
    ∀ x ∈ xs, ∃ y ∈ (d.stageAll xs).writer.staging, y.cond = .opened ∧ y.entry = x := by
  have keeps {xs : List MetaEntry} {y : Staged} (hxs : ∀ x ∈ xs, y.entry.sameCursor x = false) {d : Device}
      (hy : y ∈ d.writer.staging) : y ∈ (d.stageAll xs).writer.staging := by
    induction xs generalizing d with
    | nil => exact hy
    | cons x xs ih =>
      exact ih (fun z hz => hxs z (List.mem_cons_of_mem _ hz)) (Device.stage_keeps hy (hxs x List.mem_cons_self))
  induction xs generalizing d with
  | nil => nofun
  | cons x xs ih =>
    rw [List.length_cons] at hlt
    obtain ⟨hx, hxs⟩ := List.pairwise_cons.mp hdiff
    obtain ⟨⟨y, hy, hopen, hentry⟩, htakes, hserial⟩ := Device.stage_holds ht (by omega) x
    intro z hz
    rcases List.mem_cons.mp hz with rfl | hz
    · exact ⟨y, keeps (xs := xs) (d := d.stage z) (by rw [hentry]; exact hx) hy, hopen, hentry⟩
    · exact ih hxs htakes (by omega) z hz

/-! ### What cursor changes and their entries leave alone -/

/-- The sector map with its lists, the incarnations, the attachments and, but for a ballot-held flag cleared, the streams
are as they were. -/
structure Device.Reached (d e : Device) : Prop where
  sectors : e.sectors = d.sectors
  freePool : e.freePool = d.freePool
  eraseQueue : e.eraseQueue = d.eraseQueue
  badList : e.badList = d.badList
  incarnation : ∀ st, e.incarnation st = d.incarnation st
  stream : d.unheld e
  attached : ∀ q, (e.port q).attached = (d.port q).attached

namespace Device.Reached

variable {a b d : Device}

theorem refl (d : Device) : d.Reached d := ⟨rfl, rfl, rfl, rfl, fun _ => rfl, fun _ => .inl rfl, fun _ => rfl⟩

theorem trans (h : a.Reached b) (k : b.Reached d) : a.Reached d where
  sectors := k.sectors.trans h.sectors
  freePool := k.freePool.trans h.freePool
  eraseQueue := k.eraseQueue.trans h.eraseQueue
  badList := k.badList.trans h.badList
  incarnation st := (k.incarnation st).trans (h.incarnation st)
  stream := h.stream.trans k.stream
  attached q := (k.attached q).trans (h.attached q)

theorem of_journals (h : a.Journals b) : a.Reached b :=
  ⟨h.sectors, h.freePool, h.eraseQueue, h.badList, h.incarnation, h.stream, fun q => (h.port q).2⟩

/-- Changes of cursors and event units alone. -/
theorem setCursors (d : Device) (C : Vector (PerPort (Option Cursor)) 16) (E : PerPort EventUnit) :
    d.Reached { d with cursors := C, events := E } :=
  ⟨rfl, rfl, rfl, rfl, fun _ => rfl, fun _ => .inl rfl, fun _ => rfl⟩

theorem evalBacklog (d : Device) (st : Fin 16) (p : Port) : d.Reached (d.evalBacklog st p) := by
  rw [Device.evalBacklog_frame]
  exact setCursors d _ _

theorem offer (d : Device) (p : Port) (x : Event) : d.Reached (d.offer p x) := by
  rw [Device.offer_frame]
  exact setCursors d d.cursors _

theorem some_stream (h : a.Reached b) {st : Fin 16} {x : StreamBody} (hs : a.stream st = some x) :
    ∃ y, b.stream st = some y ∧ (y = x ∨ y = x.apart) := by
  rcases h.stream st with hst | hst <;> rw [hst, hs]
  exacts [⟨x, rfl, .inl rfl⟩, ⟨x.apart, rfl, .inr rfl⟩]

theorem sector (h : a.Reached b) (n : Nat) : b.sector n = a.sector n := Device.sector_congr h.sectors n

end Device.Reached

/-! ### One cursor and its entry -/

/-- A CURSOR entry staged is recorded with its own cursor alone (R117). -/
theorem Device.stage_cursor_other (d : Device) {st st' : Fin 16} {p q : Port} (h : st' ≠ st ∨ q ≠ p) (inc : Byte)
    (committed lost : Nat) : (d.stage (.cursor st inc p committed lost)).cursor st' q = d.cursor st' q := by
  have record (e : Device) (he : e.cursors = d.cursors) :
      (e.recordEntry (.cursor st inc p committed lost)).cursor st' q = d.cursor st' q := by
    unfold Device.recordEntry
    dsimp only
    split
    · rw [Device.cursor_setCursor_other _ _ _ _ _ _ h, Device.cursor, he]
      rfl
    · rw [Device.cursor, he]
      rfl
  rcases d.stage_cases (.cursor st inc p committed lost) with ⟨-, heq⟩ | ⟨-, l, -, heq⟩ | ⟨-, -, -, heq⟩ | ⟨-, -, -, heq⟩ <;>
    rw [heq]
  · exact record _ rfl
  · rw [Device.cursor, Device.haltWriter_cursors]
    rfl
  · exact record _ rfl

/-- A cursor's own fields come through staging: all but the writer's record (R117). -/
theorem Device.stage_cursor_self {d : Device} {st : Fin 16} {p : Port} {c : Cursor} (h : d.cursor st p = some c)
    (x : MetaEntry) : ∃ c', (d.stage x).cursor st p = some c' ∧ c'.apart = c.apart :=
  ((Device.Journals.refl d).stage x).some_cursor h

theorem Device.evalBacklog_cursor_other (d : Device) {st st' : Fin 16} {p q : Port} (h : st' ≠ st ∨ q ≠ p) :
    (d.evalBacklog st p).cursor st' q = d.cursor st' q := by
  have hoffer (e : Device) (x : Event) : (e.offer p x).cursor st' q = e.cursor st' q := by
    rw [Device.offer_frame]
    rfl
  cases hs : d.stream st with
  | none => simp [Device.evalBacklog, hs]
  | some b =>
    cases hc : d.cursor st p with
    | none => simp [Device.evalBacklog, hs, hc]
    | some c =>
      rw [Device.evalBacklog_eq hs hc]
      split
      · rw [hoffer, Device.cursor_setCursor_other _ _ _ _ _ _ h]
      · rw [Device.cursor_setCursor_other _ _ _ _ _ _ h]

theorem Device.evalBacklog_cursor_self {d : Device} {st : Fin 16} {p : Port} {b : StreamBody} {c : Cursor}
    (hs : d.stream st = some b) (hc : d.cursor st p = some c) :
    (d.evalBacklog st p).cursor st p = some { c with flag := c.behind b.next } := by
  have hoffer (e : Device) (x : Event) : (e.offer p x).cursor st p = e.cursor st p := by
    rw [Device.offer_frame]
    rfl
  rw [Device.evalBacklog_eq hs hc]
  split
  · rw [hoffer, Device.cursor_setCursor]
  · rw [Device.cursor_setCursor]

/-- The backlog flag's evaluation offers BACKLOG at most (R64). -/
theorem Device.evalBacklog_tells {d : Device} {q : Port} {x : Event} (h : d.tells q x) (hx : x.kind ≠ .backlog) (st : Fin 16)
    (p : Port) : (d.evalBacklog st p).tells q x := by
  cases hs : d.stream st with
  | none => simpa [Device.evalBacklog, hs] using h
  | some b =>
    cases hc : d.cursor st p with
    | none => simpa [Device.evalBacklog, hs, hc] using h
    | some c =>
      rw [Device.evalBacklog_eq hs hc]
      split
      · have hkept : (d.setCursor st p (some { c with flag := c.behind b.next })).tells q x := h
        refine hkept.offer p ?_
        cases hm : x.matches ⟨.backlog, some st.val, some (b.next - c.committed)⟩ with
        | false => rfl
        | true => exact absurd (Event.matches_iff.mp hm).1 hx
      · exact Device.tells.of_events h rfl

theorem Device.tells.offer_other {d : Device} {q p : Port} {x : Event} (h : d.tells q x) (hq : q ≠ p) (y : Event) :
    (d.offer p y).tells q x := by
  unfold Device.tells
  rw [Device.offer_events, if_neg fun hp => hq hp.1.symm]
  exact h

end Sys2Proof.Machine
end

