-- ==== Sys2Proof/Proofs/Dropping.lean ====
section
/-! APPEND without a page in its stream's TAIL: refusals, allocation and waits (R27, R29, R30, R34), and the drop (R32,
R33). -/

namespace Sys2Proof.Machine

open Sys2Proof

-- One process elaborates the whole text: proofs taken in turn stay within its memory.
set_option Elab.async false

/-! ### Chains released, whatever they hold (R24) -/

theorem takeHeads_prefix (least : Nat) (chain : List Nat) (x : Device × List Nat) : ∃ gone stay, chain = gone ++ stay ∧
    takeHeads least chain x = (stay, gone.foldl releaseSector x) := by
  induction chain generalizing x with
  | nil => exact ⟨[], [], rfl, rfl⟩
  | cons n rest ih =>
    rw [takeHeads]
    split
    · obtain ⟨gone, stay, hchain, htake⟩ := ih (releaseSector x n)
      exact ⟨n :: gone, stay, by rw [hchain]; rfl, htake⟩
    · exact ⟨[], n :: rest, rfl, rfl⟩

theorem releaseSector_sector_other (x : Device × List Nat) {n m : Nat} (h : m ≠ n) :
    (releaseSector x n).1.sector m = x.1.sector m := by
  rcases releaseSector_cases x n with ⟨-, -, hr⟩ | ⟨-, hr⟩ <;> rw [hr]
  · exact (Device.sector_congr (x.1.retire_map n).1 m).trans (Device.sector_setSector_other _ _ _ _ h)
  · exact Device.sector_setSector_other x.1 _ _ _ h

theorem foldl_releaseSector_other {chain : List Nat} (x : Device × List Nat) {m : Nat} (h : m ∉ chain) :
    (chain.foldl releaseSector x).1.sector m = x.1.sector m := by
  induction chain generalizing x with
  | nil => rfl
  | cons n rest ih =>
    rw [List.mem_cons, not_or] at h
    exact (ih (releaseSector x n) h.2).trans (releaseSector_sector_other x h.1)

/-- The bad list only grows, by what is retired. -/
theorem releaseSector_bad (x : Device × List Nat) (n m : Nat) :
    (m ∈ x.1.badList → m ∈ (releaseSector x n).1.badList) ∧
    (m ∈ (releaseSector x n).2 → m ∈ x.2 ∨ m = n ∧ m ∈ (releaseSector x n).1.badList) := by
  rcases releaseSector_cases x n with ⟨-, -, hr⟩ | ⟨-, hr⟩ <;> rw [hr]
  · have hbad := (x.1.retire_map n).2.1
    dsimp only
    rw [hbad, (insertAscending_perm n _).mem_iff, List.mem_cons, List.mem_append, List.mem_singleton]
    tauto
  · have hbad : (x.1.joinQueue n).badList = x.1.badList := by rw [Device.joinQueue_frame]
    dsimp only
    rw [hbad]
    tauto

theorem foldl_releaseSector_bad (chain : List Nat) (x : Device × List Nat) (m : Nat) :
    (m ∈ x.1.badList → m ∈ (chain.foldl releaseSector x).1.badList) ∧
    (m ∈ (chain.foldl releaseSector x).2 → m ∈ x.2 ∨ m ∈ chain ∧ m ∈ (chain.foldl releaseSector x).1.badList) := by
  induction chain generalizing x with
  | nil => exact ⟨id, .inl⟩
  | cons n rest ih =>
    obtain ⟨hgrow, hnew⟩ := releaseSector_bad x n m
    obtain ⟨hgrow', hnew'⟩ := ih (releaseSector x n)
    refine ⟨fun h => hgrow' (hgrow h), fun h => ?_⟩
    rcases hnew' h with h | ⟨h, hb⟩
    · rcases hnew h with h | ⟨rfl, hb⟩
      · exact .inl h
      · exact .inr ⟨List.mem_cons_self, hgrow' hb⟩
    · exact .inr ⟨List.mem_cons_of_mem _ h, hb⟩

/-- The reclaim of a stream: some heads of its chain released one after another, its counters brought up to date. -/
theorem Device.reclaim_cases {d : Device} {st : Fin 16} {b : StreamBody} (hs : d.stream st = some b) :
    d.reclaim st = (d, []) ∨ ∃ gone stay, b.chain = gone ++ stay ∧
      d.reclaim st = (d.headsGone st gone stay, (gone.foldl releaseSector (d, [])).2) := by
  obtain ⟨gone, stay, hchain, htake⟩ := takeHeads_prefix (d.leastCommitted st b) b.chain (d, [])
  unfold Device.reclaim
  simp only [hs, htake]
  split
  · exact .inl rfl
  · split
    · exact .inl rfl
    · exact .inr ⟨gone, stay, hchain, rfl⟩

/-- What the release of a chain's heads and the counters anew keep of a part (R5, R6, R24). -/
theorem Device.headsGone_lists (d : Device) (st : Fin 16) (gone stay : List Nat) :
    (d.headsGone st gone stay).eraseQueue = (gone.foldl releaseSector (d, [])).1.eraseQueue ∧
    (d.headsGone st gone stay).badList = (gone.foldl releaseSector (d, [])).1.badList ∧
    (∀ n, (d.headsGone st gone stay).sector n = (gone.foldl releaseSector (d, [])).1.sector n) := by
  have hframe := d.headsGone_frame st gone stay
  exact ⟨by rw [hframe], by rw [hframe], fun n => Device.sector_congr (by rw [hframe]) n⟩

theorem Device.headsGone_tells {d : Device} {q : Port} {x : Event} (h : d.tells q x) (hs : x.kind ≠ .state)
    (hb : x.kind ≠ .ballotDone) (hr : x.kind ≠ .retired) (hh : x.kind ≠ .highWater) (st : Fin 16) (gone stay : List Nat) :
    (d.headsGone st gone stay).tells q x := by
  refine Device.evalHigh_tells (Device.tells.of_events ((foldl_releaseSector_toldApart gone (d, []) q x hs hb hr).1 h) ?_) hh st
  rw [Device.recount_events, Device.setChain_frame]

theorem Device.headsGone_stream {d : Device} {st : Fin 16} {b : StreamBody} (hs : d.stream st = some b) (gone stay : List Nat) :
    ∃ b', (d.headsGone st gone stay).stream st = some b' ∧ b'.chain = stay ∧ b'.next = b.next := by
  obtain ⟨b2, hs2, hnext⟩ : ∃ b2, (gone.foldl releaseSector (d, [])).1.stream st = some b2 ∧ b2.next = b.next := by
    rcases foldl_releaseSector_unheld gone (d, []) st with h | h <;> rw [h, hs]
    exacts [⟨b, rfl, rfl⟩, ⟨b.apart, rfl, rfl⟩]
  exact ⟨_, Device.recounted_self _ st (Device.setChain_self hs2 stay), rfl, hnext⟩

theorem Device.headsGone_reach (d : Device) (st : Fin 16) (gone stay : List Nat) : d.Frees (d.headsGone st gone stay) :=
  ((((Device.Frees.refl d).foldl_releaseSector gone (x := (d, []))).setChain st stay).recount st).evalHigh st

/-! ### The head leaves (R32, R33) -/

/-- The head of a chain released, its stream reclaimed, and the sectors retired in it. -/
def Device.headReleased (d : Device) (st : Fin 16) (head : Nat) (rest : List Nat) : Device × List Nat :=
  (((d.headsGone st [head] rest).reclaim st).1,
    (releaseSector (d, []) head).2 ++ ((d.headsGone st [head] rest).reclaim st).2)

/-- What the release of the head and the reclaim leave. -/
structure Device.HeadReleased (d : Device) (st : Fin 16) (head : Nat) (rest : List Nat) (b : StreamBody) (e : Device)
    (retired : List Nat) : Prop where
  reach : d.Frees e
  retired : ∀ n ∈ retired, (n = head ∨ n ∈ rest) ∧ n ∈ e.badList
  listed : head ∈ e.eraseQueue ∨ head ∈ e.badList
  mark : head < 256 → head ∉ rest → (d.sector head).suspect = false →
    e.sector head = (d.sector head).cleared .queued d.newestSerial
  stream : ∃ b' k, e.stream st = some b' ∧ b'.chain = rest.drop k ∧ b'.next = b.next
  told : ∀ q (x : Event), x.kind ≠ .state → x.kind ≠ .ballotDone → x.kind ≠ .retired → x.kind ≠ .highWater →
    d.tells q x → e.tells q x

theorem Device.headReleased_spec {d : Device} {st : Fin 16} {b : StreamBody} (hs : d.stream st = some b) (head : Nat)
    (rest : List Nat) :
    d.HeadReleased st head rest b (d.headReleased st head rest).1 (d.headReleased st head rest).2 := by
  obtain ⟨hqueue, hbad, hsector⟩ := d.headsGone_lists st [head] rest
  have hreach := d.headsGone_reach st [head] rest
  have htells (q : Port) (x : Event) := Device.headsGone_tells (d := d) (q := q) (x := x) (st := st) (gone := [head])
    (stay := rest)
  obtain ⟨b1, hs1, hchain, hnext⟩ := Device.headsGone_stream hs [head] rest
  have hlisted : head ∈ (d.headsGone st [head] rest).eraseQueue ∨ head ∈ (d.headsGone st [head] rest).badList := by
    rw [hqueue, hbad]
    exact releaseSector_lists (d, []) head head (.inl rfl)
  have hmark (hlt : head < 256) (hclean : (d.sector head).suspect = false) :
      (d.headsGone st [head] rest).sector head = (d.sector head).cleared .queued d.newestSerial := by
    rw [hsector]
    have hrelease : releaseSector (d, []) head = (d.joinQueue head, []) := by simp [releaseSector, hclean]
    show (releaseSector (d, []) head).1.sector head = _
    rw [hrelease]
    exact Device.sector_setSector d _ _ hlt
  have hfirst (n : Nat) (hn : n ∈ (releaseSector (d, []) head).2) :
      n = head ∧ n ∈ (d.headsGone st [head] rest).badList := by
    rcases (releaseSector_bad (d, []) head n).2 hn with h | h
    · cases h
    · rw [hbad]
      exact h
  unfold Device.headReleased
  generalize d.headsGone st [head] rest = e at hreach htells hs1 hlisted hmark hfirst
  rcases Device.reclaim_cases hs1 with hrec | ⟨gone, stay, hsplit, hrec⟩ <;> rw [hrec]
  · refine ⟨hreach, fun n hn => ?_, hlisted, fun hlt _ hclean => hmark hlt hclean, ⟨b1, 0, hs1, hchain, hnext⟩,
      fun q x h1 h2 h3 h4 ht => htells q x ht h1 h2 h3 h4⟩
    rw [List.append_nil] at hn
    exact ⟨.inl (hfirst n hn).1, (hfirst n hn).2⟩
  · obtain ⟨hqueue', hbad', hsector'⟩ := e.headsGone_lists st gone stay
    rw [hchain] at hsplit
    obtain ⟨b2, hs2, hchain2, hnext2⟩ := Device.headsGone_stream hs1 gone stay
    refine ⟨hreach.trans (e.headsGone_reach st gone stay), fun n hn => ?_, ?_, fun hlt hnot hclean => ?_,
      ⟨b2, gone.length, hs2, by rw [hchain2, hsplit, List.drop_left], hnext2.trans hnext⟩,
      fun q x h1 h2 h3 h4 ht => Device.headsGone_tells (htells q x ht h1 h2 h3 h4) h1 h2 h3 h4 st gone stay⟩
    · dsimp only at hn ⊢
      rw [hbad']
      rcases List.mem_append.mp hn with hn | hn
      · exact ⟨.inl (hfirst n hn).1, (foldl_releaseSector_bad gone (e, []) n).1 (hfirst n hn).2⟩
      · rcases (foldl_releaseSector_bad gone (e, []) n).2 hn with h | ⟨hg, hb⟩
        · cases h
        · exact ⟨.inr (hsplit ▸ List.mem_append_left _ hg), hb⟩
    · dsimp only
      rw [hqueue', hbad']
      exact foldl_releaseSector_lists gone (e, []) head (.inr hlisted)
    · have hng : head ∉ gone := fun hg => hnot (hsplit ▸ List.mem_append_left _ hg)
      rw [hsector', foldl_releaseSector_other (e, []) hng]
      exact hmark hlt hclean

/-! ### The readers raised (R32) -/

/-- The CURSOR entry of a reader below X in a drop (R32). -/
def Device.raisedEntry (d : Device) (st : Fin 16) (b : StreamBody) (x : Nat) (q : Port) : Option MetaEntry :=
  (d.cursor st q).bind fun c =>
    if b.readers.get q = true ∧ c.committed < x then
      some (MetaEntry.cursor st (d.incarnation st) q x (min 65535 (c.lost + (x - c.committed))))
    else none

/-- A reader raised: its cursor at X with what it lost counted, and LOST told. -/
def Device.raised (d e : Device) (st : Fin 16) (b : StreamBody) (x : Nat) (q : Port) : Prop :=
  ∀ c, b.readers.get q = true → d.cursor st q = some c →
    (x ≤ c.committed → e.cursor st q = some c) ∧
    (c.committed < x →
      (∃ c', e.cursor st q = some c' ∧ c'.committed = x ∧ c'.delivered = max c.delivered x ∧
        c'.lost = min 65535 (c.lost + (x - c.committed)) ∧ c'.level = c.level) ∧
      ((d.port q).attached = true → e.tells q ⟨.lost, some st.val, some (min 65535 (c.lost + (x - c.committed)))⟩))

theorem Device.raised.mono {d e e' : Device} {st : Fin 16} {b : StreamBody} {x : Nat} {q : Port} (h : d.raised e st b x q)
    (hcur : e'.cursor st q = e.cursor st q)
    (htold : ∀ v, e.tells q ⟨.lost, some st.val, v⟩ → e'.tells q ⟨.lost, some st.val, v⟩) : d.raised e' st b x q :=
  fun c hr hc => ⟨fun hle => hcur.trans ((h c hr hc).1 hle), fun hlt => by
    obtain ⟨hcursor, htells⟩ := (h c hr hc).2 hlt
    rw [hcur]
    exact ⟨hcursor, fun ha => htold _ (htells ha)⟩⟩

/-- One reader raised, or left as it was. -/
theorem Device.raiseCursor_of {d : Device} {st : Fin 16} {b : StreamBody} (hs : d.stream st = some b) (x : Nat) (p : Port) :
    (d.raisedEntry st b x p = none → d.raiseCursor st x p = d) ∧
    ∀ c, d.cursor st p = some c → b.readers.get p = true → c.committed < x →
      d.raisedEntry st b x p = some (.cursor st (d.incarnation st) p x (min 65535 (c.lost + (x - c.committed)))) ∧
      d.raiseCursor st x p = ((((d.setCursor st p (some { c with
        committed := x, delivered := max c.delivered x, lost := min 65535 (c.lost + (x - c.committed)) })).stage
          (.cursor st (d.incarnation st) p x (min 65535 (c.lost + (x - c.committed))))).offer p
            ⟨.lost, some st.val, some (min 65535 (c.lost + (x - c.committed)))⟩).evalBacklog st p) := by
  refine ⟨fun h => ?_, fun c hc hr hlt => ⟨?_, ?_⟩⟩
  · unfold Device.raisedEntry at h
    unfold Device.raiseCursor
    cases hc : d.cursor st p with
    | none => simp [hs]
    | some c =>
      rw [hc, Option.bind_some] at h
      simp only [hs]
      have hno : ¬(b.readers.get p = true ∧ c.committed < x) := fun hy => by
        rw [if_pos hy] at h
        cases h
      exact if_neg (by simpa using hno)
  · simp [Device.raisedEntry, hc, hr, hlt]
  · simp only [Device.raiseCursor, hs, hc, hr, hlt, decide_true, Bool.and_true, if_true]
    rfl

/-- The readers raised so far, one after another. -/
structure Device.Raised (d e : Device) (st : Fin 16) (b : StreamBody) (x : Nat) (done : List Port) : Prop where
  writes : ((done.filterMap (d.raisedEntry st b x)).foldl Device.stage d).writesLike e
  reach : d.Reached e
  later : ∀ q, q ∉ done → e.cursor st q = d.cursor st q
  now : ∀ q, q ∈ done → d.raised e st b x q

theorem Device.Raised.nil (d : Device) (st : Fin 16) (b : StreamBody) (x : Nat) : d.Raised d st b x [] :=
  ⟨.refl d, .refl d, fun _ _ => rfl, nofun⟩

theorem Device.Raised.snoc {d e : Device} {st : Fin 16} {b : StreamBody} {x : Nat} {done : List Port}
    (h : d.Raised e st b x done) (hs : d.stream st = some b) {p : Port} (hp : p ∉ done) :
    d.Raised (e.raiseCursor st x p) st b x (done ++ [p]) := by
  obtain ⟨b', hs', hor⟩ := h.reach.some_stream hs
  have hreaders : b'.readers = b.readers := by rcases hor with rfl | rfl <;> rfl
  have hentry : e.raisedEntry st b' x p = d.raisedEntry st b x p := by
    rw [Device.raisedEntry, h.later p hp, hreaders, h.reach.incarnation]
    rfl
  obtain ⟨hnone, hsome⟩ := Device.raiseCursor_of hs' x p
  rw [hentry] at hnone
  cases hx : d.raisedEntry st b x p with
  | none =>
    rw [hnone hx]
    refine ⟨?_, h.reach, fun q hq => h.later q fun hd => hq (List.mem_append_left _ hd), fun q hq => ?_⟩
    · simpa [List.filterMap_append, hx] using h.writes
    · rcases List.mem_append.mp hq with hq | hq
      · exact h.now q hq
      · rw [List.mem_singleton.mp hq]
        intro c hr hc
        have hnot : ¬ c.committed < x := fun hlt => by
          simp [Device.raisedEntry, hc, hr, hlt] at hx
        exact ⟨fun _ => (h.later p hp).trans hc, fun hlt => absurd hlt hnot⟩
  | some entry =>
    obtain ⟨c, hc, hr, hlt⟩ : ∃ c, d.cursor st p = some c ∧ b.readers.get p = true ∧ c.committed < x := by
      unfold Device.raisedEntry at hx
      obtain ⟨c, hc, hif⟩ := Option.bind_eq_some_iff.mp hx
      split at hif
      · rename_i hy
        exact ⟨c, hc, hy.1, hy.2⟩
      · cases hif
    obtain ⟨hentry', hraise⟩ := hsome c ((h.later p hp).trans hc) (by rw [hreaders]; exact hr) hlt
    have hxe : entry = .cursor st (e.incarnation st) p x (min 65535 (c.lost + (x - c.committed))) := by
      rw [← hentry, hentry'] at hx
      exact (Option.some.inj hx).symm
    rw [hraise]
    rw [hxe] at hx
    obtain ⟨c', hc', hlike⟩ := Device.stage_cursor_self (d := e.setCursor st p (some { c with
      committed := x, delivered := max c.delivered x, lost := min 65535 (c.lost + (x - c.committed)) }))
      (Device.cursor_setCursor _ _ _ _)
      (.cursor st (e.incarnation st) p x (min 65535 (c.lost + (x - c.committed))))
    have hother (q : Port) (hq : q ≠ p) := Device.stage_cursor_other (e.setCursor st p (some { c with
      committed := x, delivered := max c.delivered x, lost := min 65535 (c.lost + (x - c.committed)) })) (.inr hq)
      (st := st) (st' := st) (e.incarnation st) x (min 65535 (c.lost + (x - c.committed)))
    have htold := (Device.toldSince.refl (e.setCursor st p (some { c with
      committed := x, delivered := max c.delivered x, lost := min 65535 (c.lost + (x - c.committed)) }))).stage
      (.cursor st (e.incarnation st) p x (min 65535 (c.lost + (x - c.committed))))
    have hwrites := Device.writesLike.stage (e := e.setCursor st p (some { c with
      committed := x, delivered := max c.delivered x, lost := min 65535 (c.lost + (x - c.committed)) })) h.writes
      (.cursor st (e.incarnation st) p x (min 65535 (c.lost + (x - c.committed))))
    have hjournals := (Device.Journals.refl (e.setCursor st p (some { c with
      committed := x, delivered := max c.delivered x, lost := min 65535 (c.lost + (x - c.committed)) }))).stage
      (.cursor st (e.incarnation st) p x (min 65535 (c.lost + (x - c.committed))))
    generalize (e.setCursor st p (some { c with
      committed := x, delivered := max c.delivered x, lost := min 65535 (c.lost + (x - c.committed)) })).stage
      (.cursor st (e.incarnation st) p x (min 65535 (c.lost + (x - c.committed)))) = e2 at hc' hother htold hwrites hjournals
    have hreach2 : e.Reached e2 := (Device.Reached.setCursors e (e.setCursor st p (some { c with
      committed := x, delivered := max c.delivered x, lost := min 65535 (c.lost + (x - c.committed)) })).cursors e.events).trans
        (.of_journals hjournals)
    have hofferc (q : Port) (y : Event) : (e2.offer p y).cursor st q = e2.cursor st q := by
      rw [Device.offer_frame]
      rfl
    refine ⟨?_, ((h.reach.trans hreach2).trans (.offer e2 p _)).trans (.evalBacklog _ st p), fun q hq => ?_, fun q hq => ?_⟩
    · rw [List.filterMap_append, List.foldl_append]
      have hlist : [p].filterMap (d.raisedEntry st b x) =
          [.cursor st (e.incarnation st) p x (min 65535 (c.lost + (x - c.committed)))] := by simp [hx]
      rw [hlist]
      refine Device.writesLike.trans hwrites ?_
      rw [Device.evalBacklog_frame, Device.offer_frame]
      exact .refl e2
    · rw [List.mem_append, not_or, List.mem_singleton] at hq
      rw [Device.evalBacklog_cursor_other _ (.inr hq.2), hofferc, hother q hq.2,
        Device.cursor_setCursor_other _ _ _ _ _ _ (.inr hq.2)]
      exact h.later q hq.1
    · rcases List.mem_append.mp hq with hq | hq
      · have hne : q ≠ p := fun hqp => hp (hqp ▸ hq)
        refine (h.now q hq).mono ?_ fun v ht => ?_
        · rw [Device.evalBacklog_cursor_other _ (.inr hne), hofferc, hother q hne,
            Device.cursor_setCursor_other _ _ _ _ _ _ (.inr hne)]
        · exact Device.evalBacklog_tells (x := ⟨.lost, some st.val, v⟩)
            (((htold q ⟨.lost, some st.val, v⟩ nofun nofun).1 ht).offer_other hne _) nofun st p
      · rw [List.mem_singleton.mp hq]
        intro c0 hr0 hc0
        rw [hc] at hc0
        cases hc0
        refine ⟨fun hle => absurd hlt (Nat.not_lt.mpr hle), fun _ => ⟨?_, fun ha => ?_⟩⟩
        · obtain ⟨b2, hs2, -⟩ := hreach2.some_stream hs'
          have heval := Device.evalBacklog_cursor_self (d := e2.offer p
            ⟨.lost, some st.val, some (min 65535 (c.lost + (x - c.committed)))⟩) (b := b2)
            (by rw [Device.offer_frame]; exact hs2) ((hofferc p _).trans hc')
          exact ⟨_, heval, (congrArg Cursor.committed hlike :), (congrArg Cursor.delivered hlike :),
            (congrArg Cursor.lost hlike :), (congrArg Cursor.level hlike :)⟩
        · refine Device.evalBacklog_tells (x := ⟨.lost, some st.val, some (min 65535 (c.lost + (x - c.committed)))⟩)
            (Device.offer_tells ?_ _) nofun st p
          rw [hreach2.attached, h.reach.attached]
          exact ha

/-- The readers of a stream raised, in the order of their ports. -/
def Device.readersRaised (d : Device) (st : Fin 16) (x : Nat) : Device :=
  ((d.raiseCursor st x .A).raiseCursor st x .B).raiseCursor st x .C

theorem Device.readersRaised_spec {d : Device} {st : Fin 16} {b : StreamBody} (hs : d.stream st = some b) (x : Nat) :
    d.Raised (d.readersRaised st x) st b x portList :=
  (((Device.Raised.nil d st b x).snoc hs (p := .A) (by decide)).snoc hs (p := .B) (by decide)).snoc hs (p := .C) (by decide)

/-- A drop: the readers raised, the head released, the RETIRE entries staged (R33). -/
theorem Device.dropHead_eq {d : Device} {st : Fin 16} {b : StreamBody} {head : Nat} {rest : List Nat}
    (hs : d.stream st = some b) (hc : b.chain = head :: rest) : d.dropHead st =
      ((d.readersRaised st (d.chainOldest rest b.next)).headReleased st head rest).1.stageAll
        (retireEntries ((d.readersRaised st (d.chainOldest rest b.next)).headReleased st head rest).2) := by
  rw [Device.dropHead, hs]
  simp only [hc]
  rfl

/-- The entries of a drop are of different cursors. -/
theorem Device.raisedEntries_differ (d : Device) (st : Fin 16) (b : StreamBody) (x : Nat) :
    (portList.filterMap (d.raisedEntry st b x)).Pairwise fun e e' => e.sameCursor e' = false := by
  have hports : portList.Pairwise (· ≠ ·) := by decide
  refine hports.filterMap _ fun p q hne e he e' he' => ?_
  have shape {p : Port} {e : MetaEntry} (h : d.raisedEntry st b x p = some e) :
      ∃ a l, e = .cursor st (d.incarnation st) p a l := by
    unfold Device.raisedEntry at h
    obtain ⟨c, -, hif⟩ := Option.bind_eq_some_iff.mp h
    split at hif
    · exact ⟨_, _, (Option.some.inj hif).symm⟩
    · cases hif
  obtain ⟨a, l, rfl⟩ := shape he
  obtain ⟨a', l', rfl⟩ := shape he'
  simp [MetaEntry.sameCursor, hne]

/-- Entries in the buffer stay there while RETIRE entries are staged (R106). -/
theorem Device.stageRetires_keeps {d : Device} {y : Staged} (hy : y ∈ d.writer.staging) (l : List Nat) :
    y ∈ (d.stageAll (retireEntries l)).writer.staging := by
  unfold retireEntries
  generalize groupsOfEight l.length (ascending l) = groups
  induction groups generalizing d with
  | nil => exact hy
  | cons g groups ih =>
    refine ih (Device.stage_keeps hy ?_)
    cases y.entry <;> rfl

theorem Device.stageRetires_cursors (d : Device) (l : List Nat) : (d.stageAll (retireEntries l)).cursors = d.cursors :=
  Device.stageAll_cursors fun e he d' hd' => by
    obtain ⟨g, -, rfl⟩ := List.mem_map.mp he
    rw [Device.recordEntry_uncursored rfl]
    exact hd'

/-- What a drop leaves of its stream, its readers, the head and the buffer (R32, R33). -/
structure Device.Dropped (d e : Device) (st : Fin 16) (b : StreamBody) (head : Nat) (rest : List Nat) (x : Nat)
    (staged : Device) : Prop where
  groups : ∃ groups : List (List Nat),
    (∀ g ∈ groups, 1 ≤ g.length ∧ g.length ≤ 8 ∧ ∀ n ∈ g, n ∈ b.chain ∧ n ∈ e.badList) ∧
    e.writer = (groups.foldl (fun d g => d.stage (.retire g)) staged).writer
  entries : d.writer.takesEntries = true →
    d.writer.nextSerial + (portList.filterMap (d.raisedEntry st b x)).length ≤ 4294967295 →
    ∀ entry ∈ portList.filterMap (d.raisedEntry st b x), ∃ y ∈ e.writer.staging, y.cond = .opened ∧ y.entry = entry
  mark : head < 256 → head ∉ rest → (d.sector head).suspect = false →
    e.sector head = (d.sector head).cleared .queued (staged.writer.nextSerial - 1)
  listed : head ∈ e.eraseQueue ∨ head ∈ e.badList
  stream : ∃ b' k, e.stream st = some b' ∧ b'.chain = rest.drop k ∧ b'.next = b.next
  readers : ∀ q, d.raised e st b x q

theorem Device.dropHead_spec {d : Device} {st : Fin 16} {b : StreamBody} {head : Nat} {rest : List Nat}
    (hs : d.stream st = some b) (hc : b.chain = head :: rest) :
    d.Dropped (d.dropHead st) st b head rest (d.chainOldest rest b.next)
      ((portList.filterMap (d.raisedEntry st b (d.chainOldest rest b.next))).foldl Device.stage d) := by
  have hraised := Device.readersRaised_spec hs (d.chainOldest rest b.next)
  rw [Device.dropHead_eq hs hc]
  generalize d.chainOldest rest b.next = x at hraised
  generalize d.readersRaised st x = e at hraised
  obtain ⟨b1, hs1, hor⟩ := hraised.reach.some_stream hs
  have hnext : b1.next = b.next := by rcases hor with rfl | rfl <;> rfl
  have hreleased := Device.headReleased_spec hs1 head rest
  generalize (e.headReleased st head rest).2 = retired at hreleased
  generalize (e.headReleased st head rest).1 = y at hreleased
  have hlast := (Device.Journals.refl y).stageAll (retireEntries retired)
  have htold := (Device.toldSince.refl y).stageAll (retireEntries retired)
  have hcursors := y.stageRetires_cursors retired
  have hkeeps {z : Staged} (hz : z ∈ y.writer.staging) := Device.stageRetires_keeps hz retired
  obtain ⟨groups, hperm, -, hsize, -, hstages⟩ := retireEntries_grouped retired
  have hwrites : ((portList.filterMap (d.raisedEntry st b x)).foldl Device.stage d).writesLike y :=
    hraised.writes.trans ⟨hreleased.reach.writer, fun _ => hreleased.reach.arbiter.1⟩
  have hwriter := (hwrites.stageAll (retireEntries retired)).1
  rw [hstages ((portList.filterMap (d.raisedEntry st b x)).foldl Device.stage d)] at hwriter
  generalize y.stageAll (retireEntries retired) = z at hlast htold hcursors hkeeps hwriter
  refine ⟨⟨groups, fun g hg => ⟨(hsize g hg).1, (hsize g hg).2, fun n hn => ?_⟩, hwriter⟩, fun ht hlt entry he => ?_,
    fun hlt hnot hclean => ?_, ?_, ?_, fun q => ?_⟩
  · have hmem := hreleased.retired n (hperm.mem_iff.mp (List.mem_flatten_of_mem hg hn))
    rw [hc, List.mem_cons, hlast.badList]
    exact hmem
  · obtain ⟨w, hw, hopen, hentry⟩ := Device.stageAll_holds (d.raisedEntries_differ st b x) ht hlt entry he
    refine ⟨w, hkeeps ?_, hopen, hentry⟩
    rw [hwrites.1]
    exact hw
  · rw [hlast.sector, hreleased.mark hlt hnot (by rw [hraised.reach.sector]; exact hclean), hraised.reach.sector,
      Device.newestSerial, hraised.writes.1]
  · rw [hlast.eraseQueue, hlast.badList]
    exact hreleased.listed
  · obtain ⟨b2, k, hs2, hchain2, hnext2⟩ := hreleased.stream
    obtain ⟨b3, hs3, hor3⟩ := hlast.some_stream hs2
    refine ⟨b3, k, hs3, ?_, ?_⟩
    · rcases hor3 with rfl | rfl <;> exact hchain2
    · rcases hor3 with rfl | rfl <;> exact hnext2.trans hnext
  · refine (hraised.now q (by cases q <;> simp [portList])).mono ?_ fun v ht => ?_
    · rw [Device.cursor, hcursors]
      exact hreleased.reach.cursor st q
    · exact (htold q ⟨.lost, some st.val, v⟩ nofun nofun).1
        (hreleased.told q ⟨.lost, some st.val, v⟩ nofun nofun nofun nofun ht)

/-! ### Waiting for space, and an allocation (R30, R34) -/

/-- A part at rest stays so when a resting executor waits for space (R34). -/
theorem Device.AtRest.waitsForSpace {d : Device} {p : Port} (h : d.AtRest) (hr : d.ready p) (r : Request) (job : Job)
    (hm : d.mode = .ready) (l : List Port) :
    ({ (d.received p r).toExec p .waitSpace job with spaceWait := l } : Device).quiet := by
  have hself : (({ (d.received p r).toExec p .waitSpace job with spaceWait := l } : Device).exec p) =
      ⟨.waitSpace, some r, job⟩ := by
    show ((d.received p r).toExec p .waitSpace job).exec p = _
    simp [Device.toExec]
  have hother (q : Port) (hq : q ≠ p) :
      ({ (d.received p r).toExec p .waitSpace job with spaceWait := l } : Device).exec q = d.exec q :=
    (Device.exec_setExec_other _ _ _ _ hq).trans (d.received_exec_other r hq)
  have hport (q : Port) (hq : q ≠ p) :
      ({ (d.received p r).toExec p .waitSpace job with spaceWait := l } : Device).port q = d.port q :=
    d.received_port_other r hq
  have hclaims (q : Port) : ({ (d.received p r).toExec p .waitSpace job with spaceWait := l } : Device).execClaims q =
      d.execClaims q := by
    unfold Device.execClaims
    by_cases hq : q = p
    · subst hq
      rw [hself, hr.1]
      rfl
    · rw [hother q hq]
  have hsettled := h.toSettled.of_exec hr (hself ▸ ⟨⟨nofun, nofun⟩, nofun⟩) hother hport rfl (fun _ b ht => ⟨b, ht, rfl⟩)
    rfl rfl h.choice
  have hclaimant : ({ (d.received p r).toExec p .waitSpace job with spaceWait := l } : Device).nextClaimant =
      d.nextClaimant := by
    unfold Device.nextClaimant
    simp only [hclaims]
    rfl
  refine Device.AtRest.quiet ⟨hsettled, ?_, h.stop, fun h1 h2 h3 h4 => hclaimant.trans (h.grant h1 h2 h3 h4), ?_, fun hs => ?_⟩
  · refine Eq.trans ?_ h.suspend
    unfold Device.mustSuspend Device.someExecClaims
    simp only [hclaims]
    rfl
  · rw [hclaimant]
    exact h.drain
  · exact absurd (hs.symm.trans hm) (by decide)

/-- The pool's first sector becomes the TAIL of the stream (R30). -/
theorem Device.allocate_spec {d : Device} {st : Fin 16} {b : StreamBody} {n : Nat} {pool : List Nat} (hs : d.stream st = some b)
    (hp : d.freePool = n :: pool) (hn : n < 256) :
    (d.allocate st).freePool = pool ∧ (d.allocate st).stream st = some { b with chain := b.chain ++ [n] } ∧
      (d.allocate st).sector n = { Sector.blank with
        state := .tail, owner := some (st, d.incarnation st), eraseCount := (d.sector n).eraseCount } := by
  unfold Device.allocate
  rw [hp, hs]
  refine ⟨rfl, Device.stream_setBody _ _ _, ?_⟩
  exact Device.sector_setSector d n _ hn

/-- Settles O27: the refusals in their order, place finding without a TAIL, and the drop. -/
theorem appendOutcomesWithoutAPage : Obligations.AppendOutcomesWithoutAPage := by
  intro s p tag t0 t1 payload st b h hw hs hlen body ends answered
  have hb : bodyFits body = true := by
    simp [bodyFits, body]
    omega
  have hl : lengthGood .append body = true := by simp [lengthGood, Kind.bodyLength, body]
  have hcheck := Device.appendCheck_of (Device.received_writable (.known tag .append body) hw) hs t0 t1 payload
  have refused {status : Status} (hc : (s.dev.received p (.known tag .append body)).appendCheck p body = .error status) :
      answered status := by
    refine exec_command_only_answers h .append tag body status [] hb hl ?_
    show Device.takeAppend _ _ _ = _
    rw [Device.takeAppend, hc]
  refine ⟨fun hheld => refused (hcheck.trans (if_pos hheld)), fun hheld hne => refused ?_, fun hheld hwr hbad => refused ?_,
    fun hheld hwr hne hle => ⟨fun hfull => refused ?_, fun hnext htail => ?_⟩⟩
  · exact (hcheck.trans (if_neg (by rw [hheld]; decide))).trans (if_pos hne)
  · exact ((hcheck.trans (if_neg (by rw [hheld]; decide))).trans (if_neg (not_not.mpr hwr))).trans (if_pos hbad)
  · exact (((hcheck.trans (if_neg (by rw [hheld]; decide))).trans (if_neg (not_not.mpr hwr))).trans
      (if_neg (by simp [hne, Nat.not_lt.mpr hle]))).trans (if_pos hfull)
  · intro job d claim wait
    have hok : d.appendCheck p body = .ok (st, b) :=
      (((hcheck.trans (if_neg (by rw [hheld]; decide))).trans (if_neg (not_not.mpr hwr))).trans
        (if_neg (by simp [hne, Nat.not_lt.mpr hle]))).trans (if_neg (Nat.not_le.mpr hnext))
    have htake : d.takeAppend p body = d.findPlace p ⟨st, .seek, 0, 0, 0, []⟩ := by rw [Device.takeAppend, hok]
    obtain ⟨hbelow, hrefuse, hdrop⟩ := Device.findPlace_tailless (d := d) (p := p) (j := ⟨st, .seek, 0, 0, 0, []⟩) hs htail
    have does {e : Device} (hf : d.findPlace p ⟨st, .seek, 0, 0, 0, []⟩ = e) : ends e.settled :=
      exec_command_performs h (k := .append) hb hl (htake.trans hf)
    have answers {status : Status} (hf : d.findPlace p ⟨st, .seek, 0, 0, 0, []⟩ = d.answer p status []) : answered status :=
      exec_command_only_answers h .append tag body status [] hb hl (htake.trans hf)
    have room (e : Device) := e.allocateOrWait_of p (j := ⟨st, .seek, 0, 0, 0, []⟩) rfl
    refine ⟨fun hq hp => answers (hrefuse hq hp), fun hq => ⟨fun hnil hnone => ?_, fun hnil hsome => ?_, fun n pool hpool hn => ?_⟩,
      fun head rest hq hp hchain hoff => ?_⟩
    · exact answers ((hbelow hq).trans ((room d).2.1 hnil hnone))
    · have hquiet : (wait d).quiet :=
        h.1.2.1.atRest.waitsForSpace h.1.2.2 (.known tag .append body) job hw.1 (d.spaceWait ++ [p])
      have := does ((hbelow hq).trans ((room d).2.2 hnil hsome))
      rwa [Device.settled_quiet hquiet] at this
    · exact ⟨does ((hbelow hq).trans ((room d).1 (by rw [show d.freePool = n :: pool from hpool]; nofun))),
        Device.allocate_spec (d := d) hs hpool hn⟩
    · intro waiting dropped x
      have hready : ((d.toExec p .check job).leavePlaceWait (.executor p)).toExecState p .check = waiting := by
        have hlist : d.writer.placeWait.filter (· != .executor p) = d.writer.placeWait :=
          List.filter_eq_self.mpr fun w hw => bne_iff_ne.mpr fun e => hoff (e ▸ hw)
        have hleave : (d.toExec p .check job).leavePlaceWait (.executor p) = d.toExec p .check job := by
          unfold Device.leavePlaceWait
          rw [Device.toExec_writer, hlist]
          rfl
        rw [hleave]
        exact Device.toExec_toExecState _ _ _ _ _
      obtain ⟨hplaces, hwaits⟩ := Device.withPlaces_of (d.toExec p .check job) p (fun d => d.dropHead st)
        (fun d => d.allocateOrWait p ⟨st, .seek, 0, 0, 0, []⟩) hready
      have hspec := Device.dropHead_spec (d := waiting) hs hchain
      refine ⟨fun hsuff => ?_, fun hno => does ((hdrop hq hp).trans (hwaits hno)), ?_⟩
      · have hgo := (hdrop hq hp).trans (hplaces hsuff)
        exact ⟨fun hf => does (hgo.trans ((room dropped).1 hf)), fun hf hn => does (hgo.trans ((room dropped).2.1 hf hn)),
          fun hf hn => does (hgo.trans ((room dropped).2.2 hf hn))⟩
      · intro entries staged
        exact ⟨hspec.groups, hspec.entries, hspec.mark, hspec.listed, hspec.stream, fun q c hr hc =>
          ⟨(hspec.readers q c hr hc).1, fun hlt => ⟨((hspec.readers q c hr hc).2 hlt).1, fun ha =>
            ((hspec.readers q c hr hc).2 hlt).2 ((Device.received_attached _ _ (.known tag .append body) q).trans ha)⟩⟩⟩

end Sys2Proof.Machine
end

