-- ==== Sys2Proof/Proofs/BallotsClosed.lean ====
section
/-! How a ballot closes (R143, R145), and what a passed PURGE (R146 to R148) or FORMAT (R149) does. -/

namespace Sys2Proof.Machine

open Sys2Proof

-- One process elaborates the whole text: proofs taken in turn stay within its memory.
set_option Elab.async false

/-! ### A purge's cursors (R148, step 1) -/

/-- The CURSOR entry of a purged stream's reader. -/
def Device.purgedEntry (d : Device) (st : Fin 16) (next : Nat) (q : Port) : Option MetaEntry :=
  (d.cursor st q).map fun c => MetaEntry.cursor st (d.incarnation st) q next c.lost

/-- A cursor at the next sequence, its lost count kept; none where there was none. -/
def Device.purged (d e : Device) (st : Fin 16) (next : Nat) (q : Port) : Prop :=
  (d.cursor st q = none → e.cursor st q = none) ∧
  ∀ c, d.cursor st q = some c → ∃ c', e.cursor st q = some c' ∧ c'.committed = next ∧ c'.delivered = next ∧
    c'.lost = c.lost ∧ c'.level = c.level

/-- The cursors purged so far, one after another. -/
structure Device.Purged (d e : Device) (st : Fin 16) (next : Nat) (done : List Port) : Prop where
  writes : ((done.filterMap (d.purgedEntry st next)).foldl Device.stage d).writesLike e
  reach : d.Reached e
  later : ∀ q, q ∉ done → e.cursor st q = d.cursor st q
  other : ∀ st' q, st' ≠ st → e.cursor st' q = d.cursor st' q
  now : ∀ q, q ∈ done → d.purged e st next q

theorem Device.Purged.nil (d : Device) (st : Fin 16) (next : Nat) : d.Purged d st next [] :=
  ⟨.refl d, .refl d, fun _ _ => rfl, fun _ _ _ => rfl, nofun⟩

theorem Device.purgeCursor_some {d : Device} {st : Fin 16} {p : Port} {c : Cursor} (h : d.cursor st p = some c) (next : Nat) :
    d.purgeCursor st next p = (d.setCursor st p (some { c with committed := next, delivered := next })).stage
      (.cursor st (d.incarnation st) p next c.lost) := by
  rw [Device.purgeCursor, h]
  rfl

theorem Device.Purged.snoc {d e : Device} {st : Fin 16} {next : Nat} {done : List Port} (h : d.Purged e st next done) {p : Port}
    (hp : p ∉ done) : d.Purged (e.purgeCursor st next p) st next (done ++ [p]) := by
  have hat := h.later p hp
  cases hc : d.cursor st p with
  | none =>
    have hnone : e.purgeCursor st next p = e := by rw [Device.purgeCursor, hat, hc]
    rw [hnone]
    refine ⟨?_, h.reach, fun q hq => h.later q fun hd => hq (List.mem_append_left _ hd), h.other, fun q hq => ?_⟩
    · simpa [List.filterMap_append, Device.purgedEntry, hc] using h.writes
    · rcases List.mem_append.mp hq with hq | hq
      · exact h.now q hq
      · rw [List.mem_singleton.mp hq]
        exact ⟨fun _ => hat.trans hc, fun c hc' => by rw [hc] at hc'; cases hc'⟩
  | some c =>
    rw [Device.purgeCursor_some (hat.trans hc), h.reach.incarnation]
    obtain ⟨c', hc', hlike⟩ := Device.stage_cursor_self (d := e.setCursor st p (some { c with
      committed := next, delivered := next })) (Device.cursor_setCursor _ _ _ _)
      (.cursor st (d.incarnation st) p next c.lost)
    have hother (st' : Fin 16) (q : Port) (hq : st' ≠ st ∨ q ≠ p) :=
      (Device.stage_cursor_other (e.setCursor st p (some { c with committed := next, delivered := next })) hq
        (d.incarnation st) next c.lost).trans (Device.cursor_setCursor_other _ _ _ _ _ _ hq)
    have hwrites := Device.writesLike.stage (e := e.setCursor st p (some { c with committed := next, delivered := next }))
      h.writes (.cursor st (d.incarnation st) p next c.lost)
    have hjournals := (Device.Journals.refl (e.setCursor st p (some { c with
      committed := next, delivered := next }))).stage (.cursor st (d.incarnation st) p next c.lost)
    generalize (e.setCursor st p (some { c with committed := next, delivered := next })).stage
      (.cursor st (d.incarnation st) p next c.lost) = e2 at hc' hother hwrites hjournals
    refine ⟨?_, h.reach.trans ((Device.Reached.setCursors e (e.setCursor st p (some { c with
      committed := next, delivered := next })).cursors e.events).trans (.of_journals hjournals)), fun q hq => ?_,
      fun st' q hst => (hother st' q (.inl hst)).trans (h.other st' q hst), fun q hq => ?_⟩
    · rw [List.filterMap_append, List.foldl_append]
      have hlist : [p].filterMap (d.purgedEntry st next) = [.cursor st (d.incarnation st) p next c.lost] := by
        simp [Device.purgedEntry, hc]
      rw [hlist]
      exact hwrites
    · rw [List.mem_append, not_or, List.mem_singleton] at hq
      exact (hother st q (.inr hq.2)).trans (h.later q hq.1)
    · rcases List.mem_append.mp hq with hq | hq
      · have hne : q ≠ p := fun hqp => hp (hqp ▸ hq)
        unfold Device.purged
        rw [hother st q (.inr hne)]
        exact h.now q hq
      · rw [List.mem_singleton.mp hq]
        refine ⟨fun hnone => absurd (hc.symm.trans hnone) (by simp), fun c0 hc0 => ?_⟩
        rw [hc] at hc0
        cases hc0
        exact ⟨c', hc', (congrArg Cursor.committed hlike :), (congrArg Cursor.delivered hlike :),
          (congrArg Cursor.lost hlike :), (congrArg Cursor.level hlike :)⟩

/-- The cursors of a stream purged, in the order of their ports. -/
def Device.cursorsPurged (d : Device) (st : Fin 16) (next : Nat) : Device :=
  ((d.purgeCursor st next .A).purgeCursor st next .B).purgeCursor st next .C

theorem Device.cursorsPurged_spec (d : Device) (st : Fin 16) (next : Nat) :
    d.Purged (d.cursorsPurged st next) st next portList :=
  (((Device.Purged.nil d st next).snoc (p := .A) (by decide)).snoc (p := .B) (by decide)).snoc (p := .C) (by decide)

theorem Device.purgedEntries_differ (d : Device) (st : Fin 16) (next : Nat) :
    (portList.filterMap (d.purgedEntry st next)).Pairwise fun e e' => e.sameCursor e' = false := by
  have hports : portList.Pairwise (· ≠ ·) := by decide
  refine hports.filterMap _ fun p q hne e he e' he' => ?_
  obtain ⟨c, -, rfl⟩ := Option.map_eq_some_iff.mp he
  obtain ⟨c', -, rfl⟩ := Option.map_eq_some_iff.mp he'
  simp [MetaEntry.sameCursor, hne]

/-! ### A purge's chain and flags (R148, steps 2 to 4) -/

/-- A sector without a suspect mark that leaves a chain is QUEUED, with the newest serial as its mark (R14). -/
theorem foldl_releaseSector_mark (chain : List Nat) (x : Device × List Nat) {n : Nat} (hn : n < 256)
    (hs : (x.1.sector n).suspect = false) : (chain.foldl releaseSector x).1.sector n =
      if n ∈ chain then (x.1.sector n).cleared .queued x.1.newestSerial else x.1.sector n := by
  induction chain generalizing x with
  | nil => simp
  | cons m rest ih =>
    have hserial : (releaseSector x m).1.newestSerial = x.1.newestSerial := by
      rw [Device.newestSerial, ((Device.Frees.refl x.1).releaseSector (x := x) m).writer, Device.newestSerial]
    rw [List.foldl_cons]
    by_cases hmn : n = m
    · subst hmn
      have hrelease : (releaseSector x n).1.sector n = (x.1.sector n).cleared .queued x.1.newestSerial := by
        have hr : releaseSector x n = (x.1.joinQueue n, x.2) := by simp [releaseSector, hs]
        rw [hr]
        exact Device.sector_setSector x.1 _ _ hn
      rw [ih (releaseSector x n) (by rw [hrelease]; rfl), hrelease, hserial]
      simp [Sector.cleared]
    · rw [ih (releaseSector x m) (by rw [releaseSector_sector_other x hmn]; exact hs), releaseSector_sector_other x hmn,
        hserial]
      simp [hmn]

theorem Device.evalBacklogs_cursor_other (d : Device) {st st' : Fin 16} (h : st' ≠ st) (q : Port) :
    (d.evalBacklogs st).cursor st' q = d.cursor st' q := by
  unfold Device.evalBacklogs
  rw [Device.evalBacklog_cursor_other _ (.inl h), Device.evalBacklog_cursor_other _ (.inl h),
    Device.evalBacklog_cursor_other _ (.inl h)]

/-- The backlog flags evaluated: each cursor's flag by its own comparison (R64). -/
theorem Device.evalBacklogs_cursor {d : Device} {st : Fin 16} {b : StreamBody} (hs : d.stream st = some b) (q : Port) :
    (d.evalBacklogs st).cursor st q = (d.cursor st q).map fun c => { c with flag := c.behind b.next } := by
  have hstream (e : Device) (p : Port) (h : e.stream st = some b) : (e.evalBacklog st p).stream st = some b := by
    rw [Device.evalBacklog_stream]
    exact h
  have hself (e : Device) (h : e.stream st = some b) :
      (e.evalBacklog st q).cursor st q = (e.cursor st q).map fun c => { c with flag := c.behind b.next } := by
    cases hc : e.cursor st q with
    | none => simp [Device.evalBacklog, h, hc]
    | some c => exact Device.evalBacklog_cursor_self h hc
  unfold Device.evalBacklogs
  cases q with
  | A =>
    rw [Device.evalBacklog_cursor_other _ (.inr (by decide)), Device.evalBacklog_cursor_other _ (.inr (by decide)),
      hself d hs]
  | B =>
    rw [Device.evalBacklog_cursor_other _ (.inr (by decide)), hself _ (hstream d .A hs),
      Device.evalBacklog_cursor_other _ (.inr (by decide))]
  | C =>
    rw [hself _ (hstream _ .B (hstream d .A hs)), Device.evalBacklog_cursor_other _ (.inr (by decide)),
      Device.evalBacklog_cursor_other _ (.inr (by decide))]

/-- The chain of a purged stream released and its RETIRE entries staged. -/
def Device.chainPurged (d : Device) (st : Fin 16) : Device :=
  (d.emptyChain st).1.stageAll (retireEntries (d.emptyChain st).2)

theorem Device.purgeStream_eq {d : Device} {st : Fin 16} {b : StreamBody} (hs : d.stream st = some b) :
    d.purgeStream st = ((((d.cursorsPurged st b.next).chainPurged st).recount st).evalHigh st).evalBacklogs st := by
  rw [Device.purgeStream, hs]
  rfl

/-- What a purge leaves of its stream, its cursors, its chain and the buffer (R148). -/
structure Device.StreamPurged (d e : Device) (st : Fin 16) (b : StreamBody) (staged : Device) : Prop where
  stream : ∃ b', (b' = b ∨ b' = b.apart) ∧ e.stream st = some { b' with
    chain := [], used := 0, oldest := b.next, high := decide (b.quota * 16 ≤ b.margin) }
  groups : ∃ groups : List (List Nat),
    (∀ g ∈ groups, 1 ≤ g.length ∧ g.length ≤ 8 ∧ ∀ n ∈ g, n ∈ b.chain ∧ n ∈ e.badList) ∧
    e.writer = (groups.foldl (fun d g => d.stage (.retire g)) staged).writer
  entries : d.writer.takesEntries = true →
    d.writer.nextSerial + (portList.filterMap (d.purgedEntry st b.next)).length ≤ 4294967295 →
    ∀ entry ∈ portList.filterMap (d.purgedEntry st b.next), ∃ y ∈ e.writer.staging, y.cond = .opened ∧ y.entry = entry
  mark : ∀ n ∈ b.chain, n < 256 → (d.sector n).suspect = false →
    e.sector n = (d.sector n).cleared .queued (staged.writer.nextSerial - 1)
  incarnation : e.incarnation st = d.incarnation st
  pool : e.freePool = d.freePool
  listed : ∀ n ∈ b.chain, n ∈ e.eraseQueue ∨ n ∈ e.badList
  gone : ∀ q, d.cursor st q = none → e.cursor st q = none
  cursors : ∀ q c, d.cursor st q = some c → ∃ c', e.cursor st q = some c' ∧ c'.committed = b.next ∧
    c'.delivered = b.next ∧ c'.lost = c.lost ∧ c'.level = c.level ∧ c'.flag = false
  other : ∀ st' q, st' ≠ st → e.cursor st' q = d.cursor st' q

theorem Device.purgeStream_spec {d : Device} {st : Fin 16} {b : StreamBody} (hs : d.stream st = some b) :
    d.StreamPurged (d.purgeStream st) st b ((portList.filterMap (d.purgedEntry st b.next)).foldl Device.stage d) := by
  have hpurged := d.cursorsPurged_spec st b.next
  rw [Device.purgeStream_eq hs, Device.chainPurged]
  generalize d.cursorsPurged st b.next = e at hpurged
  obtain ⟨b1, hs1, hor1⟩ := hpurged.reach.some_stream hs
  have hchain1 : b1.chain = b.chain := by rcases hor1 with rfl | rfl <;> rfl
  have hempty := Device.emptyChain_eq hs1
  rw [hchain1] at hempty
  have hfrees := (Device.Frees.refl e).foldl_releaseSector b.chain (x := (e, []))
  have hunheld := foldl_releaseSector_unheld b.chain (e, [])
  have hlists := foldl_releaseSector_lists b.chain (e, [])
  have hbad := foldl_releaseSector_bad b.chain (e, [])
  have hmark := fun n => foldl_releaseSector_mark b.chain (e, []) (n := n)
  rw [hempty]
  generalize (b.chain.foldl releaseSector (e, [])).2 = retired at hbad
  generalize (b.chain.foldl releaseSector (e, [])).1 = f at hfrees hunheld hlists hbad hmark
  obtain ⟨b2, hs2, hor2⟩ : ∃ b2, f.stream st = some b2 ∧ (b2 = b1 ∨ b2 = b1.apart) := by
    rcases hunheld st with h | h <;> rw [h, hs1]
    exacts [⟨b1, rfl, .inl rfl⟩, ⟨b1.apart, rfl, .inr rfl⟩]
  have hframe := f.setChain_frame st []
  have hs3 := Device.setChain_self hs2 []
  have hginc := ((Device.Frees.refl f).setChain st []).incarnation
  dsimp only
  generalize f.setChain st [] = g at hframe hs3 hginc
  have hjournals := (Device.Journals.refl g).stageAll (retireEntries retired)
  have hcursors := g.stageRetires_cursors retired
  have hkeeps {z : Staged} (hz : z ∈ g.writer.staging) := Device.stageRetires_keeps hz retired
  have hfwriter : f.writer = e.writer := by rw [hfrees.frame]
  have hfcursors : f.cursors = e.cursors := by rw [hfrees.frame]
  have hfpool : f.freePool = e.freePool := by rw [hfrees.frame]
  have hgwriter : g.writer = f.writer := by rw [hframe]
  have hgcursors : g.cursors = f.cursors := by rw [hframe]
  have hgpool : g.freePool = f.freePool := by rw [hframe]
  have hgarbiter : g.arbiter = f.arbiter := by rw [hframe]
  have hgqueue : g.eraseQueue = f.eraseQueue := by rw [hframe]
  have hgbad : g.badList = f.badList := by rw [hframe]
  have hgsectors : g.sectors = f.sectors := by rw [hframe]
  have hwrites : ((portList.filterMap (d.purgedEntry st b.next)).foldl Device.stage d).writesLike g :=
    hpurged.writes.trans ⟨hgwriter.trans hfwriter, fun _ => by rw [hgarbiter]; exact hfrees.arbiter.1⟩
  obtain ⟨groups, hperm, -, hsize, -, hstages⟩ := retireEntries_grouped retired
  have hwriter := (hwrites.stageAll (retireEntries retired)).1
  rw [hstages ((portList.filterMap (d.purgedEntry st b.next)).foldl Device.stage d)] at hwriter
  generalize g.stageAll (retireEntries retired) = h at hjournals hcursors hkeeps hwriter
  obtain ⟨b4, hs4, hor4⟩ := hjournals.some_stream hs3
  have hlast := h.recounted_frame st
  have hs5 := h.recounted_self st hs4
  have hiinc := (((Device.Frees.refl h).recount st).evalHigh st).incarnation
  generalize (h.recount st).evalHigh st = i at hlast hs5 hiinc
  have hj := i.evalBacklogs_frame st
  have hc := fun q => Device.evalBacklogs_cursor hs5 q
  have hco := fun st' (hst : st' ≠ st) q => i.evalBacklogs_cursor_other hst q
  have hjs := i.evalBacklogs_stream st st
  generalize i.evalBacklogs st = j at hj hc hco hjs
  have hjcursor (st' : Fin 16) (q : Port) : i.cursor st' q = e.cursor st' q := by
    rw [Device.cursor, Device.cursor, hlast]
    show (h.cursors[st'.val]).get q = _
    simp only [hcursors, hgcursors, hfcursors]
  have hjwriter : j.writer = h.writer := by rw [hj, hlast]
  have hjqueue : j.eraseQueue = f.eraseQueue := by rw [hj, hlast]; exact hjournals.eraseQueue.trans hgqueue
  have hjbad : j.badList = f.badList := by rw [hj, hlast]; exact hjournals.badList.trans hgbad
  have hjsector (n : Nat) : j.sector n = f.sector n := Device.sector_congr
    ((by rw [hj, hlast] : j.sectors = h.sectors).trans (hjournals.sectors.trans hgsectors)) n
  have hnext : b4.next = b.next := by
    rcases hor1 with rfl | rfl <;> rcases hor2 with rfl | rfl <;> rcases hor4 with rfl | rfl <;> rfl
  refine ⟨?_, ⟨groups, fun gr hgr => ⟨(hsize gr hgr).1, (hsize gr hgr).2, fun n hn => ?_⟩, hjwriter.trans hwriter⟩,
    fun ht hlt entry he => ?_, fun n hn hlt hclean => ?_, ?_, ?_, fun n hn => ?_, fun q hq => ?_, fun q c hq => ?_,
    fun st' q hst => ?_⟩
  · have hshape : ∃ b', (b' = b ∨ b' = b.apart) ∧ b4 = { b' with chain := [] } := by
      rcases hor1 with rfl | rfl <;> rcases hor2 with rfl | rfl <;> rcases hor4 with rfl | rfl
      exacts [⟨b2, .inl rfl, rfl⟩, ⟨b2.apart, .inr rfl, rfl⟩, ⟨b1.apart, .inr rfl, rfl⟩, ⟨b1.apart, .inr rfl, rfl⟩,
        ⟨b.apart, .inr rfl, rfl⟩, ⟨b.apart, .inr rfl, rfl⟩, ⟨b.apart, .inr rfl, rfl⟩, ⟨b.apart, .inr rfl, rfl⟩]
    obtain ⟨b', hb', rfl⟩ := hshape
    refine ⟨b', hb', hjs.trans (hs5.trans ?_)⟩
    rcases hb' with rfl | rfl <;> rfl
  · rcases (hbad n).2 (hperm.mem_iff.mp (List.mem_flatten_of_mem hgr hn)) with hno | hyes
    · cases hno
    · rw [hjbad]
      exact hyes
  · obtain ⟨w, hw, hopen, hentry⟩ := Device.stageAll_holds (d.purgedEntries_differ st b.next) ht hlt entry he
    refine ⟨w, ?_, hopen, hentry⟩
    rw [hjwriter]
    refine hkeeps ?_
    rw [hwrites.1]
    exact hw
  · rw [hjsector, hmark n hlt (by rw [hpurged.reach.sector]; exact hclean), if_pos hn, hpurged.reach.sector,
      Device.newestSerial, hpurged.writes.1]
  · have hji : j.incarnation st = h.incarnation st := ((by rw [hj]; rfl : j.incarnation st = i.incarnation st)).trans (hiinc st)
    exact hji.trans ((hjournals.incarnation st).trans ((hginc st).trans ((hfrees.incarnation st).trans
      (hpurged.reach.incarnation st))))
  · rw [hj, hlast]
    exact hjournals.freePool.trans (hgpool.trans (hfpool.trans hpurged.reach.freePool))
  · rw [hjqueue, hjbad]
    exact hlists n (.inl hn)
  · rw [hc, hjcursor, (hpurged.now q (by cases q <;> simp [portList])).1 hq]
    rfl
  · obtain ⟨c', hc', hcom, hdel, hlost, hlevel⟩ := (hpurged.now q (by cases q <;> simp [portList])).2 c hq
    refine ⟨{ c' with flag := c'.behind b4.next }, by rw [hc, hjcursor, hc']; rfl, hcom, hdel, hlost, hlevel, ?_⟩
    show c'.behind b4.next = false
    simp [Cursor.behind, hcom, hnext]
  · rw [hco st' hst, hjcursor, hpurged.other st' q hst]

/-! ### The engine stopped (R102, R149, R178) -/

/-- An abandoned erase is gone, with the array released where the engine held it (R82, R102). -/
theorem Device.eraseAbandoned_shape (d : Device) : ∃ S, d.eraseAbandoned = if d.arbiter.holder = some .engine then
    ({ d with sectors := S, eraseCtx := none, engine := { d.engine with current := none, state := .idle } } : Device).release
    else { d with sectors := S, eraseCtx := none, engine := { d.engine with current := none, state := .idle } } := by
  unfold Device.eraseAbandoned
  cases hc : d.engine.current with
  | none => exact ⟨d.sectors, rfl⟩
  | some c =>
    rcases c with ⟨sector, source, suspensions⟩
    cases source with
    | slot => exact ⟨d.sectors, rfl⟩
    | queue =>
      obtain ⟨S, hS⟩ : ∃ S, d.setSector sector { d.sector sector with state := .queued } = { d with sectors := S } :=
        ⟨_, Device.setSector_frame _ _ _⟩
      simp only [hS]
      exact ⟨S, rfl⟩

/-- An erase abandoned: the array's registers, the engine's place in its erase and that sector's descriptor change, and the
array is released at most (R82, R102). -/
theorem Device.abandonErase_frame (d : Device) : d.abandonErase =
    { d with
      sectors := d.abandonErase.sectors, arrayOp := d.abandonErase.arrayOp, eraseCtx := d.abandonErase.eraseCtx
      arbiter := d.abandonErase.arbiter
      engine := { d.engine with current := d.abandonErase.engine.current, state := d.abandonErase.engine.state } } ∧
    (d.abandonErase.arbiter.starved = d.arbiter.starved ∨ d.abandonErase.arbiter.starved = false) ∧
    (d.abandonErase.arbiter.holder = d.arbiter.holder ∨
      d.arbiter.holder = some .engine ∧ d.abandonErase.arbiter.holder = none) := by
  have hgone (d : Device) : d.eraseAbandoned =
      { d with
        sectors := d.eraseAbandoned.sectors, arrayOp := d.eraseAbandoned.arrayOp, eraseCtx := d.eraseAbandoned.eraseCtx
        arbiter := d.eraseAbandoned.arbiter
        engine := { d.engine with current := d.eraseAbandoned.engine.current, state := d.eraseAbandoned.engine.state } } ∧
      d.eraseAbandoned.arbiter.starved = d.arbiter.starved ∧
      (d.eraseAbandoned.arbiter.holder = d.arbiter.holder ∨
        d.arbiter.holder = some .engine ∧ d.eraseAbandoned.arbiter.holder = none) := by
    obtain ⟨S, hS⟩ := d.eraseAbandoned_shape
    rw [hS]
    split
    · rename_i h
      exact ⟨rfl, rfl, .inr ⟨h, rfl⟩⟩
    · exact ⟨rfl, rfl, .inl rfl⟩
  unfold Device.abandonErase
  cases hx : d.eraseCtx with
  | none => exact ⟨by cases d; cases hx; rfl, .inl rfl, .inl rfl⟩
  | some x =>
    dsimp only
    cases x.phase with
    | suspended =>
      obtain ⟨hframe, hstarved, hholder⟩ := hgone d.withdrawEngineClaim
      exact ⟨hframe.trans rfl, .inr hstarved, hholder⟩
    | running => exact ⟨rfl, .inl rfl, .inl rfl⟩
    | suspending => exact ⟨rfl, .inl rfl, .inl rfl⟩

/-- What stopping the engine leaves alone, and what it leaves of the engine and the arbiter. -/
structure Device.EngineStopped (d e : Device) : Prop where
  frame : e = { d with
    sectors := e.sectors, arrayOp := e.arrayOp, eraseCtx := e.eraseCtx, arbiter := e.arbiter, engine := e.engine }
  slot : e.engine.slot = []
  outcome : e.engine.outcome = none
  starved : e.arbiter.starved = false
  holder : e.arbiter.holder = d.arbiter.holder ∨ d.arbiter.holder = some .engine ∧ e.arbiter.holder = none

theorem Device.stopEngine_spec (d : Device) : d.EngineStopped d.stopEngine := by
  unfold Device.stopEngine
  dsimp only
  obtain ⟨hframe, hstarved, hholder⟩ := Device.abandonErase_frame { d with
    engine := { d.engine with slot := [] }
    arbiter := { d.arbiter with starved := false, starveTimer := false } }
  generalize Device.abandonErase _ = e at hframe hstarved hholder
  have hdiscard : d.EngineStopped e.discardOutcome := by
    have hquiet : e.discardOutcome.arbiter.starved = false := by
      rcases hstarved with h | h <;> exact h
    refine ⟨?_, ?_, rfl, hquiet, hholder⟩
    · rw [hframe]
      rfl
    · rw [hframe]
      rfl
  split
  · exact ⟨by rw [hdiscard.frame], hdiscard.slot, hdiscard.outcome, hdiscard.starved, hdiscard.holder⟩
  · exact hdiscard

/-! ### Entry into FORMATTING (R149) -/

/-- An executor that waits for space, for places or for durability is answered ABORTED (R149). -/
def toldFormat (x : Executor) (h : HostPort) (x' : Executor) (h' : HostPort) : Prop :=
  (x.state = .waitSpace ∨ x.waiting → x' = Executor.rest ∧ h' = h.told x.inHand .aborted []) ∧
  h'.attached = h.attached

theorem Device.formatExecutor_cases (d : Device) (p : Port) : d.formatExecutor p = d.answer p .aborted [] ∨
    ¬ ((d.exec p).state = .waitSpace ∨ (d.exec p).waiting) ∧
      (d.formatExecutor p = d ∨ ∃ j, d.formatExecutor p = d.toExec p .onArray j) := by
  have hnot (h1 : (d.exec p).state ≠ .waitSpace) (h2 : (d.exec p).state ≠ .waitStaging)
      (h3 : ∀ n, (d.exec p).state ≠ .waitDurable n) : ¬ ((d.exec p).state = .waitSpace ∨ (d.exec p).waiting) := by
    rintro (h | h | ⟨n, h⟩)
    exacts [h1 h, h2 h, h3 n h]
  unfold Device.formatExecutor
  cases hs : (d.exec p).state with
  | waitSpace => exact .inl rfl
  | waitStaging => exact .inl rfl
  | waitDurable n => exact .inl rfl
  | onArray =>
    refine .inr ⟨hs ▸ hnot (by rw [hs]; nofun) (by rw [hs]; nofun) (fun n => by rw [hs]; nofun), ?_⟩
    cases (d.exec p).job with
    | append j => exact .inr ⟨_, rfl⟩
    | none => exact .inl rfl
    | read _ _ => exact .inl rfl
    | reading _ _ _ _ _ => exact .inl rfl
    | created _ _ => exact .inl rfl
    | acked _ => exact .inl rfl
  | idle => exact .inr ⟨hs ▸ hnot (by rw [hs]; nofun) (by rw [hs]; nofun) (fun n => by rw [hs]; nofun), .inl rfl⟩
  | check => exact .inr ⟨hs ▸ hnot (by rw [hs]; nofun) (by rw [hs]; nofun) (fun n => by rw [hs]; nofun), .inl rfl⟩
  | waitArray => exact .inr ⟨hs ▸ hnot (by rw [hs]; nofun) (by rw [hs]; nofun) (fun n => by rw [hs]; nofun), .inl rfl⟩
  | waitSlot => exact .inr ⟨hs ▸ hnot (by rw [hs]; nofun) (by rw [hs]; nofun) (fun n => by rw [hs]; nofun), .inl rfl⟩

theorem portwise_formatExecutor : Portwise Device.formatExecutor := by
  refine ⟨fun d p => ?_, fun d p q hq => ?_⟩ <;>
    rcases d.formatExecutor_cases p with h | ⟨-, h | ⟨j, h⟩⟩ <;> rw [h]
  · rw [Device.answer_changes]
  · rfl
  · exact ⟨Device.answer_exec_other _ hq, Device.answer_port_other _ hq⟩
  · exact ⟨rfl, rfl⟩
  · exact ⟨Device.exec_setExec_other _ _ _ _ hq, rfl⟩

theorem Device.formatExecutor_told (d : Device) (q : Port) :
    toldFormat (d.exec q) (d.port q) ((d.formatExecutor q).exec q) ((d.formatExecutor q).port q) := by
  rcases d.formatExecutor_cases q with h | ⟨hnot, h | ⟨j, h⟩⟩ <;> rw [h]
  · exact ⟨fun _ => ⟨Device.answer_exec _ _ _ _, Device.answer_port _ _ _ _⟩,
      by rw [Device.answer_port]; exact ((d.port q).told_fields _ _ _).2⟩
  · exact ⟨fun hw => absurd hw hnot, rfl⟩
  · exact ⟨fun hw => absurd hw hnot, rfl⟩

/-- The entry into FORMATTING: executors, engine and writer in turn. -/
theorem Device.enterFormatting_spec {d : Device} (hb : d.consent.ballot = none) :
    let f := d.enterFormatting
    f = { d with
      mode := .formatting, reason := .none, events := (d.enterState .formatting).events, ports := f.ports
      execs := f.execs, spaceWait := [], sectors := f.sectors, arrayOp := f.arrayOp, eraseCtx := f.eraseCtx
      arbiter := f.arbiter, engine := f.engine, writer := f.writer
      consent := { d.consent with state := .formatDrain, formatErased := 0, formatHalf := f.consent.formatHalf } } ∧
    f.consent.formatHalf = (match d.writer.activeHalf with | some h => 1 - h | none => 0) ∧
    f.engine.slot = [] ∧ f.engine.outcome = none ∧ f.arbiter.starved = false ∧
    (∀ q, toldFormat (d.exec q) (d.port q) (f.exec q) (f.port q)) ∧
    f.writer.activeHalf = none ∧ f.writer.staging = [] ∧ f.writer.placeWait = [] ∧ f.writer.phase = .none ∧
    (d.arbiter.holder ≠ some .writer → f.writer.state = .idle) := by
  have henter := Device.enterState_frame hb .formatting
  have hholder : (d.enterState .formatting).arbiter.holder = d.arbiter.holder := by
    rw [((Device.Controls.refl d).enterState .formatting).arbiter.1]
  have htold := portwise_formatExecutor.eachPort_as Device.formatExecutor_told (d.enterState .formatting)
  have heach := portwise_formatExecutor.eachPort_frame (d.enterState .formatting)
  have hreason : d.reasonOnEntry .formatting = .none := rfl
  generalize he : d.enterState .formatting = e at henter hholder htold heach
  generalize hg : eachPort Device.formatExecutor e = g at htold heach
  have hstop := Device.stopEngine_spec { g with spaceWait := [] }
  obtain ⟨k, hk⟩ : ∃ k, Device.stopEngine { g with spaceWait := [] } = k := ⟨_, rfl⟩
  rw [hk] at hstop
  have hhalf : d.enterFormatting.consent.formatHalf = (match d.writer.activeHalf with | some h => 1 - h | none => 0) := rfl
  have hf : d.enterFormatting = { Device.formatWriter k with
      consent := { (Device.formatWriter k).consent with
        state := .formatDrain, formatErased := 0, formatHalf := d.enterFormatting.consent.formatHalf } } := by
    rw [← hk, ← hg, ← he]
    rfl
  dsimp only
  generalize d.enterFormatting.consent.formatHalf = half at hhalf hf
  rw [hf]
  refine ⟨?_, hhalf, hstop.slot, hstop.outcome, hstop.starved, fun q => ?_, rfl, rfl, rfl, rfl, fun hne => ?_⟩
  · have hall : k = { d with
        mode := .formatting, reason := .none, events := e.events, ports := g.ports, execs := g.execs, spaceWait := []
        sectors := k.sectors, arrayOp := k.arrayOp, eraseCtx := k.eraseCtx, arbiter := k.arbiter, engine := k.engine } :=
      hstop.frame.trans ((congrArg (fun x : Device => { x with
        spaceWait := [], sectors := k.sectors, arrayOp := k.arrayOp, eraseCtx := k.eraseCtx, arbiter := k.arbiter
        engine := k.engine }) heach).trans (congrArg (fun x : Device => { x with
        ports := g.ports, execs := g.execs, spaceWait := [], sectors := k.sectors, arrayOp := k.arrayOp
        eraseCtx := k.eraseCtx, arbiter := k.arbiter, engine := k.engine }) henter))
    exact congrArg (fun x : Device => { x with
      ports := k.ports, execs := k.execs, writer := (Device.formatWriter k).writer
      consent := { x.consent with
        state := .formatDrain, formatErased := 0, formatHalf := half } }) hall
  · have hexecs : k.execs = g.execs := (congrArg Device.execs hstop.frame :)
    have hports : k.ports = g.ports := (congrArg Device.ports hstop.frame :)
    have hthis := htold q
    rw [show e.exec q = d.exec q by rw [henter]; rfl, show e.port q = d.port q by rw [henter]; rfl] at hthis
    show toldFormat _ _ (k.execs.get q) (k.ports.get q)
    rw [hexecs, hports]
    exact hthis
  · have hk' : k.arbiter.holder ≠ some .writer := by
      have hge : g.arbiter.holder = d.arbiter.holder := by rw [heach]; exact hholder
      rcases hstop.holder with h | ⟨-, h⟩ <;> rw [h]
      · exact fun h' => hne (hge.symm.trans h')
      · nofun
    show (if (k.arbiter.holder == some .writer) = true then k.writer.state else .idle) = _
    rw [if_neg (by simpa using hk')]

/-! ### Closing a ballot (R145) -/

theorem Device.closeBallot_consent {d : Device} {bl : Ballot} (h : d.consent.ballot = some bl) (o : BallotOutcome) :
    (d.closeBallot o).consent = { d.consent with ballot := none, state := .idle } := by
  rw [Device.closeBallot_frame _ _ _ h]

/-- BALLOT_DONE goes to the attached parties (R145, R153). -/
theorem Device.closeBallot_events {d : Device} {bl : Ballot} (h : d.consent.ballot = some bl) (o : BallotOutcome) (q : Port) :
    (d.closeBallot o).events.get q = if bl.parties.get q = true ∧ (d.port q).attached = true
      then (d.events.get q).offer ⟨.ballotDone, some bl.id.toNat, some o.code⟩ else d.events.get q := by
  have hport : (d.holdBallotStream bl.op false).port q = d.port q := by
    rw [Device.holdBallotStream_frame]
    rfl
  have hevents : (d.holdBallotStream bl.op false).events = d.events := by rw [Device.holdBallotStream_frame]
  rw [Device.closeBallot_frame _ _ _ h]
  show ((d.holdBallotStream bl.op false).offerSet bl.parties _).events.get q = _
  rw [Device.offerSet_events, hport, hevents]

/-- The stream of a purge ballot is no longer held (R145). -/
theorem Device.closeBallot_stream {d : Device} {bl : Ballot} (h : d.consent.ballot = some bl) (o : BallotOutcome)
    {st : Fin 16} {inc : Byte} (hop : bl.op = .purge st inc) {b : StreamBody} (hs : d.stream st = some b) :
    (d.closeBallot o).stream st = some { b with ballotHeld := false } := by
  have hstreams : (d.closeBallot o).streams = (d.holdBallotStream bl.op false).streams := by
    rw [Device.closeBallot_frame _ _ _ h]
  rw [Device.stream, hstreams, hop]
  show (d.setBallotHeld st false).stream st = _
  simp [Device.setBallotHeld, hs]

/-! ### The purge due (R146, R147) -/

theorem Device.joinPlaceWait_consent (d : Device) (who : Waiter) : (d.joinPlaceWait who).consent = d.consent := by
  rw [Device.joinPlaceWait_frame]

/-- A pending purge: discarded where its stream is gone, put off by an append in flight, otherwise tried at once. -/
theorem Device.stepPurge_pending {d : Device} (hstate : d.consent.state = .purgePending) :
    (d.purgeTarget = none → d.stepPurge = some d.tryPurge) ∧
    ∀ st b, d.purgeTarget = some (st, b) →
      (d.appendInFlight st b = true → d.stepPurge = none) ∧
      (d.appendInFlight st b = false → d.stepPurge = some d.tryPurge) := by
  refine ⟨fun h => ?_, fun st b h => ⟨fun hf => ?_, fun hf => ?_⟩⟩ <;> simp [Device.stepPurge, hstate, h]
  · exact hf
  · exact hf

theorem Device.consequence_of_stepPurge {d e : Device} (h : d.stepPurge = some e) : d.consequence = some e := by
  rw [Device.consequence, h]
  rfl

/-- Settles O30: a ballot's close, the window's end, the purge by its tests and its changes, and the entry into FORMATTING. -/
theorem ballotClosesInOneEvent : Obligations.BallotClosesInOneEvent := by
  refine ⟨fun d bl outcome hb => ?_, fun s bl ha hq hb => ?_, fun d st inc hstate hpend => ?_, fun d st b hs => ?_,
    fun d hstate hholder hop hctx hexec hwriter hengine => ?_⟩
  · intro d'
    have hconsent := Device.closeBallot_consent hb outcome
    have hevents := Device.closeBallot_events hb outcome
    refine ⟨congrArg Consent.ballot hconsent, fun _ => hconsent, fun st inc b hop hs => Device.closeBallot_stream hb outcome hop hs,
      fun q hp ha => (hevents q).trans (if_pos ⟨hp, ha⟩), fun q hor => (hevents q).trans (if_neg ?_), fun st inc hop => ?_,
      fun hop => ?_⟩
    · rintro ⟨hp, ha⟩
      rcases hor with h | h
      · rw [hp] at h
        cases h
      · rw [ha] at h
        cases h
    · rw [Device.passBallot, hop]
      dsimp only
      rw [Device.closeBallot_consent hb .passed]
    · intro f
      have hf : f = (d.closeBallot .passed).enterFormatting := by
        show d.passBallot bl = _
        rw [Device.passBallot, hop]
      have hclosed := Device.closeBallot_consent hb .passed
      have hframe := Device.closeBallot_frame d .passed bl hb
      have hev := Device.closeBallot_events hb .passed
      have hstreams : (d.closeBallot .passed).streams = d.streams := by
        rw [hframe, hop]
        rfl
      obtain ⟨hff, hhalf, hslot, houtcome, hstarved, htold, hactive, hstaging, hplaces, hphase, hidle⟩ :=
        Device.enterFormatting_spec (d := d.closeBallot .passed) (congrArg Consent.ballot hclosed)
      rw [← hf] at hff hhalf hslot houtcome hstarved htold hactive hstaging hplaces hphase hidle
      have hwriter : (d.closeBallot .passed).writer = d.writer := by rw [hframe]
      have harbiter : (d.closeBallot .passed).arbiter = d.arbiter := by rw [hframe]
      have hexec (q : Port) : (d.closeBallot .passed).exec q = d.exec q := by rw [hframe]; rfl
      have hport (q : Port) : (d.closeBallot .passed).port q = d.port q := by rw [hframe]; rfl
      have henter := Device.enterState_events (d := d.closeBallot .passed) (m := .formatting) rfl (congrArg Consent.ballot hclosed)
      refine ⟨by rw [hff], by rw [hff], by rw [hff], by rw [hff], by rw [hwriter] at hhalf; exact hhalf, hactive, hstaging, hplaces,
        hphase, fun h => hidle (by rw [harbiter]; exact h), hslot, houtcome, hstarved, by rw [hff], ?_, ?_, ?_, ?_, ?_,
        fun q ha => ?_, fun q hwait => ?_⟩
      · exact (by rw [hff] : f.streams = (d.closeBallot .passed).streams).trans hstreams
      · rw [hff, hframe]
      · rw [hff, hframe]
      · rw [hff, hframe]
      · rw [hff, hframe]
      · have hfe : f.events = ((d.closeBallot .passed).enterState .formatting).events := by rw [hff]
        rw [hfe, henter q, hport, if_pos ha, hev q]
        simp only [ha, and_true]
        rfl
      · obtain ⟨htell, -⟩ := htold q
        rw [hexec, hport] at htell
        obtain ⟨hrest, hresp⟩ := htell (hwait.imp_right id)
        refine ⟨hrest, fun r hr => ?_⟩
        rw [hresp, HostPort.told_some hr]
  · show Host.Outcome.next (s.event Device.windowTimeout) = _
    have htimeout : s.dev.windowTimeout = some (s.dev.closeBallot .expired) := by rw [Device.windowTimeout, hb]
    rw [State.event, if_pos ha, htimeout]
    dsimp only
    rw [show (s.dev.closeBallot .expired).settle = _ from settleFor_quiet (Device.quiet_closeBallot hq .expired) _]
    rfl
  · intro finish
    obtain ⟨hnone, hsome⟩ := Device.stepPurge_pending hstate
    obtain ⟨htnone, htsome⟩ := d.tryPurge_of
    refine ⟨fun hgone => ?_, fun b hs hinc => ?_⟩
    · have ht := Device.purgeTarget_gone hpend hgone
      exact Device.consequence_of_stepPurge ((hnone ht).trans (congrArg some (htnone ht)))
    · have ht := Device.purgeTarget_of hpend hs hinc
      obtain ⟨hfly, hrest⟩ := hsome st b ht
      obtain ⟨-, htry⟩ := htsome st b ht
      refine ⟨hfly, fun hno => ⟨fun hp => ?_, fun hp => ?_⟩⟩
      · exact Device.consequence_of_stepPurge ((hrest hno).trans (congrArg some ((htry hno).1 hp)))
      · refine Device.consequence_of_stepPurge ((hrest hno).trans (congrArg some (((htry hno).2 hp).trans ?_)))
        rw [Device.joinPlaceWait_consent]
  · intro e
    have h := Device.purgeStream_spec hs
    obtain ⟨b', hor, hstream⟩ := h.stream
    refine ⟨⟨_, hstream, ?_⟩, h.groups, h.entries, h.mark, h.incarnation, h.pool, h.listed, h.gone, h.cursors, h.other⟩
    rcases hor with rfl | rfl <;> exact ⟨rfl, rfl, rfl, rfl, rfl, rfl, rfl, rfl, rfl, rfl, rfl⟩
  · have hclaimant : d.nextClaimant = none := by
      simp only [Device.someExecClaims, Bool.or_eq_false_iff] at hexec
      obtain ⟨⟨hA, hB⟩, hC⟩ := hexec
      cases hp : d.arbiter.pointer <;> simp [Device.nextClaimant, roundRobin, hp, hA, hB, hC, hwriter, hengine]
    unfold Device.stepDrain
    rw [if_pos (by simp [hstate, hholder, hop, hctx, hclaimant])]
    rfl

end Sys2Proof.Machine
end

