-- ==== Sys2Proof/Proofs/LinkResets.lean ====
section
/-! LINK_RESET: what it does to the request in hand, the queues and the session (R44, R107, R160, R170). -/

namespace Sys2Proof.Machine

open Sys2Proof

-- One process elaborates the whole text: proofs taken in turn stay within its memory.
set_option Elab.async false

/-! ### A request abandoned (R170, step 2) -/

/-- A page between the steps of an append VOID: every session as it was (R44). -/
theorem Device.abandonPage_attached (d : Device) (p : Port) (j : AppendJob) (q : Port) :
    ((d.abandonPage p j).port q).attached = (d.port q).attached := by
  have hpage : (d.setPageState j.sector j.page .void).ports = d.ports := by
    unfold Device.setPageState
    rw [Device.setSector_frame]
  have hports : ((d.setPageState j.sector j.page .void).reclaim j.stream).1.ports = d.ports := by
    rw [((Device.Frees.refl (d.setPageState j.sector j.page .void)).reclaim j.stream).frame, hpage]
  unfold Device.abandonPage Device.stageOrDiscard
  dsimp only
  generalize ((d.setPageState j.sector j.page .void).reclaim j.stream).1 = e at hports
  have hport : (e.port q).attached = (d.port q).attached := by rw [Device.port, hports]; rfl
  split
  · exact (((Device.Journals.refl e).stageAll _).port q).2.trans hport
  · exact hport

theorem Device.leavePlaceWait_port (d : Device) (w : Waiter) (q : Port) : (d.leavePlaceWait w).port q = d.port q := rfl

/-- A claim withdrawn: a page between the steps of its append is abandoned, any other claim just goes (R44, R88). -/
theorem Device.withdrawClaim_of (d : Device) (p : Port) :
    (∀ j, (d.exec p).job = .append j → j.phase = .between → d.withdrawClaim p = d.abandonPage p j) ∧
    ((∀ j, (d.exec p).job = .append j → j.phase ≠ .between) → d.withdrawClaim p = d) := by
  refine ⟨fun j hj hp => by simp [Device.withdrawClaim, hj, hp], fun hno => ?_⟩
  unfold Device.withdrawClaim
  split
  · rename_i j hj
    split
    · rename_i hp
      exact absurd hp (hno j hj)
    all_goals rfl
  all_goals rfl

/-- The request in hand, abandoned in each executor state. -/
theorem Device.abandonRequest_of (d : Device) (p : Port) :
    ((d.exec p).state = .idle ∨ (d.exec p).state = .check ∨ (d.exec p).state = .waitSlot ∨
      (∃ serial, (d.exec p).state = .waitDurable serial) → d.abandonRequest p = d.setExec p Executor.rest) ∧
    ((d.exec p).state = .waitSpace → d.abandonRequest p = (d.leaveSpace p).setExec p Executor.rest) ∧
    ((d.exec p).state = .waitStaging →
      d.abandonRequest p = (d.leavePlaceWait (.executor p)).setExec p Executor.rest) ∧
    ((d.exec p).state = .waitArray →
      (∀ j, (d.exec p).job = .append j → j.phase = .between →
        d.abandonRequest p = (d.abandonPage p j).setExec p Executor.rest) ∧
      ((∀ j, (d.exec p).job = .append j → j.phase ≠ .between) → d.abandonRequest p = d.setExec p Executor.rest)) ∧
    ((d.exec p).state = .onArray →
      (∀ j, (d.exec p).job = .append j → d.abandonRequest p =
        (d.leavePlaceWait (.executor p)).setExec p ⟨.onArray, none, .append { j with kept := [] }⟩) ∧
      ((∀ j, (d.exec p).job ≠ .append j) → d.abandonRequest p =
        (d.leavePlaceWait (.executor p)).setExec p ⟨.onArray, none, (d.exec p).job⟩)) := by
  refine ⟨fun h => ?_, fun h => ?_, fun h => ?_, fun h => ⟨fun j hj hp => ?_, fun hno => ?_⟩,
    fun h => ⟨fun j hj => ?_, fun hno => ?_⟩⟩
  · rcases h with h | h | h | ⟨n, h⟩ <;> rw [Device.abandonRequest, h] <;> rfl
  · rw [Device.abandonRequest, h]
    rfl
  · rw [Device.abandonRequest, h]
    rfl
  · rw [Device.abandonRequest, h]
    dsimp only
    rw [(d.withdrawClaim_of p).1 j hj hp]
    rfl
  · rw [Device.abandonRequest, h]
    dsimp only
    rw [(d.withdrawClaim_of p).2 hno]
    rfl
  · have hj' : ((d.leavePlaceWait (.executor p)).exec p).job = .append j := hj
    rw [Device.abandonRequest, h]
    dsimp only [Device.detachJob]
    rw [hj']
  · rw [Device.abandonRequest, h]
    dsimp only [Device.detachJob]
    have hexec : (d.leavePlaceWait (.executor p)).exec p = d.exec p := rfl
    rw [hexec]
    cases hj : (d.exec p).job with
    | append j => exact absurd hj (hno j)
    | _ => rfl

/-! ### The session closed (R169, R170) -/

/-- A session ended, or with none the ballot of a party aborted (R170, steps 3 and 4). -/
def Device.sessionClosed (d : Device) (p : Port) (attached : Bool) : Device :=
  if attached then d.endSession p else d.abortBallotOf p

theorem Device.abortBallotOf_consent {d : Device} {p : Port} (h : d.isParty p = true) :
    (d.abortBallotOf p).consent.ballot = none := by
  rw [Device.abortBallotOf, if_pos h]
  exact Device.closeBallot_ballot d .aborted

/-- A detached port is told nothing when a ballot is aborted (R145, R153). -/
theorem Device.abortBallotOf_events {d : Device} {q : Port} (h : (d.port q).attached = false) (p : Port) :
    (d.abortBallotOf p).events.get q = d.events.get q := by
  unfold Device.abortBallotOf
  split
  · cases hb : d.consent.ballot with
    | none => rw [Device.closeBallot_none _ _ hb]
    | some bl => rw [Device.closeBallot_events hb, if_neg fun ha => by rw [h] at ha; cases ha.2]
  · rfl

theorem Device.endSession_port (d : Device) (p q : Port) :
    (d.endSession p).port q = if q = p then { d.port p with attached := false } else d.port q := by
  unfold Device.endSession Device.sendPeer
  rw [Device.offerSet_port, Device.abortBallotOf_port]
  show (d.setPort p { d.port p with attached := false }).port q = _
  split
  · rename_i h
    rw [h, Device.port_setPort]
  · rename_i h
    exact Device.port_setPort_other _ _ _ _ h

/-- The event unit of a port whose session has ended is at reset values: BALLOT_DONE and PEER reach attached ports only
(R153, R154). -/
theorem Device.endSession_events (d : Device) (p : Port) : (d.endSession p).events.get p = EventUnit.powerUp := by
  unfold Device.endSession Device.sendPeer
  rw [Device.offerSet_events, if_neg]
  · refine (Device.abortBallotOf_events ?_ p).trans ?_
    · exact congrArg HostPort.attached (Device.port_setPort d p _)
    · exact (PerPort.get_set _ _ _ _).trans (if_pos rfl)
  · rintro ⟨h, -⟩
    rw [PerPort.get_set, if_pos rfl] at h
    cases h

/-- What the closed session leaves of the ports and the consent unit (R170). -/
theorem Device.sessionClosed_of (d : Device) (p : Port) (attached : Bool) (h : (d.port p).attached = attached) :
    ((d.sessionClosed p attached).port p).attached = false ∧
    ((d.sessionClosed p attached).port p).requests = (d.port p).requests ∧
    ((d.sessionClosed p attached).port p).responses = (d.port p).responses ∧
    (attached = true → (d.sessionClosed p attached).events.get p = EventUnit.powerUp) ∧
    (d.isParty p = true → (d.sessionClosed p attached).consent.ballot = none) ∧
    ∀ q, q ≠ p → (d.sessionClosed p attached).port q = d.port q := by
  cases attached with
  | false =>
    have hp (q : Port) : (d.sessionClosed p false).port q = d.port q := Device.abortBallotOf_port d p q
    rw [hp]
    exact ⟨h, rfl, rfl, nofun, Device.abortBallotOf_consent, fun q _ => hp q⟩
  | true =>
    have hp (q : Port) : (d.sessionClosed p true).port q = if q = p then { d.port p with attached := false } else d.port q :=
      Device.endSession_port d p q
    refine ⟨by rw [hp, if_pos rfl], by rw [hp, if_pos rfl], by rw [hp, if_pos rfl], fun _ => Device.endSession_events d p,
      fun hparty => ?_, fun q hq => by rw [hp, if_neg hq]⟩
    show (d.endSession p).consent.ballot = none
    unfold Device.endSession Device.sendPeer
    rw [Device.offerSet_frame]
    exact Device.abortBallotOf_consent hparty

/-! ### LINK_RESET (R170) -/

/-- LINK_RESET by what becomes of the request in hand: the session closed on it, and the places of a waiter offered. -/
theorem Device.linkReset_of {d e : Device} {p : Port}
    (he : (d.setPort p { d.port p with requests := [], responses := [], rejected := false }).abandonRequest p = e)
    (ha : (e.port p).attached = (d.port p).attached) : d.linkReset p =
      if d.waitsForPlaces p then (e.sessionClosed p (d.port p).attached).offerPlaces
      else e.sessionClosed p (d.port p).attached := by
  rw [Device.linkReset]
  dsimp only
  rw [he, ha]
  rfl

/-- Settles O9, by the state of the executor. -/
theorem linkResetEndsTheSession : Obligations.LinkResetEndsTheSession := by
  intro s p shifted hact out h
  have hover : s.dev.transactionOver p ((s.dev.opening p).statusOut shifted) = s.dev.setPort p h := rfl
  have hends : exec (.linkReset p (.ends shifted)) s = .next (s.onDev (s.dev.linkResetEnds p shifted).settle) := by
    refine (congrArg _ (State.transaction_ends hact p 0x03#8 (List.replicate shifted 0x00#8))).trans ?_
    rw [Device.transactionEnds_linkReset, List.length_replicate]
  refine ⟨fun h0 hq => ?_, fun h1 => ?_⟩
  · rw [hends, Device.linkResetEnds, hover, if_pos h0, Device.settle_quiet]
    exact hover ▸ Device.quiet_transactionOver hq p _
  · intro d closed ends x
    have hport : (s.dev.setPort p h).port p = h := Device.port_setPort _ _ _
    have hd : (s.dev.setPort p h).setPort p { (s.dev.setPort p h).port p with
        requests := [], responses := [], rejected := false } = d := by
      rw [hport, Device.setPort_setPort]
    have hdport : d.port p = { h with requests := [], responses := [], rejected := false } := Device.port_setPort _ _ _
    have hattached : ((s.dev.setPort p h).port p).attached = (s.dev.port p).attached := by rw [hport]
    have hwait : (s.dev.setPort p h).waitsForPlaces p = s.dev.waitsForPlaces p := rfl
    have hreset {e : Device} (he : d.abandonRequest p = e) (ha : (e.port p).attached = (d.port p).attached) :
        ends (if s.dev.waitsForPlaces p then (closed e).offerPlaces else closed e).settle := by
      refine hends.trans (congrArg (fun y : Device => Host.Outcome.next (s.onDev y.settle)) ?_)
      rw [Device.linkResetEnds, hover, if_neg (by omega), Device.linkReset_of (e := e) (hd ▸ he) (by rw [ha, hport, hdport]), hattached, hwait]
      rfl
    have hnowait (hx : x.state ≠ .waitStaging) (hx' : x.state ≠ .onArray) : s.dev.waitsForPlaces p = false := by
      have h1 : (s.dev.exec p).state ≠ .waitStaging := hx
      have h2 : (s.dev.exec p).state ≠ .onArray := hx'
      simp [Device.waitsForPlaces, h1, h2]
    have hplain {e : Device} (he : d.abandonRequest p = e) (ha : (e.port p).attached = (d.port p).attached)
        (hx : x.state ≠ .waitStaging) (hx' : x.state ≠ .onArray) : ends (closed e).settle := by
      have := hreset he ha
      rwa [hnowait hx hx'] at this
    obtain ⟨hrest, hspace, hstaging, harray, hon⟩ := d.abandonRequest_of p
    refine ⟨fun hq hx => ?_, fun hx => ?_, fun hx => ?_, fun hx => ?_, fun hx => ⟨fun j hj hp => ?_, fun hno => ?_⟩,
      fun hx => ?_, fun d' hports => ?_⟩
    · have hxr : s.dev.exec p = Executor.rest := hx
      have hsame : d.setExec p Executor.rest = d := by
        rw [← hxr]
        exact d.setExec_exec p
      have hquiet : (closed d).quiet := by
        have hdq : d.quiet := Device.quiet_setPort hq p _ (Device.stepTake_none_of_empty (Device.port_setPort _ _ _ ▸ rfl))
        show (if (s.dev.port p).attached then d.endSession p else d.abortBallotOf p).quiet
        split
        · exact Device.quiet_endSession hdq p
        · exact Device.quiet_abortBallotOf hdq p
      have := hplain (hrest (.inl (by rw [show d.exec p = s.dev.exec p from rfl, hxr]; rfl))) rfl
        (by rw [hx]; nofun) (by rw [hx]; nofun)
      rw [hsame, Device.settle_quiet hquiet] at this
      exact this
    · refine hplain (hrest hx) rfl ?_ ?_ <;> rcases hx with h | h | h | ⟨n, h⟩ <;> rw [h] <;> nofun
    · exact hplain (hspace hx) rfl (by rw [hx]; nofun) (by rw [hx]; nofun)
    · have := hreset (hstaging hx) rfl
      have hw : s.dev.waitsForPlaces p = true := by
        have h1 : (s.dev.exec p).state = .waitStaging := hx
        simp [Device.waitsForPlaces, h1]
      rwa [hw] at this
    · exact hplain ((harray hx).1 j hj hp) (Device.abandonPage_attached d p j p) (by rw [hx]; nofun) (by rw [hx]; nofun)
    · exact hplain ((harray hx).2 hno) rfl (by rw [hx]; nofun) (by rw [hx]; nofun)
    · intro offered
      have hw : s.dev.waitsForPlaces p = decide (.executor p ∈ s.dev.writer.placeWait) := by
        have h1 : (s.dev.exec p).state = .onArray := hx
        simp [Device.waitsForPlaces, h1]
      have hgo {e : Device} (he : d.abandonRequest p = e) (ha : (e.port p).attached = (d.port p).attached) :
          ends (offered (closed e)).settle := by
        have := hreset he ha
        rw [hw] at this
        simpa [offered] using this
      exact ⟨fun j hj => hgo ((hon hx).1 j hj) rfl, fun hno => hgo ((hon hx).2 hno) rfl⟩
    · have hd' : d'.port p = { h with requests := [], responses := [], rejected := false } := by
        rw [Device.port, hports]
        exact hdport
      obtain ⟨hatt, hreq, hresp, hev, hball, hother⟩ := d'.sessionClosed_of p (s.dev.port p).attached (by rw [hd'])
      refine ⟨hatt, hreq.trans (by rw [hd']), hresp.trans (by rw [hd']), hev, hball, fun q hq => (hother q hq).trans ?_⟩
      rw [Device.port, hports]
      exact Device.port_setPort_other _ _ _ _ hq

end Sys2Proof.Machine
end

