-- ==== Sys2Proof/Proofs/PinsAndSupply.lean ====
section
/-! RESETn, the supply and the beginning of a mount (R69, R83, R123, R177), and PFAIL on a part with nothing to do (R178,
R180, R181). -/

namespace Sys2Proof.Machine

open Sys2Proof

-- One process elaborates the whole text: proofs taken in turn stay within its memory.
set_option Elab.async false

/-! ### Held in reset, or without supply (R177) -/

theorem State.event_inactive {s : State} (h : s.dev.active = false) (f : Device → Option Device) : s.event f = s := by
  simp [State.event, h]

theorem State.report_inactive {s : State} (h : s.dev.active = false) (f : Device → Flash → Option Rig) : s.report f = s := by
  simp [State.report, h]

/-- Only the pins and the supply act on a part held in reset or without supply. -/
theorem exec_inactive {s : State} (h : s.dev.active = false) {c : Instr} (hc : onPins c = false) : exec c s = .next s := by
  have event (f : Device → Option Device) : (.next (s.event f) : Host.Outcome State Fault Refusal) = .next s :=
    congrArg _ (State.event_inactive h f)
  have report (f : Device → Flash → Option Rig) : (.next (s.report f) : Host.Outcome State Fault Refusal) = .next s :=
    congrArg _ (State.report_inactive h f)
  cases c with
  | resetnAsserted => cases hc
  | resetnReleased => cases hc
  | endOfPowerUp => cases hc
  | supplyLoss => cases hc
  | pfailAsserted => cases hc
  | pfailReleased => cases hc
  | readPageDone => exact report _
  | mountReadDone => exact report _
  | appendStep1Done => exact report _
  | appendStep2Done => exact report _
  | appendStepFail => exact report _
  | appendVoidStepEnd verified => exact report _
  | metaStep1Done => exact report _
  | metaStep2Done => exact report _
  | metaStepFail => exact report _
  | metaVoidStepEnd verified => exact report _
  | checkpointPageCommit => exact report _
  | erasePulseEnd verified => exact report _
  | suspended => exact report _
  | abandoned => exact report _
  | _ => exact event _

/-! ### A mount begun (R123, R181) -/

/-- A part whose mount has begun: RAM at power-up but for ports, event units and executors, the first page read under
way. -/
def Device.mountBegun (P : PerPort HostPort) (E : PerPort EventUnit) (X : PerPort Executor) (n : Nat) : Device :=
  { Device.powerUp true false false n with
    ports := P, events := E, execs := X, mount := { Mount.powerUp with phase := .metaScan }, arrayOp := .read 0 0 }

section Begun

variable (P : PerPort HostPort) (E : PerPort EventUnit) (X : PerPort Executor) (n : Nat)

/-- In MOUNTING with its tables empty a part only takes requests. -/
theorem Device.mountBegun_consequence : (Device.mountBegun P E X n).consequence =
    ((Device.mountBegun P E X n).stepTake .A <|> (Device.mountBegun P E X n).stepTake .B
      <|> (Device.mountBegun P E X n).stepTake .C) := by
  have hpurge : (Device.mountBegun P E X n).stepPurge = none := rfl
  have hchoice : (Device.mountBegun P E X n).stepChoice = none := rfl
  have hcompaction : (Device.mountBegun P E X n).stepCompaction = none := rfl
  have hsnapshot : (Device.mountBegun P E X n).stepSnapshot = none := rfl
  have hclaim : (Device.mountBegun P E X n).stepClaim = none := rfl
  have hsuspend : (Device.mountBegun P E X n).stepSuspend = none := rfl
  have hmove : (Device.mountBegun P E X n).stopMove = none := rfl
  have hgrant : (Device.mountBegun P E X n).stepGrant = none := rfl
  have hdrain : (Device.mountBegun P E X n).stepDrain = none := rfl
  have hstopped : (Device.mountBegun P E X n).stepStopped = none := rfl
  unfold Device.consequence
  rw [hpurge, hchoice, hcompaction, hsnapshot, hclaim, hsuspend, hmove, hgrant, hdrain, hstopped]
  simp only [Option.orElse_eq_orElse, Option.orElse_eq_or, Option.or_none, Option.none_or]

end Begun

theorem Device.mountBegun_quiet {P : PerPort HostPort} (h : ∀ q, (P.get q).requests = []) (E : PerPort EventUnit)
    (X : PerPort Executor) (n : Nat) : (Device.mountBegun P E X n).quiet := by
  have htake (q : Port) : (Device.mountBegun P E X n).stepTake q = none := Device.stepTake_none_of_empty (h q)
  rw [Device.quiet, Device.mountBegun_consequence, htake, htake, htake]
  rfl

/-- A mount begins with PFAIL released: the first page read (R123, R181). -/
theorem Device.beginMount_begun {d : Device} (ha : d.active = true) (hp : d.pfail = false) :
    d.beginMount = Device.mountBegun d.ports d.events (PerPort.all Executor.rest) d.draws := by
  have hpower : d.powered = true ∧ d.resetLow = false := by simpa [Device.active] using ha
  rw [Device.beginMount, hpower.1, hpower.2, hp]
  rfl

/-- A mount that would begin with PFAIL asserted: the part is STOPPED in that event (R177). -/
theorem Device.restart_stops (n : Nat) : (Device.powerUp true false true n).beginMount.settle =
    { Device.powerUp true false true n with mode := .stopped } := by
  rfl

theorem Device.restart_of (d : Device) (hp : d.powered = true) (hr : d.resetLow = false) :
    (d.pfail = false → d.restart = Device.mountBegun (PerPort.all HostPort.powerUp) (PerPort.all EventUnit.powerUp)
      (PerPort.all Executor.rest) d.draws) ∧
    (d.pfail = true → d.restart = { Device.powerUp true false true d.draws with mode := .stopped }) := by
  unfold Device.restart
  rw [hp, hr]
  refine ⟨fun hf => ?_, fun hf => ?_⟩
  · rw [hf, Device.beginMount_begun rfl rfl]
    exact Device.settle_quiet (Device.mountBegun_quiet (fun q => by cases q <;> rfl) _ _ _)
  · rw [hf]
    exact Device.restart_stops d.draws

/-- Settles O10: each pin by its row, what the cut leaves by the operation on the array. -/
theorem resetWipesAndReleaseMounts : Obligations.ResetWipesAndReleaseMounts := by
  refine ⟨fun c s h hc => exec_inactive h hc, fun s => ⟨fun hr => ?_, fun hp => ?_, fun hop => ?_,
    fun sector page first target hop => ?_, fun x hop hx => ?_⟩, fun s c hc => ?_⟩
  · exact congrArg Host.Outcome.next (if_neg (by rw [hr]; nofun))
  · exact congrArg Host.Outcome.next (if_pos hp)
  · rcases hop with h | ⟨sector, page, h⟩ <;> rw [Device.cutArray, h]
  · rw [Device.cutArray, hop]
  · rcases hop with h | h <;> rw [Device.cutArray, h, hx]
  · have hrestart : ∃ d : Device, exec c s = .next (s.onDev d.restart) ∧ d.powered = true ∧ d.resetLow = false ∧
        d.pfail = s.dev.pfail ∧ d.draws = s.dev.draws := by
      rcases hc with ⟨rfl, hr, hp⟩ | ⟨rfl, hp, hr⟩
      · exact ⟨{ s.dev with resetLow := false }, congrArg Host.Outcome.next ((if_pos hr).trans
          (congrArg s.onDev (if_pos hp))), hp, rfl, rfl, rfl⟩
      · exact ⟨{ s.dev with powered := true }, congrArg Host.Outcome.next ((if_neg (by rw [hp]; nofun)).trans
          (congrArg s.onDev (if_neg (by show ¬ s.dev.resetLow = true; rw [hr]; nofun)))), rfl, hr, rfl, rfl⟩
    obtain ⟨d, hexec, hp, hr, hf, hn⟩ := hrestart
    obtain ⟨hmounts, hstops⟩ := d.restart_of hp hr
    rw [hexec, ← hf, ← hn]
    exact ⟨fun h => congrArg _ (congrArg _ (hmounts h)), fun h => congrArg _ (congrArg _ (hstops h))⟩

/-! ### Requests taken in MOUNTING (R166, R167) -/

/-- A request answered at its port: the response placed, the executor at rest; event units and the draw counter may
change, the other ports and every table do not. -/
structure Device.AnsweredAt (d e : Device) (p : Port) (r : Request) : Prop where
  frame : e = { d with ports := e.ports, events := e.events, execs := d.execs.set p Executor.rest, draws := e.draws }
  requests : (e.port p).requests = (d.port p).requests
  responses : ∃ x : Response, (x.tag, x.kind) = r.label ∧ (e.port p).responses = (d.port p).responses ++ [x]
  other : ∀ q, q ≠ p → e.port q = d.port q

theorem Device.AnsweredAt.of_answer {d : Device} {p : Port} {r : Request} (h : (d.exec p).inHand = some r) (status : Status)
    (body : List Byte) : d.AnsweredAt (d.answer p status body) p r := by
  refine ⟨?_, ?_, ⟨⟨r.label.1, r.label.2, status, body⟩, rfl, ?_⟩, fun q hq => Device.answer_port_other _ hq⟩
  · rw [Device.answer, h]
    rfl
  · rw [Device.answer_port]
    exact ((d.port p).told_fields _ _ _).1
  · rw [Device.answer_port, HostPort.told_some h]

/-- A part whose port `p` keeps its queues, and its other ports everything; event units and the draw counter may change. -/
structure Device.QueuesKept (d e : Device) (p : Port) : Prop where
  frame : e = { d with ports := e.ports, events := e.events, draws := e.draws }
  requests : (e.port p).requests = (d.port p).requests
  responses : (e.port p).responses = (d.port p).responses
  other : ∀ q, q ≠ p → e.port q = d.port q

theorem Device.QueuesKept.trans {a b c : Device} {p : Port} (h : a.QueuesKept b p) (k : b.QueuesKept c p) : a.QueuesKept c p :=
  ⟨k.frame.trans (congrArg (fun x : Device => { x with ports := c.ports, events := c.events, draws := c.draws }) h.frame),
    k.requests.trans h.requests, k.responses.trans h.responses, fun q hq => (k.other q hq).trans (h.other q hq)⟩

theorem Device.QueuesKept.answered {a b c : Device} {p : Port} {r : Request} (h : a.QueuesKept b p) (k : b.AnsweredAt c p r) :
    a.AnsweredAt c p r := by
  have hexecs : b.execs = a.execs := by rw [h.frame]
  refine ⟨?_, k.requests.trans h.requests, ?_, fun q hq => (k.other q hq).trans (h.other q hq)⟩
  · rw [← hexecs]
    exact k.frame.trans (congrArg (fun x : Device => { x with
      ports := c.ports, events := c.events, execs := b.execs.set p Executor.rest, draws := c.draws }) h.frame)
  · rw [← h.responses]
    exact k.responses

theorem Device.AnsweredAt.kept {a b c : Device} {p : Port} {r : Request} (h : a.AnsweredAt b p r) (k : b.QueuesKept c p) :
    a.AnsweredAt c p r := by
  refine ⟨k.frame.trans (congrArg (fun x : Device => { x with
    ports := c.ports, events := c.events, draws := c.draws }) h.frame), k.requests.trans h.requests, ?_,
    fun q hq => (k.other q hq).trans (h.other q hq)⟩
  rw [k.responses]
  exact h.responses

/-- A session opened or closed, its event unit at reset values (R168, R169). -/
theorem Device.QueuesKept.session (d : Device) (p : Port) (attached : Bool) (E : PerPort EventUnit) :
    d.QueuesKept { d.setPort p { d.port p with attached := attached } with events := E } p := by
  have hself : ((d.setPort p { d.port p with attached := attached }).port p) = { d.port p with attached := attached } :=
    Device.port_setPort _ _ _
  exact ⟨rfl, (congrArg HostPort.requests hself :), (congrArg HostPort.responses hself :), fun q hq => Device.port_setPort_other _ _ _ _ hq⟩

theorem Device.QueuesKept.offerSet (d : Device) (s : PortSet) (x : Event) (p : Port) : d.QueuesKept (d.offerSet s x) p := by
  have hport (q : Port) : (d.offerSet s x).port q = d.port q := Device.offerSet_port d s q x
  exact ⟨by rw [Device.offerSet_frame], by rw [hport], by rw [hport], fun q _ => hport q⟩

theorem Device.QueuesKept.abortBallotOf {d : Device} (hb : d.consent.ballot = none) (p : Port) :
    d.QueuesKept (d.abortBallotOf p) p := by
  have hsame : d.abortBallotOf p = d := by simp [Device.abortBallotOf, Device.isParty, hb]
  rw [hsame]
  exact ⟨rfl, rfl, rfl, fun _ _ => rfl⟩

/-- In MOUNTING every request that is not answered by its own rule for sessions and events is NOT_READY (R167). -/
theorem Device.carryOut_mounting {d : Device} (hm : d.mode = .mounting) (p : Port) (k : Kind) (body : List Byte) :
    k = .attach ∨ k = .detach ∨ k = .events ∨ k = .mask ∨ k = .status ∨ d.carryOut p k body = d.answer p .notReady [] := by
  cases k with
  | attach => exact .inl rfl
  | detach => exact .inr (.inl rfl)
  | events => exact .inr (.inr (.inl rfl))
  | mask => exact .inr (.inr (.inr (.inl rfl)))
  | status => exact .inr (.inr (.inr (.inr (.inl rfl))))
  | create => simp [Device.carryOut, Device.takeCreate, Device.admission, writeMode, hm]
  | configure => simp [Device.carryOut, Device.takeConfigure, Device.ownerCheck, Device.admission, writeMode, hm]
  | delete => simp [Device.carryOut, Device.takeDelete, Device.ownerCheck, Device.admission, writeMode, hm]
  | append => simp [Device.carryOut, Device.takeAppend, Device.appendCheck, Device.admission, writeMode, hm]
  | read => simp [Device.carryOut, Device.takeRead, Device.cursorCheck, Device.admission, readMode, hm]
  | ack => simp [Device.carryOut, Device.takeAck, Device.cursorCheck, Device.admission, readMode, hm]
  | rewind => simp [Device.carryOut, Device.takeRewind, Device.cursorCheck, Device.admission, readMode, hm]
  | setlevel => simp [Device.carryOut, Device.takeSetlevel, Device.cursorCheck, Device.admission, readMode, hm]
  | query => simp [Device.carryOut, Device.takeQuery, Device.admission, readMode, hm]
  | sync => simp [Device.carryOut, Device.takeSync, Device.admission, readMode, hm]
  | propose => simp [Device.carryOut, Device.takePropose, Device.admission, writeMode, ballotMode, hm]
  | agree => simp [Device.carryOut, Device.takeAgree, Device.voteCheck, Device.admission, ballotMode, hm]
  | refuse => simp [Device.carryOut, Device.takeRefuse, Device.voteCheck, Device.admission, ballotMode, hm]

/-- Every entry taken in MOUNTING is answered in the event it is taken (R166, R167). -/
theorem Device.process_mounting {d : Device} {p : Port} {r : Request} (hm : d.mode = .mounting) (hb : d.consent.ballot = none)
    (hr : (d.exec p).inHand = some r) : d.AnsweredAt (d.process p r) p r := by
  have answers (status : Status) (body : List Byte) : d.AnsweredAt (d.answer p status body) p r := .of_answer hr status body
  have later {e : Device} (h : d.QueuesKept e p) (he : e.exec p = d.exec p) (status : Status) (body : List Byte) :
      d.AnsweredAt (e.answer p status body) p r := h.answered (.of_answer (he ▸ hr) status body)
  have told (E : PerPort EventUnit) (status : Status) (body : List Byte) :
      d.AnsweredAt (({ d with events := E } : Device).answer p status body) p r :=
    later (e := { d with events := E }) ⟨rfl, rfl, rfl, fun _ _ => rfl⟩ rfl status body
  have hh : d.halting = false := by simp [Device.halting, hm]
  unfold Device.process
  rw [if_neg (by rw [hh]; nofun)]
  cases r with
  | frame => exact answers _ _
  | unknown _ _ => exact answers _ _
  | known tag k body =>
    dsimp only
    split
    · exact answers _ _
    · rcases d.carryOut_mounting hm p k body with rfl | rfl | rfl | rfl | rfl | h
      · show d.AnsweredAt (d.takeAttach p) p _
        unfold Device.takeAttach Device.sendPeer
        dsimp only
        split
        · exact answers _ _
        · refine later ((Device.QueuesKept.session d p true _).trans (.offerSet _ _ _ p)) ?_ _ _
          rw [Device.offerSet_frame]
          rfl
      · show d.AnsweredAt (d.takeDetach p body) p _
        have hnone : (d.answer p .ok []).consent.ballot = none := by
          rw [Device.answer_changes]
          exact hb
        have hend : (d.answer p .ok []).QueuesKept ((d.answer p .ok []).endSession p) p := by
          generalize d.answer p .ok [] = e at hnone
          refine ((Device.QueuesKept.session e p false (e.events.set p EventUnit.powerUp)).trans
            (Device.QueuesKept.abortBallotOf ?_ p)).trans (.offerSet _ _ _ p)
          exact hnone
        unfold Device.takeDetach
        split
        · exact answers _ _
        · split
          · exact answers _ _
          · exact (answers _ _).kept hend
      · show d.AnsweredAt (d.takeEvents p body) p _
        unfold Device.takeEvents
        split
        · exact answers _ _
        · split
          · exact answers _ _
          · exact told _ _ _
      · show d.AnsweredAt (d.takeMask p body) p _
        unfold Device.takeMask
        split
        · exact answers _ _
        · split
          · exact answers _ _
          · exact told _ _ _
      · exact (answers _ _).kept ⟨rfl, rfl, rfl, fun _ _ => rfl⟩
      · rw [h]
        exact answers _ _

/-! ### Requests queued when a mount begins (R166, R181) -/

/-- How much of a port's queue is taken while responses have a place, and what the answers are (R166). -/
def HostPort.drained (h h' : HostPort) : Prop :=
  let taken := min h.requests.length (4 - h.responses.length)
  h'.requests = h.requests.drop taken ∧ ∃ answers, h'.responses = h.responses ++ answers ∧
    answers.map (fun r => (r.tag, r.kind)) = (h.requests.take taken).map Request.label

/-- A port with no request, or no place for a response, takes none. -/
theorem HostPort.drained_refl {h : HostPort} (hn : h.requests = [] ∨ 4 ≤ h.responses.length) : h.drained h := by
  have h0 : min h.requests.length (4 - h.responses.length) = 0 := by
    rcases hn with h | h
    · rw [h]
      exact Nat.zero_min _
    · omega
  unfold HostPort.drained
  rw [h0]
  exact ⟨rfl, [], (List.append_nil _).symm, rfl⟩

/-- One request taken and answered, then the rest. -/
theorem HostPort.drained_cons {h h1 h2 : HostPort} {r : Request} {rest : List Request} {x : Response}
    (hreq : h.requests = r :: rest) (hroom : h.responses.length < 4) (hx : (x.tag, x.kind) = r.label)
    (h1req : h1.requests = rest) (h1resp : h1.responses = h.responses ++ [x]) (hd : h1.drained h2) : h.drained h2 := by
  obtain ⟨hr, answers, ha, hl⟩ := hd
  have htaken : min h.requests.length (4 - h.responses.length) =
      min h1.requests.length (4 - h1.responses.length) + 1 := by
    rw [hreq, h1req, h1resp, List.length_cons, List.length_append, List.length_singleton]
    omega
  unfold HostPort.drained
  rw [htaken]
  refine ⟨by rw [hr, hreq, List.drop_succ_cons, h1req], x :: answers, by rw [ha, h1resp, List.append_assoc]; rfl, ?_⟩
  rw [hreq, List.take_succ_cons, List.map_cons, List.map_cons, hl, h1req, hx]

/-- An executor with nothing to do, or one that waits for a response slot that is not free (R166). -/
def idleOrFull (x : Executor) (h : HostPort) : Prop := x = Executor.rest ∨ x = ⟨.waitSlot, none, .none⟩ ∧ 4 ≤ h.responses.length

theorem idleOrFull.inHand {x : Executor} {h : HostPort} (hx : idleOrFull x h) : x.inHand = none := by
  rcases hx with rfl | ⟨rfl, -⟩ <;> rfl

/-- What a port may still do: take each request, and wait for a slot once. -/
def takesLeft (x : Executor) (h : HostPort) : Nat := h.requests.length + if x.state = .idle then 1 else 0

/-- A taking at one port of a mount begun: a request answered, or the wait for a slot entered. -/
theorem Device.mountBegun_take {P : PerPort HostPort} {E : PerPort EventUnit} {X : PerPort Executor} {n : Nat} {q : Port}
    {e : Device} (hx : idleOrFull (X.get q) (P.get q)) (h : (Device.mountBegun P E X n).stepTake q = some e) :
    ∃ h' E' x' n', e = Device.mountBegun (P.set q h') E' (X.set q x') n' ∧ idleOrFull x' h' ∧
      takesLeft x' h' + 1 = takesLeft (X.get q) (P.get q) ∧ ∀ h2, h'.drained h2 → (P.get q).drained h2 := by
  have hexec : (Device.mountBegun P E X n).exec q = X.get q := rfl
  have hport : (Device.mountBegun P E X n).port q = P.get q := rfl
  unfold Device.stepTake Device.canTake Device.takeRequest at h
  rw [hexec, hport] at h
  split at h
  · rename_i hcan
    simp only [Bool.and_eq_true, decide_eq_true_eq, Bool.not_eq_true'] at hcan
    obtain ⟨⟨-, hne⟩, hroom⟩ := hcan
    have hrest : X.get q = Executor.rest := hx.resolve_right fun hf => absurd hroom (Nat.not_lt.mpr hf.2)
    cases hreq : (P.get q).requests with
    | nil =>
      rw [hreq] at hne
      cases hne
    | cons r rest =>
      rw [hreq] at h
      dsimp only at h
      have hanswered := Device.process_mounting (d := ((Device.mountBegun P E X n).setPort q { P.get q with
        requests := rest }).setExec q ⟨.check, some r, .none⟩) (p := q) (r := r) rfl rfl
        (by rw [Device.exec_setExec])
      rw [Option.some.inj h] at hanswered
      obtain ⟨x, hlabel, hresp⟩ := hanswered.responses
      have hmid : ((((Device.mountBegun P E X n).setPort q { P.get q with requests := rest }).setExec q
          ⟨.check, some r, .none⟩).port q) = { P.get q with requests := rest } := Device.port_setPort _ _ _
      have hreq' := hanswered.requests
      rw [hmid] at hresp hreq'
      refine ⟨e.port q, e.events, Executor.rest, e.draws, ?_, .inl rfl, ?_, fun h2 hd =>
        HostPort.drained_cons hreq hroom hlabel hreq' hresp hd⟩
      · have hports : e.ports = P.set q (e.port q) := by
          refine PerPort.ext_get fun q' => ?_
          rw [PerPort.get_set]
          split
          · rename_i hq
            rw [hq]
            rfl
          · rename_i hq
            exact (hanswered.other q' hq).trans (Device.port_setPort_other _ _ _ _ hq)
        have hexecs : (X.set q ⟨.check, some r, .none⟩).set q Executor.rest = X.set q Executor.rest := PerPort.set_set _ _ _ _
        refine hanswered.frame.trans ?_
        rw [hports]
        show ({ Device.mountBegun P E X n with
          ports := _, events := _, execs := (X.set q _).set q _, draws := _ } : Device) = _
        rw [hexecs]
        rfl
      · unfold takesLeft
        rw [hrest, hreq, hreq']
        rfl
  · rename_i hcan
    split at h
    · rename_i hidle
      simp only [Bool.and_eq_true, beq_iff_eq, Bool.not_eq_true'] at hidle
      have hrest : X.get q = Executor.rest := hx.resolve_right fun hf => by rw [hf.1] at hidle; cases hidle.1
      have hfull : 4 ≤ (P.get q).responses.length := by
        refine Nat.not_lt.mp fun hlt => hcan ?_
        simp [hidle.1, hidle.2, Config.queueSlots, hlt]
      refine ⟨P.get q, E, ⟨.waitSlot, none, .none⟩, n, ?_, .inr ⟨rfl, hfull⟩, ?_, fun h2 hd => hd⟩
      · rw [PerPort.set_get, ← Option.some.inj h]
        show Device.setExec _ _ _ = _
        rw [hexec, hrest]
        rfl
      · unfold takesLeft
        rw [hrest]
        rfl
    · cases h

theorem Device.mountBegun_stays {P : PerPort HostPort} {E : PerPort EventUnit} {X : PerPort Executor} {n : Nat} {q : Port}
    (hx : idleOrFull (X.get q) (P.get q)) (h : (Device.mountBegun P E X n).stepTake q = none) :
    (P.get q).requests = [] ∨ 4 ≤ (P.get q).responses.length := by
  have hexec : (Device.mountBegun P E X n).exec q = X.get q := rfl
  have hport : (Device.mountBegun P E X n).port q = P.get q := rfl
  rcases hx with hx | ⟨-, hx⟩
  · by_contra hno
    obtain ⟨hne, hroom⟩ := not_or.mp hno
    have hsome : (P.get q).requests.isEmpty = false := by simpa using hne
    have hcan : (Device.mountBegun P E X n).canTake q = true := by
      simp [Device.canTake, hexec, hport, hx, hsome, Executor.rest, Config.queueSlots, Nat.not_le.mp hroom]
    rw [Device.stepTake, if_pos hcan] at h
    cases h
  · exact .inr hx

/-- Each port of a mount begun takes its requests while responses have a place, and then waits (R166, R181). -/
theorem mountBegun_settles (fuel : Nat) : ∀ (P : PerPort HostPort) (E : PerPort EventUnit) (X : PerPort Executor) (n : Nat),
    (∀ q, idleOrFull (X.get q) (P.get q)) →
    takesLeft (X.get .A) (P.get .A) + takesLeft (X.get .B) (P.get .B) + takesLeft (X.get .C) (P.get .C) ≤ fuel →
    ∃ P' E' X' n', settleFor fuel (Device.mountBegun P E X n) = Device.mountBegun P' E' X' n' ∧
      ∀ q, (P.get q).drained (P'.get q) ∧ (X'.get q).inHand = none := by
  induction fuel with
  | zero =>
    intro P E X n hx hle
    refine ⟨P, E, X, n, rfl, fun q => ⟨HostPort.drained_refl (.inl ?_), ?_⟩⟩
    · have h0 : takesLeft (X.get q) (P.get q) = 0 := by cases q <;> omega
      unfold takesLeft at h0
      exact List.eq_nil_of_length_eq_zero (by omega)
    · exact (hx q).inHand
  | succ k ih =>
    intro P E X n hx hle
    have hcons := Device.mountBegun_consequence P E X n
    have step {q : Port} {e : Device} (hc : (Device.mountBegun P E X n).consequence = some e)
        (h : (Device.mountBegun P E X n).stepTake q = some e) :
        ∃ P' E' X' n', settleFor (k + 1) (Device.mountBegun P E X n) = Device.mountBegun P' E' X' n' ∧
          ∀ q, (P.get q).drained (P'.get q) ∧ (X'.get q).inHand = none := by
      obtain ⟨h', E', x', n', rfl, hx', hless, hdrain⟩ := Device.mountBegun_take (hx q) h
      have hget (q' : Port) : (P.set q h').get q' = if q' = q then h' else P.get q' := PerPort.get_set _ _ _ _
      have hgetx (q' : Port) : (X.set q x').get q' = if q' = q then x' else X.get q' := PerPort.get_set _ _ _ _
      obtain ⟨P2, E2, X2, n2, hsettle, hall⟩ := ih (P.set q h') E' (X.set q x') n' (fun q' => by
        rw [hget, hgetx]
        split
        · exact hx'
        · exact hx q') (by
        simp only [hget, hgetx]
        cases q <;> simp only [if_true, reduceCtorEq, if_false] <;> omega)
      refine ⟨P2, E2, X2, n2, ?_, fun q' => ⟨?_, (hall q').2⟩⟩
      · rw [← hsettle]
        simp [settleFor, hc]
      · have hd := (hall q').1
        rw [hget] at hd
        by_cases hq : q' = q
        · subst hq
          rw [if_pos rfl] at hd
          exact hdrain _ hd
        · rwa [if_neg hq] at hd
    cases hA : (Device.mountBegun P E X n).stepTake .A with
    | some e => exact step (hcons.trans (by rw [hA]; rfl)) hA
    | none =>
      cases hB : (Device.mountBegun P E X n).stepTake .B with
      | some e => exact step (hcons.trans (by rw [hA, hB]; rfl)) hB
      | none =>
        cases hC : (Device.mountBegun P E X n).stepTake .C with
        | some e => exact step (hcons.trans (by rw [hA, hB, hC]; rfl)) hC
        | none =>
          have hquiet : (Device.mountBegun P E X n).quiet := hcons.trans (by rw [hA, hB, hC]; rfl)
          refine ⟨P, E, X, n, settleFor_quiet hquiet _, fun q => ⟨HostPort.drained_refl (Device.mountBegun_stays (E := E)
            (X := X) (n := n) (hx q) ?_), ?_⟩⟩
          · cases q <;> assumption
          · exact (hx q).inHand

/-! ### PFAIL (R178, R180, R181) -/

/-- The pin's level alone is no reason to act, but at the end of the stopping sequence (R180; log 40). -/
theorem Device.quiet_setPfail {d : Device} (h : d.quiet) (v : Bool) : ({ d with pfail := v } : Device).quiet := by
  have a := h.atRest
  exact Device.AtRest.quiet ⟨⟨a.purge, a.staging, fun p => Device.stepTake_congr (d := d) rfl rfl rfl (a.take p), a.choice,
    a.compaction, a.snapshot, a.claim⟩, a.suspend, a.stop, a.grant, a.drain, a.stopped⟩

theorem Device.nextClaimant_none {d : Device} (hx : ∀ p, d.execClaims p = false) (hw : d.writerClaims = false)
    (he : d.engineClaims = false) : d.nextClaimant = none := by
  have hfind : (roundRobin d.arbiter.pointer).find? (fun p => d.execClaims p) = none :=
    List.find?_eq_none.mpr fun p _ => by rw [hx p]; nofun
  simp [Device.nextClaimant, hfind, hw, he]

/-- With an empty slot the engine chooses only in READY (R94). -/
theorem Device.chosenState_idle {d : Device} (hs : d.engine.slot = []) (hm : d.mode ≠ .ready) : d.chosenState = .idle := by
  have hhead : d.startableHead = none := by
    unfold Device.startableHead
    split
    · rfl
    · simp [hm]
  simp [Device.chosenState, hs, hhead]

/-- A part that stops or has stopped with the engine IDLE and no consent operation: nothing is due before the array. -/
theorem Device.settled_of_halting {d : Device} (hm : d.mode = .stopping ∨ d.mode = .stopped) (hc : d.consent.state = .idle)
    (ht : ∀ p, d.stepTake p = none) (he : d.engine.state = .idle) (hs : d.engine.slot = []) (hp : d.writer.phase ≠ .erasing) :
    d.Settled := by
  refine ⟨fun h => ?_, fun h => ?_, ht, fun _ => ?_, ?_, ?_, fun h => ?_⟩
  · rw [hc] at h
    cases h
  · rw [hc] at h
    cases h
  · rw [he, Device.chosenState_idle hs (by rcases hm with h | h <;> rw [h] <;> nofun)]
  · rcases hm with h | h <;> simp [Device.compactionDue, h]
  · simp [Device.snapshotDue, hp]
  · rcases hm with hm | hm <;> (rw [hm] at h; cases h)

/-- The end of the stopping sequence: nothing holds the array, no erase is current and the writer is done (R180). -/
theorem Device.stops_of_done {e : Device} (hm : e.mode = .stopping) (hpf : e.pfail = true) (hc : e.consent.state = .idle)
    (hx : ∀ p, e.exec p = Executor.rest) (hr : ∀ p, (e.port p).requests = []) (hs : e.engine.slot = [])
    (hcur : e.engine.current = none) (he : e.engine.state = .idle) (hh : e.arbiter.holder = none) (hop : e.arrayOp = .none)
    (hstop : e.writer.stop = .done) (hw : e.writer.state = .idle ∨ e.writer.state = .dormant) (hp : e.writer.phase ≠ .erasing) :
    e.consequence = some { e with mode := .stopped, writer := { e.writer with state := .dormant, stop := .notStopping } } := by
  have hsettled : e.Settled :=
    Device.settled_of_halting (.inl hm) hc (fun p => Device.stepTake_none_of_empty (hr p)) he hs hp
  have hclaimant : e.nextClaimant = none := by
    refine Device.nextClaimant_none (fun p => by simp [Device.execClaims, hx p, Executor.rest]) ?_
      (by simp [Device.engineClaims, he])
    rcases hw with h | h <;> simp [Device.writerClaims, h]
  have hmove (onArray : Bool) : e.writer.stopMove onArray = none := by simp [Writer.stopMove, hstop]
  rw [hsettled.consequence]
  simp [Device.stepSuspend, Device.mustSuspend, hcur, Device.stopMove, hmove, Device.stepGrant, hclaimant, Device.stepDrain,
    hc, Device.stepStopped, Device.stopComplete, hm, hh, hop, hstop, Device.enterStopped, hpf, Device.reasonOnEntry]

/-- The stopping sequence of a part with nothing under way and nothing to flush (R122, R180). -/
theorem Device.stops_at_once {d : Device} (hm : d.mode = .stopping) (hpf : d.pfail = true) (hc : d.consent.state = .idle)
    (hx : ∀ p, d.exec p = Executor.rest) (hr : ∀ p, (d.port p).requests = []) (hs : d.engine.slot = [])
    (hcur : d.engine.current = none) (hout : d.engine.outcome = none)
    (hh : d.arbiter.holder = none) (hop : d.arrayOp = .none) (hstop : d.writer.stop = .finishing)
    (hw : d.writer.state = .idle ∨ d.writer.state = .dormant) (hopen : d.writer.hasOpen = false)
    (hp : d.writer.phase ≠ .erasing) : ∃ A, d.settle = { d with
      mode := .stopped, arbiter := A, engine := { d.engine with state := .idle }
      writer := { d.writer with state := .dormant, stop := .notStopping, phase := .none } } := by
  have idle (k : Nat) (A : Arbiter) (hA : A.holder = none) :
      settleFor (k + 2) { d with arbiter := A, engine := { d.engine with state := .idle } } = { d with
        mode := .stopped, arbiter := A, engine := { d.engine with state := .idle }
        writer := { d.writer with state := .dormant, stop := .notStopping, phase := .none } } := by
    have hsettled : ({ d with arbiter := A, engine := { d.engine with state := .idle } } : Device).Settled :=
      Device.settled_of_halting (.inl hm) hc (fun p => Device.stepTake_none_of_empty (hr p)) rfl hs hp
    have hmove (onArray : Bool) : d.writer.stopMove onArray = some { d.writer with stop := .done, phase := .none } := by
      rcases hw with h | h <;> simp [Writer.stopMove, hstop, h, Writer.canFlush, hopen]
    have hfirst : ({ d with arbiter := A, engine := { d.engine with state := .idle } } : Device).consequence =
        some { d with
          arbiter := A, engine := { d.engine with state := .idle }
          writer := { d.writer with stop := .done, phase := .none } } := by
      rw [hsettled.consequence]
      simp [Device.stepSuspend, Device.mustSuspend, hcur, Device.stopMove, hm, hmove]
    have hsecond := Device.stops_of_done (e := { d with
      arbiter := A, engine := { d.engine with state := .idle }
      writer := { d.writer with stop := .done, phase := .none } }) hm hpf hc hx hr hs hcur rfl hA hop rfl hw nofun
    have hquiet : ({ d with
        mode := .stopped, arbiter := A, engine := { d.engine with state := .idle }
        writer := { d.writer with state := .dormant, stop := .notStopping, phase := .none } } : Device).quiet := by
      refine Device.AtRest.quiet ⟨Device.settled_of_halting (.inr rfl) hc (fun p => Device.stepTake_none_of_empty (hr p)) rfl hs nofun, ?_, nofun, fun _ _ _ h => absurd rfl h,
        fun h => ?_, nofun⟩
      · simp [Device.mustSuspend, hcur]
      · exact absurd (hc.symm.trans h.1) (by decide)
    rw [settleFor, hfirst]
    dsimp only
    rw [settleFor, hsecond]
    exact settleFor_quiet hquiet k
  by_cases he : d.engine.state = .idle
  · have hsame : ({ d with arbiter := d.arbiter, engine := { d.engine with state := .idle } } : Device) = d := by rw [← he]
    refine ⟨d.arbiter, ?_⟩
    have := idle (Config.settleFuel - 2) d.arbiter hh
    rwa [hsame] at this
  · have hchoose : d.stepChoice = some { d with
        arbiter := { d.arbiter with starved := false, starveTimer := false }
        engine := { d.engine with state := .idle } } := by
      have hchosen := Device.chosenState_idle (d := d) hs (by rw [hm]; nofun)
      simp [Device.stepChoice, Engine.choosing, hcur, hout, hchosen, he, Device.enterChoice]
    have hpurge : d.stepPurge = none := by simp [Device.stepPurge, hc]
    have hfirst : d.consequence = some { d with
        arbiter := { d.arbiter with starved := false, starveTimer := false }
        engine := { d.engine with state := .idle } } := by
      unfold Device.consequence
      rw [hpurge, Device.stepTake_none_of_empty (hr .A), Device.stepTake_none_of_empty (hr .B),
        Device.stepTake_none_of_empty (hr .C), hchoose]
      rfl
    refine ⟨_, (Device.settle_of_consequence hfirst).trans (idle (Config.settleFuel - 3) _ hh)⟩

theorem Device.stopEngine_apart {d : Device} (h : d.eraseCtx = none) : ∃ st, d.stopEngine = { d with
    arbiter := { d.arbiter with starved := false, starveTimer := false }
    engine := { d.engine with slot := [], outcome := none, state := st } } := by
  have habandon : Device.abandonErase { d with
      engine := { d.engine with slot := [] }
      arbiter := { d.arbiter with starved := false, starveTimer := false } } = { d with
        engine := { d.engine with slot := [] }
        arbiter := { d.arbiter with starved := false, starveTimer := false } } := by
    simp [Device.abandonErase, h]
  unfold Device.stopEngine
  dsimp only
  rw [habandon]
  split
  · exact ⟨_, rfl⟩
  · exact ⟨_, rfl⟩

theorem Device.stopConsent_none {d : Device} (h : d.consent.ballot = none) :
    d.stopConsent = { d with consent := { d.consent with state := .idle, pending := none } } := by
  rw [Device.stopConsent, Device.closeBallot_none _ _ h]

/-- The entry into STOPPING of a part with nothing in hand and no erase (R178). -/
theorem Device.enterStopping_resting {d : Device} (hx : ∀ p, d.exec p = Executor.rest) (hctx : d.eraseCtx = none)
    (hb : d.consent.ballot = none) : ∃ st, d.enterStopping = { d with
      mode := .stopping, spaceWait := []
      arbiter := { d.arbiter with starved := false, starveTimer := false }
      engine := { d.engine with slot := [], outcome := none, state := st }
      consent := { d.consent with state := .idle, pending := none }
      writer := ({ d.writer with placeWait := [] } : Writer).enterStopping, mount := d.mount.over .idle } := by
  have hstop (e : Device) (he : e.execs = d.execs) (p : Port) : e.stopExecutor p = e := by
    have hp : e.exec p = Executor.rest := by rw [Device.exec, he]; exact hx p
    rw [Device.stopExecutor, hp]
    rfl
  unfold Device.enterStopping
  dsimp only
  rw [hstop { d with mode := .stopping, reason := d.reasonOnEntry .stopping } rfl,
    hstop { d with mode := .stopping, reason := d.reasonOnEntry .stopping } rfl,
    hstop { d with mode := .stopping, reason := d.reasonOnEntry .stopping } rfl]
  obtain ⟨st, hst⟩ := Device.stopEngine_apart (d := { d with
    mode := .stopping, reason := d.reasonOnEntry .stopping, spaceWait := []
    writer := { d.writer with placeWait := [] } }) hctx
  rw [hst, Device.stopConsent_none]
  · exact ⟨st, rfl⟩
  · exact hb

/-- Settles O11: the stopping sequence of a part with nothing to do, and the mount its end or the pin's release begins. -/
theorem pfailStopsAndRestarts : Obligations.PfailStopsAndRestarts := by
  refine ⟨fun s ha hq => ⟨fun hst hx hidle hcur hctx hb hw hopen => ?_, fun hst => ?_⟩, fun s ha => ⟨fun hm => ?_, fun hm hq => ?_⟩⟩
  · have hexec : exec .pfailAsserted s = .next (s.onDev (({ s.dev with pfail := true } : Device).enterStopping).settle) := by
      show Host.Outcome.next (if s.dev.active then s.event fun d => some d.pfailRises else _) = _
      rw [if_pos ha, State.event, if_pos ha]
      dsimp only
      rw [Device.pfailRises]
      dsimp only
      rw [if_pos hst]
      rfl
    obtain ⟨st, hentered⟩ := Device.enterStopping_resting (d := { s.dev with pfail := true }) (fun p => (hx p).1) hctx hb
    have hwriter : ({ s.dev.writer with placeWait := [] } : Writer).enterStopping.stop = .finishing ∧
        ({ s.dev.writer with placeWait := [] } : Writer).enterStopping.phase ≠ .erasing := by
      refine ⟨?_, ?_⟩
      · rcases hw with h | h <;> simp [Writer.enterStopping, h]
      · simp only [Writer.enterStopping]
        split
        · nofun
        · assumption
    obtain ⟨A, hsettle⟩ := Device.stops_at_once (d := ({ s.dev with pfail := true } : Device).enterStopping)
      (by rw [hentered]) (by rw [hentered]) (by rw [hentered]) (fun p => by rw [hentered]; exact (hx p).1)
      (fun p => by rw [hentered]; exact (hx p).2) (by rw [hentered]) (by rw [hentered]; exact hcur) (by rw [hentered])
      (by rw [hentered]; exact hidle.1) (by rw [hentered]; exact hidle.2.1) (by rw [hentered]; exact hwriter.1)
      (by rw [hentered]; exact hw) (by rw [hentered]; exact hopen) (by rw [hentered]; exact hwriter.2)
    refine ⟨_, hexec, ?_⟩
    rw [hsettle, hentered]
    exact ⟨rfl, rfl, rfl, rfl, rfl, rfl, rfl, rfl, rfl, rfl, rfl, rfl, rfl, rfl, rfl⟩
  · have hrises : s.dev.pfailRises = { s.dev with pfail := true } := if_neg (by rw [hst]; nofun)
    show Host.Outcome.next (if s.dev.active then s.event fun d => some d.pfailRises else _) = _
    rw [if_pos ha, State.event, if_pos ha]
    dsimp only
    rw [hrises, Device.settle_quiet (Device.quiet_setPfail hq true)]
    rfl
  · intro begun
    have hbegun : begun = Device.mountBegun s.dev.ports s.dev.events (PerPort.all Executor.rest) s.dev.draws := rfl
    have hexec : exec .pfailReleased s = .next (s.onDev begun.settle) := by
      show Host.Outcome.next (if s.dev.active then s.event fun d => some d.pfailFalls else _) = _
      rw [if_pos ha, State.event, if_pos ha]
      dsimp only
      rw [Device.pfailFalls]
      dsimp only
      rw [if_pos hm, Device.beginMount_begun (d := { s.dev with pfail := false }) ha rfl]
      rfl
    refine ⟨hexec, fun hnone => ?_, fun p r rest hreq hroom hearlier => ?_, fun hlen => ?_⟩
    · rw [hexec, hbegun, Device.settle_quiet (Device.mountBegun_quiet hnone _ _ _)]
    · have htake : begun.stepTake p = some (((begun.setPort p { s.dev.port p with requests := rest }).setExec p
          ⟨.check, some r, .none⟩).process p r) := by
        have hport : begun.port p = s.dev.port p := rfl
        have hrest : begun.exec p = Executor.rest := PerPort.get_all p _
        have hcan : begun.canTake p = true := by
          simp [Device.canTake, hrest, Executor.rest, hport, hreq, Config.queueSlots, hroom]
        rw [Device.stepTake, if_pos hcan, Device.takeRequest, hport, hreq]
      have hnone (q : Port) (h : (s.dev.port q).requests = []) : begun.stepTake q = none := Device.stepTake_none_of_empty h
      rw [hbegun, Device.mountBegun_consequence, ← hbegun]
      cases p with
      | A => rw [htake]; rfl
      | B => rw [hnone .A (hearlier .A (by decide)), htake]; rfl
      | C => rw [hnone .A (hearlier .A (by decide)), hnone .B (hearlier .B (by decide)), htake]; rfl
    · obtain ⟨P, E, X, n, hsettle, hall⟩ := mountBegun_settles Config.settleFuel s.dev.ports s.dev.events
        (PerPort.all Executor.rest) s.dev.draws (fun q => .inl (PerPort.get_all q _)) (by
          have hleft (q : Port) : takesLeft ((PerPort.all Executor.rest).get q) (s.dev.ports.get q) ≤ 5 := by
            rw [PerPort.get_all]
            have : (s.dev.ports.get q).requests.length ≤ 4 := hlen q
            show _ + 1 ≤ 5
            omega
          have hA := hleft .A
          have hB := hleft .B
          have hC := hleft .C
          simp only [Config.settleFuel]
          omega)
      refine ⟨Device.mountBegun P E X n, hexec.trans (congrArg _ (congrArg _ hsettle)), rfl, rfl, fun q => ?_⟩
      exact ⟨(hall q).1.1, (hall q).2, (hall q).1.2⟩
  · have hfalls : s.dev.pfailFalls = { s.dev with pfail := false } := if_neg (by show ¬ s.dev.mode = _; rw [hm]; nofun)
    show Host.Outcome.next (if s.dev.active then s.event fun d => some d.pfailFalls else _) = _
    rw [if_pos ha, State.event, if_pos ha]
    dsimp only
    rw [hfalls, Device.settle_quiet (Device.quiet_setPfail hq false)]
    rfl

end Sys2Proof.Machine
end

