-- ==== Sys2Proof/Proofs/StoppingAtWork.lean ====
section
/-! PFAIL asserted on a part at work: the entry into STOPPING block by block, the stopping flush, and the end of the
stopping sequence (R44, R122, R144, R178, R180, R181). -/

namespace Sys2Proof.Machine

open Sys2Proof

-- One process elaborates the whole text: proofs taken in turn stay within its memory.
set_option Elab.async false

/-! ### The reclaim of a part that is not READY (R24, R25) -/

/-- Sectors may have left chains, for the erase queue or the bad list; nothing else of the map has changed. -/
structure Device.MapMoved (d e : Device) : Prop where
  frame : e = { d with
    events := e.events, streams := e.streams, sectors := e.sectors, eraseQueue := e.eraseQueue, badList := e.badList }
  listed : ∀ n, n ∈ d.eraseQueue ∨ n ∈ d.badList → n ∈ e.eraseQueue ∨ n ∈ e.badList
  sector : ∀ n, e.sector n = d.sector n ∨ n ∈ e.eraseQueue ∨ n ∈ e.badList

theorem Device.MapMoved.refl (d : Device) : d.MapMoved d := ⟨rfl, fun _ h => h, fun _ => .inl rfl⟩

theorem Device.MapMoved.trans {a b c : Device} (h : a.MapMoved b) (k : b.MapMoved c) : a.MapMoved c :=
  ⟨k.frame.trans (congrArg (fun x : Device => { x with
      events := c.events, streams := c.streams, sectors := c.sectors, eraseQueue := c.eraseQueue, badList := c.badList })
      h.frame), fun n hn => k.listed n (h.listed n hn), fun n => by
    rcases k.sector n with hk | hk
    · rcases h.sector n with hh | hh
      · exact .inl (hk.trans hh)
      · exact .inr (k.listed n hh)
    · exact .inr hk⟩

/-- Changes of streams and event units alone. -/
theorem Device.MapMoved.setStreams (d : Device) (E : PerPort EventUnit) (S : Vector Stream 16) :
    d.MapMoved { d with events := E, streams := S } := ⟨rfl, fun _ h => h, fun _ => .inl rfl⟩

theorem releaseSector_moved {x : Device × List Nat} (hm : x.1.mode ≠ .ready) (n : Nat) :
    x.1.MapMoved (releaseSector x n).1 := by
  refine ⟨?_, fun m hmem => releaseSector_lists x n m (.inr hmem), fun m => ?_⟩
  · rcases releaseSector_cases x n with ⟨-, -, hr⟩ | ⟨-, hr⟩ <;> rw [hr]
    · dsimp only
      rw [Device.retire_eq, if_neg fun h => hm h.2]
      unfold Device.offerAll Device.listBad
      rw [Device.offerSet_frame, Device.setSector_frame]
    · dsimp only
      rw [Device.joinQueue_frame]
  · by_cases hmn : m = n
    · exact .inr (releaseSector_lists x n m (.inl hmn))
    · exact .inl (releaseSector_sector_other x hmn)

theorem foldl_releaseSector_moved (chain : List Nat) {x : Device × List Nat} (hm : x.1.mode ≠ .ready) :
    x.1.MapMoved (chain.foldl releaseSector x).1 := by
  induction chain generalizing x with
  | nil => exact .refl _
  | cons n rest ih =>
    have h := releaseSector_moved hm n
    exact h.trans (ih (x := releaseSector x n) (by rw [h.frame]; exact hm))

theorem Device.reclaim_moved {d : Device} (hm : d.mode ≠ .ready) (st : Fin 16) : d.MapMoved (d.reclaim st).1 := by
  cases hs : d.stream st with
  | none =>
    have hnone : d.reclaim st = (d, []) := by rw [Device.reclaim, hs]
    rw [hnone]
    exact .refl d
  | some b =>
    rcases Device.reclaim_cases hs with h | ⟨gone, stay, -, h⟩ <;> rw [h]
    · exact .refl d
    · refine (foldl_releaseSector_moved gone (x := (d, [])) hm).trans ?_
      have hframe : d.headsGone st gone stay = { (gone.foldl releaseSector (d, [])).1 with
          events := (d.headsGone st gone stay).events, streams := (d.headsGone st gone stay).streams } := by
        unfold Device.headsGone
        rw [Device.recounted_frame, Device.setChain_frame]
      rw [hframe]
      exact .setStreams _ _ _

/-! ### RETIRE entries while serials are left (R104) -/

/-- The next serial and the places free: what the buffer may still take runs out of places first. -/
def Writer.serialsLeft (w : Writer) : Nat := w.nextSerial + (15 - w.staging.length)

/-- Entries that are no CURSOR entries and have places are added one after another (R104, R106). -/
theorem Device.stageAll_room {es : List MetaEntry} (hes : ∀ e ∈ es, e.sameCursor e = false) {d : Device}
    (ht : d.writer.takesEntries = true) (hn : es.length ≤ 15 - d.writer.staging.length)
    (hs : d.writer.serialsLeft ≤ 4294967295) :
    d.stageAll es = { d with writer := es.foldl Writer.addEntry d.writer } ∧
      (es.foldl Writer.addEntry d.writer).serialsLeft = d.writer.serialsLeft := by
  induction es generalizing d with
  | nil => exact ⟨rfl, rfl⟩
  | cons e es ih =>
    rw [List.length_cons] at hn
    unfold Writer.serialsLeft at hs
    have hadd := (Device.stage_uncursored (hes e List.mem_cons_self) d).2.2 ht (by omega)
    have hlen : (d.writer.addEntry e).staging.length = d.writer.staging.length + 1 := by simp [Writer.addEntry]
    have hleft : (d.writer.addEntry e).serialsLeft = d.writer.serialsLeft := by
      unfold Writer.serialsLeft
      rw [hlen]
      show d.writer.nextSerial + 1 + _ = _
      omega
    obtain ⟨hall, hkept⟩ := ih (fun x hx => hes x (List.mem_cons_of_mem _ hx)) (d := { d with writer := d.writer.addEntry e }) ht
      (by show es.length ≤ 15 - (d.writer.addEntry e).staging.length; omega) (by rw [hleft]; exact hs)
    refine ⟨?_, hkept.trans hleft⟩
    show (d.stage e).stageAll es = _
    rw [hadd, hall]
    rfl

/-- RETIRE entries staged where their places suffice, and discarded where they do not: the writer alone changes, and no
serial runs out (R43, R44). -/
theorem Device.stageOrDiscard_room {d : Device} (hs : d.writer.serialsLeft ≤ 4294967295) (p : Port) (l : List Nat) :
    ∃ w : Writer, d.stageOrDiscard p (retireEntries l) = { d with writer := w } ∧
      w.serialsLeft = d.writer.serialsLeft := by
  unfold Device.stageOrDiscard
  split
  · rename_i hsuff
    cases ht : d.writer.takesEntries with
    | false => exact ⟨d.writer, Device.stageAll_discarded ht _, rfl⟩
    | true =>
      have hn : (retireEntries l).length ≤ 15 - d.writer.staging.length := by
        simp only [Device.placesSuffice, ht, Bool.not_true, Bool.false_or, Writer.freePlaces,
          Config.stagingPlaces] at hsuff
        exact Nat.le_trans (of_decide_eq_true hsuff) (Nat.sub_le _ _)
      have hes : ∀ e ∈ retireEntries l, e.sameCursor e = false := fun e he => by
        obtain ⟨g, -, rfl⟩ := List.mem_map.mp he
        rfl
      obtain ⟨hall, hkept⟩ := Device.stageAll_room hes ht hn hs
      exact ⟨_, hall, hkept⟩
  · exact ⟨d.writer, rfl, rfl⟩

/-! ### A page VOID, or its sector gone (R24, R44) -/

/-- The page is VOID in the map, or its sector has left its chain. -/
def Device.pageOver (d : Device) (n page : Nat) : Prop :=
  (d.sector n).pageList[page]? = some .void ∨ n ∈ d.eraseQueue ∨ n ∈ d.badList

theorem Device.MapMoved.pageOver {d e : Device} (h : d.MapMoved e) {n page : Nat} (hp : d.pageOver n page) :
    e.pageOver n page := by
  rcases hp with hp | hp
  · rcases h.sector n with hs | hs
    · exact .inl (by rw [hs]; exact hp)
    · exact .inr hs
  · exact .inr (h.listed n hp)

theorem Sector.setPage_pageList (x : Sector) (page : Nat) (v : PageState) : (x.setPage page v).pageList = x.pageList.set page v := by
  unfold Sector.setPage Sector.pageList
  split
  · rw [Vector.toList_set]
  · rename_i h
    rw [List.set_eq_of_length_le]
    simpa using Nat.not_lt.mp h

/-- A page of the map made VOID: it is over, and no other ceases to be. -/
theorem Device.setPageState_pageOver (d : Device) (sector page : Nat) :
    (∀ n k, d.pageOver n k → (d.setPageState sector page .void).pageOver n k) ∧
    (sector < 256 → page < 16 → (d.setPageState sector page .void).pageOver sector page) := by
  have hlists : (d.setPageState sector page .void).eraseQueue = d.eraseQueue ∧
      (d.setPageState sector page .void).badList = d.badList := by
    unfold Device.setPageState
    rw [Device.setSector_frame]
    exact ⟨rfl, rfl⟩
  refine ⟨fun n k h => ?_, fun hs hp => .inl ?_⟩
  · rcases h with h | h
    · refine .inl ?_
      by_cases hn : n = sector
      · subst hn
        by_cases hlt : n < 256
        · unfold Device.setPageState
          rw [Device.sector_setSector _ _ _ hlt, Sector.setPage_pageList, List.getElem?_set]
          have hlen : k < (d.sector n).pageList.length := (List.getElem?_eq_some_iff.mp h).1
          split
          · rename_i hk
            subst hk
            rw [if_pos hlen]
          · exact h
        · have hsame : d.setPageState n page .void = d := by
            unfold Device.setPageState Device.setSector
            rw [dif_neg hlt]
          rw [hsame]
          exact h
      · unfold Device.setPageState
        rw [Device.sector_setSector_other _ _ _ _ hn]
        exact h
    · refine .inr ?_
      rw [hlists.1, hlists.2]
      exact h
  · unfold Device.setPageState
    rw [Device.sector_setSector _ _ _ hs, Sector.setPage_pageList, List.getElem?_set, if_pos rfl, if_pos]
    simpa [Sector.pageList] using hp

/-! ### An executor on entry into STOPPING (R178, step 1) -/

/-- An executor answered ABORTED in every state but those without a request; one with the array runs on. -/
structure toldStop (x : Executor) (h : HostPort) (x' : Executor) (h' : HostPort) : Prop where
  idle : x.state = .idle ∨ x.state = .waitSlot ∨ x.state = .onArray ∧ x.inHand = none → x' = x ∧ h' = h
  array : x.state = .onArray → x.inHand ≠ none → h' = h.told x.inHand .aborted [] ∧
    (∀ j, x.job = .append j → x' = ⟨.onArray, none, .append { j with kept := [] }⟩) ∧
    ((∀ j, x.job ≠ .append j) → x' = ⟨.onArray, none, x.job⟩)
  waits : x.state ≠ .idle → x.state ≠ .waitSlot → x.state ≠ .onArray →
    x' = Executor.rest ∧ h' = h.told x.inHand .aborted []

theorem toldStop.attached {x x' : Executor} {h h' : HostPort} (k : toldStop x h x' h') :
    h'.attached = h.attached ∧ h'.requests = h.requests := by
  by_cases h1 : x.state = .idle ∨ x.state = .waitSlot ∨ x.state = .onArray ∧ x.inHand = none
  · rw [(k.idle h1).2]
    exact ⟨rfl, rfl⟩
  · rw [not_or, not_or] at h1
    obtain ⟨hidle, hslot, harray⟩ := h1
    have htold : h' = h.told x.inHand .aborted [] := by
      by_cases ha : x.state = .onArray
      · exact (k.array ha fun hr => harray ⟨ha, hr⟩).1
      · exact (k.waits hidle hslot ha).2
    rw [htold]
    exact ⟨(h.told_fields _ _ _).2, (h.told_fields _ _ _).1⟩

/-- An append between its steps (R44). -/
def Executor.between (x : Executor) (j : AppendJob) : Prop := x.state = .waitArray ∧ x.job = .append j ∧ j.phase = .between

/-- What an executor's part of the entry into STOPPING changes. -/
structure Device.PortStopped (d e : Device) (p : Port) : Prop where
  frame : e = { d with
    ports := e.ports, execs := e.execs, events := e.events, streams := e.streams, sectors := e.sectors
    eraseQueue := e.eraseQueue, badList := e.badList, writer := e.writer }
  serials : e.writer.serialsLeft = d.writer.serialsLeft
  told : toldStop (d.exec p) (d.port p) (e.exec p) (e.port p)
  other : ∀ q, q ≠ p → e.exec q = d.exec q ∧ e.port q = d.port q
  pages : ∀ n k, d.pageOver n k → e.pageOver n k
  own : ∀ j, (d.exec p).between j → j.sector < 256 → j.page < 16 → e.pageOver j.sector j.page
  plain : (∀ j, ¬ (d.exec p).between j) → e = { d with
    ports := e.ports, execs := e.execs, writer := { d.writer with placeWait := e.writer.placeWait } }

theorem Device.abandonPage_stopping {d : Device} (hm : d.mode ≠ .ready) (hs : d.writer.serialsLeft ≤ 4294967295) (p : Port)
    (j : AppendJob) : ∃ e, (d.setPageState j.sector j.page .void).MapMoved e ∧ ∃ w : Writer,
      d.abandonPage p j = { e with writer := w } ∧ w.serialsLeft = d.writer.serialsLeft := by
  have hframe : d.setPageState j.sector j.page .void = { d with sectors := (d.setPageState j.sector j.page .void).sectors } :=
    Device.setSector_frame _ _ _
  have hmoved := Device.reclaim_moved (d := d.setPageState j.sector j.page .void) (by rw [hframe]; exact hm) j.stream
  have hwriter : ((d.setPageState j.sector j.page .void).reclaim j.stream).1.writer = d.writer := by
    rw [hmoved.frame, hframe]
  obtain ⟨w, hw, hleft⟩ := Device.stageOrDiscard_room (d := ((d.setPageState j.sector j.page .void).reclaim j.stream).1)
    (by rw [hwriter]; exact hs) p ((d.setPageState j.sector j.page .void).reclaim j.stream).2
  exact ⟨_, hmoved, w, hw, hleft.trans (by rw [hwriter])⟩

theorem Device.PortStopped.of_answer {d e : Device} {p : Port}
    (frame : e = { d with
      events := e.events, streams := e.streams, sectors := e.sectors, eraseQueue := e.eraseQueue, badList := e.badList
      writer := e.writer })
    (serials : e.writer.serialsLeft = d.writer.serialsLeft) (pages : ∀ n k, d.pageOver n k → e.pageOver n k)
    (own : ∀ j, (d.exec p).between j → j.sector < 256 → j.page < 16 → e.pageOver j.sector j.page)
    (plain : (∀ j, ¬ (d.exec p).between j) → e = d)
    (h1 : (d.exec p).state ≠ .idle) (h2 : (d.exec p).state ≠ .waitSlot) (h3 : (d.exec p).state ≠ .onArray) :
    d.PortStopped (e.answer p .aborted []) p := by
  have hexec (q : Port) : e.exec q = d.exec q := by rw [frame]; rfl
  have hport (q : Port) : e.port q = d.port q := by rw [frame]; rfl
  have hframe := e.answer_changes p .aborted []
  have hover (n k : Nat) (h : e.pageOver n k) : (e.answer p .aborted []).pageOver n k := by
    rw [hframe]
    exact h
  refine ⟨hframe.trans (congrArg (fun x : Device => { x with
      ports := (e.answer p .aborted []).ports, execs := (e.answer p .aborted []).execs }) frame |>.trans ?_), ?_,
    ⟨fun h => ?_, fun h => absurd h h3, fun _ _ _ => ⟨Device.answer_exec _ _ _ _, ?_⟩⟩, fun q hq => ⟨?_, ?_⟩,
    fun n k h => hover n k (pages n k h), fun j hj hs hp => hover _ _ (own j hj hs hp), fun h => ?_⟩
  · rw [hframe]
  · rw [hframe]
    exact serials
  · rcases h with h | h | h
    exacts [absurd h h1, absurd h h2, absurd h.1 h3]
  · rw [Device.answer_port, hexec, hport]
  · exact (Device.answer_exec_other _ hq).trans (hexec q)
  · exact (Device.answer_port_other _ hq).trans (hport q)
  · have he := plain h
    subst he
    rw [hframe]

theorem Device.stopExecutor_spec {d : Device} (hm : d.mode ≠ .ready) (hs : d.writer.serialsLeft ≤ 4294967295) (p : Port) :
    d.PortStopped (d.stopExecutor p) p := by
  have same (h : (d.exec p).state = .idle ∨ (d.exec p).state = .waitSlot ∨ (d.exec p).state = .onArray ∧
      (d.exec p).inHand = none) : d.PortStopped d p := by
    refine ⟨rfl, rfl, ⟨fun _ => ⟨rfl, rfl⟩, fun ha hr => ?_, fun h1 h2 h3 => ?_⟩, fun _ _ => ⟨rfl, rfl⟩, fun _ _ h => h,
      fun j hj => ?_, fun _ => rfl⟩
    · rcases h with h | h | h
      · exact absurd (ha.symm.trans h) (by decide)
      · exact absurd (ha.symm.trans h) (by decide)
      · exact absurd h.2 hr
    · rcases h with h | h | h
      exacts [absurd h h1, absurd h h2, absurd h.1 h3]
    · rcases h with h | h | h
      · exact absurd (hj.1.symm.trans h) (by decide)
      · exact absurd (hj.1.symm.trans h) (by decide)
      · exact absurd (hj.1.symm.trans h.1) (by decide)
  have answers (hne : (d.exec p).state ≠ .waitArray ∨ ∀ j, ¬ (d.exec p).between j) (h1 : (d.exec p).state ≠ .idle)
      (h2 : (d.exec p).state ≠ .waitSlot) (h3 : (d.exec p).state ≠ .onArray) : d.PortStopped (d.answer p .aborted []) p := by
    refine .of_answer rfl rfl (fun _ _ h => h) (fun j hj => ?_) (fun _ => rfl) h1 h2 h3
    rcases hne with h | h
    · exact absurd hj.1 h
    · exact absurd hj (h j)
  unfold Device.stopExecutor
  cases hst : (d.exec p).state with
  | idle => exact same (.inl hst)
  | waitSlot => exact same (.inr (.inl hst))
  | check => exact answers (.inl (by rw [hst]; nofun)) (by rw [hst]; nofun) (by rw [hst]; nofun) (by rw [hst]; nofun)
  | waitSpace => exact answers (.inl (by rw [hst]; nofun)) (by rw [hst]; nofun) (by rw [hst]; nofun) (by rw [hst]; nofun)
  | waitStaging => exact answers (.inl (by rw [hst]; nofun)) (by rw [hst]; nofun) (by rw [hst]; nofun) (by rw [hst]; nofun)
  | waitDurable n => exact answers (.inl (by rw [hst]; nofun)) (by rw [hst]; nofun) (by rw [hst]; nofun) (by rw [hst]; nofun)
  | waitArray =>
    dsimp only
    obtain ⟨hclaim, hother⟩ := d.withdrawClaim_of p
    by_cases hb : ∃ j, (d.exec p).between j
    · obtain ⟨j, hj⟩ := hb
      obtain ⟨e, hmoved, w, he, hleft⟩ := Device.abandonPage_stopping hm hs p j
      obtain ⟨hkeeps, hvoid⟩ := d.setPageState_pageOver j.sector j.page
      rw [hclaim j hj.2.1 hj.2.2, he]
      have hpage : d.setPageState j.sector j.page .void =
          { d with sectors := (d.setPageState j.sector j.page .void).sectors } := Device.setSector_frame _ _ _
      refine .of_answer (e := { e with writer := w }) ?_ hleft (fun n k h => hmoved.pageOver (hkeeps n k h)) (fun j' hj' => ?_)
        (fun h => absurd hj (h j)) (by rw [hst]; nofun) (by rw [hst]; nofun) (by rw [hst]; nofun)
      · exact congrArg (fun x : Device => { x with writer := w }) (hmoved.frame.trans (congrArg (fun x : Device => { x with
          events := e.events, streams := e.streams, sectors := e.sectors, eraseQueue := e.eraseQueue, badList := e.badList })
          hpage))
      · have hjj : j' = j := by
          have := hj'.2.1.symm.trans hj.2.1
          exact Job.append.inj this
        subst hjj
        exact fun h1 h2 => hmoved.pageOver (hvoid h1 h2)
    · have hno : ∀ j, ¬ (d.exec p).between j := fun j hj => hb ⟨j, hj⟩
      rw [hother fun j hj hp => hno j ⟨hst, hj, hp⟩]
      exact answers (.inr hno) (by rw [hst]; nofun) (by rw [hst]; nofun) (by rw [hst]; nofun)
  | onArray =>
    dsimp only
    cases hr : (d.exec p).inHand with
    | none => exact same (.inr (.inr ⟨hst, hr⟩))
    | some r =>
      dsimp only
      have hport (q : Port) : (d.respond p r .aborted []).port q =
          if q = p then (d.port p).told (some r) .aborted [] else d.port q := by
        unfold Device.respond
        split
        · rename_i h
          rw [h, Device.port_setPort]
          rfl
        · rename_i h
          exact Device.port_setPort_other _ _ _ _ h
      obtain ⟨x, hx, happend, hplain⟩ : ∃ x : Executor, (d.respond p r .aborted []).detachJob p =
          ((d.respond p r .aborted []).leavePlaceWait (.executor p)).setExec p x ∧
          (∀ j, (d.exec p).job = .append j → x = ⟨.onArray, none, .append { j with kept := [] }⟩) ∧
          ((∀ j, (d.exec p).job ≠ .append j) → x = ⟨.onArray, none, (d.exec p).job⟩) := by
        have hsame : ((d.respond p r .aborted []).leavePlaceWait (.executor p)).exec p = d.exec p := rfl
        unfold Device.detachJob
        dsimp only
        rw [hsame]
        cases hj : (d.exec p).job with
        | append j => exact ⟨_, rfl, fun j' hj' => by rw [Job.append.inj hj'], fun h => absurd rfl (h j)⟩
        | none => exact ⟨_, rfl, nofun, fun _ => rfl⟩
        | read st inc => exact ⟨_, rfl, nofun, fun _ => rfl⟩
        | reading st inc seq sector page => exact ⟨_, rfl, nofun, fun _ => rfl⟩
        | created st inc => exact ⟨_, rfl, nofun, fun _ => rfl⟩
        | acked n => exact ⟨_, rfl, nofun, fun _ => rfl⟩
      rw [hx]
      refine ⟨rfl, rfl, ⟨fun h => ?_, fun _ _ => ⟨?_, fun j hj => ?_, fun hno => ?_⟩, fun _ _ h => absurd hst h⟩,
        fun q hq => ⟨Device.exec_setExec_other _ _ _ _ hq, ?_⟩, fun _ _ h => h, fun j hj => ?_, fun _ => rfl⟩
      · rcases h with h | h | h
        · exact absurd (hst.symm.trans h) (by decide)
        · exact absurd (hst.symm.trans h) (by decide)
        · exact absurd (hr.symm.trans h.2) (by simp)
      · rw [hr]
        exact (hport p).trans (if_pos rfl)
      · exact (Device.exec_setExec _ _ _).trans (happend j hj)
      · exact (Device.exec_setExec _ _ _).trans (hplain hno)
      · exact (hport q).trans (if_neg hq)
      · exact absurd (hj.1.symm.trans hst) (by decide)

/-- What the executors' part of the entry into STOPPING changes, all ports taken together. -/
structure Device.PortsStopped (d e : Device) : Prop where
  frame : e = { d with
    ports := e.ports, execs := e.execs, events := e.events, streams := e.streams, sectors := e.sectors
    eraseQueue := e.eraseQueue, badList := e.badList, writer := e.writer }
  told : ∀ q, toldStop (d.exec q) (d.port q) (e.exec q) (e.port q)
  own : ∀ q j, (d.exec q).between j → j.sector < 256 → j.page < 16 → e.pageOver j.sector j.page
  plain : (∀ q j, ¬ (d.exec q).between j) → e = { d with
    ports := e.ports, execs := e.execs, writer := { d.writer with placeWait := e.writer.placeWait } }

/-- The executors one after another (R178, step 1). -/
theorem Device.stopExecutors_spec {d : Device} (hm : d.mode ≠ .ready) (hs : d.writer.serialsLeft ≤ 4294967295) :
    d.PortsStopped (((d.stopExecutor .A).stopExecutor .B).stopExecutor .C) := by
  have hA := Device.stopExecutor_spec hm hs .A
  generalize d.stopExecutor .A = a at hA
  have hB := Device.stopExecutor_spec (d := a) (by rw [hA.frame]; exact hm) (by rw [hA.serials]; exact hs) .B
  generalize a.stopExecutor .B = b at hB
  have hC := Device.stopExecutor_spec (d := b) (by rw [hB.frame, hA.frame]; exact hm)
    (by rw [hB.serials, hA.serials]; exact hs) .C
  generalize b.stopExecutor .C = c at hC
  obtain ⟨hBA, hBA'⟩ := hB.other .A (by decide)
  obtain ⟨hAB, hAB'⟩ := hA.other .B (by decide)
  obtain ⟨hAC, hAC'⟩ := hA.other .C (by decide)
  obtain ⟨hBC, hBC'⟩ := hB.other .C (by decide)
  obtain ⟨hCA, hCA'⟩ := hC.other .A (by decide)
  obtain ⟨hCB, hCB'⟩ := hC.other .B (by decide)
  refine ⟨?_, fun q => ?_, fun q j hj h1 h2 => ?_, fun hno => ?_⟩
  · exact hC.frame.trans ((congrArg (fun x : Device => { x with
      ports := c.ports, execs := c.execs, events := c.events, streams := c.streams, sectors := c.sectors
      eraseQueue := c.eraseQueue, badList := c.badList, writer := c.writer }) hB.frame).trans
        (congrArg (fun x : Device => { x with
          ports := c.ports, execs := c.execs, events := c.events, streams := c.streams, sectors := c.sectors
          eraseQueue := c.eraseQueue, badList := c.badList, writer := c.writer }) hA.frame))
  · cases q with
    | A =>
      rw [hCA, hCA', hBA, hBA']
      exact hA.told
    | B =>
      rw [hCB, hCB', ← hAB, ← hAB']
      exact hB.told
    | C =>
      rw [← hAC, ← hAC', ← hBC, ← hBC']
      exact hC.told
  · cases q with
    | A => exact hC.pages _ _ (hB.pages _ _ (hA.own j hj h1 h2))
    | B => exact hC.pages _ _ (hB.own j (hAB ▸ hj) h1 h2)
    | C => exact hC.own j (hBC ▸ hAC ▸ hj) h1 h2
  · have ha := hA.plain (hno .A)
    have hb := hB.plain fun j hj => hno .B j (hAB ▸ hj)
    have hc := hC.plain fun j hj => hno .C j (hAC ▸ hBC ▸ hj)
    exact hc.trans ((congrArg (fun x : Device => { x with
      ports := c.ports, execs := c.execs, writer := { x.writer with placeWait := c.writer.placeWait } }) hb).trans
        (congrArg (fun x : Device => { x with
          ports := c.ports, execs := c.execs, writer := { x.writer with placeWait := c.writer.placeWait } }) ha))

/-! ### The erase abandoned (R82, R102, R178) -/

/-- The sector of an abandoned QUEUE erase is QUEUED again; no other descriptor changes (R82, R102). -/
theorem Device.eraseAbandoned_sectors (d : Device) : d.eraseAbandoned.sectors = d.sectors ∧
      (∀ c, d.engine.current = some c → c.source ≠ .queue) ∨
    ∃ c, d.engine.current = some c ∧ c.source = .queue ∧
      d.eraseAbandoned.sectors = (d.setSector c.sector { d.sector c.sector with state := .queued }).sectors := by
  unfold Device.eraseAbandoned
  cases hc : d.engine.current with
  | none => exact .inl ⟨by dsimp only; split <;> rfl, nofun⟩
  | some c =>
    rcases c with ⟨sector, source, suspensions, timer⟩
    cases source with
    | slot => exact .inl ⟨by dsimp only; split <;> rfl, fun c h => by cases h; nofun⟩
    | queue => exact .inr ⟨_, rfl, rfl, by dsimp only; split <;> rfl⟩

theorem Device.eraseAbandoned_pages (d : Device) (n : Nat) : (d.eraseAbandoned.sector n).pageList = (d.sector n).pageList := by
  rcases d.eraseAbandoned_sectors with ⟨h, -⟩ | ⟨c, -, -, h⟩ <;> rw [Device.sector_congr h]
  by_cases hlt : n < 256
  · rw [Device.sector_setSector_eq _ _ _ hlt]
    split
    · rename_i h
      rw [h]
      rfl
    · rfl
  · simp [Device.sector, hlt]

theorem Device.abandonErase_pages (d : Device) (n : Nat) : (d.abandonErase.sector n).pageList = (d.sector n).pageList := by
  unfold Device.abandonErase
  split
  · rfl
  · split
    · exact d.withdrawEngineClaim.eraseAbandoned_pages n
    · rfl
    · rfl

/-- An erase abandoned, by the phase of its context (R82, R102; log 47). -/
theorem Device.abandonErase_phase {d : Device} {x : EraseContext} {c : CurrentErase} (hx : d.eraseCtx = some x)
    (hc : d.engine.current = some c) :
    (x.phase = .suspended → d.abandonErase.eraseCtx = none ∧ d.abandonErase.engine.current = none ∧
      (c.source = .queue → c.sector < 256 → (d.abandonErase.sector c.sector).state = .queued)) ∧
    (x.phase ≠ .suspended → d.abandonErase = { d with eraseCtx := some { x with abandon := true } }) := by
  unfold Device.abandonErase
  rw [hx]
  dsimp only
  refine ⟨fun hp => ?_, fun hp => ?_⟩
  · rw [hp]
    dsimp only
    have hgone : d.withdrawEngineClaim.eraseAbandoned.eraseCtx = none ∧
        d.withdrawEngineClaim.eraseAbandoned.engine.current = none := by
      obtain ⟨S, hS⟩ := d.withdrawEngineClaim.eraseAbandoned_shape
      rw [hS]
      split <;> exact ⟨rfl, rfl⟩
    refine ⟨hgone.1, hgone.2, fun hq hlt => ?_⟩
    have hc' : d.withdrawEngineClaim.engine.current = some c := hc
    rcases d.withdrawEngineClaim.eraseAbandoned_sectors with ⟨-, hno⟩ | ⟨c', h, -, hs⟩
    · exact absurd hq (hno c hc')
    · cases hc'.symm.trans h
      rw [Device.sector_congr hs, Device.sector_setSector _ _ _ hlt]
  · cases hph : x.phase with
    | suspended => exact absurd hph hp
    | running => rfl
    | suspending => rfl

/-- The slot empty and the starvation flag clear: the engine before its erase is abandoned (R102). -/
def Device.engineEmptied (d : Device) : Device :=
  { d with engine := { d.engine with slot := [] }, arbiter := { d.arbiter with starved := false, starveTimer := false } }

/-- Stopping the engine is abandoning its erase, but for the engine's state and outcome. -/
theorem Device.stopEngine_eq (d : Device) : ∃ st, d.stopEngine = { d.engineEmptied.abandonErase with
    engine := { d.engineEmptied.abandonErase.engine with outcome := none, state := st } } := by
  show ∃ st, (if d.engineEmptied.abandonErase.discardOutcome.engine.state == .claiming ||
      d.engineEmptied.abandonErase.discardOutcome.engine.state == .gated then
    { d.engineEmptied.abandonErase.discardOutcome with
      engine := { d.engineEmptied.abandonErase.discardOutcome.engine with state := .idle } }
    else d.engineEmptied.abandonErase.discardOutcome) = _
  generalize d.engineEmptied.abandonErase = e
  rw [Device.discardOutcome_frame e]
  generalize e.discardOutcome.engine.state = st
  split
  · exact ⟨_, rfl⟩
  · exact ⟨_, rfl⟩

theorem Device.stopEngine_timer (d : Device) : d.stopEngine.arbiter.starveTimer = false := by
  obtain ⟨st, h⟩ := d.stopEngine_eq
  rw [h]
  show d.engineEmptied.abandonErase.arbiter.starveTimer = false
  unfold Device.abandonErase
  split
  · rfl
  · split
    · obtain ⟨S, hS⟩ := d.engineEmptied.withdrawEngineClaim.eraseAbandoned_shape
      rw [hS]
      split <;> rfl
    · rfl
    · rfl

theorem Device.stopEngine_pages (d : Device) (n : Nat) : (d.stopEngine.sector n).pageList = (d.sector n).pageList := by
  obtain ⟨st, h⟩ := d.stopEngine_eq
  rw [h]
  exact d.engineEmptied.abandonErase_pages n

/-- The current erase on entry into STOPPING: gone at once where it was suspended, otherwise marked and running on. -/
theorem Device.stopEngine_erase {d : Device} {x : EraseContext} {c : CurrentErase} (hx : d.eraseCtx = some x)
    (hc : d.engine.current = some c) :
    (x.phase = .suspended → d.stopEngine.eraseCtx = none ∧ d.stopEngine.engine.current = none ∧
      (c.source = .queue → c.sector < 256 → (d.stopEngine.sector c.sector).state = .queued)) ∧
    (x.phase ≠ .suspended → d.stopEngine.eraseCtx = some { x with abandon := true } ∧ d.stopEngine.engine.current = some c ∧
      d.stopEngine.arbiter.holder = d.arbiter.holder) := by
  obtain ⟨hsusp, hrun⟩ := Device.abandonErase_phase (d := d.engineEmptied) hx hc
  obtain ⟨st, h⟩ := d.stopEngine_eq
  rw [h]
  refine ⟨hsusp, fun hp => ?_⟩
  rw [hrun hp]
  exact ⟨rfl, hc, rfl⟩

/-! ### The consent unit ended (R144, R146, R147, R151) -/

theorem Device.stopConsent_frame (d : Device) : d.stopConsent = { d with
    streams := d.stopConsent.streams, events := d.stopConsent.events
    consent := { d.consent with ballot := none, state := .idle, pending := none } } := by
  unfold Device.stopConsent
  cases hb : d.consent.ballot with
  | none =>
    rw [Device.closeBallot_none _ _ hb]
    dsimp only
    rw [← hb]
  | some bl => rw [Device.closeBallot_frame _ _ _ hb]

/-- An open ballot is ABORTED: its parties are told, its stream is no longer held (R144, R145). -/
theorem Device.stopConsent_ballot {d : Device} {bl : Ballot} (hb : d.consent.ballot = some bl) :
    (∀ q, bl.parties.get q = true → (d.port q).attached = true → (d.stopConsent.events.get q).overflow = true ∨
      ⟨.ballotDone, some bl.id.toNat, some 4⟩ ∈ (d.stopConsent.events.get q).queue) ∧
    ∀ st inc b, bl.op = .purge st inc → d.stopConsent.stream st = some b → b.ballotHeld = false := by
  refine ⟨fun q hp ha => ?_, fun st inc b hop hs => ?_⟩
  · show ((d.closeBallot .aborted).events.get q).tells _
    rw [Device.closeBallot_events hb, if_pos ⟨hp, ha⟩]
    exact EventUnit.offer_tells _ _
  · have hclosed : (d.closeBallot .aborted).stream st = some b := hs
    cases hst : d.stream st with
    | none =>
      rcases d.closeBallot_unheld .aborted st with h | h <;> (rw [h, hst] at hclosed; cases hclosed)
    | some b' =>
      rw [Device.closeBallot_stream hb .aborted hop hst] at hclosed
      rw [← Option.some.inj hclosed]

/-! ### Entry into STOPPING (R178) -/

/-- What the entry into STOPPING changes, block by block. -/
structure Device.EnteredStopping (d f : Device) : Prop where
  frame : f = { d with
    mode := .stopping, ports := f.ports, execs := f.execs, events := f.events, streams := f.streams, sectors := f.sectors
    eraseQueue := f.eraseQueue, badList := f.badList, spaceWait := [], arrayOp := f.arrayOp, eraseCtx := f.eraseCtx
    arbiter := f.arbiter, engine := f.engine, writer := f.writer, mount := d.mount.over .idle
    consent := { d.consent with ballot := none, state := .idle, pending := none } }
  told : ∀ q, toldStop (d.exec q) (d.port q) (f.exec q) (f.port q)
  own : ∀ q j, (d.exec q).between j → j.sector < 256 → j.page < 16 → f.pageOver j.sector j.page
  placeWait : f.writer.placeWait = []
  slot : f.engine.slot = []
  outcome : f.engine.outcome = none
  starved : f.arbiter.starved = false
  timer : f.arbiter.starveTimer = false
  erase : ∀ x c, d.eraseCtx = some x → d.engine.current = some c →
    (x.phase = .suspended → f.eraseCtx = none ∧ f.engine.current = none ∧
      (c.source = .queue → c.sector < 256 → (f.sector c.sector).state = .queued)) ∧
    (x.phase ≠ .suspended → f.eraseCtx = some { x with abandon := true } ∧ f.engine.current = some c ∧
      f.arbiter.holder = d.arbiter.holder)
  ballot : ∀ bl, d.consent.ballot = some bl →
    (∀ q, bl.parties.get q = true → (d.port q).attached = true → (f.events.get q).overflow = true ∨
      ⟨.ballotDone, some bl.id.toNat, some 4⟩ ∈ (f.events.get q).queue) ∧
    ∀ st inc b, bl.op = .purge st inc → f.stream st = some b → b.ballotHeld = false
  plain : (∀ q j, ¬ (d.exec q).between j) → f.eraseQueue = d.eraseQueue ∧ f.badList = d.badList ∧ d.unheld f ∧
    f.writer = ({ d.writer with placeWait := [] } : Writer).enterStopping

theorem Device.enterStopping_spec {d : Device} (hs : d.writer.serialsLeft ≤ 4294967295) :
    d.EnteredStopping d.enterStopping := by
  have hports := Device.stopExecutors_spec (d := { d with mode := .stopping, reason := d.reasonOnEntry .stopping }) nofun hs
  unfold Device.enterStopping
  dsimp only
  generalize (Device.stopExecutor (Device.stopExecutor (Device.stopExecutor
    { d with mode := .stopping, reason := d.reasonOnEntry .stopping } .A) .B) .C) = e at hports ⊢
  have hengine := Device.stopEngine_spec { e with spaceWait := [], writer := { e.writer with placeWait := [] } }
  have htimer := Device.stopEngine_timer { e with spaceWait := [], writer := { e.writer with placeWait := [] } }
  have hpages := Device.stopEngine_pages { e with spaceWait := [], writer := { e.writer with placeWait := [] } }
  have herase (x : EraseContext) (c : CurrentErase) (hx : e.eraseCtx = some x) (hc : e.engine.current = some c) :=
    Device.stopEngine_erase (d := { e with spaceWait := [], writer := { e.writer with placeWait := [] } }) hx hc
  generalize Device.stopEngine { e with spaceWait := [], writer := { e.writer with placeWait := [] } } = h
    at hengine htimer hpages herase ⊢
  have hconsent := h.stopConsent_frame
  have hballot (bl : Ballot) (hb : h.consent.ballot = some bl) := Device.stopConsent_ballot hb
  have hunheld : h.unheld h.stopConsent := h.closeBallot_unheld .aborted
  generalize h.stopConsent = k at hconsent hballot hunheld ⊢
  have hstage : k = { d with
      mode := .stopping, ports := e.ports, execs := e.execs, events := k.events, streams := k.streams, sectors := h.sectors
      eraseQueue := e.eraseQueue, badList := e.badList, spaceWait := [], arrayOp := h.arrayOp, eraseCtx := h.eraseCtx
      arbiter := h.arbiter, engine := h.engine, writer := { e.writer with placeWait := [] }
      consent := { d.consent with ballot := none, state := .idle, pending := none } } :=
    hconsent.trans ((congrArg (fun y : Device => { y with
      streams := k.streams, events := k.events
      consent := { y.consent with ballot := none, state := .idle, pending := none } }) hengine.frame).trans
      (congrArg (fun y : Device => { y with
        streams := k.streams, events := k.events, spaceWait := [], sectors := h.sectors, arrayOp := h.arrayOp
        eraseCtx := h.eraseCtx, arbiter := h.arbiter, engine := h.engine, writer := { e.writer with placeWait := [] }
        consent := { y.consent with ballot := none, state := .idle, pending := none } }) hports.frame))
  have hexecs : k.execs = e.execs := (congrArg Device.execs hstage :)
  have hkports : k.ports = e.ports := (congrArg Device.ports hstage :)
  have hksectors : k.sectors = h.sectors := (congrArg Device.sectors hstage :)
  have hkqueue : k.eraseQueue = e.eraseQueue := (congrArg Device.eraseQueue hstage :)
  have hkbad : k.badList = e.badList := (congrArg Device.badList hstage :)
  have hkctx : k.eraseCtx = h.eraseCtx := (congrArg Device.eraseCtx hstage :)
  have hkengine : k.engine = h.engine := (congrArg Device.engine hstage :)
  have hkarbiter : k.arbiter = h.arbiter := (congrArg Device.arbiter hstage :)
  have hkwriter : k.writer = { e.writer with placeWait := [] } := (congrArg Device.writer hstage :)
  have hhballot : h.consent.ballot = d.consent.ballot := by
    rw [hengine.frame]
    exact (congrArg (fun y : Device => y.consent.ballot) hports.frame :)
  have hhattached (q : Port) : (h.port q).attached = (d.port q).attached := by
    have htold := hports.told q
    have hport : h.port q = e.port q := by rw [hengine.frame]; rfl
    rw [hport]
    exact htold.attached.1
  have hectx : e.eraseCtx = d.eraseCtx := (congrArg Device.eraseCtx hports.frame :)
  have heengine : e.engine = d.engine := (congrArg Device.engine hports.frame :)
  have hearbiter : e.arbiter = d.arbiter := (congrArg Device.arbiter hports.frame :)
  refine ⟨?_, fun q => ?_, fun q j hj h1 h2 => ?_, ?_, ?_, ?_, ?_, ?_, fun x c hx hc => ?_, fun bl hb => ?_, fun hno => ?_⟩
  · exact (congrArg (fun y : Device => { y with
      ports := k.ports, execs := k.execs, sectors := k.sectors, eraseQueue := k.eraseQueue, badList := k.badList
      arrayOp := k.arrayOp, eraseCtx := k.eraseCtx, arbiter := k.arbiter, engine := k.engine
      writer := k.writer.enterStopping, mount := y.mount.over .idle }) hstage :)
  · show toldStop _ _ (k.execs.get q) (k.ports.get q)
    rw [hexecs, hkports]
    exact hports.told q
  · show (k.sector j.sector).pageList[j.page]? = some .void ∨ j.sector ∈ k.eraseQueue ∨ j.sector ∈ k.badList
    rw [Device.sector_congr hksectors, hpages, hkqueue, hkbad]
    exact hports.own q j hj h1 h2
  · show k.writer.placeWait = []
    rw [hkwriter]
  · show k.engine.slot = []
    rw [hkengine, hengine.slot]
  · show k.engine.outcome = none
    rw [hkengine, hengine.outcome]
  · show k.arbiter.starved = false
    rw [hkarbiter, hengine.starved]
  · show k.arbiter.starveTimer = false
    rw [hkarbiter, htimer]
  · show (_ → k.eraseCtx = none ∧ k.engine.current = none ∧ (_ → _ → (k.sector c.sector).state = .queued)) ∧
      (_ → k.eraseCtx = _ ∧ k.engine.current = _ ∧ k.arbiter.holder = _)
    rw [hkctx, hkengine, hkarbiter, Device.sector_congr hksectors, ← hearbiter]
    exact herase x c (hectx.trans hx) ((congrArg Engine.current heengine).trans hc)
  · obtain ⟨htells, hfree⟩ := hballot bl (hhballot.trans hb)
    exact ⟨fun q hp ha => htells q hp ((hhattached q).trans ha), hfree⟩
  · have hplain := hports.plain hno
    refine ⟨hkqueue.trans (congrArg Device.eraseQueue hplain :), hkbad.trans (congrArg Device.badList hplain :), fun st => ?_, ?_⟩
    · have hstream : h.stream st = d.stream st := by
        rw [hengine.frame]
        exact (congrArg (fun y : Device => y.stream st) hplain :)
      rw [← hstream]
      exact hunheld st
    · show k.writer.enterStopping = _
      have hwriter : e.writer = { d.writer with placeWait := e.writer.placeWait } := (congrArg Device.writer hplain :)
      rw [hkwriter]
      exact (congrArg (fun w : Writer => ({ w with placeWait := [] } : Writer).enterStopping) hwriter :)

/-! ### The stopping flush and the end of the sequence (R122, R180, R181) -/

/-- The writer's moves in the stopping sequence, by its stop phase and state (R122). -/
theorem Writer.stopMove_cases (w : Writer) (onArray : Bool) :
    (w.stop = .finishing → w.state = .idle → w.stopMove onArray = some (if w.canFlush then
      { w with stop := .flushing, state := .claim1 } else { w with stop := .done, phase := .none })) ∧
    (w.stop = .flushing → w.state = .idle → w.stopMove onArray = some { w with stop := .done, phase := .none }) ∧
    (w.stop = .finishing ∨ w.stop = .flushing → w.state = .dormant →
      w.stopMove onArray = some { w with stop := .done, phase := .none }) ∧
    (w.stop = .finishing ∨ w.stop = .flushing → w.state = .halted →
      w.stopMove onArray = if onArray then none else some { w with stop := .done, phase := .none }) := by
  cases w
  refine ⟨fun h1 h2 => ?_, fun h1 h2 => ?_, fun h1 h2 => ?_, fun h1 h2 => ?_⟩
  · cases h1
    cases h2
    rfl
  · cases h1
    cases h2
    rfl
  · cases h2
    rcases h1 with h1 | h1 <;> (cases h1; rfl)
  · cases h2
    rcases h1 with h1 | h1 <;> (cases h1; rfl)

theorem Device.stopMove_of {d : Device} (hm : d.mode = .stopping) {w : Writer}
    (h : d.writer.stopMove (d.arbiter.holder == some .writer) = some w) : d.stopMove = some { d with writer := w } := by
  rw [Device.stopMove, if_pos hm, h]
  rfl

theorem Device.stopMove_none {d : Device} (hm : d.mode = .stopping)
    (h : d.writer.stopMove (d.arbiter.holder == some .writer) = none) : d.stopMove = none := by
  rw [Device.stopMove, if_pos hm, h]
  rfl

theorem Device.stopComplete_iff (d : Device) : d.stopComplete = true ↔ d.mode = .stopping ∧ d.arbiter.holder = none ∧
    d.engine.current = none ∧ d.writer.stop = .done ∧ d.arrayOp = .none := by
  simp [Device.stopComplete, and_assoc]

theorem Writer.canFlush_iff_hasOpen (w : Writer) : w.canFlush = true ↔
    w.activeHalf ≠ none ∧ w.hasOpen = true ∧ w.phase ≠ .checkpoint ∧ w.writePos < 32 := by
  unfold Writer.canFlush
  rw [Bool.and_eq_true, Bool.and_eq_true, Bool.and_eq_true, Option.isSome_iff_ne_none, decide_eq_true_iff, and_assoc, and_assoc]
  simp [Config.halfPages]

/-- Settles O12: the entry block by block, the writer's moves by its state, the end of the sequence by its four
conditions. -/
theorem stoppingEndsWhatIsUnderWay : Obligations.StoppingEndsWhatIsUnderWay := by
  refine ⟨fun s ha hst hserial => ?_, fun d hm => ?_, fun d => ?_⟩
  · have hexec : exec .pfailAsserted s = .next (s.onDev (({ s.dev with pfail := true } : Device).enterStopping).settle) := by
      show Host.Outcome.next (if s.dev.active then s.event fun d => some d.pfailRises else _) = _
      rw [if_pos ha, State.event, if_pos ha]
      dsimp only
      rw [Device.pfailRises]
      dsimp only
      rw [if_pos hst]
      rfl
    have hleft : s.dev.writer.serialsLeft ≤ 4294967295 := by
      unfold Writer.serialsLeft
      omega
    have h := Device.enterStopping_spec (d := { s.dev with pfail := true }) hleft
    generalize ({ s.dev with pfail := true } : Device).enterStopping = f at h hexec
    have hconsent : f.consent = { s.dev.consent with ballot := none, state := .idle, pending := none } :=
      (congrArg Device.consent h.frame :)
    refine ⟨f, hexec, (congrArg Device.mode h.frame :), (congrArg Device.pfail h.frame :), (congrArg Device.reason h.frame :),
      (congrArg Device.spaceWait h.frame :), h.placeWait, h.slot, h.outcome, h.starved, h.timer, (congrArg Consent.ballot hconsent :),
      (congrArg Consent.pending hconsent :), (congrArg Consent.state hconsent :), (congrArg Device.mount h.frame :),
      (congrArg Device.cursors h.frame :), (congrArg Device.freePool h.frame :),
      fun q => ⟨(h.told q).attached.2, (h.told q).attached.1⟩, fun q => ?_, h.erase, h.ballot, fun hno => ?_⟩
    · intro x
      obtain ⟨hidle, harray, hwaits⟩ := h.told q
      have hport : ({ s.dev with pfail := true } : Device).port q = s.dev.port q := rfl
      have hx : ({ s.dev with pfail := true } : Device).exec q = x := rfl
      rw [hx, hport] at hidle harray hwaits
      refine ⟨fun r hr h1 h2 => ?_, fun hr => ?_, fun h1 h2 h3 => (hwaits h1 h2 h3).1, fun hi => (hidle (hi.imp_right .inl)).1,
        fun hon => ⟨fun hr => (hidle (.inr (.inr ⟨hon, hr⟩))).1, fun hr => (harray hon hr).2⟩, fun j h1 h2 h3 => h.own q j ⟨h1, h2, h3⟩⟩
      · have htold : f.port q = (s.dev.port q).told x.inHand .aborted [] := by
          by_cases h3 : x.state = .onArray
          · exact (harray h3 (by rw [hr]; nofun)).1
          · exact (hwaits h1 h2 h3).2
        rw [htold, HostPort.told_some hr]
      · by_cases hi : x.state = .idle ∨ x.state = .waitSlot ∨ x.state = .onArray ∧ x.inHand = none
        · rw [(hidle hi).2]
        · rw [not_or, not_or] at hi
          rw [(hwaits hi.1 hi.2.1 fun h3 => hi.2.2 ⟨h3, hr⟩).2, hr]
          rfl
    · obtain ⟨hqueue, hbad, hunheld, hwriter⟩ := h.plain fun q j hj => hno q j hj.1 hj.2.1 hj.2.2
      refine ⟨hqueue, hbad, fun st => ?_, hwriter.trans ?_⟩
      · rcases hunheld st with hs | hs <;> rw [hs]
        · rfl
        · show ((s.dev.stream st).map StreamBody.apart).map StreamBody.chain = _
          cases s.dev.stream st <;> rfl
      · unfold Writer.enterStopping
        simp only [Bool.and_eq_true, decide_eq_true_eq]
  · intro moves done
    refine ⟨fun hstop hidle => ?_, fun hstop hidle => ?_, fun hstop => ⟨fun h => ?_, fun h hno => ?_, fun h hyes => ?_, fun h => ?_⟩,
      fun hstop => ?_⟩
    · have hmove (b : Bool) : d.writer.stopMove b = some (if d.writer.canFlush then
          { d.writer with stop := .flushing, state := .claim1 } else { d.writer with stop := .done, phase := .none }) := by
        exact (d.writer.stopMove_cases b).1 hstop hidle
      intro flush
      refine ⟨fun hf => Device.stopMove_of hm ((hmove _).trans (congrArg some (if_pos ?_))),
        fun hf => Device.stopMove_of hm ((hmove _).trans (congrArg some (if_neg ?_)))⟩
      · exact d.writer.canFlush_iff_hasOpen.mpr hf
      · exact fun hc => hf (d.writer.canFlush_iff_hasOpen.mp hc)
    · exact Device.stopMove_of hm ((d.writer.stopMove_cases _).2.1 hstop hidle)
    · exact Device.stopMove_of hm ((d.writer.stopMove_cases _).2.2.1 hstop h)
    · refine Device.stopMove_of hm ?_
      have hholder : (d.arbiter.holder == some .writer) = false := by simpa using hno
      rw [hholder]
      exact (d.writer.stopMove_cases false).2.2.2 hstop h
    · refine Device.stopMove_none hm ?_
      rw [hyes]
      exact (d.writer.stopMove_cases true).2.2.2 hstop h
    · refine Device.stopMove_none hm ?_
      rcases hstop with hs | hs <;> rcases h with h | h | h | h <;> simp [Writer.stopMove, hs, h]
    · refine Device.stopMove_none hm ?_
      rcases hstop with hs | hs <;> simp [Writer.stopMove, hs]
  · intro complete
    refine ⟨fun hno => ?_, fun hyes hp => ?_, fun hyes hp => ?_⟩
    · exact if_neg fun h => hno (d.stopComplete_iff.mp h)
    · refine (if_pos (d.stopComplete_iff.mpr hyes)).trans (congrArg some ?_)
      unfold Device.enterStopped
      dsimp only
      rw [if_pos hp]
      rfl
    · refine (if_pos (d.stopComplete_iff.mpr hyes)).trans (congrArg some ?_)
      unfold Device.enterStopped
      dsimp only
      rw [if_neg (by rw [hp]; nofun)]
      unfold Device.beginMount
      dsimp only
      rw [hp]
      rfl

end Sys2Proof.Machine
end

