-- ==== Sys2Proof/Proofs/MountReads.lean ====
section
/-! The reads of the mount unit and the choice of a half (R123 to R128, R131). -/

namespace Sys2Proof.Machine

open Sys2Proof

-- One process elaborates the whole text: proofs taken in turn stay within its memory.
set_option Elab.async false

/-! ### The BLANK outcome (R128) -/

theorem Device.foldl_setSector_frame (x : Sector) (l : List Nat) (d : Device) :
    l.foldl (fun d n => d.setSector n x) d = { d with sectors := (l.foldl (fun d n => d.setSector n x) d).sectors } := by
  induction l generalizing d with
  | nil => rfl
  | cons n l ih => rw [List.foldl_cons, ih, Device.setSector_frame]

theorem Device.foldl_setSector_sector (x : Sector) (l : List Nat) (d : Device) {m : Nat} (hm : m < 256) :
    (l.foldl (fun d n => d.setSector n x) d).sector m = if m ∈ l then x else d.sector m := by
  induction l generalizing d with
  | nil => simp
  | cons n l ih =>
    rw [List.foldl_cons, ih, Device.sector_setSector_eq d n x hm]
    by_cases hn : m = n <;> simp [hn]

theorem mem_dataSectors {n : Nat} : n ∈ dataSectors ↔ 4 ≤ n ∧ n < 256 := by
  unfold dataSectors
  rw [List.mem_range'_1]

theorem Device.mountBlank_spec {d : Device} (hb : d.consent.ballot = none) :
    let e := d.mountBlank
    e.mode = .blank ∧ e.eraseQueue = dataSectors ∧
      (∀ n, 4 ≤ n → n < 256 → e.sector n = { Sector.blank with state := .queued }) ∧
      e.writer = { Writer.powerUp with nextSerial := 1 } ∧
      ∀ q, e.events.get q = if (d.port q).attached then (d.events.get q).offer ⟨.state, none, some 2⟩ else d.events.get q := by
  intro e
  have hmap {n : Nat} (hn : n < 256) := Device.foldl_setSector_sector { Sector.blank with state := .queued } dataSectors d hn
  have hframe := Device.foldl_setSector_frame { Sector.blank with state := .queued } dataSectors d
  have he : e = ({ dataSectors.foldl (fun d n => d.setSector n { Sector.blank with state := .queued }) d with
    eraseQueue := dataSectors, writer := { Writer.powerUp with nextSerial := 1 }
    mount := (dataSectors.foldl (fun d n => d.setSector n { Sector.blank with state := .queued }) d).mount.over .done } :
    Device).enterState .blank := rfl
  generalize dataSectors.foldl (fun d n => d.setSector n { Sector.blank with state := .queued }) d = k at hmap hframe he
  have hk : k.consent.ballot = none := by
    rw [hframe]
    exact hb
  have hentered := Device.enterState_frame (d := { k with
    eraseQueue := dataSectors, writer := { Writer.powerUp with nextSerial := 1 }, mount := k.mount.over .done }) hk .blank
  rw [← he] at hentered
  refine ⟨by rw [he, Device.enterState_mode], by rw [hentered], fun n h4 hn => ?_, by rw [hentered], fun q => ?_⟩
  · have hsame : e.sector n = k.sector n := by rw [hentered]; rfl
    rw [hsame, hmap hn, if_pos (mem_dataSectors.mpr ⟨h4, hn⟩)]
  · rw [he]
    refine (Device.enterState_events (d := { k with
      eraseQueue := dataSectors, writer := { Writer.powerUp with nextSerial := 1 }, mount := k.mount.over .done })
      (m := .blank) rfl hk q).trans ?_
    rw [hframe]
    rfl

/-! ### The course of a mount (R123, R131) -/

/-- One read after another in MOUNTING: nothing else comes due. -/
theorem Device.quiet_mountRead {d : Device} (h : d.quiet) (hm : d.mode = .mounting) (sector page : Nat) :
    (d.mountRead sector page).quiet := by
  have a := h.atRest
  refine Device.AtRest.quiet ⟨⟨a.purge, a.staging, fun p => Device.stepTake_congr (d := d) rfl rfl rfl (a.take p), a.choice,
    a.compaction, a.snapshot, a.claim⟩, a.suspend, a.stop, fun _ hop => ?_, fun hd => ?_, fun hs => ?_⟩
  · cases hop
  · cases hd.2.2.1
  · rw [show (d.mountRead sector page).mode = d.mode from rfl, hm] at hs
    cases hs

section Reads

variable {s : State} {sector page : Nat} (ha : s.dev.active = true) (hh : s.dev.arbiter.holder = none)
  (ho : s.dev.arrayOp = .read sector page)

include ha hh ho

theorem exec_mountReadDone_discards (hm : s.dev.mode ≠ .mounting) :
    exec .mountReadDone s = .next (s.onDev (Device.settle { s.dev with arrayOp := .none })) := by
  refine State.reports ha (d := { s.dev with arrayOp := .none }) (m := s.flash) ?_
  rw [Device.mountPageDone, hh, ho]
  exact if_neg hm

theorem exec_mountReadDone_mounts (hm : s.dev.mode = .mounting) :
    exec .mountReadDone s = .next (s.onDev (s.dev.mountReadDone s.flash sector page).settle) := by
  refine State.reports ha (d := s.dev.mountReadDone s.flash sector page) (m := s.flash) ?_
  rw [Device.mountPageDone, hh, ho]
  exact if_pos hm

end Reads

/-! ### The chosen half (R127, R129) -/

/-- Replay reads the pages of its own half. -/
theorem Mount.replay_congr (m : Mount) {f g : Flash} {half : Nat} (c : Checkpoint)
    (h : ∀ page, page < 32 → f.halfPage half page = g.halfPage half page) : m.replay f half c = m.replay g half c := by
  have hpages : f.halfPages half = g.halfPages half :=
    List.map_congr_left fun page hp => congrArg readMetaPage (h page (List.mem_range.mp hp))
  have hwritten : f.writtenPages half = g.writtenPages half := by
    have hfilter : (List.range Config.halfPages).filter (fun page => !pageErased (f.halfPage half page)) =
        (List.range Config.halfPages).filter (fun page => !pageErased (g.halfPage half page)) :=
      List.filter_congr fun page hp => by rw [h page (List.mem_range.mp hp)]
    rw [Flash.writtenPages, hfilter, Flash.writtenPages]
  rw [Mount.replay, hpages, hwritten, Mount.replay]

theorem chooseHalf_newer {x y : Checkpoint}
    (h : x.generation < y.generation ∨ x.generation = y.generation ∧ x.snapshot < y.snapshot) :
    chooseHalf (some x) (some y) = some (1, y) := by
  simp [chooseHalf, h]

theorem chooseHalf_older {x y : Checkpoint}
    (h : ¬ (x.generation < y.generation ∨ x.generation = y.generation ∧ x.snapshot < y.snapshot)) :
    chooseHalf (some x) (some y) = some (0, x) := by
  simp [chooseHalf, h]

/-- Settles O37: each read by its row, the BLANK outcome by its spec, replay by the pages it reads, the halves by cases. -/
theorem mountReadsTheArray : Obligations.MountReadsTheArray := by
  refine ⟨fun s sector page ha hh ho => ?_, fun m f g half c h => m.replay_congr c h, fun x y =>
    ⟨rfl, rfl, rfl, fun h => chooseHalf_older (by omega), fun h => chooseHalf_newer (.inl h),
      fun hg hs => chooseHalf_older (by omega), fun hg hs => chooseHalf_newer (.inr ⟨hg, hs⟩),
      fun hg hs => chooseHalf_older (by omega)⟩⟩
  have mounts := exec_mountReadDone_mounts ha hh ho
  refine ⟨exec_mountReadDone_discards ha hh ho, fun hm hq hp => ?_, fun hm hq hp hs => ?_, fun hm hp hs => ?_,
    fun hm hp hs => ?_⟩
  · rw [mounts hm, Device.mountReadDone, if_pos hp, Device.settle_quiet (Device.quiet_mountRead hq hm _ _)]
    rfl
  · rw [mounts hm, Device.mountReadDone, if_neg (by omega), if_pos hs,
      Device.settle_quiet (Device.quiet_mountRead hq hm _ _)]
    rfl
  · have hends : s.dev.mountReadDone s.flash sector page = s.dev.metaScanEnds s.flash := by
      rw [Device.mountReadDone, if_neg (by omega), if_neg (by omega), if_pos hs]
    intro half
    refine ⟨fun hnone hb => ?_, fun h c hsome => ?_⟩
    · refine ⟨?_, Device.mountBlank_spec (d := { s.dev with arrayOp := .none }) hb⟩
      rw [mounts hm, hends, Device.metaScanEnds]
      simp only [half] at hnone
      rw [hnone]
      rfl
    · rw [mounts hm, hends, Device.metaScanEnds]
      simp only [half] at hsome
      rw [hsome]
  · rw [mounts hm, Device.mountReadDone, if_neg (by omega), if_neg (by omega), if_neg (by omega)]

end Sys2Proof.Machine
end

