-- ==== Sys2Proof/Proofs/MountedHalf.lean ====
section
/-! The three tests of a half (R126) and replay (R129, R130). -/

namespace Sys2Proof.Machine

open Sys2Proof

-- One process elaborates the whole text: proofs taken in turn stay within its memory.
set_option Elab.async false

/-! ### Numbered entries (R126, test 3) -/

/-- Where no number is carried twice, `entryAt` finds what carries it. -/
theorem entryAt_eq_some_iff {l : List (Nat × MetaEntry)} (hn : (l.map Prod.fst).Nodup) {k : Nat} {e : MetaEntry} :
    entryAt l k = some e ↔ (k, e) ∈ l := by
  induction l with
  | nil => simp [entryAt]
  | cons x l ih =>
    obtain ⟨hx, hl⟩ := List.nodup_cons.mp (List.map_cons ▸ hn)
    unfold entryAt at ih ⊢
    by_cases hk : x.1 = k
    · subst hk
      have hnot : (x.1, e) ∉ l := fun h => hx (List.mem_map.mpr ⟨_, h, rfl⟩)
      simp only [List.find?_cons, beq_self_eq_true, Option.map_some, Option.some.injEq, List.mem_cons, hnot, or_false]
      exact ⟨fun h => by rw [← h], fun h => by rw [← h]⟩
    · have hne : ¬ (k, e) = x := fun h => hk (by rw [← h])
      simp only [List.find?_cons, beq_eq_false_iff_ne.mpr hk, List.mem_cons, hne, false_or]
      exact ih hl

/-- The numbers of a list that pairs them with entries in order. -/
theorem map_fst_range_zip (es : List MetaEntry) : ((List.range es.length).zip es).map Prod.fst = List.range es.length :=
  List.map_fst_zip (by simp)

theorem mem_range_zip {es : List MetaEntry} {k : Nat} {e : MetaEntry} :
    (k, e) ∈ (List.range es.length).zip es ↔ es[k]? = some e := by
  rw [List.mem_iff_getElem?]
  constructor
  · rintro ⟨i, hi⟩
    obtain ⟨hr, he⟩ := List.getElem?_zip_eq_some.mp hi
    obtain ⟨_, hik⟩ := List.getElem?_eq_some_iff.mp hr
    have hk : i = k := by simpa using hik
    rw [← hk]
    exact he
  · intro h
    have hk : k < es.length := (List.getElem?_eq_some_iff.mp h).1
    exact ⟨k, List.getElem?_zip_eq_some.mpr ⟨by simp [hk], h⟩⟩

section Numbered

variable {l : List (Nat × MetaEntry)} {es : List MetaEntry} (h : l.Perm ((List.range es.length).zip es))

include h

theorem numbered_nodup : (l.map Prod.fst).Nodup := by
  rw [(h.map Prod.fst).nodup_iff, map_fst_range_zip]
  exact List.nodup_range

theorem entryAt_numbered (k : Nat) : entryAt l k = es[k]? := by
  refine Option.ext fun e => ?_
  rw [entryAt_eq_some_iff (numbered_nodup h), h.mem_iff, mem_range_zip]

theorem filterMap_entryAt : (List.range es.length).filterMap (entryAt l) = es := by
  have hat : (fun k => entryAt l k) = fun k => es[k]? := funext (entryAt_numbered h)
  refine List.ext_getElem? fun i => ?_
  rw [show entryAt l = fun k => es[k]? from hat]
  have hmap : (List.range es.length).filterMap (fun k => es[k]?) = (List.range es.length).map fun k => es.getD k (.retire []) := by
    rw [← List.filterMap_eq_map]
    refine List.filterMap_congr fun k hk => ?_
    simp [List.mem_range.mp hk]
  rw [hmap]
  by_cases hi : i < es.length <;> simp [hi]

end Numbered

/-- The numbers of a list that holds each of `0` to `count − 1` once, and nothing else. -/
theorem numbers_perm {l : List (Nat × MetaEntry)} {count : Nat} (hl : l.length = count)
    (hone : ∀ k < count, (l.filter fun x => x.1 == k).length = 1) : (List.range count).Perm (l.map Prod.fst) := by
  have hsub : List.range count ⊆ l.map Prod.fst := by
    intro k hk
    have h1 := hone k (List.mem_range.mp hk)
    obtain ⟨x, hx⟩ := List.exists_mem_of_length_pos (l := l.filter fun x => x.1 == k) (by omega)
    obtain ⟨hmem, hkey⟩ := List.mem_filter.mp hx
    exact List.mem_map.mpr ⟨x, hmem, beq_iff_eq.mp hkey⟩
  exact (List.subperm_of_subset List.nodup_range hsub).perm_of_length_le (by simp [hl])

/-- A list of numbered entries in which every number is carried once is, in order, the entries by number. -/
theorem numbered_perm {l : List (Nat × MetaEntry)} {count : Nat} (hp : (List.range count).Perm (l.map Prod.fst)) :
    ∃ es : List MetaEntry, es.length = count ∧ l.Perm ((List.range count).zip es) := by
  have hn : (l.map Prod.fst).Nodup := hp.nodup_iff.mp List.nodup_range
  have hsome (k : Nat) (hk : k < count) : ∃ e, (k, e) ∈ l := by
    obtain ⟨⟨_, e⟩, he, rfl⟩ := List.mem_map.mp (hp.mem_iff.mp (List.mem_range.mpr hk))
    exact ⟨e, he⟩
  choose entry hentry using hsome
  refine ⟨List.ofFn fun i : Fin count => entry i.val i.isLt, by simp, ?_⟩
  have hlen : (List.ofFn fun i : Fin count => entry i.val i.isLt).length = count := by simp
  refine (List.perm_ext_iff_of_nodup hn.of_map ?_).mpr fun x => ?_
  · refine List.Nodup.of_map Prod.fst ?_
    rw [List.map_fst_zip (by simp)]
    exact List.nodup_range
  · obtain ⟨k, e⟩ := x
    have hzip : (k, e) ∈ (List.range count).zip (List.ofFn fun i : Fin count => entry i.val i.isLt) ↔
        ∃ hk : k < count, entry k hk = e := by
      have := @mem_range_zip (List.ofFn fun i : Fin count => entry i.val i.isLt) k e
      rw [hlen] at this
      rw [this, List.getElem?_ofFn]
      by_cases hk : k < count <;> simp [hk]
    rw [hzip]
    constructor
    · intro hmem
      have hk : k < count := List.mem_range.mp (hp.mem_iff.mpr (List.mem_map.mpr ⟨_, hmem, rfl⟩))
      have h1 := (entryAt_eq_some_iff hn).mpr hmem
      have h2 := (entryAt_eq_some_iff hn).mpr (hentry k hk)
      exact ⟨hk, Option.some.inj (h2.symm.trans h1)⟩
    · rintro ⟨hk, rfl⟩
      exact hentry k hk

/-- Test 3 of R126, said of the entries in the order of their numbers. -/
theorem numbersGood_iff (l : List (Nat × MetaEntry)) (snapshot count : Nat) : numbersGood l snapshot count = true ↔
    ∃ es : List MetaEntry, es.length = count ∧ l.Perm ((List.range count).zip es) ∧
      es.getLast? = some (.checkpointEnd snapshot count) ∧ count ≤ 132 ∧ 1 ≤ snapshot := by
  simp only [numbersGood, Bool.and_eq_true, beq_iff_eq, List.all_eq_true, List.mem_range, decide_eq_true_eq,
    Config.checkpointMax]
  constructor
  · rintro ⟨⟨⟨⟨⟨hl, hone⟩, hlast⟩, hpos⟩, hmax⟩, hs⟩
    obtain ⟨es, rfl, hperm⟩ := numbered_perm (numbers_perm hl hone)
    refine ⟨es, rfl, hperm, ?_, of_decide_eq_true hmax, hs⟩
    rw [entryAt_numbered hperm] at hlast
    rw [List.getLast?_eq_getElem?]
    exact hlast
  · rintro ⟨es, rfl, hperm, hlast, hmax, hs⟩
    have hpos : 1 ≤ es.length := List.length_pos_iff.mpr fun h => by rw [h] at hlast; cases hlast
    refine ⟨⟨⟨⟨⟨by rw [hperm.length_eq]; simp, fun k hk => ?_⟩, ?_⟩, hpos⟩, decide_eq_true hmax⟩, hs⟩
    · have hcount : (l.filter fun x => x.1 == k).length = (l.map Prod.fst).count k := by
        rw [← List.countP_eq_length_filter, List.count, List.countP_map]
        rfl
      rw [hcount, (hperm.map Prod.fst).count_eq, map_fst_range_zip]
      exact List.count_eq_one_of_mem List.nodup_range (List.mem_range.mpr hk)
    · rw [entryAt_numbered hperm, ← List.getLast?_eq_getElem?]
      exact hlast

/-! ### The tests of a half (R126) -/

theorem isEndPage_iff (x : Option MetaPage) : isEndPage x = true ↔
    ∃ g, x = some g ∧ g.kind = .checkpoint ∧ ∃ e ∈ g.entries, e.asEnd ≠ none := by
  cases x with
  | none => simp [isEndPage]
  | some g => simp [isEndPage, Option.isSome_iff_ne_none]

theorem mem_written {pages : List (Option MetaPage)} {n : Nat} {h : MetaPage} :
    h ∈ (pages.take (n + 1)).filterMap id ↔ ∃ k, k ≤ n ∧ pages[k]? = some (some h) := by
  have hmem : h ∈ (pages.take (n + 1)).filterMap id ↔ some h ∈ pages.take (n + 1) := by simp
  rw [hmem, List.mem_iff_getElem?]
  refine exists_congr fun k => ?_
  rw [List.getElem?_take]
  split
  · exact ⟨fun h => ⟨by omega, h⟩, And.right⟩
  · exact ⟨nofun, fun h => absurd h.1 (by omega)⟩

/-- The page and its place that decide a half: the first of kind CHECKPOINT with a CHECKPOINT_END. -/
theorem findEndPage_iff (pages : List (Option MetaPage)) (n : Nat) : pages.findIdx? isEndPage = some n ↔
    (∃ g, pages[n]? = some (some g) ∧ g.kind = .checkpoint ∧ ∃ e ∈ g.entries, e.asEnd ≠ none) ∧
      ∀ k < n, ∀ x, pages[k]? = some x → isEndPage x = false := by
  rw [List.findIdx?_eq_some_iff_getElem]
  constructor
  · rintro ⟨hn, hp, hbefore⟩
    obtain ⟨g, hg, hrest⟩ := (isEndPage_iff _).mp hp
    refine ⟨⟨g, by rw [← hg, List.getElem?_eq_getElem hn], hrest⟩, fun k hk x hx => ?_⟩
    obtain ⟨hlt, rfl⟩ := List.getElem?_eq_some_iff.mp hx
    simpa using hbefore k hk
  · rintro ⟨⟨g, hg, hrest⟩, hbefore⟩
    obtain ⟨hn, heq⟩ := List.getElem?_eq_some_iff.mp hg
    refine ⟨hn, by rw [heq]; exact (isEndPage_iff _).mpr ⟨g, rfl, hrest⟩, fun k hk => ?_⟩
    simpa using hbefore k hk _ (List.getElem?_eq_getElem (by omega))

theorem findSome?_asEnd_ne_none {l : List MetaEntry} : l.findSome? MetaEntry.asEnd ≠ none ↔ ∃ e ∈ l, e.asEnd ≠ none := by
  simp [List.findSome?_eq_none_iff]

/-- The half's tests, once its end page is known. -/
theorem qualify_of_endPage {pages : List (Option MetaPage)} {n snapshot count : Nat} {g : MetaPage}
    (hidx : pages.findIdx? isEndPage = some n) (hg : pages[n]? = some (some g))
    (hend : g.entries.findSome? MetaEntry.asEnd = some (snapshot, count)) :
    qualify pages =
      if (((pages.take (n + 1)).filterMap id).all fun x => x.kind == .checkpoint && x.generation == g.generation)
          && numbersGood (((pages.take (n + 1)).filterMap id).flatMap MetaPage.numbered) snapshot count then
        some ⟨g.generation, snapshot, n, (List.range count).filterMap
          (entryAt (((pages.take (n + 1)).filterMap id).flatMap MetaPage.numbered))⟩
      else none := by
  simp only [qualify, hidx, hg, hend]

theorem qualify_endPage {pages : List (Option MetaPage)} {c : Checkpoint} (h : qualify pages = some c) :
    ∃ n g snapshot count, pages.findIdx? isEndPage = some n ∧ pages[n]? = some (some g) ∧
      g.entries.findSome? MetaEntry.asEnd = some (snapshot, count) := by
  cases hidx : pages.findIdx? isEndPage with
  | none => simp [qualify, hidx] at h
  | some n =>
    obtain ⟨⟨g, hg, -, hends⟩, -⟩ := (findEndPage_iff _ _).mp hidx
    obtain ⟨x, hx⟩ := Option.ne_none_iff_exists'.mp (findSome?_asEnd_ne_none.mpr hends)
    exact ⟨n, g, x.1, x.2, rfl, hg, hx⟩

theorem qualify_iff (pages : List (Option MetaPage)) (c : Checkpoint) : qualify pages = some c ↔
    ∃ g, pages[c.endPage]? = some (some g) ∧ g.kind = .checkpoint ∧
      g.entries.findSome? MetaEntry.asEnd = some (c.snapshot, c.entries.length) ∧ c.generation = g.generation ∧
      (∀ k h, k < c.endPage → pages[k]? = some (some h) → ∀ e ∈ h.entries, e.asEnd = none) ∧
      (∀ k h, k ≤ c.endPage → pages[k]? = some (some h) → h.kind = .checkpoint ∧ h.generation = g.generation) ∧
      (((pages.take (c.endPage + 1)).filterMap id).flatMap fun h =>
        (List.range' h.first h.entries.length).zip h.entries).Perm ((List.range c.entries.length).zip c.entries) ∧
      c.entries.getLast? = some (.checkpointEnd c.snapshot c.entries.length) ∧ c.entries.length ≤ 132 ∧
      1 ≤ c.snapshot := by
  have hkinds (n : Nat) (g : MetaPage) :
      (((pages.take (n + 1)).filterMap id).all fun x => x.kind == .checkpoint && x.generation == g.generation) = true ↔
        ∀ k h, k ≤ n → pages[k]? = some (some h) → h.kind = .checkpoint ∧ h.generation = g.generation := by
    simp only [List.all_eq_true, mem_written, Bool.and_eq_true, beq_iff_eq]
    exact ⟨fun h k x hk hx => h x ⟨k, hk, hx⟩, fun h x ⟨k, hk, hx⟩ => h k x hk hx⟩
  constructor
  · intro h
    obtain ⟨n, g, snapshot, count, hidx, hg, hend⟩ := qualify_endPage h
    rw [qualify_of_endPage hidx hg hend] at h
    split at h
    · rename_i htests
      obtain ⟨hall, hnumbers⟩ := Bool.and_eq_true_iff.mp htests
      obtain ⟨es, rfl, hperm, hlast, hmax, hs⟩ := (numbersGood_iff _ _ _).mp hnumbers
      rw [filterMap_entryAt hperm] at h
      obtain rfl := Option.some.inj h
      have hkind := (hkinds n g).mp hall
      obtain ⟨-, hbefore⟩ := (findEndPage_iff _ _).mp hidx
      refine ⟨g, hg, (hkind n g (Nat.le_refl n) hg).1, hend, rfl, fun k x hk hx e he => ?_, hkind, hperm, hlast, hmax, hs⟩
      by_contra hne
      have hfalse := hbefore k hk _ hx
      rw [(isEndPage_iff _).mpr ⟨x, rfl, (hkind k x (Nat.le_of_lt hk) hx).1, e, he, hne⟩] at hfalse
      cases hfalse
    · cases h
  · rintro ⟨g, hg, hkind, hend, hgen, hbefore, hkinds', hperm, hlast, hmax, hs⟩
    have hidx : pages.findIdx? isEndPage = some c.endPage := by
      refine (findEndPage_iff _ _).mpr ⟨⟨g, hg, hkind, findSome?_asEnd_ne_none.mp (by rw [hend]; nofun)⟩, fun k hk x hx => ?_⟩
      by_contra htrue
      obtain ⟨y, rfl, -, e, he, hne⟩ := (isEndPage_iff _).mp (Bool.eq_true_of_not_eq_false htrue)
      exact hne (hbefore k y hk hx e he)
    rw [qualify_of_endPage hidx hg hend, if_pos ?_]
    · rw [← hgen]
      exact congrArg (fun es => some (⟨c.generation, c.snapshot, c.endPage, es⟩ : Checkpoint)) (filterMap_entryAt hperm)
    · exact Bool.and_eq_true_iff.mpr ⟨(hkinds _ g).mpr hkinds', (numbersGood_iff _ _ _).mpr
        ⟨c.entries, rfl, hperm, hlast, hmax, hs⟩⟩

/-! ### Replay (R129) -/

theorem replayPages_stops {generation : Nat} {pages : List (Option MetaPage)} {expected page : Nat} {m : Mount}
    (h : ∀ g, pages[0]? = some (some g) → ¬ (g.kind = .journal ∧ g.generation = generation ∧ g.first = expected)) :
    replayPages generation pages expected page m = (m, expected, page) := by
  match pages with
  | [] => rfl
  | none :: _ => rfl
  | some g :: rest =>
    rw [replayPages, if_neg]
    simpa only [Bool.and_eq_true, beq_iff_eq, and_assoc] using h g rfl

/-- Pages applied one after another from the serial expected, until one does not continue (R129). -/
theorem replayPages_spec (generation : Nat) (pages : List (Option MetaPage)) (expected page : Nat) (m : Mount) :
    ∃ applied : List MetaPage,
      let at' := fun (k : Nat) => expected + ((applied.take k).flatMap MetaPage.entries).length
      let continues := fun (k : Nat) (g : MetaPage) =>
        pages[k]? = some (some g) ∧ g.kind = .journal ∧ g.generation = generation ∧ g.first = at' k
      (∀ k g, applied[k]? = some g → continues k g) ∧ (∀ g, ¬ continues applied.length g) ∧
      replayPages generation pages expected page m =
        ((applied.flatMap MetaPage.entries).foldl Mount.applyEntry m, at' applied.length, page + applied.length) := by
  induction pages generalizing expected page m with
  | nil => exact ⟨[], fun k g h => by simp at h, fun g h => by simp at h, rfl⟩
  | cons x rest ih =>
    by_cases hgo : ∃ g, x = some g ∧ g.kind = .journal ∧ g.generation = generation ∧ g.first = expected
    · obtain ⟨g, rfl, hkind, hgen, hfirst⟩ := hgo
      obtain ⟨applied, hcont, hstop, heq⟩ := ih (expected + g.entries.length) (page + 1) (g.entries.foldl Mount.applyEntry m)
      have hat (k : Nat) : expected + (((g :: applied).take (k + 1)).flatMap MetaPage.entries).length =
          expected + g.entries.length + ((applied.take k).flatMap MetaPage.entries).length := by
        rw [List.take_succ_cons, List.flatMap_cons, List.length_append, Nat.add_assoc]
      refine ⟨g :: applied, fun k h hk => ?_, fun h => ?_, ?_⟩
      · cases k with
        | zero =>
          obtain rfl := Option.some.inj hk
          exact ⟨rfl, hkind, hgen, hfirst⟩
        | succ k =>
          dsimp only
          rw [hat]
          exact hcont k h hk
      · dsimp only [List.length_cons]
        rw [hat]
        exact hstop h
      · rw [replayPages, if_pos (by simp [hkind, hgen, hfirst]), heq]
        dsimp only [List.length_cons]
        rw [hat, List.flatMap_cons, List.foldl_append, Nat.add_assoc page 1, Nat.add_comm 1]
    · have hstop : ∀ g, (x :: rest)[0]? = some (some g) →
          ¬ (g.kind = .journal ∧ g.generation = generation ∧ g.first = expected) :=
        fun g hg hno => hgo ⟨g, Option.some.inj hg, hno⟩
      exact ⟨[], fun k g h => by simp at h, fun g h => hstop g h.1 h.2, replayPages_stops hstop⟩

/-- The highest page written, by its definition as the last of the pages not erased (R129). -/
theorem Flash.writtenPages_spec (f : Flash) (half : Nat) : f.writtenPages half ≤ 32 ∧
    (∀ k, f.writtenPages half ≤ k → k < 32 → pageErased (f.halfPage half k) = true) ∧
    ∀ k, f.writtenPages half = k + 1 → pageErased (f.halfPage half k) = false := by
  unfold Flash.writtenPages
  have hmem (k : Nat) : k ∈ (List.range Config.halfPages).filter (fun page => !pageErased (f.halfPage half page)) ↔
      k < 32 ∧ pageErased (f.halfPage half k) = false := by
    simp [Config.halfPages]
  have hsorted : ((List.range Config.halfPages).filter fun page => !pageErased (f.halfPage half page)).Pairwise (· < ·) :=
    List.pairwise_lt_range.sublist List.filter_sublist
  generalize (List.range Config.halfPages).filter (fun page => !pageErased (f.halfPage half page)) = l at hmem hsorted
  rcases List.eq_nil_or_concat l with rfl | ⟨init, last, rfl⟩
  · refine ⟨Nat.zero_le _, fun k _ hk => ?_, fun k hk => by cases hk⟩
    by_contra hno
    exact List.not_mem_nil ((hmem k).mpr ⟨hk, Bool.eq_false_of_not_eq_true hno⟩)
  · have hlast : ((init.concat last).getLast?.map (· + 1)).getD 0 = last + 1 := by simp
    rw [List.concat_eq_append] at hlast hmem hsorted ⊢
    rw [hlast]
    obtain ⟨hlt, herased⟩ := (hmem last).mp (by simp)
    refine ⟨hlt, fun k hk hk32 => ?_, fun k hk => by rw [← Nat.succ.inj hk]; exact herased⟩
    by_contra hno
    rcases List.mem_append.mp ((hmem k).mpr ⟨hk32, Bool.eq_false_of_not_eq_true hno⟩) with hin | hin
    · have := (List.pairwise_append.mp hsorted).2.2 k hin last (by simp)
      omega
    · have := List.mem_singleton.mp hin
      omega

theorem Flash.halfPages_drop (f : Flash) (half from' k : Nat) (g : MetaPage) :
    ((f.halfPages half).drop from')[k]? = some (some g) ↔
      from' + k < 32 ∧ readMetaPage (f.halfPage half (from' + k)) = some g := by
  rw [List.getElem?_drop, Flash.halfPages, List.getElem?_map, Config.halfPages]
  by_cases hk : from' + k < 32
  · simp [hk]
  · simp [hk]

theorem Mount.replay_spec (m : Mount) (f : Flash) (half : Nat) (c : Checkpoint) :
    ∃ (applied : List MetaPage) (written : Nat),
    let expected := fun (k : Nat) => c.snapshot + ((applied.take k).flatMap MetaPage.entries).length
    let continues := fun (k : Nat) (g : MetaPage) => c.endPage + 1 + k < 32 ∧
      readMetaPage (f.halfPage half (c.endPage + 1 + k)) = some g ∧ g.kind = .journal ∧
      g.generation = c.generation ∧ g.first = expected k
    (∀ k g, applied[k]? = some g → continues k g) ∧ (∀ g, ¬ continues applied.length g) ∧
    written ≤ 32 ∧ (∀ k, written ≤ k → k < 32 → pageErased (f.halfPage half k) = true) ∧
    (∀ k, written = k + 1 → pageErased (f.halfPage half k) = false) ∧
    m.replay f half c = { (c.entries ++ applied.flatMap MetaPage.entries).foldl Mount.applyEntry m with
      half := half, generation := c.generation, writePos := written
      broken := decide (c.endPage + 1 + applied.length < written), lastSerial := expected applied.length - 1 } := by
  obtain ⟨applied, hcont, hstop, heq⟩ := replayPages_spec c.generation ((f.halfPages half).drop (c.endPage + 1)) c.snapshot
    (c.endPage + 1) (c.entries.foldl Mount.applyEntry m)
  obtain ⟨hle, herased, hwritten⟩ := f.writtenPages_spec half
  refine ⟨applied, f.writtenPages half, fun k g h => ?_, fun g h => ?_, hle, herased, hwritten, ?_⟩
  · obtain ⟨hpage, hrest⟩ := hcont k g h
    obtain ⟨hk, hread⟩ := (f.halfPages_drop half _ k g).mp hpage
    exact ⟨hk, hread, hrest⟩
  · obtain ⟨hk, hread, hrest⟩ := h
    exact hstop g ⟨(f.halfPages_drop half _ _ g).mpr ⟨hk, hread⟩, hrest⟩
  · rw [Mount.replay, List.foldl_append]
    dsimp only
    rw [heq]

end Sys2Proof.Machine
end

