-- ==== Sys2Proof/Proofs/MountedSectors.lean ====
section
/-! What each replayed entry does to the working tables (R130), and the classification of a data sector (R131, R132). -/

namespace Sys2Proof.Machine

open Sys2Proof

-- One process elaborates the whole text: proofs taken in turn stay within its memory.
set_option Elab.async false

/-! ### Replayed entries (R130) -/

theorem keepAllRetained_get (inc : Byte) (readers : PortSet) (t : PerPort (Option Retained)) (q : Port) :
    (keepAllRetained inc readers t).get q =
      (t.get q).bind fun x => if x.inc = inc ∧ readers.get q = true then some x else none := by
  have hkeep (p : Port) (r : Option Retained) : keepRetained inc readers p r =
      r.bind fun x => if x.inc = inc ∧ readers.get p = true then some x else none := by
    cases r <;> simp [keepRetained]
  cases q <;> exact hkeep _ _

theorem retained_set_other (m : Mount) {st st' : Fin 16} (h : st' ≠ st) (t : PerPort (Option Retained)) :
    (m.retained.set st.val t)[st'.val] = m.retained[st'.val] :=
  Vector.getElem_set_ne _ _ fun hv => h (Fin.ext hv.symm)

theorem Mount.applyEntry_cursor {m : Mount} {st : Fin 16} {inc : Byte} {p : Port} {committed lost : Nat} :
    let fits : Prop := ∃ b, m.streams[st.val].body = some b ∧ m.streams[st.val].incarnation = inc ∧ b.readers.get p = true
    (¬ fits → m.applyEntry (.cursor st inc p committed lost) = m) ∧
    (fits → m.applyEntry (.cursor st inc p committed lost) =
      { m with retained := m.retained.set st.val (m.retained[st.val].set p (some ⟨inc, committed, lost⟩)) }) := by
  have hentry : m.applyEntry (.cursor st inc p committed lost) = match m.streams[st.val].body with
      | none => m
      | some b =>
        if m.streams[st.val].incarnation = inc ∧ b.readers.get p = true then
          { m with retained := m.retained.set st.val (m.retained[st.val].set p (some ⟨inc, committed, lost⟩)) }
        else m := by
    unfold Mount.applyEntry
    dsimp only
    cases m.streams[st.val].body with
    | none => rfl
    | some b => exact if_congr (by simp) rfl rfl
  rw [hentry]
  cases m.streams[st.val].body with
  | none => exact ⟨fun _ => rfl, fun ⟨b, h, _⟩ => nomatch h⟩
  | some b => exact ⟨fun hno => if_neg fun h => hno ⟨b, rfl, h⟩, fun ⟨b', h, hf⟩ => if_pos (Option.some.inj h ▸ hf)⟩

theorem Mount.setCount_frame (m : Mount) (n count : Nat) : m.setCount n count = { m with counts := (m.setCount n count).counts } := by
  unfold Mount.setCount
  split <;> rfl

theorem Mount.setCount_counts (m : Mount) (n count : Nat) {k : Nat} (hk : k < 256) :
    (m.setCount n count).counts[k] = if k = n then count else m.counts[k] := by
  unfold Mount.setCount
  split
  · rw [Vector.getElem_set]
    exact if_congr eq_comm rfl rfl
  · rw [if_neg (by omega)]

theorem Mount.applyEntry_wear (m : Mount) (first c0 c1 c2 c3 : Nat) :
    let e := m.applyEntry (.wear first c0 c1 c2 c3)
    e = { m with counts := e.counts } ∧
    ∀ (k : Nat) (h : k < 256), e.counts[k] = if k = first then c0 else if k = first + 1 then c1
      else if k = first + 2 then c2 else if k = first + 3 then c3 else m.counts[k] := by
  intro e
  have he : e = (((m.setCount first c0).setCount (first + 1) c1).setCount (first + 2) c2).setCount (first + 3) c3 := rfl
  refine ⟨?_, fun k hk => ?_⟩
  · rw [he, Mount.setCount_frame (((m.setCount first c0).setCount (first + 1) c1).setCount (first + 2) c2),
      Mount.setCount_frame ((m.setCount first c0).setCount (first + 1) c1),
      Mount.setCount_frame (m.setCount first c0), Mount.setCount_frame m]
  · rw [he, Mount.setCount_counts _ _ _ hk, Mount.setCount_counts _ _ _ hk, Mount.setCount_counts _ _ _ hk,
      Mount.setCount_counts _ _ _ hk]
    by_cases h0 : k = first
    · simp [h0]
    · by_cases h1 : k = first + 1
      · simp [h1]
      · by_cases h2 : k = first + 2
        · simp [h2]
        · simp [h0, h1, h2]

/-- A number goes in before the first that is greater. -/
theorem insertAscending_split (n : Nat) (l : List Nat) : ∃ before after, l = before ++ after ∧ (∀ k ∈ before, k ≤ n) ∧
    (∀ k, after.head? = some k → n < k) ∧ insertAscending n l = before ++ n :: after := by
  induction l with
  | nil => exact ⟨[], [], rfl, nofun, nofun, rfl⟩
  | cons x l ih =>
    by_cases hx : n < x
    · exact ⟨[], x :: l, rfl, nofun, fun k hk => Option.some.inj hk ▸ hx, if_pos hx⟩
    · obtain ⟨before, after, rfl, hle, hgt, heq⟩ := ih
      refine ⟨x :: before, after, rfl, fun k hk => ?_, hgt, ?_⟩
      · rcases List.mem_cons.mp hk with rfl | h
        · exact Nat.not_lt.mp hx
        · exact hle k h
      · rw [insertAscending, if_neg hx, heq]
        rfl

theorem Mount.addBad_refuses {n : Nat} (m : Mount) :
    (decide (n ∈ m.bad) || decide (Config.badLimit ≤ m.bad.length)) = true ↔ n ∈ m.bad ∨ 32 ≤ m.bad.length := by
  rw [Bool.or_eq_true, decide_eq_true_eq, decide_eq_true_eq]
  rfl

theorem Mount.addBad_listed {m : Mount} {n : Nat} (h : n ∈ m.bad ∨ 32 ≤ m.bad.length) : m.addBad n = m :=
  if_pos (m.addBad_refuses.mpr h)

theorem Mount.addBad_joins {m : Mount} {n : Nat} (hn : n ∉ m.bad) (hl : m.bad.length < 32) :
    m.addBad n = { m with bad := insertAscending n m.bad } :=
  if_neg fun h => (m.addBad_refuses.mp h).elim hn (Nat.not_le.mpr hl)

/-! ### Breaks in the sequences (R132) -/

/-- The sequence of the last LIVE page met, or the one before them all. -/
def lastLive (before : Option Nat) (l : List PageState) : Option Nat := l.foldl (fun r x => x.seq?.or r) before

/-- A break at or below page `k`: a LIVE page whose sequence does not follow the last one met. -/
def breakBy (before : Option Nat) (l : List PageState) (k : Nat) : Prop :=
  ∃ j b a, j ≤ k ∧ l[j]? = some (.live b) ∧ lastLive before (l.take j) = some a ∧ b ≠ a + 1

theorem breakBy_zero {before : Option Nat} {x : PageState} {l : List PageState} : breakBy before (x :: l) 0 ↔
    ∃ b a, x = .live b ∧ before = some a ∧ b ≠ a + 1 := by
  constructor
  · rintro ⟨j, b, a, hj, hx, hl, hne⟩
    obtain rfl := Nat.le_zero.mp hj
    exact ⟨b, a, Option.some.inj hx, hl, hne⟩
  · rintro ⟨b, a, rfl, hl, hne⟩
    exact ⟨0, b, a, Nat.le_refl 0, rfl, hl, hne⟩

theorem breakBy_succ {before : Option Nat} {x : PageState} {l : List PageState} {k : Nat} :
    breakBy before (x :: l) (k + 1) ↔ breakBy before (x :: l) 0 ∨ breakBy (x.seq?.or before) l k := by
  constructor
  · rintro ⟨j, b, a, hj, hx, hl, hne⟩
    cases j with
    | zero => exact .inl ⟨0, b, a, Nat.le_refl 0, hx, hl, hne⟩
    | succ j => exact .inr ⟨j, b, a, Nat.le_of_succ_le_succ hj, hx, hl, hne⟩
  · rintro (⟨j, b, a, hj, hx, hl, hne⟩ | ⟨j, b, a, hj, hx, hl, hne⟩)
    · exact ⟨j, b, a, by omega, hx, hl, hne⟩
    · exact ⟨j + 1, b, a, by omega, hx, hl, hne⟩

theorem breakBy_mono {before : Option Nat} {l : List PageState} {i k : Nat} (h : breakBy before l i) (hk : i ≤ k) :
    breakBy before l k := by
  obtain ⟨j, b, a, hj, hrest⟩ := h
  exact ⟨j, b, a, hj.trans hk, hrest⟩

theorem PageState.unlive_eq (x : PageState) : x.unlive = if x.seq? = none then x else .void := by cases x <;> rfl

/-- What the cut leaves: everything up to a break, no LIVE page from it on. -/
structure CutLike (before : Option Nat) (l : List PageState) (r : List PageState × Bool) : Prop where
  length : r.1.length = l.length
  broken : r.2 = true ↔ ∃ k, k < l.length ∧ breakBy before l k
  kept : ∀ k x, l[k]? = some x → ¬ breakBy before l k → r.1[k]? = some x
  cut : ∀ k x, l[k]? = some x → breakBy before l k → r.1[k]? = some (if x.seq? = none then x else .void)

/-- A page that is no break, then the rest after it. -/
theorem CutLike.cons {before : Option Nat} {x : PageState} {l : List PageState} {r : List PageState × Bool}
    (h : CutLike (x.seq?.or before) l r) (hx : ¬ breakBy before (x :: l) 0) : CutLike before (x :: l) (x :: r.1, r.2) := by
  have hsucc (k : Nat) : breakBy before (x :: l) (k + 1) ↔ breakBy (x.seq?.or before) l k := by
    rw [breakBy_succ]
    exact or_iff_right hx
  refine ⟨congrArg (· + 1) h.length, h.broken.trans ⟨fun ⟨k, hk, hb⟩ => ⟨k + 1, Nat.succ_lt_succ hk, (hsucc k).mpr hb⟩,
    fun ⟨k, hk, hb⟩ => ?_⟩, fun k y hy hno => ?_, fun k y hy hb => ?_⟩
  · cases k with
    | zero => exact absurd hb hx
    | succ k => exact ⟨k, Nat.lt_of_succ_lt_succ hk, (hsucc k).mp hb⟩
  · cases k with
    | zero => exact hy
    | succ k => exact h.kept k y hy fun hb => hno ((hsucc k).mpr hb)
  · cases k with
    | zero => exact absurd hb hx
    | succ k => exact h.cut k y hy ((hsucc k).mp hb)

theorem cutAtBreak_spec (before : Option Nat) (l : List PageState) : CutLike before l (cutAtBreak before l) := by
  induction l generalizing before with
  | nil => exact ⟨rfl, ⟨nofun, fun ⟨k, hk, _⟩ => absurd hk (Nat.not_lt_zero k)⟩, nofun, nofun⟩
  | cons x l ih =>
    have dead (hx : x.seq? = none) : CutLike before (x :: l) (x :: (cutAtBreak before l).1, (cutAtBreak before l).2) := by
      refine CutLike.cons ?_ fun hb => ?_
      · rw [hx]
        exact ih before
      · obtain ⟨b, a, rfl, -⟩ := breakBy_zero.mp hb
        cases hx
    cases x with
    | unused => exact dead rfl
    | writing => exact dead rfl
    | void => exact dead rfl
    | live n =>
      unfold cutAtBreak
      split
      · rename_i hgo
        refine CutLike.cons (ih (some n)) fun hb => ?_
        obtain ⟨b, a, hn, rfl, hne⟩ := breakBy_zero.mp hb
        cases hn
        simp only [Option.all_some, beq_iff_eq] at hgo
        exact hne hgo.symm
      · rename_i hstop
        have hbreak : breakBy before (.live n :: l) 0 := by
          cases before with
          | none => exact absurd rfl hstop
          | some a =>
            simp only [Option.all_some, beq_iff_eq] at hstop
            exact breakBy_zero.mpr ⟨n, a, rfl, rfl, fun h => hstop h.symm⟩
        refine ⟨by simp, ⟨fun _ => ⟨0, Nat.succ_pos _, hbreak⟩, fun _ => rfl⟩, fun k y hy hno =>
          absurd (breakBy_mono hbreak (Nat.zero_le k)) hno, fun k y hy _ => ?_⟩
        cases k with
        | zero =>
          obtain rfl := Option.some.inj hy
          rfl
        | succ k =>
          rw [← PageState.unlive_eq]
          rw [List.getElem?_cons_succ] at hy
          rw [List.getElem?_cons_succ, List.getElem?_map, hy]
          rfl

theorem lastLive_take_succ {l : List PageState} {j : Nat} {x : PageState} (hx : l[j]? = some x) :
    lastLive none (l.take (j + 1)) = x.seq?.or (lastLive none (l.take j)) := by
  rw [List.take_add_one, hx, lastLive, List.foldl_append]
  rfl

/-- The last LIVE page met below a page. -/
theorem lastLive_eq_some_iff (l : List PageState) (j a : Nat) (hj : j ≤ l.length) : lastLive none (l.take j) = some a ↔
    ∃ i, i < j ∧ l[i]? = some (.live a) ∧ ∀ k q, i < k → k < j → l[k]? ≠ some (.live q) := by
  induction j with
  | zero => exact ⟨nofun, fun ⟨i, hi, _⟩ => absurd hi (Nat.not_lt_zero i)⟩
  | succ j ih =>
    have hx := List.getElem?_eq_getElem (l := l) (i := j) (by omega)
    rw [lastLive_take_succ hx]
    have dead (hdead : l[j].seq? = none) : (l[j].seq?.or (lastLive none (l.take j)) = some a ↔
        ∃ i, i < j + 1 ∧ l[i]? = some (.live a) ∧ ∀ k q, i < k → k < j + 1 → l[k]? ≠ some (.live q)) := by
      rw [hdead, Option.none_or, ih (by omega)]
      have hnot (q : Nat) : l[j]? ≠ some (.live q) := fun h => by
        rw [hx] at h
        rw [Option.some.inj h] at hdead
        cases hdead
      constructor
      · rintro ⟨i, hi, hl, hno⟩
        refine ⟨i, by omega, hl, fun k q hik hk => ?_⟩
        rcases Nat.lt_succ_iff_lt_or_eq.mp hk with h | rfl
        · exact hno k q hik h
        · exact hnot q
      · rintro ⟨i, hi, hl, hno⟩
        refine ⟨i, lt_of_le_of_ne (Nat.le_of_lt_succ hi) fun h => hnot a (h ▸ hl), hl, fun k q hik hk => hno k q hik (by omega)⟩
    cases hp : l[j] with
    | unused => exact hp ▸ dead (by rw [hp]; rfl)
    | writing => exact hp ▸ dead (by rw [hp]; rfl)
    | void => exact hp ▸ dead (by rw [hp]; rfl)
    | live n =>
      rw [hp] at hx
      constructor
      · intro h
        obtain rfl := Option.some.inj h
        exact ⟨j, Nat.lt_succ_self j, hx, fun k q hk hk' => absurd hk (by omega)⟩
      · rintro ⟨i, hi, hl, hno⟩
        rcases Nat.lt_succ_iff_lt_or_eq.mp hi with h | rfl
        · exact absurd hx (hno j n h (Nat.lt_succ_self j))
        · rw [hx] at hl
          cases hl
          rfl

theorem breakBy_iff {l : List PageState} {k : Nat} : breakBy none l k ↔
    ∃ i j a b, i < j ∧ j ≤ k ∧ l[i]? = some (.live a) ∧ l[j]? = some (.live b) ∧
      b ≠ a + 1 ∧ ∀ i' q, i < i' → i' < j → l[i']? ≠ some (.live q) := by
  constructor
  · rintro ⟨j, b, a, hj, hb, hl, hne⟩
    have hlen : j ≤ l.length := Nat.le_of_lt (List.getElem?_eq_some_iff.mp hb).1
    obtain ⟨i, hi, ha, hno⟩ := (lastLive_eq_some_iff l j a hlen).mp hl
    exact ⟨i, j, a, b, hi, hj, ha, hb, hne, hno⟩
  · rintro ⟨i, j, a, b, hi, hj, ha, hb, hne, hno⟩
    have hlen : j ≤ l.length := Nat.le_of_lt (List.getElem?_eq_some_iff.mp hb).1
    exact ⟨j, b, a, hj, hb, (lastLive_eq_some_iff l j a hlen).mpr ⟨i, hi, ha, hno⟩, hne⟩

/-! ### The pages of an owned sector (R132) -/

/-- How much of a list stands up to the last element that fails a test. -/
theorem length_dropWhile_reverse_le {α : Type} (test : α → Bool) (l : List α) (i : Nat) :
    (l.reverse.dropWhile test).length ≤ i ↔ ∀ k y, i ≤ k → l[k]? = some y → test y = true := by
  induction l using List.reverseRecOn with
  | nil => simp
  | append_singleton l a ih =>
    rw [List.reverse_concat, List.dropWhile_cons]
    split
    · rename_i ha
      rw [ih]
      refine forall_congr' fun k => forall_congr' fun y => ⟨fun h hk hy => ?_, fun h hk hy => ?_⟩
      · rw [List.getElem?_append] at hy
        split at hy
        · exact h hk hy
        · rw [← List.mem_singleton.mp (List.mem_of_getElem? hy)] at ha
          exact ha
      · exact h hk (by rw [List.getElem?_append_left (List.getElem?_eq_some_iff.mp hy).1, hy])
    · rename_i ha
      constructor
      · intro hlen k y hk hy
        have hlt := (List.getElem?_eq_some_iff.mp hy).1
        simp only [List.length_cons, List.length_reverse, List.length_append, List.length_nil] at hlen hlt
        omega
      · intro h
        by_contra hlt
        simp only [List.length_cons, List.length_reverse] at hlt
        exact ha (h l.length a (by omega) (by simp))

theorem ownedPages_getElem? (pages : List (List Byte)) (st : Fin 16) (inc : Byte) (writer : Port) {i : Nat} {x : List Byte}
    (hx : pages[i]? = some x) : (ownedPages pages st inc writer)[i]? = some (
      if (pages.reverse.dropWhile pageErased).length ≤ i then .unused
      else match mountLive x st inc writer with | some seq => .live seq | none => .void) := by
  have hi : i < pages.length := (List.getElem?_eq_some_iff.mp hx).1
  have hzip : (pages.zip (List.range pages.length))[i]? = some (x, i) :=
    List.getElem?_zip_eq_some.mpr ⟨hx, by simp [hi]⟩
  rw [ownedPages, List.getElem?_map, hzip]
  rfl

theorem mountLive_iff (x : List Byte) (st : Fin 16) (inc : Byte) (writer : Port) :
    let good : Prop := recordGood x st inc (fieldAt x 4 4) = true ∧ fieldAt x 4 4 ≠ 4294967295 ∧
      (byteAt x 3).toNat = portCode writer
    (good → mountLive x st inc writer = some (fieldAt x 4 4)) ∧ (¬ good → mountLive x st inc writer = none) := by
  have hgood : (recordGood x st inc (fieldAt x 4 4) && fieldAt x 4 4 != Config.erasedSerial &&
      (byteAt x 3).toNat == portCode writer) = true ↔ recordGood x st inc (fieldAt x 4 4) = true ∧
      fieldAt x 4 4 ≠ 4294967295 ∧ (byteAt x 3).toNat = portCode writer := by
    simp only [Bool.and_eq_true, bne_iff_ne, beq_iff_eq, and_assoc, Config.erasedSerial]
  exact ⟨fun h => if_pos (hgood.mpr h), fun h => if_neg fun ht => h (hgood.mp ht)⟩

/-! ### Classes of data sectors (R131) -/

theorem ownsPage0_iff (x : List Byte) (st : Fin 16) (inc : Byte) (writer : Port) : ownsPage0 x st inc writer = true ↔
    crcBytes (x.take 10) = (x.drop 10).take 2 ∧ (byteAt x 0).toNat = st.val ∧ byteAt x 1 = inc ∧
      1 ≤ (byteAt x 2).toNat ∧ (byteAt x 2).toNat ≤ 240 ∧ (byteAt x 3).toNat = portCode writer ∧
      fieldAt x 4 4 ≠ 4294967295 := by
  simp only [ownsPage0, headerGood, Bool.and_eq_true, beq_iff_eq, bne_iff_ne, decide_eq_true_eq, and_assoc, bytesAt,
    Config.erasedSerial]

/-- A page 0 names the stream its header holds. -/
theorem Mount.ownerOf_iff (m : Mount) (x : List Byte) (st : Fin 16) (b : StreamBody) : m.ownerOf x = some (st, b) ↔
    m.streams[st.val].body = some b ∧ ownsPage0 x st m.streams[st.val].incarnation b.writer = true := by
  unfold Mount.ownerOf
  have hbyte : ownsPage0 x st m.streams[st.val].incarnation b.writer = true → streamOfByte (byteAt x 0) = some st := by
    intro h
    obtain ⟨-, hst, -⟩ := (ownsPage0_iff _ _ _ _).mp h
    unfold streamOfByte
    rw [dif_pos (by omega)]
    exact congrArg some (Fin.ext hst)
  constructor
  · intro h
    split at h
    · cases h
    · rename_i st' _
      split at h
      · cases h
      · rename_i b' hb'
        split at h
        · rename_i howns
          obtain ⟨rfl, rfl⟩ := Prod.mk.inj (Option.some.inj h)
          exact ⟨hb', howns⟩
        · cases h
  · rintro ⟨hb, howns⟩
    rw [hbyte howns]
    dsimp only
    rw [hb]
    exact if_pos howns

theorem pageMap_toList {l : List PageState} (h : l.length = 16) : (pageMap l).toList = l := by
  refine List.ext_getElem (by simp [h]) fun i h1 h2 => ?_
  simp [pageMap, h2]

theorem Mount.takeOwned_of {m : Mount} {n : Nat} {st : Fin 16} {states : List PageState} :
    let r := cutAtBreak none states
    let counted := if r.2 then min 65535 (m.repair + 1) else m.repair
    ((∀ x ∈ r.1, x.seq? = none) → m.takeOwned n st states = { m with repair := counted, released := m.released ++ [n] }) ∧
    ((∃ x ∈ r.1, x.seq? ≠ none) →
      m.takeOwned n st states = { m with repair := counted, owned := m.owned ++ [⟨n, st, pageMap r.1, r.2⟩] }) := by
  intro r counted
  have hm : (if r.2 then m.addRepair else m) = { m with repair := counted } := by
    simp only [counted]
    cases r.2 <;> rfl
  have hall : (r.1.all fun x => x.seq?.isNone) = true ↔ ∀ x ∈ r.1, x.seq? = none := by simp
  unfold Mount.takeOwned
  refine ⟨fun h => ?_, fun ⟨x, hx, hne⟩ => ?_⟩
  · refine (if_pos (hall.mpr h)).trans ?_
    simp only [r] at hm
    rw [hm]
  · refine (if_neg fun h => hne (hall.mp h x hx)).trans ?_
    simp only [r] at hm
    rw [hm]

/-- Settles O38: the half's tests, replay, each entry, the class of a sector, its pages and their breaks. -/
theorem mountReplaysAndClassifies : Obligations.MountReplaysAndClassifies := by
  refine ⟨qualify_iff, Mount.replay_spec, fun m st inc p => ⟨fun writer readers held policy tag quota margin base => ?_, ?_,
    fun committed lost => ?_⟩, fun m first c0 c1 c2 c3 sectors n => ⟨m.applyEntry_wear first c0 c1 c2 c3, rfl, fun h => ?_,
    fun hn hl => ?_, fun _ _ => rfl⟩, fun m n pages hlen => ?_, fun pages st inc writer => ⟨by simp [ownedPages], fun i x hx => ?_⟩,
    fun read => ?_⟩
  · refine ⟨rfl, rfl, fun q => ?_, fun st' h => retained_set_other m h _⟩
    show (m.retained.set st.val _)[st.val].get q = _
    rw [Vector.getElem_set_self, keepAllRetained_get]
  · refine ⟨rfl, fun q => ?_, fun st' h => retained_set_other m h _⟩
    show (m.retained.set st.val _)[st.val].get q = _
    rw [Vector.getElem_set_self, PerPort.get_all]
  · obtain ⟨hno, hyes⟩ := Mount.applyEntry_cursor (m := m) (st := st) (inc := inc) (p := p) (committed := committed) (lost := lost)
    intro e fits
    refine ⟨hno, fun hf => ?_⟩
    have he : e = _ := hyes hf
    rw [he]
    refine ⟨rfl, ?_, fun q hq => ?_, fun st' h => retained_set_other m h _⟩
    · rw [Vector.getElem_set_self, PerPort.get_set_self]
    · rw [Vector.getElem_set_self, PerPort.get_set, if_neg hq]
  · show (n :: sectors).foldl Mount.addBad m = _
    rw [List.foldl_cons, Mount.addBad_listed h]
    rfl
  · obtain ⟨before, after, hsplit, hle, hgt, heq⟩ := insertAscending_split n m.bad
    refine ⟨before, after, hsplit, hle, hgt, ?_⟩
    show (n :: sectors).foldl Mount.addBad m = _
    rw [List.foldl_cons, Mount.addBad_joins hn hl, heq]
    rfl
  · intro page0 owner
    have howner (st : Fin 16) (b : StreamBody) : m.ownerOf page0 = some (st, b) ↔ owner st b := by
      rw [Mount.ownerOf_iff, ownsPage0_iff]
    have herased : pages.all pageErased = true ↔ ∀ x ∈ pages, pageErased x = true := List.all_eq_true
    refine ⟨fun h => if_pos (herased.mpr h), fun ⟨x, hx, hne⟩ => ?_⟩
    have hclass : m.classify n pages = match m.ownerOf page0 with
        | some (st, b) => m.takeOwned n st (ownedPages pages st m.streams[st.val].incarnation b.writer)
        | none => { m with released := m.released ++ [n] } :=
      if_neg fun h => by rw [herased.mp h x hx] at hne; cases hne
    refine ⟨fun hno => ?_, fun st b hb => ?_⟩
    · cases ho : m.ownerOf page0 with
      | none => rw [hclass, ho]
      | some x => exact absurd ((howner x.1 x.2).mp ho) (hno _ _)
    · have ho := (howner st b).mpr hb
      have hlength : (cutAtBreak none (ownedPages pages st m.streams[st.val].incarnation b.writer)).1.length = 16 := by
        rw [(cutAtBreak_spec none _).length]
        simp [ownedPages, hlen]
      have hlist := pageMap_toList hlength
      obtain ⟨hrel, hown⟩ := Mount.takeOwned_of (m := m) (n := n) (st := st)
        (states := ownedPages pages st m.streams[st.val].incarnation b.writer)
      have htake : m.classify n pages =
          m.takeOwned n st (ownedPages pages st m.streams[st.val].incarnation b.writer) := by
        rw [hclass, ho]
      refine ⟨_, _, _, rfl, by rw [hlist], fun h => ?_, fun h => ?_⟩
      · rw [hlist] at h
        rw [htake]
        exact hrel h
      · rw [hlist] at h
        rw [htake]
        exact hown h
  · intro seq above good
    have habove := length_dropWhile_reverse_le pageErased pages i
    obtain ⟨hlive, hdead⟩ := mountLive_iff x st inc writer
    rw [ownedPages_getElem? pages st inc writer hx]
    refine ⟨fun h => by rw [if_pos (habove.mpr h)], fun hno hg => ?_, fun hno hg => ?_⟩
    · rw [if_neg fun h => hno (habove.mp h), hlive hg]
    · rw [if_neg fun h => hno (habove.mp h), hdead hg]
  · intro broken
    have hspec := cutAtBreak_spec none read
    refine ⟨hspec.length, hspec.broken.trans (exists_congr fun k => and_congr_right fun _ => breakBy_iff), fun k x hx =>
      ⟨fun h => hspec.kept k x hx fun hb => h (breakBy_iff.mp hb), fun h => hspec.cut k x hx (breakBy_iff.mpr h)⟩⟩

end Sys2Proof.Machine
end

