-- ==== Sys2Proof/Proofs/OwnedSectors.lean ====
section
/-! The owned sectors a mount found: release point and release test (R133), the order of the chain walk and the walk
(R134), a mounted cursor (R135). -/

namespace Sys2Proof.Machine

open Sys2Proof

-- One process elaborates the whole text: proofs taken in turn stay within its memory.
set_option Elab.async false

/-! ### The release point (R133) -/

theorem mem_readerPositions {readers : PortSet} {t : PerPort (Option Retained)} {x : Option Retained} :
    x ∈ readerPositions readers t ↔ ∃ q, readers.get q = true ∧ t.get q = x := by
  unfold readerPositions
  rw [List.mem_filterMap]
  constructor
  · rintro ⟨q, -, hq⟩
    split at hq
    · rename_i hr
      exact ⟨q, hr, Option.some.inj hq⟩
    · cases hq
  · rintro ⟨q, hr, rfl⟩
    exact ⟨q, by cases q <;> decide, if_pos hr⟩

/-- The greatest of a list by a measure, with a start. -/
theorem foldl_max_spec {α : Type} (f : α → Nat) (l : List α) (start : Nat) :
    start ≤ l.foldl (fun m x => max m (f x)) start ∧ (∀ x ∈ l, f x ≤ l.foldl (fun m x => max m (f x)) start) ∧
      (l.foldl (fun m x => max m (f x)) start = start ∨ ∃ x ∈ l, f x = l.foldl (fun m x => max m (f x)) start) := by
  induction l generalizing start with
  | nil => exact ⟨Nat.le_refl _, nofun, .inl rfl⟩
  | cons x l ih =>
    obtain ⟨hle, hall, hat⟩ := ih (max start (f x))
    rw [List.foldl_cons]
    refine ⟨(Nat.le_max_left _ _).trans hle, fun y hy => ?_, ?_⟩
    · rcases List.mem_cons.mp hy with rfl | hy
      · exact (Nat.le_max_right _ _).trans hle
      · exact hall y hy
    · rcases hat with hat | ⟨y, hy, hfy⟩
      · rcases Nat.le_total start (f x) with h | h
        · exact .inr ⟨x, List.mem_cons_self, by rw [hat, Nat.max_eq_right h]⟩
        · exact .inl (by rw [hat, Nat.max_eq_left h])
      · exact .inr ⟨y, List.mem_cons_of_mem _ hy, hfy⟩

/-- The least of a list by a measure, with a start. -/
theorem foldl_min_spec {α : Type} (f : α → Nat) (l : List α) (start : Nat) :
    l.foldl (fun m x => min m (f x)) start ≤ start ∧ (∀ x ∈ l, l.foldl (fun m x => min m (f x)) start ≤ f x) ∧
      (l.foldl (fun m x => min m (f x)) start = start ∨ ∃ x ∈ l, f x = l.foldl (fun m x => min m (f x)) start) := by
  induction l generalizing start with
  | nil => exact ⟨Nat.le_refl _, nofun, .inl rfl⟩
  | cons x l ih =>
    obtain ⟨hle, hall, hat⟩ := ih (min start (f x))
    rw [List.foldl_cons]
    refine ⟨hle.trans (Nat.min_le_left _ _), fun y hy => ?_, ?_⟩
    · rcases List.mem_cons.mp hy with rfl | hy
      · exact hle.trans (Nat.min_le_right _ _)
      · exact hall y hy
    · rcases hat with hat | ⟨y, hy, hfy⟩
      · rcases Nat.le_total start (f x) with h | h
        · exact .inl (by rw [hat, Nat.min_eq_left h])
        · exact .inr ⟨x, List.mem_cons_self, by rw [hat, Nat.min_eq_right h]⟩
      · exact .inr ⟨y, List.mem_cons_of_mem _ hy, hfy⟩

section ReleasePoint

variable (readers : PortSet) (t : PerPort (Option Retained)) (own : List OwnedSector)

theorem releasePoint_unread (h : ∀ q, readers.get q = false) :
    releasePoint readers t own = own.foldl (fun m o => max m o.first) 0 := by
  have hnil : readerPositions readers t = [] := List.eq_nil_iff_forall_not_mem.mpr fun x hx => by
    obtain ⟨q, hq, -⟩ := mem_readerPositions.mp hx
    rw [h q] at hq
    cases hq
  rw [releasePoint, hnil]
  rfl

theorem releasePoint_unknown {q : Port} (hr : readers.get q = true) (ht : t.get q = none) : releasePoint readers t own = 0 := by
  have hmem : none ∈ readerPositions readers t := mem_readerPositions.mpr ⟨q, hr, ht⟩
  have hany : (readerPositions readers t).any Option.isNone = true := List.any_eq_true.mpr ⟨none, hmem, rfl⟩
  have hsome : (readerPositions readers t).isEmpty = false := by
    rw [List.isEmpty_eq_false_iff]
    exact List.ne_nil_of_mem hmem
  simp only [releasePoint, hany, hsome, if_true, Bool.false_eq_true, if_false]

theorem releasePoint_known (hr : ∃ q, readers.get q = true) (ht : ∀ q, readers.get q = true → t.get q ≠ none) :
    (∀ q r, readers.get q = true → t.get q = some r → releasePoint readers t own ≤ r.committed) ∧
      ∃ q r, readers.get q = true ∧ t.get q = some r ∧ r.committed = releasePoint readers t own := by
  have hmem {r : Retained} : r ∈ (readerPositions readers t).filterMap id ↔ ∃ q, readers.get q = true ∧ t.get q = some r := by
    rw [← mem_readerPositions]
    simp
  have hany : (readerPositions readers t).any Option.isNone = false := by
    rw [← Bool.not_eq_true, List.any_eq_true]
    rintro ⟨x, hx, hnone⟩
    obtain ⟨q, hq, rfl⟩ := mem_readerPositions.mp hx
    exact ht q hq (Option.isNone_iff_eq_none.mp hnone)
  have hsome : (readerPositions readers t).isEmpty = false := by
    obtain ⟨q, hq⟩ := hr
    rw [List.isEmpty_eq_false_iff]
    exact List.ne_nil_of_mem (mem_readerPositions.mpr ⟨q, hq, rfl⟩)
  have hpoint : releasePoint readers t own = match (readerPositions readers t).filterMap id with
      | [] => 0
      | x :: xs => xs.foldl (fun m r => min m r.committed) x.committed := by
    simp only [releasePoint, hany, hsome, Bool.false_eq_true, if_false] <;> rfl
  rw [hpoint]
  cases hl : (readerPositions readers t).filterMap id with
  | nil =>
    obtain ⟨q, hq⟩ := hr
    obtain ⟨r, hqr⟩ := Option.ne_none_iff_exists'.mp (ht q hq)
    rw [hl] at hmem
    exact absurd (hmem.mpr ⟨q, hq, hqr⟩) List.not_mem_nil
  | cons x xs =>
    rw [hl] at hmem
    obtain ⟨hle, hall, hat⟩ := foldl_min_spec Retained.committed xs x.committed
    refine ⟨fun q r hq hqr => ?_, ?_⟩
    · rcases List.mem_cons.mp (hmem.mpr ⟨q, hq, hqr⟩) with rfl | h
      · exact hle
      · exact hall r h
    · rcases hat with hat | ⟨r, hr, heq⟩
      · obtain ⟨q, hq, hqr⟩ := hmem.mp List.mem_cons_self
        exact ⟨q, x, hq, hqr, hat.symm⟩
      · obtain ⟨q, hq, hqr⟩ := hmem.mp (List.mem_cons_of_mem x hr)
        exact ⟨q, r, hq, hqr, heq⟩

end ReleasePoint

theorem Mount.releaseTest_eq (m : Mount) (st : Fin 16) (b : StreamBody) :
    m.releaseTest st b =
      ((m.ownedBy st).filter (fun o => decide (releasePoint b.readers m.retained[st.val] (m.ownedBy st) ≤ o.last)),
        (m.ownedBy st).filter (fun o => decide (o.last < releasePoint b.readers m.retained[st.val] (m.ownedBy st)))) := by
  rw [Mount.releaseTest, List.partition_eq_filter_filter]
  refine Prod.ext rfl (List.filter_congr fun o _ => ?_)
  rw [Function.comp_apply, ← decide_not]
  exact decide_eq_decide.mpr Nat.not_le

/-! ### The order of the walk (R134) -/

theorem insertOwned_perm (o : OwnedSector) (l : List OwnedSector) : (insertOwned o l).Perm (o :: l) := by
  induction l with
  | nil => exact .refl _
  | cons x l ih =>
    unfold insertOwned
    split
    · exact .refl _
    · exact (ih.cons x).trans (.swap o x l)

theorem sortOwned_perm (l : List OwnedSector) : (l.foldr insertOwned []).Perm l := by
  induction l with
  | nil => exact .refl _
  | cons o l ih => exact (insertOwned_perm o _).trans (ih.cons o)

/-- The order of the chain walk: by first sequence, then by sector number. -/
def OwnedSector.before (x y : OwnedSector) : Prop := x.first < y.first ∨ x.first = y.first ∧ x.sector ≤ y.sector

theorem insertOwned_sorted {o : OwnedSector} {l : List OwnedSector} (h : l.Pairwise OwnedSector.before) :
    (insertOwned o l).Pairwise OwnedSector.before := by
  induction l with
  | nil => exact List.pairwise_singleton _ _
  | cons x l ih =>
    obtain ⟨hx, hl⟩ := List.pairwise_cons.mp h
    unfold insertOwned
    split
    · rename_i hlt
      simp only [Bool.or_eq_true, Bool.and_eq_true, decide_eq_true_eq, beq_iff_eq] at hlt
      have hox : o.before x := by unfold OwnedSector.before; omega
      refine List.pairwise_cons.mpr ⟨fun y hy => ?_, h⟩
      rcases List.mem_cons.mp hy with rfl | hy
      · exact hox
      · have := hx y hy
        unfold OwnedSector.before at *
        omega
    · rename_i hge
      simp only [Bool.or_eq_true, Bool.and_eq_true, decide_eq_true_eq, beq_iff_eq] at hge
      refine List.pairwise_cons.mpr ⟨fun y hy => ?_, ih hl⟩
      rcases List.mem_cons.mp ((insertOwned_perm o l).mem_iff.mp hy) with rfl | hy
      · unfold OwnedSector.before
        omega
      · exact hx y hy

theorem sortOwned_sorted (l : List OwnedSector) : (l.foldr insertOwned []).Pairwise OwnedSector.before := by
  induction l with
  | nil => exact .nil
  | cons o l ih => exact insertOwned_sorted ih

/-! ### The walk (R134) -/

/-- The walk of one sector more: kept when it goes on from the last kept, dropped otherwise. -/
theorem walk_concat (last : Option Nat) (l : List OwnedSector) (o : OwnedSector) :
    walk last (l ++ [o]) =
      if (((walk last l).1.getLast?.map OwnedSector.last).or last).all fun k => k + 1 == o.first then
        ((walk last l).1 ++ [o], (walk last l).2)
      else ((walk last l).1, (walk last l).2 ++ [o]) := by
  induction l generalizing last with
  | nil =>
    show walk last [o] = if last.all _ then _ else _
    rw [walk]
    rfl
  | cons x l ih =>
    rw [List.cons_append, walk, walk]
    by_cases hgo : (last.all fun k => k + 1 == x.first) = true
    · rw [if_pos hgo, if_pos hgo, ih]
      have hlast : ((x :: (walk (some x.last) l).1).getLast?.map OwnedSector.last).or last =
          ((walk (some x.last) l).1.getLast?.map OwnedSector.last).or (some x.last) := by
        rw [List.getLast?_cons]
        cases (walk (some x.last) l).1.getLast? <;> rfl
      dsimp only
      rw [hlast]
      split <;> rfl
    · rw [if_neg hgo, if_neg hgo, ih]
      dsimp only
      split <;> rfl

theorem walk_spec (l : List OwnedSector) (o : OwnedSector) :
    let r := walk none l
    (r.1 = [] ∨ (∃ k, r.1.getLast? = some k ∧ o.first = k.last + 1) → walk none (l ++ [o]) = (r.1 ++ [o], r.2)) ∧
    (∀ k, r.1.getLast? = some k → o.first ≠ k.last + 1 → walk none (l ++ [o]) = (r.1, r.2 ++ [o])) := by
  intro r
  have hconcat : walk none (l ++ [o]) = if ((r.1.getLast?.map OwnedSector.last).or none).all fun k => k + 1 == o.first then
      (r.1 ++ [o], r.2) else (r.1, r.2 ++ [o]) := walk_concat none l o
  rw [hconcat]
  refine ⟨fun h => if_pos ?_, fun k hk hne => if_neg ?_⟩
  · rcases h with h | ⟨k, hk, hfirst⟩
    · rw [h]
      rfl
    · rw [hk]
      simp [hfirst]
  · rw [hk]
    simpa using fun h => hne h.symm

/-- The walk keeps or drops each sector. -/
theorem walk_perm (last : Option Nat) (l : List OwnedSector) : ((walk last l).1 ++ (walk last l).2).Perm l := by
  induction l generalizing last with
  | nil => exact .refl _
  | cons o l ih =>
    unfold walk
    split
    · exact (ih (some o.last)).cons o
    · exact List.perm_middle.trans ((ih last).cons o)

/-! ### A mounted cursor (R135) -/

/-- A cursor at a position and lost count, corrected against its stream's counters. -/
def correctedCursor (committed lost next oldest : Nat) : Cursor × Bool :=
  let fixed := if next < max committed oldest then next else max committed oldest
  let lost := if committed < oldest then min 65535 (lost + (oldest - committed)) else lost
  (⟨fixed, fixed, 1024, decide (1024 ≤ next - fixed), lost, fixed, lost⟩, decide (committed < oldest || next < committed))

theorem mountCursor_none (next oldest : Nat) : mountCursor none next oldest = correctedCursor oldest 0 next oldest := rfl

theorem mountCursor_some (x : Retained) (next oldest : Nat) :
    mountCursor (some x) next oldest = correctedCursor x.committed x.lost next oldest := rfl

theorem correctedCursor_low {committed lost next oldest : Nat} (h : oldest ≤ next) (hc : committed < oldest) :
    correctedCursor committed lost next oldest = (⟨oldest, oldest, 1024, decide (1024 ≤ next - oldest),
      min 65535 (lost + (oldest - committed)), oldest, min 65535 (lost + (oldest - committed))⟩, true) := by
  simp only [correctedCursor, Nat.max_eq_right (Nat.le_of_lt hc), Nat.not_lt.mpr h, hc, if_true, if_false, decide_true,
    Bool.true_or]

theorem correctedCursor_high {committed lost next oldest : Nat} (h : oldest ≤ next) (hc : next < committed) :
    correctedCursor committed lost next oldest = (⟨next, next, 1024, decide (1024 ≤ next - next), lost, next, lost⟩, true) := by
  have hlow : ¬ committed < oldest := by omega
  simp only [correctedCursor, Nat.max_eq_left (Nat.not_lt.mp hlow), hc, hlow, if_true, if_false, decide_true, Bool.or_true]

theorem correctedCursor_mid {committed lost next oldest : Nat} (hlow : oldest ≤ committed) (hhigh : committed ≤ next) :
    correctedCursor committed lost next oldest =
      (⟨committed, committed, 1024, decide (1024 ≤ next - committed), lost, committed, lost⟩, false) := by
  simp only [correctedCursor, Nat.max_eq_left hlow, Nat.not_lt.mpr hlow, Nat.not_lt.mpr hhigh, if_false, decide_false,
    Bool.or_false, Bool.false_eq_true]

theorem mountCursor_spec (next oldest : Nat) (x : Retained) (h : oldest ≤ next) :
    let cursor := fun committed lost => (⟨committed, committed, 1024, decide (1024 ≤ next - committed), lost, committed,
      lost⟩ : Cursor)
    mountCursor none next oldest = (cursor oldest 0, false) ∧
    (x.committed < oldest →
      mountCursor (some x) next oldest = (cursor oldest (min 65535 (x.lost + (oldest - x.committed))), true)) ∧
    (next < x.committed → mountCursor (some x) next oldest = (cursor next x.lost, true)) ∧
    (oldest ≤ x.committed → x.committed ≤ next →
      mountCursor (some x) next oldest = (cursor x.committed x.lost, false)) := by
  rw [mountCursor_none, mountCursor_some]
  exact ⟨correctedCursor_mid (Nat.le_refl _) h, correctedCursor_low h, correctedCursor_high h, correctedCursor_mid⟩

end Sys2Proof.Machine
end

