-- ==== Sys2Proof/Proofs/MountedChains.lean ====
section
/-! The passes of a mount over one stream: its chain (R134), and its reclaim and trim (R136). -/

namespace Sys2Proof.Machine

open Sys2Proof

-- One process elaborates the whole text: proofs taken in turn stay within its memory.
set_option Elab.async false

/-! ### What the passes reach -/

/-- The reach of a mount's passes: streams, cursors, sector descriptors, the erase queue, the repair count. -/
def Device.mounts (d e : Device) : Prop := e = { d with
  streams := e.streams, cursors := e.cursors, sectors := e.sectors, eraseQueue := e.eraseQueue
  mount := { d.mount with repair := e.mount.repair } }

theorem Device.mounts.refl (d : Device) : d.mounts d := rfl

theorem Device.mounts.trans {a b c : Device} (h : a.mounts b) (k : b.mounts c) : a.mounts c := by
  unfold Device.mounts at *
  exact k.trans (congrArg (fun x : Device => { x with
    streams := c.streams, cursors := c.cursors, sectors := c.sectors, eraseQueue := c.eraseQueue
    mount := { x.mount with repair := c.mount.repair } }) h)

section Reach

variable {a b : Device} (h : a.mounts b)

include h

theorem Device.mounts.writer : b.writer = a.writer := by rw [show b = _ from h]

theorem Device.mounts.events : b.events = a.events := by rw [show b = _ from h]

theorem Device.mounts.badList : b.badList = a.badList := by rw [show b = _ from h]

theorem Device.mounts.freePool : b.freePool = a.freePool := by rw [show b = _ from h]

theorem Device.mounts.mount : b.mount = { a.mount with repair := b.mount.repair } := congrArg Device.mount (show b = _ from h)

end Reach

theorem Device.mounts.serial {a b : Device} (h : a.mounts b) : b.newestSerial = a.newestSerial := by
  rw [Device.newestSerial, h.writer, Device.newestSerial]

theorem Device.mounts_setSector (d : Device) (n : Nat) (x : Sector) : d.mounts (d.setSector n x) := by
  unfold Device.mounts
  rw [Device.setSector_frame]

theorem Device.mounts_joinQueue (d : Device) (n : Nat) : d.mounts (d.joinQueue n) := by
  unfold Device.mounts
  rw [Device.joinQueue_frame]

theorem Device.mounts_addRepair (d : Device) : d.mounts d.addRepair := rfl

theorem Device.mounts_setBody (d : Device) (st : Fin 16) (b : Option StreamBody) : d.mounts (d.setBody st b) := rfl

theorem Device.mounts_setCursor (d : Device) (st : Fin 16) (p : Port) (c : Option Cursor) : d.mounts (d.setCursor st p c) := rfl

/-- Sectors `l` have joined the erase queue in that order, and no other descriptor has changed. -/
structure Device.Queues (d e : Device) (l : List Nat) : Prop where
  frame : d.mounts e
  queue : e.eraseQueue = d.eraseQueue ++ l
  sector : ∀ n, n < 256 → e.sector n = if n ∈ l then (d.sector n).cleared .queued d.newestSerial else d.sector n

theorem Device.Queues.none {d e : Device} (frame : d.mounts e) (queue : e.eraseQueue = d.eraseQueue)
    (sectors : e.sectors = d.sectors) : d.Queues e [] :=
  ⟨frame, by rw [queue, List.append_nil], fun n _ => (Device.sector_congr sectors n).trans (if_neg List.not_mem_nil).symm⟩

theorem Device.Queues.trans {a b c : Device} {l l' : List Nat} (h : a.Queues b l) (k : b.Queues c l') :
    a.Queues c (l ++ l') := by
  refine ⟨h.frame.trans k.frame, by rw [k.queue, h.queue, List.append_assoc], fun n hn => ?_⟩
  rw [k.sector n hn, h.sector n hn, h.frame.serial]
  by_cases h1 : n ∈ l <;> by_cases h2 : n ∈ l' <;> simp [h1, h2, Sector.cleared]

theorem Device.Queues.quiet {a b c : Device} {l : List Nat} (h : a.Queues b l) (k : b.Queues c []) : a.Queues c l :=
  List.append_nil l ▸ h.trans k

theorem Device.queues_joinQueue (d : Device) (n : Nat) : d.Queues (d.joinQueue n) [n] :=
  ⟨d.mounts_joinQueue n, rfl, fun m hm => by
    have hset : (d.joinQueue n).sector m = (d.setSector n ((d.sector n).cleared .queued d.newestSerial)).sector m := rfl
    rw [hset, Device.sector_setSector_eq _ _ _ hm]
    by_cases h : m = n
    · subst h
      simp
    · simp [h]⟩

theorem Device.queues_foldl (d : Device) (l : List Nat) : d.Queues (l.foldl Device.joinQueue d) l := by
  induction l generalizing d with
  | nil => exact .none (.refl d) rfl rfl
  | cons n l ih => exact (d.queues_joinQueue n).trans (ih (d.joinQueue n))

theorem Device.foldl_joinQueue_frame (l : List Nat) (d : Device) : l.foldl Device.joinQueue d = { d with
    sectors := (l.foldl Device.joinQueue d).sectors, eraseQueue := (l.foldl Device.joinQueue d).eraseQueue } := by
  induction l generalizing d with
  | nil => rfl
  | cons n l ih =>
    exact (ih (d.joinQueue n)).trans (congrArg (fun x : Device => { x with
      sectors := ((n :: l).foldl Device.joinQueue d).sectors
      eraseQueue := ((n :: l).foldl Device.joinQueue d).eraseQueue }) (d.joinQueue_frame n))

/-- A sector untouched keeps its descriptor, whatever its number. -/
theorem Device.Queues.other {d e : Device} {l : List Nat} (h : d.Queues e l) {n : Nat} (hn : n ∉ l) : e.sector n = d.sector n := by
  by_cases hlt : n < 256
  · rw [h.sector n hlt, if_neg hn]
  · simp [Device.sector, hlt]

/-- Nothing queued is suspect, and nothing else has become so. -/
theorem Device.Queues.unsuspect {d e : Device} {l : List Nat} (h : d.Queues e l) {n : Nat} (hn : (d.sector n).suspect = false) :
    (e.sector n).suspect = false := by
  by_cases hlt : n < 256
  · rw [h.sector n hlt]
    split
    · rfl
    · exact hn
  · simp [Device.sector, hlt, Sector.blank]

/-! ### Counters with no event (R134, R136) -/

theorem Device.setBody_setBody (d : Device) (st : Fin 16) (x y : Option StreamBody) :
    (d.setBody st x).setBody st y = d.setBody st y := by
  simp only [Device.setBody, Device.incarnation, Vector.getElem_set_self, Vector.set_set]

/-- A stream's body with its counters taken from a chain (R4 to R6). -/
def Device.counted (d : Device) (b : StreamBody) : StreamBody :=
  { b with
    used := d.chainUsed b.chain, oldest := d.chainOldest b.chain b.next
    high := decide (b.quota * 16 - d.chainUsed b.chain ≤ b.margin) }

theorem Device.recountQuiet_eq {d : Device} {st : Fin 16} {b : StreamBody} (h : d.stream st = some b) :
    (d.recount st).quietHigh st = d.setBody st (some (d.counted b)) := by
  rw [Device.recount, h]
  dsimp only
  rw [Device.quietHigh, Device.stream_setBody]
  exact Device.setBody_setBody _ _ _ _

theorem Device.recountQuiet_none {d : Device} {st : Fin 16} (h : d.stream st = none) : (d.recount st).quietHigh st = d := by
  simp [Device.recount, Device.quietHigh, h]

/-! ### The chain of one stream (R134) -/

/-- The descriptor of a sector in its chain. -/
def OwnedSector.placed (o : OwnedSector) (isLast : Bool) (inc : Byte) (x : Sector) : Sector :=
  { x with
    state := if isLast && !o.forced && o.pages.toList.any (· == .unused) then .tail else .filled
    owner := some (o.stream, inc)
    pages := o.pages }

theorem Device.placeOwned_eq (d : Device) (isLast : Bool) (o : OwnedSector) : d.placeOwned isLast o =
    d.setSector o.sector (o.placed isLast (d.incarnation o.stream) (d.sector o.sector)) := rfl

/-- Sectors dropped by the walk: queued, each a repair (R134). -/
theorem foldl_dropped_spec (l : List OwnedSector) (d : Device) :
    let e := l.foldl (fun d o => (d.joinQueue o.sector).addRepair) d
    d.Queues e (l.map OwnedSector.sector) ∧ e.streams = d.streams ∧ e.cursors = d.cursors ∧
      (d.mount.repair ≤ 65535 → e.mount.repair = min 65535 (d.mount.repair + l.length)) := by
  induction l generalizing d with
  | nil => exact ⟨.none (.refl d) rfl rfl, rfl, rfl, fun h => (Nat.min_eq_right h).symm⟩
  | cons o l ih =>
    intro e
    obtain ⟨hq, hstreams, hcursors, hrepair⟩ := ih ((d.joinQueue o.sector).addRepair)
    have hfirst : d.Queues ((d.joinQueue o.sector).addRepair) [o.sector] := (d.queues_joinQueue o.sector).quiet
      (.none (Device.mounts_addRepair _) rfl rfl)
    have hframe := d.joinQueue_frame o.sector
    have hstep : ((d.joinQueue o.sector).addRepair).mount.repair = min 65535 (d.mount.repair + 1) := by
      show min 65535 ((d.joinQueue o.sector).mount.repair + 1) = _
      rw [hframe]
    refine ⟨hfirst.trans hq, hstreams.trans ?_, hcursors.trans ?_, fun h => ?_⟩
    · show (d.joinQueue o.sector).streams = _
      rw [hframe]
    · show (d.joinQueue o.sector).cursors = _
      rw [hframe]
    · rw [show e.mount.repair = _ from hrepair (by rw [hstep]; exact Nat.min_le_left _ _), hstep, List.length_cons]
      omega

/-- Sectors kept by the walk: each takes its state, owner and page map (R134). -/
theorem foldl_placed_spec (isLast : OwnedSector → Bool) (l : List OwnedSector) (d : Device)
    (hn : (l.map OwnedSector.sector).Nodup) :
    let e := l.foldl (fun d o => d.placeOwned (isLast o) o) d
    e = { d with sectors := e.sectors } ∧
      (∀ o ∈ l, o.sector < 256 → e.sector o.sector = o.placed (isLast o) (d.incarnation o.stream) (d.sector o.sector)) ∧
      ∀ n, n ∉ l.map OwnedSector.sector → e.sector n = d.sector n := by
  induction l generalizing d with
  | nil => exact ⟨rfl, nofun, fun n _ => rfl⟩
  | cons o l ih =>
    intro e
    obtain ⟨ho, hl⟩ := List.nodup_cons.mp (List.map_cons ▸ hn)
    obtain ⟨hframe, hplaced, hother⟩ := ih (d.placeOwned (isLast o) o) hl
    have hone : d.placeOwned (isLast o) o = { d with sectors := (d.placeOwned (isLast o) o).sectors } := by
      rw [Device.placeOwned_eq]
      exact Device.setSector_frame _ _ _
    have he : e = l.foldl (fun d o => d.placeOwned (isLast o) o) (d.placeOwned (isLast o) o) := rfl
    rw [← he] at hframe hplaced hother
    have hinc (st : Fin 16) : (d.placeOwned (isLast o) o).incarnation st = d.incarnation st := by rw [hone]; rfl
    refine ⟨hframe.trans (congrArg (fun x : Device => { x with sectors := e.sectors }) hone), fun o' ho' hlt => ?_,
      fun n hno => ?_⟩
    · rcases List.mem_cons.mp ho' with rfl | ho'
      · rw [hother _ ho, Device.placeOwned_eq, Device.sector_setSector _ _ _ hlt]
      · have hne : o'.sector ≠ o.sector := fun h => ho (h ▸ List.mem_map.mpr ⟨o', ho', rfl⟩)
        rw [hplaced o' ho' hlt, hinc, Device.placeOwned_eq, Device.sector_setSector_other _ _ _ _ hne]
    · rw [List.map_cons, List.mem_cons, not_or] at hno
      rw [hother n hno.2, Device.placeOwned_eq, Device.sector_setSector_other _ _ _ _ hno.1]

/-- The sectors a walk of a stream's owned sectors keeps, and those it drops (R134). -/
def walked (own : List OwnedSector) : List OwnedSector × List OwnedSector := walk none (own.foldr insertOwned [])

theorem walked_perm (own : List OwnedSector) : ((walked own).1 ++ (walked own).2).Perm own :=
  (walk_perm none _).trans (sortOwned_perm own)

/-- A stream's chain after the walk, and what else the pass over it changes (R134). -/
structure Device.ChainMounted (d e : Device) (st : Fin 16) (b : StreamBody) (kept dropped : List OwnedSector) : Prop where
  frame : d.mounts e
  queue : e.eraseQueue = d.eraseQueue ++ dropped.map OwnedSector.sector
  repair : d.mount.repair ≤ 65535 → e.mount.repair = min 65535 (d.mount.repair + dropped.length)
  cursors : e.cursors = d.cursors
  droppedSector : ∀ o ∈ dropped, o.sector < 256 → e.sector o.sector = (d.sector o.sector).cleared .queued d.newestSerial
  keptSector : ∀ o ∈ kept, o.sector < 256 → e.sector o.sector =
    o.placed (kept.getLast?.any fun x => x.sector == o.sector) (d.incarnation o.stream) (d.sector o.sector)
  others : ∀ n, n ∉ kept.map OwnedSector.sector → n ∉ dropped.map OwnedSector.sector → e.sector n = d.sector n
  streams : e.streams = (d.setBody st (some (e.counted { b with
    chain := kept.map OwnedSector.sector
    next := match kept.getLast? with | some o => o.last + 1 | none => b.next }))).streams

theorem Device.mountChain_spec {d : Device} {st : Fin 16} {b : StreamBody} {own : List OwnedSector} (hs : d.stream st = some b)
    (hn : (own.map OwnedSector.sector).Nodup) :
    d.ChainMounted (d.mountChain st own) st b (walked own).1 (walked own).2 := by
  have hall : (((walked own).1 ++ (walked own).2).map OwnedSector.sector).Nodup := ((walked_perm own).map _).nodup_iff.mpr hn
  rw [List.map_append, List.nodup_append] at hall
  obtain ⟨hn1, hn2, hdis⟩ := hall
  have hchain : d.mountChain st own = (((((walked own).1.foldl
      (fun d o => d.placeOwned ((walked own).1.getLast?.any fun x => x.sector == o.sector) o)
      ((walked own).2.foldl (fun d o => (d.joinQueue o.sector).addRepair) d)).setBody st (some { b with
        chain := (walked own).1.map OwnedSector.sector
        next := match (walked own).1.getLast? with | some o => o.last + 1 | none => b.next })).recount st).quietHigh st) := by
    rw [Device.mountChain, hs]
    rfl
  rw [hchain]
  generalize (walked own).1 = kept at *
  generalize (walked own).2 = dropped at *
  obtain ⟨hq, hstreams, hcursors, hrepair⟩ := foldl_dropped_spec dropped d
  generalize dropped.foldl (fun d o => (d.joinQueue o.sector).addRepair) d = d1 at *
  obtain ⟨hframe, hplaced, hother⟩ := foldl_placed_spec (fun o => kept.getLast?.any fun x => x.sector == o.sector) kept d1 hn1
  generalize kept.foldl (fun d o => d.placeOwned (kept.getLast?.any fun x => x.sector == o.sector) o) d1 = d2 at *
  rw [Device.recountQuiet_eq (Device.stream_setBody _ _ _), Device.setBody_setBody]
  have hmounts : d1.mounts d2 := hframe.trans (by rw [hframe])
  have hinc (st' : Fin 16) : d1.incarnation st' = d.incarnation st' := by rw [Device.incarnation, hstreams, Device.incarnation]
  have hsector (n : Nat) (x : Option StreamBody) : (d2.setBody st x).sector n = d2.sector n := rfl
  refine ⟨(hq.frame.trans hmounts).trans (d2.mounts_setBody st _), ?_, fun h => ?_, ?_, fun o ho hlt => ?_, fun o ho hlt => ?_,
    fun n h1 h2 => ?_, ?_⟩
  · rw [Device.setBody_eraseQueue, hframe]
    exact hq.queue
  · rw [Device.setBody_mount, hframe]
    exact hrepair h
  · rw [Device.setBody_cursors, hframe]
    exact hcursors
  · have hmem : o.sector ∈ dropped.map OwnedSector.sector := List.mem_map.mpr ⟨o, ho, rfl⟩
    rw [hsector, hother _ (fun h => hdis _ h _ hmem rfl), hq.sector _ hlt, if_pos hmem]
  · have hmem : o.sector ∈ kept.map OwnedSector.sector := List.mem_map.mpr ⟨o, ho, rfl⟩
    have hnot : o.sector ∉ dropped.map OwnedSector.sector := fun h => hdis _ hmem _ h rfl
    rw [hsector, hplaced o ho hlt, hinc, hq.other hnot]
  · rw [hsector, hother n h1, hq.other h2]
  · have hs2 : d2.streams = d.streams := (congrArg Device.streams hframe).trans hstreams
    simp only [Device.setBody, Device.incarnation, hs2]
    rfl

/-! ### Trim (R136) -/

/-- A reader below a trim's first sequence, raised to it (R136). -/
def Cursor.trimmed (x : Nat) (c : Cursor) : Cursor :=
  if c.committed < x then
    { c with
      committed := x, delivered := max c.delivered x, lost := min 65535 (c.lost + (x - c.committed)), recCommitted := x
      recLost := min 65535 (c.lost + (x - c.committed)) }
  else c

/-- Is a port's reader below a sequence? -/
def Device.readsBelow (d : Device) (st : Fin 16) (x : Nat) (q : Port) : Bool :=
  match d.cursor st q with | some c => decide (c.committed < x) | none => false

theorem Device.trimCursor_spec (d : Device) (st : Fin 16) (x : Nat) (p : Port) :
    let e := d.trimCursor st x p
    e = { d with cursors := e.cursors, mount := { d.mount with repair := e.mount.repair } } ∧
      e.cursor st p = (d.cursor st p).map (Cursor.trimmed x) ∧ (∀ q, q ≠ p → e.cursor st q = d.cursor st q) ∧
      (∀ st' q, st' ≠ st → e.cursor st' q = d.cursor st' q) ∧
      (d.mount.repair ≤ 65535 → e.mount.repair = min 65535 (d.mount.repair + if d.readsBelow st x p then 1 else 0)) := by
  intro e
  cases hc : d.cursor st p with
  | none =>
    have he : e = d := by simp [e, Device.trimCursor, hc]
    rw [he]
    exact ⟨rfl, hc, fun q _ => rfl, fun st' q _ => rfl, fun h => by simp [Device.readsBelow, hc, h]⟩
  | some c =>
    by_cases hlow : c.committed < x
    · have he : e = (d.setCursor st p (some (c.trimmed x))).addRepair := by
        simp only [e, Device.trimCursor, hc, if_pos hlow, Cursor.trimmed]
        rfl
      rw [he]
      refine ⟨rfl, Device.cursor_setCursor _ _ _ _, fun q hq => Device.cursor_setCursor_other _ _ _ _ _ _ (.inr hq),
        fun st' q h => Device.cursor_setCursor_other _ _ _ _ _ _ (.inl h), fun _ => ?_⟩
      simp only [Device.readsBelow, hc, hlow, decide_true, if_true]
      rfl
    · have he : e = d := by simp [e, Device.trimCursor, hc, hlow]
      rw [he]
      refine ⟨rfl, by rw [hc, Option.map_some, Cursor.trimmed, if_neg hlow], fun q _ => rfl, fun st' q _ => rfl, fun h => ?_⟩
      simp [Device.readsBelow, hc, hlow, h]

/-- Every reader of a stream brought up to a sequence by a trim (R136). -/
def Device.trimCursors (d : Device) (st : Fin 16) (x : Nat) : Device :=
  ((d.trimCursor st x .A).trimCursor st x .B).trimCursor st x .C

theorem Device.trimCursors_spec (d : Device) (st : Fin 16) (x : Nat) :
    let e := d.trimCursors st x
    e = { d with cursors := e.cursors, mount := { d.mount with repair := e.mount.repair } } ∧
      (∀ q, e.cursor st q = (d.cursor st q).map (Cursor.trimmed x)) ∧
      (∀ st' q, st' ≠ st → e.cursor st' q = d.cursor st' q) ∧
      (d.mount.repair ≤ 65535 → e.mount.repair = min 65535 (d.mount.repair + portList.countP (d.readsBelow st x))) := by
  unfold Device.trimCursors
  obtain ⟨fa, sa, oa, ta, ra⟩ := d.trimCursor_spec st x .A
  generalize d.trimCursor st x .A = a at *
  obtain ⟨fb, sb, ob, tb, rb⟩ := a.trimCursor_spec st x .B
  generalize a.trimCursor st x .B = b at *
  obtain ⟨fc, sc, oc, tc, rc⟩ := b.trimCursor_spec st x .C
  generalize b.trimCursor st x .C = c at *
  refine ⟨?_, fun q => ?_, fun st' q h => (tc st' q h).trans ((tb st' q h).trans (ta st' q h)), fun h => ?_⟩
  · exact fc.trans (congrArg (fun y : Device => { y with
      cursors := c.cursors, mount := { y.mount with repair := c.mount.repair } }) (fb.trans
        (congrArg (fun y : Device => { y with
          cursors := b.cursors, mount := { y.mount with repair := b.mount.repair } }) fa)))
  · cases q with
    | A => rw [oc .A (by decide), ob .A (by decide), sa]
    | B => rw [oc .B (by decide), sb, oa .B (by decide)]
    | C => rw [sc, ob .C (by decide), oa .C (by decide)]
  · have hb : a.readsBelow st x .B = d.readsBelow st x .B := by rw [Device.readsBelow, oa .B (by decide), Device.readsBelow]
    have hcc : b.readsBelow st x .C = d.readsBelow st x .C := by
      rw [Device.readsBelow, ob .C (by decide), oa .C (by decide), Device.readsBelow]
    have h1 := ra h
    have h2 := rb (by rw [h1]; exact Nat.min_le_left _ _)
    have h3 := rc (by rw [h2]; exact Nat.min_le_left _ _)
    have hcount : portList.countP (d.readsBelow st x) = (if d.readsBelow st x .A then 1 else 0) +
        ((if d.readsBelow st x .B then 1 else 0) + if d.readsBelow st x .C then 1 else 0) := by
      cases hA : d.readsBelow st x .A <;> cases hB : d.readsBelow st x .B <;> cases hC : d.readsBelow st x .C <;>
        simp [portList, hA, hB, hC]
    rw [hcount, h3, h2, h1, hb, hcc]
    omega

/-- One head trimmed: it is queued, and every reader is brought up to the first sequence that stays (R136). -/
def Device.trimmedHead (d : Device) (st : Fin 16) (b : StreamBody) (head : Nat) (rest : List Nat) : Device :=
  (((d.joinQueue head).addRepair).setChain st rest).trimCursors st
    ((((d.joinQueue head).addRepair).setChain st rest).chainOldest rest b.next)

theorem Device.trim_cons {d : Device} {st : Fin 16} {b : StreamBody} {head : Nat} {rest : List Nat} (hs : d.stream st = some b)
    (hc : b.chain = head :: rest) (k : Nat) : d.trim st (k + 1) = (d.trimmedHead st b head rest).trim st k := by
  rw [Device.trim, hs]
  dsimp only
  rw [hc]
  rfl

/-- What a trim of one head changes (R136). -/
structure Device.HeadTrimmed (d e : Device) (st : Fin 16) (b : StreamBody) (head : Nat) (rest : List Nat) : Prop where
  queues : d.Queues e [head]
  streams : e.streams = (d.setBody st (some { b with chain := rest })).streams
  cursor : ∀ q, e.cursor st q = (d.cursor st q).map (Cursor.trimmed (e.chainOldest rest b.next))
  otherCursor : ∀ st' q, st' ≠ st → e.cursor st' q = d.cursor st' q
  repair : d.mount.repair ≤ 65535 → e.mount.repair =
    min 65535 (d.mount.repair + 1 + portList.countP (d.readsBelow st (e.chainOldest rest b.next)))

theorem Device.trimmedHead_spec {d : Device} {st : Fin 16} {b : StreamBody} (hs : d.stream st = some b) (head : Nat)
    (rest : List Nat) : d.HeadTrimmed (d.trimmedHead st b head rest) st b head rest := by
  have hframe := d.joinQueue_frame head
  have hstream : ((d.joinQueue head).addRepair).stream st = some b := by
    have : ((d.joinQueue head).addRepair).streams = d.streams := by
      show (d.joinQueue head).streams = _
      rw [hframe]
    rw [Device.stream, this]
    exact hs
  have hset : ((d.joinQueue head).addRepair).setChain st rest =
      ((d.joinQueue head).addRepair).setBody st (some { b with chain := rest }) := by
    rw [Device.setChain, hstream]
  have hqueues : d.Queues (((d.joinQueue head).addRepair).setBody st (some { b with chain := rest })) [head] :=
    (d.queues_joinQueue head).quiet (.none ((Device.mounts_addRepair _).trans (Device.mounts_setBody _ _ _)) rfl rfl)
  have hstreams : (((d.joinQueue head).addRepair).setBody st (some { b with chain := rest })).streams =
      (d.setBody st (some { b with chain := rest })).streams := by
    have : (d.joinQueue head).streams = d.streams := by rw [hframe]
    simp only [Device.setBody, Device.incarnation, Device.addRepair, this]
  have hcursor (st' : Fin 16) (q : Port) : (((d.joinQueue head).addRepair).setBody st (some { b with chain := rest })).cursor st' q =
      d.cursor st' q := by
    have : (d.joinQueue head).cursors = d.cursors := by rw [hframe]
    simp only [Device.cursor, Device.setBody, Device.addRepair, this]
  have hrepair : (((d.joinQueue head).addRepair).setBody st (some { b with chain := rest })).mount.repair =
      min 65535 (d.mount.repair + 1) := by
    show min 65535 ((d.joinQueue head).mount.repair + 1) = _
    rw [hframe]
  unfold Device.trimmedHead
  rw [hset]
  generalize ((d.joinQueue head).addRepair).setBody st (some { b with chain := rest }) = m at *
  obtain ⟨hf, hself, hother, hcount⟩ := m.trimCursors_spec st (m.chainOldest rest b.next)
  generalize he : m.trimCursors st (m.chainOldest rest b.next) = e at *
  have hx : e.chainOldest rest b.next = m.chainOldest rest b.next := Device.chainOldest_congr (by rw [hf]) _ _
  have hbelow : d.readsBelow st = m.readsBelow st := by
    funext x q
    rw [Device.readsBelow, ← hcursor, Device.readsBelow]
  refine ⟨hqueues.quiet (.none (hf.trans (by rw [hf])) (by rw [hf]) (by rw [hf])), ?_, fun q => ?_, fun st' q h => ?_,
    fun h => ?_⟩
  · rw [hf]
    exact hstreams
  · rw [hself, hcursor, hx]
  · rw [hother st' q h, hcursor]
  · rw [hcount (by rw [hrepair]; exact Nat.min_le_left _ _), hrepair, hx, hbelow]
    omega

/-- A stream whose chain has been trimmed: its heads queued, its body with the rest of its chain. -/
structure Device.Trimmed (d e : Device) (st : Fin 16) (b : StreamBody) (k : Nat) : Prop where
  queues : d.Queues e (b.chain.take k)
  streams : e.streams = (d.setBody st (some { b with chain := b.chain.drop k })).streams
  otherCursor : ∀ st' q, st' ≠ st → e.cursor st' q = d.cursor st' q

theorem Device.setBody_self {d : Device} {st : Fin 16} {b : StreamBody} (h : d.stream st = some b) : d.setBody st (some b) = d := by
  have hself : d.streams.set st.val ⟨d.incarnation st, some b⟩ = d.streams := by
    refine Vector.ext fun i hi => ?_
    rw [Vector.getElem_set]
    split
    · rename_i heq
      subst heq
      rw [← h]
      rfl
    · rfl
  rw [Device.setBody, hself]

theorem Device.trim_spec {d : Device} {st : Fin 16} {b : StreamBody} (hs : d.stream st = some b) (k : Nat) :
    d.Trimmed (d.trim st k) st b k := by
  induction k generalizing d b with
  | zero =>
    refine ⟨.none (.refl d) rfl rfl, ?_, fun st' q _ => rfl⟩
    show d.streams = (d.setBody st (some b)).streams
    rw [Device.setBody_self hs]
  | succ k ih =>
    cases hc : b.chain with
    | nil =>
      have hsame : d.trim st (k + 1) = d := by
        rw [Device.trim, hs]
        dsimp only
        rw [hc]
      rw [hsame]
      refine ⟨by rw [hc]; exact .none (.refl d) rfl rfl, ?_, fun st' q _ => rfl⟩
      have hb : { b with chain := b.chain.drop (k + 1) } = b := by
        rw [hc, List.drop_nil, ← hc]
      rw [hb, Device.setBody_self hs]
    | cons head rest =>
      rw [Device.trim_cons hs hc]
      have h1 := Device.trimmedHead_spec hs head rest
      generalize d.trimmedHead st b head rest = m at h1
      have hm : m.stream st = some { b with chain := rest } := by
        rw [Device.stream, h1.streams]
        exact Device.stream_setBody _ _ _
      have h2 := ih hm
      refine ⟨?_, ?_, fun st' q h => (h2.otherCursor st' q h).trans (h1.otherCursor st' q h)⟩
      · rw [hc]
        exact h1.queues.trans h2.queues
      · rw [h2.streams, hc]
        show m.streams.set st.val ⟨m.incarnation st, _⟩ = _
        rw [Device.incarnation, h1.streams]
        simp [Device.setBody]

/-! ### Reclaim and trim of one stream (R136) -/

theorem Device.quietBacklog_frame (d : Device) (st : Fin 16) (p : Port) :
    d.quietBacklog st p = { d with cursors := (d.quietBacklog st p).cursors } := by
  unfold Device.quietBacklog
  split <;> rfl

theorem Device.quietBacklog_other (d : Device) {st st' : Fin 16} (p q : Port) (h : st' ≠ st) :
    (d.quietBacklog st p).cursor st' q = d.cursor st' q := by
  unfold Device.quietBacklog
  split
  · exact Device.cursor_setCursor_other _ _ _ _ _ _ (.inl h)
  · rfl

theorem Device.quietBacklog_cursor (d : Device) {st : Fin 16} (p q : Port) {c : Cursor} :
    (d.quietBacklog st p).cursor st q = some c → ∃ c', d.cursor st q = some c' ∧ c = { c' with flag := c.flag } := by
  intro h
  unfold Device.quietBacklog at h
  split at h
  · rename_i b c' hs hc
    by_cases hq : q = p
    · subst hq
      rw [Device.cursor_setCursor] at h
      obtain rfl := Option.some.inj h
      exact ⟨c', hc, rfl⟩
    · rw [Device.cursor_setCursor_other _ _ _ _ _ _ (.inr hq)] at h
      exact ⟨c, h, rfl⟩
  · exact ⟨c, h, rfl⟩

/-- Every backlog flag of a stream computed without an event (R136). -/
def Device.quietBacklogs (d : Device) (st : Fin 16) : Device :=
  ((d.quietBacklog st .A).quietBacklog st .B).quietBacklog st .C

theorem Device.quietBacklogs_frame (d : Device) (st : Fin 16) :
    d.quietBacklogs st = { d with cursors := (d.quietBacklogs st).cursors } := by
  unfold Device.quietBacklogs
  generalize hc : ((d.quietBacklog st .A).quietBacklog st .B).quietBacklog st .C = e
  rw [← hc, Device.quietBacklog_frame, hc]
  have hb := Device.quietBacklog_frame (d.quietBacklog st .A) st .B
  have ha := Device.quietBacklog_frame d st .A
  exact congrArg (fun y : Device => { y with cursors := e.cursors }) (hb.trans
    (congrArg (fun y : Device => { y with cursors := ((d.quietBacklog st .A).quietBacklog st .B).cursors }) ha))

theorem Device.quietBacklogs_cursor (d : Device) {st : Fin 16} (q : Port) {c : Cursor}
    (h : (d.quietBacklogs st).cursor st q = some c) : ∃ c', d.cursor st q = some c' ∧ c = { c' with flag := c.flag } := by
  obtain ⟨c1, h1, e1⟩ := Device.quietBacklog_cursor _ _ _ h
  obtain ⟨c2, h2, e2⟩ := Device.quietBacklog_cursor _ _ _ h1
  obtain ⟨c3, h3, e3⟩ := Device.quietBacklog_cursor _ _ _ h2
  refine ⟨c3, h3, ?_⟩
  rw [e1, e2, e3]

/-- Heads that qualify leave for the erase queue at mount, in a chain with nothing suspect (R24, R136). -/
theorem Device.mountReclaim_spec {d : Device} {st : Fin 16} {b : StreamBody} (hs : d.stream st = some b) (hn : b.chain.Nodup)
    (hc : ∀ n ∈ b.chain, (d.sector n).suspect = false) :
    let gone := b.chain.takeWhile fun n => (d.sector n).reclaimable (d.leastCommitted st b)
    let stay := b.chain.drop gone.length
    ∃ e, d.mountReclaim st = e.setBody st (some (e.counted { b with chain := stay })) ∧ d.Queues e gone ∧
      e.streams = d.streams ∧ e.cursors = d.cursors := by
  obtain ⟨gone', stay', hchain, htake, hgone, hstay⟩ := takeHeads_eq d (d.leastCommitted st b) b.chain
    (x := (d, [])) (.nil d) hn (fun _ _ => List.not_mem_nil)
  have hprefix : b.chain.takeWhile (fun n => (d.sector n).reclaimable (d.leastCommitted st b)) = gone' := by
    rw [hchain, List.takeWhile_append_of_pos hgone]
    cases stay' with
    | nil => simp
    | cons n rest => rw [List.takeWhile_cons_of_neg (by rw [hstay n rfl]; nofun), List.append_nil]
  intro gone stay
  have hstay' : stay = stay' := by
    show b.chain.drop (b.chain.takeWhile _).length = _
    rw [hprefix, hchain, List.drop_left]
  obtain ⟨hfold, -⟩ := foldl_releaseSector_unsuspect (x := (d, [])) (chain := gone') fun n hn' =>
    hc n (by rw [hchain]; exact List.mem_append_left _ hn')
  have hq := d.queues_foldl gone'
  have hsame : (gone'.foldl Device.joinQueue d).streams = d.streams ∧ (gone'.foldl Device.joinQueue d).cursors = d.cursors := by
    rw [Device.foldl_joinQueue_frame]
    exact ⟨rfl, rfl⟩
  refine ⟨gone'.foldl Device.joinQueue d, ?_, by rw [show gone = gone' from hprefix]; exact hq, hsame⟩
  have hse : (gone'.foldl Device.joinQueue d).stream st = some b := by
    rw [Device.stream, hsame.1]
    exact hs
  rw [Device.mountReclaim, hs]
  dsimp only
  rw [htake]
  dsimp only
  rw [hfold, Device.recountQuiet_eq (Device.setChain_self hse stay'), hstay', Device.setChain, hse]
  exact Device.setBody_setBody _ _ _ _

/-- A stream after reclaim and trim (R136): `gone` heads queued, the rest counted, no reader of another stream moved. -/
structure Device.Passed (d e : Device) (st : Fin 16) (b : StreamBody) (gone : Nat) : Prop where
  queues : d.Queues e (b.chain.take gone)
  streams : e.streams = (d.setBody st (some (e.counted { b with chain := b.chain.drop gone }))).streams
  otherCursor : ∀ st' q, st' ≠ st → e.cursor st' q = d.cursor st' q

theorem Device.quietBacklogs_other (d : Device) {st st' : Fin 16} (q : Port) (h : st' ≠ st) :
    (d.quietBacklogs st).cursor st' q = d.cursor st' q := by
  unfold Device.quietBacklogs
  rw [Device.quietBacklog_other _ _ _ h, Device.quietBacklog_other _ _ _ h, Device.quietBacklog_other _ _ _ h]

/-- The passes over one stream, step by step: heads that qualify, heads beyond the quota, counters, flags. -/
theorem Device.mountPasses_eq {d e : Device} {st : Fin 16} {b : StreamBody} {stay : List Nat}
    (h : d.mountReclaim st = e.setBody st (some (e.counted { b with chain := stay }))) :
    d.mountPasses st = ((((e.setBody st (some (e.counted { b with chain := stay }))).trim st
      (stay.length - b.quota)).recount st).quietHigh st).quietBacklogs st := by
  rw [Device.mountPasses, h]
  dsimp only
  rw [Device.stream_setBody]
  rfl

theorem Device.counted_congr {d e : Device} (h : e.sectors = d.sectors) (b : StreamBody) : e.counted b = d.counted b := by
  unfold Device.counted
  rw [Device.chainUsed_congr h, Device.chainOldest_congr h]

theorem Device.streams_setBody {d e : Device} (h : e.streams = d.streams) (st : Fin 16) (b : Option StreamBody) :
    (e.setBody st b).streams = (d.setBody st b).streams := by
  simp only [Device.setBody, Device.incarnation, h]

theorem Device.mountPasses_spec {d : Device} {st : Fin 16} {b : StreamBody} (hs : d.stream st = some b) (hn : b.chain.Nodup)
    (hc : ∀ n ∈ b.chain, (d.sector n).suspect = false) :
    let reclaimed := (b.chain.takeWhile fun n => (d.sector n).reclaimable (d.leastCommitted st b)).length
    d.Passed (d.mountPasses st) st b (max reclaimed (b.chain.length - b.quota)) := by
  intro reclaimed
  obtain ⟨e, heq, hq, hstreams, hcursors⟩ := Device.mountReclaim_spec hs hn hc
  rw [Device.mountPasses_eq heq]
  have hlen : reclaimed ≤ b.chain.length := (List.takeWhile_sublist _).length_le
  have hgone : b.chain.takeWhile (fun n => (d.sector n).reclaimable (d.leastCommitted st b)) = b.chain.take reclaimed :=
    (List.prefix_iff_eq_take.mp (List.takeWhile_prefix _))
  rw [hgone] at hq
  have hmax : max reclaimed (b.chain.length - b.quota) = reclaimed + ((b.chain.drop reclaimed).length - b.quota) := by
    rw [List.length_drop]
    omega
  rw [hmax]
  show d.Passed (((((e.setBody st (some (e.counted { b with chain := b.chain.drop reclaimed }))).trim st
    ((b.chain.drop reclaimed).length - b.quota)).recount st).quietHigh st).quietBacklogs st) _ _ _
  generalize (b.chain.drop reclaimed).length - b.quota = k
  have htrim := Device.trim_spec (d := e.setBody st (some (e.counted { b with chain := b.chain.drop reclaimed })))
    (Device.stream_setBody _ _ _) k
  generalize (e.setBody st (some (e.counted { b with chain := b.chain.drop reclaimed }))).trim st k = m at htrim
  have hm : m.stream st = some { e.counted { b with chain := b.chain.drop reclaimed } with
      chain := (b.chain.drop reclaimed).drop k } := by
    rw [Device.stream, htrim.streams]
    exact Device.stream_setBody _ _ _
  rw [Device.recountQuiet_eq hm]
  have hbody : m.counted { e.counted { b with chain := b.chain.drop reclaimed } with
      chain := (b.chain.drop reclaimed).drop k } = m.counted { b with chain := b.chain.drop (reclaimed + k) } := by
    rw [List.drop_drop]
    rfl
  rw [hbody]
  have hf := Device.quietBacklogs_frame (m.setBody st (some (m.counted { b with chain := b.chain.drop (reclaimed + k) }))) st
  have hsectors := congrArg Device.sectors hf
  have hcount := Device.counted_congr (d := m) hsectors
  refine ⟨?_, ?_, fun st' q h => ?_⟩
  · have h1 : d.Queues (e.setBody st (some (e.counted { b with chain := b.chain.drop reclaimed }))) (b.chain.take reclaimed) :=
      hq.quiet (.none (e.mounts_setBody st _) rfl rfl)
    have h2 := h1.trans htrim.queues
    have h3 := h2.quiet (.none (m.mounts_setBody st (some (m.counted { b with chain := b.chain.drop (reclaimed + k) }))) rfl rfl)
    rw [List.take_add]
    exact h3.quiet (.none (by unfold Device.mounts; rw [hf]) (congrArg Device.eraseQueue hf :) hsectors)
  · rw [hcount]
    refine (congrArg Device.streams hf).trans ?_
    generalize m.counted { b with chain := b.chain.drop (reclaimed + k) } = x
    have h1 := Device.streams_setBody htrim.streams st (some x)
    rw [Device.setBody_setBody, Device.setBody_setBody] at h1
    exact h1.trans (Device.streams_setBody hstreams st (some x))
  · rw [Device.quietBacklogs_other _ _ h]
    exact (htrim.otherCursor st' q h).trans (by
      show e.cursor st' q = _
      rw [Device.cursor, hcursors, Device.cursor])

end Sys2Proof.Machine
end

