-- ==== Sys2Proof/Proofs/MountedTables.lean ====
section
/-! The tables a mount hands over: every data sector in one place, from the classes its scan found (R137, R138). -/

namespace Sys2Proof.Machine

open Sys2Proof

-- One process elaborates the whole text: proofs taken in turn stay within its memory.
set_option Elab.async false

/-! ### Lists taken apart by stream -/

/-- Lists gathered over the streams, when one stream's list is another. -/
theorem flatMap_replace {α : Type} [DecidableEq α] {f g : Fin 16 → List α} {st : Fin 16} (h : ∀ st', st' ≠ st → f st' = g st') :
    ((List.finRange 16).flatMap f ++ g st).Perm ((List.finRange 16).flatMap g ++ f st) := by
  have hperm := List.perm_cons_erase (List.mem_finRange st)
  have hrest : ((List.finRange 16).erase st).flatMap f = ((List.finRange 16).erase st).flatMap g := by
    refine List.flatMap_congr fun st' hm => h st' fun heq => ?_
    subst heq
    exact (List.nodup_finRange 16).not_mem_erase hm
  have hf : ((List.finRange 16).flatMap f).Perm (f st ++ ((List.finRange 16).erase st).flatMap f) := hperm.flatMap_right f
  have hg : ((List.finRange 16).flatMap g).Perm (g st ++ ((List.finRange 16).erase st).flatMap g) := hperm.flatMap_right g
  rw [hrest] at hf
  refine List.perm_iff_count.mpr fun a => ?_
  have h1 := List.perm_iff_count.mp hf a
  have h2 := List.perm_iff_count.mp hg a
  simp only [List.count_append] at h1 h2 ⊢
  omega

/-- A list is its parts by stream. -/
theorem perm_flatMap_filter {α : Type} [DecidableEq α] (key : α → Fin 16) (l : List α) :
    l.Perm ((List.finRange 16).flatMap fun st => l.filter fun x => key x == st) := by
  induction l with
  | nil => simp
  | cons x l ih =>
    have h := flatMap_replace (f := fun st => (x :: l).filter fun x => key x == st)
      (g := fun st => l.filter fun x => key x == st) (st := key x) fun st' hne => by
        rw [List.filter_cons_of_neg]
        simpa using fun h => hne h.symm
    have hself : (x :: l).filter (fun y => key y == key x) = x :: l.filter fun y => key y == key x := by simp
    rw [hself] at h
    have h' := h.trans List.perm_middle
    rw [← List.cons_append] at h'
    exact ((ih.cons x).trans ((List.perm_append_right_iff _).mp h').symm)

/-! ### The chains -/

/-- A stream's chain, empty where there is none. -/
def Device.chainOf (d : Device) (st : Fin 16) : List Nat := match d.stream st with | some b => b.chain | none => []

theorem Device.chained_eq (d : Device) : d.chained = (List.finRange 16).flatMap d.chainOf := rfl

theorem Device.places_eq (d : Device) : d.places = d.chained ++ d.freePool ++ d.eraseQueue ++ d.badList := rfl

theorem Device.chainOf_some {d : Device} {st : Fin 16} {b : StreamBody} (h : d.stream st = some b) : d.chainOf st = b.chain := by
  rw [Device.chainOf, h]

/-- One stream's chain replaced. -/
theorem Device.chained_replace {d e : Device} {st : Fin 16} (h : ∀ st', st' ≠ st → e.chainOf st' = d.chainOf st') :
    (e.chained ++ d.chainOf st).Perm (d.chained ++ e.chainOf st) := flatMap_replace h

theorem Device.chained_congr {d e : Device} (h : ∀ st, e.chainOf st = d.chainOf st) : e.chained = d.chained :=
  List.flatMap_congr fun st _ => h st

/-! ### The tables while a mount builds them -/

/-- The replayed erase count of a sector. -/
def Mount.countOf (m : Mount) (n : Nat) : Nat := if h : n < 256 then m.counts[n] else 0

/-- The order of the free pool (R13). -/
def poolBefore (count : Nat → Nat) (x y : Nat) : Prop := count x < count y ∨ count x = count y ∧ x < y

/-- The tables while chains are built, the sectors `pending` in none: every data sector in one place or pending, the
descriptors of those placed, and the lists as the scan found them (R137). -/
structure Device.Mounting (e : Device) (m : Mount) (serial : Nat) (pending : List Nat) : Prop where
  mark : e.newestSerial = serial
  bad : e.badList = m.bad
  queue : ∃ later, e.eraseQueue = m.released ++ later
  pool : e.freePool.Perm m.freeFound
  sorted : e.freePool.Pairwise (poolBefore m.countOf)
  places : (e.chained ++ pending ++ (e.freePool ++ e.eraseQueue ++ e.badList)).Perm dataSectors
  count : ∀ n, 4 ≤ n → n < 256 → (e.sector n).eraseCount = m.countOf n ∧ (e.sector n).suspect = false
  free : ∀ n ∈ e.freePool, e.sector n = (e.sector n).cleared .free 0
  worn : ∀ n ∈ e.badList, e.sector n = (e.sector n).cleared .bad 0
  queued : ∀ n ∈ e.eraseQueue, e.sector n = (e.sector n).cleared .queued serial

theorem dataSectors_nodup : dataSectors.Nodup := List.nodup_range'

section Mounting

variable {m : Mount} {serial : Nat} {pending : List Nat} {d : Device} (h : d.Mounting m serial pending)

include h

theorem Device.Mounting.nodup : (d.chained ++ pending ++ (d.freePool ++ d.eraseQueue ++ d.badList)).Nodup :=
  h.places.nodup_iff.mpr dataSectors_nodup

theorem Device.Mounting.bound {n : Nat} (hn : n ∈ d.chained ++ pending ++ (d.freePool ++ d.eraseQueue ++ d.badList)) :
    4 ≤ n ∧ n < 256 := mem_dataSectors.mp (h.places.mem_iff.mp hn)

theorem Device.Mounting.pending_bound {n : Nat} (hn : n ∈ pending) : 4 ≤ n ∧ n < 256 :=
  h.bound (List.mem_append_left _ (List.mem_append_right _ hn))

theorem Device.Mounting.apart {n : Nat} (hn : n ∈ d.chained ++ pending) :
    n ∉ d.freePool ∧ n ∉ d.eraseQueue ∧ n ∉ d.badList := by
  have hdis := (List.nodup_append.mp h.nodup).2.2 n hn
  refine ⟨fun hm => hdis n ?_ rfl, fun hm => hdis n ?_ rfl, fun hm => hdis n ?_ rfl⟩ <;> simp [hm]

/-- One move of the tables: sectors `l` leave chains or the pending for the queue, sectors `kept` the pending for
chains. -/
theorem Device.Mounting.moves {e : Device} {l kept pending' : List Nat} (frame : d.mounts e)
    (queue : e.eraseQueue = d.eraseQueue ++ l) (hl : ∀ n ∈ l, n < 256 → e.sector n = (d.sector n).cleared .queued d.newestSerial)
    (hkept : ∀ n ∈ kept, n ∈ pending ∧ (e.sector n).eraseCount = (d.sector n).eraseCount ∧
      (e.sector n).suspect = (d.sector n).suspect)
    (hother : ∀ n, n ∉ l → n ∉ kept → e.sector n = d.sector n)
    (hchains : (d.chained ++ pending).Perm (e.chained ++ pending' ++ l)) : e.Mounting m serial pending' := by
  have hsrc {n : Nat} (hn : n ∈ l) : n ∈ d.chained ++ pending := hchains.mem_iff.mpr (List.mem_append_right _ hn)
  have hlow {n : Nat} (hn : n ∈ l) : n < 256 := (h.bound (List.mem_append_left _ (hsrc hn))).2
  have hsame {n : Nat} (hn : n ∉ d.chained ++ pending) : e.sector n = d.sector n :=
    hother n (fun hm => hn (hsrc hm)) fun hm => hn (List.mem_append_right _ (hkept n hm).1)
  refine ⟨frame.serial.trans h.mark, frame.badList.trans h.bad, ?_, by rw [frame.freePool]; exact h.pool,
    by rw [frame.freePool]; exact h.sorted, ?_, fun n h4 h256 => ?_, fun n hn => ?_, fun n hn => ?_, fun n hn => ?_⟩
  · obtain ⟨later, hlater⟩ := h.queue
    exact ⟨later ++ l, by rw [queue, hlater, List.append_assoc]⟩
  · rw [frame.freePool, frame.badList, queue]
    refine List.perm_iff_count.mpr fun a => ?_
    have h1 := List.perm_iff_count.mp hchains a
    have h2 := List.perm_iff_count.mp h.places a
    simp only [List.count_append] at h1 h2 ⊢
    omega
  · obtain ⟨hcount, hsuspect⟩ := h.count n h4 h256
    by_cases hq : n ∈ l
    · rw [hl n hq h256]
      exact ⟨hcount, rfl⟩
    · by_cases hk : n ∈ kept
      · obtain ⟨-, h1, h2⟩ := hkept n hk
        exact ⟨h1.trans hcount, h2.trans hsuspect⟩
      · rw [hother n hq hk]
        exact ⟨hcount, hsuspect⟩
  · rw [frame.freePool] at hn
    rw [hsame fun hm => (h.apart hm).1 hn]
    exact h.free n hn
  · rw [frame.badList] at hn
    rw [hsame fun hm => (h.apart hm).2.2 hn]
    exact h.worn n hn
  · rw [queue] at hn
    rcases List.mem_append.mp hn with hn | hn
    · rw [hsame fun hm => (h.apart hm).2.1 hn]
      exact h.queued n hn
    · rw [hl n hn (hlow hn), h.mark]
      rfl

/-- Sectors queued from chains and from the pending. -/
theorem Device.Mounting.queues {e : Device} {l pending' : List Nat} (hq : d.Queues e l)
    (hchains : (d.chained ++ pending).Perm (e.chained ++ pending' ++ l)) : e.Mounting m serial pending' :=
  h.moves (kept := []) hq.frame hq.queue (fun n hn hlt => by rw [hq.sector n hlt, if_pos hn]) nofun
    (fun n hn _ => hq.other hn) hchains

end Mounting

/-! ### The tables before the chains (R137) -/

theorem Device.seedSector_eq (d : Device) (counts : Vector Nat 256) {n : Nat} (h : n < 256) :
    d.seedSector counts n = d.setSector n { Sector.blank with eraseCount := counts[n] } := dif_pos h

theorem Device.seedSector_frame (d : Device) (counts : Vector Nat 256) (n : Nat) :
    d.seedSector counts n = { d with sectors := (d.seedSector counts n).sectors } := by
  unfold Device.seedSector
  split
  · exact Device.setSector_frame _ _ _
  · rfl

theorem Device.foldl_seedSector (counts : Vector Nat 256) (l : List Nat) (d : Device) :
    let e := l.foldl (fun d n => d.seedSector counts n) d
    e = { d with sectors := e.sectors } ∧
      ∀ n (hn : n < 256), e.sector n = if n ∈ l then { Sector.blank with eraseCount := counts[n] } else d.sector n := by
  induction l generalizing d with
  | nil => exact ⟨rfl, fun n _ => (if_neg List.not_mem_nil).symm⟩
  | cons k l ih =>
    intro e
    obtain ⟨hframe, hsector⟩ := ih (d.seedSector counts k)
    refine ⟨hframe.trans (congrArg (fun x : Device => { x with sectors := e.sectors }) (d.seedSector_frame counts k)),
      fun n hn => (hsector n hn).trans ?_⟩
    by_cases hk : n = k
    · subst hk
      rw [Device.seedSector_eq _ _ hn, Device.sector_setSector _ _ _ hn]
      simp
    · have hsame : (d.seedSector counts k).sector n = d.sector n := by
        by_cases hlt : k < 256
        · rw [Device.seedSector_eq _ _ hlt, Device.sector_setSector_other _ _ _ _ hk]
        · rw [Device.seedSector, dif_neg hlt]
      rw [hsame]
      simp [hk]

/-- A sector of the bad list at mount (R137). -/
def Device.markBad (d : Device) (n : Nat) : Device := d.setSector n ((d.sector n).cleared .bad 0)

theorem Device.foldl_markBad (l : List Nat) (d : Device) :
    let e := l.foldl Device.markBad d
    e = { d with sectors := e.sectors } ∧
      ∀ n, n < 256 → e.sector n = if n ∈ l then (d.sector n).cleared .bad 0 else d.sector n := by
  induction l generalizing d with
  | nil => exact ⟨rfl, fun n _ => (if_neg List.not_mem_nil).symm⟩
  | cons k l ih =>
    intro e
    obtain ⟨hframe, hsector⟩ := ih (d.markBad k)
    refine ⟨hframe.trans (congrArg (fun x : Device => { x with sectors := e.sectors }) (Device.setSector_frame _ _ _)),
      fun n hn => (hsector n hn).trans ?_⟩
    have hset : (d.markBad k).sector n = if n = k then (d.sector k).cleared .bad 0 else d.sector n :=
      Device.sector_setSector_eq _ _ _ hn
    rw [hset]
    by_cases hk : n = k
    · subst hk
      simp [Sector.cleared]
    · simp [hk]

theorem Device.insertPool_sorted {d : Device} {c : Nat → Nat} (hc : ∀ k, (d.sector k).eraseCount = c k) {n : Nat} {l : List Nat}
    (hn : n ∉ l) (h : l.Pairwise (poolBefore c)) : (d.insertPool n l).Pairwise (poolBefore c) := by
  induction l with
  | nil => exact List.pairwise_singleton _ _
  | cons x l ih =>
    obtain ⟨hx, hl⟩ := List.pairwise_cons.mp h
    obtain ⟨hne, hn⟩ := not_or.mp (List.mem_cons.not.mp hn)
    unfold Device.insertPool
    dsimp only
    rw [hc, hc]
    split
    · rename_i hlt
      simp only [Bool.or_eq_true, Bool.and_eq_true, decide_eq_true_eq, beq_iff_eq] at hlt
      refine List.pairwise_cons.mpr ⟨fun y hy => ?_, h⟩
      rcases List.mem_cons.mp hy with rfl | hy
      · exact hlt
      · have := hx y hy
        unfold poolBefore at *
        omega
    · rename_i hge
      simp only [Bool.or_eq_true, Bool.and_eq_true, decide_eq_true_eq, beq_iff_eq] at hge
      refine List.pairwise_cons.mpr ⟨fun y hy => ?_, ih hn hl⟩
      rcases (Device.insertPool_mem d n y l).mp hy with rfl | hy
      · unfold poolBefore
        omega
      · exact hx y hy

theorem Device.insertPool_perm (d : Device) (n : Nat) (l : List Nat) : (d.insertPool n l).Perm (n :: l) := by
  obtain ⟨before, after, rfl, heq, -⟩ := d.insertPool_place n l
  rw [heq]
  exact List.perm_middle

/-- Sectors found erased join the pool at their places, erase counts kept (R13, R137). -/
theorem Device.foldl_joinPool {c : Nat → Nat} (l : List Nat) (d : Device) (hc : ∀ k, (d.sector k).eraseCount = c k)
    (hn : (l ++ d.freePool).Nodup) (hs : d.freePool.Pairwise (poolBefore c)) :
    let e := l.foldl (fun d n => d.joinPool n (d.sector n).eraseCount) d
    e = { d with sectors := e.sectors, freePool := e.freePool } ∧ e.freePool.Perm (l ++ d.freePool) ∧
      e.freePool.Pairwise (poolBefore c) ∧ (∀ n, n ∉ l → e.sector n = d.sector n) ∧
      ∀ n ∈ l, n < 256 → e.sector n = { Sector.blank with state := .free, eraseCount := c n } := by
  induction l generalizing d with
  | nil => exact ⟨rfl, .refl _, hs, fun n _ => rfl, nofun⟩
  | cons k l ih =>
    intro e
    rw [List.cons_append] at hn
    obtain ⟨hk, hn⟩ := List.nodup_cons.mp hn
    have hcount (n : Nat) : ((d.setSector k { Sector.blank with state := .free, eraseCount := (d.sector k).eraseCount }).sector
        n).eraseCount = c n := by
      by_cases hnk : n = k
      · subst hnk
        by_cases hlt : n < 256
        · rw [Device.sector_setSector _ _ _ hlt]
          exact hc n
        · rw [← hc n]
          simp [Device.sector, hlt]
      · rw [Device.sector_setSector_other _ _ _ _ hnk]
        exact hc n
    have hpool : (d.joinPool k (d.sector k).eraseCount).freePool = (d.setSector k { Sector.blank with
        state := .free, eraseCount := (d.sector k).eraseCount }).insertPool k d.freePool := by
      rw [Device.joinPool]
      dsimp only
      rw [Device.setSector_freePool]
    have hperm := Device.insertPool_perm (d.setSector k { Sector.blank with
      state := .free, eraseCount := (d.sector k).eraseCount }) k d.freePool
    have hsorted := Device.insertPool_sorted hcount (fun h => hk (List.mem_append_right _ h)) hs
    rw [← hpool] at hperm hsorted
    have hstep (n : Nat) : (d.joinPool k (d.sector k).eraseCount).sector n = (d.setSector k { Sector.blank with
        state := .free, eraseCount := (d.sector k).eraseCount }).sector n := rfl
    have hframe1 := d.joinPool_frame k (d.sector k).eraseCount
    have he : e = l.foldl (fun d n => d.joinPool n (d.sector n).eraseCount) (d.joinPool k (d.sector k).eraseCount) := rfl
    clear_value e
    generalize d.joinPool k (d.sector k).eraseCount = d1 at *
    have hmove : (l ++ d1.freePool).Perm (k :: (l ++ d.freePool)) := (hperm.append_left l).trans List.perm_middle
    obtain ⟨hframe, hpool', hsorted', hother, hplaced⟩ := ih d1 (fun n => (congrArg Sector.eraseCount (hstep n)).trans (hcount n))
      (hmove.nodup_iff.mpr (List.nodup_cons.mpr ⟨hk, hn⟩)) hsorted
    rw [← he] at hframe hpool' hsorted' hother hplaced
    have hkl : k ∉ l := fun h => hk (List.mem_append_left _ h)
    refine ⟨hframe.trans (congrArg (fun x : Device => { x with sectors := e.sectors, freePool := e.freePool }) hframe1),
      hpool'.trans hmove, hsorted', fun n hno => ?_, fun n hmem hlt => ?_⟩
    · obtain ⟨hne, hno⟩ := not_or.mp (List.mem_cons.not.mp hno)
      exact (hother n hno).trans ((hstep n).trans (Device.sector_setSector_other _ _ _ _ hne))
    · rcases List.mem_cons.mp hmem with rfl | hmem
      · refine (hother n hkl).trans ((hstep n).trans ?_)
        rw [Device.sector_setSector _ _ _ hlt, hc]
      · exact hplaced n hmem hlt
/-- The tables before the chains, from working tables `m` (R137). -/
def Device.seedFrom (d : Device) (m : Mount) : Device :=
  m.released.foldl Device.joinQueue (m.freeFound.foldl (fun d n => d.joinPool n (d.sector n).eraseCount)
    (m.bad.foldl Device.markBad (dataSectors.foldl (fun e n => e.seedSector m.counts n) { d with
      streams := m.streams, badList := m.bad })))

theorem Device.seedTables_eq (d : Device) : d.seedTables = d.seedFrom d.mount := rfl

/-- Each class of the scan goes to its place, the owned sectors stay pending (R137). -/
theorem Device.seedFrom_mounting {d : Device} {m : Mount} (hpool : d.freePool = []) (hqueue : d.eraseQueue = [])
    (hchains : ∀ (st : Fin 16) (b : StreamBody), m.streams[st.val].body = some b → b.chain = [])
    (hperm : (m.bad ++ m.freeFound ++ m.released ++ m.owned.map OwnedSector.sector).Perm dataSectors) :
    (d.seedFrom m).Mounting m d.newestSerial (m.owned.map OwnedSector.sector) ∧
      d.seedFrom m = { d with
        streams := m.streams, badList := m.bad, sectors := (d.seedFrom m).sectors
        freePool := (d.seedFrom m).freePool, eraseQueue := (d.seedFrom m).eraseQueue } := by
  have hmem {n : Nat} (h : n ∈ m.bad ++ m.freeFound ++ m.released ++ m.owned.map OwnedSector.sector) :
      4 ≤ n ∧ n < 256 := mem_dataSectors.mp (hperm.mem_iff.mp h)
  have hnodup : (m.bad ++ m.freeFound ++ m.released ++ m.owned.map OwnedSector.sector).Nodup :=
    hperm.nodup_iff.mpr dataSectors_nodup
  have hstreams : ({ d with streams := m.streams, badList := m.bad } : Device).chained = [] := by
    rw [Device.chained_eq]
    refine List.flatMap_eq_nil_iff.mpr fun st _ => ?_
    unfold Device.chainOf Device.stream
    dsimp only
    split
    · rename_i b hb
      exact hchains st b hb
    · rfl
  unfold Device.seedFrom
  obtain ⟨f1, s1⟩ := Device.foldl_seedSector m.counts dataSectors ({ d with streams := m.streams, badList := m.bad } : Device)
  generalize dataSectors.foldl (fun e n => e.seedSector m.counts n) ({ d with streams := m.streams, badList := m.bad } : Device)
    = d1 at *
  obtain ⟨f2, s2⟩ := Device.foldl_markBad m.bad d1
  generalize m.bad.foldl Device.markBad d1 = d2 at *
  have hcount2 (n : Nat) (h4 : 4 ≤ n) (h256 : n < 256) : (d2.sector n).eraseCount = m.countOf n ∧
      (d2.sector n).suspect = false := by
    have hd1 : d1.sector n = { Sector.blank with eraseCount := m.counts[n] } := by
      rw [s1 n h256, if_pos (mem_dataSectors.mpr ⟨h4, h256⟩)]
    rw [s2 n h256, hd1, Mount.countOf, dif_pos h256]
    split <;> exact ⟨rfl, rfl⟩
  have hpool2 : d2.freePool = [] := by rw [f2, f1]; exact hpool
  have hn2 : (m.freeFound ++ d2.freePool).Nodup := by
    rw [hpool2, List.append_nil]
    exact hnodup.sublist (((List.sublist_append_right _ _).trans (List.sublist_append_left _ _)).trans (List.sublist_append_left _ _))
  obtain ⟨f3, p3, w3, o3, s3⟩ := Device.foldl_joinPool (c := fun n => (d2.sector n).eraseCount) m.freeFound d2 (fun _ => rfl) hn2
    (by rw [hpool2]; exact .nil)
  generalize m.freeFound.foldl (fun d n => d.joinPool n (d.sector n).eraseCount) d2 = d3 at *
  have hq := d3.queues_foldl m.released
  have f4 := Device.foldl_joinQueue_frame m.released d3
  generalize m.released.foldl Device.joinQueue d3 = d4 at *
  have hserial : d3.newestSerial = d.newestSerial := by rw [f3, f2, f1]; rfl
  have hframe : d4 = { d with
      streams := m.streams, badList := m.bad, sectors := d4.sectors, freePool := d4.freePool, eraseQueue := d4.eraseQueue } := by
    rw [show d4.freePool = d3.freePool by rw [f4]]
    exact f4.trans (congrArg (fun x : Device => { x with sectors := d4.sectors, eraseQueue := d4.eraseQueue })
      (f3.trans (congrArg (fun x : Device => { x with sectors := d3.sectors, freePool := d3.freePool })
        (f2.trans (congrArg (fun x : Device => { x with sectors := d2.sectors }) f1)))))
  have hpool3 : d3.freePool.Perm m.freeFound := p3.trans (by rw [hpool2, List.append_nil])
  have hpool4 : d4.freePool.Perm m.freeFound := by
    rw [f4]
    exact hpool3
  have hqueue4 : d4.eraseQueue = m.released := by
    rw [hq.queue, f3, f2, f1]
    show d.eraseQueue ++ m.released = _
    rw [hqueue, List.nil_append]
  have hbad4 : d4.badList = m.bad := by rw [hframe]
  have hchained : d4.chained = [] := by
    rw [← hstreams]
    refine Device.chained_congr fun st => ?_
    rw [hframe]
    rfl
  have hcount3 (n : Nat) (h4 : 4 ≤ n) (h256 : n < 256) : (d3.sector n).eraseCount = m.countOf n ∧
      (d3.sector n).suspect = false := by
    by_cases hf : n ∈ m.freeFound
    · rw [s3 n hf h256]
      exact ⟨(hcount2 n h4 h256).1, rfl⟩
    · rw [o3 n hf]
      exact hcount2 n h4 h256
  have hbadFree : ∀ n ∈ m.bad, n ∉ m.freeFound ∧ n ∉ m.released := by
    intro n hn
    rw [List.append_assoc, List.append_assoc, List.nodup_append] at hnodup
    exact ⟨fun hm => hnodup.2.2 n hn n (List.mem_append_left _ hm) rfl,
      fun hm => hnodup.2.2 n hn n (List.mem_append_right _ (List.mem_append_left _ hm)) rfl⟩
  have hfreeQueue : ∀ n ∈ m.freeFound, n ∉ m.released := by
    intro n hn hm
    rw [List.nodup_append, List.nodup_append] at hnodup
    exact hnodup.1.2.2 n (List.mem_append_right _ hn) n hm rfl
  refine ⟨⟨by rw [hframe]; rfl, hbad4, ⟨[], by rw [hqueue4, List.append_nil]⟩, hpool4, ?_, ?_, fun n h4 h256 => ?_,
    fun n hn => ?_, fun n hn => ?_, fun n hn => ?_⟩, hframe⟩
  · rw [show d4.freePool = d3.freePool by rw [f4]]
    refine w3.imp_of_mem fun {x y} hx hy hxy => ?_
    have hx' : 4 ≤ x ∧ x < 256 := hmem (by simp [hpool3.mem_iff.mp hx])
    have hy' : 4 ≤ y ∧ y < 256 := hmem (by simp [hpool3.mem_iff.mp hy])
    unfold poolBefore at hxy ⊢
    dsimp only at hxy
    rw [(hcount2 x hx'.1 hx'.2).1, (hcount2 y hy'.1 hy'.2).1] at hxy
    exact hxy
  · rw [hchained, hbad4, hqueue4, List.nil_append]
    refine List.Perm.trans ?_ hperm
    refine List.perm_iff_count.mpr fun a => ?_
    have h1 := List.perm_iff_count.mp hpool4 a
    simp only [List.count_append] at h1 ⊢
    omega
  · obtain ⟨hc, hs⟩ := hcount3 n h4 h256
    exact ⟨by rw [hq.sector n h256]; split <;> exact hc, hq.unsuspect hs⟩
  · have hn' : n ∈ m.freeFound := hpool4.mem_iff.mp hn
    rw [hq.other (hfreeQueue n hn'), s3 n hn' (hmem (by simp [hn'])).2]
    rfl
  · rw [hbad4] at hn
    obtain ⟨h1, h2⟩ := hbadFree n hn
    have h256 := (hmem (n := n) (by simp [hn])).2
    rw [hq.other h2, o3 n h1, s2 n h256, if_pos hn]
    rfl
  · rw [hqueue4] at hn
    rw [hq.sector n (hmem (by simp [hn])).2, if_pos hn, hserial]
    rfl
/-! ### Release tests and chains (R133, R134) -/

/-- The streams of a mount with the sectors their release tests keep and release (R133). -/
def Mount.tested (m : Mount) : List (Fin 16 × List OwnedSector × List OwnedSector) :=
  (List.finRange 16).filterMap fun st => (m.streams[st.val].body).map fun b => (st, m.releaseTest st b)

theorem Mount.mem_tested {m : Mount} {t : Fin 16 × List OwnedSector × List OwnedSector} : t ∈ m.tested ↔
    ∃ b, m.streams[t.1.val].body = some b ∧ t.2 = m.releaseTest t.1 b := by
  unfold Mount.tested
  simp only [List.mem_filterMap, List.mem_finRange, true_and, Option.map_eq_some_iff]
  constructor
  · rintro ⟨st, b, hb, rfl⟩
    exact ⟨b, hb, rfl⟩
  · rintro ⟨b, hb, h⟩
    exact ⟨t.1, b, hb, by rw [← h]⟩

theorem Mount.tested_nodup (m : Mount) : (m.tested.map Prod.fst).Nodup := by
  have hsub : (m.tested.map Prod.fst).Sublist (List.finRange 16) := by
    unfold Mount.tested
    generalize List.finRange 16 = l
    induction l with
    | nil => exact .slnil
    | cons st l ih =>
      rw [List.filterMap_cons]
      split
      · exact ih.cons _
      · rename_i t ht
        obtain ⟨b, -, rfl⟩ := Option.map_eq_some_iff.mp ht
        exact ih.cons_cons _
  exact (List.nodup_finRange 16).sublist hsub

/-- The sectors that stay for the chain walks, and those that the release tests send to the queue. -/
def Mount.staying (m : Mount) : List OwnedSector := m.tested.flatMap fun t => t.2.1

@[inherit_doc Mount.staying]
def Mount.leaving (m : Mount) : List OwnedSector := m.tested.flatMap fun t => t.2.2

theorem Mount.owned_perm {m : Mount} (h : ∀ o ∈ m.owned, m.streams[o.stream.val].body.isSome = true) :
    m.owned.Perm (m.staying ++ m.leaving) := by
  refine (perm_flatMap_filter OwnedSector.stream m.owned).trans (List.Perm.trans ?_ (List.flatMap_append_perm _ _ _).symm)
  unfold Mount.tested
  induction List.finRange 16 with
  | nil => exact .refl _
  | cons st l ih =>
    rw [List.flatMap_cons, List.filterMap_cons]
    cases hb : m.streams[st.val].body with
    | none =>
      have hnil : m.owned.filter (fun o => o.stream == st) = [] := List.filter_eq_nil_iff.mpr fun o ho heq => by
        have hsome := h o ho
        simp only [show o.stream = st from beq_iff_eq.mp heq, hb] at hsome
        cases hsome
      rw [hnil]
      exact ih
    | some b =>
      refine List.Perm.append ?_ ih
      show (m.ownedBy st).Perm ((m.releaseTest st b).1 ++ (m.releaseTest st b).2)
      rw [Mount.releaseTest_eq]
      have hcompl : (m.ownedBy st).filter (fun o => decide (o.last < releasePoint b.readers m.retained[st.val] (m.ownedBy st))) =
          (m.ownedBy st).filter fun o => !decide (releasePoint b.readers m.retained[st.val] (m.ownedBy st) ≤ o.last) :=
        List.filter_congr fun o _ => by
          rw [← decide_not]
          exact decide_eq_decide.mpr Nat.not_le.symm
      dsimp only
      rw [hcompl]
      exact (List.filter_append_perm _ _).symm

/-- Every release test's sectors queued, every chain walked (R133, R134). -/
def Device.walkAll (d : Device) (tested : List (Fin 16 × List OwnedSector × List OwnedSector)) : Device :=
  tested.foldl (fun d t => d.mountChain t.1 t.2.1) d

theorem foldl_released (tested : List (Fin 16 × List OwnedSector × List OwnedSector)) (d : Device) :
    tested.foldl (fun d t => t.2.2.foldl (fun d o => d.joinQueue o.sector) d) d =
      ((tested.flatMap fun t => t.2.2).map OwnedSector.sector).foldl Device.joinQueue d := by
  induction tested generalizing d with
  | nil => rfl
  | cons t rest ih =>
    rw [List.foldl_cons, ih, List.flatMap_cons, List.map_append, List.foldl_append, List.foldl_map (l := t.2.2)]

theorem Device.mountChains_eq (d : Device) :
    d.mountChains = ((d.mount.leaving.map OwnedSector.sector).foldl Device.joinQueue d).walkAll d.mount.tested := by
  have htested : d.mount.tested = (List.finRange 16).filterMap fun st =>
      match d.mount.streams[st.val].body with
      | some b => some (st, d.mount.releaseTest st b)
      | none => none := List.filterMap_congr fun st _ => by cases d.mount.streams[st.val].body <;> rfl
  unfold Mount.leaving
  rw [← foldl_released, htested]
  rfl

/-- A stream's chain after the walk: the sectors kept, with their page maps, and what is counted from them (R134). -/
structure Device.ChainBuilt (e : Device) (st : Fin 16) (b : StreamBody) (kept : List OwnedSector) : Prop where
  stream : e.stream st = some (e.counted { b with
    chain := kept.map OwnedSector.sector
    next := match kept.getLast? with | some o => o.last + 1 | none => b.next })
  pages : ∀ o ∈ kept, (e.sector o.sector).pages = o.pages

theorem Device.counted_chain {d e : Device} {b : StreamBody} (h : ∀ n ∈ b.chain, e.sector n = d.sector n) :
    e.counted b = d.counted b := by
  have hused : e.chainUsed b.chain = d.chainUsed b.chain := by
    unfold Device.chainUsed
    rw [List.map_congr_left fun n hn => by rw [h n hn]]
  have holdest : e.chainOldest b.chain b.next = d.chainOldest b.chain b.next := by
    unfold Device.chainOldest
    rw [List.filterMap_congr fun n hn => by rw [h n hn]]
  unfold Device.counted
  rw [hused, holdest]

theorem Device.ChainBuilt.mono {d e : Device} {st : Fin 16} {b : StreamBody} {kept : List OwnedSector}
    (h : d.ChainBuilt st b kept) (hs : e.stream st = d.stream st) (hsector : ∀ o ∈ kept, e.sector o.sector = d.sector o.sector) :
    e.ChainBuilt st b kept := by
  refine ⟨?_, fun o ho => by rw [hsector o ho]; exact h.pages o ho⟩
  rw [hs, h.stream]
  refine congrArg some (Device.counted_chain fun n hn => ?_).symm
  obtain ⟨o, ho, rfl⟩ := List.mem_map.mp hn
  exact hsector o ho

/-- What the chain walks of some streams leave. -/
structure Device.Walked (d e : Device) (m : Mount) (serial : Nat)
    (tested : List (Fin 16 × List OwnedSector × List OwnedSector)) : Prop where
  frame : d.mounts e
  mounting : e.Mounting m serial []
  cursors : e.cursors = d.cursors
  other : ∀ st, st ∉ tested.map Prod.fst → e.stream st = d.stream st
  sector : ∀ n, n ∉ (tested.flatMap fun t => t.2.1).map OwnedSector.sector → e.sector n = d.sector n
  built : ∀ t ∈ tested, ∀ b, d.stream t.1 = some b → e.ChainBuilt t.1 b (walked t.2.1).1

theorem Device.ChainMounted.stream_self {d e : Device} {st : Fin 16} {b : StreamBody} {kept dropped : List OwnedSector}
    (h : d.ChainMounted e st b kept dropped) : e.stream st = some (e.counted { b with
      chain := kept.map OwnedSector.sector
      next := match kept.getLast? with | some o => o.last + 1 | none => b.next }) := by
  rw [Device.stream, h.streams]
  exact Device.stream_setBody _ _ _

theorem Device.ChainMounted.stream_other {d e : Device} {st st' : Fin 16} {b : StreamBody} {kept dropped : List OwnedSector}
    (h : d.ChainMounted e st b kept dropped) (hne : st' ≠ st) : e.stream st' = d.stream st' := by
  rw [Device.stream, h.streams]
  exact Device.stream_setBody_other _ _ _ _ hne

/-- One stream's walk moves its pending sectors to its chain and to the queue. -/
theorem Device.Mounting.chainMounted {d e : Device} {m : Mount} {serial : Nat} {pending : List Nat} {own : List OwnedSector}
    {st : Fin 16} {b : StreamBody} (h : d.Mounting m serial (own.map OwnedSector.sector ++ pending))
    (hs : d.stream st = some b) (hc : b.chain = []) (k : d.ChainMounted e st b (walked own).1 (walked own).2) :
    e.Mounting m serial pending := by
  have hperm := (walked_perm own).map OwnedSector.sector
  rw [List.map_append] at hperm
  have hlow {o : OwnedSector} (ho : o ∈ (walked own).1 ++ (walked own).2) : o.sector < 256 :=
    (h.pending_bound (List.mem_append_left _ (List.mem_map.mpr ⟨o, (walked_perm own).mem_iff.mp ho, rfl⟩))).2
  refine h.moves (l := (walked own).2.map OwnedSector.sector) (kept := (walked own).1.map OwnedSector.sector) k.frame k.queue
    (fun n hn hlt => ?_) (fun n hn => ?_) (fun n h1 h2 => k.others n h2 h1) ?_
  · obtain ⟨o, ho, rfl⟩ := List.mem_map.mp hn
    exact k.droppedSector o ho hlt
  · obtain ⟨o, ho, rfl⟩ := List.mem_map.mp hn
    refine ⟨List.mem_append_left _ (hperm.mem_iff.mp (List.mem_append_left _ hn)), ?_⟩
    rw [k.keptSector o ho (hlow (List.mem_append_left _ ho))]
    exact ⟨rfl, rfl⟩
  · have hchain := Device.chained_replace (d := d) (e := e) (st := st) fun st' hne => by
      rw [Device.chainOf, k.stream_other hne, Device.chainOf]
    rw [Device.chainOf_some hs, hc, Device.chainOf_some k.stream_self, List.append_nil] at hchain
    have hchain' : e.chained.Perm (d.chained ++ (walked own).1.map OwnedSector.sector) := hchain
    refine List.perm_iff_count.mpr fun a => ?_
    have h1 := List.perm_iff_count.mp hchain' a
    have h2 := List.perm_iff_count.mp hperm a
    simp only [List.count_append] at h1 h2 ⊢
    omega

theorem Device.walkAll_spec {m : Mount} {serial : Nat} (tested : List (Fin 16 × List OwnedSector × List OwnedSector))
    {d : Device} (hn : (tested.map Prod.fst).Nodup)
    (h : d.Mounting m serial ((tested.flatMap fun t => t.2.1).map OwnedSector.sector))
    (hs : ∀ t ∈ tested, ∃ b, d.stream t.1 = some b ∧ b.chain = []) : d.Walked (d.walkAll tested) m serial tested := by
  induction tested generalizing d with
  | nil => exact ⟨.refl d, h, rfl, fun _ _ => rfl, fun _ _ => rfl, nofun⟩
  | cons t rest ih =>
    obtain ⟨ht, hn⟩ := List.nodup_cons.mp (List.map_cons ▸ hn)
    obtain ⟨b, hb, hc⟩ := hs t List.mem_cons_self
    rw [List.flatMap_cons, List.map_append] at h
    have hown : (t.2.1.map OwnedSector.sector).Nodup :=
      (List.nodup_append.mp (List.nodup_append.mp (List.nodup_append.mp h.nodup).1).2.1).1
    have hapart : ∀ n ∈ t.2.1.map OwnedSector.sector, n ∉ (rest.flatMap fun t => t.2.1).map OwnedSector.sector := fun n h1 h2 =>
      (List.nodup_append.mp (List.nodup_append.mp (List.nodup_append.mp h.nodup).1).2.1).2.2 n h1 n h2 rfl
    have hlow {o : OwnedSector} (ho : o ∈ t.2.1) : o.sector < 256 :=
      (h.pending_bound (List.mem_append_left _ (List.mem_map.mpr ⟨o, ho, rfl⟩))).2
    have k := Device.mountChain_spec hb hown
    have h1 := h.chainMounted hb hc k
    have hkept {o : OwnedSector} (ho : o ∈ (walked t.2.1).1) : o ∈ t.2.1 :=
      (walked_perm t.2.1).mem_iff.mp (List.mem_append_left _ ho)
    have hdropped {o : OwnedSector} (ho : o ∈ (walked t.2.1).2) : o ∈ t.2.1 :=
      (walked_perm t.2.1).mem_iff.mp (List.mem_append_right _ ho)
    show d.Walked ((d.mountChain t.1 t.2.1).walkAll rest) m serial (t :: rest)
    generalize d.mountChain t.1 t.2.1 = d1 at k h1
    have hs1 : ∀ t' ∈ rest, d1.stream t'.1 = d.stream t'.1 := fun t' ht' =>
      k.stream_other fun heq => ht (heq ▸ List.mem_map.mpr ⟨t', ht', rfl⟩)
    have w := ih hn h1 fun t' ht' => by
      rw [hs1 t' ht']
      exact hs t' (List.mem_cons_of_mem _ ht')
    refine ⟨k.frame.trans w.frame, w.mounting, w.cursors.trans k.cursors, fun st hst => ?_, fun n hno => ?_, fun t' ht' b' hb' => ?_⟩
    · obtain ⟨hne, hst⟩ := not_or.mp (List.mem_cons.not.mp hst)
      exact (w.other st hst).trans (k.stream_other hne)
    · rw [List.flatMap_cons, List.map_append, List.mem_append, not_or] at hno
      rw [w.sector n hno.2]
      refine k.others n (fun hm => ?_) fun hm => ?_
      · obtain ⟨o, ho, rfl⟩ := List.mem_map.mp hm
        exact hno.1 (List.mem_map.mpr ⟨o, hkept ho, rfl⟩)
      · obtain ⟨o, ho, rfl⟩ := List.mem_map.mp hm
        exact hno.1 (List.mem_map.mpr ⟨o, hdropped ho, rfl⟩)
    · rcases List.mem_cons.mp ht' with rfl | ht'
      · obtain rfl : b = b' := Option.some.inj (hb.symm.trans hb')
        have hbuilt : d1.ChainBuilt t'.1 b (walked t'.2.1).1 := ⟨k.stream_self, fun o ho => by
          rw [k.keptSector o ho (hlow (hkept ho))]
          rfl⟩
        exact hbuilt.mono (w.other _ ht) fun o ho => w.sector _ (hapart _ (List.mem_map.mpr ⟨o, hkept ho, rfl⟩))
      · exact w.built t' ht' b' (by rw [hs1 t' ht']; exact hb')

/-! ### Cursors and passes (R135, R136) -/

theorem Device.createCursor_frame (d : Device) (st : Fin 16) (p : Port) : d.createCursor st p = { d with
    cursors := (d.createCursor st p).cursors
    mount := { d.mount with repair := (d.createCursor st p).mount.repair } } := by
  unfold Device.createCursor
  split
  · rfl
  · dsimp only
    split
    · split <;> rfl
    · rfl

theorem Device.createCursor_queues (d : Device) (st : Fin 16) (p : Port) : d.Queues (d.createCursor st p) [] ∧
    (d.createCursor st p).streams = d.streams := by
  have h := d.createCursor_frame st p
  exact ⟨.none (by unfold Device.mounts; rw [h]) (by rw [h]) (by rw [h]), by rw [h]⟩

theorem Device.mountCursors_queues (d : Device) : d.Queues d.mountCursors [] ∧ d.mountCursors.streams = d.streams := by
  have hfold (l : List (Fin 16)) (d : Device) : d.Queues
      (l.foldl (fun d st => ((d.createCursor st .A).createCursor st .B).createCursor st .C) d) [] ∧
      (l.foldl (fun d st => ((d.createCursor st .A).createCursor st .B).createCursor st .C) d).streams = d.streams := by
    induction l generalizing d with
    | nil => exact ⟨.none (.refl d) rfl rfl, rfl⟩
    | cons st l ih =>
      obtain ⟨qa, sa⟩ := d.createCursor_queues st .A
      obtain ⟨qb, sb⟩ := (d.createCursor st .A).createCursor_queues st .B
      obtain ⟨qc, sc⟩ := ((d.createCursor st .A).createCursor st .B).createCursor_queues st .C
      obtain ⟨ql, sl⟩ := ih (((d.createCursor st .A).createCursor st .B).createCursor st .C)
      exact ⟨((qa.quiet qb).quiet qc).quiet ql, sl.trans (sc.trans (sb.trans sa))⟩
  exact hfold _ d

theorem Device.mountPasses_none {d : Device} {st : Fin 16} (h : d.stream st = none) : d.mountPasses st = d := by
  have hsame : d.mountReclaim st = d := by simp [Device.mountReclaim, h]
  rw [Device.mountPasses, hsame, h]

theorem Device.Passed.stream_self {d e : Device} {st : Fin 16} {b : StreamBody} {gone : Nat} (h : d.Passed e st b gone) :
    e.stream st = some (e.counted { b with chain := b.chain.drop gone }) := by
  rw [Device.stream, h.streams]
  exact Device.stream_setBody _ _ _

theorem Device.Passed.stream_other {d e : Device} {st st' : Fin 16} {b : StreamBody} {gone : Nat} (h : d.Passed e st b gone)
    (hne : st' ≠ st) : e.stream st' = d.stream st' := by
  rw [Device.stream, h.streams]
  exact Device.stream_setBody_other _ _ _ _ hne

section Passes

variable {d : Device} {m : Mount} {serial : Nat} (h : d.Mounting m serial [])

include h

theorem Device.Mounting.chain_clean {st : Fin 16} {b : StreamBody} (hs : d.stream st = some b) :
    b.chain.Nodup ∧ ∀ n ∈ b.chain, (d.sector n).suspect = false := by
  have hsub : b.chain.Sublist d.chained := by
    rw [← Device.chainOf_some hs]
    exact List.sublist_flatten_of_mem (List.mem_map.mpr ⟨st, List.mem_finRange st, rfl⟩)
  have hn := h.nodup
  rw [List.append_nil] at hn
  refine ⟨(List.nodup_append.mp hn).1.sublist hsub, fun n hmem => ?_⟩
  obtain ⟨h4, h256⟩ := h.bound (n := n) (by simp [hsub.subset hmem])
  exact (h.count n h4 h256).2

/-- The passes over one stream, in tables with every sector placed. -/
theorem Device.Mounting.passes {st : Fin 16} {b : StreamBody} (hs : d.stream st = some b) :
    ∃ gone, d.Passed (d.mountPasses st) st b gone ∧ (d.mountPasses st).Mounting m serial [] := by
  obtain ⟨hn, hc⟩ := h.chain_clean hs
  obtain ⟨gone, k⟩ : ∃ gone, d.Passed (d.mountPasses st) st b gone := ⟨_, Device.mountPasses_spec hs hn hc⟩
  refine ⟨gone, k, h.queues k.queues ?_⟩
  generalize d.mountPasses st = e at *
  have hchain := Device.chained_replace (d := d) (e := e) (st := st) fun st' hne => by
    rw [Device.chainOf, k.stream_other hne, Device.chainOf]
  rw [Device.chainOf_some hs, Device.chainOf_some k.stream_self] at hchain
  have hchain' : (e.chained ++ b.chain).Perm (d.chained ++ b.chain.drop gone) := hchain
  have hb : b.chain = b.chain.take gone ++ b.chain.drop gone := (List.take_append_drop _ _).symm
  refine List.perm_iff_count.mpr fun a => ?_
  have h1 := List.perm_iff_count.mp hchain' a
  have h2 := congrArg (List.count a) hb
  simp only [List.count_append, List.count_nil] at h1 h2 ⊢
  omega

theorem Device.Mounting.mountPasses (st : Fin 16) : (d.mountPasses st).Mounting m serial [] := by
  cases hs : d.stream st with
  | none =>
    rw [Device.mountPasses_none hs]
    exact h
  | some b =>
    obtain ⟨gone, -, hm⟩ := h.passes hs
    exact hm

end Passes

theorem Device.Mounting.foldl_passes {m : Mount} {serial : Nat} (l : List (Fin 16)) {d : Device} (h : d.Mounting m serial []) :
    (l.foldl Device.mountPasses d).Mounting m serial [] := by
  induction l generalizing d with
  | nil => exact h
  | cons st l ih => exact ih (h.mountPasses st)

/-! ### The end of a mount (R137, R138) -/

/-- The tables when every pass is over, before the hand-over. -/
def Device.mountTables (d : Device) : Device :=
  (List.finRange 16).foldl Device.mountPasses d.seedTables.mountChains.mountCursors

theorem Device.finishMount_eq (d : Device) : d.finishMount = d.mountTables.mountDone := rfl

/-- Working tables in which every data sector was found in one class, each stream with no chain yet. -/
structure Mount.classed (m : Mount) : Prop where
  chains : ∀ (st : Fin 16) (b : StreamBody), m.streams[st.val].body = some b → b.chain = []
  owners : ∀ o ∈ m.owned, m.streams[o.stream.val].body.isSome = true
  places : (m.bad ++ m.freeFound ++ m.released ++ m.owned.map OwnedSector.sector).Perm dataSectors

/-- The chains built from such tables. -/
theorem Device.mountChains_walked {d : Device} (hpool : d.freePool = []) (hqueue : d.eraseQueue = []) (h : d.mount.classed) :
    ∃ e : Device, e.Walked d.seedTables.mountChains d.mount d.newestSerial d.mount.tested ∧ e.streams = d.mount.streams ∧
      e.cursors = d.cursors := by
  obtain ⟨hseed, hframe⟩ := Device.seedFrom_mounting hpool hqueue h.chains h.places
  rw [← Device.seedTables_eq] at hseed hframe
  rw [Device.mountChains_eq]
  have hm : d.seedTables.mount = d.mount := by rw [hframe]
  have hstreams : d.seedTables.streams = d.mount.streams := by rw [hframe]
  have hcursors : d.seedTables.cursors = d.cursors := by rw [hframe]
  rw [hm]
  generalize d.seedTables = d0 at *
  have hq := d0.queues_foldl (d.mount.leaving.map OwnedSector.sector)
  have hf := Device.foldl_joinQueue_frame (d.mount.leaving.map OwnedSector.sector) d0
  generalize (d.mount.leaving.map OwnedSector.sector).foldl Device.joinQueue d0 = d1 at *
  have hs1 : d1.streams = d.mount.streams := by rw [hf]; exact hstreams
  have hchained : d1.chained = d0.chained := Device.chained_congr fun st => by
    rw [Device.chainOf, Device.stream, hs1, ← hstreams, Device.chainOf, Device.stream]
  have hperm := (Mount.owned_perm h.owners).map OwnedSector.sector
  rw [List.map_append] at hperm
  have h1 : d1.Mounting d.mount d.newestSerial (d.mount.staying.map OwnedSector.sector) := by
    refine hseed.queues hq ?_
    rw [hchained, List.append_assoc]
    exact hperm.append_left _
  refine ⟨d1, Device.walkAll_spec _ d.mount.tested_nodup h1 fun t ht => ?_, hs1, by rw [hf]; exact hcursors⟩
  obtain ⟨b, hb, -⟩ := Mount.mem_tested.mp ht
  exact ⟨b, by rw [Device.stream, hs1]; exact hb, h.chains _ b hb⟩

theorem Device.mountTables_mounting {d : Device} (hpool : d.freePool = []) (hqueue : d.eraseQueue = []) (h : d.mount.classed) :
    d.mountTables.Mounting d.mount d.newestSerial [] := by
  obtain ⟨e, w, -, -⟩ := Device.mountChains_walked hpool hqueue h
  obtain ⟨hq, hs⟩ := d.seedTables.mountChains.mountCursors_queues
  refine Device.Mounting.foldl_passes _ (w.mounting.queues hq ?_)
  have hsame : d.seedTables.mountChains.mountCursors.chained = d.seedTables.mountChains.chained :=
    Device.chained_congr fun st => by rw [Device.chainOf, Device.stream, hs, Device.chainOf, Device.stream]
  rw [hsame, List.append_nil, List.append_nil]

end Sys2Proof.Machine
end

