-- ==== Sys2Proof/Proofs/MountRebuilt.lean ====
section
/-! What a mount makes of the owned sectors, and its hand-over (R133 to R138). -/

namespace Sys2Proof.Machine

open Sys2Proof

-- One process elaborates the whole text: proofs taken in turn stay within its memory.
set_option Elab.async false

/-! ### The chain of one stream (R134) -/

/-- In a list with distinct sectors the last is known by its sector. -/
theorem getLast?_any_sector {kept : List OwnedSector} (hn : (kept.map OwnedSector.sector).Nodup) {o : OwnedSector} (ho : o ∈ kept) :
    (kept.getLast?.any fun x => x.sector == o.sector) = true ↔ kept.getLast? = some o := by
  cases hl : kept.getLast? with
  | none => simp
  | some x =>
    have hx : x ∈ kept := List.mem_of_getLast? hl
    simp only [Option.any_some, beq_iff_eq, Option.some.injEq]
    exact ⟨fun h => List.inj_on_of_nodup_map hn hx ho h, fun h => by rw [h]⟩

theorem OwnedSector.placed_eq {o : OwnedSector} {isLast : Bool} {last : Prop} [Decidable last] (h : isLast = true ↔ last) (inc : Byte) (x : Sector) :
    o.placed isLast inc x = { x with
      state := if last ∧ o.forced = false ∧ PageState.unused ∈ o.pages.toList then .tail else .filled
      owner := some (o.stream, inc)
      pages := o.pages } := by
  have hopen : (isLast && !o.forced && o.pages.toList.any (· == .unused)) = true ↔
      last ∧ o.forced = false ∧ PageState.unused ∈ o.pages.toList := by
    rw [Bool.and_eq_true, Bool.and_eq_true, h, List.any_eq_true]
    simp [and_assoc]
  unfold OwnedSector.placed
  by_cases hl : last ∧ o.forced = false ∧ PageState.unused ∈ o.pages.toList
  · rw [if_pos hl, if_pos (hopen.mpr hl)]
  · rw [if_neg hl, if_neg fun h => hl (hopen.mp h)]

/-- The oldest sequence of a chain of owned sectors: the first of its head (R4, R134). -/
theorem Device.chainOldest_owned {e : Device} {kept : List OwnedSector} (next : Nat)
    (hp : ∀ o ∈ kept, (e.sector o.sector).pages = o.pages)
    (hlive : ∀ o ∈ kept, o.pages.toList.any (fun x => x.seq?.isSome) = true) :
    e.chainOldest (kept.map OwnedSector.sector) next = match kept.head? with | some o => o.first | none => next := by
  cases kept with
  | nil => rfl
  | cons o rest =>
    have hpage : (e.sector o.sector).pageList = o.pages.toList := congrArg Vector.toList (hp o List.mem_cons_self)
    obtain ⟨x, hx, hsome⟩ := List.any_eq_true.mp (hlive o List.mem_cons_self)
    obtain ⟨v, hv⟩ := Option.isSome_iff_exists.mp hsome
    have hne : o.pages.toList.filterMap PageState.seq? ≠ [] := List.ne_nil_of_mem (List.mem_filterMap.mpr ⟨x, hx, hv⟩)
    obtain ⟨w, l, hl⟩ := List.exists_cons_of_ne_nil hne
    have hfirst : (e.sector o.sector).first? = some w := by
      rw [Sector.first?, Sector.liveSeqs, hpage, hl]
      rfl
    rw [Device.chainOldest, List.map_cons, List.filterMap_cons, hfirst]
    show w = o.first
    rw [OwnedSector.first, hl]
    rfl

/-! ### The hand-over (R138) -/

theorem Device.mountDone_spec {d : Device} (hb : d.consent.ballot = none) :
    let e := d.mountDone
    e.writer = { Writer.powerUp with
      state := .idle, activeHalf := some d.mount.half, generation := d.mount.generation
      writePos := d.mount.writePos, broken := d.mount.broken
      nextSerial := d.mount.lastSerial + 1, durableSerial := d.mount.lastSerial } ∧
    e.mount = { Mount.powerUp with phase := .done, repair := d.mount.repair } ∧
    e.mode = (if d.badList.length = 32 then .readOnly else .ready) ∧
    e.reason = (if d.badList.length = 32 then .mediaWorn else .none) ∧
    ∀ q, e.events.get q = if (d.port q).attached then (d.events.get q).offer
      ⟨.state, none, some (if d.badList.length = 32 then 4 else 3)⟩ else d.events.get q := by
  intro e
  have he : e = ({ d with writer := d.mount.writer, mount := d.mount.over .done } : Device).enterState
      (if d.badList.length = 32 then .readOnly else .ready) := rfl
  have hframe := Device.enterState_frame (d := { d with writer := d.mount.writer, mount := d.mount.over .done }) hb
    (if d.badList.length = 32 then .readOnly else .ready)
  rw [← he] at hframe
  refine ⟨by rw [hframe]; rfl, by rw [hframe]; rfl, by rw [hframe], ?_, fun q => ?_⟩
  · rw [hframe]
    show Device.reasonOnEntry _ _ = _
    by_cases h : d.badList.length = 32
    · rw [if_pos h, if_pos h]
      rfl
    · rw [if_neg h, if_neg h]
      rfl
  · have hann : announced (if d.badList.length = 32 then DeviceState.readOnly else .ready) = true := by split <;> rfl
    rw [he]
    refine (Device.enterState_events (d := { d with writer := d.mount.writer, mount := d.mount.over .done }) hann hb q).trans ?_
    by_cases h : d.badList.length = 32
    · rw [if_pos h, if_pos h]
      rfl
    · rw [if_neg h, if_neg h]
      rfl

/-- The hand-over touches no table of the sector map. -/
theorem Device.mountDone_map (d : Device) : d.mountDone.freePool = d.freePool ∧ d.mountDone.eraseQueue = d.eraseQueue ∧
    d.mountDone.badList = d.badList ∧ d.mountDone.sectors = d.sectors ∧ d.mountDone.cursors = d.cursors ∧
    d.unheld d.mountDone := by
  have hc : ({ d with writer := d.mount.writer, mount := d.mount.over .done } : Device).Controls d.mountDone :=
    (Device.Controls.refl _).enterState _
  have hf := hc.frame
  exact ⟨by rw [hf], by rw [hf], by rw [hf], by rw [hf], by rw [hf], fun st =>
    ({ d with writer := d.mount.writer, mount := d.mount.over .done } : Device).enterState_unheld _ st⟩

theorem Device.unheld.chainOf {d e : Device} (h : d.unheld e) (st : Fin 16) : e.chainOf st = d.chainOf st := by
  unfold Device.chainOf
  rcases h st with hs | hs <;> rw [hs]
  cases d.stream st <;> rfl

theorem Device.mountDone_chained (d : Device) : d.mountDone.chained = d.chained :=
  Device.chained_congr d.mountDone_map.2.2.2.2.2.chainOf

theorem Device.mountDone_places (d : Device) : d.mountDone.places = d.places := by
  obtain ⟨hpool, hqueue, hbad, -⟩ := d.mountDone_map
  rw [Device.places_eq, Device.places_eq, d.mountDone_chained, hpool, hqueue, hbad]

theorem Device.Mounting.placed {d : Device} {m : Mount} {serial : Nat} (h : d.Mounting m serial []) : d.places.Perm dataSectors := by
  have hp := h.places
  rw [List.append_nil] at hp
  rw [Device.places_eq]
  simpa [List.append_assoc] using hp

/-! ### The scan (R131) -/

theorem Mount.nextSector_some {m : Mount} {n k : Nat} (h : m.nextSector n = some k) : n ≤ k ∧ k < 256 ∧ k ∉ m.bad := by
  have hmem := List.mem_of_find?_eq_some h
  have htest := List.find?_some h
  rw [List.mem_range'_1] at hmem
  exact ⟨hmem.1, by omega, by simpa using htest⟩

theorem Device.scanFrom_none {d : Device} {n : Nat} (h : d.mount.nextSector n = none) :
    d.scanFrom n = ({ d with arrayOp := .none } : Device).finishMount := by
  rw [Device.scanFrom, h]
  rfl

theorem Device.scanFrom_some {d : Device} {n k : Nat} (h : d.mount.nextSector n = some k) :
    d.scanFrom n = { d with arrayOp := .read k 0 } := by
  rw [Device.scanFrom, h]
  rfl

/-- Settles O39: each rule of R133 to R138 by the lemma that says it. -/
theorem mountRebuildsTheTables : Obligations.MountRebuildsTheTables := by
  refine ⟨fun readers t own => ⟨fun h => ?_, fun ⟨q, hr, ht⟩ => releasePoint_unknown readers t own hr ht,
    fun hr ht => releasePoint_known readers t own hr ht⟩, Mount.releaseTest_eq,
    fun own => ⟨sortOwned_perm own, sortOwned_sorted own⟩, ⟨rfl, walk_spec⟩, fun d st b own hs hn hown hrepair => ?_,
    mountCursor_spec, fun d st b head rest hs hc hhead hrepair => ?_, fun d st b hs hn hc => ?_, fun d => Device.mountDone_spec,
    fun d => ?_, fun d n => ⟨Device.scanFrom_none, fun k h =>
      ⟨Device.scanFrom_some h, Mount.nextSector_some h⟩⟩⟩
  · rw [releasePoint_unread readers t own h]
    obtain ⟨-, hall, hat⟩ := foldl_max_spec OwnedSector.first own 0
    refine ⟨hall, fun hne => hat.elim (fun h0 => ?_) id⟩
    obtain ⟨o, rest, rfl⟩ := List.exists_cons_of_ne_nil hne
    have := hall o List.mem_cons_self
    exact ⟨o, List.mem_cons_self, by omega⟩
  · have k := Device.mountChain_spec hs hn
    have hmem {o : OwnedSector} (ho : o ∈ (walked own).1 ++ (walked own).2) := hown o ((walked_perm own).mem_iff.mp ho)
    have hkn : ((walked own).1.map OwnedSector.sector).Nodup := by
      have := ((walked_perm own).map OwnedSector.sector).nodup_iff.mpr hn
      rw [List.map_append, List.nodup_append] at this
      exact this.1
    have hplaced {o : OwnedSector} (ho : o ∈ (walked own).1) := k.keptSector o ho (hmem (List.mem_append_left _ ho)).1
    refine ⟨k.queue, k.repair hrepair, fun o ho => k.droppedSector o ho (hmem (List.mem_append_right _ ho)).1, fun o ho => ?_,
      _, k.stream_self, rfl, rfl, ?_, rfl, rfl, rfl, rfl, rfl, rfl⟩
    · rw [hplaced ho]
      exact OwnedSector.placed_eq (getLast?_any_sector hkn ho) _ _
    · have hold := Device.chainOldest_owned (e := d.mountChain st own) (kept := (walked own).1)
        (match (walked own).1.getLast? with | some o => o.last + 1 | none => b.next)
        (fun o ho => by rw [hplaced ho]; rfl) fun o ho => (hmem (List.mem_append_left _ ho)).2
      refine hold.trans ?_
      show _ = match (walked own).1.head? with | some o => o.first | none => b.next
      cases (walked own).1 <;> rfl
  · have k := Device.trimmedHead_spec hs head rest
    have he : d.trim st 1 = d.trimmedHead st b head rest := Device.trim_cons hs hc 0
    have hx : (d.trimmedHead st b head rest).chainOldest rest b.next = d.chainOldest rest b.next := by
      unfold Device.chainOldest
      rw [List.filterMap_congr fun n hn => by
        rw [k.queues.other fun h => hhead (List.mem_singleton.mp h ▸ hn)]]
    intro e x raised
    have hself : e = d.trimmedHead st b head rest := he
    clear_value e
    rw [← hself] at k hx he
    have hcursor := k.cursor
    have hcount := k.repair hrepair
    rw [hx] at hcursor hcount
    refine ⟨?_, k.queues.queue, hcount, hcursor, k.queues.frame.events, k.queues.frame.writer, fun j => ?_⟩
    · rw [Device.stream, k.streams]
      exact Device.stream_setBody _ _ _
    · rw [Device.trim_cons hs hc j, hself]
  · have k := Device.mountPasses_spec hs hn hc
    intro reclaimed gone e
    refine ⟨k.queues.queue, k.queues.frame.badList, k.queues.frame.events, k.queues.frame.writer, _, k.stream_self, rfl, ?_,
      rfl, rfl, rfl, rfl⟩
    show (b.chain.drop gone).length ≤ b.quota
    rw [List.length_drop]
    omega
  · intro m hpool hqueue hw hchains howners hperm e
    have h := Device.mountTables_mounting hpool hqueue ⟨hchains, howners, hperm⟩
    rw [show d.newestSerial = 0 by rw [Device.newestSerial, hw]; rfl] at h
    obtain ⟨fpool, fqueue, fbad, fsectors, -, -⟩ := d.mountTables.mountDone_map
    have hplaces : e.places.Perm dataSectors := by
      rw [show e = d.mountTables.mountDone from rfl, Device.mountDone_places]
      exact h.placed
    have hsector (n : Nat) : e.sector n = d.mountTables.sector n := Device.sector_congr fsectors n
    have hcount (n : Nat) (hlt : n < 256) (hmem : n ∈ d.mountTables.freePool ∨ n ∈ d.mountTables.badList ∨
        n ∈ d.mountTables.eraseQueue) : (d.mountTables.sector n).eraseCount = m.counts[n] := by
      have h4 : 4 ≤ n := (h.bound (n := n) (by
        rcases hmem with h | h | h <;> simp [h])).1
      rw [(h.count n h4 hlt).1, Mount.countOf, dif_pos hlt]
    refine ⟨hplaces, fbad.trans h.bad, ?_, ?_, ?_, fun n hlt => ⟨fun hn => ?_, fun hn => ?_, fun hn => ?_⟩⟩
    · rw [show e.freePool = _ from fpool]
      exact h.pool
    · rw [show e.freePool = _ from fpool]
      refine h.sorted.imp_of_mem fun {x y} hx hy hxy => ?_
      rw [hsector, hsector, hcount x (h.bound (n := x) (by simp [hx])).2 (.inl hx),
        hcount y (h.bound (n := y) (by simp [hy])).2 (.inl hy)]
      unfold poolBefore Mount.countOf at hxy
      rw [dif_pos (h.bound (n := x) (by simp [hx])).2, dif_pos (h.bound (n := y) (by simp [hy])).2] at hxy
      exact hxy
    · obtain ⟨later, hlater⟩ := h.queue
      exact ⟨later, (show e.eraseQueue = _ from fqueue).trans hlater⟩
    · have hn' : n ∈ d.mountTables.freePool := (show e.freePool = _ from fpool) ▸ hn
      rw [hsector, h.free n hn', ← hcount n hlt (.inl hn')]
      rfl
    · have hn' : n ∈ d.mountTables.badList := (show e.badList = _ from fbad) ▸ hn
      rw [hsector, h.worn n hn', ← hcount n hlt (.inr (.inl hn'))]
      rfl
    · have hn' : n ∈ d.mountTables.eraseQueue := (show e.eraseQueue = _ from fqueue) ▸ hn
      rw [hsector, h.queued n hn', ← hcount n hlt (.inr (.inr hn'))]
      rfl

end Sys2Proof.Machine
end

