-- ==== Sys2Proof/Proofs/SteadyTables.lean ====
section
/-! What the operations that answer, announce, stage and halt leave of the tables the last two invariants read. A `Steady`
operation leaves chains, cursors, page maps and lists as they were, and gives up executors, claims and the erase at most;
a `Steers` operation may have changed the tables too. -/

namespace Sys2Proof.Machine

open Sys2Proof

-- One process elaborates the whole text: proofs taken in turn stay within its memory.
set_option Elab.async false

/-! ### The relations -/

/-- What the invariants read of a descriptor. -/
def StreamBody.core (b : StreamBody) : Port × PortSet × Nat × Nat × List Nat :=
  (b.writer, b.readers, b.oldest, b.next, b.chain)

/-- What the invariants read of a cursor. -/
def Cursor.core (c : Cursor) : Nat × Nat × Nat := (c.committed, c.delivered, c.lost)

/-- FORMAT has found the array drained (R149). -/
def Device.formats (d : Device) : Prop :=
  d.consent.state = .formatErase ∨ d.consent.state = .formatCheckpoint ∨ d.writer.forFormat = true

/-- An executor that takes on nothing: no request, no operation, no claim, no page it did not have. -/
structure Executor.Gives (x x' : Executor) : Prop where
  hand : x'.inHand = none ∨ x'.inHand = x.inHand
  rests : x.job = .none → x'.job = .none
  append : ∀ k, x'.job = .append k → ∃ j, x.job = .append j ∧ k.stream = j.stream ∧
    (x'.state = .waitArray → x.state = .waitArray) ∧
    (k.paged = true → k.phase = j.phase ∧ k.sector = j.sector ∧ k.page = j.page ∧
      (x.state = .waitArray → x'.state = .waitArray))

/-- From `d` to `d'` the executors take on nothing, the array changes hands by the erase given up at most, and neither a
mount nor FORMAT gets further. -/
structure Device.Steers (d d' : Device) : Prop where
  mode : d'.mode = d.mode ∨ mountedMode d.mode = true ∧ mountedMode d'.mode = true ∧ d'.mode ≠ .formatting
  array : d.arbiter.holder ≠ some .engine → d'.arbiter.holder = d.arbiter.holder ∧ d'.arrayOp = d.arrayOp
  running : d'.engine.state = .running → d.engine.state = .running ∧ d'.arbiter.holder = d.arbiter.holder
  erasing : ∀ c', d'.engine.current = some c' →
    ∃ c, d.engine.current = some c ∧ c'.sector = c.sector ∧ c'.source = c.source
  formats : d'.formats → d.formats
  mount : d'.mount = d.mount
  execs : ∀ p, (d.exec p).Gives (d'.exec p)

/-- And the tables are as they were, but for what the invariants do not read. -/
structure Device.Steady (d d' : Device) : Prop extends Device.Steers d d' where
  streams : ∀ st, (d'.stream st).map StreamBody.core = (d.stream st).map StreamBody.core
  cursors : ∀ st p, (d'.cursor st p).map Cursor.core = (d.cursor st p).map Cursor.core
  pages : ∀ n, (d'.sector n).pages = (d.sector n).pages
  freePool : d'.freePool = d.freePool
  eraseQueue : d'.eraseQueue = d.eraseQueue
  badList : d'.badList = d.badList

theorem AppendJob.paged_iff (j : AppendJob) : j.paged = true ↔ j.phase = .step1 ∨ j.phase = .between ∨ j.phase = .step2 := by
  simp [AppendJob.paged, or_assoc]

theorem Executor.Gives.refl (x : Executor) : x.Gives x :=
  ⟨.inr rfl, id, fun k hk => ⟨k, hk, rfl, id, fun _ => ⟨rfl, rfl, rfl, id⟩⟩⟩

theorem Executor.Gives.trans {x y z : Executor} (h : x.Gives y) (k : y.Gives z) : x.Gives z where
  hand := by
    rcases k.hand with hz | hz
    · exact .inl hz
    · rw [hz]; exact h.hand
  rests := k.rests ∘ h.rests
  append l hl := by
    obtain ⟨j, hj, hstream, hwait, hpage⟩ := k.append l hl
    obtain ⟨i, hi, hstream', hwait', hpage'⟩ := h.append j hj
    refine ⟨i, hi, hstream.trans hstream', hwait' ∘ hwait, fun hp => ?_⟩
    obtain ⟨hphase, hsector, hat, hkeep⟩ := hpage hp
    have hjp : j.paged = true := by
      rw [AppendJob.paged_iff] at hp ⊢
      rwa [hphase] at hp
    obtain ⟨hphase', hsector', hat', hkeep'⟩ := hpage' hjp
    exact ⟨hphase.trans hphase', hsector.trans hsector', hat.trans hat', hkeep ∘ hkeep'⟩

/-- An executor left without an append gives up what it had. -/
theorem Executor.Gives.of_plain {x x' : Executor} (hand : x'.inHand = none ∨ x'.inHand = x.inHand)
    (rests : x.job = .none → x'.job = .none) (plain : ∀ k, x'.job ≠ .append k) : x.Gives x' :=
  ⟨hand, rests, fun k hk => absurd hk (plain k)⟩

theorem Executor.Gives.rest (x : Executor) : x.Gives Executor.rest := .of_plain (.inl rfl) (fun _ => rfl) nofun

/-- An executor of the same operation in a state that is no claim, having been in none. -/
theorem Executor.Gives.of_state {x : Executor} {v : ExecState} (hv : v ≠ .waitArray)
    (hx : ∀ j, x.job = .append j → j.paged = false ∨ x.state ≠ .waitArray) : x.Gives { x with state := v } :=
  ⟨.inr rfl, id, fun k hk => ⟨k, hk, rfl, fun h => absurd h hv, fun hp => ⟨rfl, rfl, rfl, fun hw => by
    rcases hx k hk with hf | hne
    · rw [hf] at hp; cases hp
    · exact absurd hw hne⟩⟩⟩

theorem Device.Steers.refl (d : Device) : d.Steers d :=
  ⟨.inl rfl, fun _ => ⟨rfl, rfl⟩, fun h => ⟨h, rfl⟩, fun c hc => ⟨c, hc, rfl, rfl⟩, id, rfl, fun _ => .refl _⟩

theorem Device.Steers.trans {a b c : Device} (h : a.Steers b) (k : b.Steers c) : a.Steers c where
  mode := by
    rcases k.mode with hk | ⟨hb, hc, hne⟩
    · rcases h.mode with hh | ⟨ha, hb, hne⟩
      · exact .inl (hk.trans hh)
      · exact .inr ⟨ha, hk ▸ hb, hk ▸ hne⟩
    · refine .inr ⟨?_, hc, hne⟩
      rcases h.mode with hh | ⟨ha, -, -⟩
      · exact hh ▸ hb
      · exact ha
  array ha := by
    obtain ⟨h1, h2⟩ := h.array ha
    obtain ⟨k1, k2⟩ := k.array (h1 ▸ ha)
    exact ⟨k1.trans h1, k2.trans h2⟩
  running hc := ⟨(h.running (k.running hc).1).1, (k.running hc).2.trans (h.running (k.running hc).1).2⟩
  erasing c hc := by
    obtain ⟨c1, hc1, h1, h2⟩ := k.erasing c hc
    obtain ⟨c2, hc2, h3, h4⟩ := h.erasing c1 hc1
    exact ⟨c2, hc2, h1.trans h3, h2.trans h4⟩
  formats := h.formats ∘ k.formats
  mount := k.mount.trans h.mount
  execs p := (h.execs p).trans (k.execs p)

theorem Device.Steady.refl (d : Device) : d.Steady d :=
  ⟨.refl d, fun _ => rfl, fun _ _ => rfl, fun _ => rfl, rfl, rfl, rfl⟩

theorem Device.Steady.trans {a b c : Device} (h : a.Steady b) (k : b.Steady c) : a.Steady c :=
  ⟨h.toSteers.trans k.toSteers, fun st => (k.streams st).trans (h.streams st),
    fun st p => (k.cursors st p).trans (h.cursors st p), fun n => (k.pages n).trans (h.pages n),
    k.freePool.trans h.freePool, k.eraseQueue.trans h.eraseQueue, k.badList.trans h.badList⟩

/-! ### Atoms -/

/-- Nothing the invariants read changes but what is given up. -/
theorem Device.Steady.of_same {d d' : Device} (streams : d'.streams = d.streams := by rfl)
    (cursors : d'.cursors = d.cursors := by rfl) (sectors : d'.sectors = d.sectors := by rfl)
    (freePool : d'.freePool = d.freePool := by rfl) (eraseQueue : d'.eraseQueue = d.eraseQueue := by rfl)
    (badList : d'.badList = d.badList := by rfl)
    (mode : d'.mode = d.mode ∨ mountedMode d.mode = true ∧ mountedMode d'.mode = true ∧ d'.mode ≠ .formatting := by
      exact Or.inl rfl)
    (holder : d'.arbiter.holder = d.arbiter.holder := by rfl) (arrayOp : d'.arrayOp = d.arrayOp := by rfl)
    (running : d'.engine.state = .running → d.engine.state = .running := by exact id)
    (erasing : ∀ c', d'.engine.current = some c' →
      ∃ c, d.engine.current = some c ∧ c'.sector = c.sector ∧ c'.source = c.source := by exact fun c h => ⟨c, h, rfl, rfl⟩)
    (formats : d'.formats → d.formats := by exact id) (mount : d'.mount = d.mount := by rfl)
    (execs : ∀ p, (d.exec p).Gives (d'.exec p) := by exact fun _ => Executor.Gives.refl _) : d.Steady d' where
  mode := mode
  array _ := ⟨holder, arrayOp⟩
  running h := ⟨running h, holder⟩
  erasing := erasing
  formats := formats
  mount := mount
  execs := execs
  streams st := by rw [Device.stream, streams]; rfl
  cursors st p := by rw [Device.cursor, cursors]; rfl
  pages n := by rw [Device.sector_congr sectors n]
  freePool := freePool
  eraseQueue := eraseQueue
  badList := badList

namespace Device.Steady

variable {d₀ d : Device}

theorem ite {c : Prop} [Decidable c] {x y : Device} (hx : d₀.Steady x) (hy : d₀.Steady y) :
    d₀.Steady (if c then x else y) := by
  split
  exacts [hx, hy]

theorem ite_of {c : Prop} [Decidable c] {x y : Device} (hx : c → d₀.Steady x) (hy : d₀.Steady y) :
    d₀.Steady (if c then x else y) := by
  split
  exacts [hx ‹_›, hy]

/-! ### Tables -/

theorem setBody (h : d₀.Steady d) {st : Fin 16} {b b' : StreamBody} (hs : d.stream st = some b) (hb : b'.core = b.core) :
    d₀.Steady (d.setBody st (some b')) := by
  refine h.trans ⟨{ Steers.refl d with }, fun st' => ?_, fun _ _ => rfl, fun _ => rfl, rfl, rfl, rfl⟩
  by_cases hst : st' = st
  · subst hst
    rw [Device.stream_setBody, hs, Option.map_some, Option.map_some, hb]
  · rw [Device.stream_setBody_other _ _ _ _ hst]

theorem setCursor (h : d₀.Steady d) {st : Fin 16} {p : Port} {c c' : Cursor} (hc : d.cursor st p = some c)
    (hcore : c'.core = c.core) : d₀.Steady (d.setCursor st p (some c')) := by
  refine h.trans ⟨{ Steers.refl d with }, fun _ => rfl, fun st' p' => ?_, fun _ => rfl, rfl, rfl, rfl⟩
  by_cases hsame : st' = st ∧ p' = p
  · obtain ⟨rfl, rfl⟩ := hsame
    rw [Device.cursor_setCursor, hc, Option.map_some, Option.map_some, hcore]
  · rw [Device.cursor_setCursor_other]
    tauto

theorem setSector (h : d₀.Steady d) (n : Nat) {x : Sector} (hx : x.pages = (d.sector n).pages) :
    d₀.Steady (d.setSector n x) := by
  rw [Device.setSector_frame]
  refine h.trans ⟨{ Steers.refl d with }, fun _ => rfl, fun _ _ => rfl, fun m => ?_, rfl, rfl, rfl⟩
  show ((d.setSector n x).sector m).pages = (d.sector m).pages
  by_cases hm : m = n
  · subst hm
    by_cases hlt : m < 256
    · rw [Device.sector_setSector _ _ _ hlt, hx]
    · simp [Device.setSector, hlt]
  · rw [Device.sector_setSector_other _ _ _ _ hm]

/-! ### Executors and ports -/

theorem setExec (h : d₀.Steady d) (p : Port) {x : Executor} (hx : (d.exec p).Gives x) : d₀.Steady (d.setExec p x) := by
  refine h.trans (.of_same (execs := fun q => ?_))
  by_cases hq : q = p
  · subst hq; rwa [Device.exec_setExec]
  · rw [Device.exec_setExec_other _ _ _ _ hq]; exact .refl _

theorem rest (h : d₀.Steady d) (p : Port) : d₀.Steady (d.rest p) := h.setExec p (.rest _)

theorem setPort (h : d₀.Steady d) (p : Port) (x : HostPort) : d₀.Steady (d.setPort p x) := h.trans .of_same

theorem respond (h : d₀.Steady d) (p : Port) (r : Request) (status : Status) (body : List Byte) :
    d₀.Steady (d.respond p r status body) := h.setPort p _

theorem answer (h : d₀.Steady d) (p : Port) (status : Status) (body : List Byte) : d₀.Steady (d.answer p status body) := by
  unfold Device.answer
  split
  · exact h.setExec p (.rest _)
  · exact (h.respond p _ status body).setExec p (.rest _)

theorem drawn (h : d₀.Steady d) : d₀.Steady d.drawn := h.trans .of_same

theorem setSpaceWait (h : d₀.Steady d) (l : List Port) : d₀.Steady { d with spaceWait := l } := h.trans .of_same

/-! ### Events and flags -/

theorem setEvents (h : d₀.Steady d) (E : PerPort EventUnit) : d₀.Steady { d with events := E } := h.trans .of_same

theorem offer (h : d₀.Steady d) (p : Port) (e : Event) : d₀.Steady (d.offer p e) := by
  rw [Device.offer_frame]
  exact h.setEvents _

theorem offerSet (h : d₀.Steady d) (s : PortSet) (e : Event) : d₀.Steady (d.offerSet s e) := by
  rw [Device.offerSet_frame]
  exact h.setEvents _

theorem offerAll (h : d₀.Steady d) (e : Event) : d₀.Steady (d.offerAll e) := h.offerSet _ e

theorem evalHigh (h : d₀.Steady d) (st : Fin 16) : d₀.Steady (d.evalHigh st) := by
  unfold Device.evalHigh
  split
  · exact h
  · rename_i b hs
    split
    · split
      · exact h
      · have raised := h.setBody (b' := { b with high := true }) hs rfl
        exact raised.offer _ _
    · exact h.setBody hs rfl

theorem evalBacklog (h : d₀.Steady d) (st : Fin 16) (p : Port) : d₀.Steady (d.evalBacklog st p) := by
  unfold Device.evalBacklog
  split
  · rename_i c _ hc
    split
    · split
      · exact h
      · have raised := h.setCursor (c' := { c with flag := true }) hc rfl
        exact raised.offer _ _
    · exact h.setCursor hc rfl
  · exact h

theorem evalBacklogs (h : d₀.Steady d) (st : Fin 16) : d₀.Steady (d.evalBacklogs st) :=
  ((h.evalBacklog st .A).evalBacklog st .B).evalBacklog st .C

/-! ### Ballots, device state, sessions -/

/-- The consent unit gets no further with FORMAT. -/
theorem setConsent (h : d₀.Steady d) (c : Consent)
    (hc : c.state ≠ .formatErase ∧ c.state ≠ .formatCheckpoint ∨ c.state = d.consent.state) :
    d₀.Steady { d with consent := c } := by
  refine h.trans (.of_same (formats := ?_))
  rintro (hf | hf | hf)
  · exact .inl ((hc.resolve_left fun hne => hne.1 hf).symm.trans hf)
  · exact .inr (.inl ((hc.resolve_left fun hne => hne.2 hf).symm.trans hf))
  · exact .inr (.inr hf)

theorem holdBallotStream (h : d₀.Steady d) (op : BallotOp) (v : Bool) : d₀.Steady (d.holdBallotStream op v) := by
  unfold Device.holdBallotStream
  split
  · unfold Device.setBallotHeld
    split
    · exact h
    · rename_i hs
      exact h.setBody hs rfl
  · exact h

theorem closeBallot (h : d₀.Steady d) (o : BallotOutcome) : d₀.Steady (d.closeBallot o) := by
  unfold Device.closeBallot
  split
  · exact h
  · exact ((h.holdBallotStream _ _).offerSet _ _).setConsent _ (.inl ⟨nofun, nofun⟩)

theorem withdrawEngineClaim (h : d₀.Steady d) : d₀.Steady d.withdrawEngineClaim := h.trans (.of_same (running := nofun))

/-- What follows the change of the device state itself. -/
theorem enterState_of {m : DeviceState} (entered : d₀.Steady { d with mode := m, reason := d.reasonOnEntry m }) :
    d₀.Steady (d.enterState m) := by
  have announce : d₀.Steady (if announced m = true then
      ({ d with mode := m, reason := d.reasonOnEntry m } : Device).offerAll ⟨.state, none, some (deviceCode m)⟩
      else { d with mode := m, reason := d.reasonOnEntry m }) := .ite (entered.offerAll _) entered
  unfold Device.enterState
  dsimp only
  refine .ite (.withdrawEngineClaim ?_) ?_
  all_goals
    split
    · exact .ite (announce.closeBallot _) announce
    · exact announce

/-- Entry into READY or READ_ONLY from another state after a mount. -/
theorem enterState (h : d₀.Steady d) {m : DeviceState} (hd : mountedMode d.mode = true) (hm : mountedMode m = true)
    (hf : m ≠ .formatting) : d₀.Steady (d.enterState m) :=
  enterState_of (h.trans (.of_same (mode := .inr ⟨hd, hm, hf⟩)))

theorem abortBallotOf (h : d₀.Steady d) (p : Port) : d₀.Steady (d.abortBallotOf p) := .ite (h.closeBallot _) h

theorem sendPeer (h : d₀.Steady d) (p : Port) (attached : Bool) : d₀.Steady (d.sendPeer p attached) := h.offerSet _ _

theorem endSession (h : d₀.Steady d) (p : Port) : d₀.Steady (d.endSession p) :=
  (((h.setPort p _).setEvents _).abortBallotOf p).sendPeer p false

/-! ### The erase given up -/

/-- The engine's state is none that runs, and its current erase stands or is gone. -/
theorem setEngine (h : d₀.Steady d) {x : Engine} (hs : x.state = .running → d.engine.state = .running)
    (hx : x.current = d.engine.current ∨ x.current = none) : d₀.Steady { d with engine := x } := by
  refine h.trans (.of_same (running := hs) (erasing := fun c hc => ?_))
  rcases hx with hx | hx
  · exact ⟨c, hx ▸ hc, rfl, rfl⟩
  · exact nomatch hx.symm.trans hc

theorem setCtx (h : d₀.Steady d) (x : Option EraseContext) : d₀.Steady { d with eraseCtx := x } := h.trans .of_same

theorem setArbiter (h : d₀.Steady d) {x : Arbiter} (hx : x.holder = d.arbiter.holder) : d₀.Steady { d with arbiter := x } :=
  h.trans (.of_same (holder := hx))

/-- The engine gives the array up, running no more. -/
theorem releaseEngine (h : d₀.Steady d) (hh : d.arbiter.holder = some .engine) (hs : d.engine.state ≠ .running) :
    d₀.Steady d.release := by
  refine h.trans { (Steady.refl d) with toSteers := ?_ }
  exact { Steers.refl d with array := fun hne => absurd hh hne, running := fun hr => absurd hr hs }

theorem eraseAbandoned (h : d₀.Steady d) : d₀.Steady d.eraseAbandoned := by
  have ended {x : Device} (hx : d₀.Steady x) :
      d₀.Steady { x with eraseCtx := none, engine := { x.engine with current := none, state := .idle } } :=
    (hx.setCtx none).setEngine (x := { x.engine with current := none, state := .idle }) nofun (.inr rfl)
  unfold Device.eraseAbandoned
  dsimp only
  refine .ite_of (fun hh => .releaseEngine (ended ?_) hh nofun) (ended ?_)
  all_goals
    split
    · split
      exacts [h.setSector _ rfl, h]
    · exact h

theorem abandonErase (h : d₀.Steady d) : d₀.Steady d.abandonErase := by
  unfold Device.abandonErase
  split
  · exact h
  · split
    exacts [h.withdrawEngineClaim.eraseAbandoned, h.setCtx _, h.setCtx _]

theorem discardOutcome (h : d₀.Steady d) : d₀.Steady d.discardOutcome := by
  refine h.setEngine (fun hr => ?_) (.inl rfl)
  dsimp only at hr
  split at hr
  · cases hr
  · exact hr

theorem stopEngine (h : d₀.Steady d) : d₀.Steady d.stopEngine := by
  have emptied : d₀.Steady { d with
      engine := { d.engine with slot := [] }
      arbiter := { d.arbiter with starved := false, starveTimer := false } } := h.trans .of_same
  have stopped := emptied.abandonErase.discardOutcome
  unfold Device.stopEngine
  exact .ite (stopped.setEngine nofun (.inl rfl)) stopped

/-! ### Halting -/

theorem answerOnArray (h : d₀.Steady d) (p : Port) {j : AppendJob} (hj : (d.exec p).job = .append j)
    (hs : (d.exec p).state = .onArray) (status : Status) : d₀.Steady (d.answerOnArray p j status) := by
  have gives {x : Device} (hx : x.exec p = d.exec p) :
      (x.exec p).Gives ⟨.onArray, none, .append { j with kept := [] }⟩ := by
    refine ⟨.inl rfl, fun hn => ?_, fun k hk => ?_⟩
    · rw [hx, hj] at hn; cases hn
    · cases hk
      exact ⟨j, hx ▸ hj, rfl, nofun, fun _ => ⟨rfl, rfl, rfl, fun hw => by rw [hx, hs] at hw; cases hw⟩⟩
  unfold Device.answerOnArray
  dsimp only
  split
  · exact (h.respond p _ status []).setExec p (gives rfl)
  · exact h.setExec p (gives rfl)

theorem haltWaiter (h : d₀.Steady d) (p : Port) : d₀.Steady (d.haltWaiter p) := by
  unfold Device.haltWaiter
  split
  case h_3 hs =>
    split
    case h_1 hj => exact .ite h (h.answerOnArray p hj hs _)
    all_goals exact h
  case h_1 => exact h.answer _ _ _
  case h_2 => exact h.answer _ _ _
  all_goals exact h

theorem enterMetaMedia (h : d₀.Steady d) : d₀.Steady d.enterMetaMedia := by
  unfold Device.enterMetaMedia
  split
  case h_1 hm => exact h.enterState (by rw [hm]; rfl) rfl nofun
  case h_2 hm =>
    exact (h.enterState (m := .readOnly) (by rw [hm]; rfl) rfl nofun).setConsent _ (.inl ⟨nofun, nofun⟩)
  case h_3 => exact h.trans .of_same
  all_goals exact h

/-- The writer changes, getting no further with FORMAT. -/
theorem setWriter (h : d₀.Steady d) {w : Writer} (hw : w.forFormat = true → d.writer.forFormat = true) :
    d₀.Steady { d with writer := w } := by
  refine h.trans (.of_same (formats := ?_))
  rintro (hf | hf | hf)
  exacts [.inl hf, .inr (.inl hf), .inr (.inr (hw hf))]

theorem haltWriter (h : d₀.Steady d) : d₀.Steady d.haltWriter := by
  have halted := (h.setWriter (w := { d.writer with
    state := .halted
    inFlight := if d.arbiter.holder = some .writer then d.writer.inFlight.map fun g => { g with fate := .halted } else none
    phase := .none, forFormat := false, timerRunning := false, timerExpired := false, placeWait := [] })
    nofun).enterMetaMedia
  have emptied {x : Device} (hx : d₀.Steady x) : d₀.Steady { x with engine := { x.engine with slot := [] } } :=
    hx.setEngine (x := { x.engine with slot := [] }) id (.inl rfl)
  have abandoned {x : Device} (hx : d₀.Steady x) : d₀.Steady (match x.engine.current with
      | some c => if c.source = EraseSource.slot then x.abandonErase else x
      | none => x) := by
    split
    exacts [.ite hx.abandonErase hx, hx]
  unfold Device.haltWriter
  exact ((((abandoned (emptied halted)).haltWaiter .A).haltWaiter .B).haltWaiter .C).discardOutcome

/-! ### Staging and waiting -/

theorem recordEntry (h : d₀.Steady d) (e : MetaEntry) : d₀.Steady (d.recordEntry e) := by
  unfold Device.recordEntry
  split
  case h_1 =>
    split
    · rename_i hc
      exact h.setCursor hc rfl
    · exact h
  all_goals exact h

theorem stage (h : d₀.Steady d) (e : MetaEntry) : d₀.Steady (d.stage e) := by
  have replaced (l : List Staged) := (h.setWriter (w := { d.writer with staging := l }) id).recordEntry e
  unfold Device.stage
  refine .ite h ?_
  split
  · exact replaced _
  · exact .ite h.haltWriter ((h.setWriter (w := d.writer.addEntry e) id).recordEntry e)

theorem stageAll (es : List MetaEntry) (h : d₀.Steady d) : d₀.Steady (d.stageAll es) := by
  induction es generalizing d with
  | nil => exact h
  | cons e es ih => exact ih (h.stage e)

theorem joinPlaceWait (h : d₀.Steady d) (who : Waiter) : d₀.Steady (d.joinPlaceWait who) :=
  .ite h (h.setWriter (w := { d.writer with placeWait := _ }) id)

theorem leavePlaceWait (h : d₀.Steady d) (who : Waiter) : d₀.Steady (d.leavePlaceWait who) :=
  h.setWriter (w := { d.writer with placeWait := _ }) id

theorem durableAnswer (h : d₀.Steady d) (p : Port) : d₀.Steady (d.durableAnswer p) := by
  unfold Device.durableAnswer
  split
  case h_3 => split <;> exact h.answer _ _ _
  all_goals exact h.answer _ _ _

theorem releaseWaiter (h : d₀.Steady d) (p : Port) : d₀.Steady (d.releaseWaiter p) := by
  unfold Device.releaseWaiter
  split
  case h_1 => exact .ite (h.durableAnswer p) h
  all_goals exact h

theorem releaseWaiters (h : d₀.Steady d) : d₀.Steady d.releaseWaiters :=
  ((h.releaseWaiter .A).releaseWaiter .B).releaseWaiter .C

theorem stageEngine (h : d₀.Steady d) : d₀.Steady d.stageEngine := by
  have idle (o : MetaEntry) := ((h.leavePlaceWait .engine).setEngine
    (x := { (d.leavePlaceWait .engine).engine with outcome := none, state := .idle }) nofun (.inl rfl)).stage o
  have waits := (h.joinPlaceWait .engine).setEngine
    (x := { (d.joinPlaceWait .engine).engine with state := .waitStaging }) nofun (.inl rfl)
  unfold Device.stageEngine
  split
  · exact h
  · exact .ite (idle _) waits

theorem purgeOver (h : d₀.Steady d) : d₀.Steady d.purgeOver := (h.leavePlaceWait .consent).setConsent _ (.inl ⟨nofun, nofun⟩)

theorem noFlushAfter (h : d₀.Steady d) : d₀.Steady d.noFlushAfter := .ite (h.setWriter id) h

theorem arrive (h : d₀.Steady d) (p : Port) (r : Request) : d₀.Steady (d.arrive p r) :=
  .ite (h.setPort p _) (h.setPort p _)

end Device.Steady

end Sys2Proof.Machine
end

