-- ==== Sys2Proof/Proofs/OrderedTables.lean ====
section
/-! The invariants of the last two obligations in the form in which operations are carried through them: `Placed` for the
sectors outside a mount, `OrderedFor` with the streams and the appends of some ports, `Scans` while a mount runs. -/

namespace Sys2Proof.Machine

open Sys2Proof

-- One process elaborates the whole text: proofs taken in turn stay within its memory.
set_option Elab.async false

/-! ### The states -/

/-- Outside a mount the sectors are in place (R12 to R16). -/
structure Device.Placed (d : Device) : Prop where
  mode : d.mode ≠ .mounting
  nodup : d.places.Nodup
  bad : d.badList.length ≤ 32
  erasing : ∀ c, d.engine.current = some c → c.source = .queue → c.sector ∈ d.eraseQueue
  all : mountedMode d.mode = true → d.places.Perm dataSectors

theorem Device.placed_iff (d : Device) : d.Placed ↔ d.mode ≠ .mounting ∧ d.sectorsGood :=
  ⟨fun h => ⟨h.mode, h.nodup, h.bad, h.erasing, h.all⟩, fun ⟨h1, h2, h3, h4, h5⟩ => ⟨h1, h2, h3, h4, h5⟩⟩

/-- The page states of a sector. -/
def Device.pagesOf (d : Device) (n : Nat) : List PageState := (d.sector n).pageList

/-- One stream with its chain's records and its cursors in order (R4, R11, R36, R49, R50). -/
structure StreamBody.InOrder (b : StreamBody) (pages : Nat → List PageState) (cursor : Port → Option Cursor) : Prop where
  oldest : b.oldest ≤ b.next
  records : (b.chain.flatMap fun n => (pages n).filterMap PageState.seq?) = List.range' b.oldest (b.next - b.oldest)
  pages : ∀ n ∈ b.chain, pagesInOrder (pages n)
  cursors : ∀ p c, cursor p = some c → b.readers.get p = true ∧ b.oldest ≤ c.committed ∧ c.committed ≤ c.delivered ∧
    c.delivered ≤ b.next ∧ c.lost ≤ 65535

theorem Device.cursorsGood_iff (d : Device) :
    d.cursorsGood ↔ ∀ st b, d.stream st = some b → b.InOrder d.pagesOf (d.cursor st) :=
  ⟨fun h st b hb => ⟨(h st b hb).1, (h st b hb).2.1, (h st b hb).2.2.1, (h st b hb).2.2.2⟩,
    fun h st b hb => ⟨(h st b hb).oldest, (h st b hb).records, (h st b hb).pages, (h st b hb).cursors⟩⟩

theorem StreamBody.core_eq {b b' : StreamBody} (h : b'.core = b.core) : b'.writer = b.writer ∧ b'.readers = b.readers ∧
    b'.oldest = b.oldest ∧ b'.next = b.next ∧ b'.chain = b.chain := by
  simpa only [StreamBody.core, Prod.mk.injEq] using h

theorem StreamBody.InOrder.congr {b b' : StreamBody} {pages pages' : Nat → List PageState} {cursor cursor' : Port → Option Cursor}
    (h : b.InOrder pages cursor) (hb : b'.core = b.core) (hp : ∀ n ∈ b.chain, pages' n = pages n)
    (hc : ∀ q, (cursor' q).map Cursor.core = (cursor q).map Cursor.core) : b'.InOrder pages' cursor' := by
  obtain ⟨-, hreaders, holdest, hnext, hchain⟩ := StreamBody.core_eq hb
  refine ⟨by rw [holdest, hnext]; exact h.oldest, ?_, fun n hn => ?_, fun p c hcp => ?_⟩
  · rw [hchain, holdest, hnext, ← h.records]
    exact List.flatMap_congr fun n hn => by rw [hp n hn]
  · rw [hchain] at hn
    rw [hp n hn]
    exact h.pages n hn
  · have hmap := hc p
    rw [hcp, Option.map_some, eq_comm, Option.map_eq_some_iff] at hmap
    obtain ⟨c₀, hc₀, hcore⟩ := hmap
    obtain ⟨h1, h2, h3⟩ : c₀.committed = c.committed ∧ c₀.delivered = c.delivered ∧ c₀.lost = c.lost := by
      simpa only [Cursor.core, Prod.mk.injEq] using hcore
    rw [hreaders, holdest, hnext, ← h1, ← h2, ← h3]
    exact h.cursors p c₀ hc₀

/-- What an append in execution rests on (R26, R27, R36, R37, R87, R149). -/
structure Device.AppendSafe (d : Device) (p : Port) (x : Executor) (j : AppendJob) : Prop where
  hand : ∀ r, x.inHand = some r → ∃ tag body, r = .known tag .append body ∧ streamArg body = some j.stream
  owned : x.state = .waitArray ∨ j.paged = true → ∃ b, d.stream j.stream = some b ∧ b.writer = p
  last : j.paged = true → ∀ b, d.stream j.stream = some b → b.chain.getLast? = some j.sector
  page : j.paged = true → (d.pagesOf j.sector)[j.page]? = some .writing ∧
    ∀ k, j.page < k → k < 16 → (d.pagesOf j.sector)[k]? = some .unused
  between : j.phase = .between → x.state = .waitArray
  holds : j.phase = .step1 ∨ j.phase = .step2 → d.arbiter.holder = some (.executor p) ∧
    ∃ sector page first target, d.arrayOp = .program sector page first target
  drained : d.mode = .formatting → d.formats → x.state ≠ .waitArray ∧ j.paged = false

/-- The sectors, the streams, the erase, and the appends of the ports in `S` are in order. -/
structure Device.OrderedFor (S : Port → Prop) (d : Device) : Prop extends Device.Placed d where
  streams : ∀ st b, d.stream st = some b → b.InOrder d.pagesOf (d.cursor st)
  running : d.engine.state = .running → d.arbiter.holder = some .engine
  appends : ∀ p, S p → ∀ j, (d.exec p).job = .append j → d.AppendSafe p (d.exec p) j

/-- Every port. -/
def everyPort : Port → Prop := fun _ => True

/-- The other ports. -/
def butPort (p : Port) : Port → Prop := fun q => q ≠ p

theorem Device.appendsGood_iff (d : Device) : d.appendsGood ↔ (d.engine.state = .running → d.arbiter.holder = some .engine) ∧
    ∀ p j, (d.exec p).job = .append j → d.AppendSafe p (d.exec p) j := by
  constructor
  · rintro ⟨happend, hrun, hdrained⟩
    refine ⟨hrun, fun p j hj => ?_⟩
    obtain ⟨h1, h2, h3, h4, h5⟩ := happend p j hj
    exact ⟨h1, h2, fun hp => (h3 hp).1, fun hp => (h3 hp).2, h4, h5, fun hm hf => hdrained hm hf p j hj⟩
  · rintro ⟨hrun, happend⟩
    refine ⟨fun p j hj => ?_, hrun, fun hm hf p j hj => (happend p j hj).drained hm hf⟩
    have h := happend p j hj
    exact ⟨h.hand, h.owned, fun hp => ⟨h.last hp, h.page hp⟩, h.between, h.holds⟩

theorem Device.ordered_iff (d : Device) : d.OrderedFor everyPort ↔ d.Placed ∧ d.cursorsGood ∧ d.appendsGood := by
  rw [Device.cursorsGood_iff, Device.appendsGood_iff]
  exact ⟨fun h => ⟨h.toPlaced, h.streams, h.running, fun p => h.appends p trivial⟩,
    fun ⟨h1, h2, h3, h4⟩ => ⟨h1, h2, h3, fun p _ => h4 p⟩⟩

theorem Device.OrderedFor.weaken {S T : Port → Prop} {d : Device} (h : d.OrderedFor S) (hT : ∀ p, T p → S p) : d.OrderedFor T :=
  { h with appends := fun p hp => h.appends p (hT p hp) }

theorem Device.OrderedFor.but {d : Device} (h : d.OrderedFor everyPort) (p : Port) : d.OrderedFor (butPort p) :=
  h.weaken fun _ _ => trivial

/-- From `d` to `d'` what is in place and in order stays so. -/
structure Device.Runs (d d' : Device) : Prop where
  placed : d.Placed → d'.Placed
  ordered : ∀ S, d.OrderedFor S → d'.OrderedFor S

theorem Device.Runs.refl (d : Device) : d.Runs d := ⟨id, fun _ => id⟩

theorem Device.Runs.trans {a b c : Device} (h : a.Runs b) (k : b.Runs c) : a.Runs c :=
  ⟨k.placed ∘ h.placed, fun S => k.ordered S ∘ h.ordered S⟩

/-! ### The sectors between their places -/

/-- The sectors have moved between places. -/
structure Device.Moves (d d' : Device) : Prop extends Device.Steers d d' where
  places : d'.places.Perm d.places
  bad : d.badList.length ≤ 32 → d'.badList.length ≤ 32
  queue : ∀ c, d'.engine.current = some c → c.source = .queue → c.sector ∈ d.eraseQueue → c.sector ∈ d'.eraseQueue

theorem Device.Moves.refl (d : Device) : d.Moves d := ⟨.refl d, .refl _, id, fun _ _ _ => id⟩

theorem Device.Moves.trans {a b c : Device} (h : a.Moves b) (k : b.Moves c) : a.Moves c :=
  ⟨h.toSteers.trans k.toSteers, k.places.trans h.places, k.bad ∘ h.bad, fun x hx hs hn => by
    obtain ⟨y, hy, hsector, hsource⟩ := k.erasing x hx
    exact k.queue x hx hs (hsector ▸ h.queue y hy (hsource.symm.trans hs) (hsector ▸ hn))⟩

theorem Device.chainOf_of_core {d d' : Device} {st : Fin 16}
    (h : (d'.stream st).map StreamBody.core = (d.stream st).map StreamBody.core) : d'.chainOf st = d.chainOf st := by
  have read (e : Device) : e.chainOf st = ((e.stream st).map StreamBody.core).elim [] fun c => c.2.2.2.2 := by
    unfold Device.chainOf
    cases e.stream st <;> rfl
  rw [read, read, h]

theorem Device.Steady.moves {d d' : Device} (h : d.Steady d') : d.Moves d' := by
  refine ⟨h.toSteers, ?_, by rw [h.badList]; exact id, by rw [h.eraseQueue]; exact fun _ _ _ => id⟩
  rw [Device.places_eq, Device.places_eq, h.freePool, h.eraseQueue, h.badList,
    Device.chained_congr fun st => Device.chainOf_of_core (h.streams st)]

theorem Device.Moves.placed {d d' : Device} (h : d.Moves d') (hd : d.Placed) : d'.Placed where
  mode := by
    rcases h.mode with hm | ⟨-, hm, -⟩
    · rw [hm]; exact hd.mode
    · intro hc; rw [hc] at hm; cases hm
  nodup := h.places.nodup_iff.mpr hd.nodup
  bad := h.bad hd.bad
  erasing c hc hs := by
    obtain ⟨c₀, hc₀, hsector, hsource⟩ := h.erasing c hc
    exact h.queue c hc hs (hsector ▸ hd.erasing c₀ hc₀ (hsource.symm.trans hs))
  all hm := by
    refine h.places.trans (hd.all ?_)
    rcases h.mode with hk | ⟨hk, -, -⟩
    · rwa [← hk]
    · exact hk

/-! ### The appends -/

theorem AppendJob.step_paged {j : AppendJob} (h : j.phase = .step1 ∨ j.phase = .step2) : j.paged = true := by
  rw [AppendJob.paged_iff]
  tauto

theorem AppendJob.between_paged {j : AppendJob} (h : j.phase = .between) : j.paged = true := by
  rw [AppendJob.paged_iff]
  tauto

/-- An append that gives up at most stays safe where its stream, its chain's end and its page are as they were. -/
theorem Device.AppendSafe.steers {d d' : Device} (h : d.Steers d') {p : Port} {x x' : Executor} {j k : AppendJob}
    (hs : d.AppendSafe p x j) (hx : x.Gives x') (hj : x.job = .append j) (hk : x'.job = .append k)
    (owned : x.state = .waitArray ∨ j.paged = true → ∃ b', d'.stream j.stream = some b' ∧ b'.writer = p ∧
      (j.paged = true → b'.chain.getLast? = some j.sector ∧ d'.pagesOf j.sector = d.pagesOf j.sector)) :
    d'.AppendSafe p x' k := by
  obtain ⟨i, hi, hstream, hwait, hpage⟩ := hx.append k hk
  obtain rfl : i = j := Job.append.inj (hi.symm.trans hj)
  have was (hp : k.paged = true) : i.paged = true := by
    obtain ⟨hphase, -⟩ := hpage hp
    rw [AppendJob.paged_iff] at hp ⊢
    rwa [hphase] at hp
  refine ⟨fun r hr => ?_, fun hc => ?_, fun hp b hb => ?_, fun hp => ?_, fun hb => ?_, fun hstep => ?_, fun hm hf => ?_⟩
  · rcases hx.hand with hn | hsame
    · rw [hn] at hr; cases hr
    · rw [hstream]; exact hs.hand r (hsame ▸ hr)
  · obtain ⟨b', hb', hw, -⟩ := owned (hc.imp hwait was)
    exact ⟨b', by rw [hstream]; exact hb', hw⟩
  · obtain ⟨b', hb', -, hlast⟩ := owned (.inr (was hp))
    rw [hstream, hb'] at hb
    cases hb
    rw [(hpage hp).2.1]
    exact (hlast (was hp)).1
  · obtain ⟨b', -, -, hlast⟩ := owned (.inr (was hp))
    obtain ⟨-, hsector, hat, -⟩ := hpage hp
    rw [hsector, hat, (hlast (was hp)).2]
    exact hs.page (was hp)
  · obtain ⟨hphase, -, -, hkeep⟩ := hpage (AppendJob.between_paged hb)
    exact hkeep (hs.between (hphase ▸ hb))
  · obtain ⟨hphase, -⟩ := hpage (AppendJob.step_paged hstep)
    obtain ⟨hh, hop⟩ := hs.holds (hphase ▸ hstep)
    obtain ⟨h1, h2⟩ := h.array (by rw [hh]; nofun)
    rw [h1, h2]
    exact ⟨hh, hop⟩
  · have hm' : d.mode = .formatting := by
      rcases h.mode with hk | ⟨-, -, hne⟩
      · exact hk ▸ hm
      · exact absurd hm hne
    obtain ⟨hw, hp⟩ := hs.drained hm' (h.formats hf)
    refine ⟨fun hc => hw (hwait hc), Bool.eq_false_iff.mpr fun hc => ?_⟩
    rw [was hc] at hp
    cases hp

/-! ### One stream changed -/

/-- Stream `st` alone has changed, and the page maps of the sectors `gone` alone. -/
structure Device.Shifts (d d' : Device) (st : Fin 16) (gone : List Nat) : Prop extends Device.Moves d d' where
  streams : ∀ st', st' ≠ st → (d'.stream st').map StreamBody.core = (d.stream st').map StreamBody.core
  cursors : ∀ st' q, st' ≠ st → (d'.cursor st' q).map Cursor.core = (d.cursor st' q).map Cursor.core
  pages : ∀ n, n ∉ gone → (d'.sector n).pages = (d.sector n).pages

theorem Device.Steady.shifts {d d' : Device} (h : d.Steady d') (st : Fin 16) : d.Shifts d' st [] :=
  ⟨h.moves, fun st' _ => h.streams st', fun st' q _ => h.cursors st' q, fun n _ => h.pages n⟩

theorem Device.Shifts.trans {a b c : Device} {st : Fin 16} {l₁ l₂ : List Nat} (h : a.Shifts b st l₁) (k : b.Shifts c st l₂) :
    a.Shifts c st (l₁ ++ l₂) where
  toMoves := h.toMoves.trans k.toMoves
  streams st' hne := (k.streams st' hne).trans (h.streams st' hne)
  cursors st' q hne := (k.cursors st' q hne).trans (h.cursors st' q hne)
  pages n hn := by
    rw [List.mem_append, not_or] at hn
    exact (k.pages n hn.2).trans (h.pages n hn.1)

theorem Device.Shifts.steady {a b c : Device} {st : Fin 16} {l : List Nat} (h : a.Shifts b st l) (k : b.Steady c) :
    a.Shifts c st l := by
  have := h.trans (k.shifts st)
  rwa [List.append_nil] at this

theorem Device.Shifts.pagesOf {d d' : Device} {st : Fin 16} {gone : List Nat} (h : d.Shifts d' st gone) {n : Nat} (hn : n ∉ gone) :
    d'.pagesOf n = d.pagesOf n := congrArg Vector.toList (h.pages n hn)

theorem Option.exists_of_map_core {o o' : Option StreamBody} (h : o'.map StreamBody.core = o.map StreamBody.core) {b : StreamBody}
    (hb : o = some b) : ∃ b', o' = some b' ∧ b'.core = b.core := by
  rw [hb, Option.map_some, Option.map_eq_some_iff] at h
  exact h

/-- A chain holds no sector twice, and two chains none in common (R12). -/
theorem Device.chain_nodup {d : Device} (h : d.places.Nodup) {st : Fin 16} {b : StreamBody} (hb : d.stream st = some b) :
    b.chain.Nodup := by
  rw [Device.places_eq, List.append_assoc, List.append_assoc] at h
  rw [← Device.chainOf_some hb]
  exact (List.nodup_flatMap.mp (List.nodup_append.mp h).1).1 st (List.mem_finRange st)

theorem Device.chains_apart {d : Device} (h : d.places.Nodup) {st st' : Fin 16} {b b' : StreamBody} (hb : d.stream st = some b)
    (hb' : d.stream st' = some b') (hne : st' ≠ st) {n : Nat} (hn : n ∈ b.chain) : n ∉ b'.chain := by
  rw [Device.places_eq, List.append_assoc, List.append_assoc] at h
  have hsymm : Std.Symm (Function.onFun List.Disjoint d.chainOf) := ⟨fun _ _ k => List.Disjoint.symm k⟩
  have hdis := (List.nodup_flatMap.mp (List.nodup_append.mp h).1).2.forall (R := Function.onFun List.Disjoint d.chainOf)
    (List.mem_finRange st) (List.mem_finRange st') hne.symm
  simp only [Function.onFun, Device.chainOf_some hb, Device.chainOf_some hb'] at hdis
  exact fun hn' => hdis hn hn'

theorem Device.mem_places_of_chain {d : Device} {st : Fin 16} {b : StreamBody} (hb : d.stream st = some b) {n : Nat}
    (hn : n ∈ b.chain) : n ∈ d.chained := by
  rw [Device.chained_eq, List.mem_flatMap]
  exact ⟨st, List.mem_finRange st, by rwa [Device.chainOf_some hb]⟩

/-- One stream changed, its own records and cursors in order again, and its appends still on their pages. -/
theorem Device.Shifts.ordered {d d' : Device} {st : Fin 16} {gone : List Nat} (h : d.Shifts d' st gone) {S : Port → Prop}
    (hd : d.OrderedFor S)
    (apart : ∀ n ∈ gone, ∀ st' b, st' ≠ st → d.stream st' = some b → n ∉ b.chain)
    (own : ∀ b', d'.stream st = some b' → b'.InOrder d'.pagesOf (d'.cursor st))
    (busy : ∀ p j, S p → (d.exec p).job = .append j → j.stream = st → (d.exec p).state = .waitArray ∨ j.paged = true →
      ∃ b', d'.stream st = some b' ∧ b'.writer = p ∧
        (j.paged = true → b'.chain.getLast? = some j.sector ∧ j.sector ∉ gone)) : d'.OrderedFor S where
  toPlaced := h.placed hd.toPlaced
  streams st' b' hb' := by
    by_cases hst : st' = st
    · subst hst
      exact own b' hb'
    · obtain ⟨b, hb, hcore⟩ := Option.exists_of_map_core (h.streams st' hst).symm hb'
      exact (hd.streams st' b hb).congr hcore.symm
        (fun n hn => h.pagesOf fun hg => apart n hg st' b hst hb hn) fun q => h.cursors st' q hst
  running hr := by
    obtain ⟨h1, h2⟩ := h.running hr
    exact h2.trans (hd.running h1)
  appends p hp k hk := by
    obtain ⟨j, hj, -⟩ := (h.execs p).append k hk
    have hsafe := hd.appends p hp j hj
    refine hsafe.steers h.toSteers (h.execs p) hj hk fun hc => ?_
    by_cases hst : j.stream = st
    · obtain ⟨b', hb', hw, hlast⟩ := busy p j hp hj hst hc
      rw [hst]
      exact ⟨b', hb', hw, fun hpaged => ⟨(hlast hpaged).1, h.pagesOf (hlast hpaged).2⟩⟩
    · obtain ⟨b, hb, hw⟩ := hsafe.owned hc
      obtain ⟨b', hb', hcore⟩ := Option.exists_of_map_core (h.streams j.stream hst) hb
      obtain ⟨hwriter, -, -, -, hchain⟩ := StreamBody.core_eq hcore
      refine ⟨b', hb', hwriter.trans hw, fun hpaged => ?_⟩
      have hlast := hsafe.last hpaged b hb
      rw [hchain]
      exact ⟨hlast, h.pagesOf fun hg => apart _ hg j.stream b hst hb (List.mem_of_getLast? hlast)⟩

/-- Steady operations keep what is in order. -/
theorem Device.Steady.runs {d d' : Device} (h : d.Steady d') : d.Runs d' where
  placed := h.moves.placed
  ordered S hd := by
    refine (h.shifts 0).ordered hd (fun n hn => absurd hn List.not_mem_nil) (fun b' hb' => ?_) fun p j hp hj hst hc => ?_
    · obtain ⟨b, hb, hcore⟩ := Option.exists_of_map_core (h.streams 0).symm hb'
      exact (hd.streams 0 b hb).congr hcore.symm (fun n _ => congrArg Vector.toList (h.pages n)) (h.cursors 0)
    · have hsafe := hd.appends p hp j hj
      obtain ⟨b, hb, hw⟩ := hsafe.owned hc
      obtain ⟨b', hb', hcore⟩ := Option.exists_of_map_core (h.streams j.stream) hb
      obtain ⟨hwriter, -, -, -, hchain⟩ := StreamBody.core_eq hcore
      rw [hst] at hb'
      exact ⟨b', hb', hwriter.trans hw, fun hpaged => ⟨hchain ▸ hsafe.last hpaged b hb, List.not_mem_nil⟩⟩

theorem Device.Runs.steady {a b c : Device} (h : a.Runs b) (k : b.Steady c) : a.Runs c := h.trans k.runs

/-! ### An executor's own part -/

/-- An executor set: the other ports' appends are as they were, and its own is safe. -/
theorem Device.OrderedFor.setExec {d : Device} {S : Port → Prop} {p : Port} {x : Executor}
    (h : d.OrderedFor fun q => S q ∧ q ≠ p) (hx : ∀ j, x.job = .append j → S p → d.AppendSafe p x j) :
    (d.setExec p x).OrderedFor S where
  toPlaced := ⟨h.mode, h.nodup, h.bad, h.erasing, h.all⟩
  streams := h.streams
  running := h.running
  appends q hq j hj := by
    by_cases hqp : q = p
    · subst hqp
      rw [Device.exec_setExec] at hj ⊢
      have k := hx j hj hq
      exact ⟨k.hand, k.owned, k.last, k.page, k.between, k.holds, k.drained⟩
    · rw [Device.exec_setExec_other _ _ _ _ hqp] at hj ⊢
      have k := h.appends q ⟨hq, hqp⟩ j hj
      exact ⟨k.hand, k.owned, k.last, k.page, k.between, k.holds, k.drained⟩

theorem Device.Placed.setExec {d : Device} (h : d.Placed) (p : Port) (x : Executor) : (d.setExec p x).Placed :=
  ⟨h.mode, h.nodup, h.bad, h.erasing, h.all⟩

end Sys2Proof.Machine
end

