-- ==== Sys2Proof/Proofs/ReleasedRuns.lean ====
section
/-! Sectors that leave a chain: the records left are one run again, and the cursors stay in order (R11, R24, R32, R49). -/

namespace Sys2Proof.Machine

open Sys2Proof

-- One process elaborates the whole text: proofs taken in turn stay within its memory.
set_option Elab.async false

/-! ### A run of records cut short -/

/-- The oldest sequence is that of the first record of the chain (R4). -/
theorem Device.chainOldest_head (d : Device) (chain : List Nat) (next : Nat) : d.chainOldest chain next =
    (chain.flatMap fun n => (d.pagesOf n).filterMap PageState.seq?).head?.getD next := by
  have hhead : (chain.filterMap fun n => (d.sector n).first?).head? =
      (chain.flatMap fun n => (d.pagesOf n).filterMap PageState.seq?).head? := by
    induction chain with
    | nil => rfl
    | cons n chain ih =>
      have hfirst : ((d.pagesOf n).filterMap PageState.seq?).head? = (d.sector n).first? := rfl
      rw [List.flatMap_cons, List.head?_append, ← ih, hfirst, List.filterMap_cons]
      cases (d.sector n).first? <;> rfl
  rw [Device.chainOldest, hhead]

/-- A run whose beginning has gone goes on from where that ended. -/
theorem range'_split {o next : Nat} {gone stay : List Nat} (h : gone ++ stay = List.range' o (next - o)) (ho : o ≤ next) :
    stay = List.range' (o + gone.length) (next - (o + gone.length)) ∧ o + gone.length ≤ next ∧
      stay.head?.getD next = o + gone.length ∧ (∀ v ∈ gone, v < o + gone.length) ∧
      ∀ m, o ≤ m → (∀ v ∈ gone, v < m) → o + gone.length ≤ m := by
  have hlen := congrArg List.length h
  rw [List.length_append, List.length_range'] at hlen
  have hsplit : List.range' o (next - o) = List.range' o gone.length ++ List.range' (o + gone.length) stay.length := by
    rw [List.range'_append_1, hlen]
  obtain ⟨hgone, hstay⟩ := List.append_inj (h.trans hsplit) (by rw [List.length_range'])
  have hcount : stay.length = next - (o + gone.length) := by omega
  rw [hcount] at hstay
  refine ⟨hstay, by omega, ?_, fun v hv => ?_, fun m hm hall => ?_⟩
  · rw [hstay]
    cases hn : next - (o + gone.length) with
    | zero => exact show next = _ by omega
    | succ n => rfl
  · rw [hgone, List.mem_range'_1] at hv
    exact hv.2
  · cases hg : gone.length with
    | zero => omega
    | succ n =>
      have := hall (o + n) (by rw [hgone, List.mem_range'_1]; omega)
      omega

/-- The sectors `gone` have left the chain's beginning, no cursor before their records: the stream is in order again. -/
theorem StreamBody.InOrder.drop {b b' : StreamBody} {pages pages' : Nat → List PageState} {cursor cursor' : Port → Option Cursor}
    (h : b.InOrder pages cursor) {gone stay : List Nat} (hc : b.chain = gone ++ stay) (chain : b'.chain = stay)
    (next : b'.next = b.next) (readers : b'.readers = b.readers)
    (oldest : b'.oldest = (stay.flatMap fun n => (pages n).filterMap PageState.seq?).head?.getD b.next)
    (kept : ∀ n ∈ stay, pages' n = pages n)
    (above : ∀ p c, cursor' p = some c → b.readers.get p = true ∧ b.oldest ≤ c.committed ∧ c.committed ≤ c.delivered ∧
      c.delivered ≤ b.next ∧ c.lost ≤ 65535 ∧ ∀ n ∈ gone, ∀ v ∈ (pages n).filterMap PageState.seq?, v < c.committed) :
    b'.InOrder pages' cursor' := by
  have hrun := h.records
  rw [hc, List.flatMap_append] at hrun
  obtain ⟨hstay, hle, hhead, -, hleast⟩ := range'_split hrun h.oldest
  rw [hhead] at oldest
  refine ⟨by rw [oldest, next]; exact hle, ?_, fun n hn => ?_, fun p c hp => ?_⟩
  · rw [chain, oldest, next, ← hstay]
    exact List.flatMap_congr fun n hn => by rw [kept n hn]
  · rw [chain] at hn
    rw [kept n hn]
    exact h.pages n (hc ▸ List.mem_append_right _ hn)
  · obtain ⟨hreader, hfirst, hdelivered, hnext, hlost, hall⟩ := above p c hp
    rw [readers, oldest, next]
    refine ⟨hreader, hleast _ hfirst fun v hv => ?_, hdelivered, hnext, hlost⟩
    obtain ⟨n, hn, hv'⟩ := List.mem_flatMap.mp hv
    exact hall n hn v hv'

/-! ### Sectors released -/

/-- The sectors `gone` have joined the erase queue or the bad list; the streams still name them. -/
structure Device.Releases (d d' : Device) (gone : List Nat) : Prop extends Device.Steers d d' where
  streams : ∀ st, (d'.stream st).map StreamBody.core = (d.stream st).map StreamBody.core
  cursors : ∀ st p, (d'.cursor st p).map Cursor.core = (d.cursor st p).map Cursor.core
  pages : ∀ n, n ∉ gone → (d'.sector n).pages = (d.sector n).pages
  freePool : d'.freePool = d.freePool
  lists : (d'.eraseQueue ++ d'.badList).Perm (d.eraseQueue ++ d.badList ++ gone)
  queue : ∀ n ∈ d.eraseQueue, n ∈ d'.eraseQueue
  bad : d.badList.length ≤ 32 → d'.badList.length ≤ 32

theorem Device.Steady.releases {d d' : Device} (h : d.Steady d') : d.Releases d' [] :=
  ⟨h.toSteers, h.streams, h.cursors, fun n _ => h.pages n, h.freePool, by rw [h.eraseQueue, h.badList, List.append_nil],
    by rw [h.eraseQueue]; exact fun _ => id, by rw [h.badList]; exact id⟩

theorem Device.Releases.trans {a b c : Device} {l₁ l₂ : List Nat} (h : a.Releases b l₁) (k : b.Releases c l₂) :
    a.Releases c (l₁ ++ l₂) where
  toSteers := h.toSteers.trans k.toSteers
  streams st := (k.streams st).trans (h.streams st)
  cursors st p := (k.cursors st p).trans (h.cursors st p)
  pages n hn := by
    rw [List.mem_append, not_or] at hn
    exact (k.pages n hn.2).trans (h.pages n hn.1)
  freePool := k.freePool.trans h.freePool
  lists := by
    rw [← List.append_assoc]
    exact k.lists.trans (h.lists.append_right _)
  queue n hn := k.queue n (h.queue n hn)
  bad := k.bad ∘ h.bad

theorem Device.Releases.steady {a b c : Device} {l : List Nat} (h : a.Releases b l) (k : b.Steady c) : a.Releases c l := by
  have := h.trans k.releases
  rwa [List.append_nil] at this

/-- A sector's descriptor and the lists set, the sector in one list more. -/
theorem Device.releases_of_lists (d : Device) (n : Nat) (x : Sector) {Q B : List Nat}
    (lists : (Q ++ B).Perm (d.eraseQueue ++ d.badList ++ [n])) (queue : ∀ m ∈ d.eraseQueue, m ∈ Q)
    (bad : d.badList.length ≤ 32 → B.length ≤ 32) :
    d.Releases { d.setSector n x with eraseQueue := Q, badList := B } [n] := by
  rw [Device.setSector_frame]
  exact
    { Steers.refl d with
      streams := fun _ => rfl
      cursors := fun _ _ => rfl
      pages := fun m hm => congrArg Sector.pages
        (Device.sector_setSector_other d n m x fun he => hm (he ▸ List.mem_singleton_self _))
      freePool := rfl
      lists := lists
      queue := queue
      bad := bad }

theorem Device.joinQueue_releases (d : Device) (n : Nat) : d.Releases (d.joinQueue n) [n] := by
  have h := d.releases_of_lists n ((d.sector n).cleared .queued d.newestSerial) (Q := d.eraseQueue ++ [n]) (B := d.badList)
    (by
      refine List.perm_iff_count.mpr fun a => ?_
      simp only [List.count_append]
      omega)
    (fun m hm => List.mem_append_left _ hm) id
  have hframe : d.joinQueue n = { d.setSector n ((d.sector n).cleared .queued d.newestSerial) with
      eraseQueue := d.eraseQueue ++ [n], badList := d.badList } := by
    unfold Device.joinQueue
    rw [← Device.setSector_badList d n ((d.sector n).cleared .queued d.newestSerial)]
  rw [hframe]
  exact h

/-- A sector retired while the bad list has room (R16). -/
theorem Device.retire_releases (d : Device) (n : Nat) (hroom : d.badList.length < 32) : d.Releases (d.retire n) [n] := by
  have hperm := insertAscending_perm n d.badList
  have listed : d.Releases (d.listBad n) [n] := by
    have h := d.releases_of_lists n ((d.sector n).cleared .bad 0) (Q := d.eraseQueue) (B := insertAscending n d.badList)
      (by
        rw [List.append_assoc]
        exact (hperm.trans (List.perm_append_singleton _ _).symm).append_left _)
      (fun _ => id) fun _ => by rw [hperm.length_eq, List.length_cons]; omega
    have hframe : d.listBad n = { d.setSector n ((d.sector n).cleared .bad 0) with
        eraseQueue := d.eraseQueue, badList := insertAscending n d.badList } := by
      unfold Device.listBad
      rw [← Device.setSector_eraseQueue d n ((d.sector n).cleared .bad 0)]
    rw [hframe]
    exact h
  have told := (Steady.refl (d.listBad n)).offerAll ⟨.retired, some n, none⟩
  have hretire : d.retire n = if ((d.listBad n).offerAll ⟨.retired, some n, none⟩).badList.length = 32 &&
      ((d.listBad n).offerAll ⟨.retired, some n, none⟩).mode == .ready then
        ((d.listBad n).offerAll ⟨.retired, some n, none⟩).enterState .readOnly
      else (d.listBad n).offerAll ⟨.retired, some n, none⟩ := by
    unfold Device.retire Device.listBad
    rw [← Device.setSector_badList d n ((d.sector n).cleared .bad 0)]
    rfl
  rw [hretire]
  split
  · rename_i hready
    rw [Bool.and_eq_true, beq_iff_eq] at hready
    exact listed.steady (told.enterState (by rw [hready.2]; rfl) rfl nofun)
  · exact listed.steady told

theorem releaseSector_releases (x : Device × List Nat) (n : Nat) : x.1.Releases (releaseSector x n).1 [n] := by
  rcases releaseSector_cases x n with ⟨-, hroom, h⟩ | ⟨-, h⟩ <;> rw [h]
  exacts [x.1.retire_releases n hroom, x.1.joinQueue_releases n]

theorem foldl_releaseSector_releases (gone : List Nat) (x : Device × List Nat) :
    x.1.Releases (gone.foldl releaseSector x).1 gone := by
  induction gone generalizing x with
  | nil => exact (Device.Steady.refl x.1).releases
  | cons n gone ih => exact (releaseSector_releases x n).trans (ih _)

/-! ### The chain replaced, the counters anew -/

/-- The heads released leave the chain: every sector is in one place still. -/
theorem Device.Releases.setChain {d e : Device} {gone stay : List Nat} (h : d.Releases e gone) {st : Fin 16} {b : StreamBody}
    (hs : d.stream st = some b) (hc : b.chain = gone ++ stay) : d.Shifts (e.setChain st stay) st gone := by
  obtain ⟨b', hb', hcore⟩ := Option.exists_of_map_core (h.streams st) hs
  have hother (st' : Fin 16) (hne : st' ≠ st) : (e.setChain st stay).stream st' = e.stream st' := Device.setChain_other e hne stay
  have hchains : ∀ st', st' ≠ st → (e.setChain st stay).chainOf st' = d.chainOf st' := fun st' hne =>
    Device.chainOf_of_core (by rw [hother st' hne]; exact h.streams st')
  have hplaces : (e.setChain st stay).places.Perm d.places := by
    have hperm := Device.chained_replace hchains
    rw [Device.chainOf_some hs, Device.chainOf_some (Device.setChain_self hb' stay), hc] at hperm
    have hlists := h.lists
    have hpool : (e.setChain st stay).freePool = d.freePool := by rw [Device.setChain_frame e]; exact h.freePool
    have hqueue : (e.setChain st stay).eraseQueue = e.eraseQueue := by rw [Device.setChain_frame e]
    have hbad : (e.setChain st stay).badList = e.badList := by rw [Device.setChain_frame e]
    rw [Device.places_eq, Device.places_eq, hpool, hqueue, hbad]
    refine List.perm_iff_count.mpr fun a => ?_
    have h1 := List.perm_iff_count.mp hperm a
    have h2 := List.perm_iff_count.mp hlists a
    simp only [List.count_append] at h1 h2 ⊢
    omega
  have hsteers : e.Steers (e.setChain st stay) := by
    rw [Device.setChain_frame e]
    exact { Steers.refl e with }
  exact
    { h.toSteers.trans hsteers with
      places := hplaces
      bad := by rw [Device.setChain_frame e]; exact h.bad
      queue := by rw [Device.setChain_frame e]; exact fun c _ _ hn => h.queue _ hn
      streams := fun st' hne => by rw [hother st' hne]; exact h.streams st'
      cursors := fun st' q _ => by rw [Device.setChain_frame e]; exact h.cursors st' q
      pages := fun n hn => by
        rw [← h.pages n hn, Device.setChain_frame e]
        rfl }

theorem Device.recount_shifts (d : Device) (st : Fin 16) : d.Shifts (d.recount st) st [] := by
  have hchain : ∀ st', (d.recount st).chainOf st' = d.chainOf st' := fun st' => by
    by_cases hst : st' = st
    · subst hst
      cases hs : d.stream st' with
      | none => rw [Device.recount_none _ _ hs]
      | some b => rw [Device.chainOf_some hs, Device.chainOf_some (Device.recount_stream_self _ hs)]
    · unfold Device.chainOf
      rw [Device.recount_stream_other _ _ hst]
  have hplaces : (d.recount st).places = d.places := by
    rw [Device.places_eq, Device.places_eq, Device.chained_congr hchain, Device.recount_frame]
  have hsteers : d.Steers (d.recount st) := by
    rw [Device.recount_frame]
    exact { Steers.refl d with }
  exact
    { hsteers with
      places := hplaces ▸ .refl _
      bad := by rw [Device.recount_frame]; exact id
      queue := by rw [Device.recount_frame]; exact fun _ _ _ => id
      streams := fun st' hne => by rw [Device.recount_stream_other _ _ hne]
      cursors := fun st' q _ => by rw [Device.recount_frame]; rfl
      pages := fun n _ => by rw [Device.recount_frame]; rfl }

/-- What recounting makes of the stream's own fields (R4). -/
theorem Device.recounted_core {d : Device} {st : Fin 16} {b b' : StreamBody} (hs : d.stream st = some b)
    (h : ((d.recount st).evalHigh st).stream st = some b') : b'.writer = b.writer ∧ b'.readers = b.readers ∧
      b'.next = b.next ∧ b'.chain = b.chain ∧
      b'.oldest = (b.chain.flatMap fun n => (d.pagesOf n).filterMap PageState.seq?).head?.getD b.next := by
  rw [Device.recounted_self _ _ hs] at h
  cases h
  exact ⟨rfl, rfl, rfl, rfl, d.chainOldest_head b.chain b.next⟩

end Sys2Proof.Machine
end

