-- ==== Sys2Proof/Proofs/RunningStreams.lean ====
section
/-! What reclaims, drops, purges, deletions and the changes of a definition or a cursor keep of the streams and the
appends. -/

namespace Sys2Proof.Machine

open Sys2Proof

-- One process elaborates the whole text: proofs taken in turn stay within its memory.
set_option Elab.async false

/-! ### The reclaim rule -/

theorem Device.headsGone_shifts {d : Device} {st : Fin 16} {b : StreamBody} (hs : d.stream st = some b) {gone stay : List Nat}
    (hc : b.chain = gone ++ stay) : d.Shifts (d.headsGone st gone stay) st gone := by
  have h := ((foldl_releaseSector_releases gone (d, [])).setChain hs hc).trans (Device.recount_shifts _ st)
  rw [List.append_nil] at h
  exact h.steady ((Device.Steady.refl _).evalHigh st)

/-- The stream after its heads have left. -/
theorem Device.headsGone_core {d : Device} {st : Fin 16} {b b' : StreamBody} (hs : d.stream st = some b) {gone stay : List Nat}
    (hnodup : (gone ++ stay).Nodup) (h : (d.headsGone st gone stay).stream st = some b') : b'.writer = b.writer ∧
      b'.readers = b.readers ∧ b'.next = b.next ∧ b'.chain = stay ∧
      b'.oldest = (stay.flatMap fun n => (d.pagesOf n).filterMap PageState.seq?).head?.getD b.next := by
  obtain ⟨b₀, hor, hb₀⟩ := Device.headsGone_self hs hnodup
  rw [hb₀] at h
  cases h
  refine ⟨?_, ?_, ?_, rfl, d.chainOldest_head stay b.next⟩ <;> rcases hor with rfl | rfl <;> rfl

/-- The heads of a chain gone, no cursor before their records and no page WRITING in them. -/
theorem Device.headsGone_ordered {d : Device} {S : Port → Prop} (hd : d.OrderedFor S) {st : Fin 16} {b : StreamBody}
    (hs : d.stream st = some b) {gone stay : List Nat} (hc : b.chain = gone ++ stay)
    (above : ∀ q c, d.cursor st q = some c → ∀ n ∈ gone, ∀ v ∈ (d.pagesOf n).filterMap PageState.seq?, v < c.committed)
    (busy : ∀ q j, S q → (d.exec q).job = .append j → j.stream = st → b.writer = q → j.paged = true → j.sector ∉ gone) :
    (d.headsGone st gone stay).OrderedFor S := by
  have hnodup : (gone ++ stay).Nodup := hc ▸ Device.chain_nodup hd.nodup hs
  have hshift := Device.headsGone_shifts hs hc
  have hin := hd.streams st b hs
  have hcursors (q : Port) : ((d.headsGone st gone stay).cursor st q).map Cursor.core = (d.cursor st q).map Cursor.core := by
    have hframe : (d.headsGone st gone stay).cursor st q = (gone.foldl releaseSector (d, [])).1.cursor st q := by
      rw [Device.headsGone_frame]
      rfl
    rw [hframe]
    exact (foldl_releaseSector_releases gone (d, [])).cursors st q
  refine hshift.ordered hd (fun n hn st' b' hne hb' => Device.chains_apart hd.nodup hs hb' hne
    (hc ▸ List.mem_append_left _ hn)) (fun b' hb' => ?_) fun q j hq hj hst hclaim => ?_
  · obtain ⟨-, hreaders, hnext, hchain, holdest⟩ := Device.headsGone_core hs hnodup hb'
    refine hin.drop hc hchain hnext hreaders holdest
      (fun n hn => hshift.pagesOf fun hg => (List.nodup_append.mp hnodup).2.2 n hg n hn rfl) fun q c hq => ?_
    have hmap := hcursors q
    rw [hq, Option.map_some, eq_comm, Option.map_eq_some_iff] at hmap
    obtain ⟨c₀, hc₀, hcore⟩ := hmap
    obtain ⟨h1, h2, h3⟩ : c₀.committed = c.committed ∧ c₀.delivered = c.delivered ∧ c₀.lost = c.lost := by
      simpa only [Cursor.core, Prod.mk.injEq] using hcore
    obtain ⟨k1, k2, k3, k4, k5⟩ := hin.cursors q c₀ hc₀
    rw [← h1, ← h2, ← h3]
    exact ⟨k1, k2, k3, k4, k5, above q c₀ hc₀⟩
  · have hsafe := hd.appends q hq j hj
    obtain ⟨b₁, hb₁, hw⟩ := hsafe.owned hclaim
    obtain rfl : b₁ = b := Option.some.inj ((hst ▸ hb₁).symm.trans hs)
    obtain ⟨_, -, hself⟩ := Device.headsGone_self hs hnodup
    obtain ⟨hwriter, -, -, hchain, -⟩ := Device.headsGone_core hs hnodup hself
    refine ⟨_, hself, hwriter.trans hw, fun hp => ?_⟩
    have hgone := busy q j hq hj hst hw hp
    have hlast := hsafe.last hp b₁ hb₁
    refine ⟨?_, hgone⟩
    rw [hc] at hlast
    rw [hchain]
    cases hstay : stay.getLast? with
    | none =>
      rw [List.getLast?_append, hstay, Option.none_or] at hlast
      exact absurd (List.mem_of_getLast? hlast) hgone
    | some n =>
      rw [List.getLast?_append, hstay, Option.some_or] at hlast
      exact hlast

/-- The least committed is no cursor's more (R24). -/
theorem Device.leastCommitted_le (d : Device) {st : Fin 16} {b : StreamBody} {q : Port} {c : Cursor} (hr : b.readers.get q = true)
    (hc : d.cursor st q = some c) : d.leastCommitted st b ≤ c.committed := by
  have hfold (xs : List Nat) (x : Nat) : xs.foldl min x ≤ x ∧ ∀ y ∈ xs, xs.foldl min x ≤ y := by
    induction xs generalizing x with
    | nil => exact ⟨Nat.le_refl _, nofun⟩
    | cons y xs ih =>
      obtain ⟨h1, h2⟩ := ih (min x y)
      refine ⟨h1.trans (Nat.min_le_left _ _), fun z hz => ?_⟩
      rcases List.mem_cons.mp hz with rfl | hz
      · exact h1.trans (Nat.min_le_right _ _)
      · exact h2 z hz
  have hmem : c.committed ∈ ([.A, .B, .C].map fun p => if b.readers.get p then (d.cursor st p).map Cursor.committed else none
      : List (Option Nat)).filterMap id := by
    rw [List.mem_filterMap]
    refine ⟨some c.committed, List.mem_map.mpr ⟨q, by cases q <;> simp, ?_⟩, rfl⟩
    rw [if_pos hr, hc, Option.map_some]
  unfold Device.leastCommitted
  dsimp only
  simp only [List.map_cons, List.map_nil] at hmem
  split
  · rename_i hnil
    rw [hnil] at hmem
    cases hmem
  · rename_i x xs hcons
    rw [hcons] at hmem
    rcases List.mem_cons.mp hmem with rfl | hmem
    · exact (hfold xs _).1
    · exact (hfold xs x).2 _ hmem

/-- Every record of a sector that reclaim takes is below the least committed (R24). -/
theorem StreamBody.InOrder.below {b : StreamBody} {pages : Nat → List PageState} {cursor : Port → Option Cursor}
    (h : b.InOrder pages cursor) {n : Nat} (hn : n ∈ b.chain) {least : Nat}
    (hlast : ∀ last, ((pages n).filterMap PageState.seq?).getLast? = some last → last < least) :
    ∀ v ∈ (pages n).filterMap PageState.seq?, v < least := by
  intro v hv
  have hpair : (b.chain.flatMap fun n => (pages n).filterMap PageState.seq?).Pairwise (· < ·) := by
    rw [h.records]
    exact List.pairwise_lt_range'
  have hown := (List.pairwise_flatMap.mp hpair).1 n hn
  cases hg : ((pages n).filterMap PageState.seq?).getLast? with
  | none =>
    rw [List.getLast?_eq_none_iff.mp hg] at hv
    cases hv
  | some last =>
    obtain ⟨front, hfront⟩ := List.getLast?_eq_some_iff.mp hg
    refine Nat.lt_of_le_of_lt ?_ (hlast last hg)
    rw [hfront, List.mem_append, List.mem_singleton] at hv
    rw [hfront] at hown
    rcases hv with hv | rfl
    · exact Nat.le_of_lt ((List.pairwise_append.mp hown).2.2 v hv last (List.mem_singleton_self _))
    · exact Nat.le_refl _

theorem Device.reclaim_runs (d : Device) (st : Fin 16) : d.Runs (d.reclaim st).1 := by
  cases hs : d.stream st with
  | none =>
    rw [Device.reclaim, hs]
    exact .refl d
  | some b =>
    refine ⟨fun hd => ?_, fun S hd => ?_⟩
    · rcases Device.reclaim_cases hs with h | ⟨gone, stay, hc, h⟩ <;> rw [h]
      · exact hd
      · exact (Device.headsGone_shifts hs hc).placed hd
    · by_cases hmode : d.mode = .readOnly
      · have h : d.reclaim st = (d, []) := by rw [Device.reclaim, hs]; simp only [hmode, if_true]
        rw [h]
        exact hd
      · obtain ⟨gone, stay, hc, hgone, -, hnil, hcons⟩ := Device.reclaim_eq hs (Device.chain_nodup hd.nodup hs) hmode
        by_cases he : gone = []
        · rw [hnil he]
          exact hd
        · rw [hcons he]
          refine Device.headsGone_ordered hd hs hc (fun q c hq n hn v hv => ?_) fun q j hq hj hst hw hp hmem => ?_
          · obtain ⟨hreader, -⟩ := (hd.streams st b hs).cursors q c hq
            refine Nat.lt_of_lt_of_le ?_ (d.leastCommitted_le hreader hq)
            refine (hd.streams st b hs).below (hc ▸ List.mem_append_left _ hn) (fun last hl => ?_) v hv
            have hrec := hgone n hn
            have hl' : (d.sector n).last? = some last := hl
            rw [Sector.reclaimable, hl', Bool.and_eq_true] at hrec
            exact of_decide_eq_true hrec.2
          · have hpage := ((hd.appends q hq j hj).page hp).1
            exact ((Sector.reclaimable_iff _ _).mp (hgone j.sector hmem)).2.1 (List.mem_of_getElem? hpage)

theorem Device.reclaimStaged_runs (d : Device) (st : Fin 16) : d.Runs (d.reclaimStaged st) :=
  (d.reclaim_runs st).steady ((Device.Steady.refl _).stageAll _)

/-! ### Cursors set -/

/-- One cursor replaced, in the order of R49. -/
theorem Device.setCursor_ordered {d : Device} {S : Port → Prop} (hd : d.OrderedFor S) {st : Fin 16} {p : Port} {c : Cursor}
    (hc : ∀ b, d.stream st = some b → b.readers.get p = true ∧ b.oldest ≤ c.committed ∧ c.committed ≤ c.delivered ∧
      c.delivered ≤ b.next ∧ c.lost ≤ 65535) : (d.setCursor st p (some c)).OrderedFor S := by
  have hshift : d.Shifts (d.setCursor st p (some c)) st [] :=
    { Device.Moves.refl d with
      mode := .inl rfl
      array := fun _ => ⟨rfl, rfl⟩
      streams := fun _ _ => rfl
      cursors := fun st' q hne => by rw [Device.cursor_setCursor_other _ _ _ _ _ _ (.inl hne)]
      pages := fun _ _ => rfl }
  refine hshift.ordered hd nofun (fun b hb => ?_) fun q j hq hj hst hclaim => ?_
  · have hin := hd.streams st b hb
    refine ⟨hin.oldest, hin.records, hin.pages, fun q c' hq => ?_⟩
    by_cases hqp : q = p
    · subst hqp
      rw [Device.cursor_setCursor] at hq
      cases hq
      exact hc b hb
    · rw [Device.cursor_setCursor_other _ _ _ _ _ _ (.inr hqp)] at hq
      exact hin.cursors q c' hq
  · obtain ⟨b, hb, hw⟩ := (hd.appends q hq j hj).owned hclaim
    rw [hst] at hb
    exact ⟨b, hb, hw, fun hp => ⟨(hd.appends q hq j hj).last hp b (hst ▸ hb), List.not_mem_nil⟩⟩

theorem Device.Placed.setCursor {d : Device} (h : d.Placed) (st : Fin 16) (p : Port) (c : Option Cursor) :
    (d.setCursor st p c).Placed := ⟨h.mode, h.nodup, h.bad, h.erasing, h.all⟩

/-! ### The drop (R32, R33) -/

/-- Cursors alone have changed. -/
structure Device.Cursory (d d' : Device) : Prop extends Device.Moves d d' where
  streams : ∀ st, (d'.stream st).map StreamBody.core = (d.stream st).map StreamBody.core
  pages : ∀ n, (d'.sector n).pages = (d.sector n).pages

theorem Device.Cursory.trans {a b c : Device} (h : a.Cursory b) (k : b.Cursory c) : a.Cursory c :=
  ⟨h.toMoves.trans k.toMoves, fun st => (k.streams st).trans (h.streams st), fun n => (k.pages n).trans (h.pages n)⟩

theorem Device.Steady.cursory {d d' : Device} (h : d.Steady d') : d.Cursory d' := ⟨h.moves, h.streams, h.pages⟩

theorem Device.setCursor_cursory (d : Device) (st : Fin 16) (p : Port) (c : Option Cursor) : d.Cursory (d.setCursor st p c) :=
  { Device.Moves.refl d with
    mode := .inl rfl
    array := fun _ => ⟨rfl, rfl⟩
    streams := fun _ => rfl
    pages := fun _ => rfl }

/-- One reader raised to X, or not below it (R32). -/
theorem Device.raiseCursor_cases {d : Device} {st : Fin 16} {b : StreamBody} (hs : d.stream st = some b) (x : Nat) (p : Port) :
    (d.raiseCursor st x p = d ∧ ∀ c, d.cursor st p = some c → b.readers.get p = true → x ≤ c.committed) ∨
    ∃ c c' : Cursor, d.cursor st p = some c ∧ b.readers.get p = true ∧ c.committed < x ∧ c'.committed = x ∧
      c'.delivered = max c.delivered x ∧ c'.lost ≤ 65535 ∧ (d.setCursor st p (some c')).Steady (d.raiseCursor st x p) := by
  unfold Device.raiseCursor
  rw [hs]
  cases hc : d.cursor st p with
  | none => exact .inl ⟨rfl, nofun⟩
  | some c =>
    dsimp only
    split
    · rename_i hbelow
      rw [Bool.and_eq_true] at hbelow
      exact .inr ⟨c, _, rfl, hbelow.1, of_decide_eq_true hbelow.2, rfl, rfl, Nat.min_le_left _ _,
        (((Steady.refl _).stage _).offer _ _).evalBacklog _ _⟩
    · rename_i hnot
      refine .inl ⟨rfl, fun c₀ hc₀ hr => ?_⟩
      cases hc₀
      rw [hr, Bool.true_and, decide_eq_true_eq] at hnot
      exact Nat.not_lt.mp hnot

theorem Device.raiseCursor_cursory (d : Device) (st : Fin 16) (x : Nat) (p : Port) : d.Cursory (d.raiseCursor st x p) := by
  cases hs : d.stream st with
  | none =>
    unfold Device.raiseCursor
    rw [hs]
    exact (Device.Steady.refl d).cursory
  | some b =>
    rcases Device.raiseCursor_cases hs x p with ⟨h, -⟩ | ⟨_, _, -, -, -, -, -, -, h⟩
    · rw [h]; exact (Device.Steady.refl d).cursory
    · exact (d.setCursor_cursory _ _ _).trans h.cursory

/-- The readers up to one port raised: in order, at X or past it, the others as they were. -/
theorem Device.raiseCursor_ordered {d : Device} {S : Port → Prop} (hd : d.OrderedFor S) {st : Fin 16} {b : StreamBody}
    (hs : d.stream st = some b) {x : Nat} (hlow : b.oldest ≤ x) (hx : x ≤ b.next) (p : Port) :
    (d.raiseCursor st x p).OrderedFor S ∧ ∀ q c, (d.raiseCursor st x p).cursor st q = some c →
      (q = p ∨ ∀ c₀, d.cursor st q = some c₀ → x ≤ c₀.committed) → x ≤ c.committed := by
  have hin := hd.streams st b hs
  rcases Device.raiseCursor_cases hs x p with ⟨h, habove⟩ | ⟨c, c', hc, hr, hlt, h1, h2, h3, h⟩
  · rw [h]
    refine ⟨hd, fun q c hq hor => ?_⟩
    rcases hor with rfl | hor
    · exact habove c hq (hin.cursors q c hq).1
    · exact hor c hq
  · obtain ⟨-, -, k3, k4, -⟩ := hin.cursors p c hc
    have hset : (d.setCursor st p (some c')).OrderedFor S := Device.setCursor_ordered hd fun b' hb' => by
      obtain rfl : b = b' := Option.some.inj (hs.symm.trans hb')
      rw [h1, h2]
      exact ⟨hr, hlow, Nat.le_max_right _ _, Nat.max_le.mpr ⟨k4, hx⟩, h3⟩
    refine ⟨h.runs.ordered S hset, fun q c₁ hq hor => ?_⟩
    have hmap := h.cursors st q
    rw [hq, Option.map_some, eq_comm, Option.map_eq_some_iff] at hmap
    obtain ⟨c₂, hc₂, hcore⟩ := hmap
    have hcommitted : c₂.committed = c₁.committed := congrArg Prod.fst hcore
    rw [← hcommitted]
    by_cases hqp : q = p
    · subst hqp
      rw [Device.cursor_setCursor] at hc₂
      cases hc₂
      exact h1.ge
    · rw [Device.cursor_setCursor_other _ _ _ _ _ _ (.inr hqp)] at hc₂
      exact hor.resolve_left hqp c₂ hc₂

theorem Device.Cursory.some_stream {d d' : Device} (h : d.Cursory d') {st : Fin 16} {b : StreamBody} (hs : d.stream st = some b) :
    ∃ b', d'.stream st = some b' ∧ b'.core = b.core := Option.exists_of_map_core (h.streams st) hs

/-- The readers raised to X in the order of their ports. -/
theorem Device.readersRaised_cursory (d : Device) (st : Fin 16) (x : Nat) : d.Cursory (d.readersRaised st x) :=
  ((d.raiseCursor_cursory st x .A).trans (Device.raiseCursor_cursory _ st x .B)).trans (Device.raiseCursor_cursory _ st x .C)

theorem Device.readersRaised_ordered {d : Device} {S : Port → Prop} (hd : d.OrderedFor S) {st : Fin 16} {b : StreamBody}
    (hs : d.stream st = some b) {x : Nat} (hlow : b.oldest ≤ x) (hx : x ≤ b.next) :
    (d.readersRaised st x).OrderedFor S ∧ ∀ q c, (d.readersRaised st x).cursor st q = some c → x ≤ c.committed := by
  obtain ⟨hA, aboveA⟩ := Device.raiseCursor_ordered hd hs hlow hx .A
  obtain ⟨bA, hsA, hcoreA⟩ := (d.raiseCursor_cursory st x .A).some_stream hs
  obtain ⟨-, -, holdA, hnextA, -⟩ := StreamBody.core_eq hcoreA
  obtain ⟨hB, aboveB⟩ := Device.raiseCursor_ordered hA hsA (holdA ▸ hlow) (hnextA ▸ hx) .B
  obtain ⟨bB, hsB, hcoreB⟩ := ((d.raiseCursor_cursory st x .A).trans (Device.raiseCursor_cursory _ st x .B)).some_stream hs
  obtain ⟨-, -, holdB, hnextB, -⟩ := StreamBody.core_eq hcoreB
  obtain ⟨hC, aboveC⟩ := Device.raiseCursor_ordered hB hsB (holdB ▸ hlow) (hnextB ▸ hx) .C
  refine ⟨hC, fun q c hq => aboveC q c hq ?_⟩
  cases q with
  | A => exact .inr fun c₀ h₀ => aboveB .A c₀ h₀ (.inr fun c₁ h₁ => aboveA .A c₁ h₁ (.inl rfl))
  | B => exact .inr fun c₀ h₀ => aboveB .B c₀ h₀ (.inl rfl)
  | C => exact .inl rfl

/-- A drop, its stream's writer with no page of the stream (R33). -/
theorem Device.dropHead_runs {d : Device} {st : Fin 16} (S : Port → Prop)
    (busy : ∀ q j, S q → (d.exec q).job = .append j → j.stream = st → j.paged = false) :
    (d.Placed → (d.dropHead st).Placed) ∧ (d.OrderedFor S → (d.dropHead st).OrderedFor S) := by
  cases hs : d.stream st with
  | none =>
    have h : d.dropHead st = d := by rw [Device.dropHead, hs]
    rw [h]
    exact ⟨id, id⟩
  | some b =>
    cases hc : b.chain with
    | nil =>
      have h : d.dropHead st = d := by rw [Device.dropHead, hs]; dsimp only; rw [hc]
      rw [h]
      exact ⟨id, id⟩
    | cons head rest =>
      rw [Device.dropHead_eq hs hc]
      have hcur := d.readersRaised_cursory st (d.chainOldest rest b.next)
      obtain ⟨b₁, hs₁, hcore⟩ := hcur.some_stream hs
      obtain ⟨-, -, hold, hnext, hchain⟩ := StreamBody.core_eq hcore
      have hc₁ : b₁.chain = [head] ++ rest := hchain.trans hc
      refine ⟨fun hd => ?_, fun hd => ?_⟩
      · exact (Device.Steady.refl _).stageAll _ |>.runs.placed ((Device.reclaim_runs _ st).placed
          ((Device.headsGone_shifts hs₁ hc₁).placed (hcur.placed hd)))
      · have hin := hd.streams st b hs
        have hrun := hin.records
        rw [hc, List.flatMap_cons] at hrun
        obtain ⟨-, hle, hhead, hall, -⟩ := range'_split hrun hin.oldest
        rw [← Device.chainOldest_head] at hhead
        obtain ⟨hraised, habove⟩ := Device.readersRaised_ordered hd hs (x := d.chainOldest rest b.next)
          (by rw [hhead]; exact Nat.le_add_right _ _) (by rw [hhead]; exact hle)
        refine (Device.Steady.refl _).stageAll _ |>.runs.ordered S ((Device.reclaim_runs _ st).ordered S
          (Device.headsGone_ordered hraised hs₁ hc₁ (fun q c hq n hn v hv => ?_) fun q j hq hj hst _ hp => ?_))
        · obtain rfl : n = head := List.mem_singleton.mp hn
          rw [Device.pagesOf, Sector.pageList, hcur.pages n] at hv
          refine Nat.lt_of_lt_of_le ?_ (habove q c hq)
          rw [hhead]
          exact hall v hv
        · obtain ⟨i, hi, hstream, -, hpage⟩ := (hcur.execs q).append j hj
          obtain ⟨hphase, -⟩ := hpage hp
          have hnot := busy q i hq hi (hstream ▸ hst)
          rw [AppendJob.paged_iff, hphase, ← AppendJob.paged_iff, hnot] at hp
          cases hp

/-! ### Streams and their writers come through -/

/-- And every stream keeps its writer. -/
structure Device.Owning (d d' : Device) : Prop extends Device.Steers d d' where
  owners : ∀ st b, d.stream st = some b → ∃ b', d'.stream st = some b' ∧ b'.writer = b.writer

theorem Device.Owning.refl (d : Device) : d.Owning d := ⟨.refl d, fun _ b hb => ⟨b, hb, rfl⟩⟩

theorem Device.Owning.trans {a b c : Device} (h : a.Owning b) (k : b.Owning c) : a.Owning c where
  toSteers := h.toSteers.trans k.toSteers
  owners st x hx := by
    obtain ⟨y, hy, hxy⟩ := h.owners st x hx
    obtain ⟨z, hz, hyz⟩ := k.owners st y hy
    exact ⟨z, hz, hyz.trans hxy⟩

theorem Device.Cursory.owning {d d' : Device} (h : d.Cursory d') : d.Owning d' :=
  ⟨h.toSteers, fun _ _ hb => (h.some_stream hb).imp fun _ k => ⟨k.1, (StreamBody.core_eq k.2).1⟩⟩

theorem Device.Steady.owning {d d' : Device} (h : d.Steady d') : d.Owning d' := h.cursory.owning

theorem Device.Shifts.owning {d d' : Device} {st : Fin 16} {gone : List Nat} (h : d.Shifts d' st gone)
    (own : ∀ b, d.stream st = some b → ∃ b', d'.stream st = some b' ∧ b'.writer = b.writer) : d.Owning d' :=
  ⟨h.toSteers, fun st' b hb => by
    by_cases hst : st' = st
    · subst hst
      exact own b hb
    · exact (Option.exists_of_map_core (h.streams st' hst) hb).imp fun _ k => ⟨k.1, (StreamBody.core_eq k.2).1⟩⟩

theorem Device.headsGone_owning {d : Device} (hnodup : d.places.Nodup) {st : Fin 16} {b : StreamBody} (hs : d.stream st = some b)
    {gone stay : List Nat} (hc : b.chain = gone ++ stay) : d.Owning (d.headsGone st gone stay) := by
  refine (Device.headsGone_shifts hs hc).owning fun b₁ hb₁ => ?_
  obtain rfl : b = b₁ := Option.some.inj (hs.symm.trans hb₁)
  have hchain : (gone ++ stay).Nodup := hc ▸ Device.chain_nodup hnodup hs
  obtain ⟨_, -, hself⟩ := Device.headsGone_self hs hchain
  exact ⟨_, hself, (Device.headsGone_core hs hchain hself).1⟩

theorem Device.reclaim_owning {d : Device} (hnodup : d.places.Nodup) (st : Fin 16) : d.Owning (d.reclaim st).1 := by
  cases hs : d.stream st with
  | none =>
    rw [Device.reclaim, hs]
    exact .refl d
  | some b =>
    rcases Device.reclaim_cases hs with h | ⟨gone, stay, hc, h⟩ <;> rw [h]
    · exact .refl d
    · exact Device.headsGone_owning hnodup hs hc

theorem Device.dropHead_owning {d : Device} (hd : d.Placed) (st : Fin 16) : d.Owning (d.dropHead st) := by
  cases hs : d.stream st with
  | none =>
    have h : d.dropHead st = d := by rw [Device.dropHead, hs]
    rw [h]
    exact .refl d
  | some b =>
    cases hc : b.chain with
    | nil =>
      have h : d.dropHead st = d := by rw [Device.dropHead, hs]; dsimp only; rw [hc]
      rw [h]
      exact .refl d
    | cons head rest =>
      rw [Device.dropHead_eq hs hc]
      have hcur := d.readersRaised_cursory st (d.chainOldest rest b.next)
      obtain ⟨b₁, hs₁, hcore⟩ := hcur.some_stream hs
      obtain ⟨-, -, -, -, hchain⟩ := StreamBody.core_eq hcore
      have hc₁ : b₁.chain = [head] ++ rest := hchain.trans hc
      have hraised := hcur.placed hd
      have hgone := (Device.headsGone_shifts hs₁ hc₁).placed hraised
      exact ((hcur.owning.trans (Device.headsGone_owning hraised.nodup hs₁ hc₁)).trans
        (Device.reclaim_owning hgone.nodup st)).trans ((Steady.refl _).stageAll _).owning

end Sys2Proof.Machine
end

