-- ==== Sys2Proof/Proofs/ChangedStreams.lean ====
section
/-! What purges, deletions, creations, definitions and acknowledgements keep of the streams and the appends. -/

namespace Sys2Proof.Machine

open Sys2Proof

-- One process elaborates the whole text: proofs taken in turn stay within its memory.
set_option Elab.async false

/-! ### A chain emptied (R23, R148) -/

theorem Device.emptyChain_shifts {d : Device} {st : Fin 16} {b : StreamBody} (hs : d.stream st = some b) :
    d.Shifts (d.emptyChain st).1 st b.chain := by
  rw [Device.emptyChain_eq hs]
  exact (foldl_releaseSector_releases b.chain (d, [])).setChain hs (List.append_nil _).symm

theorem Device.emptyChain_stream {d : Device} {st : Fin 16} {b : StreamBody} (hs : d.stream st = some b) :
    ∃ b', (d.emptyChain st).1.stream st = some b' ∧ b'.writer = b.writer ∧ b'.readers = b.readers ∧ b'.next = b.next ∧
      b'.chain = [] := by
  obtain ⟨b', hb', hcore⟩ := Option.exists_of_map_core ((foldl_releaseSector_releases b.chain (d, [])).streams st) hs
  obtain ⟨hwriter, hreaders, -, hnext, -⟩ := StreamBody.core_eq hcore
  rw [Device.emptyChain_eq hs]
  exact ⟨_, Device.setChain_self hb' [], hwriter, hreaders, hnext, rfl⟩

theorem Device.emptyChain_cursor {d : Device} {st : Fin 16} {b : StreamBody} (hs : d.stream st = some b) (q : Port) :
    ((d.emptyChain st).1.cursor st q).map Cursor.core = (d.cursor st q).map Cursor.core := by
  have hframe : (d.emptyChain st).1.cursor st q = (b.chain.foldl releaseSector (d, [])).1.cursor st q := by
    rw [Device.emptyChain_eq hs, Device.setChain_frame]
    rfl
  rw [hframe]
  exact (foldl_releaseSector_releases b.chain (d, [])).cursors st q

/-! ### PURGE (R148) -/

theorem Device.purgeCursor_steady {d : Device} {st : Fin 16} {p : Port} {c : Cursor} (hc : d.cursor st p = some c) (next : Nat) :
    (d.setCursor st p (some { c with committed := next, delivered := next })).Steady (d.purgeCursor st next p) := by
  rw [Device.purgeCursor_some hc]
  exact (Steady.refl _).stage _

theorem Device.purgeCursor_cursory (d : Device) (st : Fin 16) (next : Nat) (p : Port) : d.Cursory (d.purgeCursor st next p) := by
  cases hc : d.cursor st p with
  | none =>
    have h : d.purgeCursor st next p = d := by rw [Device.purgeCursor, hc]
    rw [h]
    exact (Steady.refl d).cursory
  | some c => exact (d.setCursor_cursory _ _ _).trans (Device.purgeCursor_steady hc next).cursory

theorem Device.purgeCursor_ordered {d : Device} {S : Port → Prop} (hd : d.OrderedFor S) {st : Fin 16} {next : Nat}
    (hnext : ∀ b, d.stream st = some b → b.next = next) (p : Port) : (d.purgeCursor st next p).OrderedFor S := by
  cases hc : d.cursor st p with
  | none =>
    have h : d.purgeCursor st next p = d := by rw [Device.purgeCursor, hc]
    rw [h]
    exact hd
  | some c =>
    refine (Device.purgeCursor_steady hc next).runs.ordered S (Device.setCursor_ordered hd fun b hb => ?_)
    obtain ⟨hreader, -, -, -, hlost⟩ := (hd.streams st b hb).cursors p c hc
    have h := hnext b hb
    exact ⟨hreader, h ▸ (hd.streams st b hb).oldest, Nat.le_refl _, h.ge, hlost⟩

theorem Device.cursorsPurged_cursory (d : Device) (st : Fin 16) (next : Nat) : d.Cursory (d.cursorsPurged st next) :=
  ((d.purgeCursor_cursory st next .A).trans (Device.purgeCursor_cursory _ st next .B)).trans
    (Device.purgeCursor_cursory _ st next .C)

theorem Device.cursorsPurged_ordered {d : Device} {S : Port → Prop} (hd : d.OrderedFor S) {st : Fin 16} {b : StreamBody}
    (hs : d.stream st = some b) : (d.cursorsPurged st b.next).OrderedFor S := by
  have hnext {e : Device} (h : d.Cursory e) : ∀ b', e.stream st = some b' → b'.next = b.next := fun b' hb' => by
    obtain ⟨b₁, hb₁, hcore⟩ := h.some_stream hs
    obtain rfl : b₁ = b' := Option.some.inj (hb₁.symm.trans hb')
    obtain ⟨-, -, -, hnext, -⟩ := StreamBody.core_eq hcore
    exact hnext
  have hA := d.purgeCursor_cursory st b.next .A
  have hB := hA.trans (Device.purgeCursor_cursory _ st b.next .B)
  exact Device.purgeCursor_ordered (Device.purgeCursor_ordered (Device.purgeCursor_ordered hd
    (hnext (Steady.refl d).cursory) .A) (hnext hA) .B) (hnext hB) .C

/-- What follows the cursors of a purge. -/
theorem Device.chainPurged_shifts {d : Device} {st : Fin 16} {b : StreamBody} (hs : d.stream st = some b) :
    d.Shifts ((((d.chainPurged st).recount st).evalHigh st).evalBacklogs st) st b.chain := by
  have h := ((Device.emptyChain_shifts hs).steady ((Steady.refl _).stageAll _)).trans (Device.recount_shifts (d.chainPurged st) st)
  rw [List.append_nil] at h
  exact h.steady (((Steady.refl _).evalHigh st).evalBacklogs st)

theorem Device.chainPurged_stream {d : Device} {st : Fin 16} {b : StreamBody} (hs : d.stream st = some b) :
    ∃ b', (d.chainPurged st).stream st = some b' ∧ b'.writer = b.writer ∧ b'.readers = b.readers ∧ b'.next = b.next ∧
      b'.chain = [] := by
  obtain ⟨b₁, hb₁, hwriter, hreaders, hnext, hchain⟩ := Device.emptyChain_stream hs
  obtain ⟨b₂, hb₂, hcore⟩ := (((Steady.refl (d.emptyChain st).1).stageAll
    (retireEntries (d.emptyChain st).2)).cursory).some_stream hb₁
  obtain ⟨k1, k2, -, k4, k5⟩ := StreamBody.core_eq hcore
  exact ⟨b₂, hb₂, k1.trans hwriter, k2.trans hreaders, k4.trans hnext, k5.trans hchain⟩

/-- A purge, its stream's writer with no append in flight (R146). -/
theorem Device.purgeStream_runs {d : Device} {st : Fin 16} {b : StreamBody} (hs : d.stream st = some b) :
    (d.Placed → (d.purgeStream st).Placed) ∧
    ∀ S, (∀ j, (d.exec b.writer).job = .append j → j.stream = st → j.paged = false) → d.OrderedFor S →
      (d.purgeStream st).OrderedFor S := by
  rw [Device.purgeStream_eq hs]
  have hcur := d.cursorsPurged_cursory st b.next
  obtain ⟨b₁, hs₁, hcore⟩ := hcur.some_stream hs
  obtain ⟨hwriter₁, hreaders₁, -, hnext₁, hchain₁⟩ := StreamBody.core_eq hcore
  have hshift := Device.chainPurged_shifts hs₁
  have hpurged := d.cursorsPurged_spec st b.next
  have hord (S : Port → Prop) (hd : d.OrderedFor S) := Device.cursorsPurged_ordered hd hs
  have hexecs := hcur.execs
  have hcursor := fun q => Device.emptyChain_cursor hs₁ q
  obtain ⟨b₂, hs₂, hwriter₂, hreaders₂, hnext₂, hchain₂⟩ := Device.chainPurged_stream hs₁
  refine ⟨fun hd => hshift.placed (hcur.placed hd), fun S hidle hd => ?_⟩
  have hin := (hord S hd).streams st b₁ hs₁
  have hfinal : ∃ b', ((((d.cursorsPurged st b.next).chainPurged st).recount st).evalHigh st).stream st = some b' ∧
      b'.writer = b.writer ∧ b'.readers = b₁.readers ∧ b'.next = b₁.next ∧ b'.chain = [] ∧ b'.oldest = b₁.next := by
    have hrec := Device.recounted_self _ _ hs₂
    refine ⟨_, hrec, ?_⟩
    obtain ⟨k1, k2, k3, k4, k5⟩ := Device.recounted_core hs₂ hrec
    exact ⟨k1.trans (hwriter₂.trans hwriter₁), k2.trans hreaders₂, k3.trans hnext₂, k4.trans hchain₂,
      k5.trans (by rw [hchain₂]; exact hnext₂)⟩
  obtain ⟨b₃, hs₃, hwriter₃, hreaders₃, hnext₃, hchain₃, holdest₃⟩ := hfinal
  obtain ⟨b₄, hs₄, hcore₄⟩ := (((Steady.refl ((((d.cursorsPurged st b.next).chainPurged st).recount st).evalHigh st)).evalBacklogs
    st).cursory).some_stream hs₃
  obtain ⟨k1, k2, k3, k4, k5⟩ := StreamBody.core_eq hcore₄
  refine hshift.ordered (hord S hd) (fun n hn st' b' hne hb' => Device.chains_apart (hord S hd).nodup hs₁ hb' hne hn)
    (fun b' hb' => ?_) fun q j hq hj hst hclaim => ?_
  · obtain rfl : b₄ = b' := Option.some.inj (hs₄.symm.trans hb')
    refine hin.drop (gone := b₁.chain) (stay := []) (List.append_nil _).symm (k5.trans hchain₃) (k4.trans hnext₃)
      (k2.trans hreaders₃) (k3.trans holdest₃) nofun fun q c hq => ?_
    have hmap : ((((((d.cursorsPurged st b.next).chainPurged st).recount st).evalHigh st).evalBacklogs st).cursor st q).map
        Cursor.core = ((d.cursorsPurged st b.next).cursor st q).map Cursor.core := by
      have h1 := (((Steady.refl (((d.cursorsPurged st b.next).chainPurged st).recount st)).evalHigh st).evalBacklogs st).cursors st q
      have h2 : (((d.cursorsPurged st b.next).chainPurged st).recount st).cursor st q =
          ((d.cursorsPurged st b.next).chainPurged st).cursor st q := by
        rw [Device.recount_frame]
        rfl
      have h3 := ((Steady.refl ((d.cursorsPurged st b.next).emptyChain st).1).stageAll
        (retireEntries ((d.cursorsPurged st b.next).emptyChain st).2)).cursors st q
      exact h1.trans ((congrArg _ h2).trans (h3.trans (hcursor q)))
    rw [hq, Option.map_some, eq_comm, Option.map_eq_some_iff] at hmap
    obtain ⟨c₀, hc₀, hcorec⟩ := hmap
    obtain ⟨h1, h2, h3⟩ : c₀.committed = c.committed ∧ c₀.delivered = c.delivered ∧ c₀.lost = c.lost := by
      simpa only [Cursor.core, Prod.mk.injEq] using hcorec
    obtain ⟨g1, g2, g3, g4, g5⟩ := hin.cursors q c₀ hc₀
    rw [← h1, ← h2, ← h3]
    refine ⟨g1, g2, g3, g4, g5, fun n hn v hv => ?_⟩
    have hat : c₀.committed = b.next := by
      obtain ⟨hnone, hsome⟩ := hpurged.now q (by cases q <;> simp [portList])
      cases hold : d.cursor st q with
      | none => exact nomatch (hnone hold).symm.trans hc₀
      | some c' =>
        obtain ⟨c'', hc'', hcommitted, -⟩ := hsome c' hold
        obtain rfl : c'' = c₀ := Option.some.inj (hc''.symm.trans hc₀)
        exact hcommitted
    have hrun : v ∈ List.range' b₁.oldest (b₁.next - b₁.oldest) := by
      rw [← hin.records]
      exact List.mem_flatMap.mpr ⟨n, hn, hv⟩
    rw [List.mem_range'_1] at hrun
    have := hin.oldest
    omega
  · have hsafe := (hord S hd).appends q hq j hj
    obtain ⟨b', hb', hw⟩ := hsafe.owned hclaim
    obtain rfl : b' = b₁ := Option.some.inj ((hst ▸ hb').symm.trans hs₁)
    refine ⟨b₄, hs₄, k1.trans (hwriter₃.trans (hwriter₁.symm.trans hw)), fun hp => ?_⟩
    obtain ⟨i, hi, hstream, -, hpage⟩ := (hexecs q).append j hj
    obtain ⟨hphase, -⟩ := hpage hp
    have hnot := hidle i (by rw [← hwriter₁, hw]; exact hi) (hstream ▸ hst)
    rw [AppendJob.paged_iff, hphase, ← AppendJob.paged_iff, hnot] at hp
    cases hp

/-! ### DELETE (R23) -/

theorem Device.dropCursors_other (d : Device) {st st' : Fin 16} (h : st' ≠ st) (q : Port) :
    (d.dropCursors st).cursor st' q = d.cursor st' q := by
  have hval : ¬ st.val = st'.val := fun hv => h (Fin.ext hv.symm)
  simp [Device.dropCursors, Device.cursor, hval]

theorem Device.numberFreed_shifts {e : Device} {st : Fin 16} (hc : e.chainOf st = []) (x : StreamBody) :
    e.Shifts (e.numberFreed st x) st [] := by
  have hframe := e.numberFreed_frame st x
  have hother (st' : Fin 16) (hne : st' ≠ st) : (e.numberFreed st x).stream st' = e.stream st' := by
    unfold Device.numberFreed
    rw [Device.stream_setBody_other _ _ _ _ hne, Device.offerSet_frame]
    rfl
  have hplaces : (e.numberFreed st x).places = e.places := by
    rw [Device.places_eq, Device.places_eq, Device.chained_congr (e := e.numberFreed st x) (d := e) fun st' => ?_, hframe]
    by_cases hst : st' = st
    · subst hst
      rw [hc, Device.chainOf, (e.numberFreed_tables st' x).1]
    · rw [Device.chainOf, Device.chainOf, hother st' hst]
  have hsteers : e.Steers (e.numberFreed st x) := by
    rw [hframe]
    exact { Steers.refl e with }
  exact
    { hsteers with
      places := hplaces ▸ .refl _
      bad := by rw [hframe]; exact id
      queue := by rw [hframe]; exact fun _ _ _ => id
      streams := fun st' hne => by rw [hother st' hne]
      cursors := fun st' q hne => by
        have h : (e.numberFreed st x).cursor st' q = (e.dropCursors st).cursor st' q := by
          unfold Device.numberFreed
          rw [Device.offerSet_frame]
          rfl
        rw [h, Device.dropCursors_other e hne]
      pages := fun n _ => by rw [hframe]; rfl }

/-- A deletion, its stream's writer with no append (R22). -/
theorem Device.deleteStream_runs {d : Device} (st : Fin 16) : (d.Placed → (d.deleteStream st).Placed) ∧
    ∀ S, (∀ b j, d.stream st = some b → (d.exec b.writer).job ≠ .append j) → d.OrderedFor S →
      (d.deleteStream st).OrderedFor S := by
  cases hs : d.stream st with
  | none =>
    have h : d.deleteStream st = d := by rw [Device.deleteStream, hs]
    rw [h]
    exact ⟨id, fun _ _ => id⟩
  | some b =>
    rw [Device.deleteStream_eq hs]
    have hstaged := (Steady.refl d).stage (.streamDrop st (d.incarnation st))
    obtain ⟨b₁, hs₁, hcore⟩ := hstaged.cursory.some_stream hs
    obtain ⟨-, -, -, -, hchain₁⟩ := StreamBody.core_eq hcore
    have hdropped : d.Shifts (d.chainDropped st) st b₁.chain :=
      ((hstaged.shifts st).trans (Device.emptyChain_shifts hs₁)).steady ((Steady.refl _).stageAll _)
    have hnil : (d.chainDropped st).chainOf st = [] := by
      obtain ⟨b₂, hs₂, -, -, -, hchain⟩ := Device.emptyChain_stream hs₁
      rw [← hchain, ← Device.chainOf_some hs₂]
      exact Device.chainOf_of_core (((Steady.refl _).stageAll _).streams st)
    have hshift : d.Shifts ((d.chainDropped st).numberFreed st b) st b.chain := by
      have h := hdropped.trans (Device.numberFreed_shifts hnil b)
      rwa [List.append_nil, hchain₁] at h
    refine ⟨hshift.placed, fun S hidle hd => hshift.ordered hd
      (fun n hn st' b' hne hb' => Device.chains_apart hd.nodup hs hb' hne hn) (fun b' hb' => ?_) fun q j hq hj hst hclaim => ?_⟩
    · rw [((d.chainDropped st).numberFreed_tables st b).1] at hb'
      cases hb'
    · obtain ⟨b', hb', hw⟩ := (hd.appends q hq j hj).owned hclaim
      exact absurd (hw ▸ hj) (hidle b' j (by rw [← hs, ← hst]; exact hb'))

/-! ### CREATE (R18) -/

theorem Device.stageDefinition_steady (d : Device) (st : Fin 16) : d.Steady (d.stageDefinition st) := by
  unfold Device.stageDefinition
  split
  exacts [.refl d, (Steady.refl d).stage _]

theorem Device.streamOpened_shifts {d : Device} {st : Fin 16} (hs : d.stream st = none) (p : Port) (a : CreateArgs) :
    d.Shifts (d.streamOpened p st a) st [] := by
  have hother (st' : Fin 16) (hne : st' ≠ st) : (d.streamOpened p st a).stream st' = d.stream st' := by
    have hval : ¬ st.val = st'.val := fun hv => hne (Fin.ext hv.symm)
    simp [Device.streamOpened, Device.stream, Device.setCursor, Device.setStream, hval]
  have hplaces : (d.streamOpened p st a).places = d.places := by
    rw [Device.places_eq, Device.places_eq, Device.chained_congr (e := d.streamOpened p st a) (d := d) fun st' => ?_]
    · rfl
    · by_cases hst : st' = st
      · subst hst
        rw [Device.chainOf_some (d.streamOpened_spec p st' a).1, Device.chainOf, hs]
        rfl
      · rw [Device.chainOf, Device.chainOf, hother st' hst]
  have hsteers : d.Steers (d.streamOpened p st a) := { Steers.refl d with }
  exact
    { hsteers with
      places := hplaces ▸ .refl _
      bad := id
      queue := fun _ _ _ => id
      streams := fun st' hne => by rw [hother st' hne]
      cursors := fun st' q hne => by
        unfold Device.streamOpened
        dsimp only
        rw [Device.cursor_setCursor_other _ _ _ _ _ _ (.inl hne), Device.cursor_setCursor_other _ _ _ _ _ _ (.inl hne),
          Device.cursor_setCursor_other _ _ _ _ _ _ (.inl hne)]
        rfl
      pages := fun _ _ => rfl }

theorem Device.createStream_runs {d : Device} {st : Fin 16} (hs : d.stream st = none) (p : Port) (a : CreateArgs) :
    d.Runs (d.createStream p st a) := by
  rw [Device.createStream_eq]
  have hshift := Device.streamOpened_shifts hs p a
  obtain ⟨hstream, -, -, hcursor⟩ := d.streamOpened_spec p st a
  have hopened : d.Runs (d.streamOpened p st a) := by
    refine ⟨hshift.placed, fun S hd => hshift.ordered hd nofun (fun b' hb' => ?_) fun q j hq hj hst hclaim => ?_⟩
    · rw [hstream] at hb'
      cases hb'
      refine ⟨Nat.le_refl _, rfl, nofun, fun q c hq => ?_⟩
      rw [hcursor q] at hq
      split at hq
      · rename_i hreader
        cases hq
        exact ⟨hreader, Nat.le_refl _, Nat.le_refl _, Nat.le_refl _, Nat.zero_le _⟩
      · cases hq
    · obtain ⟨b', hb', -⟩ := (hd.appends q hq j hj).owned hclaim
      rw [hst, hs] at hb'
      cases hb'
  exact hopened.steady (((Steady.refl _).evalHigh st).trans (Device.stageDefinition_steady _ st))

/-! ### CONFIGURE (R21) -/

theorem Device.redefined_shifts {d : Device} {st : Fin 16} {b : StreamBody} (hs : d.stream st = some b) (a : ConfigureArgs) :
    d.Shifts (d.redefined st b a) st [] := by
  have hframe := d.redefined_frame st b a
  have hself : (d.redefined st b a).stream st = some { b with
      policy := a.policy, quota := a.quota, margin := a.margin, readers := a.readers, held := a.held } := by
    rw [hframe]
    exact Device.stream_setBody _ _ _
  have hother (st' : Fin 16) (hne : st' ≠ st) : (d.redefined st b a).stream st' = d.stream st' := by
    rw [hframe]
    exact Device.stream_setBody_other _ _ _ _ hne
  have hplaces : (d.redefined st b a).places = d.places := by
    rw [Device.places_eq, Device.places_eq, Device.chained_congr (e := d.redefined st b a) (d := d) fun st' => ?_, hframe]
    · rfl
    · by_cases hst : st' = st
      · subst hst
        rw [Device.chainOf_some hself, Device.chainOf_some hs]
      · rw [Device.chainOf, Device.chainOf, hother st' hst]
  have hsteers : d.Steers (d.redefined st b a) := by
    rw [hframe]
    exact { Steers.refl d with }
  have changed (e : Device) (q : Port) {st' : Fin 16} (hne : st' ≠ st) (r : Port) :
      (e.changeReader st b.readers a.readers b.next q).cursor st' r = e.cursor st' r := by
    unfold Device.changeReader
    split
    exacts [Device.cursor_setCursor_other _ _ _ _ _ _ (.inl hne), Device.cursor_setCursor_other _ _ _ _ _ _ (.inl hne), rfl, rfl]
  exact
    { hsteers with
      places := hplaces ▸ .refl _
      bad := by rw [hframe]; exact id
      queue := by rw [hframe]; exact fun _ _ _ => id
      streams := fun st' hne => by rw [hother st' hne]
      cursors := fun st' q hne => by
        unfold Device.redefined
        rw [changed _ _ hne, changed _ _ hne, changed _ _ hne]
        rfl
      pages := fun _ _ => by rw [hframe]; rfl }

theorem Device.configureStream_runs (d : Device) (st : Fin 16) (a : ConfigureArgs) : d.Runs (d.configureStream st a) := by
  cases hs : d.stream st with
  | none =>
    have h : d.configureStream st a = d := by rw [Device.configureStream, hs]
    rw [h]
    exact .refl d
  | some b =>
    rw [Device.configureStream_eq hs]
    have hshift := Device.redefined_shifts hs a
    have hself : (d.redefined st b a).stream st = some { b with
        policy := a.policy, quota := a.quota, margin := a.margin, readers := a.readers, held := a.held } := by
      rw [Device.redefined_frame]
      exact Device.stream_setBody _ _ _
    have hredefined : d.Runs (d.redefined st b a) := by
      refine ⟨hshift.placed, fun S hd => hshift.ordered hd nofun (fun b' hb' => ?_) fun q j hq hj hst hclaim => ?_⟩
      · rw [hself] at hb'
        cases hb'
        have hin := hd.streams st b hs
        have hpages : (d.redefined st b a).pagesOf = d.pagesOf := funext fun n => by
          rw [Device.redefined_frame]
          rfl
        rw [hpages]
        refine ⟨hin.oldest, hin.records, hin.pages, fun q c hq => ?_⟩
        rw [Device.redefined_cursor] at hq
        split at hq
        · rename_i hadded
          cases hq
          exact ⟨hadded.2, hin.oldest, Nat.le_refl _, Nat.le_refl _, Nat.zero_le _⟩
        · split at hq
          · cases hq
          · rename_i hkept
            obtain ⟨hreader, k⟩ := hin.cursors q c hq
            refine ⟨?_, k⟩
            cases ha : a.readers.get q with
            | true => rfl
            | false => exact absurd ⟨hreader, ha⟩ hkept
      · have hsafe := hd.appends q hq j hj
        obtain ⟨b', hb', hw⟩ := hsafe.owned hclaim
        obtain rfl : b' = b := Option.some.inj ((hst ▸ hb').symm.trans hs)
        exact ⟨_, hself, hw, fun hp => ⟨hsafe.last hp b' hb', List.not_mem_nil⟩⟩
    exact (hredefined.steady (((Steady.refl _).stageAll _).evalHigh st)).trans (Device.reclaimStaged_runs _ st)

/-! ### A cursor advanced (R58) -/

theorem Device.advanceCursor_runs {d : Device} {st : Fin 16} {p : Port} {n : Nat} :
    (d.Placed → (d.advanceCursor st p n).Placed) ∧
    ∀ S, (∀ c, d.cursor st p = some c → c.committed ≤ n ∧ n ≤ c.delivered) → d.OrderedFor S →
      (d.advanceCursor st p n).OrderedFor S := by
  cases hc : d.cursor st p with
  | none =>
    have h : d.advanceCursor st p n = d := by rw [Device.advanceCursor, hc]
    rw [h]
    exact ⟨id, fun _ _ => id⟩
  | some c =>
    have h : d.advanceCursor st p n = (((d.setCursor st p (some { c with committed := n })).stage
        (.cursor st (d.incarnation st) p n c.lost)).evalBacklog st p).reclaimStaged st := by
      rw [Device.advanceCursor, hc]
      rfl
    rw [h]
    have hrest := (((Steady.refl (d.setCursor st p (some { c with committed := n }))).stage
      (.cursor st (d.incarnation st) p n c.lost)).evalBacklog st p).runs.trans (Device.reclaimStaged_runs _ st)
    refine ⟨fun hd => hrest.placed (hd.setCursor _ _ _), fun S hn hd => hrest.ordered S (Device.setCursor_ordered hd fun b hb => ?_)⟩
    obtain ⟨k1, k2, k3, k4, k5⟩ := (hd.streams st b hb).cursors p c hc
    obtain ⟨hlow, hhigh⟩ := hn c rfl
    exact ⟨k1, k2.trans hlow, hhigh, k4, k5⟩

end Sys2Proof.Machine
end

