-- ==== Sys2Proof/Proofs/PlaceFinding.lean ====
section
/-! What an append keeps of the streams and the appends while it finds its place (R29 to R35). -/

namespace Sys2Proof.Machine

open Sys2Proof

-- One process elaborates the whole text: proofs taken in turn stay within its memory.
set_option Elab.async false

/-! ### The executor of an append -/

theorem Device.OrderedFor.seats {d : Device} {p : Port} {x : Executor} (h : d.OrderedFor (butPort p))
    (hx : ∀ j, x.job = .append j → d.AppendSafe p x j) : (d.setExec p x).OrderedFor everyPort :=
  OrderedFor.setExec (h.weaken fun _ hq => hq.2) fun j hj _ => hx j hj

/-- An executor without an append leaves its part in order. -/
theorem Device.OrderedFor.plain {d : Device} {p : Port} (h : d.OrderedFor (butPort p)) (hp : ∀ j, (d.exec p).job ≠ .append j) :
    d.OrderedFor everyPort :=
  { h with
    appends := fun q _ j hj => by
      by_cases hq : q = p
      · exact absurd (hq ▸ hj) (hp j)
      · exact h.appends q hq j hj }

theorem Device.OrderedFor.answers {d : Device} {p : Port} (h : d.OrderedFor (butPort p)) (status : Status) (body : List Byte) :
    (d.answer p status body).OrderedFor everyPort :=
  (((Steady.refl d).answer p status body).runs.ordered _ h).plain fun j hj => by
    rw [Device.answer_exec] at hj
    cases hj

/-- The request in hand is the APPEND of a stream (R26). -/
def Executor.appendsTo (x : Executor) (st : Fin 16) : Prop :=
  ∀ r, x.inHand = some r → ∃ tag body, r = .known tag .append body ∧ streamArg body = some st

/-- An append that claims nothing and has no page. -/
theorem Device.OrderedFor.waits {d : Device} {p : Port} (h : d.OrderedFor (butPort p)) {j : AppendJob} {v : ExecState}
    (hv : v ≠ .waitArray) (hj : j.paged = false) (hand : (d.exec p).appendsTo j.stream) :
    (d.toExec p v (.append j)).OrderedFor everyPort := by
  refine h.seats fun k hk => ?_
  cases hk
  have hpage : ¬ j.paged = true := by rw [hj]; nofun
  refine ⟨hand, fun hc => ?_, fun hc => absurd hc hpage, fun hc => absurd hc hpage, fun hc => ?_, fun hc => ?_, fun _ _ => ⟨hv, hj⟩⟩
  · exact absurd hc (not_or.mpr ⟨hv, hpage⟩)
  · exact absurd (AppendJob.between_paged hc) hpage
  · exact absurd (AppendJob.step_paged hc) hpage

/-- A port's append may claim the array: its request names the stream, whose writer the port is (R26, R27). -/
structure Device.Owns (d : Device) (p : Port) (st : Fin 16) : Prop where
  hand : (d.exec p).appendsTo st
  owner : ∃ b, d.stream st = some b ∧ b.writer = p
  mode : d.mode ≠ .formatting

theorem Executor.Gives.appendsTo {x x' : Executor} (h : x.Gives x') {st : Fin 16} (hx : x.appendsTo st) : x'.appendsTo st := by
  intro r hr
  rcases h.hand with hn | hsame
  · rw [hn] at hr; cases hr
  · exact hx r (hsame ▸ hr)

theorem Device.Owns.keep {d d' : Device} {p : Port} {st : Fin 16} (h : d.Owns p st) (k : d.Owning d') : d'.Owns p st where
  hand := (k.execs p).appendsTo h.hand
  owner := by
    obtain ⟨b, hb, hw⟩ := h.owner
    obtain ⟨b', hb', hw'⟩ := k.owners st b hb
    exact ⟨b', hb', hw'.trans hw⟩
  mode := by
    rcases k.mode with hk | ⟨-, -, hne⟩
    · rw [hk]; exact h.mode
    · exact hne

theorem Device.Owns.setExec {d : Device} {p : Port} {st : Fin 16} (h : d.Owns p st) {x : Executor} (hx : x.inHand = (d.exec p).inHand) :
    (d.setExec p x).Owns p st :=
  ⟨fun r hr => h.hand r (by rw [Device.exec_setExec, hx] at hr; exact hr), h.owner, h.mode⟩

theorem Device.OrderedFor.claims {d : Device} {p : Port} (h : d.OrderedFor (butPort p)) {j : AppendJob} (hj : j.phase = .seek)
    (ho : d.Owns p j.stream) : (d.toExec p .waitArray (.append j)).OrderedFor everyPort := by
  refine h.seats fun k hk => ?_
  cases hk
  have hpage : ¬ j.paged = true := by rw [AppendJob.paged_iff, hj]; simp
  refine ⟨ho.hand, fun _ => ho.owner, fun hc => absurd hc hpage, fun hc => absurd hc hpage, fun _ => rfl, fun hc => ?_,
    fun hm _ => absurd hm ho.mode⟩
  exact absurd (AppendJob.step_paged hc) hpage

/-- The other ports have no page of a stream that is this port's own (R27, R36). -/
theorem Device.OrderedFor.unpaged {d : Device} {p : Port} (h : d.OrderedFor (butPort p)) {st : Fin 16} {b : StreamBody}
    (hs : d.stream st = some b) (hw : b.writer = p) : ∀ q j, butPort p q → (d.exec q).job = .append j → j.stream = st →
      j.paged = false := by
  intro q j hq hj hst
  refine Bool.eq_false_iff.mpr fun hp => ?_
  obtain ⟨b', hb', hw'⟩ := (h.appends q hq j hj).owned (.inr hp)
  obtain rfl : b' = b := Option.some.inj ((hst ▸ hb').symm.trans hs)
  exact hq (hw'.symm.trans hw)

/-- The checks of R27 passed. -/
theorem Device.appendCheck_passed {d : Device} {p : Port} {body : List Byte} {st : Fin 16} {b : StreamBody}
    (h : d.appendCheck p body = .ok (st, b)) : d.mode = .ready ∧ streamArg body = some st ∧ d.stream st = some b ∧
      b.writer = p ∧ body ≠ [] := by
  unfold Device.appendCheck at h
  split at h
  · cases h
  · rename_i hadm
    have hmode : d.mode = .ready := by
      unfold Device.admission at hadm
      split at hadm
      · cases hadm
      · rename_i hm
        cases hd : d.mode <;> rw [hd] at hm <;> cases hm
    split at h
    · cases h
    · rename_i st' b' hn
      have hnamed : streamArg body = some st' ∧ d.stream st' = some b' := by
        unfold Device.namedStream at hn
        split at hn
        · cases hn
        · rename_i st₀ harg
          split at hn
          · cases hn
          · rename_i hs
            cases hn
            exact ⟨harg, hs⟩
      split at h
      · cases h
      · split at h
        · cases h
        · rename_i hw
          split at h
          · cases h
          · rename_i hlen
            split at h
            · cases h
            · cases h
              refine ⟨hmode, hnamed.1, hnamed.2, Decidable.not_not.mp hw, fun hnil => hlen ?_⟩
              rw [hnil]
              rfl

/-- An append whose request passes its checks may claim. -/
theorem Device.Owns.of_check {d : Device} {p : Port} {st st' : Fin 16} {b : StreamBody}
    (h : d.appendCheck p (d.appendBody p) = .ok (st', b)) (hand : (d.exec p).appendsTo st) : d.Owns p st ∧ st' = st := by
  obtain ⟨hmode, harg, hs, hw, hne⟩ := Device.appendCheck_passed h
  cases hr : (d.exec p).inHand with
  | none =>
    rw [Device.appendBody, hr] at hne
    exact absurd rfl hne
  | some r =>
    obtain ⟨tag, body, rfl, hst⟩ := hand r hr
    have hbody : d.appendBody p = body := by rw [Device.appendBody, hr]
    rw [hbody, hst] at harg
    obtain rfl : st = st' := Option.some.inj harg
    exact ⟨⟨hand, ⟨b, hs, hw⟩, by rw [hmode]; nofun⟩, rfl⟩

/-! ### Allocation (R30) -/

theorem Device.allocate_eq {d : Device} {st : Fin 16} {b : StreamBody} {n : Nat} {pool : List Nat} (hs : d.stream st = some b)
    (hp : d.freePool = n :: pool) : d.allocate st = { (d.setSector n { Sector.blank with
      state := .tail, owner := some (st, d.incarnation st), eraseCount := (d.sector n).eraseCount }).setBody st
        (some { b with chain := b.chain ++ [n] }) with freePool := pool } := by
  unfold Device.allocate
  rw [hp, hs]

theorem Device.allocate_stream {d : Device} {st : Fin 16} {b : StreamBody} {n : Nat} {pool : List Nat} (hs : d.stream st = some b)
    (hp : d.freePool = n :: pool) : (d.allocate st).stream st = some { b with chain := b.chain ++ [n] } := by
  rw [Device.allocate_eq hs hp]
  exact Device.stream_setBody _ _ _

theorem Device.allocate_pages {d : Device} {st : Fin 16} {b : StreamBody} {n : Nat} {pool : List Nat} (hs : d.stream st = some b)
    (hp : d.freePool = n :: pool) : (d.allocate st).pagesOf n = List.replicate 16 .unused := by
  have hsector : ((d.allocate st).sector n).pages = Sector.blank.pages := by
    rw [Device.allocate_eq hs hp]
    show ((d.setSector n _).sector n).pages = _
    by_cases hn : n < 256
    · rw [Device.sector_setSector _ _ _ hn]
    · unfold Device.sector
      rw [dif_neg hn]
  rw [Device.pagesOf, Sector.pageList, hsector]
  rfl

theorem Device.allocate_shifts {d : Device} {st : Fin 16} {b : StreamBody} {n : Nat} {pool : List Nat} (hs : d.stream st = some b)
    (hp : d.freePool = n :: pool) : d.Shifts (d.allocate st) st [n] := by
  have hself := Device.allocate_stream hs hp
  have hother (st' : Fin 16) (hne : st' ≠ st) : (d.allocate st).stream st' = d.stream st' := by
    rw [Device.allocate_eq hs hp]
    refine (Device.stream_setBody_other _ _ _ _ hne).trans ?_
    rw [Device.setSector_frame]
    rfl
  have hpool : (d.allocate st).freePool = pool := by rw [Device.allocate_eq hs hp]
  have hframe : (d.allocate st) = { d with
      streams := (d.allocate st).streams, sectors := (d.allocate st).sectors, freePool := pool } := by
    rw [Device.allocate_eq hs hp, Device.setSector_frame]
    rfl
  have hqueue : (d.allocate st).eraseQueue = d.eraseQueue := by rw [hframe]
  have hbad : (d.allocate st).badList = d.badList := by rw [hframe]
  have hplaces : (d.allocate st).places.Perm d.places := by
    have hperm := Device.chained_replace (e := d.allocate st) (d := d) (st := st) fun st' hne => by
      rw [Device.chainOf, Device.chainOf, hother st' hne]
    rw [Device.chainOf_some hs, Device.chainOf_some hself] at hperm
    rw [Device.places_eq, Device.places_eq, hpool, hqueue, hbad, hp]
    refine List.perm_iff_count.mpr fun a => ?_
    have h1 := List.perm_iff_count.mp hperm a
    have h2 : (n :: pool).count a = [n].count a + pool.count a := by rw [← List.count_append]; rfl
    simp only [List.count_append, h2] at h1 ⊢
    omega
  have hsteers : d.Steers (d.allocate st) := by
    rw [hframe]
    exact { Steers.refl d with }
  exact
    { hsteers with
      places := hplaces
      bad := by rw [hbad]; exact id
      queue := by rw [hqueue]; exact fun _ _ _ => id
      streams := fun st' hne => by rw [hother st' hne]
      cursors := fun st' q _ => by rw [hframe]; rfl
      pages := fun m hm => by
        rw [Device.allocate_eq hs hp]
        exact congrArg Sector.pages (Device.sector_setSector_other d _ _ _ fun he => hm (he ▸ List.mem_singleton_self _)) }

/-- A sector of the pool is in no chain (R12). -/
theorem Device.pool_apart {d : Device} (h : d.places.Nodup) {n : Nat} (hn : n ∈ d.freePool) {st : Fin 16} {b : StreamBody}
    (hs : d.stream st = some b) : n ∉ b.chain := by
  rw [Device.places_eq, List.append_assoc, List.append_assoc] at h
  intro hc
  exact (List.nodup_append.mp h).2.2 n (Device.mem_places_of_chain hs hc) n (List.mem_append_left _ hn) rfl

theorem Device.allocate_ordered {d : Device} {S : Port → Prop} (hd : d.OrderedFor S) (st : Fin 16)
    (busy : ∀ q j, S q → (d.exec q).job = .append j → j.stream = st → j.paged = false) : (d.allocate st).OrderedFor S := by
  cases hp : d.freePool with
  | nil =>
    have h : d.allocate st = d := by unfold Device.allocate; rw [hp]
    rw [h]
    exact hd
  | cons n pool =>
    cases hs : d.stream st with
    | none =>
      have h : d.allocate st = d := by unfold Device.allocate; rw [hp, hs]
      rw [h]
      exact hd
    | some b =>
      have hshift := Device.allocate_shifts hs hp
      have hself := Device.allocate_stream hs hp
      have hapart {st' : Fin 16} {b' : StreamBody} (hb' : d.stream st' = some b') : n ∉ b'.chain :=
        Device.pool_apart hd.nodup (hp ▸ List.mem_cons_self) hb'
      refine hshift.ordered hd (fun m hm st' b' _ hb' => List.mem_singleton.mp hm ▸ hapart hb') (fun b' hb' => ?_)
        fun q j hq hj hst hclaim => ?_
      · rw [hself] at hb'
        cases hb'
        have hin := hd.streams st b hs
        have hnew := Device.allocate_pages hs hp
        have hkept : ∀ m ∈ b.chain, (d.allocate st).pagesOf m = d.pagesOf m := fun m hm =>
          hshift.pagesOf fun hg => hapart hs (List.mem_singleton.mp hg ▸ hm)
        have hcursor (q : Port) : (d.allocate st).cursor st q = d.cursor st q := by
          rw [Device.allocate_eq hs hp, Device.setSector_frame]
          rfl
        refine ⟨hin.oldest, ?_, fun m hm => ?_, fun q c hq => hin.cursors q c (hcursor q ▸ hq)⟩
        · rw [List.flatMap_append, List.flatMap_singleton, hnew, List.flatMap_congr fun m hm => by rw [hkept m hm], hin.records]
          exact List.append_nil _
        · rcases List.mem_append.mp hm with hm | hm
          · rw [hkept m hm]
            exact hin.pages m hm
          · rw [List.mem_singleton.mp hm, hnew]
            exact List.pairwise_replicate.mpr (.inr fun _ => rfl)
      · obtain ⟨b', hb', hw⟩ := (hd.appends q hq j hj).owned hclaim
        obtain rfl : b' = b := Option.some.inj ((hst ▸ hb').symm.trans hs)
        exact ⟨_, hself, hw, fun hpage => by rw [busy q j hq hj hst] at hpage; cases hpage⟩

theorem Device.allocate_placed {d : Device} (hd : d.Placed) (st : Fin 16) : (d.allocate st).Placed := by
  cases hp : d.freePool with
  | nil =>
    have h : d.allocate st = d := by unfold Device.allocate; rw [hp]
    rw [h]
    exact hd
  | cons n pool =>
    cases hs : d.stream st with
    | none =>
      have h : d.allocate st = d := by unfold Device.allocate; rw [hp, hs]
      rw [h]
      exact hd
    | some b => exact (Device.allocate_shifts hs hp).placed hd

theorem Device.allocate_owning (d : Device) (st : Fin 16) : d.Owning (d.allocate st) := by
  cases hp : d.freePool with
  | nil =>
    have h : d.allocate st = d := by unfold Device.allocate; rw [hp]
    rw [h]
    exact .refl d
  | cons n pool =>
    cases hs : d.stream st with
    | none =>
      have h : d.allocate st = d := by unfold Device.allocate; rw [hp, hs]
      rw [h]
      exact .refl d
    | some b =>
      refine (Device.allocate_shifts hs hp).owning fun b₁ hb₁ => ?_
      obtain rfl : b = b₁ := Option.some.inj (hs.symm.trans hb₁)
      exact ⟨_, Device.allocate_stream hs hp, rfl⟩

/-- A new tail taken and claimed for (R29, R30). -/
theorem Device.allocate_claims {d : Device} {p : Port} {j : AppendJob} (hd : d.OrderedFor (butPort p)) (ho : d.Owns p j.stream) :
    ((d.allocate j.stream).claimStep1 p j).OrderedFor everyPort := by
  obtain ⟨b, hs, hw⟩ := ho.owner
  have halloc := Device.allocate_ordered hd j.stream (hd.unpaged hs hw)
  exact halloc.claims (j := { j with phase := .seek }) rfl (ho.keep (d.allocate_owning j.stream))

/-! ### Place finding (R29) -/

theorem Device.Placed.steady {d d' : Device} (h : d.Placed) (k : d.Steady d') : d'.Placed := k.moves.placed h

theorem Device.Placed.answer {d : Device} (h : d.Placed) (p : Port) (status : Status) (body : List Byte) :
    (d.answer p status body).Placed := h.steady ((Steady.refl d).answer p status body)

theorem Device.Placed.toExec {d : Device} (h : d.Placed) (p : Port) (v : ExecState) (job : Job) : (d.toExec p v job).Placed :=
  h.setExec p _

theorem Device.Placed.withPlaces {d : Device} (h : d.Placed) (p : Port) {op next : Device → Device}
    (hop : ∀ e : Device, e.Placed → (next (op e)).Placed) : (d.withPlaces p op next).Placed := by
  unfold Device.withPlaces
  dsimp only
  split
  · exact hop _ ((h.steady ((Steady.refl d).leavePlaceWait _)).setExec p _)
  · exact (h.steady ((Steady.refl d).joinPlaceWait _)).setExec p _

theorem Device.allocateOrWait_placed {d : Device} (h : d.Placed) (p : Port) (j : AppendJob) : (d.allocateOrWait p j).Placed := by
  unfold Device.allocateOrWait
  split
  · exact (Device.allocate_placed h _).toExec p _ _
  · split
    · exact h.answer _ _ _
    · exact (h.toExec p .waitSpace _).steady ((Steady.refl _).setSpaceWait _)

theorem Device.allocateOrWait_ordered {d : Device} {p : Port} {j : AppendJob} (hd : d.OrderedFor (butPort p))
    (ho : d.Owns p j.stream) : (d.allocateOrWait p j).OrderedFor everyPort := by
  unfold Device.allocateOrWait
  split
  · exact Device.allocate_claims hd ho
  · split
    · exact hd.answers _ _
    · exact ((Steady.refl _).setSpaceWait _).runs.ordered _
        (hd.waits (j := { j with phase := .seek }) (v := .waitSpace) nofun rfl ho.hand)

theorem Device.dropHead_placed {d : Device} (h : d.Placed) (st : Fin 16) : (d.dropHead st).Placed :=
  (Device.dropHead_runs (fun _ => False) nofun).1 h

theorem Device.findPlace_placed {d : Device} (h : d.Placed) (p : Port) (j : AppendJob) : (d.findPlace p j).Placed := by
  unfold Device.findPlace
  split
  · exact h.answer _ _ _
  · split
    · exact h.toExec p _ _
    · split
      · exact Device.allocateOrWait_placed h p j
      · split
        · exact h.answer _ _ _
        · exact (h.toExec p _ _).withPlaces p fun e he =>
            Device.allocateOrWait_placed (Device.dropHead_placed he _) p j

/-- What the other ports have in order stays so whatever this port's executor is set to. -/
theorem Device.OrderedFor.vacates {d : Device} {p : Port} (h : d.OrderedFor (butPort p)) (x : Executor) :
    (d.setExec p x).OrderedFor (butPort p) :=
  OrderedFor.setExec (h.weaken fun _ hq => hq.1) fun _ _ hp => absurd rfl hp

/-- Place finding, the array not claimed (R29). -/
theorem Device.findPlace_ordered {d : Device} {p : Port} {j : AppendJob} (hd : d.OrderedFor (butPort p))
    (ho : d.Owns p j.stream) : (d.findPlace p j).OrderedFor everyPort := by
  obtain ⟨b, hs, hw⟩ := ho.owner
  unfold Device.findPlace
  rw [hs]
  dsimp only
  split
  · exact hd.claims (j := { j with phase := .seek }) rfl ho
  · split
    · exact Device.allocateOrWait_ordered hd ho
    · split
      · exact hd.answers _ _
      · have hseek : ((d.toExec p .check (.append { j with phase := .seek })).OrderedFor (butPort p)) := hd.vacates _
        have howns : (d.toExec p .check (.append { j with phase := .seek })).Owns p j.stream := ho.setExec rfl
        have hjob : ((d.toExec p .check (.append { j with phase := .seek })).exec p).job = .append { j with phase := .seek } := by
          rw [Device.toExec, Device.exec_setExec]
        generalize d.toExec p .check (.append { j with phase := .seek }) = e at hseek howns hjob
        obtain ⟨b', hs', hw'⟩ := howns.owner
        unfold Device.withPlaces
        dsimp only
        split
        · have hleft := (Steady.refl e).leavePlaceWait (.executor p)
          have hready : ((e.leavePlaceWait (.executor p)).toExecState p .check).OrderedFor (butPort p) :=
            (hleft.runs.ordered _ hseek).vacates _
          have hown : ((e.leavePlaceWait (.executor p)).toExecState p .check).Owns p j.stream :=
            (howns.keep hleft.owning).setExec rfl
          obtain ⟨b₁, hs₁, hw₁⟩ := hown.owner
          exact Device.allocateOrWait_ordered ((Device.dropHead_runs _ (hready.unpaged hs₁ hw₁)).2 hready)
            (hown.keep (Device.dropHead_owning hready.toPlaced j.stream))
        · have hjoined := (Steady.refl e).joinPlaceWait (.executor p)
          have hexec : (e.joinPlaceWait (.executor p)).exec p = e.exec p := by
            unfold Device.joinPlaceWait
            split <;> rfl
          have hto : (e.joinPlaceWait (.executor p)).toExecState p .waitStaging =
              (e.joinPlaceWait (.executor p)).toExec p .waitStaging (.append { j with phase := .seek }) := by
            rw [Device.toExecState, Device.toExec, hexec, ← hjob]
          rw [hto]
          exact (hjoined.runs.ordered _ hseek).waits nofun rfl (howns.keep hjoined.owning).hand

theorem Device.seekPlace_placed {d : Device} (h : d.Placed) (p : Port) (j : AppendJob) : (d.seekPlace p j).Placed := by
  have hleft := h.steady ((Steady.refl d).leavePlaceWait (.executor p))
  unfold Device.seekPlace
  dsimp only
  split
  · exact hleft.answer _ _ _
  · exact Device.findPlace_placed hleft p j

theorem Device.seekPlace_ordered {d : Device} {p : Port} {j : AppendJob} (hd : d.OrderedFor (butPort p))
    (hand : (d.exec p).appendsTo j.stream) : (d.seekPlace p j).OrderedFor everyPort := by
  have hleft := (Steady.refl d).leavePlaceWait (.executor p)
  have hord := hleft.runs.ordered _ hd
  unfold Device.seekPlace
  dsimp only
  split
  · exact hord.answers _ _
  · rename_i hc
    exact Device.findPlace_ordered hord (Device.Owns.of_check hc ((hleft.execs p).appendsTo hand)).1

theorem Device.seekAgain_placed {d : Device} (h : d.Placed) (p : Port) (j : AppendJob) : (d.seekAgain p j).Placed := by
  unfold Device.seekAgain
  split
  · exact (h.steady ((Steady.refl d).leavePlaceWait (.executor p))).answer _ _ _
  · have hfound := Device.findPlace_placed h p j
    dsimp only
    split
    · exact hfound
    · exact hfound.steady ((Steady.refl _).leavePlaceWait _)

theorem Device.seekAgain_ordered {d : Device} {p : Port} {j : AppendJob} (hd : d.OrderedFor everyPort)
    (hj : (d.exec p).job = .append j) : (d.seekAgain p j).OrderedFor everyPort := by
  have hand := (hd.appends p trivial j hj).hand
  unfold Device.seekAgain
  split
  · exact (((Steady.refl d).leavePlaceWait (.executor p)).runs.ordered _ (hd.but p)).answers _ _
  · rename_i hc
    have hfound := Device.findPlace_ordered (j := j) (hd.but p) (Device.Owns.of_check hc hand).1
    dsimp only
    split
    · exact hfound
    · exact ((Steady.refl _).leavePlaceWait _).runs.ordered _ hfound

theorem Device.takeAppend_placed {d : Device} (h : d.Placed) (p : Port) (body : List Byte) : (d.takeAppend p body).Placed := by
  unfold Device.takeAppend
  split
  exacts [h.answer _ _ _, Device.findPlace_placed h p _]

theorem Device.takeAppend_ordered {d : Device} {p : Port} {tag : Byte} {body : List Byte} (hd : d.OrderedFor everyPort)
    (hr : (d.exec p).inHand = some (.known tag .append body)) : (d.takeAppend p body).OrderedFor everyPort := by
  unfold Device.takeAppend
  split
  · exact (hd.but p).answers _ _
  · rename_i st b hc
    obtain ⟨hmode, harg, hs, hw, -⟩ := Device.appendCheck_passed hc
    refine Device.findPlace_ordered (hd.but p) ⟨fun r hr' => ?_, ⟨b, hs, hw⟩, by rw [hmode]; nofun⟩
    rw [hr] at hr'
    cases hr'
    exact ⟨tag, body, rfl, harg⟩

/-! ### Waiting for space (R98) -/

theorem wakeSpace_placed (l : List Port) {d : Device} (h : d.Placed) : (wakeSpace l d).Placed := by
  induction l generalizing d with
  | nil => exact h
  | cons p rest ih =>
    have hset := h.steady ((Device.Steady.refl d).setSpaceWait rest)
    unfold wakeSpace
    dsimp only
    split
    · exact (Device.allocate_placed hset _).toExec p _ _
    · exact ih (hset.answer _ _ _)
    · exact ih (hset.answer _ _ _)

theorem wakeSpace_ordered (l : List Port) {d : Device} (hd : d.OrderedFor everyPort) : (wakeSpace l d).OrderedFor everyPort := by
  induction l generalizing d with
  | nil => exact hd
  | cons p rest ih =>
    have hset := ((Device.Steady.refl d).setSpaceWait rest).runs.ordered _ hd
    unfold wakeSpace
    dsimp only
    split
    · rename_i hc hj
      have hand := (hset.appends p trivial _ hj).hand
      exact Device.allocate_claims (hset.but p) (Device.Owns.of_check hc hand).1
    · exact ih ((hset.but p).answers _ _)
    · exact ih ((hset.but p).answers _ _)

end Sys2Proof.Machine
end

