-- ==== Sys2Proof/Proofs/PagesInOrder.lean ====
section
/-! What the steps of an append keep of the streams and the appends: the page taken, the record committed, the page
abandoned or failed (R36 to R44). -/

namespace Sys2Proof.Machine

open Sys2Proof

-- One process elaborates the whole text: proofs taken in turn stay within its memory.
set_option Elab.async false

/-! ### One page of a map -/

/-- A page before which none is UNUSED takes a record, or loses it, in order (R36). -/
theorem pagesInOrder_set {l : List PageState} (h : pagesInOrder l) {i : Nat} {v : PageState} (hv : v ≠ .unused)
    (before : ∀ k, k < i → l[k]? ≠ some .unused) : pagesInOrder (l.set i v) := by
  unfold pagesInOrder at h ⊢
  rw [List.pairwise_iff_getElem] at h ⊢
  intro a b ha hb hab hunused
  rw [List.length_set] at ha hb
  rw [List.getElem_set] at hunused ⊢
  split at hunused
  · exact absurd hunused hv
  · rename_i hia
    have hlow : ¬ a < i := fun hlt => before a hlt (by rw [List.getElem?_eq_getElem ha, hunused])
    rw [if_neg (by omega)]
    exact h a b ha hb hab hunused

theorem pagesInOrder.before {l : List PageState} (h : pagesInOrder l) {i : Nat} {v : PageState} (hi : l[i]? = some v)
    (hv : v ≠ .unused) : ∀ k, k < i → l[k]? ≠ some .unused := by
  intro k hk hu
  obtain ⟨hlt, rfl⟩ := List.getElem?_eq_some_iff.mp hi
  obtain ⟨hlt', hval⟩ := List.getElem?_eq_some_iff.mp hu
  exact hv (List.pairwise_iff_getElem.mp h k i hlt' hlt hk hval)

/-- A page without a record replaced by another: the records are the same. -/
theorem records_set_none {l : List PageState} {i : Nat} {u v : PageState} (hi : l[i]? = some u) (hu : u.seq? = none)
    (hv : v.seq? = none) : (l.set i v).filterMap PageState.seq? = l.filterMap PageState.seq? := by
  induction l generalizing i with
  | nil => cases hi
  | cons x l ih =>
    cases i with
    | zero =>
      obtain rfl : x = u := Option.some.inj hi
      rw [List.set_cons_zero, List.filterMap_cons, List.filterMap_cons, hu, hv]
    | succ i =>
      rw [List.set_cons_succ, List.filterMap_cons, List.filterMap_cons, ih hi]

/-- The record committed on a page with nothing after it is the last. -/
theorem records_set_live {l : List PageState} {i : Nat} {u : PageState} (hi : l[i]? = some u) (hu : u.seq? = none) (n : Nat)
    (later : ∀ k v, i < k → l[k]? = some v → v.seq? = none) :
    (l.set i (.live n)).filterMap PageState.seq? = l.filterMap PageState.seq? ++ [n] := by
  induction l generalizing i with
  | nil => cases hi
  | cons x l ih =>
    cases i with
    | zero =>
      obtain rfl : x = u := Option.some.inj hi
      have hnil : l.filterMap PageState.seq? = [] := List.filterMap_eq_nil_iff.mpr fun v hv => by
        obtain ⟨k, hk⟩ := List.getElem?_of_mem hv
        exact later (k + 1) v (Nat.succ_pos k) (by rw [List.getElem?_cons_succ]; exact hk)
      rw [List.set_cons_zero, List.filterMap_cons, List.filterMap_cons, hu, hnil]
      rfl
    | succ i =>
      have hrest := ih (i := i) hi fun k v hk hv => later (k + 1) v (Nat.succ_lt_succ hk) (by
        rw [List.getElem?_cons_succ]; exact hv)
      rw [List.set_cons_succ, List.filterMap_cons, List.filterMap_cons, hrest]
      cases x.seq? <;> rfl

theorem Sector.firstUnused_some {x : Sector} {page : Nat} (h : x.firstUnused = some page) : x.pageList[page]? = some .unused ∧
    ∀ k, k < page → x.pageList[k]? ≠ some .unused := by
  obtain ⟨hlt, hat, hbefore⟩ := List.findIdx?_eq_some_iff_getElem.mp h
  refine ⟨by rw [List.getElem?_eq_getElem hlt, beq_iff_eq.mp hat], fun k hk hu => ?_⟩
  obtain ⟨hlt', hval⟩ := List.getElem?_eq_some_iff.mp hu
  exact hbefore k hk (by rw [hval]; rfl)

theorem Sector.pageList_length (x : Sector) : x.pageList.length = 16 := Vector.length_toList

/-! ### A sector's map replaced -/

theorem Device.setSector_shifts (d : Device) (n : Nat) (x : Sector) (st : Fin 16) : d.Shifts (d.setSector n x) st [n] := by
  have hpages (m : Nat) (hm : m ∉ [n]) : ((d.setSector n x).sector m).pages = (d.sector m).pages :=
    congrArg Sector.pages (Device.sector_setSector_other d n m x fun he => hm (he ▸ List.mem_singleton_self _))
  rw [Device.setSector_frame] at hpages ⊢
  exact
    { Moves.refl d with
      mode := .inl rfl
      array := fun _ => ⟨rfl, rfl⟩
      streams := fun _ _ => rfl
      cursors := fun _ _ _ => rfl
      pages := hpages }

theorem Device.Placed.setSector {d : Device} (h : d.Placed) (n : Nat) (x : Sector) : (d.setSector n x).Placed :=
  (d.setSector_shifts n x 0).placed h

theorem Device.setSector_stream (d : Device) (n : Nat) (x : Sector) (st : Fin 16) : (d.setSector n x).stream st = d.stream st := by
  rw [Device.setSector_frame]
  rfl

/-- A sector that has a page WRITING is a data sector. -/
theorem Device.pagesOf_bound {d : Device} {n i : Nat} (h : (d.pagesOf n)[i]? = some .writing) : n < 256 := by
  refine Decidable.byContradiction fun hn => ?_
  rw [Device.pagesOf, Device.sector, dif_neg hn] at h
  have hmem := List.mem_of_getElem? h
  exact absurd hmem (by decide)

theorem Device.pagesOf_setSector {d : Device} {n : Nat} (hn : n < 256) (x : Sector) : (d.setSector n x).pagesOf n = x.pageList := by
  rw [Device.pagesOf, Device.sector_setSector _ _ _ hn]

/-- The map of the chain's last sector replaced by one with the same records, no append of these ports on it. -/
theorem Device.OrderedFor.repaged {d : Device} {S : Port → Prop} (hd : d.OrderedFor S) {st : Fin 16} {b : StreamBody}
    (hs : d.stream st = some b) {n : Nat} (hn : n ∈ b.chain) (hlt : n < 256) {x : Sector}
    (records : x.pageList.filterMap PageState.seq? = (d.pagesOf n).filterMap PageState.seq?) (order : pagesInOrder x.pageList)
    (busy : ∀ q j, S q → (d.exec q).job = .append j → j.stream = st → j.paged = false) : (d.setSector n x).OrderedFor S := by
  have hshift := d.setSector_shifts n x st
  refine hshift.ordered hd (fun m hm st' b' hne hb' => List.mem_singleton.mp hm ▸ Device.chains_apart hd.nodup hs hb' hne hn)
    (fun b' hb' => ?_) fun q j hq hj hst hclaim => ?_
  · rw [Device.setSector_stream, hs] at hb'
    cases hb'
    have hin := hd.streams st b hs
    have hpages (m : Nat) : ((d.setSector n x).pagesOf m).filterMap PageState.seq? = (d.pagesOf m).filterMap PageState.seq? := by
      by_cases hm : m = n
      · rw [hm, Device.pagesOf_setSector hlt, records]
      · rw [hshift.pagesOf fun hg => hm (List.mem_singleton.mp hg)]
    have hcursor (q : Port) : (d.setSector n x).cursor st q = d.cursor st q := by
      rw [Device.setSector_frame]
      rfl
    refine ⟨hin.oldest, (List.flatMap_congr fun m _ => hpages m).trans hin.records, fun m hm => ?_,
      fun q c hq => hin.cursors q c (hcursor q ▸ hq)⟩
    by_cases hmn : m = n
    · rw [hmn, Device.pagesOf_setSector hlt]
      exact order
    · rw [hshift.pagesOf fun hg => hmn (List.mem_singleton.mp hg)]
      exact hin.pages m hm
  · obtain ⟨b', hb', hw⟩ := (hd.appends q hq j hj).owned hclaim
    refine ⟨b', by rw [Device.setSector_stream, ← hst]; exact hb', hw, fun hp => ?_⟩
    rw [busy q j hq hj hst] at hp
    cases hp

/-- The oldest sequence is that of the first record, or the next sequence (R4). -/
theorem StreamBody.InOrder.first {b : StreamBody} {pages : Nat → List PageState} {cursor : Port → Option Cursor}
    (h : b.InOrder pages cursor) :
    (b.chain.flatMap fun n => (pages n).filterMap PageState.seq?).head?.getD b.next = b.oldest := by
  rw [h.records]
  have := h.oldest
  cases hc : b.next - b.oldest with
  | zero => exact show b.next = b.oldest by omega
  | succ n => rfl

/-- Recounting a stream in order leaves its oldest sequence. -/
theorem Device.OrderedFor.recounts {d : Device} {S : Port → Prop} (hd : d.OrderedFor S) (st : Fin 16) : d.Steady (d.recount st) := by
  have hshift := d.recount_shifts st
  have hframe : d.recount st = { d with streams := (d.recount st).streams } := Device.recount_frame d st
  refine ⟨hshift.toSteers, fun st' => ?_, fun st' q => by rw [hframe]; rfl, fun n => hshift.pages n List.not_mem_nil,
    by rw [hframe], by rw [hframe], by rw [hframe]⟩
  by_cases hst : st' = st
  · subst hst
    cases hs : d.stream st' with
    | none => rw [Device.recount_none _ _ hs, hs]
    | some b =>
      have hold : d.chainOldest b.chain b.next = b.oldest := by
        rw [Device.chainOldest_head]
        exact (hd.streams st' b hs).first
      rw [Device.recount_stream_self _ hs, hold]
      rfl
  · exact hshift.streams st' hst

/-! ### The page taken (R36) -/

theorem Device.takePage_placed {d : Device} (h : d.Placed) (st : Fin 16) (n page : Nat) : (d.takePage st n page).Placed := by
  unfold Device.takePage
  dsimp only
  exact ((Device.recount_shifts _ st).placed (h.setSector n _)).steady ((Steady.refl _).evalHigh st)

theorem Device.takePage_ordered {d : Device} {p : Port} (hd : d.OrderedFor (butPort p)) {st : Fin 16} {b : StreamBody}
    (hs : d.stream st = some b) (hw : b.writer = p) {n page : Nat} (hn : b.chain.getLast? = some n) (hlt : n < 256)
    (hpage : (d.sector n).firstUnused = some page) :
    let e := d.takePage st n page
    e.OrderedFor (butPort p) ∧ d.Owning e ∧ (∀ b', e.stream st = some b' → b'.chain.getLast? = some n) ∧
      (e.pagesOf n)[page]? = some .writing ∧ ∀ k, page < k → k < 16 → (e.pagesOf n)[k]? = some .unused := by
  have hmem := List.mem_of_getLast? hn
  obtain ⟨hunused, hbefore⟩ := Sector.firstUnused_some hpage
  have hin := (hd.streams st b hs).pages n hmem
  have hlt16 : page < 16 := by
    have := (List.getElem?_eq_some_iff.mp hunused).1
    rwa [Sector.pageList_length] at this
  unfold Device.takePage
  dsimp only
  generalize hx : (if page = 15 then { (d.sector n).setPage page .writing with state := .filled }
    else (d.sector n).setPage page .writing) = x
  have hlist : x.pageList = (d.pagesOf n).set page .writing := by
    have h := Sector.setPage_pageList (d.sector n) page .writing
    rw [← hx]
    split
    exacts [h, h]
  have hset := hd.repaged hs hmem hlt (x := x) (by rw [hlist]; exact records_set_none hunused rfl rfl)
    (by rw [hlist]; exact pagesInOrder_set hin nofun hbefore) (hd.unpaged hs hw)
  have hsteady := (hset.recounts st).evalHigh st
  have hpages : ((d.setSector n x).recount st |>.evalHigh st).pagesOf n = (d.pagesOf n).set page .writing := by
    have h : ((d.setSector n x).recount st |>.evalHigh st).pagesOf n = (d.setSector n x).pagesOf n :=
      congrArg Vector.toList (hsteady.pages n)
    rw [h, Device.pagesOf_setSector hlt, hlist]
  have howning : d.Owning (d.setSector n x) := (d.setSector_shifts n x st).owning fun b hb =>
    ⟨b, by rw [Device.setSector_stream]; exact hb, rfl⟩
  refine ⟨hsteady.runs.ordered _ hset, howning.trans hsteady.owning, fun b' hb' => ?_, ?_, fun k hk hk16 => ?_⟩
  · obtain ⟨b₁, hb₁, hcore⟩ := hsteady.cursory.some_stream ((Device.setSector_stream d n x st).trans hs)
    obtain rfl : b₁ = b' := Option.some.inj (hb₁.symm.trans hb')
    obtain ⟨-, -, -, -, hchain⟩ := StreamBody.core_eq hcore
    rw [hchain]
    exact hn
  · rw [hpages, List.getElem?_set_self (by rw [Device.pagesOf, Sector.pageList_length]; exact hlt16)]
  · have hk' : k < (d.sector n).pageList.length := by rw [Sector.pageList_length]; exact hk16
    obtain ⟨hp', hval⟩ := List.getElem?_eq_some_iff.mp hunused
    rw [hpages, List.getElem?_set_ne (by omega)]
    rw [Device.pagesOf, List.getElem?_eq_getElem hk']
    exact congrArg some (List.pairwise_iff_getElem.mp hin page k hp' hk' hk hval)

/-! ### The page abandoned (R44) -/

/-- The page of an append between its steps, as `AppendSafe` has it. -/
structure Device.OnPage (d : Device) (p : Port) (j : AppendJob) : Prop where
  owner : ∃ b, d.stream j.stream = some b ∧ b.writer = p ∧ b.chain.getLast? = some j.sector
  page : (d.pagesOf j.sector)[j.page]? = some .writing
  later : ∀ k, j.page < k → k < 16 → (d.pagesOf j.sector)[k]? = some .unused

theorem Device.AppendSafe.onPage {d : Device} {p : Port} {x : Executor} {j : AppendJob} (h : d.AppendSafe p x j)
    (hj : j.paged = true) : d.OnPage p j := by
  obtain ⟨b, hb, hw⟩ := h.owned (.inr hj)
  exact ⟨⟨b, hb, hw, h.last hj b hb⟩, (h.page hj).1, (h.page hj).2⟩

/-- The page of an append loses its record (R40, R44). -/
theorem Device.voided_ordered {d : Device} {p : Port} {j : AppendJob} (hd : d.OrderedFor (butPort p)) (hp : d.OnPage p j)
    {x : Sector} (hx : x.pageList = (d.pagesOf j.sector).set j.page .void) : (d.setSector j.sector x).OrderedFor (butPort p) := by
  obtain ⟨b, hs, hw, hlast⟩ := hp.owner
  have hmem := List.mem_of_getLast? hlast
  have hin := (hd.streams j.stream b hs).pages j.sector hmem
  exact hd.repaged hs hmem (Device.pagesOf_bound hp.page) (by rw [hx]; exact records_set_none hp.page rfl rfl)
    (by rw [hx]; exact pagesInOrder_set hin nofun (hin.before hp.page nofun)) (hd.unpaged hs hw)

theorem Device.stageOrDiscard_steady (d : Device) (p : Port) (es : List MetaEntry) : d.Steady (d.stageOrDiscard p es) :=
  .ite ((Steady.refl d).stageAll es) (.refl d)

theorem Device.abandonPage_placed {d : Device} (h : d.Placed) (p : Port) (j : AppendJob) : (d.abandonPage p j).Placed := by
  unfold Device.abandonPage
  dsimp only
  exact ((Device.reclaim_runs _ j.stream).placed (h.setSector j.sector _)).steady (Device.stageOrDiscard_steady _ p _)

theorem Device.abandonPage_ordered {d : Device} {p : Port} {j : AppendJob} (hd : d.OrderedFor (butPort p)) (hp : d.OnPage p j) :
    (d.abandonPage p j).OrderedFor (butPort p) := by
  unfold Device.abandonPage
  dsimp only
  exact (Device.stageOrDiscard_steady _ p _).runs.ordered _ ((Device.reclaim_runs _ j.stream).ordered _
    (Device.voided_ordered hd hp (Sector.setPage_pageList _ _ _)))

/-! ### The page failed (R40) -/

theorem Device.failPage_placed {d : Device} (h : d.Placed) (j : AppendJob) : (d.failPage j).1.Placed := by
  unfold Device.failPage
  dsimp only
  exact (Device.reclaim_runs _ j.stream).placed (((Device.recount_shifts _ j.stream).placed (h.setSector j.sector _)).steady
    ((Steady.refl _).evalHigh j.stream))

theorem Device.failPage_ordered {d : Device} {p : Port} {j : AppendJob} (hd : d.OrderedFor (butPort p)) (hp : d.OnPage p j) :
    (d.failPage j).1.OrderedFor (butPort p) := by
  unfold Device.failPage
  dsimp only
  have hset := Device.voided_ordered hd hp (x := { (d.sector j.sector).setPage j.page .void with
    suspect := true
    state := if ((d.sector j.sector).setPage j.page .void).state = .tail then .filled
      else ((d.sector j.sector).setPage j.page .void).state }) (Sector.setPage_pageList (d.sector j.sector) j.page .void)
  exact (Device.reclaim_runs _ j.stream).ordered _ (((hset.recounts j.stream).evalHigh j.stream).runs.ordered _ hset)

/-! ### The record committed (R38) -/

/-- One stream's fields replaced, writer, readers, oldest sequence and chain kept. -/
theorem Device.setBody_shifts {d : Device} {st : Fin 16} {b b' : StreamBody} (hs : d.stream st = some b)
    (hc : b'.chain = b.chain) : d.Shifts (d.setBody st (some b')) st [] := by
  have hplaces : (d.setBody st (some b')).places = d.places := by
    rw [Device.places_eq, Device.places_eq, Device.chained_congr (e := d.setBody st (some b')) (d := d) fun st' => ?_]
    · rfl
    · by_cases hst : st' = st
      · subst hst
        rw [Device.chainOf_some (Device.stream_setBody _ _ _), Device.chainOf_some hs, hc]
      · rw [Device.chainOf, Device.chainOf, Device.stream_setBody_other _ _ _ _ hst]
  have hsteers : d.Steers (d.setBody st (some b')) := { Steers.refl d with }
  exact
    { hsteers with
      places := hplaces ▸ .refl _
      bad := id
      queue := fun _ _ _ => id
      streams := fun st' hne => by rw [Device.stream_setBody_other _ _ _ _ hne]
      cursors := fun _ _ _ => rfl
      pages := fun _ _ => rfl }

theorem Device.commitRecord_placed {d : Device} (h : d.Placed) {j : AppendJob} {b : StreamBody}
    (hs : d.stream j.stream = some b) : (d.commitRecord j b).1.Placed := by
  unfold Device.commitRecord
  dsimp only
  have hs' : (d.setPageState j.sector j.page (.live b.next)).stream j.stream = some b :=
    (Device.setSector_stream d j.sector _ j.stream).trans hs
  have hbody := (Device.setBody_shifts hs' (b' := { b with next := b.next + 1 }) rfl).placed (h.setSector j.sector _)
  exact (Device.reclaim_runs _ j.stream).placed (hbody.steady ((Steady.refl _).evalBacklogs j.stream))

theorem Device.commitRecord_ordered {d : Device} {p : Port} {j : AppendJob} {b : StreamBody} (hd : d.OrderedFor (butPort p))
    (hp : d.OnPage p j) (hs : d.stream j.stream = some b) : (d.commitRecord j b).1.OrderedFor (butPort p) := by
  obtain ⟨b₁, hs₁, hw, hlast⟩ := hp.owner
  obtain rfl : b = b₁ := Option.some.inj (hs.symm.trans hs₁)
  have hmem := List.mem_of_getLast? hlast
  have hlt := Device.pagesOf_bound hp.page
  have hin := hd.streams j.stream b hs
  have hlive : ((d.sector j.sector).setPage j.page (.live b.next)).pageList =
      (d.pagesOf j.sector).set j.page (.live b.next) := Sector.setPage_pageList _ _ _
  unfold Device.commitRecord
  dsimp only
  unfold Device.setPageState
  generalize (d.sector j.sector).setPage j.page (.live b.next) = x at hlive
  have hs' : (d.setSector j.sector x).stream j.stream = some b := (Device.setSector_stream d j.sector _ j.stream).trans hs
  have hshift := (d.setSector_shifts j.sector x j.stream).trans (Device.setBody_shifts hs' (b' := { b with next := b.next + 1 }) rfl)
  rw [List.append_nil] at hshift
  have hself : ((d.setSector j.sector x).setBody j.stream (some { b with next := b.next + 1 })).stream j.stream =
      some { b with next := b.next + 1 } := Device.stream_setBody _ _ _
  have hown : ((d.setSector j.sector x).setBody j.stream (some { b with next := b.next + 1 })).pagesOf j.sector =
      (d.pagesOf j.sector).set j.page (.live b.next) := (Device.pagesOf_setSector hlt x).trans hlive
  have hcursor (q : Port) : ((d.setSector j.sector x).setBody j.stream (some { b with next := b.next + 1 })).cursor
      j.stream q = d.cursor j.stream q := by
    rw [Device.setSector_frame]
    rfl
  generalize (d.setSector j.sector x).setBody j.stream (some { b with next := b.next + 1 }) = e at hshift hself hown hcursor
  have hset : e.OrderedFor (butPort p) := by
    refine hshift.ordered hd (fun m hm st' b' hne hb' => List.mem_singleton.mp hm ▸
      Device.chains_apart hd.nodup hs hb' hne hmem) (fun b' hb' => ?_) fun q k hq hk hst hclaim => ?_
    · rw [hself] at hb'
      cases hb'
      have hnodup := Device.chain_nodup hd.nodup hs
      obtain ⟨front, hfront⟩ := List.getLast?_eq_some_iff.mp hlast
      have hother : ∀ m, m ≠ j.sector → e.pagesOf m = d.pagesOf m :=
        fun m hm => hshift.pagesOf fun hg => hm (List.mem_singleton.mp hg)
      refine ⟨hin.oldest.trans (Nat.le_succ _), ?_, fun m hm => ?_, fun q c hq => ?_⟩
      · have hrun := hin.records
        show (b.chain.flatMap _) = List.range' b.oldest (b.next + 1 - b.oldest)
        rw [hfront] at hrun hnodup ⊢
        have hapart : ∀ m ∈ front, m ≠ j.sector := fun m hm he =>
          (List.nodup_append.mp hnodup).2.2 m hm j.sector (List.mem_singleton_self _) he
        rw [List.flatMap_append, List.flatMap_singleton] at hrun ⊢
        rw [List.flatMap_congr fun m hm => by rw [hother m (hapart m hm)], hown,
          records_set_live hp.page rfl b.next fun k v hk hv => ?_, ← List.append_assoc, hrun]
        · have hold := hin.oldest
          rw [show b.next + 1 - b.oldest = (b.next - b.oldest) + 1 by omega, List.range'_concat]
          congr 2
          omega
        · have hk16 : k < 16 := by
            have := (List.getElem?_eq_some_iff.mp hv).1
            rwa [Device.pagesOf, Sector.pageList_length] at this
          rw [hp.later k hk hk16] at hv
          cases hv
          rfl
      · by_cases hmn : m = j.sector
        · rw [hmn, hown]
          have hsec := hin.pages j.sector hmem
          exact pagesInOrder_set hsec nofun (hsec.before hp.page nofun)
        · rw [hother m hmn]
          exact hin.pages m hm
      · obtain ⟨k1, k2, k3, k4, k5⟩ := hin.cursors q c (hcursor q ▸ hq)
        exact ⟨k1, k2, k3, k4.trans (Nat.le_succ _), k5⟩
    · obtain ⟨b', hb', hw'⟩ := (hd.appends q hq k hk).owned hclaim
      obtain rfl : b' = b := Option.some.inj ((hst ▸ hb').symm.trans hs)
      exact absurd (hw'.symm.trans hw) hq
  exact (Device.reclaim_runs _ j.stream).ordered _ (((Steady.refl _).evalBacklogs j.stream).runs.ordered _ hset)

/-! ### Nothing taken on meanwhile -/

theorem Device.reclaim_steers (d : Device) (st : Fin 16) : d.Steers (d.reclaim st).1 := by
  cases hs : d.stream st with
  | none =>
    rw [Device.reclaim, hs]
    exact .refl d
  | some b =>
    rcases Device.reclaim_cases hs with h | ⟨gone, stay, hc, h⟩ <;> rw [h]
    exacts [.refl d, (Device.headsGone_shifts hs hc).toSteers]

theorem Device.failPage_steers (d : Device) (j : AppendJob) : d.Steers (d.failPage j).1 := by
  unfold Device.failPage
  dsimp only
  exact (((d.setSector_shifts j.sector _ j.stream).toSteers.trans (Device.recount_shifts _ j.stream).toSteers).trans
    ((Steady.refl _).evalHigh j.stream).toSteers).trans (Device.reclaim_steers _ j.stream)

theorem Device.commitRecord_steers {d : Device} {j : AppendJob} {b : StreamBody} (hs : d.stream j.stream = some b) :
    d.Steers (d.commitRecord j b).1 := by
  unfold Device.commitRecord
  dsimp only
  have hs' : (d.setPageState j.sector j.page (.live b.next)).stream j.stream = some b :=
    (Device.setSector_stream d j.sector _ j.stream).trans hs
  exact (((d.setSector_shifts j.sector _ j.stream).toSteers.trans
    (Device.setBody_shifts hs' (b' := { b with next := b.next + 1 }) rfl).toSteers).trans
    ((Steady.refl _).evalBacklogs j.stream).toSteers).trans (Device.reclaim_steers _ j.stream)

end Sys2Proof.Machine
end

