-- ==== Sys2Proof/Proofs/AppendsOnArray.lean ====
section
/-! What the grants and the reports of an append keep of the streams and the appends (R36 to R46), and its retries. -/

namespace Sys2Proof.Machine

open Sys2Proof

-- One process elaborates the whole text: proofs taken in turn stay within its memory.
set_option Elab.async false

/-- From `d` to `d'` the sectors stay in place, and the streams and every append in order. -/
structure Device.Stays (d d' : Device) : Prop where
  placed : d.Placed → d'.Placed
  ordered : d.OrderedFor everyPort → d'.OrderedFor everyPort

theorem Device.Stays.refl (d : Device) : d.Stays d := ⟨id, id⟩

theorem Device.Stays.trans {a b c : Device} (h : a.Stays b) (k : b.Stays c) : a.Stays c := ⟨k.placed ∘ h.placed, k.ordered ∘ h.ordered⟩

theorem Device.Runs.stays {d d' : Device} (h : d.Runs d') : d.Stays d' := ⟨h.placed, h.ordered everyPort⟩

theorem Device.Steady.stays {d d' : Device} (h : d.Steady d') : d.Stays d' := h.runs.stays

/-- What a report makes of the part, if it can occur, is in place and in order. -/
def Device.StaysIn (d : Device) (r : Option Rig) : Prop := ∀ x, r = some x → d.Stays x.1

/-! ### The array changes hands -/

theorem Device.Placed.rearrayed {d : Device} (h : d.Placed) (arb : Arbiter) (op : ArrayOp) :
    ({ d with arbiter := arb, arrayOp := op } : Device).Placed := ⟨h.mode, h.nodup, h.bad, h.erasing, h.all⟩

/-- Neither the erase engine nor an executor other than `p` has the array. -/
structure Device.ArrayAt (d : Device) (p : Port) : Prop where
  others : ∀ q, q ≠ p → d.arbiter.holder ≠ some (.executor q)
  engine : d.engine.state ≠ .running

theorem Device.OrderedFor.arrayAt {d : Device} {S : Port → Prop} (h : d.OrderedFor S) {p : Port}
    (hh : d.arbiter.holder = none ∨ d.arbiter.holder = some (.executor p)) : d.ArrayAt p where
  others q hq hc := by
    rcases hh with hh | hh <;> rw [hh] at hc <;> cases hc
    exact hq rfl
  engine hc := by
    have hr := h.running hc
    rcases hh with hh | hh <;> rw [hh] at hr <;> cases hr

theorem Device.OrderedFor.rearrayed {d : Device} {p : Port} (h : d.OrderedFor (butPort p)) (ha : d.ArrayAt p) (arb : Arbiter)
    (op : ArrayOp) : ({ d with arbiter := arb, arrayOp := op } : Device).OrderedFor (butPort p) where
  toPlaced := h.toPlaced.rearrayed arb op
  streams := h.streams
  running hr := absurd hr ha.engine
  appends q hq j hj := by
    have k := h.appends q hq j hj
    exact ⟨k.hand, k.owned, k.last, k.page, k.between, fun hs => absurd (k.holds hs).1 (ha.others q hq), k.drained⟩

theorem Device.OrderedFor.releases {d : Device} {p : Port} (h : d.OrderedFor (butPort p)) (ha : d.ArrayAt p) :
    d.release.OrderedFor (butPort p) := h.rearrayed ha _ _

theorem Device.Placed.release {d : Device} (h : d.Placed) : d.release.Placed := h.rearrayed _ _

/-! ### Step 1 granted (R36, R46) -/

theorem Device.grantStep1_placed {d : Device} (h : d.Placed) (p : Port) (j : AppendJob) : (d.grantStep1 p j).Placed := by
  unfold Device.grantStep1
  split
  · exact h.release.answer _ _ _
  · split
    · exact h.release.answer _ _ _
    · split
      · exact Device.findPlace_placed h.release p j
      · split
        · exact Device.findPlace_placed h.release p j
        · exact ((Device.takePage_placed h _ _ _).toExec p _ _).rearrayed _ _

/-- Every data sector has a number below 256, once the part is mounted (R12). -/
theorem Device.Placed.bound {d : Device} (h : d.Placed) (hm : mountedMode d.mode = true) {st : Fin 16} {b : StreamBody}
    (hs : d.stream st = some b) {n : Nat} (hn : n ∈ b.chain) : n < 256 := by
  have hplace : n ∈ d.places := by
    rw [Device.places_eq]
    exact List.mem_append_left _ (List.mem_append_left _ (List.mem_append_left _ (Device.mem_places_of_chain hs hn)))
  have hdata := (h.all hm).mem_iff.mp hplace
  exact (mem_dataSectors.mp hdata).2

theorem Device.grantStep1_ordered {d : Device} {p : Port} {j : AppendJob} (hd : d.OrderedFor (butPort p))
    (hh : d.arbiter.holder = some (.executor p)) (hand : (d.exec p).appendsTo j.stream)
    (owner : ∃ b, d.stream j.stream = some b ∧ b.writer = p) : (d.grantStep1 p j).OrderedFor everyPort := by
  have hreleased := hd.releases (hd.arrayAt (.inr hh))
  unfold Device.grantStep1
  split
  · exact hreleased.answers _ _
  · rename_i hm
    have hready : d.mode = .ready := Decidable.not_not.mp hm
    have howns : d.release.Owns p j.stream := ⟨hand, owner, by rw [show d.release.mode = d.mode from rfl, hready]; nofun⟩
    obtain ⟨b, hs, hw⟩ := owner
    rw [hs]
    dsimp only
    split
    · exact Device.findPlace_ordered hreleased howns
    · rename_i n ht
      split
      · exact Device.findPlace_ordered hreleased howns
      · rename_i page hu
        have hlast : b.chain.getLast? = some n := by
          unfold Device.tailOf at ht
          split at ht
          · rename_i hl
            split at ht
            · rw [hl, ht]
            · cases ht
          · cases ht
        have hlt := hd.bound (by rw [hready]; rfl) hs (List.mem_of_getLast? hlast)
        obtain ⟨htaken, howning, hchain, hpage, hlater⟩ := Device.takePage_ordered hd hs hw hlast hlt hu
        generalize d.takePage j.stream n page = e at htaken howning hchain hpage hlater
        have harray := (howning.array (by rw [hh]; nofun)).1
        have hmode : e.mode ≠ .formatting := by
          rcases howning.mode with hk | ⟨-, -, hk⟩
          · rw [hk, hready]; nofun
          · exact hk
        obtain ⟨b', hs', hw'⟩ := howning.owners j.stream b hs
        refine (htaken.rearrayed (htaken.arrayAt (.inr (harray.trans hh))) e.arbiter
          (.program n page 0 (d.step1Bytes p j.stream b))).seats (x := { e.exec p with
            state := .onArray, job := .append { j with phase := .step1, sector := n, page := page } }) fun k hk => ?_
        cases hk
        exact ⟨(howning.execs p).appendsTo hand, fun _ => ⟨b', hs', hw'.trans hw⟩, fun _ => hchain, fun _ => ⟨hpage, hlater⟩,
          nofun, fun _ => ⟨harray.trans hh, n, page, 0, _, rfl⟩, fun hc => absurd hc hmode⟩

/-! ### Step 2 granted (R38, R46) -/

theorem Device.grantStep2_placed {d : Device} (h : d.Placed) (p : Port) (j : AppendJob) : (d.grantStep2 p j).Placed := by
  unfold Device.grantStep2
  split
  · exact (Device.abandonPage_placed h.release p j).answer _ _ _
  · exact (h.toExec p _ _).rearrayed _ _

theorem Device.grantStep2_ordered {d : Device} {p : Port} {j : AppendJob} (hd : d.OrderedFor (butPort p))
    (hh : d.arbiter.holder = some (.executor p)) (hand : (d.exec p).appendsTo j.stream) (hp : d.OnPage p j) :
    (d.grantStep2 p j).OrderedFor everyPort := by
  unfold Device.grantStep2
  split
  · exact (Device.abandonPage_ordered (hd.releases (hd.arrayAt (.inr hh))) ⟨hp.owner, hp.page, hp.later⟩).answers _ _
  · rename_i hm
    obtain ⟨b, hs, hw, hlast⟩ := hp.owner
    refine (hd.rearrayed (hd.arrayAt (.inr hh)) d.arbiter (.program j.sector j.page 14 [0x00#8])).seats
      (x := { d.exec p with state := .onArray, job := .append { j with phase := .step2 } }) fun k hk => ?_
    cases hk
    refine ⟨hand, fun _ => ⟨b, hs, hw⟩, fun _ b' hb' => ?_, fun _ => ⟨hp.page, hp.later⟩, nofun,
      fun _ => ⟨hh, _, _, _, _, rfl⟩, fun hc => absurd hc hm⟩
    obtain rfl : b = b' := Option.some.inj (hs.symm.trans hb')
    exact hlast

/-! ### A read granted (R53) -/

theorem Device.grantRead_placed {d : Device} (h : d.Placed) (p : Port) (st : Fin 16) (inc : Byte) : (d.grantRead p st inc).Placed := by
  have answered (status : Status) (body : List Byte) := h.release.answer p status body
  unfold Device.grantRead
  split
  · exact answered _ _
  · split
    · exact answered _ _
    · split
      · exact answered _ _
      · split
        · exact answered _ _
        · split
          · exact answered _ _
          · split
            · exact answered _ _
            · exact (h.toExec p _ _).rearrayed _ _

theorem Device.grantRead_ordered {d : Device} {p : Port} (hd : d.OrderedFor (butPort p))
    (hh : d.arbiter.holder = some (.executor p)) (st : Fin 16) (inc : Byte) : (d.grantRead p st inc).OrderedFor everyPort := by
  have answered (status : Status) (body : List Byte) := (hd.releases (hd.arrayAt (.inr hh))).answers status body
  unfold Device.grantRead
  split
  · exact answered _ _
  · split
    · exact answered _ _
    · split
      · exact answered _ _
      · split
        · exact answered _ _
        · split
          · exact answered _ _
          · rename_i c _ _
            split
            · exact answered _ _
            · rename_i n page _
              exact (hd.rearrayed (hd.arrayAt (.inr hh)) d.arbiter (.read n page)).seats (x := { d.exec p with
                state := .onArray, job := .reading st inc c.delivered n page }) fun _ hk => nomatch hk

/-! ### An executor granted (R86, R87) -/

theorem Device.executorGrant_placed {d : Device} (h : d.Placed) (p : Port) : (d.executorGrant p).Placed := by
  have rested := h.release.setExec p Executor.rest
  unfold Device.executorGrant
  split
  · exact Device.grantRead_placed h p _ _
  · split
    · exact Device.grantStep1_placed h p _
    · exact Device.grantStep2_placed h p _
    all_goals exact rested
  all_goals exact rested

/-- The idle array granted to an executor whose claim waits. -/
theorem Device.executorGrant_ordered {d : Device} (hd : d.OrderedFor everyPort) (hn : d.arbiter.holder = none) {p : Port}
    (hw : (d.exec p).state = .waitArray) (arb : Arbiter) (hh : arb.holder = some (.executor p)) :
    (({ d with arbiter := arb } : Device).executorGrant p).OrderedFor everyPort := by
  have hgranted : ({ d with arbiter := arb } : Device).OrderedFor (butPort p) :=
    (hd.but p).rearrayed (hd.arrayAt (.inl hn)) arb d.arrayOp
  have rested := (hgranted.releases (hgranted.arrayAt (.inr hh))).seats (x := Executor.rest) nofun
  unfold Device.executorGrant
  split
  · exact Device.grantRead_ordered hgranted hh _ _
  · rename_i j hj
    have hsafe := hd.appends p trivial j hj
    split
    · exact Device.grantStep1_ordered hgranted hh hsafe.hand (hsafe.owned (.inl hw))
    · rename_i hbetween
      have hpage := hsafe.onPage (AppendJob.between_paged hbetween)
      exact Device.grantStep2_ordered hgranted hh hsafe.hand ⟨hpage.owner, hpage.page, hpage.later⟩
    all_goals exact rested
  all_goals exact rested

/-! ### Retries and kept entries (R42, R43) -/

theorem Device.afterFailure_placed {d : Device} (h : d.Placed) (p : Port) (j : AppendJob) : (d.afterFailure p j).Placed := by
  unfold Device.afterFailure
  split
  · exact (h.steady ((Steady.refl d).leavePlaceWait _)).answer _ _ _
  · exact Device.seekPlace_placed (h.toExec p _ _) p _

theorem Device.afterFailure_ordered {d : Device} {p : Port} {j : AppendJob} (hd : d.OrderedFor (butPort p))
    (hand : (d.exec p).appendsTo j.stream) : (d.afterFailure p j).OrderedFor everyPort := by
  unfold Device.afterFailure
  split
  · exact (((Steady.refl d).leavePlaceWait _).runs.ordered _ hd).answers _ _
  · refine Device.seekPlace_ordered (hd.vacates _) fun r hr => hand r ?_
    rw [Device.toExec, Device.exec_setExec] at hr
    exact hr

theorem Device.stageKept_placed {d : Device} (h : d.Placed) (p : Port) (j : AppendJob) : (d.stageKept p j).Placed := by
  unfold Device.stageKept
  split
  · have hstaged := ((h.steady ((Steady.refl d).leavePlaceWait (.executor p))).toExec p
      (if ((d.leavePlaceWait (.executor p)).exec p).state = .waitStaging then .check
        else ((d.leavePlaceWait (.executor p)).exec p).state) (.append { j with kept := [] })).steady
      ((Steady.refl _).stageAll j.kept)
    dsimp only
    split
    · exact hstaged.answer _ _ _
    · exact Device.afterFailure_placed hstaged p _
    · exact hstaged.toExec p _ _
    all_goals exact hstaged
  · exact h

theorem Device.stageKept_ordered {d : Device} {p : Port} {j : AppendJob} (hd : d.OrderedFor everyPort)
    (hj : (d.exec p).job = .append j) (hphase : j.phase = .voiding ∨ j.phase = .failed ∨ ∃ n, j.phase = .committed n) :
    (d.stageKept p j).OrderedFor everyPort := by
  have hand := (hd.appends p trivial j hj).hand
  have hpaged : j.paged = false := by
    rw [Bool.eq_false_iff, Ne, AppendJob.paged_iff]
    rcases hphase with h | h | ⟨n, h⟩ <;> rw [h] <;> simp
  unfold Device.stageKept
  split
  · have hleft := (Steady.refl d).leavePlaceWait (.executor p)
    have hstaged : ((Device.toExec (d.leavePlaceWait (.executor p)) p
        (if ((d.leavePlaceWait (.executor p)).exec p).state = .waitStaging then .check
          else ((d.leavePlaceWait (.executor p)).exec p).state) (.append { j with kept := [] })).stageAll j.kept).OrderedFor
            (butPort p) :=
      ((Steady.refl _).stageAll j.kept).runs.ordered _ ((hleft.runs.ordered _ (hd.but p)).vacates _)
    have hhand : ((Device.stageAll (Device.toExec (d.leavePlaceWait (.executor p)) p
        (if ((d.leavePlaceWait (.executor p)).exec p).state = .waitStaging then .check
          else ((d.leavePlaceWait (.executor p)).exec p).state) (.append { j with kept := [] })) j.kept).exec p).appendsTo
            j.stream := by
      refine (((Steady.refl _).stageAll j.kept).execs p).appendsTo fun r hr => hand r ?_
      rw [Device.toExec, Device.exec_setExec] at hr
      exact hr
    dsimp only
    split
    · exact hstaged.answers _ _
    · exact Device.afterFailure_ordered hstaged hhand
    · exact hstaged.waits nofun hpaged hhand
    all_goals
      rename_i hp
      rw [hp] at hphase
      rcases hphase with h | h | ⟨n, h⟩ <;> cases h
  · exact hd

/-! ### Reports of an append (R37 to R46) -/

theorem Device.appendOnArray_some {d : Device} {p : Port} {j : AppendJob} (h : d.appendOnArray = some (p, j)) :
    d.arbiter.holder = some (.executor p) ∧ (d.exec p).job = .append j := by
  unfold Device.appendOnArray Device.holdingPort at h
  split at h
  · cases h
  · rename_i q hq
    split at h
    · rename_i hj
      cases h
      refine ⟨?_, hj⟩
      split at hq <;> cases hq
      assumption
    all_goals cases h

theorem Device.Steady.ran (d : Device) (pulses draws : Nat) : d.Steady (d.ran pulses draws) := .of_same

theorem Device.endAppend_placed {d : Device} (h : d.Placed) (p : Port) : (d.endAppend p).Placed :=
  (h.steady ((Steady.refl d).leavePlaceWait _)).answer _ _ _

theorem Device.OrderedFor.endsAppend {d : Device} {p : Port} (h : d.OrderedFor (butPort p)) : (d.endAppend p).OrderedFor everyPort :=
  (((Steady.refl d).leavePlaceWait _).runs.ordered _ h).answers _ _

theorem Device.stageOutcome_steady (d : Device) (p : Port) (j : AppendJob) (es : List MetaEntry) :
    d.Steady (d.stageOutcome p j es).1 := by
  unfold Device.stageOutcome
  split
  · exact (Steady.refl d).stageAll es
  · split
    · exact (Steady.refl d).joinPlaceWait _
    · exact .refl d

theorem Device.stageOutcome_job (d : Device) (p : Port) (j : AppendJob) (es : List MetaEntry) :
    (d.stageOutcome p j es).2.stream = j.stream := by
  unfold Device.stageOutcome
  split
  · rfl
  · split <;> rfl

/-- The part as the report of an append's step finds it: its executor holds the array, its own append safe. -/
structure Device.AtAppend (d : Device) (p : Port) (j : AppendJob) : Prop where
  others : d.OrderedFor (butPort p)
  array : d.ArrayAt p
  safe : d.AppendSafe p (d.exec p) j
  holder : d.arbiter.holder = some (.executor p)

theorem Device.OrderedFor.atAppend {d : Device} (h : d.OrderedFor everyPort) {p : Port} {j : AppendJob}
    (hap : d.appendOnArray = some (p, j)) (pulses draws : Nat) : (d.ran pulses draws).AtAppend p j := by
  obtain ⟨hh, hj⟩ := Device.appendOnArray_some hap
  have hran := (Steady.ran d pulses draws).runs.ordered _ h
  exact ⟨hran.but p, hran.arrayAt (.inr hh), hran.appends p trivial j hj, hh⟩

theorem Device.appendStep1Done_stays (d : Device) (flash : Flash) : d.StaysIn (d.appendStep1Done flash) := by
  rintro ⟨d', flash'⟩ h
  unfold Device.appendStep1Done at h
  split at h
  · rename_i p j _ _ hap hstep
    obtain ⟨pulses, draws, rfl⟩ := Device.stepPasses_ran hstep
    dsimp only at h
    split at h
    · rename_i hphase
      have hpaged : j.paged = true := AppendJob.step_paged (.inl hphase)
      split at h
      · cases h
        exact ⟨fun hd => Device.endAppend_placed (Device.abandonPage_placed (hd.steady (.ran d pulses draws)).release p j) p,
          fun hd => by
            have hat := hd.atAppend hap pulses draws
            have hpage := hat.safe.onPage hpaged
            exact (Device.abandonPage_ordered (hat.others.releases hat.array) ⟨hpage.owner, hpage.page, hpage.later⟩).endsAppend⟩
      · rename_i hover
        cases h
        refine ⟨fun hd => (hd.steady (.ran d pulses draws)).release.toExec p _ _, fun hd => ?_⟩
        have hat := hd.atAppend hap pulses draws
        refine (hat.others.releases hat.array).seats fun k hk => ?_
        cases hk
        refine ⟨hat.safe.hand, fun _ => hat.safe.owned (.inr hpaged), fun _ => hat.safe.last hpaged, fun _ => hat.safe.page hpaged,
          fun _ => rfl, nofun, fun hm _ => ?_⟩
        have hm' : (d.ran pulses draws).mode = .formatting := hm
        rw [Device.appendOver, hm'] at hover
        exact absurd (Bool.or_true _) hover
    · cases h
  · cases h

theorem Device.appendStep2Done_stays (d : Device) (flash : Flash) : d.StaysIn (d.appendStep2Done flash) := by
  rintro ⟨d', flash'⟩ h
  unfold Device.appendStep2Done at h
  split at h
  · rename_i p j _ _ hap hstep
    obtain ⟨pulses, draws, rfl⟩ := Device.stepPasses_ran hstep
    split at h
    · cases h
    · rename_i b hs
      split at h
      · rename_i hphase
        have hpaged : j.paged = true := AppendJob.step_paged (.inr hphase)
        dsimp only at h
        have hplaced (hd : d.Placed) := Device.commitRecord_placed (j := j) (hd.steady (.ran d pulses draws)).release hs
        have hordered (hd : d.OrderedFor everyPort) := by
          have hat := hd.atAppend hap pulses draws
          have hpage := hat.safe.onPage hpaged
          exact Device.commitRecord_ordered (hat.others.releases hat.array) ⟨hpage.owner, hpage.page, hpage.later⟩ hs
        have hand (hd : d.OrderedFor everyPort) :=
          ((Device.commitRecord_steers (d := (d.ran pulses draws).release) hs).execs p).appendsTo
            (hd.atAppend hap pulses draws).safe.hand
        generalize (d.ran pulses draws).release.commitRecord j b = r at h hplaced hordered hand
        have hsteady := r.1.stageOutcome_steady p j (retireEntries r.2)
        have hstream := r.1.stageOutcome_job p j (retireEntries r.2)
        generalize r.1.stageOutcome p j (retireEntries r.2) = o at h hsteady hstream
        have houtcome (hd : d.OrderedFor everyPort) := hsteady.runs.ordered _ (hordered hd)
        split at h
        · cases h
          exact ⟨fun hd => Device.endAppend_placed ((hplaced hd).steady hsteady) p, fun hd => (houtcome hd).endsAppend⟩
        · split at h
          · cases h
            exact ⟨fun hd => ((hplaced hd).steady hsteady).answer p _ _, fun hd => (houtcome hd).answers _ _⟩
          · cases h
            exact ⟨fun hd => ((hplaced hd).steady hsteady).toExec p _ _, fun hd => (houtcome hd).waits nofun rfl
              (hstream ▸ (hsteady.execs p).appendsTo (hand hd))⟩
      · cases h
  · cases h

theorem Device.appendStepFail_stays (d : Device) (flash : Flash) : d.StaysIn (d.appendStepFail flash) := by
  rintro ⟨d', flash'⟩ h
  unfold Device.appendStepFail at h
  split at h
  · rename_i p j _ _ hap hstep
    obtain ⟨pulses, draws, rfl⟩ := Device.stepFails_ran hstep
    split at h
    · rename_i hphase
      have hpaged : j.paged = true := by
        rw [Bool.or_eq_true, decide_eq_true_eq, beq_iff_eq] at hphase
        exact AppendJob.step_paged hphase
      dsimp only at h
      have hplaced (hd : d.Placed) := Device.failPage_placed (hd.steady (.ran d pulses draws)) j
      have hordered (hd : d.OrderedFor everyPort) := Device.failPage_ordered (hd.atAppend hap pulses draws).others
        ((hd.atAppend hap pulses draws).safe.onPage hpaged)
      have hsteers := (d.ran pulses draws).failPage_steers j
      generalize (d.ran pulses draws).failPage j = r at h hplaced hordered hsteers
      have hsteady := r.1.stageOutcome_steady p { j with attempts := j.attempts + 1 } (retireEntries r.2)
      have hstream := r.1.stageOutcome_job p { j with attempts := j.attempts + 1 } (retireEntries r.2)
      generalize r.1.stageOutcome p { j with attempts := j.attempts + 1 } (retireEntries r.2) = o at h hsteady hstream
      have hsince := hsteers.trans hsteady.toSteers
      have houtcome (hd : d.OrderedFor everyPort) := hsteady.runs.ordered _ (hordered hd)
      have harray (hd : d.OrderedFor everyPort) : o.1.ArrayAt p := by
        have hh := (hd.atAppend hap pulses draws).holder
        exact (houtcome hd).arrayAt (.inr ((hsince.array (by rw [hh]; nofun)).1.trans hh))
      have hand (hd : d.OrderedFor everyPort) := (hsince.execs p).appendsTo (hd.atAppend hap pulses draws).safe.hand
      split at h
      · cases h
        exact ⟨fun hd => Device.endAppend_placed ((hplaced hd).steady hsteady).release p,
          fun hd => ((houtcome hd).releases (harray hd)).endsAppend⟩
      · cases h
        exact ⟨fun hd => (((hplaced hd).steady hsteady).toExec p _ _).rearrayed _ _,
          fun hd => ((houtcome hd).rearrayed (harray hd) o.1.arbiter (.program j.sector j.page 15 [0x00#8])).waits
            (j := { o.2 with phase := .voiding }) (v := .onArray) nofun rfl (hstream ▸ hand hd)⟩
    · cases h
  · cases h

theorem Device.appendVoidEnd_stays (d : Device) (flash : Flash) (verified : Bool) :
    d.StaysIn (d.appendVoidEnd verified flash) := by
  rintro ⟨d', flash'⟩ h
  unfold Device.appendVoidEnd at h
  split at h
  · rename_i p j _ _ hap hstep
    obtain ⟨pulses, draws, rfl⟩ := Device.stepEnds_ran hstep
    dsimp only at h
    split at h
    · rename_i hphase
      have hplaced (hd : d.Placed) := (hd.steady (.ran d pulses draws)).release
      have hordered (hd : d.OrderedFor everyPort) := (hd.atAppend hap pulses draws).others.releases (hd.atAppend hap pulses draws).array
      have hand (hd : d.OrderedFor everyPort) := (hd.atAppend hap pulses draws).safe.hand
      split at h
      · cases h
        exact ⟨fun hd => Device.endAppend_placed (hplaced hd) p, fun hd => (hordered hd).endsAppend⟩
      · split at h
        · cases h
          exact ⟨fun hd => Device.afterFailure_placed (hplaced hd) p j,
            fun hd => Device.afterFailure_ordered (hordered hd) (hand hd)⟩
        · cases h
          exact ⟨fun hd => (hplaced hd).toExec p _ _, fun hd => (hordered hd).waits nofun rfl (hand hd)⟩
    · cases h
  · cases h

end Sys2Proof.Machine
end

