-- ==== Sys2Proof/Proofs/RequestsInOrder.lean ====
section
/-! What requests keep of the sectors, the streams and the appends: by kind, once with every table in place, and in
MOUNTING, where all that is changed is steady (R51 to R63, R140 to R149, R156 to R173). -/

namespace Sys2Proof.Machine

open Sys2Proof

-- One process elaborates the whole text: proofs taken in turn stay within its memory.
set_option Elab.async false

/-! ### Requests that change no table -/

namespace Device.Steady

variable {d₀ d : Device}

theorem takeAttach (h : d₀.Steady d) (p : Port) : d₀.Steady (d.takeAttach p) :=
  .ite (h.answer _ _ _) ((((h.setPort p { d.port p with attached := true }).setEvents _).sendPeer _ _).answer _ _ _)

theorem takeDetach (h : d₀.Steady d) (p : Port) (body : List Byte) : d₀.Steady (d.takeDetach p body) :=
  .ite (h.answer _ _ _) (.ite (h.answer _ _ _) ((h.answer _ _ _).endSession _))

theorem takeEvents (h : d₀.Steady d) (p : Port) (body : List Byte) : d₀.Steady (d.takeEvents p body) :=
  .ite (h.answer _ _ _) (.ite (h.answer _ _ _) ((h.setEvents _).answer _ _ _))

theorem takeMask (h : d₀.Steady d) (p : Port) (body : List Byte) : d₀.Steady (d.takeMask p body) :=
  .ite (h.answer _ _ _) (.ite (h.answer _ _ _) ((h.setEvents _).answer _ _ _))

theorem takeQuery (h : d₀.Steady d) (p : Port) (body : List Byte) : d₀.Steady (d.takeQuery p body) := by
  unfold Device.takeQuery
  split
  · exact h.answer _ _ _
  · split
    exacts [h.answer _ _ _, h.answer _ _ _]

theorem takeStatus (h : d₀.Steady d) (p : Port) : d₀.Steady (d.takeStatus p) := (h.answer _ _ _).drawn

/-- In MOUNTING no request changes a table (R167). -/
theorem process_mounting (hm : d.mode = .mounting) (p : Port) (r : Request) : d.Steady (d.process p r) := by
  have answered (status : Status) (body : List Byte) : d.Steady (d.answer p status body) := (Steady.refl d).answer p status body
  unfold Device.process
  refine .ite (answered _ _) ?_
  split
  · exact answered _ _
  · exact answered _ _
  · rename_i tag k body
    refine .ite (answered _ _) ?_
    rcases Device.carryOut_mounting hm p k body with rfl | rfl | rfl | rfl | rfl | h
    · exact (Steady.refl d).takeAttach p
    · exact (Steady.refl d).takeDetach p body
    · exact (Steady.refl d).takeEvents p body
    · exact (Steady.refl d).takeMask p body
    · exact (Steady.refl d).takeStatus p
    · rw [h]
      exact answered _ _

/-! ### Entry into FORMATTING (R149) -/

theorem formatExecutor (h : d₀.Steady d) (p : Port) : d₀.Steady (d.formatExecutor p) := by
  unfold Device.formatExecutor
  split
  case h_4 hs =>
    split
    case h_1 j hj =>
      refine h.setExec p ⟨.inr rfl, fun hn => ?_, fun k hk => ?_⟩
      · rw [hj] at hn; cases hn
      · cases hk
        exact ⟨j, hj, rfl, nofun, fun _ => ⟨rfl, rfl, rfl, fun hw => by rw [hs] at hw; cases hw⟩⟩
    all_goals exact h
  all_goals first | exact h.answer _ _ _ | exact h

theorem formatWriter (h : d₀.Steady d) : d₀.Steady d.formatWriter := h.setWriter nofun

/-- But for the device state, what a passed FORMAT changes is steady. -/
theorem enterFormatting (d : Device) : ({ d with mode := .formatting } : Device).Steady d.enterFormatting := by
  have entered : ({ d with mode := .formatting } : Device).Steady (d.enterState .formatting) := enterState_of .of_same
  have stopped := (((((entered.formatExecutor .A).formatExecutor .B).formatExecutor .C).setSpaceWait []).stopEngine).formatWriter
  exact stopped.setConsent _ (.inl ⟨nofun, nofun⟩)

end Device.Steady

/-- The device state alone is another, FORMAT not having found the array drained. -/
theorem Device.Steady.entersFormatting {d e : Device} (h : ({ d with mode := .formatting } : Device).Steady e)
    (hm : mountedMode d.mode = true) (hf : ¬ e.formats) : d.Stays e := by
  have hmode : mountedMode e.mode = true ∧ e.mode ≠ .mounting := by
    rcases h.mode with hk | ⟨-, hk, -⟩
    · rw [hk]
      exact ⟨rfl, nofun⟩
    · exact ⟨hk, fun hc => by rw [hc] at hk; cases hk⟩
  refine ⟨fun hd => ?_, fun hd => ?_⟩
  · have hd' : ({ d with mode := .formatting } : Device).Placed := ⟨nofun, hd.nodup, hd.bad, hd.erasing, fun _ => hd.all hm⟩
    exact h.moves.placed hd'
  · have hsteady : d.Steady { e with mode := d.mode } :=
      { h with mode := .inl rfl }
    have he := hsteady.runs.ordered _ hd
    refine ⟨⟨hmode.2, he.nodup, he.bad, he.erasing, fun _ => he.all hm⟩, he.streams, he.running, fun p hp j hj => ?_⟩
    have k := he.appends p hp j hj
    exact ⟨k.hand, k.owned, k.last, k.page, k.between, k.holds, fun _ hc => absurd hc hf⟩

theorem Device.enterFormatting_stays {d : Device} (hm : mountedMode d.mode = true) : d.Stays d.enterFormatting := by
  refine (Steady.enterFormatting d).entersFormatting hm ?_
  rintro (hf | hf | hf)
  · cases hf
  · cases hf
  · cases hf

/-! ### Ballots (R140 to R145) -/

theorem Device.Steady.mounted {d d' : Device} (h : d.Steady d') (hm : mountedMode d.mode = true) : mountedMode d'.mode = true := by
  rcases h.mode with hk | ⟨-, hk, -⟩
  · rwa [hk]
  · exact hk

theorem Device.passBallot_stays {d : Device} (hm : mountedMode d.mode = true) (bl : Ballot) : d.Stays (d.passBallot bl) := by
  have hclosed := (Steady.refl d).closeBallot .passed
  unfold Device.passBallot
  dsimp only
  split
  · exact (hclosed.setConsent _ (.inl ⟨by nofun, by nofun⟩)).stays
  · exact hclosed.stays.trans (Device.enterFormatting_stays (hclosed.mounted hm))

theorem Device.passIfComplete_stays {d : Device} (hm : mountedMode d.mode = true) : d.Stays d.passIfComplete := by
  unfold Device.passIfComplete
  split
  · split
    exacts [Device.passBallot_stays hm _, .refl d]
  · exact .refl d

theorem Device.openBallot_stays {d : Device} (hm : mountedMode d.mode = true) (p : Port) (op : BallotOp) (parties : PortSet) :
    d.Stays (d.openBallot p op parties) := by
  have hopened := ((((Steady.refl d).setConsent { d.consent with
    state := .opened
    counter := d.consent.counter + 1
    ballot := some ⟨d.consent.counter + 1, op, p, parties, (PerPort.all false).set p true⟩ } (.inl ⟨by nofun, by nofun⟩)).holdBallotStream
      op true).offerSet (parties.set p false) ⟨.ballotOpen, some (d.consent.counter + 1).toNat, some op.code⟩).answer p .ok
        [d.consent.counter + 1]
  exact hopened.stays.trans (Device.passIfComplete_stays (hopened.mounted hm))

theorem Device.proposeTo_stays {d : Device} (hm : mountedMode d.mode = true) (p : Port) (op : BallotOp) (parties : PortSet) :
    d.Stays (d.proposeTo p op parties) := by
  unfold Device.proposeTo
  split
  · exact ((Steady.refl d).answer _ _ _).stays
  · split
    · exact ((Steady.refl d).answer _ _ _).stays
    · exact Device.openBallot_stays hm p op parties

/-- A request admitted by a device-state check has the device state that check admits. -/
theorem Device.admission_passed {d : Device} {p : Port} {m : Option Status} (h : d.admission p m = none) : m = none := by
  unfold Device.admission at h
  split at h
  · cases h
  · rfl

theorem ballotMode_mounted {m : DeviceState} (h : ballotMode m = none) : mountedMode m = true := by
  cases m <;> first | rfl | cases h

theorem writeMode_mounted {m : DeviceState} (h : writeMode m = none) : mountedMode m = true := by
  cases m <;> first | rfl | cases h

theorem Device.takePropose_stays (d : Device) (p : Port) (body : List Byte) : d.Stays (d.takePropose p body) := by
  have answered (status : Status) (out : List Byte) := ((Steady.refl d).answer p status out).stays
  unfold Device.takePropose
  dsimp only
  split
  · exact answered _ _
  · rename_i hadm
    have hm : mountedMode d.mode = true := by
      have hcheck := Device.admission_passed hadm
      split at hcheck
      exacts [writeMode_mounted hcheck, ballotMode_mounted hcheck]
    split
    · split
      exacts [answered _ _, Device.proposeTo_stays hm _ _ _]
    · split
      exacts [Device.proposeTo_stays hm _ _ _, answered _ _]

theorem Device.voteCheck_mounted {d : Device} {p : Port} {body : List Byte} {bl : Ballot} (h : d.voteCheck p body = .ok bl) :
    mountedMode d.mode = true := by
  unfold Device.voteCheck at h
  split at h
  · cases h
  · rename_i hadm
    exact ballotMode_mounted (Device.admission_passed hadm)

theorem Device.takeAgree_stays (d : Device) (p : Port) (body : List Byte) : d.Stays (d.takeAgree p body) := by
  unfold Device.takeAgree
  split
  · exact ((Steady.refl d).answer _ _ _).stays
  · rename_i bl hcheck
    have hvoted := ((Steady.refl d).setConsent { d.consent with
      ballot := some { bl with agreed := bl.agreed.set p true } } (.inr rfl)).answer p .ok []
    exact hvoted.stays.trans (Device.passIfComplete_stays (hvoted.mounted (Device.voteCheck_mounted hcheck)))

theorem Device.takeRefuse_stays (d : Device) (p : Port) (body : List Byte) : d.Stays (d.takeRefuse p body) := by
  unfold Device.takeRefuse
  split
  exacts [((Steady.refl d).answer _ _ _).stays, (((Steady.refl d).answer _ _ _).closeBallot _).stays]

/-! ### Waits for durability (R113) -/

theorem Device.OrderedFor.durableAnswers {d : Device} {p : Port} (h : d.OrderedFor (butPort p)) :
    (d.durableAnswer p).OrderedFor everyPort := by
  unfold Device.durableAnswer
  split
  case h_3 => split <;> exact h.answers _ _
  all_goals exact h.answers _ _

theorem Device.awaitDurable_placed {d : Device} (h : d.Placed) (p : Port) (job : Job) (serial : Nat) :
    (d.awaitDurable p job serial).Placed := by
  unfold Device.awaitDurable
  split
  · exact h.answer _ _ _
  · split
    · exact (h.toExec p .check job).steady ((Steady.refl _).durableAnswer p)
    · exact h.toExec p _ _

theorem Device.OrderedFor.awaitsDurable {d : Device} {p : Port} (h : d.OrderedFor (butPort p)) {job : Job}
    (hj : ∀ j, job ≠ .append j) (serial : Nat) : (d.awaitDurable p job serial).OrderedFor everyPort := by
  unfold Device.awaitDurable
  split
  · exact h.answers _ _
  · split
    · exact (h.vacates _).durableAnswers
    · exact h.seats fun j hk => absurd hk (hj j)

/-! ### Requests on a cursor (R51 to R63) -/

/-- The checks of R51 passed. -/
theorem Device.cursorCheck_passed {d : Device} {p : Port} {k : Kind} {body : List Byte} {st : Fin 16} {b : StreamBody} {c : Cursor}
    (h : d.cursorCheck p k body = .ok (st, b, c)) : d.stream st = some b ∧ d.cursor st p = some c := by
  unfold Device.cursorCheck at h
  split at h
  · cases h
  · split at h
    · cases h
    · rename_i st' b' hn
      have hs : d.stream st' = some b' := by
        unfold Device.namedStream at hn
        split at hn
        · cases hn
        · split at hn
          · cases hn
          · rename_i hs
            cases hn
            exact hs
      split at h
      · rename_i hc
        split at h
        · cases h
        · split at h
          · cases h
          · cases h
            exact ⟨hs, hc⟩
      · cases h

theorem Device.takeRead_placed {d : Device} (h : d.Placed) (p : Port) (body : List Byte) : (d.takeRead p body).Placed := by
  unfold Device.takeRead
  split
  · exact h.answer _ _ _
  · split
    exacts [h.answer _ _ _, h.toExec p _ _]

theorem Device.takeRead_ordered {d : Device} {p : Port} (h : d.OrderedFor (butPort p)) (body : List Byte) :
    (d.takeRead p body).OrderedFor everyPort := by
  unfold Device.takeRead
  split
  · exact h.answers _ _
  · split
    exacts [h.answers _ _, h.seats nofun]

/-- An operation of an executor without an append, its places there or not. -/
theorem Device.withPlaces_ordered {d : Device} {p : Port} {op next : Device → Device} (h : d.OrderedFor everyPort)
    (hp : ∀ j, (d.exec p).job ≠ .append j)
    (hop : ((d.leavePlaceWait (.executor p)).toExecState p .check).OrderedFor everyPort →
      (next (op ((d.leavePlaceWait (.executor p)).toExecState p .check))).OrderedFor everyPort) :
    (d.withPlaces p op next).OrderedFor everyPort := by
  unfold Device.withPlaces
  dsimp only
  split
  · refine hop ((((Steady.refl d).leavePlaceWait (.executor p)).runs.ordered _ (h.but p)).seats fun j hj => ?_)
    exact absurd hj (hp j)
  · refine (((Steady.refl d).joinPlaceWait (.executor p)).runs.ordered _ (h.but p)).seats fun j hj => ?_
    have hexec : (d.joinPlaceWait (.executor p)).exec p = d.exec p := by
      unfold Device.joinPlaceWait
      split <;> rfl
    exact absurd (hexec ▸ hj) (hp j)

theorem Device.takeAck_placed {d : Device} (h : d.Placed) (p : Port) (body : List Byte) : (d.takeAck p body).Placed := by
  unfold Device.takeAck
  split
  · exact h.answer _ _ _
  · rename_i st b c _
    dsimp only
    split
    · exact h.answer _ _ _
    · split
      · unfold Device.ackUnchanged
        split
        exacts [Device.awaitDurable_placed h p _ _, h.answer _ _ _]
      · split
        · exact h.answer _ _ _
        · split
          · exact ((h.setCursor _ _ _).steady ((Steady.refl _).evalBacklog _ p)).answer _ _ _
          · refine h.withPlaces p fun e he => ?_
            have hadvanced := (Device.advanceCursor_runs (st := st) (p := p) (n := fieldAt body 1 4 + 1)).1 he
            unfold Device.ackAdvanced
            split
            exacts [Device.awaitDurable_placed hadvanced p _ _, hadvanced.answer _ _ _]

theorem Device.takeAck_ordered {d : Device} {p : Port} (h : d.OrderedFor everyPort) (hp : ∀ j, (d.exec p).job ≠ .append j)
    (body : List Byte) : (d.takeAck p body).OrderedFor everyPort := by
  unfold Device.takeAck
  split
  · exact (h.but p).answers _ _
  · rename_i st b c hcheck
    obtain ⟨hs, hc⟩ := Device.cursorCheck_passed hcheck
    obtain ⟨hreader, hold, hmid, hnext, hlost⟩ := (h.streams st b hs).cursors p c hc
    dsimp only
    split
    · exact (h.but p).answers _ _
    · split
      · unfold Device.ackUnchanged
        split
        exacts [(h.but p).awaitsDurable (by nofun) _, (h.but p).answers _ _]
      · rename_i hlow
        split
        · exact (h.but p).answers _ _
        · rename_i hhigh
          split
          · have hset := Device.setCursor_ordered (p := p) (c := { c with committed := fieldAt body 1 4 + 1 }) h fun b' hb' => by
              obtain rfl : b = b' := Option.some.inj (hs.symm.trans hb')
              exact ⟨hreader, show b.oldest ≤ fieldAt body 1 4 + 1 by omega, show fieldAt body 1 4 + 1 ≤ c.delivered by omega, hnext, hlost⟩
            exact ((((Steady.refl _).evalBacklog st p).runs.ordered _ hset).but p).answers _ _
          · refine Device.withPlaces_ordered h hp fun hready => ?_
            have hadvanced := (Device.advanceCursor_runs (st := st) (p := p) (n := fieldAt body 1 4 + 1)).2 _ (fun c' hc' => by
              obtain rfl : c = c' := Option.some.inj (hc.symm.trans hc')
              exact ⟨by omega, by omega⟩) hready
            unfold Device.ackAdvanced
            split
            exacts [(hadvanced.but p).awaitsDurable (by nofun) _, (hadvanced.but p).answers _ _]

theorem Device.takeRewind_placed {d : Device} (h : d.Placed) (p : Port) (body : List Byte) : (d.takeRewind p body).Placed := by
  unfold Device.takeRewind
  split
  exacts [h.answer _ _ _, (h.setCursor _ _ _).answer _ _ _]

theorem Device.takeRewind_ordered {d : Device} {p : Port} (h : d.OrderedFor everyPort) (body : List Byte) :
    (d.takeRewind p body).OrderedFor everyPort := by
  unfold Device.takeRewind
  split
  · exact (h.but p).answers _ _
  · rename_i st b c hcheck
    obtain ⟨hs, hc⟩ := Device.cursorCheck_passed hcheck
    obtain ⟨hreader, hold, hmid, hnext, hlost⟩ := (h.streams st b hs).cursors p c hc
    refine OrderedFor.answers (OrderedFor.but (Device.setCursor_ordered (p := p) (c := { c with delivered := c.committed }) h
      fun b' hb' => ?_) p) _ _
    obtain rfl : b = b' := Option.some.inj (hs.symm.trans hb')
    exact ⟨hreader, hold, Nat.le_refl _, hmid.trans hnext, hlost⟩

theorem Device.takeSetlevel_steady (d : Device) (p : Port) (body : List Byte) : d.Steady (d.takeSetlevel p body) := by
  unfold Device.takeSetlevel
  split
  · exact (Steady.refl d).answer _ _ _
  · rename_i st b c hcheck
    obtain ⟨-, hc⟩ := Device.cursorCheck_passed hcheck
    have hset := (Steady.refl d).setCursor (c' := { c with level := fieldAt body 1 2 }) hc rfl
    exact (hset.evalBacklog _ _).answer _ _ _

/-! ### SYNC, CREATE, CONFIGURE, DELETE -/

theorem Device.takeSync_placed {d : Device} (h : d.Placed) (p : Port) : (d.takeSync p).Placed := by
  unfold Device.takeSync
  split
  · exact h.answer _ _ _
  · split
    exacts [h.answer _ _ _, Device.awaitDurable_placed h p _ _]

theorem Device.takeSync_ordered {d : Device} {p : Port} (h : d.OrderedFor (butPort p)) : (d.takeSync p).OrderedFor everyPort := by
  unfold Device.takeSync
  split
  · exact h.answers _ _
  · split
    exacts [h.answers _ _, h.awaitsDurable (by nofun) _]

theorem Device.takeCreate_placed {d : Device} (h : d.Placed) (p : Port) (body : List Byte) : (d.takeCreate p body).Placed := by
  unfold Device.takeCreate
  split
  · exact h.answer _ _ _
  · split
    · exact h.answer _ _ _
    · split
      · exact h.answer _ _ _
      · rename_i a _ _ st hfree
        have hnone := (Device.lowestFree_some hfree).1
        unfold Device.withPlaces
        dsimp only
        split
        · have hready := (h.steady ((Steady.refl d).leavePlaceWait (.executor p))).setExec p
            { (d.leavePlaceWait (.executor p)).exec p with state := .check }
          exact Device.awaitDurable_placed ((Device.createStream_runs (d := (d.leavePlaceWait (.executor p)).toExecState p .check)
            (st := st) hnone p a).placed hready) p _ _
        · exact (h.steady ((Steady.refl d).joinPlaceWait _)).setExec p _

theorem Device.takeCreate_ordered {d : Device} {p : Port} (h : d.OrderedFor everyPort) (hp : ∀ j, (d.exec p).job ≠ .append j)
    (body : List Byte) : (d.takeCreate p body).OrderedFor everyPort := by
  unfold Device.takeCreate
  split
  · exact (h.but p).answers _ _
  · split
    · exact (h.but p).answers _ _
    · split
      · exact (h.but p).answers _ _
      · rename_i a _ _ st hfree
        have hnone := (Device.lowestFree_some hfree).1
        refine Device.withPlaces_ordered h hp fun hready => ?_
        exact (((Device.createStream_runs (d := (d.leavePlaceWait (.executor p)).toExecState p .check) (st := st) hnone p
          a).ordered _ hready).but p).awaitsDurable (by nofun) _

/-- The checks CONFIGURE and DELETE share passed. -/
theorem Device.ownerCheck_passed {d : Device} {p : Port} {body : List Byte} {st : Fin 16} {b : StreamBody}
    (h : d.ownerCheck p body = .ok (st, b)) : d.stream st = some b ∧ b.writer = p := by
  unfold Device.ownerCheck at h
  split at h
  · cases h
  · split at h
    · cases h
    · rename_i st' b' hn
      have hs : d.stream st' = some b' := by
        unfold Device.namedStream at hn
        split at hn
        · cases hn
        · split at hn
          · cases hn
          · rename_i hs
            cases hn
            exact hs
      split at h
      · cases h
      · rename_i hw
        split at h
        · cases h
        · cases h
          exact ⟨hs, Decidable.not_not.mp hw⟩

theorem Device.takeConfigure_placed {d : Device} (h : d.Placed) (p : Port) (body : List Byte) : (d.takeConfigure p body).Placed := by
  unfold Device.takeConfigure
  split
  · exact h.answer _ _ _
  · split
    · exact h.answer _ _ _
    · exact h.withPlaces p fun e he => Device.awaitDurable_placed ((Device.configureStream_runs e _ _).placed he) p _ _

theorem Device.takeConfigure_ordered {d : Device} {p : Port} (h : d.OrderedFor everyPort) (hp : ∀ j, (d.exec p).job ≠ .append j)
    (body : List Byte) : (d.takeConfigure p body).OrderedFor everyPort := by
  unfold Device.takeConfigure
  split
  · exact (h.but p).answers _ _
  · split
    · exact (h.but p).answers _ _
    · exact Device.withPlaces_ordered h hp fun hready =>
        (((Device.configureStream_runs _ _ _).ordered _ hready).but p).awaitsDurable (by nofun) _

theorem Device.takeDelete_placed {d : Device} (h : d.Placed) (p : Port) (body : List Byte) : (d.takeDelete p body).Placed := by
  unfold Device.takeDelete
  split
  · exact h.answer _ _ _
  · split
    · exact h.answer _ _ _
    · exact h.withPlaces p fun e he => Device.awaitDurable_placed ((Device.deleteStream_runs _).1 he) p _ _

theorem Device.takeDelete_ordered {d : Device} {p : Port} (h : d.OrderedFor everyPort) (hp : ∀ j, (d.exec p).job ≠ .append j)
    (body : List Byte) : (d.takeDelete p body).OrderedFor everyPort := by
  unfold Device.takeDelete
  split
  · exact (h.but p).answers _ _
  · rename_i st b hcheck
    obtain ⟨hs, hw⟩ := Device.ownerCheck_passed hcheck
    split
    · exact (h.but p).answers _ _
    · refine Device.withPlaces_ordered h hp fun hready => ?_
      refine (((Device.deleteStream_runs st).2 _ (fun b' j hb' hj => ?_) hready).but p).awaitsDurable (by nofun) _
      obtain rfl : b = b' := Option.some.inj (hs.symm.trans hb')
      rw [hw, Device.toExecState, Device.exec_setExec] at hj
      exact hp j hj

/-! ### A request of any kind -/

theorem Device.carryOut_placed {d : Device} (h : d.Placed) (p : Port) (k : Kind) (body : List Byte) : (d.carryOut p k body).Placed := by
  cases k with
  | attach => exact h.steady ((Steady.refl d).takeAttach p)
  | detach => exact h.steady ((Steady.refl d).takeDetach p body)
  | create => exact Device.takeCreate_placed h p body
  | configure => exact Device.takeConfigure_placed h p body
  | delete => exact Device.takeDelete_placed h p body
  | append => exact Device.takeAppend_placed h p body
  | read => exact Device.takeRead_placed h p body
  | ack => exact Device.takeAck_placed h p body
  | rewind => exact Device.takeRewind_placed h p body
  | setlevel => exact h.steady (d.takeSetlevel_steady p body)
  | query => exact h.steady ((Steady.refl d).takeQuery p body)
  | status => exact h.steady ((Steady.refl d).takeStatus p)
  | sync => exact Device.takeSync_placed h p
  | events => exact h.steady ((Steady.refl d).takeEvents p body)
  | mask => exact h.steady ((Steady.refl d).takeMask p body)
  | propose => exact (d.takePropose_stays p body).placed h
  | agree => exact (d.takeAgree_stays p body).placed h
  | refuse => exact (d.takeRefuse_stays p body).placed h

theorem Device.carryOut_ordered {d : Device} {p : Port} (h : d.OrderedFor everyPort) (hp : ∀ j, (d.exec p).job ≠ .append j)
    {tag : Byte} {k : Kind} {body : List Byte} (hr : (d.exec p).inHand = some (.known tag k body)) :
    (d.carryOut p k body).OrderedFor everyPort := by
  cases k with
  | attach => exact ((Steady.refl d).takeAttach p).runs.ordered _ h
  | detach => exact ((Steady.refl d).takeDetach p body).runs.ordered _ h
  | create => exact Device.takeCreate_ordered h hp body
  | configure => exact Device.takeConfigure_ordered h hp body
  | delete => exact Device.takeDelete_ordered h hp body
  | append => exact Device.takeAppend_ordered h hr
  | read => exact Device.takeRead_ordered (h.but p) body
  | ack => exact Device.takeAck_ordered h hp body
  | rewind => exact Device.takeRewind_ordered h body
  | setlevel => exact (d.takeSetlevel_steady p body).runs.ordered _ h
  | query => exact ((Steady.refl d).takeQuery p body).runs.ordered _ h
  | status => exact ((Steady.refl d).takeStatus p).runs.ordered _ h
  | sync => exact Device.takeSync_ordered (h.but p)
  | events => exact ((Steady.refl d).takeEvents p body).runs.ordered _ h
  | mask => exact ((Steady.refl d).takeMask p body).runs.ordered _ h
  | propose => exact (d.takePropose_stays p body).ordered h
  | agree => exact (d.takeAgree_stays p body).ordered h
  | refuse => exact (d.takeRefuse_stays p body).ordered h

/-- The request in hand carried out, its executor without an append (R164, R167, R179). -/
theorem Device.process_stays {d : Device} {p : Port} {r : Request} (hp : ∀ j, (d.exec p).job ≠ .append j)
    (hr : (d.exec p).inHand = some r) : d.Stays (d.process p r) := by
  have answered (status : Status) (body : List Byte) := ((Steady.refl d).answer p status body).stays
  unfold Device.process
  split
  · exact answered _ _
  · split
    · exact answered _ _
    · exact answered _ _
    · split
      · exact answered _ _
      · exact ⟨fun h => Device.carryOut_placed h p _ _, fun h => Device.carryOut_ordered h hp hr⟩

end Sys2Proof.Machine
end

