-- ==== Sys2Proof/Proofs/GoodStates.lean ====
section
/-! The states of the last two invariants, with the tables in place or while a mount scans, and what keeps them: the
steady operations, the requests, the offering of places. -/

namespace Sys2Proof.Machine

open Sys2Proof

-- One process elaborates the whole text: proofs taken in turn stay within its memory.
set_option Elab.async false

/-! ### The states -/

/-- While a mount scans: no holder, no erase, no operation, no table, and the mount unit in step (R123, R138). -/
structure Device.Scans (d : Device) : Prop where
  mode : d.mode = .mounting
  holder : d.arbiter.holder = none
  current : d.engine.current = none
  jobs : ∀ p, (d.exec p).job = .none
  tables : ∀ st, d.stream st = none ∧ ∀ p, d.cursor st p = none
  freePool : d.freePool = []
  eraseQueue : d.eraseQueue = []
  badList : d.badList = []
  reads : ∀ n page, d.arrayOp = .read n page → d.mount.scanned n

/-- The sectors in place, or a mount under way. -/
def Device.Good (d : Device) : Prop := d.Placed ∨ d.Scans

/-- And the streams and the appends in order. -/
def Device.Well (d : Device) : Prop := d.OrderedFor everyPort ∨ d.Scans ∧ d.engine.state ≠ .running

theorem Device.scanGood_of {d : Device} (h : d.Scans) : d.scanGood := fun _ =>
  ⟨h.holder, h.current, h.jobs, h.tables, h.freePool, h.eraseQueue, h.badList, h.reads⟩

theorem Device.Scans.of_good {d : Device} (hm : d.mode = .mounting) (h : d.scanGood) : d.Scans := by
  obtain ⟨h1, h2, h3, h4, h5, h6, h7, h8⟩ := h hm
  exact ⟨hm, h1, h2, h3, h4, h5, h6, h7, h8⟩

theorem Device.Scans.places {d : Device} (h : d.Scans) : d.places = [] := by
  have hchain : d.chained = [] := by
    rw [Device.chained_eq, List.flatMap_eq_nil_iff]
    intro st _
    rw [Device.chainOf, (h.tables st).1]
  rw [Device.places_eq, hchain, h.freePool, h.eraseQueue, h.badList]
  rfl

theorem Device.Scans.sectors {d : Device} (h : d.Scans) : d.sectorsGood := by
  refine ⟨by rw [h.places]; exact List.nodup_nil, by rw [h.badList]; exact Nat.zero_le _, fun c hc => ?_, fun hm => ?_⟩
  · rw [h.current] at hc; cases hc
  · rw [h.mode] at hm; cases hm

theorem Device.good_iff (d : Device) : d.Good ↔ d.sectorsGood ∧ d.scanGood := by
  constructor
  · rintro (h | h)
    · exact ⟨((Device.placed_iff d).mp h).2, fun hm => absurd hm h.mode⟩
    · exact ⟨h.sectors, Device.scanGood_of h⟩
  · rintro ⟨hs, hg⟩
    by_cases hm : d.mode = .mounting
    · exact .inr (.of_good hm hg)
    · exact .inl ((Device.placed_iff d).mpr ⟨hm, hs⟩)

theorem Device.well_iff (d : Device) : d.Well ↔ d.sectorsGood ∧ d.scanGood ∧ d.cursorsGood ∧ d.appendsGood := by
  constructor
  · rintro (h | ⟨h, hrun⟩)
    · obtain ⟨hp, hc, ha⟩ := (Device.ordered_iff d).mp h
      exact ⟨((Device.placed_iff d).mp hp).2, fun hm => absurd hm hp.mode, hc, ha⟩
    · refine ⟨h.sectors, Device.scanGood_of h, fun st b hb => ?_, fun p j hj => ?_, fun hr => absurd hr hrun, fun hm => ?_⟩
      · rw [(h.tables st).1] at hb; cases hb
      · rw [h.jobs p] at hj; cases hj
      · rw [h.mode] at hm; cases hm
  · rintro ⟨hs, hg, hc, ha⟩
    by_cases hm : d.mode = .mounting
    · refine .inr ⟨.of_good hm hg, fun hr => ?_⟩
      have hholder := ha.2.1 hr
      rw [(hg hm).1] at hholder
      cases hholder
    · exact .inl ((Device.ordered_iff d).mpr ⟨(Device.placed_iff d).mpr ⟨hm, hs⟩, hc, ha⟩)

/-- From `d` to `d'` the good states stay good. -/
structure Device.Holds (d d' : Device) : Prop where
  good : d.Good → d'.Good
  well : d.Well → d'.Well

theorem Device.Holds.refl (d : Device) : d.Holds d := ⟨id, id⟩

theorem Device.Holds.trans {a b c : Device} (h : a.Holds b) (k : b.Holds c) : a.Holds c := ⟨k.good ∘ h.good, k.well ∘ h.well⟩

theorem Device.Steady.scans {d d' : Device} (h : d.Steady d') (hd : d.Scans) : d'.Scans where
  mode := by
    rcases h.mode with hk | ⟨hk, -, -⟩
    · exact hk.trans hd.mode
    · rw [hd.mode] at hk; cases hk
  holder := (h.array (by rw [hd.holder]; nofun)).1.trans hd.holder
  current := by
    cases hc : d'.engine.current with
    | none => rfl
    | some c =>
      obtain ⟨c', hc', -⟩ := h.erasing c hc
      rw [hd.current] at hc'
      cases hc'
  jobs p := (h.execs p).rests (hd.jobs p)
  tables st := by
    refine ⟨?_, fun p => ?_⟩
    · have := h.streams st
      rwa [(hd.tables st).1, Option.map_none, Option.map_eq_none_iff] at this
    · have := h.cursors st p
      rwa [(hd.tables st).2 p, Option.map_none, Option.map_eq_none_iff] at this
  freePool := h.freePool.trans hd.freePool
  eraseQueue := h.eraseQueue.trans hd.eraseQueue
  badList := h.badList.trans hd.badList
  reads n page hop := by
    rw [h.mount]
    exact hd.reads n page (((h.array (by rw [hd.holder]; nofun)).2).symm.trans hop)

theorem Device.Steady.still {d d' : Device} (h : d.Steady d') (hd : d.engine.state ≠ .running) : d'.engine.state ≠ .running :=
  fun hr => hd (h.running hr).1

/-- What keeps the tables in place, and is steady while a mount scans. -/
theorem Device.Stays.holds {d d' : Device} (h : d.Stays d') (hm : d.Scans → d.Steady d') : d.Holds d' where
  good := Or.imp h.placed fun hd => (hm hd).scans hd
  well := Or.imp h.ordered fun ⟨hd, hr⟩ => ⟨(hm hd).scans hd, (hm hd).still hr⟩

theorem Device.Steady.holds {d d' : Device} (h : d.Steady d') : d.Holds d' := h.stays.holds fun _ => h

/-- What comes about outside a mount alone. -/
theorem Device.Stays.unmounted {d d' : Device} (h : d.Stays d') (hm : ¬ d.Scans) : d.Holds d' := h.holds fun hd => absurd hd hm

theorem Device.Holds.ite {d : Device} {c : Prop} [Decidable c] {x y : Device} (hx : d.Holds x) (hy : d.Holds y) :
    d.Holds (if c then x else y) := by
  split
  exacts [hx, hy]

/-! ### Requests -/

/-- An executor without an operation set. -/
theorem Device.setExec_holds (d : Device) (p : Port) {x : Executor} (hx : x.job = .none) : d.Holds (d.setExec p x) := by
  have hscans (h : d.Scans) : (d.setExec p x).Scans := by
    refine ⟨h.mode, h.holder, h.current, fun q => ?_, h.tables, h.freePool, h.eraseQueue, h.badList, h.reads⟩
    by_cases hq : q = p
    · rw [hq, Device.exec_setExec, hx]
    · rw [Device.exec_setExec_other _ _ _ _ hq]
      exact h.jobs q
  refine ⟨Or.imp (fun h => h.setExec p x) hscans, Or.imp (fun h => ?_) fun ⟨h, hr⟩ => ⟨hscans h, hr⟩⟩
  exact (h.but p).seats fun j hj => by rw [hx] at hj; cases hj

theorem Device.process_holds {d : Device} {p : Port} {r : Request} (hp : ∀ j, (d.exec p).job ≠ .append j)
    (hr : (d.exec p).inHand = some r) : d.Holds (d.process p r) :=
  (Device.process_stays hp hr).holds fun hd => Steady.process_mounting hd.mode p r

theorem Device.takeRequest_holds (d : Device) (p : Port) : d.Holds (d.takeRequest p) := by
  unfold Device.takeRequest
  split
  · exact .refl d
  · rename_i r rest _
    have htaken := ((Steady.refl d).setPort p { d.port p with requests := rest }).holds.trans
      (Device.setExec_holds _ p (x := ⟨.check, some r, .none⟩) rfl)
    refine htaken.trans (Device.process_holds (fun j hj => ?_) ?_)
    · rw [Device.exec_setExec] at hj
      cases hj
    · rw [Device.exec_setExec]

/-! ### The offering of places (R107) -/

theorem Device.processAgain_holds {d : Device} {p : Port} {r : Request} (hp : ∀ j, (d.exec p).job ≠ .append j)
    (hr : (d.exec p).inHand = some r) : d.Holds (d.processAgain p r) := by
  have hprocessed := Device.process_holds hp hr
  exact .ite hprocessed (hprocessed.trans ((Steady.refl _).leavePlaceWait _).holds)

theorem Device.executorAgain_holds (d : Device) (p : Port) : d.Holds (d.executorAgain p) := by
  have left := ((Steady.refl d).leavePlaceWait (.executor p)).holds
  unfold Device.executorAgain
  split
  · rename_i j hj
    have unmounted {d' : Device} (h : d.Stays d') : d.Holds d' :=
      h.unmounted fun hd => by rw [hd.jobs p] at hj; cases hj
    have kept (hphase : j.phase = .voiding ∨ j.phase = .failed ∨ ∃ n, j.phase = .committed n) :=
      unmounted ⟨fun h => Device.stageKept_placed h p j, fun h => Device.stageKept_ordered h hj hphase⟩
    split
    · exact unmounted ⟨fun h => Device.seekAgain_placed h p j, fun h => Device.seekAgain_ordered h hj⟩
    · exact kept (.inl ‹_›)
    · exact kept (.inr (.inr ⟨_, ‹_›⟩))
    · exact kept (.inr (.inl ‹_›))
    all_goals exact left
  · rename_i hr hnone
    exact Device.processAgain_holds hnone hr
  · exact left

theorem Executor.inFlightOn_false {x : Executor} {st : Fin 16} (h : ¬ x.inFlightOn st = true) {j : AppendJob}
    (hj : x.job = .append j) (hst : j.stream = st) : j.paged = false := by
  have hpaged : x.inFlightOn st = (j.stream == st && j.paged) := by rw [Executor.inFlightOn, hj]; rfl
  rw [hpaged, hst, beq_self_eq_true, Bool.true_and] at h
  exact Bool.eq_false_iff.mpr h

theorem Device.tryPurge_holds (d : Device) : d.Holds d.tryPurge := by
  unfold Device.tryPurge
  split
  · exact ((Steady.refl d).purgeOver).holds
  · rename_i st b ht
    obtain ⟨-, -, hs, -⟩ := Device.purgeTarget_some ht
    split
    · exact (((Steady.refl d).leavePlaceWait .consent).setConsent { d.consent with state := .purgePending }
        (.inl ⟨nofun, nofun⟩)).holds
    · rename_i hfree
      split
      · have hpurged := Device.purgeStream_runs hs
        have hstays : d.Stays (d.purgeStream st) := ⟨hpurged.1, hpurged.2 everyPort fun j hj hst =>
          Executor.inFlightOn_false hfree hj hst⟩
        exact (hstays.trans ((Steady.refl _).purgeOver).stays).unmounted fun hd => by
          rw [(hd.tables st).1] at hs; cases hs
      · have hjoined := (Steady.refl d).joinPlaceWait .consent
        exact (hjoined.setConsent { (d.joinPlaceWait .consent).consent with state := .purgeStaging } (.inl ⟨nofun, nofun⟩)).holds

theorem Device.offerTo_holds (d : Device) (w : Waiter) : d.Holds (d.offerTo w) := by
  cases w with
  | executor p => exact d.executorAgain_holds p
  | engine => exact ((Steady.refl d).stageEngine).holds
  | consent => exact d.tryPurge_holds

theorem offerDown_holds (fuel : Nat) (d : Device) : d.Holds (offerDown fuel d) := by
  induction fuel generalizing d with
  | zero => exact .refl d
  | succ fuel ih =>
    rw [offerDown]
    split
    · exact .refl d
    · exact .ite (d.offerTo_holds _) ((d.offerTo_holds _).trans (ih _))

theorem Device.offerPlaces_holds (d : Device) : d.Holds d.offerPlaces := by
  have hengine := ((Steady.refl d).stageEngine).holds
  unfold Device.offerPlaces
  dsimp only
  split
  · exact hengine.trans (offerDown_holds _ _)
  · exact offerDown_holds _ _

/-! ### Ending a request (R44, R170) -/

theorem Device.withdrawClaim_placed {d : Device} (h : d.Placed) (p : Port) : (d.withdrawClaim p).Placed := by
  unfold Device.withdrawClaim
  split
  · split
    · exact Device.abandonPage_placed h p _
    all_goals exact h
  all_goals exact h

theorem Device.withdrawClaim_ordered {d : Device} (h : d.OrderedFor everyPort) (p : Port) :
    (d.withdrawClaim p).OrderedFor (butPort p) := by
  unfold Device.withdrawClaim
  split
  · rename_i j hj
    split
    · rename_i hphase
      exact Device.abandonPage_ordered (h.but p) ((h.appends p trivial j hj).onPage (AppendJob.between_paged hphase))
    all_goals exact h.but p
  all_goals exact h.but p

theorem Device.Scans.withdrawClaim {d : Device} (h : d.Scans) (p : Port) : d.withdrawClaim p = d := by
  rw [Device.withdrawClaim, h.jobs p]

/-- The operation of an ended request runs on. -/
theorem Device.Steady.detachJob {d₀ d : Device} (h : d₀.Steady d) {p : Port} (hs : (d.exec p).state = .onArray) :
    d₀.Steady (d.detachJob p) := by
  have left := h.leavePlaceWait (.executor p)
  have hexec : (d.leavePlaceWait (.executor p)).exec p = d.exec p := rfl
  unfold Device.detachJob
  dsimp only
  split
  case h_1 j hj =>
    refine left.setExec p ⟨.inl rfl, fun hn => ?_, fun k hk => ?_⟩
    · rw [hj] at hn; cases hn
    · cases hk
      exact ⟨j, hj, rfl, nofun, fun _ => ⟨rfl, rfl, rfl, fun hw => by rw [hexec, hs] at hw; cases hw⟩⟩
  case h_2 => exact left.setExec p (.of_plain (.inl rfl) (fun _ => rfl) nofun)
  all_goals
    rename_i hj
    exact left.setExec p (.of_plain (.inl rfl) (fun hn => by rw [hj] at hn; cases hn) nofun)

theorem Device.abandonRequest_holds (d : Device) (p : Port) : d.Holds (d.abandonRequest p) := by
  unfold Device.abandonRequest
  split
  case h_7 =>
    exact Stays.holds ⟨fun h => (Device.withdrawClaim_placed h p).setExec p _,
      fun h => (Device.withdrawClaim_ordered h p).seats nofun⟩ fun h => by
        rw [h.withdrawClaim]
        exact (Steady.refl d).rest p
  case h_8 hs => exact ((Steady.refl d).detachJob hs).holds
  case h_4 => exact (((Steady.refl d).leavePlaceWait _).rest p).holds
  case h_5 => exact (((Steady.refl d).setSpaceWait _).rest p).holds
  all_goals exact ((Steady.refl d).rest p).holds

theorem Device.linkReset_holds (d : Device) (p : Port) : d.Holds (d.linkReset p) := by
  have emptied := ((Steady.refl d).setPort p { d.port p with requests := [], responses := [], rejected := false }).holds
  have abandoned := emptied.trans (Device.abandonRequest_holds _ p)
  have ended : d.Holds (if (((d.setPort p { d.port p with requests := [], responses := [], rejected := false }).abandonRequest
      p).port p).attached = true
      then ((d.setPort p { d.port p with requests := [], responses := [], rejected := false }).abandonRequest p).endSession p
      else ((d.setPort p { d.port p with requests := [], responses := [], rejected := false }).abandonRequest p).abortBallotOf p) :=
    .ite (abandoned.trans ((Steady.refl _).endSession p).holds) (abandoned.trans ((Steady.refl _).abortBallotOf p).holds)
  unfold Device.linkReset
  exact .ite (ended.trans (Device.offerPlaces_holds _)) ended

end Sys2Proof.Machine
end

