-- ==== Sys2Proof/Proofs/ArrayInOrder.lean ====
section
/-! What the grants to the metadata writer and the erase engine, and the ends of erases, keep of the sectors, the streams
and the appends (R79 to R102, R110, R118). -/

namespace Sys2Proof.Machine

open Sys2Proof

-- One process elaborates the whole text: proofs taken in turn stay within its memory.
set_option Elab.async false

/-! ### The array between owners -/

/-- No append has a step on the array. -/
def Device.Stepless (d : Device) : Prop := ∀ p j, (d.exec p).job = .append j → ¬ (j.phase = .step1 ∨ j.phase = .step2)

theorem Device.OrderedFor.stepless {d : Device} (h : d.OrderedFor everyPort)
    (hn : (∀ p, d.arbiter.holder ≠ some (.executor p)) ∨ ∀ n page first target, d.arrayOp ≠ .program n page first target) :
    d.Stepless := by
  intro p j hj hs
  obtain ⟨hh, n, page, first, target, hop⟩ := (h.appends p trivial j hj).holds hs
  rcases hn with hn | hn
  exacts [hn p hh, hn n page first target hop]

theorem Device.Steers.stepless {d d' : Device} (h : d.Steers d') (hs : d.Stepless) : d'.Stepless := by
  intro p k hk hstep
  obtain ⟨j, hj, -, -, hpage⟩ := (h.execs p).append k hk
  obtain ⟨hphase, -⟩ := hpage (AppendJob.step_paged hstep)
  exact hs p j hj (hphase ▸ hstep)

theorem Device.Placed.rearranged {d : Device} (h : d.Placed) (arb : Arbiter) (op : ArrayOp) {x : Engine} (ctx : Option EraseContext)
    (he : ∀ c, x.current = some c → c.source = .queue → c.sector ∈ d.eraseQueue) :
    ({ d with arbiter := arb, arrayOp := op, engine := x, eraseCtx := ctx } : Device).Placed :=
  ⟨h.mode, h.nodup, h.bad, he, h.all⟩

/-- The array, its arbiter and the erase engine set, no append's step on the array. -/
theorem Device.OrderedFor.rearranged {d : Device} (h : d.OrderedFor everyPort) (hs : d.Stepless) {arb : Arbiter} (op : ArrayOp)
    {x : Engine} (ctx : Option EraseContext) (hr : x.state = .running → arb.holder = some .engine)
    (he : ∀ c, x.current = some c → c.source = .queue → c.sector ∈ d.eraseQueue) :
    ({ d with arbiter := arb, arrayOp := op, engine := x, eraseCtx := ctx } : Device).OrderedFor everyPort where
  toPlaced := h.toPlaced.rearranged arb op ctx he
  streams := h.streams
  running := hr
  appends p hp j hj := by
    have k := h.appends p hp j hj
    exact ⟨k.hand, k.owned, k.last, k.page, k.between, fun hstep => absurd hstep (hs p j hj), k.drained⟩

/-! ### Erases granted, suspended, ended (R79, R81, R90, R95) -/

theorem Device.setEraseState_steady (d : Device) (c : CurrentErase) (v : SectorState) : d.Steady (d.setEraseState c v) := by
  unfold Device.setEraseState
  split
  exacts [(Steady.refl d).setSector _ rfl, .refl d]

/-- The array is the erase engine's. -/
theorem Device.OrderedFor.engineStepless {d : Device} (h : d.OrderedFor everyPort) (hh : d.arbiter.holder = some .engine) : d.Stepless :=
  h.stepless (.inl fun p => by rw [hh]; nofun)

theorem Device.startErase_stays {d : Device} {n : Nat} {source : EraseSource} (hn : source = .queue → n ∈ d.eraseQueue)
    (hh : d.arbiter.holder = some .engine) : d.Stays (d.startErase n source) := by
  have hset := d.setEraseState_steady ⟨n, source, 0, .running⟩ .erasing
  have he : ∀ c, some (⟨n, source, 0, .running⟩ : CurrentErase) = some c → c.source = .queue →
      c.sector ∈ (d.setEraseState ⟨n, source, 0, .running⟩ .erasing).eraseQueue := by
    rintro c ⟨⟩ hq
    rw [hset.eraseQueue]
    exact hn hq
  exact ⟨fun h => (h.steady hset).rearranged _ _ _ he,
    fun h => (hset.runs.ordered _ h).rearranged (hset.toSteers.stepless (h.engineStepless hh)) _ _ (fun _ => hh) he⟩

theorem Device.engineGivesUp_stays {d : Device} (hh : d.arbiter.holder = some .engine) : d.Stays d.engineGivesUp :=
  ⟨fun h => h.rearranged _ _ _ h.erasing, fun h => h.rearranged (h.engineStepless hh) _ _ nofun h.erasing⟩

theorem Device.grantResume_stays {d : Device} (hh : d.arbiter.holder = some .engine) : d.Stays d.grantResume := by
  unfold Device.grantResume
  split
  · rename_i c x hc _
    have hset := d.setEraseState_steady c .erasing
    have he (h : d.Placed) : ∀ c', some { c with timer := .running } = some c' → c'.source = .queue →
        c'.sector ∈ (d.setEraseState c .erasing).eraseQueue := by
      rintro c' ⟨⟩ hq
      rw [hset.eraseQueue]
      exact h.erasing c hc hq
    exact ⟨fun h => (h.steady hset).rearranged _ _ _ (he h),
      fun h => (hset.runs.ordered _ h).rearranged (hset.toSteers.stepless (h.engineStepless hh)) _ _ (fun _ => hh) (he h.toPlaced)⟩
  · exact Device.engineGivesUp_stays hh

theorem Device.startableHead_mem {d : Device} {n : Nat} (h : d.startableHead = some n) : n ∈ d.eraseQueue := by
  unfold Device.startableHead at h
  split at h
  · cases h
  · rename_i m rest hq
    split at h
    · cases h
      rw [hq]
      exact List.mem_cons_self
    · cases h

theorem Device.engineGrant_stays {d : Device} (hh : d.arbiter.holder = some .engine) : d.Stays d.engineGrant := by
  unfold Device.engineGrant
  split
  · exact Device.grantResume_stays hh
  · unfold Device.grantStart
    split
    · rename_i n rest _
      split
      · have hslot : d.Steady { d with engine := { d.engine with slot := rest } } :=
          (Steady.refl d).setEngine (x := { d.engine with slot := rest }) id (.inl rfl)
        exact hslot.stays.trans (Device.startErase_stays nofun hh)
      · exact Device.engineGivesUp_stays hh
    · split
      · rename_i n hhead
        split
        · exact Device.startErase_stays (fun _ => Device.startableHead_mem hhead) hh
        · exact Device.engineGivesUp_stays hh
      · exact Device.engineGivesUp_stays hh

/-- SUSPEND, of an erase that runs (R89). -/
theorem Device.stepSuspend_holds {d d' : Device} (h : d.stepSuspend = some d') : d.Holds d' := by
  unfold Device.stepSuspend at h
  split at h
  · rename_i hmust
    cases h
    unfold Device.mustSuspend at hmust
    split at hmust
    · rename_i c x hc hx
      simp only [Bool.and_eq_true, beq_iff_eq] at hmust
      obtain ⟨⟨⟨⟨⟨hrun, -⟩, -⟩, -⟩, -⟩, -⟩ := hmust
      have hsuspend : d.suspend = { d with
          arbiter := d.arbiter, arrayOp := .suspending, engine := { d.engine with state := .suspending }
          eraseCtx := some { x with phase := .suspending } } := by
        rw [Device.suspend, hx]
      rw [hsuspend]
      refine Stays.unmounted ⟨fun h => h.rearranged _ _ _ h.erasing, fun h => ?_⟩ fun hd => ?_
      · have hh := h.running hrun
        exact h.rearranged (h.stepless (.inl fun p => by rw [hh]; nofun)) _ _ nofun h.erasing
      · rw [hd.current] at hc
        cases hc
    · cases hmust
  · cases h

/-- The engine's erase over, the array released. -/
theorem Device.Stays.endsErase {d e : Device} (h : d.Stays e) (hs : d.OrderedFor everyPort → e.Stepless) : d.Stays e.endErase :=
  ⟨fun hd => (h.placed hd).rearranged _ _ _ nofun, fun hd => (h.ordered hd).rearranged (hs hd) _ _ nofun nofun⟩

theorem Device.eraseSuspended_stays {d : Device} {x : EraseContext} {c : CurrentErase} (hc : d.engine.current = some c)
    (hs : d.OrderedFor everyPort → d.Stepless) : d.Stays (d.eraseSuspended x c) := by
  have hset := d.setEraseState_steady c .suspended
  have he (h : d.Placed) : ∀ c', some { c with suspensions := c.suspensions + 1, timer := .stopped } = some c' →
      c'.source = .queue → c'.sector ∈ (d.setEraseState c .suspended).eraseQueue := by
    rintro c' ⟨⟩ hq
    rw [hset.eraseQueue]
    exact h.erasing c hc hq
  exact ⟨fun h => (h.steady hset).rearranged _ _ _ (he h),
    fun h => (hset.runs.ordered _ h).rearranged (hset.toSteers.stepless (hs h)) _ _ nofun (he h.toPlaced)⟩

/-! ### A data sector's erase ends (R97, R99) -/

/-- The part with no current erase, as the end of an erase leaves it. -/
def Device.calm (d : Device) : Device := { d with engine := { d.engine with current := none } }

theorem Device.calm_steady (d : Device) : d.Steady d.calm := (Steady.refl d).setEngine (x := { d.engine with current := none }) id (.inr rfl)

theorem Device.calm_endErase (d : Device) : d.calm.endErase = d.endErase := rfl

theorem Device.answer_calm (d : Device) (p : Port) (status : Status) (body : List Byte) :
    d.calm.answer p status body = (d.answer p status body).calm := by
  have hexec : d.calm.exec p = d.exec p := rfl
  unfold Device.answer
  rw [hexec]
  split <;> rfl

theorem Device.setSector_calm (d : Device) (n : Nat) (x : Sector) : d.calm.setSector n x = (d.setSector n x).calm := by
  unfold Device.setSector
  split <;> rfl

theorem Device.allocate_calm (d : Device) (st : Fin 16) : d.calm.allocate st = (d.allocate st).calm := by
  have hpool : d.calm.freePool = d.freePool := rfl
  have hstream : d.calm.stream st = d.stream st := rfl
  unfold Device.allocate
  rw [hpool, hstream]
  split
  · dsimp only
    rw [Device.setSector_calm]
    rfl
  · rfl

theorem wakeSpace_calm (l : List Port) (d : Device) : wakeSpace l d.calm = (wakeSpace l d).calm := by
  induction l generalizing d with
  | nil => rfl
  | cons p rest ih =>
    have hset : ({ d.calm with spaceWait := rest } : Device) = ({ d with spaceWait := rest } : Device).calm := rfl
    unfold wakeSpace
    dsimp only
    rw [hset]
    generalize ({ d with spaceWait := rest } : Device) = e
    have hcheck : e.calm.appendCheck p (e.calm.appendBody p) = e.appendCheck p (e.appendBody p) := rfl
    have hjob : (e.calm.exec p).job = (e.exec p).job := rfl
    rw [hcheck, hjob]
    split
    · rw [Device.allocate_calm]
      rfl
    · rw [Device.answer_calm, ih]
    · rw [Device.answer_calm, ih]

theorem wakeSpace_arrayOp (l : List Port) (d : Device) : (wakeSpace l d).arrayOp = d.arrayOp := by
  have hanswer (e : Device) (p : Port) (status : Status) : (e.answer p status []).arrayOp = e.arrayOp := by
    unfold Device.answer
    split <;> rfl
  have hallocate (e : Device) (st : Fin 16) : (e.allocate st).arrayOp = e.arrayOp := by
    unfold Device.allocate
    split
    · dsimp only
      rw [Device.setSector_frame]
      rfl
    · rfl
  induction l generalizing d with
  | nil => rfl
  | cons p rest ih =>
    unfold wakeSpace
    dsimp only
    split
    · exact hallocate _ _
    · exact (ih _).trans (hanswer _ _ _)
    · exact (ih _).trans (hanswer _ _ _)

/-- A sector of the erase queue is in no chain (R12). -/
theorem Device.Placed.queue_apart {d : Device} (h : d.Placed) {n : Nat} (hn : n ∈ d.eraseQueue) {st : Fin 16} {b : StreamBody}
    (hs : d.stream st = some b) : n ∉ b.chain := by
  have hnodup := h.nodup
  rw [Device.places_eq, List.append_assoc, List.append_assoc] at hnodup
  intro hc
  exact (List.nodup_append.mp hnodup).2.2 n (Device.mem_places_of_chain hs hc) n
    (List.mem_append_right _ (List.mem_append_left _ hn)) rfl

theorem Device.Placed.queue_nodup {d : Device} (h : d.Placed) : d.eraseQueue.Nodup := by
  have hnodup := h.nodup
  rw [Device.places_eq, List.append_assoc, List.append_assoc] at hnodup
  exact (List.nodup_append.mp (List.nodup_append.mp (List.nodup_append.mp hnodup).2.1).2.1).1

/-- Taking a sector out of a queue without repetition. -/
theorem filter_ne_perm {l : List Nat} (h : l.Nodup) {n : Nat} (hn : n ∈ l) : (n :: l.filter (· != n)).Perm l := by
  rw [← List.Nodup.erase_eq_filter h n]
  exact (List.perm_cons_erase hn).symm

/-- What moves one sector off the queue, no chain's, keeps the streams in order. -/
theorem Device.Shifts.apart {d d' : Device} {n : Nat} (h : d.Shifts d' 0 [n])
    (hstream : (d'.stream 0).map StreamBody.core = (d.stream 0).map StreamBody.core)
    (hcursor : ∀ q, (d'.cursor 0 q).map Cursor.core = (d.cursor 0 q).map Cursor.core) (hn : n ∈ d.eraseQueue) : d.Stays d' := by
  refine ⟨h.placed, fun hd => h.ordered hd (fun m hm st b _ hb => ?_) (fun b' hb' => ?_) fun p j hp hj hst hclaim => ?_⟩
  · rw [List.mem_singleton.mp hm]
    exact hd.toPlaced.queue_apart hn hb
  · obtain ⟨b, hb, hcore⟩ := Option.exists_of_map_core hstream.symm hb'
    exact (hd.streams 0 b hb).congr hcore.symm
      (fun m hm => h.pagesOf fun hg => hd.toPlaced.queue_apart hn hb (List.mem_singleton.mp hg ▸ hm)) hcursor
  · have hsafe := hd.appends p hp j hj
    obtain ⟨b, hb, hw⟩ := hsafe.owned hclaim
    rw [hst] at hb
    obtain ⟨b', hb', hcore⟩ := Option.exists_of_map_core hstream hb
    obtain ⟨hwriter, -, -, -, hchain⟩ := StreamBody.core_eq hcore
    refine ⟨b', hb', hwriter.trans hw, fun hp => ?_⟩
    have hlast := hsafe.last hp b (hst ▸ hb)
    rw [hchain]
    exact ⟨hlast, fun hg => hd.toPlaced.queue_apart hn hb (List.mem_singleton.mp hg ▸ List.mem_of_getLast? hlast)⟩

/-- An erased sector joins the pool (R13, R97). -/
theorem Device.pooled_stays {d : Device} {n : Nat} (hn : n ∈ d.eraseQueue) (count : Nat) :
    d.Stays (({ d with eraseQueue := d.eraseQueue.filter (· != n) } : Device).joinPool n count).calm := by
  have hframe := ({ d with eraseQueue := d.eraseQueue.filter (· != n) } : Device).joinPool_frame n count
  have hperm : ({ d with eraseQueue := d.eraseQueue.filter (· != n) } : Device).joinPool n count |>.freePool.Perm (n :: d.freePool) := by
    unfold Device.joinPool
    dsimp only
    have hpool := Device.insertPool_perm (({ d with eraseQueue := d.eraseQueue.filter (· != n) } : Device).setSector n
      { Sector.blank with state := .free, eraseCount := count }) n d.freePool
    rw [Device.setSector_frame] at hpool ⊢
    exact hpool
  have hpages (m : Nat) (hm : m ∉ [n]) :
      ((({ d with eraseQueue := d.eraseQueue.filter (· != n) } : Device).joinPool n count).sector m).pages = (d.sector m).pages :=
    congrArg Sector.pages (Device.sector_setSector_other
      ({ d with eraseQueue := d.eraseQueue.filter (· != n) } : Device) n m _ fun he => hm (he ▸ List.mem_singleton_self _))
  generalize ({ d with eraseQueue := d.eraseQueue.filter (· != n) } : Device).joinPool n count = e at hframe hperm hpages
  have hshift (hnodup : d.eraseQueue.Nodup) : d.Shifts e.calm 0 [n] := by
    have hlists := filter_ne_perm hnodup hn
    have hchain : ∀ st, e.calm.chainOf st = d.chainOf st := fun st => by rw [hframe]; rfl
    have hpool : e.calm.freePool = e.freePool := rfl
    have hqueue : e.calm.eraseQueue = d.eraseQueue.filter (· != n) := by rw [hframe]; rfl
    have hbad : e.calm.badList = d.badList := by rw [hframe]; rfl
    have hplaces : e.calm.places.Perm d.places := by
      rw [Device.places_eq, Device.places_eq, Device.chained_congr hchain, hpool, hqueue, hbad]
      refine List.perm_iff_count.mpr fun a => ?_
      have h1 := List.perm_iff_count.mp hperm a
      have h2 := List.perm_iff_count.mp hlists a
      rw [← List.singleton_append, List.count_append] at h1 h2
      simp only [List.count_append]
      omega
    have hsteers : d.Steers e.calm := by
      rw [hframe]
      exact { Steers.refl d with erasing := nofun }
    exact
      { hsteers with
        places := hplaces
        bad := by rw [hbad]; exact id
        queue := nofun
        streams := fun _ _ => by rw [hframe]; rfl
        cursors := fun _ _ _ => by rw [hframe]; rfl
        pages := hpages }
  have happly (hnodup : d.eraseQueue.Nodup) : d.Stays e.calm :=
    (hshift hnodup).apart (by rw [hframe]; rfl) (fun q => by rw [hframe]; rfl) hn
  exact ⟨fun hd => (happly hd.queue_nodup).placed hd, fun hd => (happly hd.toPlaced.queue_nodup).ordered hd⟩

/-- A failed sector joins the bad list while that has room (R16, R99). -/
theorem Device.retired_stays {d : Device} {n : Nat} (hn : n ∈ d.eraseQueue) (hroom : d.badList.length < 32) :
    d.Stays (({ d with eraseQueue := d.eraseQueue.filter (· != n) } : Device).retire n).calm := by
  have hreleases := (({ d with eraseQueue := d.eraseQueue.filter (· != n) } : Device).retire_releases n hroom).steady
    (Device.calm_steady _)
  have hcurrent : (({ d with eraseQueue := d.eraseQueue.filter (· != n) } : Device).retire n).calm.engine.current = none := rfl
  generalize (({ d with eraseQueue := d.eraseQueue.filter (· != n) } : Device).retire n).calm = e at hreleases hcurrent
  have hshift (hnodup : d.eraseQueue.Nodup) : d.Shifts e 0 [n] := by
    have hlists := filter_ne_perm hnodup hn
    have hplaces : e.places.Perm d.places := by
      rw [Device.places_eq, Device.places_eq, Device.chained_congr fun st => Device.chainOf_of_core (hreleases.streams st),
        hreleases.freePool]
      have hperm := hreleases.lists
      refine List.perm_iff_count.mpr fun a => ?_
      have h1 := List.perm_iff_count.mp hperm a
      have h2 := List.perm_iff_count.mp hlists a
      rw [← List.singleton_append] at h2
      simp only [List.count_append] at h1 h2 ⊢
      have h3 : (({ d with eraseQueue := d.eraseQueue.filter (· != n) } : Device).chained).count a = d.chained.count a := rfl
      omega
    have hsteers : d.Steers e :=
      { hreleases.toSteers with }
    exact
      { hsteers with
        places := hplaces
        bad := hreleases.bad
        queue := fun c hc' => nomatch hcurrent.symm.trans hc'
        streams := fun st _ => hreleases.streams st
        cursors := fun st q _ => hreleases.cursors st q
        pages := hreleases.pages }
  have happly (hnodup : d.eraseQueue.Nodup) : d.Stays e := (hshift hnodup).apart (hreleases.streams 0) (hreleases.cursors 0) hn
  exact ⟨fun hd => (happly hd.queue_nodup).placed hd, fun hd => (happly hd.toPlaced.queue_nodup).ordered hd⟩

/-- The engine's outcome in hand (R97, R99). -/
theorem Device.outcome_stays (d : Device) (o : EraseOutcome) :
    d.Stays ({ d with engine := { d.engine with outcome := some o } } : Device).stageEngine :=
  (((Steady.refl d).setEngine (x := { d.engine with outcome := some o }) id (.inl rfl)).stageEngine).stays

theorem Device.queueErased_stays {d : Device} {n : Nat} (hn : n ∈ d.eraseQueue) (hop : d.arrayOp = .erase) :
    d.Stays (d.queueErased n) := by
  have hpooled := Device.pooled_stays hn (min Config.eraseCountMax
    ((({ d with eraseQueue := d.eraseQueue.filter (· != n) } : Device).sector n).eraseCount + 1))
  have hframe := ({ d with eraseQueue := d.eraseQueue.filter (· != n) } : Device).joinPool_frame n (min Config.eraseCountMax
    ((({ d with eraseQueue := d.eraseQueue.filter (· != n) } : Device).sector n).eraseCount + 1))
  unfold Device.queueErased
  dsimp only
  generalize ({ d with eraseQueue := d.eraseQueue.filter (· != n) } : Device).joinPool n (min Config.eraseCountMax
    ((({ d with eraseQueue := d.eraseQueue.filter (· != n) } : Device).sector n).eraseCount + 1)) = e at hpooled hframe
  have hserved : d.Stays e.calm.serveSpace :=
    hpooled.trans ⟨fun h => wakeSpace_placed _ h, fun h => wakeSpace_ordered _ h⟩
  have hnostep : e.calm.serveSpace.arrayOp = .erase := by
    refine (wakeSpace_arrayOp _ _).trans ?_
    rw [hframe]
    exact hop
  have hcalm : e.serveSpace.endErase = e.calm.serveSpace.endErase := by
    rw [Device.serveSpace, Device.serveSpace, show e.calm.spaceWait = e.spaceWait from rfl, wakeSpace_calm, Device.calm_endErase]
  rw [hcalm]
  exact (hserved.endsErase fun h => (hserved.ordered h).stepless (.inr (by rw [hnostep]; nofun))).trans (Device.outcome_stays _ _)

theorem Device.queueFailed_stays {d : Device} {n : Nat} (hn : n ∈ d.eraseQueue) (hs : d.OrderedFor everyPort → d.Stepless) :
    d.Stays (d.queueFailed n) := by
  unfold Device.queueFailed
  split
  · rename_i hroom
    have hretired := Device.retired_stays hn hroom
    have hsteers := (({ d with eraseQueue := d.eraseQueue.filter (· != n) } : Device).retire_releases n hroom).toSteers
    refine (Stays.endsErase hretired fun h => ?_).trans (Device.outcome_stays _ _)
    exact (Device.calm_steady _).toSteers.stepless (hsteers.stepless (hs h))
  · have hset := (Steady.refl d).setSector n (x := { d.sector n with state := .queued }) rfl
    exact hset.stays.endsErase fun h => hset.toSteers.stepless (hs h)

theorem Device.formatErasedOne_steady {d : Device} (hf : d.consent.state = .formatErase) : d.Steady d.formatErasedOne := by
  have hformats : d.formats := .inl hf
  unfold Device.formatErasedOne
  dsimp only
  split
  · exact .of_same (formats := fun _ => hformats)
  · split
    · exact .of_same (formats := fun _ => hformats)
    · exact .of_same (formats := fun _ => hformats)

theorem Device.slotErased_stays {d : Device} (hs : d.OrderedFor everyPort → d.Stepless) : d.Stays d.slotErased := by
  have hended := (Stays.refl d).endsErase hs
  unfold Device.slotErased
  dsimp only
  split
  · rename_i hf
    exact hended.trans (Device.formatErasedOne_steady hf).stays
  · split
    · exact hended.trans ((Steady.refl d.endErase).setWriter (w := { d.endErase.writer with
        erased := d.endErase.writer.erased + 1 }) id).stays
    · exact hended

theorem Device.erasePulseEnd_holds (d : Device) (flash : Flash) (verified : Bool) {x : Rig}
    (h : d.erasePulseEnd verified flash = some x) : d.Holds x.1 := by
  unfold Device.erasePulseEnd at h
  split at h
  · rename_i y c _ hc
    have unmounted {d' : Device} (k : d.Stays d') : d.Holds d' := k.unmounted fun hd => by rw [hd.current] at hc; cases hc
    split at h
    · rename_i hcond
      simp only [Bool.and_eq_true, decide_eq_true_eq] at hcond
      have hop : d.arrayOp = .erase := hcond.1.1
      have hstepless {e : Device} (he : e.arrayOp = .erase) (k : e.OrderedFor everyPort) : e.Stepless :=
        k.stepless (.inr (by rw [he]; nofun))
      split at h
      · cases h
        have hpulses : d.Steady { d with eraseDonePulses := y.pulses + 1 } := .of_same
        refine unmounted (hpulses.stays.trans ?_)
        unfold Device.pulsePassed
        generalize hd' : ({ d with eraseDonePulses := y.pulses + 1 } : Device) = e
        have hc' : e.engine.current = some c := by rw [← hd']; exact hc
        have hop : e.arrayOp = .erase := by rw [← hd']; exact hop
        unfold Device.eraseDone
        split
        · rename_i hsource
          exact ⟨fun hd => (Device.queueErased_stays (hd.erasing c hc' hsource) hop).placed hd,
            fun hd => (Device.queueErased_stays (hd.erasing c hc' hsource) hop).ordered hd⟩
        · exact Device.slotErased_stays (hstepless hop)
      · cases h
        have hdrawn := (Steady.refl d).drawn
        refine unmounted (hdrawn.stays.trans ?_)
        unfold Device.pulseFailed
        split
        · exact ((Steady.refl d.drawn).setCtx _).stays
        · unfold Device.eraseFail
          split
          · rename_i hsource
            exact ⟨fun hd => (Device.queueFailed_stays (d := d.drawn) (hd.erasing c hc hsource) (hstepless hop)).placed hd,
              fun hd => (Device.queueFailed_stays (d := d.drawn) (hd.erasing c hc hsource) (hstepless hop)).ordered hd⟩
          · exact ((Stays.refl d.drawn).endsErase (hstepless hop)).trans ((Steady.refl _).haltWriter).stays
    · cases h
  · cases h

theorem Device.suspendedReport_holds (d : Device) (flash : Flash) {x : Rig} (h : d.suspendedReport flash = some x) :
    d.Holds x.1 := by
  unfold Device.suspendedReport at h
  split at h
  · rename_i y c _ hc
    split at h
    · rename_i hcond
      simp only [Bool.and_eq_true, decide_eq_true_eq] at hcond
      have hop : d.arrayOp = .suspending := hcond.1.1
      cases h
      have hstays : d.drawn.Stays (d.drawn.eraseSuspended y c) :=
        Device.eraseSuspended_stays hc fun k => k.stepless (.inr (by rw [show d.drawn.arrayOp = _ from hop]; nofun))
      exact ((Steady.refl d).drawn.stays.trans hstays).unmounted fun hd => by rw [hd.current] at hc; cases hc
    · cases h
  · cases h

theorem Device.abandonedReport_holds (d : Device) (flash : Flash) {x : Rig} (h : d.abandonedReport flash = some x) :
    d.Holds x.1 := by
  unfold Device.abandonedReport at h
  split at h
  · split at h
    · cases h
      exact ((Steady.refl d).drawn.eraseAbandoned).holds
    · cases h
  · cases h

end Sys2Proof.Machine
end

