-- ==== Sys2Proof/Proofs/WriterInOrder.lean ====
section
/-! What the metadata writer's pages, a compaction's and a FORMAT's commits, and the grants keep of the sectors, the streams
and the appends (R87, R110 to R121, R149, R150). -/

namespace Sys2Proof.Machine

open Sys2Proof

-- One process elaborates the whole text: proofs taken in turn stay within its memory.
set_option Elab.async false

/-! ### The writer granted (R110, R118) -/

/-- The array is the writer's. -/
theorem Device.OrderedFor.writerStepless {d : Device} (h : d.OrderedFor everyPort) (hh : d.arbiter.holder = some .writer) : d.Stepless :=
  h.stepless (.inl fun p => by rw [hh]; nofun)

/-- The writer and the array's operation set, getting no further with FORMAT. -/
theorem Device.writes_stays {d : Device} (hh : d.arbiter.holder = some .writer) (arb : Arbiter) (op : ArrayOp) {w : Writer}
    (hw : w.forFormat = true → d.writer.forFormat = true) :
    d.Stays { d with arbiter := arb, arrayOp := op, writer := w } := by
  have hset : ({ d with arbiter := arb, arrayOp := op } : Device).Steady { d with arbiter := arb, arrayOp := op, writer := w } :=
    (Steady.refl ({ d with arbiter := arb, arrayOp := op } : Device)).setWriter hw
  refine ⟨fun h => (h.rearrayed arb op).steady hset, fun h => hset.runs.ordered _ ?_⟩
  exact h.rearranged (h.writerStepless hh) op d.eraseCtx (fun hr => by
    have := h.running hr
    rw [hh] at this
    cases this) h.erasing

theorem Device.writerGrant_stays {d : Device} (hh : d.arbiter.holder = some .writer) : d.Stays d.writerGrant := by
  unfold Device.writerGrant
  split
  · exact Device.writes_stays hh d.arbiter _ id
  · split
    · exact Device.writes_stays hh d.arbiter _ id
    · split
      · exact Device.writes_stays hh d.arbiter _ id
      · exact Device.writes_stays hh _ .none id

/-! ### Pages end (R111, R112, R118 to R122) -/

theorem Device.endPage_stays {d : Device} (hh : d.arbiter.holder = some .writer) (v : WriterState) : d.Stays (d.endPage v) :=
  Device.writes_stays hh _ .none id

/-- The writer's own values change while its page is on the array. -/
theorem Device.Stays.endsPage {d e : Device} (hh : d.arbiter.holder = some .writer) (h : d.Steady e) (v : WriterState) :
    d.Stays (e.endPage v) :=
  h.stays.trans (Device.endPage_stays ((h.array (by rw [hh]; nofun)).1.trans hh) v)

theorem Device.notScans_of_holder {d : Device} {c : Claimant} (hh : d.arbiter.holder = some c) : ¬ d.Scans := fun h => by
  rw [h.holder] at hh
  cases hh

theorem Device.metaStep1Ends_holds {d : Device} (hh : d.arbiter.holder = some .writer) (g : PageInFlight) :
    d.Holds (d.metaStep1Ends g) := by
  refine Stays.unmounted ?_ (Device.notScans_of_holder hh)
  unfold Device.metaStep1Ends
  split
  · exact Device.writes_stays hh _ .none id
  · exact Device.endPage_stays hh _
  · exact Device.endPage_stays hh _

theorem Device.journalCommitted_holds {d : Device} (hh : d.arbiter.holder = some .writer) (g : PageInFlight) :
    d.Holds (d.journalCommitted g) := by
  have hcommit : d.Steady { d with writer := d.writer.commitJournal g } := (Steady.refl d).setWriter id
  unfold Device.journalCommitted
  split
  · exact ((Stays.endsPage hh hcommit.releaseWaiters _).unmounted (Device.notScans_of_holder hh)).trans (Device.offerPlaces_holds _)
  · exact (Stays.endsPage hh hcommit _).unmounted (Device.notScans_of_holder hh)
  · exact (Device.endPage_stays hh _).unmounted (Device.notScans_of_holder hh)

theorem Device.metaVoided_holds {d : Device} (hh : d.arbiter.holder = some .writer) (g : PageInFlight) : d.Holds (d.metaVoided g) := by
  refine Stays.unmounted ?_ (Device.notScans_of_holder hh)
  unfold Device.metaVoided
  split
  · exact Stays.endsPage hh ((Steady.refl d).setWriter (by exact id)) _
  · exact Device.endPage_stays hh _
  · exact Stays.endsPage hh ((Steady.refl d).setWriter (by exact id)) _
  · exact Device.endPage_stays hh _
  · exact Device.endPage_stays hh _

/-! ### FORMAT's commit (R150) -/

/-- The tables as FORMAT's commit leaves them: every number FREE, no cursor, every sector but the bad ones queued. -/
def Device.emptied (d : Device) : Device :=
  { d.formatSectors with
    streams := d.formatSectors.streams.map Stream.freed
    cursors := Vector.replicate 16 (PerPort.all none)
    writer := d.writer.commitFormat }

theorem Device.emptied_stream (d : Device) (st : Fin 16) : d.emptied.stream st = none := by
  simp [Device.emptied, Device.stream, Stream.freed]

theorem Device.emptied_placed {d : Device} (h : d.Placed) : d.emptied.Placed := by
  have hframe := d.formatSectors_frame
  have hqueue : d.emptied.eraseQueue = d.eraseQueue ++ (d.chained ++ d.freePool) :=
    (congrArg Device.eraseQueue hframe :)
  have hbad : d.emptied.badList = d.badList := (congrArg Device.badList hframe :)
  have hpool : d.emptied.freePool = [] := (congrArg Device.freePool hframe :)
  have hmode : d.emptied.mode = d.mode := (congrArg Device.mode hframe :)
  have hengine : d.emptied.engine = d.engine := (congrArg Device.engine hframe :)
  have hchained : d.emptied.chained = [] := by
    rw [Device.chained_eq, List.flatMap_eq_nil_iff]
    intro st _
    rw [Device.chainOf, d.emptied_stream st]
  have hplaces : d.emptied.places.Perm d.places := by
    rw [Device.places_eq, Device.places_eq, hchained, hpool, hqueue, hbad]
    refine List.perm_iff_count.mpr fun a => ?_
    simp only [List.count_append, List.count_nil]
    omega
  refine ⟨by rw [hmode]; exact h.mode, hplaces.nodup_iff.mpr h.nodup, by rw [hbad]; exact h.bad, fun c hc hs => ?_, fun hm => ?_⟩
  · rw [hqueue]
    exact List.mem_append_left _ (h.erasing c (hengine ▸ hc) hs)
  · exact hplaces.trans (h.all (hmode ▸ hm))

theorem Device.emptied_ordered {d : Device} (h : d.OrderedFor everyPort) (hm : d.mode = .formatting) (hf : d.formats) :
    d.emptied.OrderedFor everyPort := by
  have hframe := d.formatSectors_frame
  have hexecs : d.emptied.execs = d.execs := (congrArg Device.execs hframe :)
  have hengine : d.emptied.engine = d.engine := (congrArg Device.engine hframe :)
  have harbiter : d.emptied.arbiter = d.arbiter := (congrArg Device.arbiter hframe :)
  refine ⟨Device.emptied_placed h.toPlaced, fun st b hb => ?_, fun hr => ?_, fun p hp j hj => ?_⟩
  · rw [d.emptied_stream st] at hb
    cases hb
  · rw [harbiter]
    exact h.running (hengine ▸ hr)
  · have hexec : d.emptied.exec p = d.exec p := by rw [Device.exec, hexecs]; rfl
    rw [hexec] at hj ⊢
    have k := h.appends p hp j hj
    obtain ⟨hwait, hpaged⟩ := k.drained hm hf
    have hnot : ¬ j.paged = true := by rw [hpaged]; nofun
    exact ⟨k.hand, fun hc => absurd hc (not_or.mpr ⟨hwait, hnot⟩), fun hc => absurd hc hnot, fun hc => absurd hc hnot, k.between,
      fun hc => absurd (AppendJob.step_paged hc) hnot, fun _ _ => ⟨hwait, hpaged⟩⟩

theorem Device.formatCommitted_stays {d : Device} (hf : d.writer.forFormat = true) : d.Stays d.formatCommitted := by
  unfold Device.formatCommitted
  split
  · exact (((Steady.refl d).setWriter (w := d.writer.commitFormat) nofun).noFlushAfter).stays
  · rename_i hm
    have hmode : d.mode = .formatting := Decidable.not_not.mp hm
    have hframe := d.formatSectors_frame
    have hwriter : d.formatSectors.writer = d.writer := (congrArg Device.writer hframe :)
    dsimp only
    rw [hwriter]
    have hemptied : d.Stays d.emptied := ⟨Device.emptied_placed, fun h => Device.emptied_ordered h hmode (.inr (.inr hf))⟩
    refine hemptied.trans ?_
    have hmounted : mountedMode d.emptied.mode = true := by
      rw [show d.emptied.mode = d.mode from (congrArg Device.mode hframe :), hmode]
      rfl
    have entered (m : DeviceState) (hm' : mountedMode m = true) (hne : m ≠ .formatting) :
        d.emptied.Stays { d.emptied.enterState m with consent := { (d.emptied.enterState m).consent with state := .idle } } :=
      (((Steady.refl d.emptied).enterState hmounted hm' hne).setConsent _ (.inl ⟨by nofun, by nofun⟩)).stays
    show d.emptied.Stays { d.emptied.enterState (if d.emptied.badList.length = Config.badLimit then .readOnly else .ready) with
      consent := { (d.emptied.enterState (if d.emptied.badList.length = Config.badLimit then .readOnly else .ready)).consent with
        state := .idle } }
    split
    exacts [entered _ rfl nofun, entered _ rfl nofun]

/-! ### A checkpoint page commits (R118, R119) -/

theorem Device.compactionCommitted_holds (d : Device) : d.Holds d.compactionCommitted := by
  have hcommit : d.Steady { d with writer := d.writer.commitCheckpoint } := (Steady.refl d).setWriter id
  exact (hcommit.releaseWaiters.noFlushAfter).holds.trans (Device.offerPlaces_holds _)

theorem Device.checkpointCommitted_holds {d : Device} (hh : d.arbiter.holder = some .writer) (g : PageInFlight) :
    d.Holds (d.checkpointCommitted g) := by
  have ended (v : WriterState) : d.Stays (d.endPage v) := Device.endPage_stays hh v
  unfold Device.checkpointCommitted
  split
  · exact (ended _).unmounted (Device.notScans_of_holder hh)
  · exact (ended _).unmounted (Device.notScans_of_holder hh)
  · have written : d.Stays { d.endPage .idle with
        writer := { (d.endPage .idle).writer with written := (d.endPage .idle).writer.written + g.entries.length } } :=
      (ended .idle).trans ((Steady.refl (d.endPage .idle)).setWriter (by exact id)).stays
    dsimp only
    split
    · split
      · rename_i hf
        exact (written.trans (Device.formatCommitted_stays hf)).unmounted (Device.notScans_of_holder hh)
      · exact (written.unmounted (Device.notScans_of_holder hh)).trans (Device.compactionCommitted_holds _)
    · exact written.unmounted (Device.notScans_of_holder hh)

/-! ### Reports of the writer's pages -/

/-- What a report makes of the part, if it can occur, holds. -/
def Device.HoldsIn (d : Device) (r : Option Rig) : Prop := ∀ x, r = some x → d.Holds x.1

theorem Device.metaOnArray_some {d : Device} {g : PageInFlight} (h : d.metaOnArray = some g) : d.arbiter.holder = some .writer := by
  unfold Device.metaOnArray at h
  split at h
  · assumption
  · cases h

/-- A step of the writer's page ends. -/
theorem Device.ran_holds {d : Device} {pulses draws : Nat} {e : Device} (h : (d.ran pulses draws).Holds e) : d.Holds e :=
  (Steady.ran d pulses draws).holds.trans h

theorem Device.metaStep1Done_holds (d : Device) (flash : Flash) : d.HoldsIn (d.metaStep1Done flash) := by
  rintro x h
  unfold Device.metaStep1Done at h
  split at h
  · rename_i g _ _ hg hs
    obtain ⟨pulses, draws, rfl⟩ := Device.stepPasses_ran hs
    split at h
    · cases h
      exact Device.ran_holds (Device.metaStep1Ends_holds (d := d.ran pulses draws) (Device.metaOnArray_some hg) g)
    · cases h
  · cases h

theorem Device.metaStep2Done_holds (d : Device) (flash : Flash) : d.HoldsIn (d.metaStep2Done flash) := by
  rintro x h
  unfold Device.metaStep2Done at h
  split at h
  · rename_i g _ _ hg hs
    obtain ⟨pulses, draws, rfl⟩ := Device.stepPasses_ran hs
    split at h
    · cases h
      exact Device.ran_holds (Device.journalCommitted_holds (d := d.ran pulses draws) (Device.metaOnArray_some hg) g)
    · cases h
  · cases h

theorem Device.checkpointStep2Done_holds (d : Device) (flash : Flash) : d.HoldsIn (d.checkpointStep2Done flash) := by
  rintro x h
  unfold Device.checkpointStep2Done at h
  split at h
  · rename_i g _ _ hg hs
    obtain ⟨pulses, draws, rfl⟩ := Device.stepPasses_ran hs
    split at h
    · cases h
      exact Device.ran_holds (Device.checkpointCommitted_holds (d := d.ran pulses draws) (Device.metaOnArray_some hg) g)
    · cases h
  · cases h

theorem Device.metaStepFail_holds (d : Device) (flash : Flash) : d.HoldsIn (d.metaStepFail flash) := by
  rintro x h
  unfold Device.metaStepFail at h
  split at h
  · rename_i g _ _ hg hs
    obtain ⟨pulses, draws, rfl⟩ := Device.stepFails_ran hs
    split at h
    · cases h
    · cases h
      have hh := Device.metaOnArray_some hg
      exact Device.ran_holds ((Device.writes_stays (d := d.ran pulses draws) hh (d.ran pulses draws).arbiter (g.markOp 15)
        (w := { (d.ran pulses draws).writer with inFlight := some { g with voiding := true } }) id).unmounted
          (Device.notScans_of_holder hh))
  · cases h

theorem Device.metaVoidEnd_holds (d : Device) (flash : Flash) (verified : Bool) : d.HoldsIn (d.metaVoidEnd verified flash) := by
  rintro x h
  unfold Device.metaVoidEnd at h
  split at h
  · rename_i g _ _ hg hs
    obtain ⟨pulses, draws, rfl⟩ := Device.stepEnds_ran hs
    split at h
    · cases h
      exact Device.ran_holds (Device.metaVoided_holds (d := d.ran pulses draws) (Device.metaOnArray_some hg) g)
    · cases h
  · cases h

/-! ### Grants (R86, R87) -/

theorem Device.nextClaimant_waits {d : Device} {p : Port} (h : d.nextClaimant = some (.executor p)) :
    (d.exec p).state = .waitArray := by
  unfold Device.nextClaimant at h
  split at h
  · cases h
  · split at h
    · cases h
    · split at h
      · rename_i hq
        cases h
        have hclaims : d.execClaims p = true := List.find?_some (p := fun p => d.execClaims p) hq
        exact beq_iff_eq.mp hclaims
      · split at h <;> cases h

theorem Device.stepGrant_holds {d d' : Device} (h : d.stepGrant = some d') : d.Holds d' := by
  unfold Device.stepGrant at h
  split at h
  · rename_i hcond
    simp only [Bool.and_eq_true, decide_eq_true_eq, Option.isNone_iff_eq_none] at hcond
    have hnone : d.arbiter.holder = none := hcond.1.1.1
    have hmode : d.mode ≠ .mounting := hcond.1.2
    obtain ⟨c, hc, rfl⟩ := Option.map_eq_some_iff.mp h
    refine Stays.unmounted ?_ fun hd => hmode hd.mode
    have granted (c : Claimant) : d.Stays { d with arbiter := { d.arbiter with holder := some c } } := by
      refine ⟨fun hd => hd.rearrayed _ _, fun hd => ?_⟩
      exact hd.rearranged (hd.stepless (.inl fun p => by rw [hnone]; nofun)) d.arrayOp d.eraseCtx (fun hr => by
        have := hd.running hr
        rw [hnone] at this
        cases this) hd.erasing
    cases c with
    | writer => exact (granted .writer).trans (Device.writerGrant_stays rfl)
    | engine => exact (granted .engine).trans (Device.engineGrant_stays rfl)
    | executor p =>
      exact ⟨fun hd => Device.executorGrant_placed (hd.rearrayed _ d.arrayOp) p,
        fun hd => Device.executorGrant_ordered hd hnone (Device.nextClaimant_waits hc) _ rfl⟩
  · cases h

end Sys2Proof.Machine
end

