-- ==== Sys2Proof/Proofs/SettledStates.lean ====
section
/-! The stopping sequence, the beginning of a mount, and the consequences of an event: the good states stay good
(R123, R177 to R181). -/

namespace Sys2Proof.Machine

open Sys2Proof

-- One process elaborates the whole text: proofs taken in turn stay within its memory.
set_option Elab.async false

/-! ### The beginning of a mount (R123, R177) -/

/-- The tables at power-up, whatever the ports and the event units. -/
theorem Device.powerUp_scans (powered resetLow pfail : Bool) (draws : Nat) (ports : PerPort HostPort)
    (events : PerPort EventUnit) {m : Mount} {op : ArrayOp} (hop : ∀ n page, op = .read n page → m.scanned n) :
    ({ Device.powerUp powered resetLow pfail draws with ports := ports, events := events, mount := m, arrayOp := op } :
      Device).Scans where
  mode := rfl
  holder := rfl
  current := rfl
  jobs p := by cases p <;> rfl
  tables st := by
    refine ⟨by simp [Device.stream, Device.powerUp, Stream.blank], fun p => ?_⟩
    simp only [Device.cursor, Device.powerUp]
    cases p <;> simp [PerPort.all, PerPort.get]
  freePool := rfl
  eraseQueue := rfl
  badList := rfl
  reads := hop

theorem Device.Scans.holdsAs {d d' : Device} (h : d'.Scans) (hr : d'.engine.state ≠ .running) : d.Holds d' :=
  ⟨fun _ => .inr h, fun _ => .inr ⟨h, hr⟩⟩

/-- Nothing found yet. -/
theorem Mount.scanned_powerUp : Mount.scanned { Mount.powerUp with phase := .metaScan } 0 := by
  refine ⟨fun st b hb => ?_, fun st p r hr => ?_, fun _ => ⟨rfl, rfl, rfl, rfl⟩, fun h => absurd h (by decide)⟩
  · simp [Mount.powerUp, Stream.blank] at hb
  · simp only [Mount.powerUp] at hr
    cases p <;> simp [PerPort.all, PerPort.get] at hr

/-! ### Entry into STOPPING (R178) -/

/-- Outside FORMATTING, and bound to hold no sector in all, what is in place stays so. -/
theorem Device.Placed.toStopping {d : Device} (h : d.Placed) {m : DeviceState} (hm : m = .stopping ∨ m = .stopped) (r : Reason) :
    ({ d with mode := m, reason := r } : Device).Placed :=
  ⟨by rcases hm with rfl | rfl <;> nofun, h.nodup, h.bad, h.erasing, by rcases hm with rfl | rfl <;> nofun⟩

theorem Device.OrderedFor.toStopping {S : Port → Prop} {d : Device} (h : d.OrderedFor S) {m : DeviceState}
    (hm : m = .stopping ∨ m = .stopped) (r : Reason) : ({ d with mode := m, reason := r } : Device).OrderedFor S where
  toPlaced := h.toPlaced.toStopping hm r
  streams := h.streams
  running := h.running
  appends p hp j hj := by
    have k := h.appends p hp j hj
    exact ⟨k.hand, k.owned, k.last, k.page, k.between, k.holds, by rcases hm with rfl | rfl <;> nofun⟩

theorem Device.Scans.toStopping {d : Device} (h : d.Scans) (r : Reason) :
    ({ d with mode := .stopping, reason := r } : Device).Placed := by
  have hplaces : ({ d with mode := .stopping, reason := r } : Device).places = [] := h.places
  refine ⟨nofun, by rw [hplaces]; exact List.nodup_nil, ?_, fun c hc => ?_, nofun⟩
  · show d.badList.length ≤ 32
    rw [h.badList]
    exact Nat.zero_le _
  · exact nomatch h.current.symm.trans hc

/-- In STOPPING the sectors are in place, a mount given up or not. -/
theorem Device.stopping_holds (d : Device) (r : Reason) : d.Holds { d with mode := .stopping, reason := r } := by
  refine ⟨fun h => .inl (h.elim (·.toStopping (.inl rfl) r) (·.toStopping r)), fun h => .inl (h.elim (·.toStopping (.inl rfl) r) ?_)⟩
  rintro ⟨h, hrun⟩
  refine ⟨h.toStopping r, fun st b hb => ?_, fun hr => absurd hr hrun, fun p _ j hj => ?_⟩
  · exact nomatch (h.tables st).1.symm.trans hb
  · exact nomatch (h.jobs p).symm.trans hj

theorem Device.stopExecutor_stays (d : Device) (p : Port) : d.Stays (d.stopExecutor p) := by
  have answered := ((Steady.refl d).answer p .aborted []).stays
  unfold Device.stopExecutor
  split
  case h_1 => exact (Steady.refl d).stays
  case h_2 => exact (Steady.refl d).stays
  case h_4 => exact ⟨fun h => (Device.withdrawClaim_placed h p).answer _ _ _, fun h => (Device.withdrawClaim_ordered h p).answers _ _⟩
  case h_8 hs =>
    split
    · exact (((Steady.refl d).respond p _ _ _).detachJob hs).stays
    · exact (Steady.refl d).stays
  all_goals exact answered

theorem Device.Steady.stopConsent {d₀ d : Device} (h : d₀.Steady d) : d₀.Steady d.stopConsent :=
  (h.closeBallot .aborted).setConsent { (d.closeBallot .aborted).consent with state := .idle, pending := none } (.inl ⟨nofun, nofun⟩)

/-- Outside a mount its unit's registers bear on nothing. -/
theorem Device.setMount_stays (d : Device) (m : Mount) : d.Stays { d with mount := m } := by
  refine ⟨fun h => ⟨h.mode, h.nodup, h.bad, h.erasing, h.all⟩, fun h =>
    { toPlaced := ⟨h.mode, h.nodup, h.bad, h.erasing, h.all⟩, streams := h.streams, running := h.running, appends := ?_ }⟩
  intro p hp j hj
  have k := h.appends p hp j hj
  exact ⟨k.hand, k.owned, k.last, k.page, k.between, k.holds, k.drained⟩

/-- What the units do on entry, one after another. -/
theorem Device.unitsStop_stays (d : Device) :
    d.Stays (let d := ((d.stopExecutor .A).stopExecutor .B).stopExecutor .C
      let d := { d with spaceWait := [], writer := { d.writer with placeWait := [] } }
      let d := d.stopEngine.stopConsent
      { d with writer := d.writer.enterStopping, mount := d.mount.over .idle }) := by
  dsimp only
  refine (((d.stopExecutor_stays .A).trans (Device.stopExecutor_stays _ .B)).trans (Device.stopExecutor_stays _ .C)).trans ?_
  generalize ((d.stopExecutor .A).stopExecutor .B).stopExecutor .C = e
  have left : e.Steady { e with spaceWait := [], writer := { e.writer with placeWait := [] } } :=
    ((Steady.refl e).setSpaceWait []).setWriter (w := { e.writer with placeWait := [] }) id
  have stopped := left.stopEngine.stopConsent
  refine stopped.stays.trans ?_
  generalize ({ e with spaceWait := [], writer := { e.writer with placeWait := [] } } : Device).stopEngine.stopConsent = f
  exact ((Steady.refl f).setWriter (w := f.writer.enterStopping) id).stays.trans (Device.setMount_stays _ _)

/-- From a part in STOPPING. -/
theorem Device.Stays.holdsStopping {d d' : Device} (hd : d.mode = .stopping) (h : d.Stays d') : d.Holds d' :=
  h.unmounted fun hs => nomatch hd.symm.trans hs.mode

theorem Device.enterStopping_holds (d : Device) : d.Holds d.enterStopping :=
  (d.stopping_holds _).trans ((Device.unitsStop_stays _).holdsStopping rfl)

theorem Device.beginMount_holds (d e : Device) : d.Holds e.beginMount := by
  unfold Device.beginMount
  split
  · refine .trans (Device.Scans.holdsAs ?_ ?_) (Device.enterStopping_holds _)
    exacts [Device.powerUp_scans _ _ _ _ _ _ nofun, nofun]
  · refine Device.Scans.holdsAs (Device.powerUp_scans _ _ _ _ _ _ fun n page hop => ?_) nofun
    cases hop
    exact Mount.scanned_powerUp

/-! ### The stopping sequence completes (R180, R181) -/

theorem Device.enterStopped_holds {d : Device} (hd : d.mode = .stopping) : d.Holds d.enterStopped := by
  unfold Device.enterStopped
  dsimp only
  split
  · refine Stays.holdsStopping hd ?_
    have stopped : d.Stays { d with mode := .stopped, reason := d.reasonOnEntry .stopped } :=
      ⟨fun h => h.toStopping (.inr rfl) _, fun h => h.toStopping (.inr rfl) _⟩
    exact stopped.trans ((Steady.refl _).setWriter
      (w := { d.writer with state := .dormant, stop := .notStopping }) (by exact id)).stays
  · exact Device.beginMount_holds _ _

/-! ### The consequences of an event (log 7) -/

theorem Device.stepPurge_holds {d d' : Device} (h : d.stepPurge = some d') : d.Holds d' := by
  unfold Device.stepPurge at h
  split at h
  · split at h
    · cases h; exact d.tryPurge_holds
    · split at h <;> cases h
      exact d.tryPurge_holds
  · split at h <;> cases h
    exact d.tryPurge_holds
  all_goals cases h

theorem Device.stepTake_holds {p : Port} {d d' : Device} (h : d.stepTake p = some d') : d.Holds d' := by
  unfold Device.stepTake at h
  split at h
  · cases h
    exact d.takeRequest_holds p
  · split at h
    · rename_i hidle
      cases h
      simp only [Bool.and_eq_true, beq_iff_eq] at hidle
      refine ((Steady.refl d).setExec p (x := { d.exec p with state := .waitSlot }) (.of_state nofun fun j _ => .inr ?_)).holds
      rw [hidle.1]
      nofun
    · cases h

theorem Device.chosenState_still (d : Device) : d.chosenState ≠ .running := by
  unfold Device.chosenState
  split
  · nofun
  · split
    · split <;> nofun
    · nofun

theorem Device.enterChoice_steady (d : Device) : d.Steady (d.enterChoice d.chosenState) := by
  refine .of_same (holder := ?_) (running := fun hr => absurd hr d.chosenState_still)
  show (if _ then _ else _ : Arbiter).holder = _
  split <;> rfl

theorem Device.beginCompaction_steady (d : Device) : d.Steady d.beginCompaction := by
  unfold Device.beginCompaction
  split
  · exact .refl d
  · exact .of_same

theorem Device.takeSnapshot_holds (d : Device) : d.Holds d.takeSnapshot :=
  ((Steady.refl d).setWriter (by nofun)).holds.trans (Device.offerPlaces_holds _)

theorem Device.stepClaim_holds {d d' : Device} (h : d.stepClaim = some d') : d.Holds d' := by
  have claimed : d.Holds { d with writer := { d.writer with state := .claim1 } } := ((Steady.refl d).setWriter (by exact id)).holds
  unfold Device.stepClaim at h
  split at h
  · split at h
    · split at h <;> cases h
      exacts [claimed, ((Steady.refl d).haltWriter).holds]
    · split at h <;> cases h
      exact claimed
  · cases h

theorem Writer.stopMove_forFormat {w w' : Writer} {onArray : Bool} (h : w.stopMove onArray = some w') : w'.forFormat = w.forFormat := by
  unfold Writer.stopMove at h
  split at h
  case h_1 => split at h <;> cases h <;> rfl
  case h_3 => split at h <;> cases h; rfl
  case h_6 => split at h <;> cases h; rfl
  case h_7 => cases h
  all_goals cases h; rfl

theorem Device.stopMove_holds {d d' : Device} (h : d.stopMove = some d') : d.Holds d' := by
  unfold Device.stopMove at h
  split at h
  · obtain ⟨w, hw, rfl⟩ := Option.map_eq_some_iff.mp h
    exact ((Steady.refl d).setWriter fun hf => (Writer.stopMove_forFormat hw) ▸ hf).holds
  · cases h

/-- With no claimant no executor waits for the array. -/
theorem Device.unclaimed_of_none {d : Device} (h : d.nextClaimant = none) (p : Port) : (d.exec p).state ≠ .waitArray := by
  intro hs
  unfold Device.nextClaimant at h
  split at h
  · cases h
  · split at h
    · cases h
    · split at h
      · cases h
      · rename_i hnone
        rw [List.find?_eq_none] at hnone
        refine hnone p (by cases d.arbiter.pointer <;> cases p <;> simp [roundRobin]) ?_
        rw [Device.execClaims, hs]
        rfl

/-- FORMAT finds the array drained: no append claims it or has a page (R149). -/
theorem Device.stepDrain_holds {d d' : Device} (h : d.stepDrain = some d') : d.Holds d' := by
  unfold Device.stepDrain at h
  split at h
  · rename_i hcond
    simp only [Bool.and_eq_true, Option.isNone_iff_eq_none] at hcond
    obtain ⟨⟨⟨⟨-, hholder⟩, -⟩, -⟩, hclaim⟩ := hcond
    cases h
    have placed (hd : d.Placed) : ({ d with
        consent := { d.consent with state := .formatErase }
        engine := { d.engine with slot := halfSectors d.consent.formatHalf } } : Device).Placed :=
      ⟨hd.mode, hd.nodup, hd.bad, hd.erasing, hd.all⟩
    have scans (hd : d.Scans) : ({ d with
        consent := { d.consent with state := .formatErase }
        engine := { d.engine with slot := halfSectors d.consent.formatHalf } } : Device).Scans :=
      ⟨hd.mode, hd.holder, hd.current, hd.jobs, hd.tables, hd.freePool, hd.eraseQueue, hd.badList, hd.reads⟩
    refine ⟨Or.imp placed scans, Or.imp (fun hd => ⟨placed hd.toPlaced, hd.streams, hd.running, fun p hp j hj => ?_⟩)
      fun ⟨hd, hr⟩ => ⟨scans hd, hr⟩⟩
    have k := hd.appends p hp j hj
    have hwait := Device.unclaimed_of_none hclaim p
    refine ⟨k.hand, k.owned, k.last, k.page, k.between, k.holds, fun _ _ => ⟨hwait, Bool.eq_false_iff.mpr fun hpaged => ?_⟩⟩
    rcases (AppendJob.paged_iff j).mp hpaged with hs | hs | hs
    · exact nomatch hholder.symm.trans (k.holds (.inl hs)).1
    · exact hwait (k.between hs)
    · exact nomatch hholder.symm.trans (k.holds (.inr hs)).1
  · cases h

/-- A consequence taken on a condition. -/
theorem Device.holds_of_ite {d d' : Device} {c : Prop} [Decidable c] {x : Device} (hx : c → d.Holds x)
    (h : (if c then some x else none) = some d') : d.Holds d' := by
  split at h <;> cases h
  exact hx ‹_›

theorem Device.stepStopped_holds {d d' : Device} (h : d.stepStopped = some d') : d.Holds d' := by
  refine Device.holds_of_ite (fun hc => Device.enterStopped_holds ?_) h
  simp only [Device.stopComplete, Bool.and_eq_true, beq_iff_eq] at hc
  exact hc.1.1.1.1

theorem Device.consequence_holds {d d' : Device} (h : d.consequence = some d') : d.Holds d' := by
  unfold Device.consequence at h
  simp only [Option.orElse_eq_orElse, Option.orElse_eq_or, Option.or_eq_some_iff] at h
  rcases h with h | ⟨-, h⟩
  · exact Device.stepPurge_holds h
  rcases h with h | ⟨-, h | ⟨-, h | ⟨-, h⟩⟩⟩
  · exact Device.stepTake_holds h
  · exact Device.stepTake_holds h
  · exact Device.stepTake_holds h
  rcases h with h | ⟨-, h | ⟨-, h | ⟨-, h | ⟨-, h⟩⟩⟩⟩
  · exact Device.holds_of_ite (fun _ => d.enterChoice_steady.holds) h
  · exact Device.holds_of_ite (fun _ => d.beginCompaction_steady.holds) h
  · exact Device.holds_of_ite (fun _ => d.takeSnapshot_holds) h
  · exact Device.stepClaim_holds h
  rcases h with h | ⟨-, h | ⟨-, h | ⟨-, h | ⟨-, h⟩⟩⟩⟩
  · exact Device.stepSuspend_holds h
  · exact Device.stopMove_holds h
  · exact Device.stepGrant_holds h
  · exact Device.stepDrain_holds h
  · exact Device.stepStopped_holds h

theorem settleFor_holds (fuel : Nat) (d : Device) : d.Holds (settleFor fuel d) := by
  induction fuel generalizing d with
  | zero => exact .refl d
  | succ fuel ih =>
    rw [settleFor]
    split
    · exact .refl d
    · exact (Device.consequence_holds ‹_›).trans (ih _)

theorem Device.settle_holds (d : Device) : d.Holds d.settle := settleFor_holds _ d

end Sys2Proof.Machine
end

