-- ==== Sys2Proof/Proofs/EventsInOrder.lean ====
section
/-! What the link, the pins, the timers and the ends of a read keep of the sectors, the streams and the appends
(R35, R54 to R56, R89, R109, R143, R160, R177 to R181). -/

namespace Sys2Proof.Machine

open Sys2Proof

-- One process elaborates the whole text: proofs taken in turn stay within its memory.
set_option Elab.async false

/-! ### Link transactions (R160) -/

theorem Device.transactionOver_steady (d : Device) (p : Port) (out : List Byte) : d.Steady (d.transactionOver p out) :=
  (Steady.refl d).setPort p _

theorem Device.transactionEnds_holds (d : Device) (p : Port) (code : Byte) (rest : List Byte) :
    d.Holds (d.transactionEnds p code rest) := by
  have ended (out : List Byte) := d.transactionOver_steady p out
  unfold Device.transactionEnds
  split
  · unfold Device.sendEnds
    split
    exacts [(ended _).holds, (ended _).holds, ((ended _).arrive p _).holds]
  · exact .ite ((ended _).setPort p _).holds (ended _).holds
  · exact .ite (ended _).holds ((ended _).holds.trans (Device.linkReset_holds _ p))
  · exact (ended _).holds

theorem Device.transactionBegins_holds {d d' : Device} {p : Port} (h : d.transactionBegins p = some d') : d.Holds d' := by
  unfold Device.transactionBegins at h
  split at h <;> cases h
  exact ((Steady.refl d).setPort p _).holds

/-! ### Pins and supply (R177, R178, R181) -/

theorem Device.setPins_steady (d : Device) (powered resetLow pfail : Bool) :
    d.Steady { d with powered := powered, resetLow := resetLow, pfail := pfail } := .of_same

theorem Device.wiped_holds (d e : Device) (powered resetLow : Bool) : d.Holds (e.wiped powered resetLow) :=
  Device.Scans.holdsAs (Device.powerUp_scans _ _ _ _ _ _ nofun) nofun

theorem Device.restart_holds (d e : Device) : d.Holds e.restart := (Device.beginMount_holds d _).trans (Device.settle_holds _)

theorem Device.pfailRises_holds (d : Device) : d.Holds d.pfailRises := by
  have raised := (d.setPins_steady d.powered d.resetLow true).holds
  exact .ite (raised.trans (Device.enterStopping_holds _)) raised

theorem Device.pfailFalls_holds (d : Device) : d.Holds d.pfailFalls :=
  .ite (Device.beginMount_holds d _) (d.setPins_steady d.powered d.resetLow false).holds

/-! ### Timers (R35, R89, R91, R109, R143) -/

theorem Device.spaceTimeout_holds {d d' : Device} {p : Port} (h : d.spaceTimeout p = some d') : d.Holds d' := by
  have left : d.Steady (d.leaveSpace p) := (Steady.refl d).setSpaceWait _
  unfold Device.spaceTimeout at h
  split at h
  · dsimp only at h
    split at h <;> cases h <;> exact (left.answer p _ _).holds
  · cases h

theorem Device.flushTimeout_holds {d d' : Device} (h : d.flushTimeout = some d') : d.Holds d' :=
  Device.holds_of_ite (fun _ => ((Steady.refl d).setWriter (by exact id)).holds) h

theorem Device.starvationTimeout_holds {d d' : Device} (h : d.starvationTimeout = some d') : d.Holds d' :=
  Device.holds_of_ite (fun _ => ((Steady.refl d).setArbiter (by rfl)).holds) h

theorem Device.runTimeout_holds {d d' : Device} (h : d.runTimeout = some d') : d.Holds d' := by
  unfold Device.runTimeout at h
  split at h
  · cases h
  · rename_i c hc
    refine Device.holds_of_ite (fun _ => Steady.holds (.of_same (erasing := fun c' hc' => ?_))) h
    cases hc'
    exact ⟨c, hc, rfl, rfl⟩

theorem Device.windowTimeout_holds {d d' : Device} (h : d.windowTimeout = some d') : d.Holds d' := by
  unfold Device.windowTimeout at h
  split at h <;> cases h
  exact ((Steady.refl d).closeBallot _).holds

/-! ### A page read ends (R54 to R56) -/

/-- Delivered moves past the record read, and no further than the next sequence (log 45). -/
theorem Device.deliver_ordered {S : Port → Prop} {d : Device} (h : d.OrderedFor S) {st : Fin 16} {p : Port} {b : StreamBody} {c : Cursor}
    (hs : d.stream st = some b) (hc : d.cursor st p = some c) (n : Nat) :
    (d.setCursor st p (some { c with delivered := max c.delivered (min n b.next) })).OrderedFor S := by
  refine Device.setCursor_ordered h fun b' hb' => ?_
  obtain rfl : b = b' := Option.some.inj (hs.symm.trans hb')
  obtain ⟨hreads, hlow, hmid, hhigh, hlost⟩ := (h.streams st b hs).cursors p c hc
  exact ⟨hreads, hlow, hmid.trans (Nat.le_max_left _ _), Nat.max_le.mpr ⟨hhigh, Nat.min_le_right _ _⟩, hlost⟩

theorem Device.readOutcome_placed {d : Device} (h : d.Placed) (p : Port) (st : Fin 16) (inc : Byte) (seq : Nat) (bytes : List Byte) :
    (d.readOutcome p st inc seq bytes).Placed := by
  have answered (status : Status) (body : List Byte) := h.answer p status body
  unfold Device.readOutcome
  split
  · exact answered _ _
  · split
    · exact answered _ _
    · split
      · exact answered _ _
      · split
        · exact answered _ _
        · dsimp only
          split
          exacts [(h.setCursor _ _ _).answer p _ _, (h.setCursor _ _ _).answer p _ _]

theorem Device.readOutcome_ordered {d : Device} {p : Port} (h : d.OrderedFor (butPort p)) (st : Fin 16) (inc : Byte) (seq : Nat)
    (bytes : List Byte) : (d.readOutcome p st inc seq bytes).OrderedFor everyPort := by
  have answered (status : Status) (body : List Byte) := h.answers status body
  unfold Device.readOutcome
  split
  · exact answered _ _
  · split
    · exact answered _ _
    · rename_i b hs
      split
      · exact answered _ _
      · split
        · exact answered _ _
        · rename_i c hc
          have delivered := Device.deliver_ordered h hs hc (seq + 1)
          dsimp only
          split
          exacts [delivered.answers _ _, delivered.answers _ _]

theorem Device.readOnArray_holder {d : Device} {p : Port} {st : Fin 16} {inc : Byte} {seq sector page : Nat}
    (h : d.readOnArray = some (p, st, inc, seq, sector, page)) : d.arbiter.holder = some (.executor p) := by
  unfold Device.readOnArray at h
  split at h
  · rename_i q _ _ hq _
    split at h <;> cases h
    unfold Device.holdingPort at hq
    split at hq <;> cases hq
    assumption
  · cases h

theorem Device.readPageDone_holds (d : Device) (flash : Flash) : d.HoldsIn (d.readPageDone flash) := by
  rintro x h
  unfold Device.readPageDone at h
  split at h
  · cases h
  · rename_i p st inc seq sector page hread
    have hh := Device.readOnArray_holder hread
    have released (hd : d.OrderedFor everyPort) : d.release.OrderedFor (butPort p) := (hd.but p).releases (hd.arrayAt (.inr hh))
    dsimp only at h
    split at h <;> cases h
    · exact Stays.unmounted ⟨fun hd => hd.release.setExec p _, fun hd => (released hd).seats (x := Executor.rest) nofun⟩
        (Device.notScans_of_holder hh)
    · exact Stays.unmounted ⟨fun hd => Device.readOutcome_placed hd.release p st inc seq _,
        fun hd => Device.readOutcome_ordered (released hd) st inc seq _⟩ (Device.notScans_of_holder hh)

/-! ### The mount unit's last read, and the reports of an append -/

/-- Outside a mount its read is discarded (R124). -/
theorem Device.mountReadEnds_stays {d : Device} (hh : d.arbiter.holder = none) : d.Stays d.mountReadEnds := by
  refine ⟨fun hd => hd.rearrayed d.arbiter .none, fun hd => ?_⟩
  have hstep : d.Stepless := hd.stepless (.inl fun p => by rw [hh]; nofun)
  exact hd.rearranged hstep .none d.eraseCtx hd.running hd.erasing

/-- A report that an executor's step alone can give. -/
theorem Device.StaysIn.holdsIn {d : Device} {r : Option Rig} (h : d.StaysIn r) (hr : ∀ x, r = some x → ¬ d.Scans) : d.HoldsIn r :=
  fun x hx => (h x hx).unmounted (hr x hx)

theorem Device.notScans_of_append {d : Device} {a : Port × AppendJob} (h : d.appendOnArray = some a) : ¬ d.Scans := by
  intro hd
  unfold Device.appendOnArray at h
  split at h
  · cases h
  · rename_i p _
    rw [hd.jobs p] at h
    cases h

theorem Device.appendStep1Done_holds (d : Device) (flash : Flash) : d.HoldsIn (d.appendStep1Done flash) := by
  refine (d.appendStep1Done_stays flash).holdsIn fun x h => ?_
  unfold Device.appendStep1Done at h
  split at h
  · exact Device.notScans_of_append ‹_›
  · cases h

theorem Device.appendStep2Done_holds (d : Device) (flash : Flash) : d.HoldsIn (d.appendStep2Done flash) := by
  refine (d.appendStep2Done_stays flash).holdsIn fun x h => ?_
  unfold Device.appendStep2Done at h
  split at h
  · exact Device.notScans_of_append ‹_›
  · cases h

theorem Device.appendStepFail_holds (d : Device) (flash : Flash) : d.HoldsIn (d.appendStepFail flash) := by
  refine (d.appendStepFail_stays flash).holdsIn fun x h => ?_
  unfold Device.appendStepFail at h
  split at h
  · exact Device.notScans_of_append ‹_›
  · cases h

theorem Device.appendVoidEnd_holds (d : Device) (flash : Flash) (verified : Bool) : d.HoldsIn (d.appendVoidEnd verified flash) := by
  refine (d.appendVoidEnd_stays flash verified).holdsIn fun x h => ?_
  unfold Device.appendVoidEnd at h
  split at h
  · exact Device.notScans_of_append ‹_›
  · cases h

end Sys2Proof.Machine
end

