-- ==== Sys2Proof/Proofs/ScannedSectors.lean ====
section
/-! The mount unit's tables as its scan goes on: definitions without chains, lost counts and bad sectors in range, and
every sector passed in one class (R130 to R132). -/

namespace Sys2Proof.Machine

open Sys2Proof

-- One process elaborates the whole text: proofs taken in turn stay within its memory.
set_option Elab.async false

/-! ### Entries read from pages (R103, R125) -/

theorem fromBytes_concat (l : List Byte) (b : Byte) : fromBytes (l ++ [b]) = fromBytes l * 256 + b.toNat := by
  simp [fromBytes]

theorem fromBytes_lt (l : List Byte) : fromBytes l < 256 ^ l.length := by
  induction l using List.reverseRecOn with
  | nil => exact Nat.one_pos
  | append_singleton l b ih =>
    rw [fromBytes_concat, List.length_append, List.length_singleton, Nat.pow_succ]
    have := b.isLt
    omega

theorem fieldAt_two_le (l : List Byte) (i : Nat) : fieldAt l i 2 ≤ 65535 := by
  have hlt := fromBytes_lt (bytesAt l i 2)
  have hlen : (bytesAt l i 2).length ≤ 2 := List.length_take_le _ _
  have hpow : 256 ^ (bytesAt l i 2).length ≤ 256 ^ 2 := Nat.pow_le_pow_right (by decide) hlen
  exact Nat.le_of_lt_succ (hlt.trans_le hpow)

/-- An entry's lost count and bad sectors are in range (R50, R68). -/
structure MetaEntry.Ranged (e : MetaEntry) : Prop where
  lost : ∀ st inc p committed lost, e = .cursor st inc p committed lost → lost ≤ 65535
  bad : ∀ sectors, e = .retire sectors → ∀ n ∈ sectors, 4 ≤ n ∧ n < 256

theorem MetaEntry.Ranged.of_other {e : MetaEntry} (hc : ∀ st inc p committed lost, e ≠ .cursor st inc p committed lost)
    (hr : ∀ sectors, e ≠ .retire sectors) : e.Ranged :=
  ⟨fun _ _ _ _ _ h => absurd h (hc _ _ _ _ _), fun _ h => absurd h (hr _)⟩

theorem decodeEntry_ranged {bytes : List Byte} {e : MetaEntry} (h : decodeEntry bytes = some e) : e.Ranged := by
  unfold decodeEntry at h
  split at h
  · unfold decodeStreamDef at h
    split at h
    · obtain ⟨-, hdef⟩ := Option.ite_none_right_eq_some.mp h
      cases hdef
      exact .of_other nofun nofun
    · cases h
  · obtain ⟨st, -, rfl⟩ := Option.map_eq_some_iff.mp h
    exact .of_other nofun nofun
  · split at h <;> cases h
    refine ⟨fun _ _ _ _ _ h => ?_, nofun⟩
    cases h
    exact fieldAt_two_le _ _
  · dsimp only at h
    split at h <;> cases h
    exact .of_other nofun nofun
  · dsimp only at h
    split at h
    · rename_i hcond
      cases h
      simp only [Bool.and_eq_true, List.all_eq_true, decide_eq_true_eq] at hcond
      refine ⟨nofun, fun _ h n hn => ?_⟩
      cases h
      refine ⟨hcond.2 n hn, ?_⟩
      obtain ⟨b, -, rfl⟩ := List.mem_map.mp hn
      exact b.isLt
    · cases h
  · cases h
    exact .of_other nofun nofun
  · cases h

theorem decodeEntries_ranged {count : Nat} {bytes : List Byte} {es : List MetaEntry} (h : decodeEntries bytes count = some es) :
    ∀ e ∈ es, e.Ranged := by
  induction count generalizing bytes es with
  | zero =>
    cases h
    nofun
  | succ count ih =>
    rw [decodeEntries] at h
    split at h
    · rename_i he hes
      cases h
      exact List.forall_mem_cons.mpr ⟨decodeEntry_ranged he, ih hes⟩
    · cases h

theorem readMetaPage_ranged {bytes : List Byte} {g : MetaPage} (h : readMetaPage bytes = some g) : ∀ e ∈ g.entries, e.Ranged := by
  unfold readMetaPage at h
  split at h
  · dsimp only at h
    split at h
    · split at h
      · rename_i hes
        split at h
        · cases h
          exact decodeEntries_ranged hes
        · split at h <;> cases h
          exact decodeEntries_ranged hes
        · cases h
      · cases h
    · cases h
  · cases h

/-! ### Replay (R129, R130) -/

/-- The mount unit's definitions and bad list. -/
structure Mount.Tabled (m : Mount) : Prop where
  chains : ∀ (st : Fin 16) (b : StreamBody), m.streams[st.val].body = some b → b.chain = []
  lost : ∀ (st : Fin 16) p r, m.retained[st.val].get p = some r → r.lost ≤ 65535
  nodup : m.bad.Nodup
  length : m.bad.length ≤ 32
  data : ∀ k ∈ m.bad, 4 ≤ k ∧ k < 256

theorem Mount.Tabled.addBad {m : Mount} (h : m.Tabled) {n : Nat} (hn : 4 ≤ n ∧ n < 256) : (m.addBad n).Tabled := by
  by_cases hin : n ∈ m.bad ∨ 32 ≤ m.bad.length
  · rw [Mount.addBad_listed hin]
    exact h
  · obtain ⟨hnot, hroom⟩ := not_or.mp hin
    rw [Mount.addBad_joins hnot (Nat.lt_of_not_le hroom)]
    have hperm := insertAscending_perm n m.bad
    refine ⟨h.chains, h.lost, hperm.nodup_iff.mpr (List.nodup_cons.mpr ⟨hnot, h.nodup⟩), ?_, fun k hk => ?_⟩
    · rw [insertAscending_length]
      omega
    · rcases List.mem_cons.mp (hperm.mem_iff.mp hk) with rfl | hk
      exacts [hn, h.data k hk]

theorem Mount.Tabled.addAllBad (sectors : List Nat) {m : Mount} (h : m.Tabled) (hs : ∀ n ∈ sectors, 4 ≤ n ∧ n < 256) :
    (sectors.foldl Mount.addBad m).Tabled := by
  induction sectors generalizing m with
  | nil => exact h
  | cons n sectors ih =>
    obtain ⟨hn, hrest⟩ := List.forall_mem_cons.mp hs
    exact ih (h.addBad hn) hrest

/-- A definition replaced, with the retained positions under it. -/
theorem Mount.Tabled.redefine {m : Mount} (h : m.Tabled) (st : Fin 16) {s : Stream} {t : PerPort (Option Retained)}
    (hs : ∀ b, s.body = some b → b.chain = []) (ht : ∀ p r, t.get p = some r → r.lost ≤ 65535) :
    ({ m with streams := m.streams.set st.val s, retained := m.retained.set st.val t } : Mount).Tabled := by
  refine ⟨fun st' b hb => ?_, fun st' p r hr => ?_, h.nodup, h.length, h.data⟩
  · by_cases hst : st' = st
    · subst hst
      rw [Vector.getElem_set_self] at hb
      exact hs b hb
    · rw [Vector.getElem_set_ne _ _ fun hv => hst (Fin.ext hv.symm)] at hb
      exact h.chains st' b hb
  · by_cases hst : st' = st
    · subst hst
      rw [Vector.getElem_set_self] at hr
      exact ht p r hr
    · rw [retained_set_other m hst] at hr
      exact h.lost st' p r hr

theorem Mount.Tabled.setCount {m : Mount} (h : m.Tabled) (n count : Nat) : (m.setCount n count).Tabled := by
  rw [Mount.setCount_frame]
  exact ⟨h.chains, h.lost, h.nodup, h.length, h.data⟩

theorem Mount.Tabled.applyEntry {m : Mount} (h : m.Tabled) {e : MetaEntry} (he : e.Ranged) : (m.applyEntry e).Tabled := by
  cases e with
  | streamDef st inc writer readers held policy tag quota margin base =>
    refine h.redefine st (fun b hb => ?_) fun p r hr => ?_
    · cases hb
      rfl
    · rw [keepAllRetained_get] at hr
      obtain ⟨x, hx, hkeep⟩ := Option.bind_eq_some_iff.mp hr
      split at hkeep <;> cases hkeep
      exact h.lost st p _ hx
  | streamDrop st inc => exact h.redefine st nofun fun p r hr => by rw [PerPort.get_all] at hr; cases hr
  | cursor st inc p committed lost =>
    obtain ⟨hno, hyes⟩ := Mount.applyEntry_cursor (m := m) (st := st) (inc := inc) (p := p) (committed := committed) (lost := lost)
    by_cases hfits : ∃ b, m.streams[st.val].body = some b ∧ m.streams[st.val].incarnation = inc ∧ b.readers.get p = true
    · rw [hyes hfits]
      refine ⟨h.chains, fun st' q r hr => ?_, h.nodup, h.length, h.data⟩
      by_cases hst : st' = st
      · subst hst
        rw [Vector.getElem_set_self, PerPort.get_set] at hr
        split at hr
        · cases hr
          exact he.lost _ _ _ _ _ rfl
        · exact h.lost _ q r hr
      · rw [retained_set_other m hst] at hr
        exact h.lost st' q r hr
    · rw [hno hfits]
      exact h
  | wear first c0 c1 c2 c3 => exact (((h.setCount _ _).setCount _ _).setCount _ _).setCount _ _
  | retire sectors => exact h.addAllBad sectors (he.bad sectors rfl)
  | checkpointEnd snapshot count => exact h

theorem Mount.Tabled.applyAll (es : List MetaEntry) {m : Mount} (h : m.Tabled) (hes : ∀ e ∈ es, e.Ranged) :
    (es.foldl Mount.applyEntry m).Tabled := by
  induction es generalizing m with
  | nil => exact h
  | cons e es ih =>
    obtain ⟨he, hrest⟩ := List.forall_mem_cons.mp hes
    exact ih (h.applyEntry he) hrest

/-- What the scan has found. -/
def Mount.finds (m : Mount) : List Nat × List Nat × List OwnedSector := (m.freeFound, m.released, m.owned)

theorem Mount.addBad_finds (m : Mount) (n : Nat) : (m.addBad n).finds = m.finds := by
  unfold Mount.addBad
  split <;> rfl

theorem Mount.foldl_finds {α : Type} {f : Mount → α → Mount} (hf : ∀ m x, (f m x).finds = m.finds) (l : List α) (m : Mount) :
    (l.foldl f m).finds = m.finds := by
  induction l generalizing m with
  | nil => rfl
  | cons x l ih => exact (ih _).trans (hf m x)

/-- Replay classifies no sector. -/
theorem Mount.applyEntry_finds (m : Mount) (e : MetaEntry) : (m.applyEntry e).finds = m.finds := by
  have counted (m : Mount) (n count : Nat) : (m.setCount n count).finds = m.finds := by
    rw [Mount.setCount_frame]
    rfl
  cases e with
  | cursor st inc p committed lost =>
    unfold Mount.applyEntry
    dsimp only
    split
    · rfl
    · split <;> rfl
  | wear first c0 c1 c2 c3 =>
    show ((((m.setCount first c0).setCount (first + 1) c1).setCount (first + 2) c2).setCount (first + 3) c3).finds = m.finds
    rw [counted, counted, counted, counted]
  | retire sectors => exact Mount.foldl_finds Mount.addBad_finds sectors m
  | _ => rfl

theorem Flash.halfPages_ranged {f : Flash} {half k : Nat} {g : MetaPage} (h : (f.halfPages half)[k]? = some (some g)) :
    ∀ e ∈ g.entries, e.Ranged := by
  have hdrop : ((f.halfPages half).drop 0)[k]? = some (some g) := h
  obtain ⟨-, hread⟩ := (f.halfPages_drop half 0 k g).mp hdrop
  exact readMetaPage_ranged hread

/-- A half's checkpoint entries come from its pages (R126). -/
theorem qualify_ranged {f : Flash} {half : Nat} {c : Checkpoint} (h : qualify (f.halfPages half) = some c) : ∀ e ∈ c.entries, e.Ranged := by
  obtain ⟨g, -, -, -, -, -, -, hperm, -⟩ := (qualify_iff _ _).mp h
  intro e he
  obtain ⟨k, hk⟩ := List.mem_iff_getElem?.mp he
  have hin := hperm.mem_iff.mpr (mem_range_zip.mpr hk)
  obtain ⟨page, hpage, hzip⟩ := List.mem_flatMap.mp hin
  obtain ⟨i, -, hi⟩ := mem_written.mp hpage
  exact Flash.halfPages_ranged hi e (List.of_mem_zip hzip).2

theorem chooseHalf_qualified {f : Flash} {half : Nat} {c : Checkpoint}
    (h : chooseHalf (qualify (f.halfPages 0)) (qualify (f.halfPages 1)) = some (half, c)) : qualify (f.halfPages half) = some c := by
  unfold chooseHalf at h
  split at h
  · cases h
  · cases h
    assumption
  · cases h
    assumption
  · split at h <;> cases h <;> assumption

theorem Mount.Tabled.replay {m : Mount} (h : m.Tabled) {f : Flash} {half : Nat} {c : Checkpoint}
    (hc : ∀ e ∈ c.entries, e.Ranged) : (m.replay f half c).Tabled ∧ (m.replay f half c).finds = m.finds := by
  obtain ⟨applied, written, hcont, -, -, -, -, heq⟩ := m.replay_spec f half c
  have hall : ∀ e ∈ c.entries ++ applied.flatMap MetaPage.entries, e.Ranged := by
    refine List.forall_mem_append.mpr ⟨hc, fun e he => ?_⟩
    obtain ⟨g, hg, heg⟩ := List.mem_flatMap.mp he
    obtain ⟨k, hk⟩ := List.mem_iff_getElem?.mp hg
    obtain ⟨-, hread, -⟩ := hcont k g hk
    exact readMetaPage_ranged hread e heg
  have htabled := h.applyAll _ hall
  have hfinds := Mount.foldl_finds Mount.applyEntry_finds (c.entries ++ applied.flatMap MetaPage.entries) m
  rw [heq]
  exact ⟨⟨htabled.chains, htabled.lost, htabled.nodup, htabled.length, htabled.data⟩, hfinds⟩

end Sys2Proof.Machine
end

