-- ==== Sys2Proof/Proofs/ScanClasses.lean ====
section
/-! The scan of the data sectors: each sector passed is in one class, with an owned sector's records one run, until the
last is classified (R131, R132, R137). -/

namespace Sys2Proof.Machine

open Sys2Proof

-- One process elaborates the whole text: proofs taken in turn stay within its memory.
set_option Elab.async false

/-! ### An owned sector's page map (R132) -/

theorem cutAtBreak_before (before : Option Nat) {x : PageState} (hx : x.seq? = none) (rest : List PageState) :
    cutAtBreak before (x :: rest) = (x :: (cutAtBreak before rest).1, (cutAtBreak before rest).2) := by
  cases x with
  | live n => cases hx
  | unused => rfl
  | writing => rfl
  | void => rfl

theorem PageState.unlive_seq (x : PageState) : x.unlive.seq? = none := by cases x <;> rfl

/-- What the cut leaves LIVE is one run of sequences. -/
theorem cutAtBreak_run (before : Option Nat) (l : List PageState) :
    ∃ first count, (cutAtBreak before l).1.filterMap PageState.seq? = List.range' first count ∧ ∀ k, before = some k → first = k + 1 := by
  induction l generalizing before with
  | nil =>
    cases before with
    | none => exact ⟨0, 0, rfl, nofun⟩
    | some k => exact ⟨k + 1, 0, rfl, fun _ h => by cases h; rfl⟩
  | cons x rest ih =>
    cases hx : x.seq? with
    | none =>
      obtain ⟨first, count, hrun, hfirst⟩ := ih before
      refine ⟨first, count, ?_, hfirst⟩
      rw [cutAtBreak_before before hx, List.filterMap_cons_none hx]
      exact hrun
    | some n =>
      have hlive : x = .live n := by cases x <;> cases hx; rfl
      subst hlive
      rw [cutAtBreak]
      split
      · rename_i hgoes
        obtain ⟨first, count, hrun, hfirst⟩ := ih (some n)
        refine ⟨n, count + 1, ?_, fun k hk => ?_⟩
        · rw [List.filterMap_cons_some hx, hrun, hfirst n rfl, List.range'_succ]
        · rw [hk] at hgoes
          exact (beq_iff_eq.mp hgoes).symm
      · have hvoid : ((.void :: rest.map PageState.unlive : List PageState)).filterMap PageState.seq? = [] := by
          rw [List.filterMap_cons_none rfl, List.filterMap_map, List.filterMap_eq_nil_iff]
          exact fun x _ => x.unlive_seq
        exact ⟨before.elim 0 (· + 1), 0, hvoid, fun k hk => by rw [hk]; rfl⟩

theorem PageState.unlive_unused (x : PageState) : (x.unlive == .unused) = (x == .unused) := by cases x <;> rfl

/-- The cut leaves the UNUSED pages, and them alone. -/
theorem cutAtBreak_unused (before : Option Nat) (l : List PageState) :
    (cutAtBreak before l).1.map (· == .unused) = l.map (· == .unused) := by
  induction l generalizing before with
  | nil => rfl
  | cons x rest ih =>
    cases hx : x.seq? with
    | none =>
      rw [cutAtBreak_before before hx, List.map_cons, List.map_cons, ih before]
    | some n =>
      have hlive : x = .live n := by cases x <;> cases hx; rfl
      subst hlive
      rw [cutAtBreak]
      split
      · exact congrArg (false :: ·) (ih (some n))
      · refine congrArg (false :: ·) ?_
        rw [List.map_map]
        exact List.map_congr_left fun x _ => x.unlive_unused

/-- The order of a page map, by which of its pages are UNUSED. -/
theorem pagesInOrder_iff (l : List PageState) :
    pagesInOrder l ↔ (l.map (· == .unused)).Pairwise fun x y => x = true → y = true := by
  rw [List.pairwise_map, pagesInOrder]
  simp only [beq_iff_eq]

theorem pagesInOrder_cut (before : Option Nat) {l : List PageState} (h : pagesInOrder l) : pagesInOrder (cutAtBreak before l).1 := by
  rw [pagesInOrder_iff, cutAtBreak_unused, ← pagesInOrder_iff]
  exact h

theorem ownedPages_length (pages : List (List Byte)) (st : Fin 16) (inc : Byte) (writer : Port) :
    (ownedPages pages st inc writer).length = pages.length := by
  simp [ownedPages]

/-- Above the last written page all are UNUSED, below none is. -/
theorem pagesInOrder_owned (pages : List (List Byte)) (st : Fin 16) (inc : Byte) (writer : Port) :
    pagesInOrder (ownedPages pages st inc writer) := by
  refine List.pairwise_iff_getElem.mpr fun i j hi hj hij hunused => ?_
  have hi' : i < pages.length := ownedPages_length pages st inc writer ▸ hi
  have hj' : j < pages.length := ownedPages_length pages st inc writer ▸ hj
  have page (k : Nat) (hk : k < pages.length) := ownedPages_getElem? pages st inc writer (List.getElem?_eq_getElem hk)
  have hat := (List.getElem?_eq_some_iff.mp (page i hi')).2
  rw [hunused] at hat
  refine Option.some.inj ((List.getElem?_eq_getElem hj).symm.trans ((page j hj').trans ?_))
  split at hat
  · rename_i hlow
    rw [if_pos (hlow.trans (Nat.le_of_lt hij))]
  · split at hat <;> cases hat

/-! ### The classes (R131) -/

/-- An owned sector with its stream, its pages in order and its records one run (R132). -/
structure OwnedSector.Runs (o : OwnedSector) (m : Mount) : Prop where
  mounted : m.streams[o.stream.val].body.isSome = true
  pages : pagesInOrder o.pages.toList
  records : ∃ first count, 0 < count ∧ o.pages.toList.filterMap PageState.seq? = List.range' first count

/-- Every sector below `n` is in one class. -/
structure Mount.ScannedTo (m : Mount) (n : Nat) : Prop extends m.Tabled where
  bounds : 4 ≤ n ∧ n ≤ 256
  found : (m.freeFound ++ m.released ++ m.owned.map OwnedSector.sector).Perm
    ((List.range' 4 (n - 4)).filter fun k => k ∉ m.bad)
  owned : ∀ o ∈ m.owned, o.Runs m

theorem Mount.scanned_iff {m : Mount} {n : Nat} (h : 4 ≤ n) : m.scanned n ↔ m.ScannedTo n ∧ n < 256 ∧ n ∉ m.bad := by
  constructor
  · rintro ⟨h1, h2, -, h4⟩
    obtain ⟨hlt, hbad, hnodup, hlen, hdata, hfound, howned⟩ := h4 h
    exact ⟨⟨⟨h1, h2, hnodup, hlen, hdata⟩, ⟨h, Nat.le_of_lt hlt⟩, hfound, fun o ho =>
      ⟨(howned o ho).1, (howned o ho).2.1, (howned o ho).2.2⟩⟩, hlt, hbad⟩
  · rintro ⟨k, hlt, hbad⟩
    exact ⟨k.chains, k.lost, fun hn => absurd h (Nat.not_le.mpr hn), fun _ => ⟨hlt, hbad, k.nodup, k.length, k.data, k.found,
      fun o ho => ⟨(k.owned o ho).mounted, (k.owned o ho).pages, (k.owned o ho).records⟩⟩⟩

/-- The next sector joins a class. -/
theorem Mount.ScannedTo.joins {m m' : Mount} {n : Nat} (h : m.ScannedTo n) (hlt : n < 256) (hbad : n ∉ m.bad)
    (same : m'.streams = m.streams ∧ m'.retained = m.retained ∧ m'.bad = m.bad)
    (found : (m'.freeFound ++ m'.released ++ m'.owned.map OwnedSector.sector).Perm
      ((m.freeFound ++ m.released ++ m.owned.map OwnedSector.sector) ++ [n]))
    (owned : ∀ o ∈ m'.owned, o ∈ m.owned ∨ o.Runs m) : m'.ScannedTo (n + 1) := by
  obtain ⟨hstreams, hretained, hsame⟩ := same
  obtain ⟨hlow, -⟩ := h.bounds
  refine ⟨⟨fun st b hb => h.chains st b (by rw [← hstreams]; exact hb), fun st p r hr => h.lost st p r (by rw [← hretained]; exact hr),
    hsame ▸ h.nodup, hsame ▸ h.length, hsame ▸ h.data⟩, ⟨by omega, by omega⟩, ?_, fun o ho => ?_⟩
  · have hrange : List.range' 4 (n + 1 - 4) = List.range' 4 (n - 4) ++ [n] := by
      rw [show n + 1 - 4 = (n - 4) + 1 by omega, List.range'_1_concat, show 4 + (n - 4) = n by omega]
    rw [hsame, hrange, List.filter_append, List.filter_cons_of_pos (by simpa using hbad), List.filter_nil]
    exact found.trans (h.found.append_right [n])
  · have k : o.Runs m := (owned o ho).elim (h.owned o) id
    exact ⟨by rw [hstreams]; exact k.mounted, k.pages, k.records⟩

theorem Flash.sectorPages_length (f : Flash) (n : Nat) : (f.sectorPages n).length = 16 := by
  simp [Flash.sectorPages, Config.sectorPages]

theorem Mount.ScannedTo.takeOwned {m : Mount} {n : Nat} (h : m.ScannedTo n) (hlt : n < 256) (hbad : n ∉ m.bad) {st : Fin 16}
    {states : List PageState} (hs : m.streams[st.val].body.isSome = true) (hlen : states.length = 16) (ho : pagesInOrder states) :
    (m.takeOwned n st states).ScannedTo (n + 1) := by
  obtain ⟨hreleased, howned⟩ := Mount.takeOwned_of (m := m) (n := n) (st := st) (states := states)
  have hcut := cutAtBreak_spec none states
  by_cases hlive : ∃ x ∈ (cutAtBreak none states).1, x.seq? ≠ none
  · rw [howned hlive]
    refine h.joins hlt hbad ⟨rfl, rfl, rfl⟩ ?_ fun o hmem => ?_
    · rw [List.map_append, ← List.append_assoc]
      rfl
    · refine (List.mem_append.mp hmem).imp_right fun hin => ?_
      obtain rfl := List.mem_singleton.mp hin
      have hlist : (pageMap (cutAtBreak none states).1).toList = (cutAtBreak none states).1 :=
        pageMap_toList (hcut.length.trans hlen)
      refine ⟨hs, by rw [hlist]; exact pagesInOrder_cut none ho, ?_⟩
      obtain ⟨first, count, hrun, -⟩ := cutAtBreak_run none states
      refine ⟨first, count, ?_, by rw [hlist]; exact hrun⟩
      obtain ⟨x, hx, hseq⟩ := hlive
      obtain ⟨q, hq⟩ := Option.ne_none_iff_exists'.mp hseq
      have hin : q ∈ List.range' first count := hrun ▸ List.mem_filterMap.mpr ⟨x, hx, hq⟩
      rw [List.mem_range'_1] at hin
      omega
  · rw [hreleased fun x hx => Decidable.not_not.mp fun hne => hlive ⟨x, hx, hne⟩]
    refine h.joins hlt hbad ⟨rfl, rfl, rfl⟩ ?_ fun o hmem => .inl hmem
    refine List.perm_iff_count.mpr fun a => ?_
    simp only [List.count_append]
    omega

theorem Mount.ScannedTo.classify {m : Mount} {n : Nat} (h : m.ScannedTo n) (hlt : n < 256) (hbad : n ∉ m.bad)
    {pages : List (List Byte)} (hlen : pages.length = 16) : (m.classify n pages).ScannedTo (n + 1) := by
  unfold Mount.classify
  split
  · refine h.joins hlt hbad ⟨rfl, rfl, rfl⟩ ?_ fun o hmem => .inl hmem
    refine List.perm_iff_count.mpr fun a => ?_
    simp only [List.count_append]
    omega
  · split
    · rename_i st b howner
      obtain ⟨hs, -⟩ := (Mount.ownerOf_iff m _ st b).mp howner
      exact h.takeOwned hlt hbad (by rw [hs]; rfl) ((ownedPages_length _ _ _ _).trans hlen) (pagesInOrder_owned _ _ _ _)
    · refine h.joins hlt hbad ⟨rfl, rfl, rfl⟩ ?_ fun o hmem => .inl hmem
      refine List.perm_iff_count.mpr fun a => ?_
      simp only [List.count_append]
      omega

/-! ### The next sector to read (R131) -/

/-- The sectors passed over are bad. -/
theorem Mount.ScannedTo.skips {m : Mount} {n k : Nat} (h : m.ScannedTo n) (hk : n ≤ k) (hk256 : k ≤ 256)
    (hskip : ∀ j, n ≤ j → j < k → j ∈ m.bad) : m.ScannedTo k := by
  obtain ⟨hlow, -⟩ := h.bounds
  have hrange : List.range' 4 (k - 4) = List.range' 4 (n - 4) ++ List.range' n (k - n) := by
    have := List.range'_append_1 (s := 4) (m := n - 4) (n := k - n)
    rw [show 4 + (n - 4) = n by omega, show n - 4 + (k - n) = k - 4 by omega] at this
    exact this.symm
  have hnone : (List.range' n (k - n)).filter (fun j => j ∉ m.bad) = [] := by
    rw [List.filter_eq_nil_iff]
    intro j hj
    rw [List.mem_range'_1] at hj
    simpa using hskip j hj.1 (by omega)
  refine { h with bounds := ⟨by omega, hk256⟩, found := ?_ }
  rw [hrange, List.filter_append, hnone, List.append_nil]
  exact h.found

theorem Mount.ScannedTo.next {m : Mount} {n k : Nat} (h : m.ScannedTo n) (hk : m.nextSector n = some k) : m.scanned k := by
  obtain ⟨hle, hlt, hbad⟩ := Mount.nextSector_some hk
  obtain ⟨-, -, hbefore⟩ := List.find?_range'_eq_some.mp hk
  have hskip : ∀ j, n ≤ j → j < k → j ∈ m.bad := fun j hj hjk => by simpa using hbefore j hj hjk
  exact (Mount.scanned_iff (h.bounds.1.trans hle)).mpr ⟨h.skips hle (Nat.le_of_lt hlt) hskip, hlt, hbad⟩

theorem Mount.ScannedTo.last {m : Mount} {n : Nat} (h : m.ScannedTo n) (hk : m.nextSector n = none) : m.ScannedTo 256 := by
  refine h.skips h.bounds.2 (Nat.le_refl 256) fun j hj hlt => ?_
  have hall := List.find?_eq_none.mp hk j (List.mem_range'_1.mpr ⟨hj, by omega⟩)
  simpa using hall

/-- The scan ended: every data sector in one class. -/
theorem Mount.ScannedTo.classed {m : Mount} (h : m.ScannedTo 256) : m.classed := by
  refine ⟨h.chains, fun o ho => (h.owned o ho).mounted, ?_⟩
  have hbad : m.bad.Perm (dataSectors.filter fun k => k ∈ m.bad) := by
    refine (List.perm_ext_iff_of_nodup h.nodup (dataSectors_nodup.filter _)).mpr fun k => ?_
    rw [List.mem_filter, mem_dataSectors, decide_eq_true_eq]
    exact ⟨fun hk => ⟨h.data k hk, hk⟩, And.right⟩
  have hparts : (dataSectors.filter (fun k => k ∈ m.bad) ++ dataSectors.filter fun k => k ∉ m.bad).Perm dataSectors := by
    have := List.filter_append_perm (fun k => decide (k ∈ m.bad)) dataSectors
    simpa only [decide_not] using this
  rw [List.append_assoc, List.append_assoc, ← List.append_assoc m.freeFound]
  exact (hbad.append h.found).trans hparts

end Sys2Proof.Machine
end

