-- ==== Sys2Proof/Proofs/MountedChains.lean ====
section
/-! The chains and cursors a mount builds: each stream's records one run, each cursor between oldest and next sequence
(R133 to R136). -/

namespace Sys2Proof.Machine

open Sys2Proof

-- One process elaborates the whole text: proofs taken in turn stay within its memory.
set_option Elab.async false

/-! ### The walk of a chain (R134) -/

/-- The sequences of an owned sector's LIVE pages. -/
def OwnedSector.seqs (o : OwnedSector) : List Nat := o.pages.toList.filterMap PageState.seq?

theorem OwnedSector.Runs.seqs {o : OwnedSector} {m : Mount} (h : o.Runs m) :
    ∃ count, o.seqs = List.range' o.first (count + 1) ∧ o.last = o.first + count := by
  obtain ⟨first, count, hpos, hrun⟩ := h.records
  obtain ⟨count, rfl⟩ : ∃ k, count = k + 1 := ⟨count - 1, by omega⟩
  have hfirst : o.first = first := by rw [OwnedSector.first, hrun]; rfl
  have hlast : o.last = first + count := by
    rw [OwnedSector.last, hrun, List.range'_1_concat, List.getLast?_append]
    rfl
  exact ⟨count, by rw [hfirst]; exact hrun, by rw [hfirst]; exact hlast⟩

/-- The records of sectors kept one after another are one run, that ends with the last one's. -/
structure OneRun (kept : List OwnedSector) (first count : Nat) : Prop where
  seqs : kept.flatMap OwnedSector.seqs = List.range' first count
  last : ∃ o, kept.getLast? = some o ∧ o.last + 1 = first + count

theorem OneRun.cons {o : OwnedSector} {kept : List OwnedSector} {m : Mount} (ho : o.Runs m)
    (h : kept = [] ∨ ∃ count, OneRun kept (o.last + 1) count) : ∃ count, OneRun (o :: kept) o.first count := by
  obtain ⟨k, hseqs, hlast⟩ := ho.seqs
  rcases h with rfl | ⟨count, hrun, x, hx, hend⟩
  · exact ⟨k + 1, by rw [List.flatMap_singleton]; exact hseqs, o, rfl, by omega⟩
  · refine ⟨k + 1 + count, ?_, x, ?_, by omega⟩
    · rw [List.flatMap_cons, hseqs, hrun, hlast, Nat.add_assoc, List.range'_append_1]
    · rw [List.getLast?_cons, hx]
      rfl

theorem walk_oneRun {m : Mount} (last : Option Nat) {l : List OwnedSector} (h : ∀ o ∈ l, o.Runs m) :
    (walk last l).1 = [] ∨ ∃ first count, OneRun (walk last l).1 first count ∧ ∀ k, last = some k → first = k + 1 := by
  induction l generalizing last with
  | nil => exact .inl rfl
  | cons o rest ih =>
    obtain ⟨ho, hrest⟩ := List.forall_mem_cons.mp h
    rw [walk]
    split
    · rename_i hgoes
      have hnext : (walk (some o.last) rest).1 = [] ∨ ∃ count, OneRun (walk (some o.last) rest).1 (o.last + 1) count := by
        refine (ih (some o.last) hrest).imp_right fun ⟨first, count, hrun, hfirst⟩ => ⟨count, ?_⟩
        rwa [hfirst o.last rfl] at hrun
      obtain ⟨count, hrun⟩ := OneRun.cons ho hnext
      refine .inr ⟨o.first, count, hrun, fun k hk => ?_⟩
      rw [hk] at hgoes
      exact (beq_iff_eq.mp hgoes).symm
    · exact ih last hrest

/-- A chain built from sectors whose records are one run. -/
theorem Device.ChainBuilt.inOrder {e : Device} {st : Fin 16} {b : StreamBody} {kept : List OwnedSector} {m : Mount}
    (h : e.ChainBuilt st b kept) (hruns : ∀ o ∈ kept, o.Runs m) (hone : kept = [] ∨ ∃ first count, OneRun kept first count)
    {b' : StreamBody} (hb : e.stream st = some b') : b'.InOrder e.pagesOf fun _ => none := by
  rw [h.stream] at hb
  obtain rfl := Option.some.inj hb
  have hpages (o : OwnedSector) (ho : o ∈ kept) : e.pagesOf o.sector = o.pages.toList := congrArg Vector.toList (h.pages o ho)
  have hrecords : ((kept.map OwnedSector.sector).flatMap fun n => (e.pagesOf n).filterMap PageState.seq?) =
      kept.flatMap OwnedSector.seqs := by
    rw [List.flatMap_map]
    exact List.flatMap_congr fun o ho => by rw [hpages o ho]; rfl
  have hsectors : ∀ n ∈ kept.map OwnedSector.sector, pagesInOrder (e.pagesOf n) := by
    intro n hn
    obtain ⟨o, ho, rfl⟩ := List.mem_map.mp hn
    rw [hpages o ho]
    exact (hruns o ho).pages
  rcases hone with rfl | ⟨first, count, hseqs, o, ho, hend⟩
  · refine ⟨Nat.le_refl b.next, ?_, hsectors, nofun⟩
    show [] = List.range' b.next (b.next - b.next)
    rw [Nat.sub_self]
    rfl
  · obtain ⟨x, rest, rfl⟩ : ∃ x rest, kept = x :: rest := by
      cases kept with
      | nil => cases ho
      | cons x rest => exact ⟨x, rest, rfl⟩
    obtain ⟨k, hx, -⟩ := (hruns x List.mem_cons_self).seqs
    have hcount : ∃ n, count = n + 1 := by
      cases count with
      | zero =>
        rw [List.flatMap_cons, hx] at hseqs
        cases hseqs
      | succ n => exact ⟨n, rfl⟩
    obtain ⟨n, rfl⟩ := hcount
    have holdest : e.chainOldest ((x :: rest).map OwnedSector.sector) (o.last + 1) = first := by
      rw [Device.chainOldest_head, hrecords, hseqs]
      rfl
    rw [ho]
    refine ⟨?_, ?_, hsectors, nofun⟩
    · show e.chainOldest ((x :: rest).map OwnedSector.sector) (o.last + 1) ≤ o.last + 1
      omega
    · show _ = List.range' (e.chainOldest ((x :: rest).map OwnedSector.sector) (o.last + 1))
        (o.last + 1 - e.chainOldest ((x :: rest).map OwnedSector.sector) (o.last + 1))
      rw [holdest, show o.last + 1 - first = n + 1 by omega]
      exact hrecords.trans hseqs

/-! ### Streams rebuilt -/

/-- Every stream rebuilt so far is in order with the cursors it has, and no retained lost count is out of range. -/
structure Device.Rebuilt (d : Device) : Prop where
  runs : ∀ st b, d.stream st = some b → b.InOrder d.pagesOf (d.cursor st)
  lost : ∀ (st : Fin 16) p r, d.mount.retained[st.val].get p = some r → r.lost ≤ 65535

theorem Device.mounts.retained {d e : Device} (h : d.mounts e) : e.mount.retained = d.mount.retained := by rw [h.mount]

theorem Mount.ScannedTo.chains_built {d : Device} {m : Mount} (h : m.ScannedTo 256) {e : Device} {serial : Nat}
    (w : d.Walked e m serial m.tested) (hs : d.streams = m.streams) {st : Fin 16} {b : StreamBody} (hb : e.stream st = some b) :
    b.InOrder e.pagesOf fun _ => none := by
  have hstream : d.stream st = m.streams[st.val].body := by rw [Device.stream, hs]
  cases hbody : m.streams[st.val].body with
  | none =>
    have hnot : st ∉ m.tested.map Prod.fst := by
      intro hin
      obtain ⟨t, ht, rfl⟩ := List.mem_map.mp hin
      obtain ⟨b', hb', -⟩ := Mount.mem_tested.mp ht
      rw [hbody] at hb'
      cases hb'
    rw [w.other st hnot, hstream, hbody] at hb
    cases hb
  | some b₀ =>
    have ht : (st, m.releaseTest st b₀) ∈ m.tested := Mount.mem_tested.mpr ⟨b₀, hbody, rfl⟩
    have hbuilt := w.built _ ht b₀ (hstream.trans hbody)
    have hown : ∀ o ∈ (m.releaseTest st b₀).1.foldr insertOwned [], o.Runs m := by
      intro o ho
      have hin := (sortOwned_perm _).mem_iff.mp ho
      rw [Mount.releaseTest_eq] at hin
      exact h.owned o (List.mem_filter.mp (List.mem_filter.mp hin).1).1
    refine hbuilt.inOrder (m := m) (fun o ho => ?_) ?_ hb
    · exact hown o ((walk_perm none _).mem_iff.mp (List.mem_append_left _ ho))
    · exact (walk_oneRun none hown).imp_right fun ⟨first, count, hrun, _⟩ => ⟨first, count, hrun⟩

/-! ### Cursors (R135) -/

theorem mountCursor_bounds {next oldest : Nat} (h : oldest ≤ next) {r : Option Retained} (hr : ∀ x, r = some x → x.lost ≤ 65535) :
    let c := (mountCursor r next oldest).1
    oldest ≤ c.committed ∧ c.committed ≤ c.delivered ∧ c.delivered ≤ next ∧ c.lost ≤ 65535 := by
  cases r with
  | none =>
    rw [mountCursor_none, correctedCursor_mid (Nat.le_refl _) h]
    exact ⟨Nat.le_refl _, Nat.le_refl _, h, Nat.zero_le _⟩
  | some x =>
    obtain ⟨-, hlow, hhigh, hmid⟩ := mountCursor_spec next oldest x h
    have hlost := hr x rfl
    by_cases h1 : x.committed < oldest
    · rw [hlow h1]
      exact ⟨Nat.le_refl _, Nat.le_refl _, h, Nat.min_le_left _ _⟩
    · by_cases h2 : next < x.committed
      · rw [hhigh h2]
        exact ⟨h, Nat.le_refl _, Nat.le_refl _, hlost⟩
      · rw [hmid (Nat.le_of_not_lt h1) (Nat.le_of_not_lt h2)]
        exact ⟨Nat.le_of_not_lt h1, Nat.le_refl _, Nat.le_of_not_lt h2, hlost⟩

theorem Device.Rebuilt.setCursor {d : Device} (h : d.Rebuilt) {st : Fin 16} {p : Port} {c : Cursor}
    (hc : ∀ b, d.stream st = some b → b.readers.get p = true ∧ b.oldest ≤ c.committed ∧ c.committed ≤ c.delivered ∧
      c.delivered ≤ b.next ∧ c.lost ≤ 65535) : (d.setCursor st p (some c)).Rebuilt := by
  refine ⟨fun st' b hb => ?_, h.lost⟩
  have k := h.runs st' b hb
  refine ⟨k.oldest, k.records, k.pages, fun q c' hc' => ?_⟩
  by_cases hsame : st' = st ∧ q = p
  · obtain ⟨rfl, rfl⟩ := hsame
    rw [Device.cursor_setCursor] at hc'
    cases hc'
    exact hc b hb
  · rw [Device.cursor_setCursor_other _ _ _ _ _ _ (by tauto)] at hc'
    exact k.cursors q c' hc'

theorem Device.Rebuilt.addRepair {d : Device} (h : d.Rebuilt) : d.addRepair.Rebuilt := ⟨h.runs, h.lost⟩

theorem Device.Rebuilt.createCursor {d : Device} (h : d.Rebuilt) (st : Fin 16) (p : Port) : (d.createCursor st p).Rebuilt := by
  unfold Device.createCursor
  split
  · exact h
  · rename_i b hs
    split
    · rename_i hreads
      have created : (d.setCursor st p (some (mountCursor (d.mount.retained[st.val].get p) b.next b.oldest).1)).Rebuilt := by
        refine h.setCursor fun b' hb' => ?_
        obtain rfl : b = b' := Option.some.inj (hs.symm.trans hb')
        exact ⟨hreads, mountCursor_bounds (h.runs st b hs).oldest (h.lost st p)⟩
      dsimp only
      split
      exacts [created.addRepair, created]
    · exact h

theorem Device.Rebuilt.mountCursors {d : Device} (h : d.Rebuilt) : d.mountCursors.Rebuilt := by
  unfold Device.mountCursors
  induction List.finRange 16 generalizing d with
  | nil => exact h
  | cons st l ih => exact ih (((h.createCursor st .A).createCursor st .B).createCursor st .C)

end Sys2Proof.Machine
end

