-- ==== Sys2Proof/Proofs/MountedRuns.lean ====
section
/-! Reclaim and trim at mount leave each stream's records one run and its cursors in order (R136). -/

namespace Sys2Proof.Machine

open Sys2Proof

-- One process elaborates the whole text: proofs taken in turn stay within its memory.
set_option Elab.async false

/-! ### A head trimmed -/

/-- The cursors of the stream brought up to the first sequence that stays. -/
theorem StreamBody.InOrder.trimmed {b b' : StreamBody} {pages pages' : Nat → List PageState} {cursor cursor' : Port → Option Cursor}
    (h : b.InOrder pages cursor) {head : Nat} {rest : List Nat} (hc : b.chain = head :: rest) (chain : b'.chain = rest)
    (next : b'.next = b.next) (readers : b'.readers = b.readers)
    (oldest : b'.oldest = (rest.flatMap fun n => (pages n).filterMap PageState.seq?).head?.getD b.next)
    (kept : ∀ n ∈ rest, pages' n = pages n) (raised : ∀ q, cursor' q = (cursor q).map (Cursor.trimmed b'.oldest)) :
    b'.InOrder pages' cursor' := by
  refine h.drop (gone := [head]) (stay := rest) hc chain next readers oldest kept fun p c hp => ?_
  have hrun := h.records
  rw [hc, ← List.singleton_append, List.flatMap_append] at hrun
  obtain ⟨-, hle, hhead, hbelow, -⟩ := range'_split hrun h.oldest
  rw [← hhead, ← oldest] at hle hbelow
  rw [raised p, Option.map_eq_some_iff] at hp
  obtain ⟨c₀, hc₀, rfl⟩ := hp
  obtain ⟨hreads, hlow, hmid, hhigh, hlost⟩ := h.cursors p c₀ hc₀
  have gone {x : Nat} (hx : b'.oldest ≤ x) : ∀ n ∈ [head], ∀ v ∈ (pages n).filterMap PageState.seq?, v < x :=
    fun n hn v hv => Nat.lt_of_lt_of_le (hbelow v (List.mem_flatMap.mpr ⟨n, hn, hv⟩)) hx
  unfold Cursor.trimmed
  split
  · rename_i hlt
    exact ⟨hreads, hlow.trans (Nat.le_of_lt hlt), Nat.le_max_right _ _, Nat.max_le.mpr ⟨hhigh, hle⟩, Nat.min_le_left _ _,
      gone (Nat.le_refl _)⟩
  · rename_i hnot
    exact ⟨hreads, hlow, hmid, hhigh, hlost, gone (Nat.le_of_not_lt hnot)⟩

/-- The stream as recounting will find it. -/
def Device.recounted (d : Device) (b : StreamBody) : StreamBody := { b with oldest := d.chainOldest b.chain b.next }

theorem Device.trim_inOrder {d : Device} {st : Fin 16} {b : StreamBody} (hs : d.stream st = some b) (hn : b.chain.Nodup)
    (h : (d.recounted b).InOrder d.pagesOf (d.cursor st)) (k : Nat) :
    ∃ b', (d.trim st k).stream st = some b' ∧ ((d.trim st k).recounted b').InOrder (d.trim st k).pagesOf ((d.trim st k).cursor st) := by
  induction k generalizing d b with
  | zero => exact ⟨b, hs, h⟩
  | succ k ih =>
    cases hc : b.chain with
    | nil =>
      have hsame : d.trim st (k + 1) = d := by
        rw [Device.trim, hs]
        dsimp only
        rw [hc]
      rw [hsame]
      exact ⟨b, hs, h⟩
    | cons head rest =>
      rw [Device.trim_cons hs hc]
      have ht := Device.trimmedHead_spec hs head rest
      generalize d.trimmedHead st b head rest = m at ht
      rw [hc] at hn
      obtain ⟨hnot, hrest⟩ := List.nodup_cons.mp hn
      have hm : m.stream st = some { b with chain := rest } := by
        rw [Device.stream, ht.streams]
        exact Device.stream_setBody _ _ _
      have hpages : ∀ n ∈ rest, m.pagesOf n = d.pagesOf n := fun n hmem => congrArg Sector.pageList
        (ht.queues.other fun hin => hnot ((List.mem_singleton.mp hin) ▸ hmem))
      refine ih hm hrest (h.trimmed hc rfl rfl rfl ?_ hpages ht.cursor)
      show m.chainOldest rest b.next = _
      rw [Device.chainOldest_head]
      exact congrArg (fun l : List Nat => l.head?.getD b.next) (List.flatMap_congr fun n hmem => by rw [hpages n hmem])

/-! ### One stream's passes -/

theorem Device.reclaimed_inOrder {d e : Device} {st : Fin 16} {b : StreamBody} {gone stay : List Nat} (hn : b.chain.Nodup)
    (h : b.InOrder d.pagesOf (d.cursor st)) (hc : b.chain = gone ++ stay) (hq : d.Queues e gone)
    (hgone : ∀ n ∈ gone, (d.sector n).reclaimable (d.leastCommitted st b) = true) :
    (e.counted { b with chain := stay }).InOrder e.pagesOf (d.cursor st) := by
  rw [hc] at hn
  have hpages : ∀ n ∈ stay, e.pagesOf n = d.pagesOf n := fun n hmem => congrArg Sector.pageList
    (hq.other fun hin => (List.nodup_append.mp hn).2.2 n hin n hmem rfl)
  refine h.drop hc rfl rfl rfl ?_ hpages fun p c hp => ?_
  · show e.chainOldest stay b.next = _
    rw [Device.chainOldest_head]
    exact congrArg (fun l : List Nat => l.head?.getD b.next) (List.flatMap_congr fun n hmem => by rw [hpages n hmem])
  · obtain ⟨hreads, hlow, hmid, hhigh, hlost⟩ := h.cursors p c hp
    refine ⟨hreads, hlow, hmid, hhigh, hlost, fun n hmem v hv => ?_⟩
    refine Nat.lt_of_lt_of_le ?_ (d.leastCommitted_le hreads hp)
    refine h.below (hc ▸ List.mem_append_left _ hmem) (fun last hl => ?_) v hv
    have hrec := hgone n hmem
    have hl' : (d.sector n).last? = some last := hl
    rw [Sector.reclaimable, hl', Bool.and_eq_true] at hrec
    exact of_decide_eq_true hrec.2

theorem Device.mountPasses_inOrder {d : Device} {st : Fin 16} {b : StreamBody} (hs : d.stream st = some b) (hn : b.chain.Nodup)
    (hc : ∀ n ∈ b.chain, (d.sector n).suspect = false) (h : b.InOrder d.pagesOf (d.cursor st)) {b' : StreamBody}
    (hb : (d.mountPasses st).stream st = some b') : b'.InOrder (d.mountPasses st).pagesOf ((d.mountPasses st).cursor st) := by
  obtain ⟨e, heq, hq, -, hcursors⟩ := Device.mountReclaim_spec hs hn hc
  have hprefix := List.takeWhile_prefix (l := b.chain) fun n => (d.sector n).reclaimable (d.leastCommitted st b)
  have hgone : ∀ n ∈ b.chain.takeWhile (fun n => (d.sector n).reclaimable (d.leastCommitted st b)),
      (d.sector n).reclaimable (d.leastCommitted st b) = true := fun n hmem =>
    List.mem_takeWhile_imp (p := fun n => (d.sector n).reclaimable (d.leastCommitted st b)) hmem
  rw [Device.mountPasses_eq heq] at hb ⊢
  generalize b.chain.takeWhile (fun n => (d.sector n).reclaimable (d.leastCommitted st b)) = gone at *
  have hsplit : b.chain = gone ++ b.chain.drop gone.length := (List.prefix_iff_eq_append.mp hprefix).symm
  generalize b.chain.drop gone.length = stay at *
  have hreclaimed := Device.reclaimed_inOrder hn h hsplit hq hgone
  have hstay : stay.Nodup := (List.nodup_append.mp (hsplit ▸ hn)).2.1
  generalize stay.length - b.quota = k at *
  obtain ⟨b₁, hb₁, htrim⟩ := Device.trim_inOrder (d := e.setBody st (some (e.counted { b with chain := stay })))
    (Device.stream_setBody _ _ _) hstay (by
      have hcursor : (e.setBody st (some (e.counted { b with chain := stay }))).cursor st = d.cursor st := by
        funext q
        show e.cursor st q = d.cursor st q
        rw [Device.cursor, hcursors, Device.cursor]
      rw [hcursor]
      exact hreclaimed) k
  generalize (e.setBody st (some (e.counted { b with chain := stay }))).trim st k = m at *
  rw [Device.recountQuiet_eq hb₁] at hb ⊢
  have hframe := Device.quietBacklogs_frame (m.setBody st (some (m.counted b₁))) st
  have hcursor (q : Port) (c : Cursor) := Device.quietBacklogs_cursor (m.setBody st (some (m.counted b₁))) (st := st) q (c := c)
  generalize (m.setBody st (some (m.counted b₁))).quietBacklogs st = f at *
  have hstream : f.stream st = some (m.counted b₁) := by
    rw [hframe]
    exact Device.stream_setBody _ _ _
  have hpages : f.pagesOf = m.pagesOf := by
    rw [hframe]
    rfl
  obtain rfl := Option.some.inj (hstream.symm.trans hb)
  rw [hpages]
  refine ⟨htrim.oldest, htrim.records, htrim.pages, fun q c hq => ?_⟩
  obtain ⟨c', hc', heqc⟩ := hcursor q c hq
  rw [heqc]
  exact htrim.cursors q c' hc'

/-- The passes over one stream keep what is rebuilt, its records and cursors in order. -/
theorem Device.Rebuilt.mountPasses {d : Device} (h : d.Rebuilt) {m : Mount} {serial : Nat} (hm : d.Mounting m serial []) (st : Fin 16) :
    (d.mountPasses st).Rebuilt := by
  cases hs : d.stream st with
  | none =>
    rw [Device.mountPasses_none hs]
    exact h
  | some b =>
    obtain ⟨hn, hc⟩ := hm.chain_clean hs
    obtain ⟨gone, k, -⟩ := hm.passes hs
    refine ⟨fun st' b' hb' => ?_, fun st' p r hr => h.lost st' p r (by rw [← k.queues.frame.retained]; exact hr)⟩
    by_cases hst : st' = st
    · subst hst
      exact Device.mountPasses_inOrder hs hn hc (h.runs _ b hs) hb'
    · rw [k.stream_other hst] at hb'
      have hplaces : d.places.Nodup := hm.placed.nodup_iff.mpr dataSectors_nodup
      refine (h.runs st' b' hb').congr rfl (fun n hmem => ?_) fun q => by rw [k.otherCursor st' q hst]
      refine congrArg Sector.pageList (k.queues.other fun hin => ?_)
      exact Device.chains_apart hplaces hb' hs (Ne.symm hst) hmem (List.mem_of_mem_take hin)

theorem Device.Rebuilt.foldl_passes {m : Mount} {serial : Nat} (l : List (Fin 16)) {d : Device} (h : d.Rebuilt)
    (hm : d.Mounting m serial []) : (l.foldl Device.mountPasses d).Rebuilt := by
  induction l generalizing d with
  | nil => exact h
  | cons st l ih => exact ih (h.mountPasses hm st) (hm.mountPasses st)

end Sys2Proof.Machine
end

