-- ==== Sys2Proof/Proofs/MountInOrder.lean ====
section
/-! A mount's reads, one after another, and its outcome: the sectors in place, the streams in order (R123 to R138). -/

namespace Sys2Proof.Machine

open Sys2Proof

-- One process elaborates the whole text: proofs taken in turn stay within its memory.
set_option Elab.async false

/-! ### What the passes do not reach -/

theorem Device.mounts_foldl {α : Type} {f : Device → α → Device} (hf : ∀ (d : Device) x, d.mounts (f d x)) (l : List α) (d : Device) :
    d.mounts (l.foldl f d) := by
  induction l generalizing d with
  | nil => exact .refl d
  | cons x l ih => exact (hf d x).trans (ih _)

theorem Device.mounts_recountQuiet (d : Device) (st : Fin 16) : d.mounts ((d.recount st).quietHigh st) := by
  cases hs : d.stream st with
  | none =>
    rw [Device.recountQuiet_none hs]
    exact .refl d
  | some b =>
    rw [Device.recountQuiet_eq hs]
    exact d.mounts_setBody st _

theorem Device.mounts_mountChain (d : Device) (st : Fin 16) (own : List OwnedSector) : d.mounts (d.mountChain st own) := by
  unfold Device.mountChain
  split
  · exact .refl d
  · refine Device.mounts.trans ?_ (Device.mounts_recountQuiet _ st)
    refine Device.mounts.trans ?_ (Device.mounts_setBody _ st _)
    exact (Device.mounts_foldl (fun (d : Device) _ => (d.mounts_joinQueue _).trans (Device.mounts_addRepair _)) _ d).trans
      (Device.mounts_foldl (fun (d : Device) _ => d.mounts_setSector _ _) _ _)

theorem Device.mounts_mountChains (d : Device) : d.mounts d.mountChains := by
  rw [Device.mountChains_eq]
  exact (Device.mounts_foldl Device.mounts_joinQueue _ d).trans (Device.mounts_foldl (fun (d : Device) _ => d.mounts_mountChain _ _) _ _)

theorem Device.Mounting.mounts_passes {m : Mount} {serial : Nat} (l : List (Fin 16)) {d : Device} (h : d.Mounting m serial []) :
    d.mounts (l.foldl Device.mountPasses d) := by
  induction l generalizing d with
  | nil => exact .refl d
  | cons st l ih =>
    refine Device.mounts.trans ?_ (ih (h.mountPasses st))
    cases hs : d.stream st with
    | none =>
      rw [Device.mountPasses_none hs]
      exact .refl d
    | some b =>
      obtain ⟨gone, k, -⟩ := h.passes hs
      exact k.queues.frame

/-! ### The tables at the hand-over (R137, R138) -/

/-- Every stream in order, every data sector placed, the executors and the erase engine as they were. -/
structure Device.Mounted (d t : Device) : Prop where
  execs : t.execs = d.execs
  engine : t.engine = d.engine
  places : t.places.Perm dataSectors
  bad : t.badList.length ≤ 32
  runs : ∀ st b, t.stream st = some b → b.InOrder t.pagesOf (t.cursor st)

theorem Device.Scans.mounted {d : Device} (h : d.Scans) (hm : d.mount.ScannedTo 256) : d.Mounted d.mountTables := by
  have hclassed := hm.classed
  obtain ⟨-, hseed⟩ := Device.seedFrom_mounting (d := d) h.freePool h.eraseQueue hclassed.chains hclassed.places
  rw [← Device.seedTables_eq] at hseed
  obtain ⟨e, w, hstreams, hcursors⟩ := Device.mountChains_walked h.freePool h.eraseQueue hclassed
  have hchains := d.seedTables.mounts_mountChains
  obtain ⟨hq, hs⟩ := d.seedTables.mountChains.mountCursors_queues
  have hmounting := Device.mountTables_mounting h.freePool h.eraseQueue hclassed
  have hbefore : d.seedTables.mountChains.mountCursors.Mounting d.mount d.newestSerial [] := by
    refine w.mounting.queues hq ?_
    have hsame : d.seedTables.mountChains.mountCursors.chained = d.seedTables.mountChains.chained :=
      Device.chained_congr fun st => by rw [Device.chainOf, Device.stream, hs, Device.chainOf, Device.stream]
    rw [hsame, List.append_nil, List.append_nil]
  have hframe : d.seedTables.mounts d.mountTables := (hchains.trans hq.frame).trans (hbefore.mounts_passes _)
  have hretained : d.seedTables.mountChains.mount.retained = d.mount.retained := by
    rw [hchains.retained, hseed]
  have hcursor (st : Fin 16) : d.seedTables.mountChains.cursor st = fun _ => none := by
    funext q
    rw [Device.cursor, w.cursors, hcursors]
    exact (h.tables st).2 q
  have hrebuilt : d.seedTables.mountChains.Rebuilt := by
    refine ⟨fun st b hb => ?_, fun st p r hr => hm.lost st p r (by rw [← hretained]; exact hr)⟩
    rw [hcursor st]
    exact hm.chains_built w hstreams hb
  refine ⟨?_, ?_, hmounting.placed, ?_, (hrebuilt.mountCursors.foldl_passes _ hbefore).runs⟩
  · rw [show d.mountTables = _ from hframe, hseed]
  · rw [show d.mountTables = _ from hframe, hseed]
  · rw [hmounting.bad]
    exact hm.length

/-- A part handed over with its tables mounted. -/
theorem Device.Mounted.good {d t : Device} (h : d.Mounted t) (hd : d.Scans) {m : DeviceState} (hm : m ≠ .mounting) (r : Reason)
    (w : Writer) (u : Mount) : ({ t with mode := m, reason := r, writer := w, mount := u } : Device).Placed := by
  refine ⟨hm, h.places.nodup_iff.mpr dataSectors_nodup, h.bad, fun c hc => ?_, fun _ => h.places⟩
  have hcurrent : t.engine.current = some c := hc
  rw [h.engine, hd.current] at hcurrent
  cases hcurrent

theorem Device.Mounted.well {d t : Device} (h : d.Mounted t) (hd : d.Scans) (hr : d.engine.state ≠ .running) {m : DeviceState}
    (hm : m ≠ .mounting) (r : Reason) (w : Writer) (u : Mount) :
    ({ t with mode := m, reason := r, writer := w, mount := u } : Device).OrderedFor everyPort where
  toPlaced := h.good hd hm r w u
  streams := h.runs
  running hrun := absurd (h.engine ▸ hrun) hr
  appends p _ j hj := by
    have hexec : t.exec p = d.exec p := by rw [Device.exec, h.execs, Device.exec]
    have hjob : (t.exec p).job = .append j := hj
    rw [hexec, hd.jobs p] at hjob
    cases hjob

/-- From a mount under way to a good state. -/
structure Device.Leads (d e : Device) : Prop where
  good : e.Good
  well : d.engine.state ≠ .running → e.Well

/-- The erase engine's state is what counts of the part before. -/
theorem Device.Leads.of_engine {d d' e : Device} (h : d'.Leads e) (he : d'.engine = d.engine) : d.Leads e :=
  ⟨h.good, fun hr => h.well (he ▸ hr)⟩

theorem Device.Leads.holds {d e : Device} (hm : d.mode = .mounting) (h : d.Scans → d.Leads e) : d.Holds e where
  good := fun hd => hd.elim (fun hp => absurd hm hp.mode) fun hs => (h hs).good
  well := fun hd => hd.elim (fun hp => absurd hm hp.mode) fun ⟨hs, hr⟩ => (h hs).well hr

theorem Device.Mounted.leads {d t : Device} (h : d.Mounted t) (hd : d.Scans) (w : Writer) (u : Mount) {m : DeviceState}
    (hm : m ≠ .mounting) : d.Leads (({ t with writer := w, mount := u } : Device).enterState m) := by
  have entered (r : Reason) (hr : r = ({ t with writer := w, mount := u } : Device).reasonOnEntry m) :
      ({ t with mode := m, reason := r, writer := w, mount := u } : Device).Steady
        (({ t with writer := w, mount := u } : Device).enterState m) := by
    refine Steady.enterState_of ?_
    rw [← hr]
    exact Steady.refl _
  have hstays := (entered _ rfl).stays
  exact ⟨.inl (hstays.placed (h.good hd hm _ w u)), fun hr => .inl (hstays.ordered (h.well hd hr hm _ w u))⟩

/-! ### The outcomes (R128, R138) -/

theorem Device.Scans.finishMount {d : Device} (h : d.Scans) (hm : d.mount.ScannedTo 256) : d.Leads d.finishMount := by
  rw [Device.finishMount_eq, Device.mountDone]
  dsimp only
  exact (h.mounted hm).leads h _ _ (by split <;> nofun)

/-- The tables of the BLANK outcome, for any list of all the data sectors. -/
theorem Device.Scans.blankTables {d : Device} (h : d.Scans) {all : List Nat} (hall : all.Perm dataSectors) (x : Sector) :
    d.Mounted { all.foldl (fun d n => d.setSector n x) d with eraseQueue := all } := by
  have hframe := Device.foldl_setSector_frame x all d
  generalize all.foldl (fun d n => d.setSector n x) d = e at hframe ⊢
  have hstream (st : Fin 16) : e.stream st = none := by
    rw [hframe]
    exact (h.tables st).1
  have hpool : e.freePool = [] := by rw [hframe]; exact h.freePool
  have hbad : e.badList = [] := by rw [hframe]; exact h.badList
  refine ⟨by rw [hframe], by rw [hframe], ?_, ?_, fun st b hb => nomatch (hstream st).symm.trans hb⟩
  · have hchained : ({ e with eraseQueue := all } : Device).chained = [] := by
      rw [Device.chained_eq, List.flatMap_eq_nil_iff]
      intro st _
      show (match e.stream st with | some b => b.chain | none => []) = []
      rw [hstream st]
    rw [Device.places_eq, hchained]
    show ([] ++ e.freePool ++ all ++ e.badList).Perm dataSectors
    rw [hpool, hbad, List.append_nil]
    exact hall
  · show e.badList.length ≤ 32
    rw [hbad]
    exact Nat.zero_le _

/-- The BLANK outcome with the data sectors as a list of their own. -/
def Device.blankWith (d : Device) (all : List Nat) : Device :=
  let d := all.foldl (fun d n => d.setSector n { Sector.blank with state := .queued }) d
  let d := { d with
    eraseQueue := all, writer := { Writer.powerUp with nextSerial := 1 }, mount := d.mount.over .done }
  d.enterState .blank

theorem Device.mountBlank_eq (d : Device) : d.mountBlank = d.blankWith dataSectors := by
  unfold Device.mountBlank Device.blankWith
  with_reducible rfl

theorem Device.Scans.blankWith {d : Device} (h : d.Scans) {all : List Nat} (hall : all.Perm dataSectors) :
    d.Leads (d.blankWith all) := by
  have htables := h.blankTables hall { Sector.blank with state := .queued }
  unfold Device.blankWith
  generalize all.foldl (fun d n => d.setSector n { Sector.blank with state := .queued }) d = e at htables ⊢
  dsimp only
  exact htables.leads h { Writer.powerUp with nextSerial := 1 } (e.mount.over .done) (m := .blank) nofun

theorem Device.Scans.mountBlank {d : Device} (h : d.Scans) : d.Leads d.mountBlank := by
  rw [Device.mountBlank_eq]
  exact h.blankWith (.refl _)

/-! ### The reads (R123 to R131) -/

/-- The mount unit's tables and read replaced, in step. -/
theorem Device.Scans.reading {d : Device} (h : d.Scans) {m : Mount} {op : ArrayOp} (hop : ∀ n page, op = .read n page → m.scanned n) :
    ({ d with mount := m, arrayOp := op } : Device).Scans :=
  ⟨h.mode, h.holder, h.current, h.jobs, h.tables, h.freePool, h.eraseQueue, h.badList, hop⟩

theorem Device.Scans.reads_on {d : Device} (h : d.Scans) {m : Mount} {n page : Nat} (hm : m.scanned n) :
    d.Leads (({ d with mount := m } : Device).mountRead n page) := by
  have hscans : (({ d with mount := m } : Device).mountRead n page).Scans := h.reading fun k _ hk => by
    cases hk
    exact hm
  exact ⟨.inr hscans, fun hr => .inr ⟨hscans, hr⟩⟩

theorem Device.Scans.scanFrom {d : Device} (h : d.Scans) {m : Mount} {n : Nat} (hm : m.ScannedTo n) :
    d.Leads (({ d with mount := m } : Device).scanFrom n) := by
  cases hk : m.nextSector n with
  | some k =>
    rw [Device.scanFrom, show ({ d with mount := m } : Device).mount.nextSector n = some k from hk]
    exact h.reads_on (hm.next hk)
  | none =>
    rw [Device.scanFrom_none hk]
    exact ((h.reading (m := m) (op := .none) nofun).finishMount (hm.last hk)).of_engine rfl

/-- Before the scan of the data sectors. -/
theorem Mount.scanned_meta {m : Mount} {n : Nat} (h : m.scanned n) (hn : n < 4) :
    m.Tabled ∧ m.finds = ([], [], []) ∧ ∀ k, k < 4 → m.scanned k := by
  obtain ⟨h1, h2, h3, -⟩ := h
  obtain ⟨hbad, hfree, hreleased, howned⟩ := h3 hn
  refine ⟨⟨h1, h2, ?_, ?_, ?_⟩, ?_, fun k hk => ⟨h1, h2, fun _ => ⟨hbad, hfree, hreleased, howned⟩, fun hge => by omega⟩⟩
  · rw [hbad]; exact List.nodup_nil
  · rw [hbad]; exact Nat.zero_le _
  · rw [hbad]; nofun
  · rw [Mount.finds, hfree, hreleased, howned]

theorem Device.Scans.metaScanEnds {d : Device} (h : d.Scans) (hm : d.mount.scanned 3) (flash : Flash) :
    d.Leads (d.metaScanEnds flash) := by
  unfold Device.metaScanEnds
  split
  · exact (h.reading (m := d.mount) (op := .none) nofun).mountBlank.of_engine rfl
  · rename_i half c hchoice
    obtain ⟨htabled, hfinds, -⟩ := Mount.scanned_meta hm (by decide)
    obtain ⟨hreplayed, hsame⟩ := htabled.replay (f := flash) (half := half) (qualify_ranged (chooseHalf_qualified hchoice))
    refine h.scanFrom (m := { d.mount.replay flash half c with phase := .dataScan }) ?_
    have hfound : (d.mount.replay flash half c).finds = ([], [], []) := hsame.trans hfinds
    obtain ⟨hfree, hrest⟩ := Prod.mk.inj hfound
    obtain ⟨hreleased, howned⟩ := Prod.mk.inj hrest
    refine ⟨⟨hreplayed.chains, hreplayed.lost, hreplayed.nodup, hreplayed.length, hreplayed.data⟩, ⟨Nat.le_refl 4, by decide⟩,
      ?_, fun o ho => ?_⟩
    · show ((d.mount.replay flash half c).freeFound ++ (d.mount.replay flash half c).released ++
        (d.mount.replay flash half c).owned.map OwnedSector.sector).Perm _
      rw [hfree, hreleased, howned]
      exact .refl _
    · have hin : o ∈ (d.mount.replay flash half c).owned := ho
      rw [howned] at hin
      cases hin

theorem Device.mountReadDone_holds {d : Device} (hm : d.mode = .mounting) (flash : Flash) {sector page : Nat}
    (hop : d.arrayOp = .read sector page) : d.Holds (d.mountReadDone flash sector page) := by
  refine Device.Leads.holds hm fun h => ?_
  have hscanned := h.reads sector page hop
  unfold Device.mountReadDone
  split
  · exact h.reads_on hscanned
  · split
    · obtain ⟨-, -, hmeta⟩ := Mount.scanned_meta hscanned (by omega)
      exact h.reads_on (hmeta (sector + 1) (by omega))
    · split
      · rename_i hthree
        exact h.metaScanEnds (hthree ▸ hscanned) flash
      · obtain ⟨hto, hlt, hbad⟩ := (Mount.scanned_iff (by omega)).mp hscanned
        exact h.scanFrom (hto.classify hlt hbad (flash.sectorPages_length sector))

/-- A mount's read ends; outside MOUNTING it is discarded (R123, R124). -/
theorem Device.mountPageDone_holds (d : Device) (flash : Flash) : d.HoldsIn (d.mountPageDone flash) := by
  rintro x h
  unfold Device.mountPageDone at h
  split at h
  · rename_i sector page hholder hop
    split at h <;> cases h
    · exact Device.mountReadDone_holds ‹_› flash hop
    · exact (Device.mountReadEnds_stays hholder).unmounted fun hd => absurd hd.mode ‹_›
  · cases h

end Sys2Proof.Machine
end

