-- ==== Sys2Proof/Proofs/PlacesAndCursors.lean ====
section
/-! Every command keeps the sectors in place and the streams in order, and with it the last two step invariants (R4, R11 to
R16, R36, R49, R50, R53). -/

namespace Sys2Proof.Machine

open Sys2Proof

-- One process elaborates the whole text: proofs taken in turn stay within its memory.
set_option Elab.async false

/-! ### What a grant names (R36, R53) -/

theorem Device.grantRead_names {d : Device} {p : Port} {st : Fin 16} {inc : Byte} (h : d.cursorsGood) {st' : Fin 16} {inc' : Byte}
    {seq sector page : Nat} {b : StreamBody} (hj : ((d.grantRead p st inc).exec p).job = .reading st' inc' seq sector page)
    (hb : d.stream st' = some b) : st' = st ∧ inc' = inc ∧ seq < b.next := by
  have answered (status : Status) (body : List Byte) : ¬ ((d.release.answer p status body).exec p).job = .reading st' inc' seq sector page := by
    rw [Device.answer_exec]
    nofun
  unfold Device.grantRead at hj
  split at hj
  · exact absurd hj (answered _ _)
  · split at hj
    · exact absurd hj (answered _ _)
    · rename_i b₀ hs
      split at hj
      · exact absurd hj (answered _ _)
      · split at hj
        · exact absurd hj (answered _ _)
        · rename_i c hc
          split at hj
          · exact absurd hj (answered _ _)
          · rename_i hne
            split at hj
            · exact absurd hj (answered _ _)
            · rename_i n at' _
              have hjob : ((d.toExec p .onArray (.reading st inc c.delivered n at')).exec p).job =
                  .reading st' inc' seq sector page := hj
              rw [Device.toExec, Device.exec_setExec] at hjob
              cases hjob
              obtain rfl := Option.some.inj (hs.symm.trans hb)
              obtain ⟨-, -, -, hle, -⟩ := ((Device.cursorsGood_iff d).mp h st b₀ hs).cursors p c hc
              exact ⟨rfl, rfl, Nat.lt_of_le_of_ne hle hne⟩

/-- The append of an executor, if it has one, has no page yet. -/
def Device.seeks (d : Device) (p : Port) : Prop := ∀ k, (d.exec p).job = .append k → k.phase = .seek

theorem Device.answer_seeks (d : Device) (p : Port) (status : Status) (body : List Byte) : (d.answer p status body).seeks p := by
  intro k hk
  rw [Device.answer_exec] at hk
  cases hk

theorem Device.toExec_seeks (d : Device) (p : Port) (v : ExecState) (j : AppendJob) :
    (d.toExec p v (.append { j with phase := .seek })).seeks p := by
  intro k hk
  rw [Device.toExec, Device.exec_setExec] at hk
  cases hk
  rfl

theorem Device.seeks.waits {d : Device} {p : Port} (h : d.seeks p) :
    ((d.joinPlaceWait (.executor p)).toExecState p .waitStaging).seeks p := by
  have hexec : (d.joinPlaceWait (.executor p)).exec p = d.exec p := by
    unfold Device.joinPlaceWait
    split <;> rfl
  intro k hk
  rw [Device.toExecState, Device.exec_setExec, hexec] at hk
  exact h k hk

theorem Device.allocateOrWait_seeks (d : Device) (p : Port) (j : AppendJob) : (d.allocateOrWait p j).seeks p := by
  unfold Device.allocateOrWait
  split
  · exact Device.toExec_seeks _ p _ j
  · split
    · exact d.answer_seeks p _ _
    · exact d.toExec_seeks p .waitSpace j

theorem Device.findPlace_seeks (d : Device) (p : Port) (j : AppendJob) : (d.findPlace p j).seeks p := by
  unfold Device.findPlace
  split
  · exact d.answer_seeks p _ _
  · split
    · exact d.toExec_seeks p _ j
    · split
      · exact d.allocateOrWait_seeks p j
      · split
        · exact d.answer_seeks p _ _
        · unfold Device.withPlaces
          dsimp only
          split
          · exact Device.allocateOrWait_seeks _ p j
          · exact (d.toExec_seeks p .check j).waits

theorem Device.grantStep1_names {d : Device} {p : Port} {j k : AppendJob} (h : d.sectorsGood)
    (hk : ((d.grantStep1 p j).exec p).job = .append k) (hphase : k.phase = .step1) :
    ∃ b, d.stream j.stream = some b ∧ k.stream = j.stream ∧ k.sector ∈ b.chain ∧
      ∀ st b', st ≠ j.stream → d.stream st = some b' → k.sector ∉ b'.chain := by
  have seeking {e : Device} (he : e.seeks p) : ¬ (e.exec p).job = .append k := fun hjob => nomatch (he k hjob).symm.trans hphase
  unfold Device.grantStep1 at hk
  split at hk
  · exact absurd hk (seeking (Device.answer_seeks _ p _ _))
  · split at hk
    · exact absurd hk (seeking (Device.answer_seeks _ p _ _))
    · rename_i b hs
      split at hk
      · exact absurd hk (seeking (Device.findPlace_seeks _ p j))
      · rename_i n ht
        split at hk
        · exact absurd hk (seeking (Device.findPlace_seeks _ p j))
        · rename_i page _
          have hjob : (((d.takePage j.stream n page).toExec p .onArray
              (.append { j with phase := .step1, sector := n, page := page })).exec p).job = .append k := hk
          rw [Device.toExec, Device.exec_setExec] at hjob
          cases hjob
          have hin : n ∈ b.chain := by
            unfold Device.tailOf at ht
            split at ht
            · rename_i hlast
              split at ht <;> cases ht
              exact List.mem_of_getLast? hlast
            · cases ht
          exact ⟨b, hs, rfl, hin, fun st b' hne hb' => Device.chains_apart h.1 hs hb' hne hin⟩

/-! ### Commands -/

theorem State.event_holds {s : State} {f : Device → Option Device} (hf : ∀ d', f s.dev = some d' → s.dev.Holds d') :
    s.dev.Holds (s.event f).dev := by
  unfold State.event
  split
  · split
    exacts [(hf _ ‹_›).trans (Device.settle_holds _), .refl _]
  · exact .refl _

theorem State.report_holds {s : State} {f : Device → Flash → Option Rig} (hf : s.dev.HoldsIn (f s.dev s.flash)) :
    s.dev.Holds (s.report f).dev := by
  unfold State.report
  split
  · split
    · exact Device.Holds.trans (hf _ ‹_›) (Device.settle_holds _)
    · exact .refl _
  · exact .refl _

theorem State.arrival_holds (s : State) (p : Port) (r : Request) : s.dev.Holds (s.arrival p r).dev :=
  State.event_holds fun _ h => by cases h; exact ((Device.Steady.refl _).arrive p r).holds

theorem State.transaction_holds (s : State) (p : Port) (code : Byte) (rest : Edge (List Byte)) :
    s.dev.Holds (s.transaction p code rest).dev := by
  refine State.event_holds fun d' h => ?_
  cases rest with
  | ends bytes => cases h; exact s.dev.transactionEnds_holds p code bytes
  | begins => exact Device.transactionBegins_holds h

theorem exec_holds {c : Instr} {s t : State} (h : exec c s = .next t) : s.dev.Holds t.dev := by
  cases c <;> cases h
  case send => exact s.transaction_holds _ _ _
  case fetch => exact s.transaction_holds _ _ _
  case linkReset => exact s.transaction_holds _ _ _
  case otherTransactionCode => exact s.transaction_holds _ _ _
  case resetnAsserted => split; exacts [.refl _, Device.wiped_holds _ _ _ _]
  case supplyLoss => split; exacts [Device.wiped_holds _ _ _ _, .refl _]
  case resetnReleased =>
    have low : s.dev.Holds { s.dev with resetLow := false } := (s.dev.setPins_steady _ _ _).holds
    split
    · dsimp only
      split
      exacts [Device.restart_holds _ _, low]
    · exact .refl _
  case endOfPowerUp =>
    have supplied : s.dev.Holds { s.dev with powered := true } := (s.dev.setPins_steady _ _ _).holds
    split
    · exact .refl _
    · dsimp only
      split
      exacts [supplied, Device.restart_holds _ _]
  case pfailAsserted =>
    split
    · exact State.event_holds fun _ h => by cases h; exact s.dev.pfailRises_holds
    · exact (s.dev.setPins_steady _ _ _).holds
  case pfailReleased =>
    split
    · exact State.event_holds fun _ h => by cases h; exact s.dev.pfailFalls_holds
    · exact (s.dev.setPins_steady _ _ _).holds
  case spaceTimerExpiry => exact State.event_holds fun _ => Device.spaceTimeout_holds
  case flushTimerExpiry => exact State.event_holds fun _ => Device.flushTimeout_holds
  case starvationTimerExpiry => exact State.event_holds fun _ => Device.starvationTimeout_holds
  case runTimerExpiry => exact State.event_holds fun _ => Device.runTimeout_holds
  case windowTimerExpiry => exact State.event_holds fun _ => Device.windowTimeout_holds
  case readPageDone => exact State.report_holds (s.dev.readPageDone_holds _)
  case mountReadDone => exact State.report_holds (s.dev.mountPageDone_holds _)
  case appendStep1Done => exact State.report_holds (s.dev.appendStep1Done_holds _)
  case appendStep2Done => exact State.report_holds (s.dev.appendStep2Done_holds _)
  case appendStepFail => exact State.report_holds (s.dev.appendStepFail_holds _)
  case appendVoidStepEnd verified => exact State.report_holds (s.dev.appendVoidEnd_holds _ verified)
  case metaStep1Done => exact State.report_holds (s.dev.metaStep1Done_holds _)
  case metaStep2Done => exact State.report_holds (s.dev.metaStep2Done_holds _)
  case metaStepFail => exact State.report_holds (s.dev.metaStepFail_holds _)
  case metaVoidStepEnd verified => exact State.report_holds (f := Device.metaVoidEnd verified) (s.dev.metaVoidEnd_holds _ verified)
  case checkpointPageCommit => exact State.report_holds (s.dev.checkpointStep2Done_holds _)
  case erasePulseEnd verified => exact State.report_holds fun _ => Device.erasePulseEnd_holds _ _ _
  case suspended => exact State.report_holds fun _ => Device.suspendedReport_holds _ _
  case abandoned => exact State.report_holds fun _ => Device.abandonedReport_holds _ _
  all_goals exact s.arrival_holds _ _

theorem step_holds {s t : State} (h : step s = .next t) : s.dev.Holds t.dev :=
  step_keeps (P := fun d _ => s.dev.Holds d) (fun _ _ _ hs ht => hs.trans (exec_holds ht)) (.refl _) h

/-- Settles O57: every operation moves sectors from place to place alone, and a mount's scan puts each in one class. -/
theorem sectorsStayInOnePlace : Obligations.SectorsStayInOnePlace := by
  intro s t hs h
  exact (Device.good_iff _).mp ((step_holds h).good ((Device.good_iff _).mpr hs))

/-- Settles O58: every operation leaves each stream's records one run and its cursors in order, and what it gives up of an
append in execution it gives up whole. -/
theorem cursorsStayInOrder : Obligations.CursorsStayInOrder := by
  refine ⟨fun s t hs h => ?_, fun d p st inc hd st' inc' seq sector page b hj _ hb => Device.grantRead_names hd hj hb,
    fun d p j k hd _ _ hk hphase => Device.grantStep1_names hd hk hphase⟩
  exact (Device.well_iff _).mp ((step_holds h).well ((Device.well_iff _).mpr hs))

end Sys2Proof.Machine
end
